-- ==== Sys2Proof/Word.lean ====
section
/-! DEFINITION. The word types of the Neleus 4: bytes, the 64-bit scalars and the 32-bit lane
registers, and the plainest helpers over them. -/
namespace Sys2Proof

abbrev Byte := BitVec 8
abbrev W16 := BitVec 16
abbrev W32 := BitVec 32
abbrev W64 := BitVec 64
abbrev W96 := BitVec 96

/-- A virtual address of 57 bits, as a plain number (03 R49, R82). -/
abbrev Addr := Nat

/-- A bit as a number. -/
def bitOf (b : Bool) : Nat := if b then 1 else 0

end Sys2Proof
end

