-- ==== Sys2Proof/Syntax.lean ====
section
/-! DEFINITION. The instructions of the Neleus 4 as data: one constructor per row of the opcode table, with its
operands. Slot instructions carry their stage predicate (R59), lane instructions their lane
predicate (R150); the machine's own events carry the names of the units they act on. -/
namespace Sys2Proof

/-! ## Operand types -/

/-- Scalar register s0 to s31 (R49). -/
abbrev SReg := BitVec 5
/-- Vector register v0 to v127 (R54). -/
abbrev VReg := BitVec 7
/-- Accumulator tile A0 to A7 (R49). -/
abbrev TileReg := BitVec 3
/-- Lane register g0 to g255 (R153). -/
abbrev GReg := BitVec 8
/-- Predicate q0-q7 or k0-k7 (R55, R158). -/
abbrev PReg := BitVec 3
/-- Order handle o0 to o15 (R49). -/
abbrev Handle := BitVec 4
/-- Circular-buffer handle c0 to c31 (R67). -/
abbrev RingReg := BitVec 5
/-- A tile operand descriptor (R68). -/
abbrev Desc := BitVec 16
/-- A logical operand slot l0 to l63 (R227). -/
abbrev LSlot := BitVec 6

/-- The stage predicate of a slot: enable and selector (R59). -/
structure Guard where
  spe : Bool
  qsel : PReg
  deriving DecidableEq, Repr, Inhabited

/-- The predicate selection of a lane instruction (R150, R159). -/
structure Pred where
  neg : Bool
  sel : PReg
  deriving DecidableEq, Repr, Inhabited

/-- Element formats (R21). A binary8 format has a precision 1 to 7, `uns` for the unsigned and
`fin` for the finite-only variants. -/
inductive Fmt where
  | fp32 | bf16 | fp16 | fp64 | fp32x | int8 | uint8 | int16 | int32
  | b8 (p : Nat) (uns fin : Bool)
  deriving DecidableEq, Repr, Inhabited

/-- Rounding modes (R34). -/
inductive Rm where
  | rne | rtz | rup | rdn | sr
  deriving DecidableEq, Repr, Inhabited

/-- Scopes of an ordering promise (R73). -/
inductive Scope where
  | core | cluster | die | device | system
  deriving DecidableEq, Repr, Inhabited

/-- Access sizes of scalar and lane accesses (R81, R186). -/
inductive Size where
  | b8 | b16 | b32 | b64
  deriving DecidableEq, Repr, Inhabited

/-- Functions of SOP (R76). -/
inductive SopFn where
  | add | sub | mul | mulhs | mulhu | divs | divu | rems | remu | and | or | xor
  | shl | shr | sra | min | max | minu | maxu | fadd | fsub | fmul | fmin | fmax
  deriving DecidableEq, Repr, Inhabited

/-- Functions of SOPI (R77). -/
inductive SopiFn where
  | add | and | or | xor | shl | shr | sra
  deriving DecidableEq, Repr, Inhabited

/-- Conditions of SCMP (R79). -/
inductive ScmpCc where
  | eq | ne | lt | ge | ltu | geu | feq | flt | fle | funord
  deriving DecidableEq, Repr, Inhabited

/-- Conditions of WAITS and LWAIT (R86, R192). -/
inductive WaitCc where
  | eq | ne | geu | ltu
  deriving DecidableEq, Repr, Inhabited

/-- Strength of a fence (R87). -/
inductive FenceKind where
  | full | rel | acq
  deriving DecidableEq, Repr, Inhabited

/-- Functions of VOP2 (R106). -/
inductive Vop2Fn where
  | add | sub | mul | min | max | mulh | absd
  deriving DecidableEq, Repr, Inhabited

/-- Functions of VFMA and HFMA (R108, R177). -/
inductive VfmaFn where
  | fma | fms | fnma
  deriving DecidableEq, Repr, Inhabited

/-- Functions of VOP1 (R109). -/
inductive Vop1Fn where
  | mov | neg | abs | relu | relud | rint
  deriving DecidableEq, Repr, Inhabited

/-- Conditions of VCMP, FCMP and DCMP (R110, R172). -/
inductive FCc where
  | eq | ne | lt | le | gt | ge | un
  deriving DecidableEq, Repr, Inhabited

/-- Functions of VRED (R112). -/
inductive VredFn where
  | sum | max | min | amax
  deriving DecidableEq, Repr, Inhabited

/-- Functions of VINT (R107). -/
inductive VintFn where
  | and | or | xor | andn | shl | shr | sra
  deriving DecidableEq, Repr, Inhabited

/-- Special functions of VSFU and SFU (R123, R180). -/
inductive SfuFn where
  | rcp | rsq | exp2 | log2 | sinpi | cospi
  deriving DecidableEq, Repr, Inhabited

/-- Window of VLDT and VSTT (R116). -/
inductive Win where
  | own | peer | mcast
  deriving DecidableEq, Repr, Inhabited

/-- A side of a transfer (R260). -/
inductive Side where
  | gm | ts | ring
  deriving DecidableEq, Repr, Inhabited

/-- Completion signal of a transfer (R260). -/
inductive Cmpl where
  | none | eyelet | stamp
  deriving DecidableEq, Repr, Inhabited

/-- The fields of MMA and MMAH that the two share (R232). -/
structure MmaOp where
  nm1 : BitVec 7
  mm1 : BitVec 7
  slb : LSlot
  sla : LSlot
  tb : Bool
  ta : Bool
  fmt : Fmt
  cmp : Bool
  acc : Bool
  ad : TileReg
  deriving DecidableEq, Repr, Inhabited

/-- The layout that the transfer commands share (R260). -/
structure KXfer where
  sdesc : Desc
  ddesc : Desc
  stsc : Scope
  se : SReg
  cmpl : Cmpl
  adv : Bool
  ch : BitVec 2
  oh : Handle
  src : Side
  dst : Side
  sn : SReg
  ss : SReg
  sd : SReg
  deriving DecidableEq, Repr, Inhabited

/-- The operands of a command that runs on a gang slot (R142). -/
structure SOp where
  sa : SReg
  d0 : Desc
  d1 : Desc
  d2 : Desc
  deriving DecidableEq, Repr, Inhabited

/-- Functions of LID (R164). -/
inductive LidFn where
  | lane | gang | depth | live | core
  deriving DecidableEq, Repr, Inhabited

/-- Functions of IOP and IOPI (R165). -/
inductive IopFn where
  | add | sub | mul | mulhs | mulhu | and | or | xor | andn | shl | shr | sra | min | max | minu | maxu
  deriving DecidableEq, Repr, Inhabited

/-- Functions of IDIV (R166). -/
inductive IdivFn where
  | divs | divu | rems | remu
  deriving DecidableEq, Repr, Inhabited

/-- Functions of IMAD (R167). -/
inductive ImadFn where
  | mad | madws | madwu
  deriving DecidableEq, Repr, Inhabited

/-- Functions of ISAT (R168). -/
inductive IsatFn where
  | adds | subs | addus | subus
  deriving DecidableEq, Repr, Inhabited

/-- Functions of IBIT (R169). -/
inductive IbitFn where
  | popc | clz | ctz | brev | bswap | not | neg | abs
  deriving DecidableEq, Repr, Inhabited

/-- Conditions of the integer compares of lanes (R172). -/
inductive ICc where
  | eq | ne | lt | le | gt | ge | ltu | leu | gtu | geu
  deriving DecidableEq, Repr, Inhabited

/-- Functions of PLOP (R173). -/
inductive PlopFn where
  | and | or | xor | andn | not | set
  deriving DecidableEq, Repr, Inhabited

/-- Functions of PMOV (R173). -/
inductive PmovFn where
  | p2g | g2p
  deriving DecidableEq, Repr, Inhabited

/-- Functions of IOP64 (R171). -/
inductive Iop64Fn where
  | add | sub | mul | and | or | xor | shl | shr | sra | min | max | minu | maxu
  deriving DecidableEq, Repr, Inhabited

/-- Functions of FOP (R174). -/
inductive FopFn where
  | add | sub | mul | div | min | max | csgn
  deriving DecidableEq, Repr, Inhabited

/-- Functions of FFMA and DFMA (R175, R178). -/
inductive FfmaFn where
  | fma | fms | fnma | fnms
  deriving DecidableEq, Repr, Inhabited

/-- Functions of FUN (R176). -/
inductive FunFn where
  | sqrt | neg | abs | rint | cls
  deriving DecidableEq, Repr, Inhabited

/-- Functions of HOP (R177). -/
inductive HopFn where
  | add | sub | mul | min | max
  deriving DecidableEq, Repr, Inhabited

/-- Functions of DOP (R178). -/
inductive DopFn where
  | add | sub | mul | div | min | max
  deriving DecidableEq, Repr, Inhabited

/-- Functions of DUN (R178). -/
inductive DunFn where
  | sqrt | neg | abs | rint
  deriving DecidableEq, Repr, Inhabited

/-- Functions of ATOM and ATOMTS (R193). -/
inductive AtomFn where
  | add | and | or | xor | min | max | minu | maxu | swap | fadd
  deriving DecidableEq, Repr, Inhabited

/-- Functions of VOTE (R197). -/
inductive VoteFn where
  | all | any | ballot | count
  deriving DecidableEq, Repr, Inhabited

/-- Functions of SHFL (R198). -/
inductive ShflFn where
  | idx | up | down | xor
  deriving DecidableEq, Repr, Inhabited

/-- Operations of SCAN and LRED (R199). -/
inductive ScanOp where
  | add | min | max | minu | maxu | and | or | fadd
  deriving DecidableEq, Repr, Inhabited

/-- The modifier layout of the float lane forms (R163). -/
structure FMod where
  sat : Bool
  rm : Rm
  deriving DecidableEq, Repr, Inhabited

/-! ## Instructions and events -/

/-- A firmware image as the boot ROM finds it: its bytes and its signature (R421). -/
structure Firmware where
  bytes : List Byte
  sig : List Byte
  deriving DecidableEq, Repr, Inhabited

/-- What a start finds: the REASON of each stage's own test, 0 where it passes, for the stages that have run, and the
firmware images by class (R426, R428). -/
structure BootRun where
  tests : List Nat
  images : List Firmware
  deriving DecidableEq, Repr, Inhabited

/-- What the enumeration of a CXL port finds (R391, R392): nothing that comes up, memory of so many GiB, or a
component that uses a part the device does not support, with its status. -/
inductive CxlPart where
  | none
  | memory (gib : Nat)
  | unsupported (status : Nat)
  deriving DecidableEq, Repr, Inhabited

/-- One constructor per row of the opcode table, in the table's order. -/
inductive Instr where
  -- the bundle as a whole (R64, R58)
  | bundleIssue
  | nullBundle (selv : Bool)
  -- C slot (R72)
  | nop (g : Guard)
  | sop (g : Guard) (fn : SopFn) (d a b : SReg)
  | sopi (g : Guard) (fn : SopiFn) (d a : SReg) (imm : BitVec 8)
  | smovi (g : Guard) (d : SReg) (imm : BitVec 16)
  | scmp (g : Guard) (cc : ScmpCc) (imm : Bool) (qd : PReg) (a b : SReg)
  | sld (g : Guard) (sz : Size) (ts sx : Bool) (off : BitVec 7) (a d : SReg)
  | sst (g : Guard) (sz : Size) (ts : Bool) (off : BitVec 7) (a b : SReg)
  | br (g : Guard) (off : BitVec 20)
  | brInd (g : Guard) (a : SReg)
  | call (g : Guard) (off : BitVec 20)
  | callInd (g : Guard) (a : SReg)
  | ret (g : Guard) (a : SReg)
  | advr (g : Guard) (nm1 : BitVec 5) (h : RingReg)
  | advw (g : Guard) (nm1 : BitVec 5) (h : RingReg)
  | cfgr (g : Guard) (reg : BitVec 12) (d : SReg)
  | cfgw (g : Guard) (reg : BitVec 12) (a : SReg)
  | tshapeWrite (g : Guard) (n : TileReg) (a : SReg)
  | cbdescWrite (g : Guard) (k : RingReg) (a : SReg)
  | srstateWrite (g : Guard) (a : SReg)
  | mfmtWrite (g : Guard) (a : SReg)
  | moncfgWrite (g : Guard) (m : BitVec 2) (j : Nat) (a : SReg)
  | logpWrite (g : Guard) (a : SReg)
  | haccWrite (g : Guard) (a : SReg)
  | waits (g : Guard) (cc : WaitCc) (scope : Scope) (b a : SReg) (qd : PReg)
  | waitsTimeout (core : Nat)
  | fence (g : Guard) (scope : Scope) (istr eng : Bool) (kind : FenceKind)
  | fork (g : Guard) (mask : BitVec 16) (parent : Handle)
  | join (g : Guard) (mask : BitVec 16) (target : Handle)
  | hpass (g : Guard) (oh : Handle) (a d : SReg)
  | bar (g : Guard) (scope : Scope) (id : BitVec 3)
  | barComplete (core : Nat)
  | launch (g : Guard) (dep : Bool) (b a d : SReg)
  | bind (g : Guard) (topc : BitVec 7) (a d : SReg)
  | recon (g : Guard)
  | recoff (g : Guard)
  | monsetArm (g : Guard) (m : BitVec 2)
  | monsetDisarm (g : Guard) (m : BitVec 2)
  | monsetCheck (g : Guard) (m : BitVec 2)
  | unpick (g : Guard) (a d : SReg)
  | loop (g : Guard) (bodym1 : BitVec 6) (stm1 lvm1 : BitVec 3) (rall rot : Bool)
  | iterIdx (g : Guard) (lv : BitVec 3) (d : SReg)
  | iterPass (g : Guard) (d : SReg)
  | iterExit (g : Guard)
  | sys (g : Guard)
  | sysServiceCall (g : Guard) (imm : BitVec 16)
  | tret (g : Guard)
  | brk (g : Guard) (imm : BitVec 16)
  -- V slot (R104)
  | vop2 (g : Guard) (fn : Vop2Fn) (bs sat : Bool) (rm : Rm) (fmt : Fmt) (vb va vd : VReg)
  | vfma (g : Guard) (fn : VfmaFn) (bs sat : Bool) (rm : Rm) (fmt : Fmt) (vc vb va vd : VReg)
  | vop1 (g : Guard) (fn : Vop1Fn) (sat : Bool) (rm : Rm) (fmt : Fmt) (va vd : VReg)
  | vcmp (g : Guard) (qd : PReg) (qw : Bool) (cc : FCc) (bs : Bool) (fmt : Fmt) (vb va vd : VReg)
  | vsel (g : Guard) (bs : Bool) (fmt : Fmt) (vc vb va vd : VReg)
  | vred (g : Guard) (fn : VredFn) (fmt : Fmt) (va : VReg) (sd : SReg)
  | vrows (g : Guard) (sz : Size) (cntm1 doff soff : BitVec 9) (va vd : VReg)
  | vcols (g : Guard) (put : Bool) (sz : Size) (col : BitVec 9) (tile : TileReg) (va vd : VReg)
  | vcvt (g : Guard) (tgt : Fmt) (part : BitVec 2) (sat : Bool) (rm : Rm) (frm : Fmt) (va vd : VReg)
  | vcvto (g : Guard) (desc : Desc) (rm : Rm) (tgt : Fmt) (sat : Bool) (part : BitVec 2) (sd : SReg) (va vd : VReg)
  | vsca (g : Guard) (pint : Bool) (rm : Rm) (vc vb va vd : VReg)
  | vsfu (g : Guard) (fn : SfuFn) (va vd : VReg)
  | vint (g : Guard) (fn : VintFn) (bs : Bool) (fmt : Fmt) (vb va vd : VReg)
  | vmovi (g : Guard) (imm : BitVec 32) (fmt : Fmt) (vd : VReg)
  | vldt (g : Guard) (desc : Desc) (rowix : BitVec 10) (win : Win) (peer : BitVec 2) (am : Bool) (oh : Handle) (sa : SReg) (vd : VReg)
  | vstt (g : Guard) (desc : Desc) (rowix : BitVec 10) (win : Win) (peer : BitVec 2) (am : Bool) (oh : Handle) (sa : SReg) (vs : VReg)
  -- M slot (R232)
  | mlease (g : Guard)
  | munlease (g : Guard)
  | mclaim (g : Guard) (cntm1 first : LSlot)
  | mrels (g : Guard) (cntm1 first : LSlot)
  | mma (g : Guard) (km1 : BitVec 10) (o : MmaOp)
  | mmah (g : Guard) (sh : SReg) (gselA gselB : Bool) (km1 : BitVec 7) (o : MmaOp)
  | mmahFetchComplete (core cmd : Nat)
  | arrayCommandComplete (cluster : Nat)
  | mdrain (g : Guard)
  | mzero (g : Guard) (ad : TileReg)
  | mzeroBusyEnd (core tile : Nat)
  | leaseTermEnd (cluster : Nat)
  -- K slot (R260, R276)
  | kcopy (g : Guard) (x : KXfer)
  | kfill (g : Guard) (x : KXfer)
  | kgang (g : Guard) (x : KXfer)
  | kmcast (g : Guard) (x : KXfer)
  | kcgrad (g : Guard) (x : KXfer) (tgt : Fmt) (rm : Rm) (nbm1 : BitVec 6)
  | keyeInit (g : Guard) (oh : Handle) (mc : Bool) (sa se : SReg)
  | keyeAdd (g : Guard) (oh : Handle) (mc : Bool) (sa se : SReg)
  | keyeWait (g : Guard) (oh : Handle) (sa se : SReg)
  | kpull (g : Guard) (x : KXfer) (peer : BitVec 2)
  | transferPiece (core cmd piece : Nat)
  | commandCompletion (core cmd : Nat)
  -- S slot and dispatch (R142, R148)
  | xpose (g : Guard) (o : SOp)
  | gather (g : Guard) (o : SOp)
  | scatter (g : Guard) (o : SOp)
  | softmax (g : Guard) (o : SOp)
  | lnorm (g : Guard) (o : SOp)
  | topk (g : Guard) (o : SOp)
  | sort (g : Guard) (o : SOp)
  | segsum (g : Guard) (o : SOp)
  | stitchDispatch (g : Guard) (opc : BitVec 7) (o : SOp) (hi : BitVec 32)
  | sCommandCompletion (core gang : Nat)
  -- lanes: computation (R161)
  | lnop (p : Pred)
  | movi (p : Pred) (d : GReg) (imm : BitVec 16)
  | movhi (p : Pred) (d a : GReg) (imm : BitVec 16)
  | mov (p : Pred) (d a : GReg)
  | movd (p : Pred) (d a : GReg)
  | sel (p : Pred) (w : Bool) (k : PReg) (d a b : GReg)
  | lid (p : Pred) (fn : LidFn) (d : GReg)
  | iop (p : Pred) (fn : IopFn) (d a b : GReg)
  | iopi (p : Pred) (fn : IopFn) (d a : GReg) (imm : BitVec 16)
  | idiv (p : Pred) (fn : IdivFn) (d a b : GReg)
  | imad (p : Pred) (fn : ImadFn) (d a b c : GReg)
  | isat (p : Pred) (fn : IsatFn) (d a b : GReg)
  | ibit (p : Pred) (fn : IbitFn) (d a : GReg)
  | bfx (p : Pred) (sx : Bool) (d a : GReg) (lenm1 pos : BitVec 5)
  | bfi (p : Pred) (d a b : GReg) (lenm1 pos : BitVec 5)
  | icmp (p : Pred) (cc : ICc) (kd : PReg) (a b : GReg)
  | icmpi (p : Pred) (cc : ICc) (kd : PReg) (a : GReg) (imm : BitVec 16)
  | plop (p : Pred) (fn : PlopFn) (kd ka kb : PReg) (v : Bool)
  | pmov (p : Pred) (fn : PmovFn) (d a : GReg)
  | iop64 (p : Pred) (fn : Iop64Fn) (d a b : GReg)
  | icmp64 (p : Pred) (cc : ICc) (kd : PReg) (a b : GReg)
  | fop (p : Pred) (fn : FopFn) (m : FMod) (d a b : GReg)
  | ffma (p : Pred) (fn : FfmaFn) (m : FMod) (d a b c : GReg)
  | funop (p : Pred) (fn : FunFn) (m : FMod) (d a : GReg)
  | fcmp (p : Pred) (cc : FCc) (kd : PReg) (a b : GReg)
  | hop (p : Pred) (fn : HopFn) (h16 : Bool) (m : FMod) (d a b : GReg)
  | hfma (p : Pred) (fn : VfmaFn) (h16 : Bool) (m : FMod) (d a b c : GReg)
  | dop (p : Pred) (fn : DopFn) (m : FMod) (d a b : GReg)
  | dfma (p : Pred) (fn : FfmaFn) (m : FMod) (d a b c : GReg)
  | dun (p : Pred) (fn : DunFn) (m : FMod) (d a : GReg)
  | dcmp (p : Pred) (cc : FCc) (kd : PReg) (a b : GReg)
  | cvt (p : Pred) (dpart spart : BitVec 2) (m : FMod) (tgt frm : Fmt) (d a : GReg)
  | sfu (p : Pred) (fn : SfuFn) (d a : GReg)
  | bra (p : Pred) (off : BitVec 16)
  | brx (p : Pred) (a : GReg)
  | laneCall (p : Pred) (d : GReg) (off : BitVec 16)
  | callx (p : Pred) (d a : GReg)
  | laneRet (p : Pred) (a : GReg)
  | lbrk (imm : BitVec 16)
  -- lanes: memory, collectives, fibres (R185)
  | ld (p : Pred) (sz : Size) (sx : Bool) (oh : Handle) (d a : GReg) (off : BitVec 16)
  | st (p : Pred) (sz : Size) (oh : Handle) (a b : GReg) (off : BitVec 16)
  | ldts (p : Pred) (sz : Size) (sx : Bool) (oh : Handle) (d a : GReg) (off : BitVec 16)
  | stts (p : Pred) (sz : Size) (oh : Handle) (a b : GReg) (off : BitVec 16)
  | ldtp (p : Pred) (port : BitVec 2) (sz : Size) (sx : Bool) (oh : Handle) (d a : GReg) (off : BitVec 16)
  | sttp (p : Pred) (port : BitVec 2) (sz : Size) (oh : Handle) (a b : GReg) (off : BitVec 16)
  | ldpeer (p : Pred) (peer : BitVec 2) (sz : Size) (sx : Bool) (oh : Handle) (d a : GReg) (off : BitVec 16)
  | stpeer (p : Pred) (peer : BitVec 2) (mc : Bool) (sz : Size) (oh : Handle) (a b : GReg) (off : BitVec 16)
  | loadResult (core gang idx : Nat)
  | lfence (p : Pred) (kind : FenceKind) (istr : Bool) (scope : Scope)
  | lfork (p : Pred) (parent : Handle) (mask : BitVec 16)
  | ljoin (p : Pred) (target : Handle) (mask : BitVec 16)
  | lwait (p : Pred) (cc : WaitCc) (scope : Scope) (kd : PReg) (a b : GReg) (tmo : BitVec 16)
  | lwaitTimeout (core gang idx : Nat)
  | atom (p : Pred) (fn : AtomFn) (nr w : Bool) (oh : Handle) (d a b : GReg) (off : BitVec 16)
  | atomts (p : Pred) (fn : AtomFn) (nr w : Bool) (oh : Handle) (d a b : GReg) (tp : Bool) (port : BitVec 2) (off : BitVec 12)
  | cas (p : Pred) (w : Bool) (oh : Handle) (d a b c : GReg) (off : BitVec 15)
  | casts (p : Pred) (w : Bool) (oh : Handle) (d a b c : GReg) (tp : Bool) (port : BitVec 2) (off : BitVec 12)
  | vote (p : Pred) (fn : VoteFn) (d : GReg) (ka : PReg) (b : GReg)
  | shfl (p : Pred) (fn : ShflFn) (d a b c : GReg) (delta : BitVec 5)
  | scan (p : Pred) (excl : Bool) (op : ScanOp) (d a b : GReg)
  | lred (p : Pred) (op : ScanOp) (d a b : GReg)
  | spawn (p : Pred) (d a : GReg) (off : BitVec 16)
  | quit (p : Pred)
  | role (topc : BitVec 7)
  | lbar
  | tissue (p : Pred) (k96 : Bool) (a b : GReg)
  -- events of memory and of the motif's life
  | storeLands (core id : Nat)
  | motifPlace (launch : Nat) (cores : List Nat)
  | classAging (launch : Nat)
  | preemptTimeout (core : Nat)
  | motifHalt (core : Nat)
  | swapOut (core : Nat)
  | faultRingRetry (ctx : Nat)
  | motifReentry (motif core : Nat)
  | tileRefill (core tile : Nat)
  | motifDone (core : Nat)
  | launchRecordAccept (queue : Nat)
  | launchEligible (launch : Nat)
  | remoteInstance (dev token inst pclass since : Nat) (record : List (BitVec 64)) (args : List (BitVec 64))
  | crossDeviceReserve (launch : Nat) (cores : List Nat) (commit : Bool)
  -- fabric
  | flitReceive (port : Nat) (flit : List Byte)
  | linkRetrain (port : Nat) (lanesFailed : Nat) (ok : Bool)
  | linkPortStateChange (port : Nat) (up : Bool)
  | routeTableLoad (dev gszm1 : Nat) (entries : List (BitVec 64))
  | remoteRequest (idx : Nat)
  | fabricResponse (req status : Nat) (data : List Byte) (poison : Bool)
  | fabricTimeout (req : Nat)
  | handleNotice (core idx : Nat)
  | handleNoticeArrival (sender : Nat) (token : BitVec 64)
  | noticeResend (idx : Nat)
  | unfreeze (kind master : Nat)
  -- memory tiers
  | cxlBackInvalidate (line : Nat)
  | cxlPortDown (port status : Nat)
  | heatIncrement (die pa : Nat) (wr : Bool)
  | heatTableBaseWrite (cxl : Bool) (v : BitVec 64)
  | migqbWrite (v : BitVec 64)
  | migqpTailWrite (v : BitVec 64)
  | move (slot : Nat)
  | copy (slot : Nat)
  | checkpointSave
  | checkpointRestore
  -- power
  | plimWindow (core : Nat)
  | freezeCycle (core : Nat)
  | setPlim (island : Nat) (win : BitVec 2) (limit : BitVec 16)
  | setFrequency (island : Nat) (mhz : BitVec 16)
  -- start-up
  | start (form step : Nat) (run : BootRun) (failDie : Nat) (cxl0 cxl1 : CxlPart)
  | stageTimeout (stage : Nat)
  | clearFailedStarts
  -- host interface
  | ctxCreate (fn : Nat) (block : Nat)
  | ctxDestroy (fn : Nat) (block : Nat)
  | queueCreate (fn : Nat) (block : Nat)
  | queueDestroy (fn : Nat) (block : Nat)
  | invalidate (fn : Nat) (block : Nat)
  | qtailWrite (fn q : Nat) (v : BitVec 64)
  | resume (fn : Nat) (v : BitVec 64)
  | resumeAndStepOver (fn : Nat) (v : BitVec 64)
  | kill (fn : Nat) (v : BitVec 64)
  | haltDoorbell (fn : Nat) (v : BitVec 64)
  | capture (queue : Nat)
  | replay
  | hostRegisterWrite (fn off : Nat) (v : BitVec 64)
  -- errors, self-test, security
  | correctedError (block : Nat) (blockType : Nat)
  | uncorrectedError (space unit addr : Nat) (blockType : Nat)
  | selfTest (block blockType : Nat) (lasting : Bool) (detail : Nat)
  | attestation (nonce : List Byte) (ctx : Nat)
  | certificateChainRead
  | fuseRaise (cls count : Nat)
  | codeSigningKeyInstall (slot : Nat) (key : List Byte)
  | rowRetirementRemove (stack count : Nat)
  | minimalModeForce
  | translationSignature (verify : Bool) (body : List Byte) (sig : List Byte)
  deriving DecidableEq, Repr

/-- Which kind of code word an encoding is. -/
inductive CodeWord where
  | header (w : BitVec 16)
  | c (w : BitVec 32)
  | v (w : BitVec 64)
  | m (w : BitVec 64)
  | k (w : BitVec 96)
  | s (w : BitVec 64)
  | lane (w : BitVec 64)
  deriving DecidableEq, Repr

end Sys2Proof
end

