-- ==== Sys2Proof/Config.lean ====
section
/-! DEFINITION. What the spec leaves open: free values with no body, so that no proof can learn
them (log entry 7), and the cryptographic functions of the security engine (log entry 8). -/
namespace Sys2Proof.Config

/-- A byte the spec calls undefined, fresh for each value of the state's counter. -/
opaque freeByte : Nat → Byte

/-- A 64-bit word the spec calls undefined. -/
opaque freeWord : Nat → W64

/-- R8, R142, R147, R200: an undefined lane register, by the seed of its making and its place. -/
opaque freeReg : Nat → Nat → W32

/-- R123: the FP32 result of a special function where R124 fixes none, within the error bounds. -/
opaque sfuRaw : SfuFn → W32 → W32

/-- R373, R380: how the header of an error packet shows its status, in the field LEN; and what status
a header received shows. -/
opaque statusCode : Nat → BitVec 7
opaque statusOf : BitVec 7 → Nat

/-- R373, R376: which atomic function an atomic packet asks for, by its address and operand. -/
opaque atomicFn : Nat → List Byte → Nat

/-- The private half of the device identity key, and its certificate chain (R421). -/
opaque identityKey : Nat
opaque certificateChain : List Byte

/-- How the security engine derives the private half of a key from the identity key: the translation key from nothing
more, the attestation key from the boot measurements (R424, R425). -/
opaque deriveKey : Nat → List (List Byte) → Nat

/-- The nonce of a signature, by private key and message. -/
opaque signNonce : Nat → List Byte → Nat

/-- R421: the public key of the firmware's signatures, in the boot ROM. -/
opaque romKey : List Byte

/-- R421: where a firmware image carries its SECVER is not stated. -/
opaque imageSecver : List Byte → Nat

/-- R373, R376: a CAS group may need several packets, and no header says whether more are to come: by the address
and the pairs that have come. -/
opaque casMore : Nat → List Byte → Bool

/-- R425: the bytes of a quote that are signed: nonce, DEVID, stage digests, fuse counters, objects. -/
opaque quoteForm : List Byte → W64 → List (List Byte) → List Nat → Option (List (List Byte × Nat × Nat)) →
  List Byte

end Sys2Proof.Config
end

