-- ==== Sys2Proof/Machine/Legal.lean ====
section
/-! DEFINITION. Legality: what decode checks of an instruction beyond its reserved fields
(R63, R68, R72, R102 to R118, R161 to R179, R185 to R203, R233, R261 to R263). -/
namespace Sys2Proof.Machine

/-- R59: QSEL must be 000 when SPE = 0. -/
def guardOk (g : Guard) : Bool := g.spe || g.qsel == 0

/-- R21: element size in bytes. FP32X elements have 4 main bytes (R30). -/
def fmtSize : Fmt → Nat
  | .fp32 => 4 | .bf16 => 2 | .fp16 => 2 | .fp64 => 8 | .fp32x => 4
  | .int8 => 1 | .uint8 => 1 | .int16 => 2 | .int32 => 4 | .b8 _ _ _ => 1

/-- R21: the binary8 precisions run from 1 to 7. -/
def fmtValid : Fmt → Bool
  | .b8 p _ _ => decide (1 ≤ p ∧ p ≤ 7)
  | _ => true

def fmtIsFloat : Fmt → Bool
  | .fp32 | .bf16 | .fp16 => true
  | _ => false

def fmtIsInt : Fmt → Bool
  | .int8 | .uint8 | .int16 | .int32 => true
  | _ => false

def fmtIsB8 (f : Fmt) : Bool :=
  match f with
  | .b8 _ _ _ => fmtValid f
  | _ => false

/-- Formats allowed in the vector unit (R102). -/
def fmtIsVec (f : Fmt) : Bool := fmtIsFloat f || fmtIsInt f || fmtIsB8 f

/-- Float in the sense of the lane conversion (R179). -/
def fmtIsAnyFloat (f : Fmt) : Bool := fmtIsFloat f || f == .fp64 || fmtIsB8 f

/-- R21: formats of a matrix operand. -/
def fmtIsMatrix (f : Fmt) : Bool := f == .bf16 || f == .fp16 || f == .int8 || fmtIsB8 f

/-- R40: the widening conversions between floats, exact and without flags. -/
def widens (frm tgt : Fmt) : Bool :=
  match frm, tgt with
  | .b8 _ _ _, .bf16 | .b8 _ _ _, .fp32 | .b8 _ _ _, .fp64 => true
  | .bf16, .fp32 | .bf16, .fp64 | .fp16, .fp32 | .fp16, .fp64 | .fp32, .fp64 => true
  | _, _ => false

/-- Conversions that cannot round (R118, R179). -/
def convExact (frm tgt : Fmt) : Bool := widens frm tgt || (fmtIsInt frm && fmtIsInt tgt)

/-- Conversions between integer formats to a wider one, which are exact. -/
def intWidens (frm tgt : Fmt) : Bool :=
  fmtIsInt frm && fmtIsInt tgt && decide (fmtSize frm < fmtSize tgt)

/-- R68: SRF is not 11 and, as every slot of this part refuses a transposed read, T is 0. -/
def descOk (d : Desc) : Bool := d.extractLsb' 8 2 != 3 && !d.getLsbD 10

def bsOk (bs : Bool) (vb : VReg) : Bool := !bs || vb.extractLsb' 5 2 == 0

/-- R103: RM is 000 for integer formats. -/
def rmIntOk (f : Fmt) (rm : Rm) : Bool := !fmtIsInt f || rm == .rne

def vop2Ok (fn : Vop2Fn) (sat : Bool) (rm : Rm) (f : Fmt) : Bool :=
  (fmtIsFloat f || fmtIsInt f) && rmIntOk f rm &&
  match fn with
  | .min | .max => !sat && rm == .rne
  | .mulh => fmtIsInt f && !sat
  | _ => true

def vop1Ok (fn : Vop1Fn) (sat : Bool) (rm : Rm) (f : Fmt) : Bool :=
  (match fn with
   | .mov => fmtIsVec f
   | .neg | .abs | .relu => fmtIsFloat f || fmtIsInt f
   | .relud | .rint => fmtIsFloat f) &&
  (rm == .rne || (fn == .rint && rm != .sr)) &&
  (!sat || (fmtIsInt f && (fn == .neg || fn == .abs)))

/-- PART lies below the size ratio (R105, R118). -/
def partOk (s d part : Nat) : Bool :=
  decide (part < (if d < s then s / d else d / s))

def vcvtOk (frm tgt : Fmt) (part : BitVec 2) (sat : Bool) (rm : Rm) : Bool :=
  fmtIsVec frm && fmtIsVec tgt && frm != tgt &&
  partOk (fmtSize frm) (fmtSize tgt) part.toNat &&
  (!convExact frm tgt || rm == .rne) &&
  (!(widens frm tgt || intWidens frm tgt) || !sat)

/-- R116: the fields of VLDT and VSTT. -/
def rowAccessOk (desc : Desc) (win : Win) (peer : BitVec 2) (am : Bool) (sa : SReg) : Bool :=
  (if am then desc == 0 else win == .own && peer == 0 && sa == 0 && descOk desc) &&
  (win == .peer || peer == 0)

/-- R232, R233. -/
def mmaOpOk (o : MmaOp) : Bool :=
  if o.cmp then o.fmt == .fp32 else fmtIsMatrix o.fmt

/-- R113 form of the two slot-range instructions: FIRST + CNTM1 ≤ 63 (R233). -/
def slotRangeOk (cntm1 first : LSlot) : Bool := decide (first.toNat + cntm1.toNat ≤ 63)

def ringFieldOk (ring : Bool) (d : Desc) (s : SReg) : Bool :=
  if ring then s == 0 && descOk d else d == 0

/-- R260, R262, R263: what every transfer shares. -/
def kxferOk (x : KXfer) : Bool :=
  (x.cmpl == .stamp || x.stsc == .core) &&
  (if x.cmpl == .none then x.se == 0 else !x.se.getLsbD 0)

def kRings (x : KXfer) : Bool := ringFieldOk (x.src == .ring) x.sdesc x.ss &&
  ringFieldOk (x.dst == .ring) x.ddesc x.sd && (!x.adv || x.src == .ring || x.dst == .ring)

def even5 (r : SReg) : Bool := !r.getLsbD 0

def kcopyOk (x : KXfer) : Bool :=
  kxferOk x && kRings x && even5 x.sn &&
  (x.cmpl != .eyelet || x.dst != .gm) && (x.cmpl != .stamp || x.dst == .gm)

def kfillOk (x : KXfer) : Bool :=
  kxferOk x && kRings x && even5 x.sn && x.dst == .gm && x.cmpl != .stamp

def kgangOk (x : KXfer) : Bool :=
  kxferOk x && kRings x && x.sn == 0 && x.dst == .gm && x.cmpl == .none

def kmcastOk (x : KXfer) : Bool :=
  kxferOk x && kRings x && even5 x.sn && x.dst == .ts && x.cmpl != .stamp

def kcgradOk (x : KXfer) (tgt : Fmt) : Bool :=
  kxferOk x && kRings x && even5 x.sn && x.ddesc == 0 && x.dst == .gm && x.src != .gm && x.cmpl != .eyelet &&
  (match tgt with
   | .b8 p u _ => decide (1 ≤ p ∧ p ≤ 7) && !u
   | _ => false)

def kpullOk (x : KXfer) : Bool :=
  kxferOk x && even5 x.sn && x.sdesc == 0 && x.src == .gm && x.dst != .gm && x.cmpl != .stamp &&
  ringFieldOk (x.dst == .ring) x.ddesc x.sd && (!x.adv || x.dst == .ring)

def sopOk (o : SOp) : Bool := descOk o.d0 && descOk o.d1 && descOk o.d2

/-! ### Lane forms -/

def even (r : GReg) : Bool := !r.getLsbD 0
def kdOk (k : PReg) : Bool := k != 0

def bfOk (lenm1 pos : BitVec 5) : Bool := decide (pos.toNat + lenm1.toNat + 1 ≤ 32)

def fopOk (fn : FopFn) (m : FMod) : Bool :=
  match fn with
  | .min | .max | .csgn => !m.sat && m.rm == .rne
  | _ => true

def funOk (fn : FunFn) (m : FMod) : Bool :=
  match fn with
  | .sqrt => !m.sat
  | .rint => !m.sat && m.rm != .sr
  | _ => !m.sat && m.rm == .rne

def dunOk (fn : DunFn) (m : FMod) : Bool :=
  match fn with
  | .sqrt => !m.sat
  | .rint => !m.sat && m.rm != .sr
  | _ => !m.sat && m.rm == .rne

def hopOk (fn : HopFn) (m : FMod) : Bool :=
  match fn with
  | .min | .max => !m.sat && m.rm == .rne
  | _ => true

def dopOk (fn : DopFn) (m : FMod) : Bool :=
  match fn with
  | .min | .max => !m.sat && m.rm == .rne
  | _ => true

def lanePartOk (f : Fmt) (part : BitVec 2) : Bool :=
  if fmtSize f ≥ 4 then part == 0 else decide (part.toNat < 4 / fmtSize f)

def laneFmtOk (f : Fmt) : Bool := f != .fp32x && fmtValid f

/-- R179. INT8 to UINT8 and back, which no row of its table names, is a conversion that refuses SAT = 1
(DESIGN CHOICE, log entry 24). -/
def cvtOk (dpart spart : BitVec 2) (m : FMod) (tgt frm : Fmt) (d a : GReg) : Bool :=
  laneFmtOk tgt && laneFmtOk frm && frm != tgt &&
  lanePartOk tgt dpart && lanePartOk frm spart &&
  (tgt != .fp64 || even d) && (frm != .fp64 || even a) &&
  (!convExact frm tgt || m.rm == .rne) &&
  (!(widens frm tgt || (fmtIsInt frm && fmtIsInt tgt) || (fmtIsAnyFloat frm && fmtIsInt tgt)) || !m.sat)

def sxOk (sz : Size) (sx : Bool) : Bool := !sx || sz == .b8 || sz == .b16
def ld64Ok (sz : Size) (r : GReg) : Bool := sz != .b64 || even r

def forkOk (mask : BitVec 16) (parent : Handle) : Bool := mask != 0 && !mask.getLsbD parent.toNat

def atomOk (nr w : Bool) (d b : GReg) : Bool :=
  (if nr then d == 0 else !w || even d) && (!w || even b)

def portOk (tp : Bool) (port : BitVec 2) : Bool := tp || port == 0

/-- The opcodes that no hard engine implements: free, reserved-library and user (R70, R71). -/
def opcFree (opc : Nat) : Bool :=
  decide ((0x30 ≤ opc ∧ opc ≤ 0x37) ∨ (0x40 ≤ opc ∧ opc ≤ 0x47) ∨ (0x4F ≤ opc ∧ opc ≤ 0x5F) ∨
    (0x68 ≤ opc ∧ opc ≤ 0x7F))

/-- Register numbers with a write behaviour of their own (R52, R67, R37, R241, R292, R301, R388):
they have their own rows. -/
def cfgwSpecial (reg : Nat) : Bool :=
  decide ((0x010 ≤ reg ∧ reg ≤ 0x017) ∨ (0x020 ≤ reg ∧ reg ≤ 0x03F) ∨ reg = 0x002 ∨ reg = 0x090 ∨
    (0x100 ≤ reg ∧ reg < 0x120 ∧ reg % 8 ≤ 2) ∨ reg = 0x131 ∨ reg = 0x13B)

/-- R50, R84, R281: the register numbers that some chapter assigns. -/
def regAssigned (reg : Nat) : Bool :=
  decide (reg ≤ 0x002 ∨ reg = 0x008 ∨ reg = 0x009 ∨ (0x010 ≤ reg ∧ reg ≤ 0x017) ∨
    (0x020 ≤ reg ∧ reg ≤ 0x044) ∨ reg = 0x050 ∨ (0x060 ≤ reg ∧ reg ≤ 0x068) ∨
    (0x070 ≤ reg ∧ reg ≤ 0x073) ∨ reg = 0x080 ∨ (0x090 ≤ reg ∧ reg ≤ 0x094) ∨
    (0x0A0 ≤ reg ∧ reg ≤ 0x0A8) ∨ (0x0B0 ≤ reg ∧ reg ≤ 0x0BF) ∨
    (0x0C0 ≤ reg ∧ reg ≤ 0x0FF ∧ reg % 8 ≤ 5) ∨ (0x100 ≤ reg ∧ reg < 0x120 ∧ reg % 8 ≤ 5) ∨
    reg = 0x120 ∨ reg = 0x128 ∨ (0x130 ≤ reg ∧ reg ≤ 0x135) ∨ (0x138 ≤ reg ∧ reg ≤ 0x13B) ∨
    (0x140 ≤ reg ∧ reg ≤ 0x142))

/-- Every condition that decode puts on an instruction. Events are not decoded. -/
def legal : Instr → Bool
  | .bundleIssue | .nullBundle _ => true
  | .nop g => guardOk g
  | .sop g _ _ _ _ => guardOk g
  | .sopi g fn _ _ imm => guardOk g &&
      (match fn with
       | .shl | .shr | .sra => imm.extractLsb' 6 2 == 0
       | _ => true)
  | .smovi g _ _ => guardOk g
  | .scmp g cc imm _ _ _ => guardOk g &&
      (match cc with
       | .feq | .flt | .fle | .funord => !imm
       | _ => true)
  | .sld g sz _ sx _ _ _ => guardOk g && !(sx && sz == .b64)
  | .sst g _ _ _ _ _ => guardOk g
  | .br g _ | .brInd g _ | .call g _ | .callInd g _ | .ret g _ => guardOk g
  | .advr g _ _ | .advw g _ _ => guardOk g
  | .cfgr g reg _ => guardOk g && regAssigned reg.toNat
  | .cfgw g reg _ => guardOk g && regAssigned reg.toNat && !cfgwSpecial reg.toNat
  | .tshapeWrite g _ _ | .cbdescWrite g _ _ | .srstateWrite g _ | .mfmtWrite g _ => guardOk g
  | .moncfgWrite g _ j _ => guardOk g && decide (j ≤ 2)
  | .logpWrite g _ | .haccWrite g _ => guardOk g
  | .waits g _ _ _ _ _ => guardOk g
  | .fence g _ _ _ _ => guardOk g
  | .fork g mask parent => guardOk g && forkOk mask parent
  | .join g _ _ => guardOk g
  | .hpass g _ _ _ | .bar g _ _ | .launch g _ _ _ _ | .bind g _ _ _ => guardOk g
  | .recon g | .recoff g | .monsetArm g _ | .monsetDisarm g _ | .monsetCheck g _ => guardOk g
  | .unpick g _ _ => guardOk g
  | .loop g _ _ lvm1 _ _ => guardOk g && decide (lvm1.toNat ≤ 5)
  | .iterIdx g lv _ => guardOk g && decide (lv.toNat ≤ 5)
  | .iterPass g _ | .iterExit g => guardOk g
  | .sys g => guardOk g
  | .sysServiceCall g imm => guardOk g && decide (0x100 ≤ imm.toNat)
  | .tret g | .brk g _ => guardOk g
  | .vop2 g fn bs sat rm f vb _ _ => guardOk g && vop2Ok fn sat rm f && bsOk bs vb
  | .vfma g _ bs _ rm f _ vb _ _ =>
      guardOk g && (fmtIsFloat f || fmtIsInt f) && rmIntOk f rm && bsOk bs vb
  | .vop1 g fn sat rm f _ _ => guardOk g && vop1Ok fn sat rm f
  | .vcmp g qd qw cc bs f vb _ _ => guardOk g && (fmtIsFloat f || fmtIsInt f) && bsOk bs vb &&
      (qw || qd == 0) && (cc != .un || fmtIsFloat f)
  | .vsel g bs f _ vb _ _ => guardOk g && fmtIsVec f && bsOk bs vb
  | .vred g _ f _ _ => guardOk g && (fmtIsFloat f || fmtIsInt f)
  | .vrows g sz _ _ _ _ _ => guardOk g && sz != .b64
  | .vcols g put sz _ _ va vd => guardOk g && sz != .b64 && (if put then vd == 0 else va == 0)
  | .vcvt g tgt part sat rm frm _ _ => guardOk g && vcvtOk frm tgt part sat rm
  | .vcvto g desc _ tgt _ _ sd _ _ => guardOk g && descOk desc && fmtIsB8 tgt && !sd.getLsbD 0
  | .vsca g _ _ _ _ _ _ => guardOk g
  | .vsfu g _ _ _ => guardOk g
  | .vint g fn bs f vb _ _ => guardOk g && bsOk bs vb && fmtIsVec f &&
      (match fn with
       | .shl | .shr | .sra => fmtIsInt f
       | _ => true)
  | .vmovi g imm f _ => guardOk g && fmtIsVec f &&
      decide (imm.toNat < 2 ^ (8 * fmtSize f))
  | .vldt g desc _ win peer am _ sa _ => guardOk g && win != .mcast && rowAccessOk desc win peer am sa
  | .vstt g desc _ win peer am _ sa _ => guardOk g && rowAccessOk desc win peer am sa
  | .mlease g | .munlease g | .mdrain g | .mzero g _ => guardOk g
  | .mclaim g cntm1 first | .mrels g cntm1 first => guardOk g && slotRangeOk cntm1 first
  | .mma g _ o => guardOk g && mmaOpOk o
  | .mmah g _ gA gB _ o => guardOk g && mmaOpOk o && (gA || gB)
  | .kcopy g x => guardOk g && kcopyOk x
  | .kfill g x => guardOk g && kfillOk x
  | .kgang g x => guardOk g && kgangOk x
  | .kmcast g x => guardOk g && kmcastOk x
  | .kcgrad g x tgt _ _ => guardOk g && kcgradOk x tgt
  | .kpull g x _ => guardOk g && kpullOk x
  | .keyeInit g _ _ _ _ | .keyeAdd g _ _ _ _ | .keyeWait g _ _ _ => guardOk g
  | .xpose g o | .gather g o | .scatter g o | .softmax g o | .lnorm g o | .topk g o | .sort g o
  | .segsum g o => guardOk g && sopOk o
  | .stitchDispatch g opc _ hi => guardOk g && opcFree opc.toNat &&
      (decide (0x48 ≤ opc.toNat ∧ opc.toNat ≤ 0x5F) || hi == 0)
  | .lnop _ | .movi _ _ _ | .movhi _ _ _ _ | .mov _ _ _ => true
  | .movd _ d a => even d && even a
  | .sel _ w _ d a b => !w || (even d && even a && even b)
  | .lid _ _ _ | .iop _ _ _ _ _ => true
  | .iopi _ fn _ _ imm =>
      (match fn with
       | .shl | .shr | .sra => imm.extractLsb' 5 11 == 0
       | _ => true)
  | .idiv _ _ _ _ _ => true
  | .imad _ fn d _ _ c => fn == .mad || (even d && even c)
  | .isat _ _ _ _ _ | .ibit _ _ _ _ => true
  | .bfx _ _ _ _ l p | .bfi _ _ _ _ l p => bfOk l p
  | .icmp _ _ kd _ _ | .icmpi _ _ kd _ _ => kdOk kd
  | .plop _ fn kd ka kb v => kdOk kd && (fn == .set || !v) &&
      (match fn with
       | .not => kb == 0
       | .set => ka == 0 && kb == 0
       | _ => true)
  | .pmov _ fn d a => (match fn with
       | .p2g => a == 0
       | .g2p => d == 0)
  | .iop64 _ _ d a b => even d && even a && even b
  | .icmp64 _ _ kd a b => kdOk kd && even a && even b
  | .fop _ fn m _ _ _ => fopOk fn m
  | .ffma _ _ _ _ _ _ _ => true
  | .funop _ fn m _ _ => funOk fn m
  | .fcmp _ _ kd _ _ => kdOk kd
  | .hop _ fn _ m _ _ _ => hopOk fn m
  | .hfma _ _ _ _ _ _ _ _ => true
  | .dop _ fn m d a b => dopOk fn m && even d && even a && even b
  | .dfma _ _ _ d a b c => even d && even a && even b && even c
  | .dun _ fn m d a => dunOk fn m && even d && even a
  | .dcmp _ _ kd a b => kdOk kd && even a && even b
  | .cvt _ dp sp m tgt frm d a => cvtOk dp sp m tgt frm d a
  | .sfu _ _ _ _ => true
  | .bra _ _ => true
  | .brx _ a | .laneRet _ a => even a
  | .laneCall _ d _ => even d
  | .callx _ d a => even d && even a
  | .lbrk _ => true
  | .ld _ sz sx _ d a _ => sxOk sz sx && ld64Ok sz d && even a
  | .st _ sz _ a b _ => ld64Ok sz b && even a
  | .ldts _ sz sx _ d _ _ => sxOk sz sx && ld64Ok sz d
  | .stts _ sz _ _ b _ => ld64Ok sz b
  | .ldtp _ _ sz sx _ d _ _ => sxOk sz sx && ld64Ok sz d
  | .sttp _ _ sz _ _ b _ => ld64Ok sz b
  | .ldpeer _ _ sz sx _ d _ _ => sxOk sz sx && ld64Ok sz d
  | .stpeer _ peer mc sz _ _ b _ => ld64Ok sz b && (!mc || peer == 0)
  | .lfence _ _ _ _ => true
  | .lfork _ parent mask => forkOk mask parent
  | .ljoin _ _ _ => true
  | .lwait _ _ _ kd a b _ => kdOk kd && even a && even b
  | .atom _ _ nr w _ d a b _ => atomOk nr w d b && even a
  | .atomts _ _ nr w _ d _ b tp port _ => atomOk nr w d b && portOk tp port
  | .cas _ w _ d a b c _ => even a && (!w || (even d && even b && even c))
  | .casts _ w _ d _ b c tp port _ => portOk tp port && (!w || (even d && even b && even c))
  | .vote _ fn d _ _ => (match fn with
       | .all | .any => decide (0 < d.toNat ∧ d.toNat < 8)
       | _ => true)
  | .shfl _ fn _ _ b _ delta => if fn == .idx then delta == 0 else b == 0
  | .scan _ _ _ _ _ _ | .lred _ _ _ _ _ => true
  | .spawn _ _ _ _ | .quit _ | .role _ | .lbar => true
  | .tissue _ k96 a b => even a && (k96 || b == 0)
  | _ => true

end Sys2Proof.Machine
end

