-- ==== Sys2Proof/Machine/Float.lean ====
section
/-! DEFINITION. The number formats and their arithmetic (02 R21 to R45): every operation is formed
exactly and rounded once. Every finite value is a sign, a whole number and a power of two. -/
namespace Sys2Proof.Machine

/-! ## Exact values -/

/-- A value held in a format (R29: the device has one NaN). -/
inductive FVal where
  | nan
  | inf (neg : Bool)
  | fin (neg : Bool) (m : Nat) (e : Int)
  deriving DecidableEq, Repr, Inhabited

/-- An exact result before rounding. `num` stands for m × 2^e, plus something positive below 2^e
when `st` is set. -/
inductive Ex where
  | nan (nv : Bool)
  | inf (neg dz : Bool)
  | num (neg : Bool) (m : Nat) (e : Int) (st : Bool)
  deriving DecidableEq, Repr, Inhabited

/-- Flag bits of FSTAT (R42). -/
abbrev fNV : Nat := 1
abbrev fDZ : Nat := 2
abbrev fOF : Nat := 4
abbrev fUF : Nat := 8
abbrev fNX : Nat := 16
abbrev fSAT : Nat := 32

/-- A result: its bits in the destination format, and the flags it raises. -/
structure FR where
  bits : Nat
  flags : Nat
  deriving DecidableEq, Repr, Inhabited

/-! ## Formats as grids -/

/-- A floating-point format. Its magnitudes are the codes 0 to `maxMag` in ascending order; code c
with t = p - 1 trailing bits has field E = c >> t and value as in R24 with quantum 2^q. -/
structure FSpec where
  p : Nat
  q : Int
  width : Nat
  maxMag : Nat
  hasInf : Bool
  hasNegZero : Bool
  signed : Bool
  nan : Nat
  deriving DecidableEq, Repr

/-- R24, R25, R28, R29, R30. Integer formats have no grid; they get the one of FP32. -/
def spec : Fmt → FSpec
  | .bf16 => ⟨8, -133, 16, 0x7F7F, true, true, true, 0x7FC0⟩
  | .fp16 => ⟨11, -24, 16, 0x7BFF, true, true, true, 0x7E00⟩
  | .fp64 => ⟨53, -1074, 64, 0x7FEFFFFFFFFFFFFF, true, true, true, 0x7FF8000000000000⟩
  | .fp32x => ⟨32, -157, 40, 0x7F7FFFFFFF, true, true, true, 0x7FC0000000⟩
  | .b8 p false f =>
      ⟨p, 1 - (2 ^ (7 - p) : Nat) - ((p - 1 : Nat) : Int), 8, if f then 0x7F else 0x7E, !f, false, true, 0x80⟩
  | .b8 p true f =>
      ⟨p, 1 - (2 ^ (8 - p) : Nat) - ((p - 1 : Nat) : Int), 8, if f then 0xFE else 0xFD, !f, false, false, 0xFF⟩
  | _ => ⟨24, -149, 32, 0x7F7FFFFF, true, true, true, 0x7FC00000⟩

/-- The value of a magnitude code. -/
def magVal (s : FSpec) (neg : Bool) (c : Nat) : FVal :=
  let t := s.p - 1
  let ef := c >>> t
  let tf := c % 2 ^ t
  if ef = 0 then .fin neg tf s.q else .fin neg (2 ^ t + tf) (s.q + ef - 1)

/-- R24, R28, R29, R30: the value that a code of a floating-point format stands for. -/
def decodeF (f : Fmt) (bits : Nat) : FVal :=
  let s := spec f
  if s.signed then
    let neg := bits >>> (s.width - 1) % 2 == 1
    let mag := bits % 2 ^ (s.width - 1)
    if s.hasNegZero then
      if mag ≤ s.maxMag then magVal s neg mag
      else if mag = s.maxMag + 1 then .inf neg else .nan
    else if bits = s.nan then .nan
    else if s.hasInf && mag == s.maxMag + 1 then .inf neg
    else magVal s neg mag
  else if bits = s.nan then .nan
  else if s.hasInf && bits == s.maxMag + 1 then .inf false
  else magVal s false bits

/-- The bits of a signed magnitude code. In binary8 every zero is 0x00 (R35). -/
def encMag (s : FSpec) (neg : Bool) (c : Nat) : Nat :=
  if c = 0 && !s.hasNegZero then 0
  else if neg && s.signed then 2 ^ (s.width - 1) + c else c

def infBits (s : FSpec) (neg : Bool) : Nat := encMag s neg (s.maxMag + 1)
def zeroBits (s : FSpec) (neg : Bool) : Nat := encMag s neg 0

/-- The magnitude code of n × 2^g on the grid of exponent g (g = q, or n has p bits). -/
def gridCode (s : FSpec) (n : Nat) (g : Int) : Nat :=
  let t := s.p - 1
  if n < 2 ^ t then n else ((g - s.q).toNat + 1) * 2 ^ t + n - 2 ^ t

/-- Number of bits of a number. -/
def bitLen (m : Nat) : Nat := if m = 0 then 0 else m.log2 + 1

/-- Whether rounding goes away from zero: R34, R36. `rem` of `2^sh` with `st` is what is cut off. -/
def roundUp (rm : Rm) (u : Nat) (neg odd : Bool) (rem sh : Nat) (st : Bool) : Bool :=
  match rm with
  | .rtz => false
  | .rup => !neg && (rem != 0 || st)
  | .rdn => neg && (rem != 0 || st)
  | .rne =>
    if sh = 0 then false
    else
      let half := 2 ^ (sh - 1)
      decide (half < rem) || (rem == half && (st || odd))
  | .sr => decide (u < rem * 65536 / 2 ^ sh)

/-- R35 step 2: the overflow result of a format. -/
def overflowBits (s : FSpec) (rm : Rm) (neg : Bool) : Nat :=
  let toMax := match rm with
    | .rtz => true
    | .rup => neg
    | .rdn => !neg
    | _ => false
  if toMax then encMag s neg s.maxMag
  else if s.hasInf then infBits s neg else s.nan

/-- What R35 makes of a non-zero exact magnitude. -/
structure Rounded where
  c : Nat          -- magnitude code as if the range had no upper bound
  inexact : Bool
  tiny : Bool
  deriving DecidableEq, Repr

/-- R35 step 1, R36, and the tininess judgement of R35. -/
def roundMag (s : FSpec) (rm : Rm) (u : Nat) (neg : Bool) (m : Nat) (e : Int) (st : Bool) : Rounded :=
  let len := bitLen m
  let gU : Int := e + len - s.p
  let g := if gU < s.q then s.q else gU
  let sh := (g - e).toNat
  let n := if g ≤ e then m <<< (e - g).toNat else m >>> sh
  let rem := if g ≤ e then 0 else m % 2 ^ sh
  let c0 := gridCode s n g
  let up := roundUp rm u neg (c0 % 2 == 1) rem sh st
  let c := if up then c0 + 1 else c0
  let inexact := rem != 0 || st
  let tiny :=
    match rm with
    | .sr => decide (c < 2 ^ (s.p - 1))
    | _ =>
      decide (gU < s.q) &&
        !(decide (e + len = s.q + s.p - 1) &&
          (let shU := (gU - e).toNat
           let nU := if gU ≤ e then m <<< (e - gU).toNat else m >>> shU
           let remU := if gU ≤ e then 0 else m % 2 ^ shU
           let oddU := if s.p = 1 then decide ((gU - s.q + 1) % 2 = 1) else nU % 2 == 1
           nU == 2 ^ s.p - 1 && roundUp rm u neg oddU remU shU st))
  ⟨c, inexact, tiny⟩

/-- R35, with saturation as R103 gives it. -/
def roundNum (s : FSpec) (rm : Rm) (u : Nat) (sat neg : Bool) (m : Nat) (e : Int) (st : Bool) : FR :=
  if m = 0 && !st then ⟨zeroBits s neg, 0⟩
  else
    let r := roundMag s rm u neg m e st
    if s.maxMag < r.c then
      if sat then ⟨encMag s neg s.maxMag, fSAT + fNX⟩
      else ⟨overflowBits s rm neg, fOF + fNX⟩
    else
      ⟨encMag s neg r.c, if r.inexact then (if r.tiny then fNX + fUF else fNX) else 0⟩

/-- An exact result rounded once into a format with infinities and −0 (R35, R103). -/
def finish (f : Fmt) (rm : Rm) (u : Nat) (sat : Bool) : Ex → FR
  | .nan nv => ⟨(spec f).nan, if nv then fNV else 0⟩
  | .inf neg dz => ⟨infBits (spec f) neg, if dz then fDZ else 0⟩
  | .num neg m e st => roundNum (spec f) rm u sat neg m e st

/-! ## Exact operations (IEEE 754 as R35 quotes it) -/

def sInt (neg : Bool) (m : Nat) : Int := if neg then -(m : Int) else m

/-- Exact sum of two finite terms, with the sign of a zero sum under R35. -/
def addFin (rm : Rm) (an : Bool) (am : Nat) (ae : Int) (bn : Bool) (bm : Nat) (be : Int) : Ex :=
  let e := if ae < be then ae else be
  let v := sInt an am * 2 ^ (ae - e).toNat + sInt bn bm * 2 ^ (be - e).toNat
  if v = 0 then
    .num (if am = 0 && bm == 0 && an == bn then an else rm == .rdn) 0 0 false
  else .num (decide (v < 0)) v.natAbs e false

def negV : FVal → FVal
  | .nan => .nan
  | .inf n => .inf (!n)
  | .fin n m e => .fin (!n) m e

def exAdd (rm : Rm) : FVal → FVal → Ex
  | .nan, _ => .nan false
  | _, .nan => .nan false
  | .inf a, .inf b => if a = b then .inf a false else .nan true
  | .inf a, _ => .inf a false
  | _, .inf b => .inf b false
  | .fin an am ae, .fin bn bm be => addFin rm an am ae bn bm be

def exSub (rm : Rm) (a b : FVal) : Ex := exAdd rm a (negV b)

def exMul : FVal → FVal → Ex
  | .nan, _ => .nan false
  | _, .nan => .nan false
  | .inf a, .inf b => .inf (a != b) false
  | .inf a, .fin b m _ => if m = 0 then .nan true else .inf (a != b) false
  | .fin a m _, .inf b => if m = 0 then .nan true else .inf (a != b) false
  | .fin a m e, .fin b n f => .num (a != b) (m * n) (e + f) false

/-- R108, R175: a × b + c with one rounding; ∞ × 0 is NaN with NV whatever c is. -/
def exFma (rm : Rm) (negP negC : Bool) (a b c : FVal) : Ex :=
  let c' := if negC then negV c else c
  match exMul a b with
  | .nan true => .nan true
  | .nan false => .nan false
  | .inf n _ =>
    (match c' with
     | .nan => .nan false
     | .inf k => if k = (n != negP) then .inf k false else .nan true
     | .fin _ _ _ => .inf (n != negP) false)
  | .num n m e _ => exAdd rm (.fin (n != negP) m e) c'

/-- Extra quotient and root bits, enough for every format and for R36's 16 fraction bits. -/
def guardBits : Nat := 80

/-- R174: correctly rounded division. -/
def exDiv : FVal → FVal → Ex
  | .nan, _ => .nan false
  | _, .nan => .nan false
  | .inf _, .inf _ => .nan true
  | .inf a, .fin b _ _ => .inf (a != b) false
  | .fin a _ _, .inf b => .num (a != b) 0 0 false
  | .fin a m e, .fin b n f =>
    if n = 0 then (if m = 0 then .nan true else .inf (a != b) true)
    else if m = 0 then .num (a != b) 0 0 false
    else
      let k := guardBits + bitLen n
      let num := m <<< k
      .num (a != b) (num / n) (e - f - k) (num % n != 0)

/-- Integer square root by bisection on the bits, from bit `i` down. -/
def isqrtGo (n : Nat) : Nat → Nat → Nat
  | 0, r => r
  | i + 1, r =>
    let r' := r + 2 ^ i
    if r' * r' ≤ n then isqrtGo n i r' else isqrtGo n i r

def isqrt (n : Nat) : Nat := isqrtGo n (bitLen n / 2 + 1) 0

/-- R176: correctly rounded square root. -/
def exSqrt : FVal → Ex
  | .nan => .nan false
  | .inf n => if n then .nan true else .inf false false
  | .fin n m e =>
    if m = 0 then .num n 0 0 false
    else if n then .nan true
    else
      let k := 2 * guardBits + (e % 2).toNat
      let m' := m <<< k
      let r := isqrt m'
      .num false r ((e - k) / 2) (r * r != m')

/-! ## Comparisons -/

/-- Signed comparison of two non-NaN values; zeros of both signs are equal. -/
def cmpV : FVal → FVal → Ordering
  | .inf a, .inf b => if a = b then .eq else if a then .lt else .gt
  | .inf a, _ => if a then .lt else .gt
  | _, .inf b => if b then .gt else .lt
  | .fin an am ae, .fin bn bm be =>
    let e := if ae < be then ae else be
    compare (sInt an am * 2 ^ (ae - e).toNat) (sInt bn bm * 2 ^ (be - e).toNat)
  | _, _ => .eq

def isNan : FVal → Bool
  | .nan => true
  | _ => false

def isZeroV : FVal → Bool
  | .fin _ m _ => m == 0
  | _ => false

def negOf : FVal → Bool
  | .nan => false
  | .inf n => n
  | .fin n _ _ => n

/-- R79, R110, R172: the float conditions. -/
def fcc (cc : FCc) (a b : FVal) : Bool :=
  let un := isNan a || isNan b
  match cc with
  | .eq => !un && cmpV a b == .eq
  | .ne => un || cmpV a b != .eq
  | .lt => !un && cmpV a b == .lt
  | .le => !un && cmpV a b != .gt
  | .gt => !un && cmpV a b == .gt
  | .ge => !un && cmpV a b != .lt
  | .un => un

/-- R76: whether FMIN returns its second operand; −0 counts as less than +0. -/
def minPicksB (a b : FVal) : Bool :=
  if isNan a then !isNan b
  else if isNan b then false
  else match cmpV a b with
    | .gt => true
    | .eq => isZeroV a && isZeroV b && negOf b && !negOf a
    | .lt => false

def maxPicksB (a b : FVal) : Bool :=
  if isNan a then !isNan b
  else if isNan b then false
  else match cmpV a b with
    | .lt => true
    | .eq => isZeroV a && isZeroV b && negOf a && !negOf b
    | .gt => false

/-- R76: minimum or maximum as bits: the operand itself, or the canonical NaN. No flags. -/
def fmin (f : Fmt) (a b : Nat) : Nat :=
  let va := decodeF f a
  let vb := decodeF f b
  if isNan va && isNan vb then (spec f).nan else if minPicksB va vb then b else a

def fmax (f : Fmt) (a b : Nat) : Nat :=
  let va := decodeF f a
  let vb := decodeF f b
  if isNan va && isNan vb then (spec f).nan else if maxPicksB va vb then b else a

/-! ## Arithmetic on bits -/

def fadd (f : Fmt) (rm : Rm) (u : Nat) (sat : Bool) (a b : Nat) : FR :=
  finish f rm u sat (exAdd rm (decodeF f a) (decodeF f b))

def fsub (f : Fmt) (rm : Rm) (u : Nat) (sat : Bool) (a b : Nat) : FR :=
  finish f rm u sat (exSub rm (decodeF f a) (decodeF f b))

def fmul (f : Fmt) (rm : Rm) (u : Nat) (sat : Bool) (a b : Nat) : FR :=
  finish f rm u sat (exMul (decodeF f a) (decodeF f b))

def fdiv (f : Fmt) (rm : Rm) (u : Nat) (sat : Bool) (a b : Nat) : FR :=
  finish f rm u sat (exDiv (decodeF f a) (decodeF f b))

def fsqrt (f : Fmt) (rm : Rm) (u : Nat) (a : Nat) : FR :=
  finish f rm u false (exSqrt (decodeF f a))

def ffma (f : Fmt) (rm : Rm) (u : Nat) (sat negP negC : Bool) (a b c : Nat) : FR :=
  finish f rm u sat (exFma rm negP negC (decodeF f a) (decodeF f b) (decodeF f c))

/-- R109, R176: the sign operations; a NaN gives the canonical NaN. -/
def fneg (f : Fmt) (a : Nat) : Nat :=
  match decodeF f a with
  | .nan => (spec f).nan
  | _ => if a < 2 ^ ((spec f).width - 1) then a + 2 ^ ((spec f).width - 1)
         else a - 2 ^ ((spec f).width - 1)

def fabsB (f : Fmt) (a : Nat) : Nat :=
  match decodeF f a with
  | .nan => (spec f).nan
  | _ => a % 2 ^ ((spec f).width - 1)

/-- Rounding of m × 2^e to a whole number by mode: the number and whether it is inexact (R41). -/
def roundInt (rm : Rm) (u : Nat) (neg : Bool) (m : Nat) (e : Int) : Nat × Bool :=
  if 0 ≤ e then (m <<< e.toNat, false)
  else
    let sh := (-e).toNat
    let n := m >>> sh
    let rem := m % 2 ^ sh
    (if roundUp rm u neg (n % 2 == 1) rem sh false then n + 1 else n, rem != 0)

/-- R109, R176: RINT. -/
def frint (f : Fmt) (rm : Rm) (a : Nat) : FR :=
  match decodeF f a with
  | .nan => ⟨(spec f).nan, 0⟩
  | .inf _ => ⟨a, 0⟩
  | .fin neg m e =>
    let (n, inexact) := roundInt rm 0 neg m e
    if inexact then ⟨(roundNum (spec f) rm 0 false neg n 0 false).bits, fNX⟩ else ⟨a, 0⟩

/-- R176: CLASS of an FP32 value. -/
def fclass (a : Nat) : Nat :=
  match decodeF .fp32 a with
  | .nan => 2 ^ 8
  | .inf n => if n then 2 ^ 0 else 2 ^ 7
  | .fin n m e =>
    if m = 0 then (if n then 2 ^ 3 else 2 ^ 4)
    else if m < 2 ^ 23 && e == -149 then (if n then 2 ^ 2 else 2 ^ 5)
    else (if n then 2 ^ 1 else 2 ^ 6)

/-! ## Integers -/

/-- The integer that the bits of an integer format stand for (R31). -/
def intVal (f : Fmt) (bits : Nat) : Int :=
  match f with
  | .uint8 => bits
  | _ => (if bits < 2 ^ (8 * fmtSize f - 1) then (bits : Int) else (bits : Int) - 2 ^ (8 * fmtSize f))

def intMin : Fmt → Int
  | .uint8 => 0
  | f => -(2 ^ (8 * fmtSize f - 1))

def intMax : Fmt → Int
  | .uint8 => 255
  | f => 2 ^ (8 * fmtSize f - 1) - 1

/-- The low bits of an integer. -/
def wrapInt (size : Nat) (v : Int) : Nat := (v % 2 ^ (8 * size)).toNat

/-- R103: wrapped, or clamped with SAT. -/
def intRes (f : Fmt) (sat : Bool) (v : Int) : FR :=
  if sat then
    if v < intMin f then ⟨wrapInt (fmtSize f) (intMin f), fSAT⟩
    else if intMax f < v then ⟨wrapInt (fmtSize f) (intMax f), fSAT⟩
    else ⟨wrapInt (fmtSize f) v, 0⟩
  else ⟨wrapInt (fmtSize f) v, 0⟩

/-! ## Conversions (R39 to R41) -/

def toB8 (s : FSpec) (rm : Rm) (u : Nat) (sat : Bool) : FVal → FR
  | .nan => ⟨s.nan, 0⟩
  | .inf neg =>
    if sat then ⟨if neg && !s.signed then 0 else encMag s neg s.maxMag, fSAT⟩
    else if s.hasInf && (!neg || s.signed) then ⟨infBits s neg, 0⟩
    else ⟨s.nan, fNV⟩
  | .fin neg m e =>
    if m = 0 then ⟨0, 0⟩
    else
      let r := roundMag s rm u neg m e false
      let ovf := decide (s.maxMag < r.c)
      let base := if ovf then fOF + fNX
        else if r.inexact then (if r.tiny then fNX + fUF else fNX) else 0
      let y := if ovf then overflowBits s rm neg else encMag s neg r.c
      if neg && !s.signed && decide (r.c ≠ 0) && !(ovf && y == s.nan && !sat) then
        if sat then ⟨0, fSAT + (if ovf then fNX else base)⟩ else ⟨s.nan, Nat.lor fNV base⟩
      else if ovf && sat then ⟨encMag s neg s.maxMag, fSAT + fNX⟩
      else ⟨y, base⟩

/-- R39, R40: float to float. -/
def floatToFloat (frm tgt : Fmt) (rm : Rm) (u : Nat) (sat : Bool) (bits : Nat) : FR :=
  if fmtIsB8 tgt then toB8 (spec tgt) rm u sat (decodeF frm bits)
  else match decodeF frm bits with
    | .nan => ⟨(spec tgt).nan, 0⟩
    | .inf neg => if sat then ⟨encMag (spec tgt) neg (spec tgt).maxMag, fSAT⟩
                  else ⟨infBits (spec tgt) neg, 0⟩
    | .fin neg m e => roundNum (spec tgt) rm u sat neg m e false

/-- R41: float to integer, always clamped. -/
def floatToInt (frm tgt : Fmt) (rm : Rm) (u : Nat) (bits : Nat) : FR :=
  match decodeF frm bits with
  | .nan => ⟨0, fNV⟩
  | .inf neg => ⟨wrapInt (fmtSize tgt) (if neg then intMin tgt else intMax tgt), fNV⟩
  | .fin neg m e =>
    let (n, inexact) := roundInt rm u neg m e
    let v := sInt neg n
    if v < intMin tgt then ⟨wrapInt (fmtSize tgt) (intMin tgt), fNV⟩
    else if intMax tgt < v then ⟨wrapInt (fmtSize tgt) (intMax tgt), fNV⟩
    else ⟨wrapInt (fmtSize tgt) v, if inexact then fNX else 0⟩

/-- R41: integer to float, rounded under R35 (binary8 under R39). -/
def intToFloat (frm tgt : Fmt) (rm : Rm) (u : Nat) (sat : Bool) (bits : Nat) : FR :=
  let v := intVal frm bits
  let neg := decide (v < 0)
  if fmtIsB8 tgt then toB8 (spec tgt) rm u sat (.fin neg v.natAbs 0)
  else roundNum (spec tgt) rm u sat neg v.natAbs 0 false

/-- R118, R179: any conversion. Between INT8 and UINT8, which have one size, no rule says whether a value out
of range is clamped: the model clamps it and sets SAT (DESIGN CHOICE, log entry 24). -/
def convert (frm tgt : Fmt) (rm : Rm) (u : Nat) (sat : Bool) (bits : Nat) : FR :=
  if fmtIsInt frm then
    if fmtIsInt tgt then intRes tgt true (intVal frm bits)
    else intToFloat frm tgt rm u sat bits
  else if fmtIsInt tgt then floatToInt frm tgt rm u bits
  else floatToFloat frm tgt rm u sat bits

/-- Widening of a float element to FP32 (R40): exact. -/
def toF32 (f : Fmt) (bits : Nat) : Nat :=
  if f = .fp32 then bits else (floatToFloat f .fp32 .rne 0 false bits).bits

/-- R30: what every FP32 read of an FP32X element returns. -/
def fp32xRead (main guard : Nat) : Nat :=
  (floatToFloat .fp32x .fp32 .rne 0 false (main * 256 + guard)).bits

/-! ## Exact sums of products (R43, R44) -/

/-- A term of a block: a product resolved as R44 needs it. -/
inductive Term where
  | nan
  | inf (neg : Bool)
  | fin (neg : Bool) (m : Nat) (e : Int)
  deriving DecidableEq, Repr

def termMul (a b : FVal) : Term :=
  match exMul a b with
  | .nan _ => .nan
  | .inf n _ => .inf n
  | .num n m e _ => .fin n m e

/-- The running state of a block sum: NaN seen, +∞ seen, −∞ seen, every term −0, sum v × 2^e. -/
structure Block where
  nan : Bool
  pinf : Bool
  ninf : Bool
  allNegZero : Bool
  v : Int
  e : Int
  deriving DecidableEq, Repr

def Block.empty : Block := ⟨false, false, false, true, 0, 0⟩

def Block.add (b : Block) (t : Term) : Block :=
  match t with
  | .nan => { b with nan := true, allNegZero := false }
  | .inf n => { b with pinf := b.pinf || !n, ninf := b.ninf || n, allNegZero := false }
  | .fin n m e =>
    let z := b.allNegZero && n && m == 0
    if m = 0 then { b with allNegZero := z }
    else if b.v = 0 then { b with allNegZero := z, v := sInt n m, e := e }
    else
      let e' := if b.e < e then b.e else e
      { b with allNegZero := z, e := e',
               v := b.v * 2 ^ (b.e - e').toNat + sInt n m * 2 ^ (e - e').toNat }

/-- R44: the block sum as a value. -/
def Block.val (b : Block) : FVal :=
  if b.nan || (b.pinf && b.ninf) then .nan
  else if b.pinf then .inf false
  else if b.ninf then .inf true
  else if b.v = 0 then .fin b.allNegZero 0 0
  else .fin (decide (b.v < 0)) b.v.natAbs b.e

/-- R43: one accumulation step: the block added to the accumulator with one RNE rounding. -/
def accumulate (f : Fmt) (acc : Nat) (b : FVal) : Nat :=
  (finish f .rne 0 false (exAdd .rne (decodeF f acc) b)).bits

/-! ## The stochastic-rounding generator (R37) -/

def srNext (x : W64) : W64 :=
  let x := x ^^^ (x <<< 13)
  let x := x ^^^ (x >>> 7)
  x ^^^ (x <<< 17)

/-- A draw: the upper 16 bits of the advanced state. -/
def srDraw (x : W64) : Nat := (srNext x).toNat / 2 ^ 48

/-- n draws of the generator. -/
def srAdvance : Nat → W64 → W64
  | 0, x => x
  | n + 1, x => srAdvance n (srNext x)

/-! ## Special functions (R122 to R124) -/

/-- Flags of a result that R124 does not list, from a finite input (R122). None of them is exact: a value that R124
does not list has no power of two as its reciprocal or reciprocal root, and an irrational 2^x, logarithm or sine. -/
def sfuFlags (r : Nat) : Nat :=
  match decodeF .fp32 r with
  | .nan => fNX
  | .inf _ => fNX + fOF
  | .fin _ m e => if decide (bitLen m + e ≤ -126) then fNX + fUF else fNX

/-- The exponent k when the value is 2^k. -/
def pow2Of (m : Nat) (e : Int) : Option Int :=
  if m ≠ 0 ∧ 2 ^ m.log2 = m then some (m.log2 + e) else none

/-- The integer that a value is, if it is one. -/
def wholeOf (neg : Bool) (m : Nat) (e : Int) : Option Int :=
  if 0 ≤ e then some (sInt neg (m <<< e.toNat))
  else if m % 2 ^ (-e).toNat = 0 then some (sInt neg (m >>> (-e).toNat)) else none

def pow2Bits (neg : Bool) (k : Int) : Nat := (roundNum (spec .fp32) .rne 0 false neg 1 k false).bits

def oneBits (neg : Bool) : Nat := if neg then 0xBF800000 else 0x3F800000

/-- The exact results of R124; none where the table lists no result. -/
def sfuExactCase (fn : SfuFn) (x : FVal) : Option FR :=
  match fn, x with
  | _, .nan => some ⟨0x7FC00000, 0⟩
  | .rcp, .inf n => some ⟨zeroBits (spec .fp32) n, 0⟩
  | .rcp, .fin n m e =>
    if m = 0 then some ⟨infBits (spec .fp32) n, fDZ⟩
    else match pow2Of m e with
      | some k => if -127 ≤ k ∧ k ≤ 149 then some ⟨pow2Bits n (-k), 0⟩ else none
      | none => none
  | .rsq, .inf n => some (if n then ⟨0x7FC00000, fNV⟩ else ⟨0, 0⟩)
  | .rsq, .fin n m e =>
    if m = 0 then some ⟨infBits (spec .fp32) n, fDZ⟩
    else if n then some ⟨0x7FC00000, fNV⟩
    else match pow2Of m e with
      | some k => if k % 2 = 0 then some ⟨pow2Bits false (-(k / 2)), 0⟩ else none
      | none => none
  | .exp2, .inf n => some ⟨if n then 0 else 0x7F800000, 0⟩
  | .exp2, .fin n m e =>
    if cmpV x (.fin false 128 0) != .lt then some ⟨0x7F800000, fOF + fNX⟩
    else if cmpV x (.fin true 150 0) == .lt then some ⟨0, fUF + fNX⟩
    else match wholeOf n m e with
      | some k => if -149 ≤ k then some ⟨pow2Bits false k, 0⟩ else none
      | none => none
  | .log2, .inf n => some (if n then ⟨0x7FC00000, fNV⟩ else ⟨0x7F800000, 0⟩)
  | .log2, .fin n m e =>
    if m = 0 then some ⟨0xFF800000, fDZ⟩
    else if n then some ⟨0x7FC00000, fNV⟩
    else match pow2Of m e with
      | some k => some ⟨(roundNum (spec .fp32) .rne 0 false (decide (k < 0)) k.natAbs 0 false).bits, 0⟩
      | none => none
  | .sinpi, .inf _ => some ⟨0x7FC00000, fNV⟩
  | .sinpi, .fin n m e =>
    match wholeOf n m e with
    | some _ => some ⟨zeroBits (spec .fp32) n, 0⟩
    | none =>
      match wholeOf n m (e + 1) with
      | some k => some ⟨oneBits (decide ((k - 1) / 2 % 2 = 1)), 0⟩
      | none => none
  | .cospi, .inf _ => some ⟨0x7FC00000, fNV⟩
  | .cospi, .fin n m e =>
    match wholeOf n m e with
    | some k => some ⟨oneBits (decide (k % 2 = 1)), 0⟩
    | none =>
      match wholeOf n m (e + 1) with
      | some _ => some ⟨0, 0⟩
      | none => none

/-! ## The error bounds of the special functions (R123)

The exact value of a function is enclosed by numbers of 160 fraction bits, which decide whether a result lies within
the bound. -/

abbrev fixBits : Nat := 160
abbrev fixOne : Nat := 2 ^ fixBits

/-- π and the natural logarithm of 2, with 160 fraction bits. -/
abbrev fixPi : Nat := 0x3243F6A8885A308D313198A2E03707344A4093822
abbrev fixLn2 : Nat := 0xB17217F7D1CF79ABC9E3B39803F2F6AF40F34326

def fixMul (a b : Nat) : Nat := a * b / fixOne

/-- e^t for t below 1, by its series. -/
def fixExp (t : Nat) : Nat :=
  ((List.range 48).foldl (fun (p : Nat × Nat) k => (p.1 + p.2, fixMul p.2 t / (k + 1))) (0, fixOne)).1

/-- artanh z for z up to 1/3. -/
def fixArtanh (z : Nat) : Nat :=
  ((List.range 56).foldl (fun (p : Nat × Nat) k => (p.1 + p.2 / (2 * k + 1), fixMul p.2 (fixMul z z))) (0, z)).1

/-- sin t for t up to π/2. -/
def fixSin (t : Nat) : Nat :=
  ((List.range 32).foldl (fun (p : Int × Nat) k =>
    (if k % 2 = 0 then p.1 + (p.2 : Int) else p.1 - (p.2 : Int), fixMul p.2 (fixMul t t) / ((2 * k + 2) * (2 * k + 3))))
    (0, t)).1.toNat

/-- sin πa for a below 2: its sign and size. -/
def fixSinPi (a : Nat) : Bool × Nat :=
  let b := a % fixOne
  (decide (fixOne ≤ a), fixSin (fixMul (if fixOne / 2 < b then fixOne - b else b) fixPi))

/-- The exact value of a function at ±m × 2^e: sign, m', e' and the error of m', for a finite value that R124 does
not list. -/
def sfuNear (fn : SfuFn) (neg : Bool) (m : Nat) (e : Int) : Bool × Nat × Int × Nat :=
  let p : Int := fixBits
  let x := m <<< (e + p).toNat
  match fn with
  | .rcp => (neg, fixOne / m, -e - p, 1)
  | .rsq =>
    let (m, e) := if e % 2 = 0 then (m, e) else (2 * m, e - 1)
    (false, isqrt (fixOne * fixOne / m), -(e / 2) - p, 2)
  | .exp2 =>
    let v := sInt neg x
    (false, fixExp (fixMul (v % fixOne).toNat fixLn2), v / fixOne - p, 256)
  | .log2 =>
    let l := m.log2
    let y := (m * fixOne) >>> l
    let v := ((l : Int) + e) * fixOne + (2 * fixArtanh ((y - fixOne) * fixOne / (y + fixOne)) * fixOne / fixLn2 : Nat)
    (decide (v < 0), v.natAbs, -p, 512)
  | .sinpi =>
    let (s, y) := fixSinPi (x % (2 * fixOne))
    (s != neg, y, -p, 256)
  | .cospi =>
    let (s, y) := fixSinPi ((x + fixOne / 2) % (2 * fixOne))
    (s, y, -p, 256)

/-- R123: the bound in ulps, and the absolute one as a power of two where there is one. -/
def sfuBound (fn : SfuFn) (x : FVal) : Nat × Option Int :=
  match fn with
  | .rcp | .rsq => (1, none)
  | .exp2 => (2, none)
  | .log2 => (2, if cmpV x (.fin false 1 (-1)) != .lt && cmpV x (.fin false 2 0) != .gt then some (-22) else none)
  | .sinpi | .cospi => (2, some (-24))

def minInt (a b : Int) : Int := if a < b then a else b

/-- R123: a finite result lies within the bound of the exact value ±m × 2^e, which is known up to err × 2^e. -/
def sfuWithin (bound : Nat × Option Int) (near : Bool × Nat × Int × Nat) : FVal → Bool
  | .fin rn rm re =>
    let (n, m, e, err) := near
    let top := bitLen m + e - 1
    let u := (if top < -126 then -126 else top) - 23
    let s := minInt (minInt re e) (minInt u (bound.2.getD u))
    let at' := fun (v : Nat) (k : Int) => v <<< (k - s).toNat
    let d := (sInt rn (at' rm re) - sInt n (at' m e)).natAbs
    decide (d ≤ at' bound.1 u + at' err e) || bound.2.any (fun a => decide (d ≤ at' 1 a + at' err e))
  | _ => false

/-- R122 to R124: a special function. Where R124 fixes no result it is a free value within the bound of R123, or an
infinity where the exact value lies beyond the range (log entry 9). -/
def sfu (fn : SfuFn) (bits : Nat) : FR :=
  let x := decodeF .fp32 bits
  match sfuExactCase fn x, x with
  | some r, _ => r
  | none, .fin n m e =>
    let near := sfuNear fn n m e
    let nearest := (roundNum (spec .fp32) .rne 0 false near.1 near.2.1 near.2.2.1 true).bits
    let raw := (Config.sfuRaw fn (BitVec.ofNat 32 bits)).toNat
    let r := match decodeF .fp32 nearest with
      | .inf _ => nearest
      | _ => if sfuWithin (sfuBound fn x) near (decodeF .fp32 raw) then raw else nearest
    ⟨r, sfuFlags r⟩
  | none, _ => ⟨0x7FC00000, 0⟩

end Sys2Proof.Machine
end

