-- ==== Sys2Proof/WellFormed.lean ====
section
/-! DEFINITION. Well-formed instructions: those whose fields pass every check of decode. -/
namespace Sys2Proof

/-- The checks of R63 and R152 on the fields of an instruction. -/
def Instr.wf (i : Instr) : Bool := Machine.legal i

/-- A well-formed instruction. -/
abbrev Instr.WellFormed (i : Instr) : Prop := i.wf = true

end Sys2Proof
end

