-- ==== Sys2Proof/Decode.lean ====
section
/-! DEFINITION. Decoding (03 R56 to R63, and the encoding tables of the slot and lane chapters)
and, after it, the encoder written from the same tables. Decoding is total and rejects by name. -/
namespace Sys2Proof

/-- Why a word is no instruction. Every one of them is the cause ILLEGAL of R63 or R152. -/
inductive DecodeError where
  | badHeader        -- R57, R63: a reserved header bit is set, or all five slots are present
  | needsSlots       -- a header that declares slots is no instruction by itself
  | wrongClass       -- R63: the opcode lies outside the range of the slot's class
  | reservedOpcode   -- R63, R162
  | reservedBits     -- R63: a field shown as 0 is not zero
  | reservedCode     -- R72, R105, R152: a reserved FN, CC, KIND, SCOPE, SZ, format or RM value
  | illegalFields    -- any other combination that the instruction's chapter calls illegal
  deriving DecidableEq, Repr

abbrev Dec := Except DecodeError

/-- A bit field of a word: `len` bits from bit `lo`. -/
def fld {n : Nat} (w : BitVec n) (lo len : Nat) : BitVec len := w.extractLsb' lo len

def bit {n : Nat} (w : BitVec n) (i : Nat) : Bool := w.getLsbD i

/-- A field that must be zero. -/
def zero {n : Nat} (w : BitVec n) (lo len : Nat) : Dec Unit :=
  if fld w lo len = 0 then .ok () else .error .reservedBits

/-- A code looked up in the list of its values in order. -/
def code {α : Type} (tbl : List α) (n : Nat) : Dec α :=
  match tbl[n]? with
  | some x => .ok x
  | none => .error .reservedCode

/-- The code of a value: its place in the list. -/
def codeOf {α : Type} [DecidableEq α] (tbl : List α) (x : α) : Nat := tbl.idxOf x

/-! ## Code tables, in the order of the codes -/

def sopFns : List SopFn := [.add, .sub, .mul, .mulhs, .mulhu, .divs, .divu, .rems, .remu, .and,
  .or, .xor, .shl, .shr, .sra, .min, .max, .minu, .maxu, .fadd, .fsub, .fmul, .fmin, .fmax]
def sopiFns : List SopiFn := [.add, .and, .or, .xor, .shl, .shr, .sra]
def scmpCcs : List ScmpCc := [.eq, .ne, .lt, .ge, .ltu, .geu, .feq, .flt, .fle, .funord]
def sizes : List Size := [.b8, .b16, .b32, .b64]
def scopes : List Scope := [.core, .cluster, .die, .device, .system]
def waitCcs : List WaitCc := [.eq, .ne, .geu, .ltu]
def fenceKinds : List FenceKind := [.full, .rel, .acq]
def rms : List Rm := [.rne, .rtz, .rup, .rdn, .sr]
def vop2Fns : List Vop2Fn := [.add, .sub, .mul, .min, .max, .mulh, .absd]
def vfmaFns : List VfmaFn := [.fma, .fms, .fnma]
def vop1Fns : List Vop1Fn := [.mov, .neg, .abs, .relu, .relud, .rint]
def fCcs : List FCc := [.eq, .ne, .lt, .le, .gt, .ge, .un]
def vredFns : List VredFn := [.sum, .max, .min, .amax]
def vintFns : List VintFn := [.and, .or, .xor, .andn, .shl, .shr, .sra]
def sfuFns : List SfuFn := [.rcp, .rsq, .exp2, .log2, .sinpi, .cospi]
def wins : List Win := [.own, .peer, .mcast]
def sides : List Side := [.gm, .ts, .ring]
def cmpls : List Cmpl := [.none, .eyelet, .stamp]
def lidFns : List LidFn := [.lane, .gang, .depth, .live, .core]
def iopFns : List IopFn := [.add, .sub, .mul, .mulhs, .mulhu, .and, .or, .xor, .andn, .shl, .shr,
  .sra, .min, .max, .minu, .maxu]
def idivFns : List IdivFn := [.divs, .divu, .rems, .remu]
def imadFns : List ImadFn := [.mad, .madws, .madwu]
def isatFns : List IsatFn := [.adds, .subs, .addus, .subus]
def ibitFns : List IbitFn := [.popc, .clz, .ctz, .brev, .bswap, .not, .neg, .abs]
def iCcs : List ICc := [.eq, .ne, .lt, .le, .gt, .ge, .ltu, .leu, .gtu, .geu]
def plopFns : List PlopFn := [.and, .or, .xor, .andn, .not, .set]
def pmovFns : List PmovFn := [.p2g, .g2p]
def iop64Fns : List Iop64Fn := [.add, .sub, .mul, .and, .or, .xor, .shl, .shr, .sra, .min, .max,
  .minu, .maxu]
def fopFns : List FopFn := [.add, .sub, .mul, .div, .min, .max, .csgn]
def ffmaFns : List FfmaFn := [.fma, .fms, .fnma, .fnms]
def funFns : List FunFn := [.sqrt, .neg, .abs, .rint, .cls]
def hopFns : List HopFn := [.add, .sub, .mul, .min, .max]
def dopFns : List DopFn := [.add, .sub, .mul, .div, .min, .max]
def dunFns : List DunFn := [.sqrt, .neg, .abs, .rint]
def atomFns : List AtomFn := [.add, .and, .or, .xor, .min, .max, .minu, .maxu, .swap, .fadd]
def voteFns : List VoteFn := [.all, .any, .ballot, .count]
def shflFns : List ShflFn := [.idx, .up, .down, .xor]
def scanOps : List ScanOp := [.add, .min, .max, .minu, .maxu, .and, .or, .fadd]

/-- R21: the code of a format. -/
def fmtCode : Fmt → Nat
  | .fp32 => 0x00 | .bf16 => 0x01 | .fp16 => 0x02 | .fp64 => 0x03 | .fp32x => 0x04
  | .int8 => 0x08 | .uint8 => 0x09 | .int16 => 0x0A | .int32 => 0x0B
  | .b8 p u f => 0x20 + 4 * (p - 1) + 2 * bitOf u + bitOf f

/-- R21: the format of a code; none for a reserved code. -/
def fmtOfCode (n : Nat) : Option Fmt :=
  if n = 0x00 then some .fp32 else if n = 0x01 then some .bf16 else if n = 0x02 then some .fp16
  else if n = 0x03 then some .fp64 else if n = 0x04 then some .fp32x
  else if n = 0x08 then some .int8 else if n = 0x09 then some .uint8
  else if n = 0x0A then some .int16 else if n = 0x0B then some .int32
  else if 0x20 ≤ n ∧ n ≤ 0x3B then
    some (.b8 ((n - 0x20) / 4 + 1) (n / 2 % 2 == 1) (n % 2 == 1))
  else none

def fmtD (n : Nat) : Dec Fmt :=
  match fmtOfCode n with
  | some f => .ok f
  | none => .error .reservedCode

/-! ## Slots -/

/-- R59: the fields that every slot begins with. -/
def guardOf {n : Nat} (w : BitVec n) : Guard := ⟨bit w 7, fld w 8 3⟩

/-- R70: the slot class that an opcode belongs to. -/
inductive SlotClass where
  | c | m | v | k | s
  deriving DecidableEq, Repr

def opcClass (opc : Nat) : SlotClass :=
  if opc < 0x20 then .c else if opc < 0x38 then .v else if opc < 0x48 then .m
  else if opc < 0x60 then .k else .s

def opcOf {n : Nat} (w : BitVec n) : Nat := (fld w 0 7).toNat

/-- A CFGW to a register with a write behaviour of its own is that row's instruction. -/
def cfgwOf (g : Guard) (reg : BitVec 12) (a : SReg) : Instr :=
  let n := reg.toNat
  if 0x010 ≤ n ∧ n ≤ 0x017 then .tshapeWrite g (reg.extractLsb' 0 3) a
  else if 0x020 ≤ n ∧ n ≤ 0x03F then .cbdescWrite g (reg.extractLsb' 0 5) a
  else if n = 0x002 then .srstateWrite g a
  else if n = 0x090 then .mfmtWrite g a
  else if 0x100 ≤ n ∧ n < 0x120 ∧ n % 8 ≤ 2 then
    .moncfgWrite g (reg.extractLsb' 3 2) (n % 8) a
  else if n = 0x131 then .logpWrite g a
  else if n = 0x13B then .haccWrite g a
  else .cfgw g reg a

/-- R72, R285, R288, R317: the C slot. -/
def parseC (w : BitVec 32) : Dec Instr :=
  let g := guardOf w
  let d := fld w 11 5
  let a := fld w 16 5
  let b := fld w 21 5
  match opcOf w with
  | 0x00 => do zero w 11 21; .ok (.nop g)
  | 0x01 => do let fn ← code sopFns (fld w 26 6).toNat; .ok (.sop g fn d a b)
  | 0x02 => do let fn ← code sopiFns (fld w 29 3).toNat; .ok (.sopi g fn d a (fld w 21 8))
  | 0x03 => .ok (.smovi g d (fld w 16 16))
  | 0x04 => do
      zero w 11 3
      let cc ← code scmpCcs (fld w 18 4).toNat
      .ok (.scmp g cc (bit w 17) (fld w 14 3) (fld w 22 5) (fld w 27 5))
  | 0x05 => do
      let sz ← code sizes (fld w 30 2).toNat
      .ok (.sld g sz (bit w 29) (bit w 28) (fld w 21 7) a d)
  | 0x06 => do
      zero w 28 1
      let sz ← code sizes (fld w 30 2).toNat
      .ok (.sst g sz (bit w 29) (fld w 21 7) a d)
  | 0x07 => if bit w 31 then do zero w 16 15; .ok (.brInd g d) else .ok (.br g (fld w 11 20))
  | 0x08 => if bit w 31 then do zero w 16 15; .ok (.callInd g d) else .ok (.call g (fld w 11 20))
  | 0x09 => do zero w 16 16; .ok (.ret g d)
  | 0x0A => do zero w 21 11; .ok (.advr g a d)
  | 0x0B => do zero w 21 11; .ok (.advw g a d)
  | 0x0C => do zero w 16 4; .ok (.cfgr g (fld w 20 12) d)
  | 0x0D => do zero w 16 4; .ok (cfgwOf g (fld w 20 12) d)
  | 0x0E => do
      zero w 11 2
      let cc ← code waitCcs (fld w 29 3).toNat
      let sc ← code scopes (fld w 26 3).toNat
      .ok (.waits g cc sc b a (fld w 13 3))
  | 0x0F => do
      zero w 11 14
      let sc ← code scopes (fld w 29 3).toNat
      let k ← code fenceKinds (fld w 25 2).toNat
      .ok (.fence g sc (bit w 28) (bit w 27) k)
  | 0x10 => do zero w 11 1; .ok (.fork g (fld w 16 16) (fld w 12 4))
  | 0x11 => do zero w 11 1; .ok (.join g (fld w 16 16) (fld w 12 4))
  | 0x12 => do zero w 25 7; .ok (.hpass g (fld w 21 4) a d)
  | 0x13 => do
      zero w 11 15
      let sc ← code scopes (fld w 29 3).toNat
      .ok (.bar g sc (fld w 26 3))
  | 0x14 => do zero w 26 5; .ok (.launch g (bit w 31) b a d)
  | 0x15 => do zero w 21 4; .ok (.bind g (fld w 25 7) a d)
  | 0x16 => do zero w 11 21; .ok (.recon g)
  | 0x17 => do zero w 11 21; .ok (.recoff g)
  | 0x18 => do
      zero w 11 17
      match (fld w 28 2).toNat with
      | 0 => .ok (.monsetArm g (fld w 30 2))
      | 1 => .ok (.monsetDisarm g (fld w 30 2))
      | 2 => .ok (.monsetCheck g (fld w 30 2))
      | _ => .error .reservedCode
  | 0x19 => do zero w 21 11; .ok (.unpick g a d)
  | 0x1A => do
      zero w 11 7
      .ok (.loop g (fld w 26 6) (fld w 23 3) (fld w 20 3) (bit w 19) (bit w 18))
  | 0x1B => do
      zero w 16 10
      match (fld w 29 3).toNat with
      | 0 => .ok (.iterIdx g (fld w 26 3) d)
      | 1 => do zero w 26 3; .ok (.iterPass g d)
      | 2 => do zero w 26 3; zero w 11 5; .ok (.iterExit g)
      | _ => .error .reservedCode
  | 0x1C => do
      zero w 11 5
      let imm := fld w 16 16
      if imm = 0 then .ok (.sys g) else .ok (.sysServiceCall g imm)
  | 0x1D => do zero w 11 21; .ok (.tret g)
  | 0x1E => do zero w 11 5; .ok (.brk g (fld w 16 16))
  | 0x1F => .error .reservedOpcode
  | _ => .error .wrongClass

/-- A slot of a free or rebound opcode, read with the layout of R142. -/
def parseStitch (w : BitVec 64) (hi : BitVec 32) : Instr :=
  .stitchDispatch (guardOf w) (fld w 0 7)
    ⟨fld w 11 5, fld w 16 16, fld w 32 16, fld w 48 16⟩ hi

/-- R104: the V slot. -/
def parseV (w : BitVec 64) : Dec Instr :=
  let g := guardOf w
  let vd := fld w 11 7
  let va := fld w 18 7
  let vb := fld w 25 7
  let vc := fld w 32 7
  match opcOf w with
  | 0x20 => do
      zero w 53 11; zero w 32 7
      let fn ← code vop2Fns (fld w 50 3).toNat
      let rm ← code rms (fld w 45 3).toNat
      let f ← fmtD (fld w 39 6).toNat
      .ok (.vop2 g fn (bit w 49) (bit w 48) rm f vb va vd)
  | 0x21 => do
      zero w 52 12
      let fn ← code vfmaFns (fld w 50 2).toNat
      let rm ← code rms (fld w 45 3).toNat
      let f ← fmtD (fld w 39 6).toNat
      .ok (.vfma g fn (bit w 49) (bit w 48) rm f vc vb va vd)
  | 0x22 => do
      zero w 53 11; zero w 49 1; zero w 25 14
      let fn ← code vop1Fns (fld w 50 3).toNat
      let rm ← code rms (fld w 45 3).toNat
      let f ← fmtD (fld w 39 6).toNat
      .ok (.vop1 g fn (bit w 48) rm f va vd)
  | 0x23 => do
      zero w 58 6; zero w 53 1; zero w 45 4; zero w 32 7
      let cc ← code fCcs (fld w 50 3).toNat
      let f ← fmtD (fld w 39 6).toNat
      .ok (.vcmp g (fld w 55 3) (bit w 54) cc (bit w 49) f vb va vd)
  | 0x24 => do
      zero w 50 14; zero w 45 4
      let f ← fmtD (fld w 39 6).toNat
      .ok (.vsel g (bit w 49) f vc vb va vd)
  | 0x25 => do
      zero w 53 11; zero w 45 5; zero w 25 14; zero w 16 2
      let fn ← code vredFns (fld w 50 3).toNat
      let f ← fmtD (fld w 39 6).toNat
      .ok (.vred g fn f va (fld w 11 5))
  | 0x26 => do
      zero w 25 10
      let sz ← code sizes (fld w 62 2).toNat
      .ok (.vrows g sz (fld w 53 9) (fld w 44 9) (fld w 35 9) va vd)
  | 0x27 => do
      zero w 57 6; zero w 25 18
      let sz ← code sizes (fld w 55 2).toNat
      .ok (.vcols g (bit w 63) sz (fld w 46 9) (fld w 43 3) va vd)
  | 0x28 => do
      zero w 49 7; zero w 25 14
      let tgt ← fmtD (fld w 58 6).toNat
      let rm ← code rms (fld w 45 3).toNat
      let frm ← fmtD (fld w 39 6).toNat
      .ok (.vcvt g tgt (fld w 56 2) (bit w 48) rm frm va vd)
  | 0x29 => do
      zero w 30 6
      let rm ← code rms (fld w 45 3).toNat
      let tgt ← fmtD (fld w 39 6).toNat
      .ok (.vcvto g (fld w 48 16) rm tgt (bit w 38) (fld w 36 2) (fld w 25 5) va vd)
  | 0x2A => do
      zero w 51 13; zero w 48 2; zero w 39 6
      let rm ← code rms (fld w 45 3).toNat
      .ok (.vsca g (bit w 50) rm vc vb va vd)
  | 0x2B => do
      zero w 53 11; zero w 45 5; zero w 39 6; zero w 25 14
      let fn ← code sfuFns (fld w 50 3).toNat
      .ok (.vsfu g fn va vd)
  | 0x2C => do
      zero w 53 11; zero w 45 4; zero w 32 7
      let fn ← code vintFns (fld w 50 3).toNat
      let f ← fmtD (fld w 39 6).toNat
      .ok (.vint g fn (bit w 49) f vb va vd)
  | 0x2D => do
      zero w 30 2; zero w 18 6
      let f ← fmtD (fld w 24 6).toNat
      .ok (.vmovi g (fld w 32 32) f vd)
  | 0x2E => do
      zero w 18 6
      let win ← code wins (fld w 36 2).toNat
      .ok (.vldt g (fld w 48 16) (fld w 38 10) win (fld w 34 2) (bit w 33) (fld w 29 4) (fld w 24 5) vd)
  | 0x2F => do
      zero w 18 6
      let win ← code wins (fld w 36 2).toNat
      .ok (.vstt g (fld w 48 16) (fld w 38 10) win (fld w 34 2) (bit w 33) (fld w 29 4) (fld w 24 5) vd)
  | n => if opcClass n = .v then .ok (parseStitch w 0) else .error .wrongClass

def mmaOpOf (w : BitVec 64) : Dec MmaOp := do
  let f ← fmtD (fld w 16 6).toNat
  .ok ⟨fld w 43 7, fld w 36 7, fld w 30 6, fld w 24 6, bit w 23, bit w 22, f, bit w 15, bit w 14,
    fld w 11 3⟩

/-- R232: the M slot. -/
def parseM (w : BitVec 64) : Dec Instr :=
  let g := guardOf w
  match opcOf w with
  | 0x38 => do zero w 11 53; .ok (.mlease g)
  | 0x39 => do zero w 11 53; .ok (.munlease g)
  | 0x3A => do zero w 28 36; zero w 11 5; .ok (.mclaim g (fld w 22 6) (fld w 16 6))
  | 0x3B => do zero w 28 36; zero w 11 5; .ok (.mrels g (fld w 22 6) (fld w 16 6))
  | 0x3C => do zero w 60 4; let o ← mmaOpOf w; .ok (.mma g (fld w 50 10) o)
  | 0x3D => do
      let o ← mmaOpOf w
      .ok (.mmah g (fld w 59 5) (bit w 57) (bit w 58) (fld w 50 7) o)
  | 0x3E => do zero w 11 53; .ok (.mdrain g)
  | 0x3F => do zero w 14 50; .ok (.mzero g (fld w 11 3))
  | n => if opcClass n = .m then .ok (parseStitch w 0) else .error .wrongClass

/-- R260: the fields that the transfer commands share. KPULL's SSP is a peer number and KCGRAD's
DDESC holds its own fields, so both are read apart. -/
def kxferOf (w : BitVec 96) (pull cgrad : Bool) : Dec KXfer := do
  zero w 80 16
  zero w 47 1
  let stsc ← code scopes (fld w 44 3).toNat
  let cmpl ← code cmpls (fld w 37 2).toNat
  let src ← if pull then .ok .gm else code sides (fld w 28 2).toNat
  let dst ← code sides (fld w 26 2).toNat
  .ok { sdesc := fld w 64 16, ddesc := if cgrad then 0 else fld w 48 16, stsc := stsc,
        se := fld w 39 5, cmpl := cmpl, adv := bit w 36, ch := fld w 34 2, oh := fld w 30 4,
        src := src, dst := dst, sn := fld w 21 5, ss := fld w 16 5, sd := fld w 11 5 }

/-- R260, R276: the K slot. -/
def parseK (w : BitVec 96) : Dec Instr :=
  let g := guardOf w
  match opcOf w with
  | 0x48 => do let x ← kxferOf w false false; .ok (.kcopy g x)
  | 0x49 => do let x ← kxferOf w false false; .ok (.kfill g x)
  | 0x4A => do let x ← kxferOf w false false; .ok (.kgang g x)
  | 0x4B => do let x ← kxferOf w false false; .ok (.kmcast g x)
  | 0x4C => do
      let x ← kxferOf w false true
      zero w 48 1
      let tgt ← fmtD (fld w 58 6).toNat
      let rm ← code rms (fld w 55 3).toNat
      .ok (.kcgrad g x tgt rm (fld w 49 6))
  | 0x4D => do
      zero w 31 65
      zero w 24 3
      let oh := fld w 27 4
      let mc := bit w 23
      let sa := fld w 16 5
      let se := fld w 11 5
      match (fld w 21 2).toNat with
      | 0 => .ok (.keyeInit g oh mc sa se)
      | 1 => .ok (.keyeAdd g oh mc sa se)
      | 2 => if mc then .error .illegalFields else .ok (.keyeWait g oh sa se)
      | _ => .error .reservedCode
  | 0x4E => do let x ← kxferOf w true false; .ok (.kpull g x (fld w 28 2))
  | n => if opcClass n = .k then .ok (parseStitch (fld w 0 64) (fld w 64 32))
         else .error .wrongClass

/-- R142, R148: the S slot. -/
def parseS (w : BitVec 64) : Dec Instr :=
  let g := guardOf w
  let o : SOp := ⟨fld w 11 5, fld w 16 16, fld w 32 16, fld w 48 16⟩
  match opcOf w with
  | 0x60 => .ok (.xpose g o)
  | 0x61 => .ok (.gather g o)
  | 0x62 => .ok (.scatter g o)
  | 0x63 => .ok (.softmax g o)
  | 0x64 => .ok (.lnorm g o)
  | 0x65 => .ok (.topk g o)
  | 0x66 => .ok (.sort g o)
  | 0x67 => .ok (.segsum g o)
  | n => if opcClass n = .s then .ok (parseStitch w 0) else .error .wrongClass

/-! ## Lanes -/

/-- R161: a predicate register in an eight-bit field, whose upper five bits must be zero. -/
def kfld (w : BitVec 64) (lo : Nat) : Dec PReg := do
  zero w (lo + 3) 5
  .ok (fld w lo 3)

def fmodOf (w : BitVec 64) (hasH16 : Bool) : Dec FMod := do
  zero w 53 11
  if hasH16 then pure () else zero w 52 1
  let rm ← code rms (fld w 48 3).toNat
  .ok ⟨bit w 51, rm⟩

def zD (w : BitVec 64) := zero w 8 8
def zA (w : BitVec 64) := zero w 16 8
def zB (w : BitVec 64) := zero w 24 8
def zC (w : BitVec 64) := zero w 32 8
def zSub (w : BitVec 64) := zero w 44 4
def zImm (w : BitVec 64) := zero w 48 16

/-- R186: the size, sign and unit of a lane access. -/
structure Memm where
  sz : Size
  sx : Bool
  mc : Bool
  port : BitVec 2

def memmOf (w : BitVec 64) (hasUnit hasMc hasSx : Bool) : Dec Memm := do
  zero w 36 1
  if hasUnit then pure () else zero w 38 2
  if hasMc then pure () else zero w 37 1
  if hasSx then pure () else zero w 35 1
  let sz ← code sizes (fld w 32 3).toNat
  .ok ⟨sz, bit w 35, bit w 37, fld w 38 2⟩

/-- R161, R185: a lane instruction. -/
def parseLane (w : BitVec 64) : Dec Instr :=
  let p : Pred := ⟨bit w 43, fld w 40 3⟩
  let d := fld w 8 8
  let a := fld w 16 8
  let b := fld w 24 8
  let c := fld w 32 8
  let sub := (fld w 44 4).toNat
  let oh := fld w 44 4
  let imm := fld w 48 16
  match (fld w 0 8).toNat with
  | 0x01 => do zD w; zA w; zB w; zC w; zSub w; zImm w; .ok (.lnop p)
  | 0x02 => do zA w; zB w; zC w; zSub w; .ok (.movi p d imm)
  | 0x03 => do zB w; zC w; zSub w; .ok (.movhi p d a imm)
  | 0x04 => do zB w; zC w; zSub w; zImm w; .ok (.mov p d a)
  | 0x05 => do zB w; zC w; zSub w; zImm w; .ok (.movd p d a)
  | 0x06 => do zC w; zImm w; .ok (.sel p (bit w 47) (fld w 44 3) d a b)
  | 0x07 => do zA w; zB w; zC w; zImm w; let fn ← code lidFns sub; .ok (.lid p fn d)
  | 0x10 => do zC w; zImm w; let fn ← code iopFns sub; .ok (.iop p fn d a b)
  | 0x11 => do zB w; zC w; let fn ← code iopFns sub; .ok (.iopi p fn d a imm)
  | 0x12 => do zC w; zImm w; let fn ← code idivFns sub; .ok (.idiv p fn d a b)
  | 0x13 => do zImm w; let fn ← code imadFns sub; .ok (.imad p fn d a b c)
  | 0x14 => do zC w; zImm w; let fn ← code isatFns sub; .ok (.isat p fn d a b)
  | 0x15 => do zB w; zC w; zImm w; let fn ← code ibitFns sub; .ok (.ibit p fn d a)
  | 0x16 => do
      zB w; zC w; zero w 58 6
      let sx ← code [false, true] sub
      .ok (.bfx p sx d a (fld w 53 5) (fld w 48 5))
  | 0x17 => do zC w; zSub w; zero w 58 6; .ok (.bfi p d a b (fld w 53 5) (fld w 48 5))
  | 0x18 => do zC w; zImm w; let cc ← code iCcs sub; let kd ← kfld w 8; .ok (.icmp p cc kd a b)
  | 0x19 => do zB w; zC w; let cc ← code iCcs sub; let kd ← kfld w 8; .ok (.icmpi p cc kd a imm)
  | 0x1A => do
      zC w; zero w 49 15
      let fn ← code plopFns sub
      let kd ← kfld w 8
      let ka ← kfld w 16
      let kb ← kfld w 24
      .ok (.plop p fn kd ka kb (bit w 48))
  | 0x1B => do zB w; zC w; zImm w; let fn ← code pmovFns sub; .ok (.pmov p fn d a)
  | 0x1C => do zC w; zImm w; let fn ← code iop64Fns sub; .ok (.iop64 p fn d a b)
  | 0x1D => do zC w; zImm w; let cc ← code iCcs sub; let kd ← kfld w 8; .ok (.icmp64 p cc kd a b)
  | 0x20 => do zC w; let m ← fmodOf w false; let fn ← code fopFns sub; .ok (.fop p fn m d a b)
  | 0x21 => do let m ← fmodOf w false; let fn ← code ffmaFns sub; .ok (.ffma p fn m d a b c)
  | 0x22 => do zB w; zC w; let m ← fmodOf w false; let fn ← code funFns sub; .ok (.funop p fn m d a)
  | 0x23 => do zC w; zImm w; let cc ← code fCcs sub; let kd ← kfld w 8; .ok (.fcmp p cc kd a b)
  | 0x24 => do
      zC w
      let m ← fmodOf w true
      let fn ← code hopFns sub
      .ok (.hop p fn (bit w 52) m d a b)
  | 0x25 => do
      let m ← fmodOf w true
      let fn ← code vfmaFns sub
      .ok (.hfma p fn (bit w 52) m d a b c)
  | 0x28 => do zC w; let m ← fmodOf w false; let fn ← code dopFns sub; .ok (.dop p fn m d a b)
  | 0x29 => do let m ← fmodOf w false; let fn ← code ffmaFns sub; .ok (.dfma p fn m d a b c)
  | 0x2A => do zB w; zC w; let m ← fmodOf w false; let fn ← code dunFns sub; .ok (.dun p fn m d a)
  | 0x2B => do zC w; zImm w; let cc ← code fCcs sub; let kd ← kfld w 8; .ok (.dcmp p cc kd a b)
  | 0x30 => do
      zB w; zC w
      let rm ← code rms (fld w 60 3).toNat
      let tgt ← fmtD (fld w 54 6).toNat
      let frm ← fmtD (fld w 48 6).toNat
      .ok (.cvt p (fld w 46 2) (fld w 44 2) ⟨bit w 63, rm⟩ tgt frm d a)
  | 0x38 => do zB w; zC w; zImm w; let fn ← code sfuFns sub; .ok (.sfu p fn d a)
  | 0x40 => do zD w; zA w; zB w; zC w; zSub w; .ok (.bra p imm)
  | 0x41 => do zD w; zB w; zC w; zSub w; zImm w; .ok (.brx p a)
  | 0x42 => do zA w; zB w; zC w; zSub w; .ok (.laneCall p d imm)
  | 0x43 => do zB w; zC w; zSub w; zImm w; .ok (.callx p d a)
  | 0x44 => do zD w; zB w; zC w; zSub w; zImm w; .ok (.laneRet p a)
  | 0x45 => do zD w; zA w; zB w; zC w; zSub w; zero w 40 4; .ok (.lbrk imm)
  | 0x50 => do zB w; let m ← memmOf w false false true; .ok (.ld p m.sz m.sx oh d a imm)
  | 0x51 => do zD w; let m ← memmOf w false false false; .ok (.st p m.sz oh a b imm)
  | 0x52 => do zB w; let m ← memmOf w false false true; .ok (.ldts p m.sz m.sx oh d a imm)
  | 0x53 => do zD w; let m ← memmOf w false false false; .ok (.stts p m.sz oh a b imm)
  | 0x54 => do zB w; let m ← memmOf w true false true; .ok (.ldtp p m.port m.sz m.sx oh d a imm)
  | 0x55 => do zD w; let m ← memmOf w true false false; .ok (.sttp p m.port m.sz oh a b imm)
  | 0x56 => do zB w; let m ← memmOf w true false true; .ok (.ldpeer p m.port m.sz m.sx oh d a imm)
  | 0x57 => do zD w; let m ← memmOf w true true false; .ok (.stpeer p m.port m.mc m.sz oh a b imm)
  | 0x58 => do
      zD w; zA w; zB w; zero w 38 2; zSub w; zImm w
      let k ← code fenceKinds (fld w 36 2).toNat
      let sc ← code scopes (fld w 32 3).toNat
      .ok (.lfence p k (bit w 35) sc)
  | 0x59 => do zD w; zA w; zB w; zC w; .ok (.lfork p oh imm)
  | 0x5A => do zD w; zA w; zB w; zC w; .ok (.ljoin p oh imm)
  | 0x5B => do
      zero w 35 5
      let cc ← code waitCcs sub
      let sc ← code scopes (fld w 32 3).toNat
      let kd ← kfld w 8
      .ok (.lwait p cc sc kd a b imm)
  | 0x60 => do
      zero w 36 2
      let fn ← code atomFns (fld w 32 4).toNat
      .ok (.atom p fn (bit w 39) (bit w 38) oh d a b imm)
  | 0x61 => do
      zero w 36 2; zero w 63 1
      let fn ← code atomFns (fld w 32 4).toNat
      .ok (.atomts p fn (bit w 39) (bit w 38) oh d a b (bit w 62) (fld w 60 2) (fld w 48 12))
  | 0x62 => .ok (.cas p (bit w 63) oh d a b c (fld w 48 15))
  | 0x63 => .ok (.casts p (bit w 63) oh d a b c (bit w 62) (fld w 60 2) (fld w 48 12))
  | 0x70 => do
      zC w; zImm w
      let fn ← code voteFns sub
      let ka ← kfld w 16
      .ok (.vote p fn d ka b)
  | 0x71 => do zero w 53 11; let fn ← code shflFns sub; .ok (.shfl p fn d a b c (fld w 48 5))
  | 0x72 => do
      zC w; zImm w
      let op ← code scanOps (fld w 44 3).toNat
      .ok (.scan p (bit w 47) op d a b)
  | 0x73 => do
      zC w; zImm w; zero w 47 1
      let op ← code scanOps (fld w 44 3).toNat
      .ok (.lred p op d a b)
  | 0x80 => do zB w; zC w; zSub w; .ok (.spawn p d a imm)
  | 0x81 => do zD w; zA w; zB w; zC w; zSub w; zImm w; .ok (.quit p)
  | 0x82 => do zD w; zA w; zB w; zC w; zSub w; zero w 40 4; zero w 55 9; .ok (.role (fld w 48 7))
  | 0x83 => do zD w; zC w; zero w 45 3; zImm w; .ok (.tissue p (bit w 44) a b)
  | 0x84 => do zD w; zA w; zB w; zC w; zSub w; zImm w; zero w 40 4; .ok .lbar
  | _ => .error .reservedOpcode

/-! ## Bundles -/

/-- The header of a bundle (R56). -/
structure Header where
  selv : Bool
  pc : Bool
  pm : Bool
  pv : Bool
  pk : Bool
  ps : Bool
  deriving DecidableEq, Repr

/-- R57, R63: reserved bits are zero and not all five slots are present. -/
def headerOf (w : BitVec 16) : Dec Header :=
  if fld w 0 10 ≠ 0 ∨ fld w 10 5 = 0x1F then .error .badHeader
  else .ok ⟨bit w 15, bit w 14, bit w 13, bit w 12, bit w 11, bit w 10⟩

/-- R57: the length of a bundle in bytes. -/
def Header.length (h : Header) : Nat :=
  2 + 4 * bitOf h.pc + 8 * bitOf h.pm + 8 * bitOf h.pv + 12 * bitOf h.pk + 8 * bitOf h.ps

/-- The words of a bundle's slots, as fetched (R56). -/
structure RawBundle where
  hdr : Header
  c : Option (BitVec 32)
  m : Option (BitVec 64)
  v : Option (BitVec 64)
  k : Option (BitVec 96)
  s : Option (BitVec 64)
  deriving DecidableEq, Repr

/-- R4: the number that little-endian bytes stand for. -/
def leNat : List Byte → Nat
  | [] => 0
  | b :: bs => b.toNat + 256 * leNat bs

/-- R4: the first n little-endian bytes of a number. -/
def leBytes : Nat → Nat → List Byte
  | 0, _ => []
  | n + 1, v => BitVec.ofNat 8 v :: leBytes n (v / 256)

def takeWord (present : Bool) (len : Nat) (bs : List Byte) : Option (BitVec (8 * len)) × List Byte :=
  if present then (some (BitVec.ofNat _ (leNat (bs.take len))), bs.drop len) else (none, bs)

/-- The slots that a header declares, cut out of the bytes that follow it (R56). -/
def cutBundle (h : Header) (bs : List Byte) : RawBundle :=
  let (c, bs) := takeWord h.pc 4 bs
  let (m, bs) := takeWord h.pm 8 bs
  let (v, bs) := takeWord h.pv 8 bs
  let (k, bs) := takeWord h.pk 12 bs
  let (s, _) := takeWord h.ps 8 bs
  ⟨h, c, m, v, k, s⟩

/-- A parsed instruction with the legality checks of decode applied. -/
def checked (r : Dec Instr) : Dec Instr :=
  match r with
  | .ok i => if i.wf then .ok i else .error .illegalFields
  | .error e => .error e

/-- Decoding of any code word. -/
def decode : CodeWord → Dec Instr
  | .header w =>
    match headerOf w with
    | .error e => .error e
    | .ok h => if h.pc || h.pm || h.pv || h.pk || h.ps then .error .needsSlots
               else .ok (.nullBundle h.selv)
  | .c w => checked (parseC w)
  | .m w => checked (parseM w)
  | .v w => checked (parseV w)
  | .k w => checked (parseK w)
  | .s w => checked (parseS w)
  | .lane w => checked (parseLane w)

/-- The code word that a row of the opcode table stands for: a header of 16 bits, a C slot of 32,
a V, M or S slot of 64 by its opcode, a K slot of 96. -/
def tableWord (nbits w : Nat) : Option CodeWord :=
  if nbits ≤ 16 then some (.header (BitVec.ofNat 16 w))
  else if nbits ≤ 32 then some (.c (BitVec.ofNat 32 w))
  else if nbits ≤ 64 then
    match opcClass (w % 128) with
    | .v => some (.v (BitVec.ofNat 64 w))
    | .m => some (.m (BitVec.ofNat 64 w))
    | .s => some (.s (BitVec.ofNat 64 w))
    | _ => none
  else some (.k (BitVec.ofNat 96 w))

/-- The instruction that the decoder reads from a row's word. -/
def decodeTableWord (nbits w : Nat) : Option Instr :=
  match tableWord nbits w with
  | none => none
  | some cw =>
    match decode cw with
    | .ok i => some i
    | .error _ => none

/-! ## The encoder -/

def gbits (g : Guard) (opc : Nat) : BitVec 11 :=
  (g.qsel ++ BitVec.ofBool g.spe ++ BitVec.ofNat 7 opc : BitVec 11)

def eb (b : Bool) : BitVec 1 := BitVec.ofBool b
def ec {α : Type} [DecidableEq α] (n : Nat) (tbl : List α) (x : α) : BitVec n :=
  BitVec.ofNat n (codeOf tbl x)
def ef (f : Fmt) : BitVec 6 := BitVec.ofNat 6 (fmtCode f)
def z (n : Nat) : BitVec n := 0#n

/-- A C slot from its bits [31:11] and its guard. -/
def cW (hi : BitVec 21) (g : Guard) (opc : Nat) : Option CodeWord :=
  some (.c (hi ++ gbits g opc : BitVec 32))

def cfgwW (g : Guard) (reg : BitVec 12) (a : SReg) : Option CodeWord :=
  cW (reg ++ z 4 ++ a : BitVec 21) g 0x0D

def vW (hi : BitVec 53) (g : Guard) (opc : Nat) : Option CodeWord :=
  some (.v (hi ++ gbits g opc : BitVec 64))

def mW (hi : BitVec 53) (g : Guard) (opc : Nat) : Option CodeWord :=
  some (.m (hi ++ gbits g opc : BitVec 64))

/-- Bits [49:11] of MMA and MMAH (R232). -/
def mmaBits (o : MmaOp) : BitVec 39 :=
  (o.nm1 ++ o.mm1 ++ o.slb ++ o.sla ++ eb o.tb ++ eb o.ta ++ ef o.fmt ++ eb o.cmp ++ eb o.acc ++
    o.ad : BitVec 39)

/-- A K slot of the transfer layout; `dd` stands in DDESC's place and `ssp` in SSP's (R260). -/
def kW (x : KXfer) (dd : BitVec 16) (ssp : BitVec 2) (g : Guard) (opc : Nat) : Option CodeWord :=
  some (.k (z 16 ++ x.sdesc ++ dd ++ z 1 ++ ec 3 scopes x.stsc ++ x.se ++ ec 2 cmpls x.cmpl ++
    eb x.adv ++ x.ch ++ x.oh ++ ssp ++ ec 2 sides x.dst ++ x.sn ++ x.ss ++ x.sd ++
    gbits g opc : BitVec 96))

def keyeW (oh : Handle) (mc : Bool) (fn : BitVec 2) (sa se : SReg) (g : Guard) : Option CodeWord :=
  some (.k (z 65 ++ oh ++ z 3 ++ eb mc ++ fn ++ sa ++ se ++ gbits g 0x4D : BitVec 96))

/-- Bits [63:11] of a slot with the layout of R142. -/
def sopBits (o : SOp) : BitVec 53 := (o.d2 ++ o.d1 ++ o.d0 ++ o.sa : BitVec 53)

def sW (o : SOp) (g : Guard) (opc : Nat) : Option CodeWord :=
  some (.s (sopBits o ++ gbits g opc : BitVec 64))

/-- R150: a lane instruction from its fields, highest first. -/
def laneW (imm : BitVec 16) (sub : BitVec 4) (p : Pred) (c b a d : BitVec 8) (op : Nat) :
    Option CodeWord :=
  some (.lane (imm ++ sub ++ eb p.neg ++ p.sel ++ c ++ b ++ a ++ d ++ BitVec.ofNat 8 op : BitVec 64))

def kreg (k : PReg) : BitVec 8 := (z 5 ++ k : BitVec 8)
def modBits (h16 : Bool) (m : FMod) : BitVec 16 :=
  (z 11 ++ eb h16 ++ eb m.sat ++ ec 3 rms m.rm : BitVec 16)
def memmBits (port : BitVec 2) (mc sx : Bool) (sz : Size) : BitVec 8 :=
  (port ++ eb mc ++ z 1 ++ eb sx ++ ec 3 sizes sz : BitVec 8)
def bfBits (lenm1 pos : BitVec 5) : BitVec 16 := (z 6 ++ lenm1 ++ pos : BitVec 16)
def noPred : Pred := ⟨false, 0⟩

/-- The code word of an instruction; none for the events, which have none. -/
def encode : Instr → Option CodeWord
  | .nullBundle selv => some (.header (eb selv ++ z 15 : BitVec 16))
  | .nop g => cW (z 21) g 0x00
  | .sop g fn d a b => cW (ec 6 sopFns fn ++ b ++ a ++ d : BitVec 21) g 0x01
  | .sopi g fn d a imm => cW (ec 3 sopiFns fn ++ imm ++ a ++ d : BitVec 21) g 0x02
  | .smovi g d imm => cW (imm ++ d : BitVec 21) g 0x03
  | .scmp g cc imm qd a b => cW (b ++ a ++ ec 4 scmpCcs cc ++ eb imm ++ qd ++ z 3 : BitVec 21) g 0x04
  | .sld g sz ts sx off a d =>
      cW (ec 2 sizes sz ++ eb ts ++ eb sx ++ off ++ a ++ d : BitVec 21) g 0x05
  | .sst g sz ts off a b => cW (ec 2 sizes sz ++ eb ts ++ z 1 ++ off ++ a ++ b : BitVec 21) g 0x06
  | .br g off => cW (z 1 ++ off : BitVec 21) g 0x07
  | .brInd g a => cW (1#1 ++ z 15 ++ a : BitVec 21) g 0x07
  | .call g off => cW (z 1 ++ off : BitVec 21) g 0x08
  | .callInd g a => cW (1#1 ++ z 15 ++ a : BitVec 21) g 0x08
  | .ret g a => cW (z 16 ++ a : BitVec 21) g 0x09
  | .advr g nm1 h => cW (z 11 ++ nm1 ++ h : BitVec 21) g 0x0A
  | .advw g nm1 h => cW (z 11 ++ nm1 ++ h : BitVec 21) g 0x0B
  | .cfgr g reg d => cW (reg ++ z 4 ++ d : BitVec 21) g 0x0C
  | .cfgw g reg a => cfgwW g reg a
  | .tshapeWrite g n a => cfgwW g (2#9 ++ n : BitVec 12) a
  | .cbdescWrite g k a => cfgwW g (1#7 ++ k : BitVec 12) a
  | .srstateWrite g a => cfgwW g 0x002#12 a
  | .mfmtWrite g a => cfgwW g 0x090#12 a
  | .moncfgWrite g m j a => cfgwW g (8#7 ++ m ++ BitVec.ofNat 3 j : BitVec 12) a
  | .logpWrite g a => cfgwW g 0x131#12 a
  | .haccWrite g a => cfgwW g 0x13B#12 a
  | .waits g cc sc b a qd =>
      cW (ec 3 waitCcs cc ++ ec 3 scopes sc ++ b ++ a ++ qd ++ z 2 : BitVec 21) g 0x0E
  | .fence g sc istr eng k =>
      cW (ec 3 scopes sc ++ eb istr ++ eb eng ++ ec 2 fenceKinds k ++ z 14 : BitVec 21) g 0x0F
  | .fork g mask parent => cW (mask ++ parent ++ z 1 : BitVec 21) g 0x10
  | .join g mask target => cW (mask ++ target ++ z 1 : BitVec 21) g 0x11
  | .hpass g oh a d => cW (z 7 ++ oh ++ a ++ d : BitVec 21) g 0x12
  | .bar g sc id => cW (ec 3 scopes sc ++ id ++ z 15 : BitVec 21) g 0x13
  | .launch g dep b a d => cW (eb dep ++ z 5 ++ b ++ a ++ d : BitVec 21) g 0x14
  | .bind g topc a d => cW (topc ++ z 4 ++ a ++ d : BitVec 21) g 0x15
  | .recon g => cW (z 21) g 0x16
  | .recoff g => cW (z 21) g 0x17
  | .monsetArm g m => cW (m ++ 0#2 ++ z 17 : BitVec 21) g 0x18
  | .monsetDisarm g m => cW (m ++ 1#2 ++ z 17 : BitVec 21) g 0x18
  | .monsetCheck g m => cW (m ++ 2#2 ++ z 17 : BitVec 21) g 0x18
  | .unpick g a d => cW (z 11 ++ a ++ d : BitVec 21) g 0x19
  | .loop g body st lv rall rot =>
      cW (body ++ st ++ lv ++ eb rall ++ eb rot ++ z 7 : BitVec 21) g 0x1A
  | .iterIdx g lv d => cW (0#3 ++ lv ++ z 10 ++ d : BitVec 21) g 0x1B
  | .iterPass g d => cW (1#3 ++ z 13 ++ d : BitVec 21) g 0x1B
  | .iterExit g => cW (2#3 ++ z 18 : BitVec 21) g 0x1B
  | .sys g => cW (z 21) g 0x1C
  | .sysServiceCall g imm => cW (imm ++ z 5 : BitVec 21) g 0x1C
  | .tret g => cW (z 21) g 0x1D
  | .brk g imm => cW (imm ++ z 5 : BitVec 21) g 0x1E
  | .vop2 g fn bs sat rm f vb va vd => vW (z 11 ++ ec 3 vop2Fns fn ++ eb bs ++ eb sat ++
      ec 3 rms rm ++ ef f ++ z 7 ++ vb ++ va ++ vd : BitVec 53) g 0x20
  | .vfma g fn bs sat rm f vc vb va vd => vW (z 12 ++ ec 2 vfmaFns fn ++ eb bs ++ eb sat ++
      ec 3 rms rm ++ ef f ++ vc ++ vb ++ va ++ vd : BitVec 53) g 0x21
  | .vop1 g fn sat rm f va vd => vW (z 11 ++ ec 3 vop1Fns fn ++ z 1 ++ eb sat ++
      ec 3 rms rm ++ ef f ++ z 14 ++ va ++ vd : BitVec 53) g 0x22
  | .vcmp g qd qw cc bs f vb va vd => vW (z 6 ++ qd ++ eb qw ++ z 1 ++ ec 3 fCcs cc ++ eb bs ++
      z 4 ++ ef f ++ z 7 ++ vb ++ va ++ vd : BitVec 53) g 0x23
  | .vsel g bs f vc vb va vd => vW (z 14 ++ eb bs ++ z 4 ++ ef f ++ vc ++ vb ++ va ++ vd :
      BitVec 53) g 0x24
  | .vred g fn f va sd => vW (z 11 ++ ec 3 vredFns fn ++ z 5 ++ ef f ++ z 14 ++ va ++ z 2 ++ sd :
      BitVec 53) g 0x25
  | .vrows g sz cnt doff soff va vd => vW (ec 2 sizes sz ++ cnt ++ doff ++ soff ++ z 10 ++ va ++ vd :
      BitVec 53) g 0x26
  | .vcols g put sz col tile va vd => vW (eb put ++ z 6 ++ ec 2 sizes sz ++ col ++ tile ++ z 18 ++
      va ++ vd : BitVec 53) g 0x27
  | .vcvt g tgt part sat rm frm va vd => vW (ef tgt ++ part ++ z 7 ++ eb sat ++ ec 3 rms rm ++ ef frm ++
      z 14 ++ va ++ vd : BitVec 53) g 0x28
  | .vcvto g desc rm tgt sat part sd va vd => vW (desc ++ ec 3 rms rm ++ ef tgt ++ eb sat ++ part ++
      z 6 ++ sd ++ va ++ vd : BitVec 53) g 0x29
  | .vsca g pint rm vc vb va vd => vW (z 13 ++ eb pint ++ z 2 ++ ec 3 rms rm ++ z 6 ++ vc ++ vb ++
      va ++ vd : BitVec 53) g 0x2A
  | .vsfu g fn va vd => vW (z 11 ++ ec 3 sfuFns fn ++ z 5 ++ z 6 ++ z 14 ++ va ++ vd :
      BitVec 53) g 0x2B
  | .vint g fn bs f vb va vd => vW (z 11 ++ ec 3 vintFns fn ++ eb bs ++ z 4 ++ ef f ++ z 7 ++ vb ++
      va ++ vd : BitVec 53) g 0x2C
  | .vmovi g imm f vd => vW (imm ++ z 2 ++ ef f ++ z 6 ++ vd : BitVec 53) g 0x2D
  | .vldt g desc ix win peer am oh sa vd => vW (desc ++ ix ++ ec 2 wins win ++ peer ++ eb am ++ oh ++
      sa ++ z 6 ++ vd : BitVec 53) g 0x2E
  | .vstt g desc ix win peer am oh sa vs => vW (desc ++ ix ++ ec 2 wins win ++ peer ++ eb am ++ oh ++
      sa ++ z 6 ++ vs : BitVec 53) g 0x2F
  | .mlease g => mW (z 53) g 0x38
  | .munlease g => mW (z 53) g 0x39
  | .mclaim g cnt first => mW (z 36 ++ cnt ++ first ++ z 5 : BitVec 53) g 0x3A
  | .mrels g cnt first => mW (z 36 ++ cnt ++ first ++ z 5 : BitVec 53) g 0x3B
  | .mma g km1 o => mW (z 4 ++ km1 ++ mmaBits o : BitVec 53) g 0x3C
  | .mmah g sh gA gB km1 o => mW (sh ++ eb gB ++ eb gA ++ km1 ++ mmaBits o : BitVec 53) g 0x3D
  | .mdrain g => mW (z 53) g 0x3E
  | .mzero g ad => mW (z 50 ++ ad : BitVec 53) g 0x3F
  | .kcopy g x => kW x x.ddesc (ec 2 sides x.src) g 0x48
  | .kfill g x => kW x x.ddesc (ec 2 sides x.src) g 0x49
  | .kgang g x => kW x x.ddesc (ec 2 sides x.src) g 0x4A
  | .kmcast g x => kW x x.ddesc (ec 2 sides x.src) g 0x4B
  | .kcgrad g x tgt rm nb => kW x (ef tgt ++ ec 3 rms rm ++ nb ++ z 1 : BitVec 16)
      (ec 2 sides x.src) g 0x4C
  | .keyeInit g oh mc sa se => keyeW oh mc 0 sa se g
  | .keyeAdd g oh mc sa se => keyeW oh mc 1 sa se g
  | .keyeWait g oh sa se => keyeW oh false 2 sa se g
  | .kpull g x peer => kW x x.ddesc peer g 0x4E
  | .xpose g o => sW o g 0x60
  | .gather g o => sW o g 0x61
  | .scatter g o => sW o g 0x62
  | .softmax g o => sW o g 0x63
  | .lnorm g o => sW o g 0x64
  | .topk g o => sW o g 0x65
  | .sort g o => sW o g 0x66
  | .segsum g o => sW o g 0x67
  | .stitchDispatch g opc o hi =>
      match opcClass opc.toNat with
      | .v => vW (sopBits o) g opc.toNat
      | .m => mW (sopBits o) g opc.toNat
      | .k => some (.k (hi ++ (sopBits o ++ gbits g opc.toNat : BitVec 64) : BitVec 96))
      | _ => sW o g opc.toNat
  | .lnop p => laneW 0 0 p 0 0 0 0 0x01
  | .movi p d imm => laneW imm 0 p 0 0 0 d 0x02
  | .movhi p d a imm => laneW imm 0 p 0 0 a d 0x03
  | .mov p d a => laneW 0 0 p 0 0 a d 0x04
  | .movd p d a => laneW 0 0 p 0 0 a d 0x05
  | .sel p w k d a b => laneW 0 (eb w ++ k : BitVec 4) p 0 b a d 0x06
  | .lid p fn d => laneW 0 (ec 4 lidFns fn) p 0 0 0 d 0x07
  | .iop p fn d a b => laneW 0 (ec 4 iopFns fn) p 0 b a d 0x10
  | .iopi p fn d a imm => laneW imm (ec 4 iopFns fn) p 0 0 a d 0x11
  | .idiv p fn d a b => laneW 0 (ec 4 idivFns fn) p 0 b a d 0x12
  | .imad p fn d a b c => laneW 0 (ec 4 imadFns fn) p c b a d 0x13
  | .isat p fn d a b => laneW 0 (ec 4 isatFns fn) p 0 b a d 0x14
  | .ibit p fn d a => laneW 0 (ec 4 ibitFns fn) p 0 0 a d 0x15
  | .bfx p sx d a l q => laneW (bfBits l q) (ec 4 [false, true] sx) p 0 0 a d 0x16
  | .bfi p d a b l q => laneW (bfBits l q) 0 p 0 b a d 0x17
  | .icmp p cc kd a b => laneW 0 (ec 4 iCcs cc) p 0 b a (kreg kd) 0x18
  | .icmpi p cc kd a imm => laneW imm (ec 4 iCcs cc) p 0 0 a (kreg kd) 0x19
  | .plop p fn kd ka kb v =>
      laneW (z 15 ++ eb v : BitVec 16) (ec 4 plopFns fn) p 0 (kreg kb) (kreg ka) (kreg kd) 0x1A
  | .pmov p fn d a => laneW 0 (ec 4 pmovFns fn) p 0 0 a d 0x1B
  | .iop64 p fn d a b => laneW 0 (ec 4 iop64Fns fn) p 0 b a d 0x1C
  | .icmp64 p cc kd a b => laneW 0 (ec 4 iCcs cc) p 0 b a (kreg kd) 0x1D
  | .fop p fn m d a b => laneW (modBits false m) (ec 4 fopFns fn) p 0 b a d 0x20
  | .ffma p fn m d a b c => laneW (modBits false m) (ec 4 ffmaFns fn) p c b a d 0x21
  | .funop p fn m d a => laneW (modBits false m) (ec 4 funFns fn) p 0 0 a d 0x22
  | .fcmp p cc kd a b => laneW 0 (ec 4 fCcs cc) p 0 b a (kreg kd) 0x23
  | .hop p fn h m d a b => laneW (modBits h m) (ec 4 hopFns fn) p 0 b a d 0x24
  | .hfma p fn h m d a b c => laneW (modBits h m) (ec 4 vfmaFns fn) p c b a d 0x25
  | .dop p fn m d a b => laneW (modBits false m) (ec 4 dopFns fn) p 0 b a d 0x28
  | .dfma p fn m d a b c => laneW (modBits false m) (ec 4 ffmaFns fn) p c b a d 0x29
  | .dun p fn m d a => laneW (modBits false m) (ec 4 dunFns fn) p 0 0 a d 0x2A
  | .dcmp p cc kd a b => laneW 0 (ec 4 fCcs cc) p 0 b a (kreg kd) 0x2B
  | .cvt p dp sp m tgt frm d a => laneW (eb m.sat ++ ec 3 rms m.rm ++ ef tgt ++ ef frm : BitVec 16)
      (dp ++ sp : BitVec 4) p 0 0 a d 0x30
  | .sfu p fn d a => laneW 0 (ec 4 sfuFns fn) p 0 0 a d 0x38
  | .bra p off => laneW off 0 p 0 0 0 0 0x40
  | .brx p a => laneW 0 0 p 0 0 a 0 0x41
  | .laneCall p d off => laneW off 0 p 0 0 0 d 0x42
  | .callx p d a => laneW 0 0 p 0 0 a d 0x43
  | .laneRet p a => laneW 0 0 p 0 0 a 0 0x44
  | .lbrk imm => laneW imm 0 noPred 0 0 0 0 0x45
  | .ld p sz sx oh d a off => laneW off oh p (memmBits 0 false sx sz) 0 a d 0x50
  | .st p sz oh a b off => laneW off oh p (memmBits 0 false false sz) b a 0 0x51
  | .ldts p sz sx oh d a off => laneW off oh p (memmBits 0 false sx sz) 0 a d 0x52
  | .stts p sz oh a b off => laneW off oh p (memmBits 0 false false sz) b a 0 0x53
  | .ldtp p port sz sx oh d a off => laneW off oh p (memmBits port false sx sz) 0 a d 0x54
  | .sttp p port sz oh a b off => laneW off oh p (memmBits port false false sz) b a 0 0x55
  | .ldpeer p peer sz sx oh d a off => laneW off oh p (memmBits peer false sx sz) 0 a d 0x56
  | .stpeer p peer mc sz oh a b off => laneW off oh p (memmBits peer mc false sz) b a 0 0x57
  | .lfence p k istr sc =>
      laneW 0 0 p (z 2 ++ ec 2 fenceKinds k ++ eb istr ++ ec 3 scopes sc : BitVec 8) 0 0 0 0x58
  | .lfork p parent mask => laneW mask parent p 0 0 0 0 0x59
  | .ljoin p target mask => laneW mask target p 0 0 0 0 0x5A
  | .lwait p cc sc kd a b tmo =>
      laneW tmo (ec 4 waitCcs cc) p (z 5 ++ ec 3 scopes sc : BitVec 8) b a (kreg kd) 0x5B
  | .atom p fn nr w oh d a b off =>
      laneW off oh p (eb nr ++ eb w ++ z 2 ++ ec 4 atomFns fn : BitVec 8) b a d 0x60
  | .atomts p fn nr w oh d a b tp port off =>
      laneW (z 1 ++ eb tp ++ port ++ off : BitVec 16) oh p
        (eb nr ++ eb w ++ z 2 ++ ec 4 atomFns fn : BitVec 8) b a d 0x61
  | .cas p w oh d a b c off => laneW (eb w ++ off : BitVec 16) oh p c b a d 0x62
  | .casts p w oh d a b c tp port off =>
      laneW (eb w ++ eb tp ++ port ++ off : BitVec 16) oh p c b a d 0x63
  | .vote p fn d ka b => laneW 0 (ec 4 voteFns fn) p 0 b (kreg ka) d 0x70
  | .shfl p fn d a b c delta => laneW (z 11 ++ delta : BitVec 16) (ec 4 shflFns fn) p c b a d 0x71
  | .scan p excl op d a b => laneW 0 (eb excl ++ ec 3 scanOps op : BitVec 4) p 0 b a d 0x72
  | .lred p op d a b => laneW 0 (z 1 ++ ec 3 scanOps op : BitVec 4) p 0 b a d 0x73
  | .spawn p d a off => laneW off 0 p 0 0 a d 0x80
  | .quit p => laneW 0 0 p 0 0 0 0 0x81
  | .role topc => laneW (z 9 ++ topc : BitVec 16) 0 noPred 0 0 0 0 0x82
  | .lbar => laneW 0 0 noPred 0 0 0 0 0x84
  | .tissue p k96 a b => laneW 0 (z 3 ++ eb k96 : BitVec 4) p 0 b a 0 0x83
  | _ => none

/-- The words WORD0 and WORD1 that a fault record or a log entry keeps of an instruction (R330). -/
def encWords (i : Instr) : BitVec 64 × BitVec 32 :=
  match encode i with
  | some (.header w) => (w.setWidth 64, 0)
  | some (.c w) => (w.setWidth 64, 0)
  | some (.v w) => (w, 0)
  | some (.m w) => (w, 0)
  | some (.s w) => (w, 0)
  | some (.lane w) => (w, 0)
  | some (.k w) => (w.setWidth 64, w.extractLsb' 64 32)
  | none => (0, 0)

end Sys2Proof
end

