-- ==== Sys2Proof/Machine/State.lean ====
section
/-! DEFINITION. The state of one Neleus 4 device as plain data: 256 cores with their sequencers,
gangs, engines and tiles, 64 clusters, global memory, contexts, launches, motifs, the fabric, the
memory tiers and the host's registers. Large collections are sparse maps with strictly rising keys;
memories and register files list no entry equal to what an unlisted key reads as. -/
namespace Sys2Proof.Machine

/-- A sparse map by key. -/
abbrev Map (α : Type) := List (Nat × α)

/-! ## Traps -/

/-- The causes of R329. -/
inductive Cause where
  | illegal | regbound | unbound | unconf | cbuf | ialign | dalign | tsrange | portro | divz | priv
  | syscall | barscope | vshape | nest | syncmix | libparam | nolease | mformat | mshape | opslot
  | mhandle | drain | kparam | loopctl | loopparam | monparam | logctl | logparam | logfull | nodiff
  | pending | drift | brk | hdev | xlate | perm | wprot | memerr | logfault | fabric | haltreq
  deriving DecidableEq, Repr, Inhabited

/-- What a trap reports (R330). -/
structure Trap where
  cause : Cause
  slot : Nat := 0
  baddr : Nat := 0
  faddr : Nat := 0
  fpc : Nat := 0
  w0 : W64 := 0
  w1 : W32 := 0
  info : Nat := 0
  fatal : Bool := false
  async : Bool := false
  depth : Nat := 0
  gang : Nat := 0
  lane : Nat := 0
  acc : Nat := 0
  tkind : Nat := 0
  tnum : Nat := 0
  status : Nat := 0     -- FERR.STATUS of a FABRIC trap (R381)
  tdev : Nat := 0       -- FERR.TDEV
  whole : Nat := 0      -- FERRA.ADDR
  report : Bool := false   -- reports a failed store of the agent (R381)
  deriving DecidableEq, Repr, Inhabited

/-- A fault record (R330): the first trap of a halt, and what was stamped with it. -/
structure FaultRec where
  trap : Trap
  multi : Bool
  time : Nat
  mpos : W64
  deriving DecidableEq, Repr, Inhabited

/-! ## Agents and accesses -/

/-- The agents of a core (R247): its sequencer, and each fibre, by gang and lane slot. A fibre that has ended
while accesses of it are still to land takes a number above 31 when its lane slot gets a new fibre, so that
the two stay two agents (R200, R201). -/
inductive Agent where
  | seq
  | fibre (gang lane : Nat)
  deriving DecidableEq, Repr, Inhabited

/-- Where an access goes (R208). -/
inductive Space where
  | gm            -- global memory, by virtual address
  | ts            -- own tile store
  | peer (core : Nat)
  | mcast
  deriving DecidableEq, Repr, Inhabited

/-- A translation held by a core (R216). -/
structure Trans where
  ctx : Nat
  vbase : Nat
  size : Nat
  pbase : Nat
  loc : Nat
  tdev : Nat
  r : Bool
  w : Bool
  xb : Bool
  xl : Bool
  deriving DecidableEq, Repr, Inhabited

/-- Whom an outstanding request serves. -/
inductive ReqFor where
  | store (core id : Nat)
  | piece (core cmd piece : Nat)
  | fetch (core cmd piece : Nat)
  | load (core : Nat) (ag : Option Agent) (addr len : Nat)
  | notice (core motif : Nat) (token : W64) (order : Nat)
  | dist (launch part : Nat)     -- the distributor's, for a record or arguments on another device
  | gone (ctx id : Nat)          -- nobody any more: its motif has been killed
  deriving DecidableEq, Repr, Inhabited

/-- A store held in the write buffers (R250). `deps` are the accesses that must land first; `also` are the
agents whose stores of the same instruction to the same bytes it combines (R249); `hs` are the handles, by agent,
under which FORK or JOIN counts it too (R88, R191, R251); `veil` is the widest scope at which its agent has fenced
it while it was still to land (R252). -/
structure BufStore where
  id : Nat
  agent : Agent
  handle : Nat
  space : Space
  addr : Nat
  data : List Byte
  tr : Trans           -- the translation it was checked with, for global memory
  deps : List Nat
  sent : Bool          -- a remote store whose request is on the fabric (R376)
  also : List Agent := []
  hs : List (Agent × Nat) := []
  veil : Option Nat := none
  deriving DecidableEq, Repr, Inhabited

/-- What a granule of tile store held before a V-slot store, which an agent of a core issued under these handles:
a copy, or a fibre, that nothing orders after the store may still read it (R117, R220, R323). `seen` are the agents,
by core, that have read what the store wrote. -/
structure OldGran where
  core : Nat
  agent : Agent
  handles : List Nat
  off : Nat
  old : List Byte
  seen : List (Nat × Agent) := []
  deriving DecidableEq, Repr, Inhabited

/-- A failed store or notice, reported at its agent's next synchronising point (R381). -/
structure Failure where
  agent : Agent
  order : Nat
  addr : Nat
  status : Nat
  tdev : Nat
  poison : Bool
  deriving DecidableEq, Repr, Inhabited

/-- Bytes that a load of an agent under a handle has read ahead of its earlier accesses under other handles
(R251, last row). -/
structure Ahead where
  agent : Agent
  handle : Nat
  space : Space
  addr : Nat
  data : List Byte
  deriving DecidableEq, Repr, Inhabited

/-- The accesses that every later access of an agent under a handle must follow (R290). -/
structure HDep where
  agent : Agent
  handle : Nat
  ids : List Nat
  deriving DecidableEq, Repr, Inhabited

/-! ## Engine commands -/

/-- An outstanding transfer of the copy engine (R259 to R268). Progress is the set of pieces that
have landed, and for KCGRAD its formed packet (R280). -/
structure KCmd where
  id : Nat
  agent : Agent
  i : Instr
  scal : List W64          -- s(SD), s(SS), s(SN), s(SN+1), s(SE), s(SE+1) as read at issue
  baddr : Nat
  src : Nat                -- start of the source, resolved at issue
  dst : Nat
  sring : Option (Nat × Nat)   -- ring and slot of a ring side
  dring : Option (Nat × Nat)
  landed : List Nat
  packet : List Byte       -- KCGRAD's formed packet; empty until formed
  draws : W64              -- the generator before KCGRAD's draws (R279)
  finished : Bool          -- pieces and stamp have landed; the ring advance is due (R267)
  deps : List Nat
  quiet : Bool             -- a recomputation of R305: no advance, arrival or stamp
  hs : List Nat := []      -- handles under which FORK or JOIN counts it too (R88, R191)
  parent : Option (Nat × List Nat)    -- gang and lanes of the TISSUE batch that waits for it
  deriving DecidableEq, Repr

/-- An MMA or MMAH on its way through the cluster array (R237 to R240). -/
structure MCmd where
  id : Nat
  agent : Agent
  i : Instr
  h : W64                  -- s(SH) of an MMAH
  baddr : Nat
  fa : Fmt
  fb : Fmt
  landed : List Nat        -- pieces of the handle fetch that have landed
  recs : List W64          -- the words of the handle records; empty until read
  fetched : Bool           -- the fetch is complete, or there is none
  accepted : Bool          -- the array has accepted the command
  reissue : Bool           -- issued again after a fault: it requests the lease (R240)
  leaseBefore : Nat        -- the lease state to return to after a reissue
  deps : List Nat
  fmtrec : W64             -- MFMT as it stood (R302)
  logAt : Option (Nat × W64)   -- the log entry whose payload it fills, and its CTL word
  parent : Option (Nat × List Nat)
  ran : Nat                -- array cycles that it has taken (R243, R245)
  hs : List Nat := []      -- handles under which FORK or JOIN counts its fetch too
  deriving DecidableEq, Repr

/-- An entry of the pricking table (R140). -/
structure Prick where
  kind : Nat
  inpl : Bool
  fibm1 : Nat
  regm1 : Nat
  gpri : Nat
  use : Nat
  outp : Nat
  eng : Nat
  entry : Nat
  adj : W64
  deriving DecidableEq, Repr, Inhabited

/-- A tile port of a routine (R142). -/
structure Port where
  base : Nat
  size : Nat
  out : Bool
  deriving DecidableEq, Repr, Inhabited

/-- The command that a gang carries out (R142, R143, R339). -/
structure SCmd where
  opc : Nat
  w0 : W64
  w1 : W32
  sa : W64
  baddr : Nat
  entry : Prick
  outs : List Nat          -- rings marked as being written
  ins : List Nat           -- rings marked as being read
  ports : List Port
  slots : List (Option (Nat × Nat))   -- ring and slot of each port
  lib : Option Instr       -- the library operation, for a library opcode
  parent : Option (Nat × List Nat)
  unpick : Bool            -- dispatched by UNPICK as an adjoint routine (R315)
  g45 : W64                -- the value for g4:g5 (R142, R315)
  logAt : Option (Nat × W64)
  quiet : Bool := false    -- a recomputation of R305
  deriving DecidableEq, Repr, Inhabited

/-- The states of R137. A stalled fibre is WAITING for what its instruction needs before it can issue
(a scoreboard bit, a ring, a gang slot); it tries again in the next lane cycle. -/
inductive FibreSt where
  | ready | waiting | stalled | ended
  deriving DecidableEq, Repr, Inhabited

/-- Where a fibre has arrived (R202). -/
inductive Arrival where
  | no | role (topc : Nat) | lbar
  deriving DecidableEq, Repr, Inhabited

/-- A fibre (R137). `seeds` names the undefined registers it holds (R153). -/
structure Fibre where
  pc : Nat
  k : BitVec 8
  st : FibreSt
  arrived : Arrival
  stamp : Nat
  seeds : List (Nat × Nat)
  deriving DecidableEq, Repr, Inhabited

/-- A batch that waits for memory (R204): the lane instruction, its lanes with what each asks for,
and the lanes whose value has returned. -/
structure LaneOp where
  i : Instr
  pc : Nat
  lanes : List Nat
  addrs : List (Nat × Space × Nat)   -- lane, space, address
  deps : List Nat
  got : List (Nat × W64)
  bad : List (Nat × Trap)            -- lanes whose access has failed (R160)
  since : Nat
  deriving DecidableEq, Repr

/-- A TISSUE batch that waits for what its command needs: its lowest active lane, its lanes, the command word,
the TISSUE word, and whether only a FREE gang slot is missing (R144, R203). -/
structure NestWait where
  lane : Nat
  lanes : List Nat
  lo : W64
  hi : W32
  word : W64
  forGang : Bool
  deriving DecidableEq, Repr, Inhabited

inductive GangSt where
  | free | running | draining | halted
  deriving DecidableEq, Repr, Inhabited

/-- A gang slot (R136, R137, R154). -/
structure Gang where
  st : GangSt
  depth : Nat
  gpri : Nat
  bound : Nat
  res : Nat
  base : Nat
  fibres : Map Fibre
  regs : Map W32           -- key lane × 256 + register
  pend : List Nat          -- registers of those keys marked pending (R157)
  cycle : Nat              -- lane cycles (R139)
  cmd : Option SCmd
  ops : List LaneOp
  nested : List NestWait   -- TISSUE batches whose command is not issued yet
  skid : Nat
  stopped : Bool           -- trapped in the skid, or the trapping gang
  restart : Bool           -- dispatched again at resume (R145)
  stepOver : List Nat      -- the lanes whose LBRK acts once as LNOP (R335)
  deriving DecidableEq, Repr, Inhabited

/-- UNPICK at work (R308, R315, R317): the entry in hand, how many of its ports have been recomputed,
whether a recomputation or an adjoint routine runs, the lease to return to, the gradient map as it
was read, and the instruction's word. -/
structure Upk where
  entry : Nat
  stage : Nat
  busy : Bool
  lease : Option Nat
  map : List W64
  w0 : W64
  reread : Bool            -- the map is to be read again (R306)
  deriving DecidableEq, Repr, Inhabited

/-! ## A core -/

inductive MotifSt where
  | queued | running | halting | faulted | preempting | swapped | done | killed
  deriving DecidableEq, Repr, Inhabited

/-- The state of one core. Everything here but the tile tags, caches and freezes is the motif's. -/
structure Core where
  -- the motif it holds
  motif : Option Nat
  ctx : Nat
  share : Nat              -- S, the tile-store share in bytes (R209)
  scratch : Nat            -- T, the stitch scratch in bytes (R211)
  gangs : Nat              -- gang extent of the launch
  fcap : Nat               -- fibre cap
  ended : Bool             -- SYS 0 has issued
  -- sequencer
  bpc : Nat
  bpcRef : Option Nat := none   -- the BPC word that re-entry is still to compare with (R348, R359)
  s : Map W64              -- s0 to s31
  cfg : Map W64            -- configuration registers by number, as their fields are held
  exitPending : Bool       -- ITER.EXIT (R288)
  stepOver : Bool          -- the BRK at BPC acts once as NOP (R335)
  waitsFrom : Option Nat   -- first cycle of the WAITS count (R86)
  waitsDue : Bool          -- the WAITS timeout has elapsed
  waitsOn : Option (Nat × WaitCc × W64)   -- the word that it watches, its condition and operand
  waitsHeld : Bool         -- its condition has held at a read (R86)
  arrived : Option (Nat × Nat × Nat × W64)   -- barrier scope, ID, bundle and word at which it waits
  prick : Map Prick        -- pricking table; reset entries where unlisted
  -- tiles
  tiles : Map Byte         -- key tile × 65536 + offset
  guard : Map Byte         -- key tile × 16384 + element
  tileCmd : List (Nat × Nat)     -- busy tiles and the command that holds them
  mzeroAt : List (Nat × Nat)     -- tiles busy with MZERO, with the cycle they began
  mzeroFor : List (Nat × Nat × List Nat)  -- such a tile, with the gang and lanes of the TISSUE batch that waits
  refill : List Nat        -- tiles to be refilled from the frame at first touch (R343)
  saved : List Nat         -- tiles saved, and not written or configured since
  tags : List (Nat × Nat)  -- tiles that still hold the bytes of a motif off this core (R343)
  ts : Map Byte            -- tile store
  tsPoison : List Nat      -- poisoned granules
  vold : List OldGran      -- what unfenced V-slot stores have overwritten (R117)
  eyes : List Nat          -- the aligned 4-byte words of the share that a store or KEYE has written whole (R273)
  -- gangs
  gang : Map Gang
  -- engines
  nextId : Nat
  buf : List BufStore
  hdeps : List HDep
  ahead : List Ahead
  issued : Map Nat         -- accesses issued under each handle (R89)
  kcmds : List KCmd
  mcmds : List MCmd
  failures : List Failure
  notices : List (W64 × Nat × Nat × List Nat)   -- handle notices: token, device, place in order, accesses awaited
  reply : List (ReqFor × Nat × List Byte)     -- fabric replies in hand: whom they serve, status, data
  lastLen : Nat            -- the log writer's held LEN (R303)
  producers : List (Nat × Nat × Nat)      -- ring, slot, entry address (R305)
  upk : Option Upk         -- an UNPICK at work
  first : List Nat         -- transfers to complete before the sequencer continues (R268)
  -- caches
  trans : List Trans
  bcache : Map (List Byte)
  lcache : Map (List Byte)
  -- the halt in progress (R332)
  halt : Option FaultRec
  skid : Nat
  seqStopped : Bool
  debug : Bool
  selvedge : Bool          -- stopped at a selvedge point for a pre-emption
  -- power and protection
  frozen : Bool
  frozenCh : List Nat
  credit : Int
  cycles : Nat
  weight : Nat             -- weights that arose in the current cycle (R245)
  vcyc : Nat               -- cycles of V-slot intervals that are still to pass (R125, R245)
  sfuLast : Nat            -- the gang that the special-function unit served last (R139)
  lsuLast : Nat            -- and the load/store unit
  plimNext : Option W64    -- PLIM due at the next window (R430)
  refilled : Bool          -- the window that begins in this cycle has refilled the credit
  deriving DecidableEq, Repr, Inhabited

/-! ## A cluster -/

/-- The lease states of R223. -/
inductive Lease where
  | idle | waiting | holding
  deriving DecidableEq, Repr, Inhabited

/-- Claimed operand slots of a motif: which, and their bytes (R227, R228). -/
structure OpSlots where
  motif : Nat
  claimed : List Nat
  bytes : Map Byte         -- key logical slot × 16384 + offset
  poison : List Nat        -- poisoned granules of that key
  deriving DecidableEq, Repr, Inhabited

structure Cluster where
  lease : List Lease       -- one per core of the cluster
  giveUp : List (Option Nat)   -- MUNLEASE seen: the last command that is to be accepted first
  age : List Nat
  lastHolder : Nat
  tcmd : Nat
  termAt : Nat             -- device cycle at which the term began
  queue : List (Nat × Nat) -- accepted commands: core, id
  slots : List OpSlots     -- of motifs in the cluster, parked ones among them
  deriving DecidableEq, Repr, Inhabited

/-! ## Contexts, launches, motifs -/

structure Context where
  num : Nat
  fn : Nat
  sigreq : Bool
  fstr : Bool
  root : Nat
  frames : Nat
  fring : Nat
  fringN : Nat
  objtab : Nat
  table : Map Prick
  framesUsed : List Nat
  prod : Nat
  held : List W64          -- fault entries waiting for room (R336)
  objects : List (List Byte × Nat × Nat)   -- digests, SECVER, KEYSLOT of loaded objects (R425)
  grants : Option (List (Nat × Nat))       -- physical ranges granted to it; none where the driver sets no bound (R352)
  dying : Bool := false    -- a CTX_DESTROY waits for its accesses (R434)
  deriving DecidableEq, Repr, Inhabited

structure Motif where
  id : Nat
  launch : Nat
  index : Nat
  lidx : List Nat
  st : MotifSt
  core : Option Nat
  frame : Option Nat
  saved : Option Core      -- the device-owned state of a motif off its core (R337, R338)
  fault : Option FaultRec
  pendingTrap : Bool       -- R348
  placedAt : Nat
  lease : Lease            -- saved lease state (R223)
  giveUp : Option Nat      -- a MUNLEASE still to take effect, saved with it (R235)
  preemptAt : Nat          -- device cycle of the pre-emption request (R346)
  ranOn : List Nat         -- cores it has run on, the latest first (R326)
  deriving DecidableEq, Repr, Inhabited

inductive LaunchSt where
  | waiting | eligible | running | done | failed (code : Nat)
  deriving DecidableEq, Repr, Inhabited

structure Launch where
  id : Nat
  token : W64
  queue : Nat
  slot : Nat               -- ring index, for a host queue
  addr : Nat               -- address of the record
  virt : Bool              -- the address is virtual in the launcher's context (LAUNCH)
  vctx : Nat               -- the launcher's context
  ctx : Nat
  fn : Nat
  recd : List W64          -- the sixteen words of the record
  deps : List W64
  bad : Bool               -- a dependence names no launch (R131)
  args : List W64
  st : LaunchSt
  eligAt : Nat
  boost : Nat              -- classes gained by aging (R132)
  total : Nat
  placed : Nat
  ended : Nat
  ranOn : List Nat
  home : Option Nat        -- the owning device, for another device's work (R450)
  replayOf : W64           -- the captured launch that it replays (R439)
  reserved : List Nat      -- cores reserved for a cross-device group
  devices : List Nat       -- devices that have reserved
  far : List Nat           -- system-scope barriers at which the motifs on other devices have arrived (R91)
  deriving DecidableEq, Repr, Inhabited

/-- A record of the device launch queue (R92): its address in the launcher's context, its token, the token that
it waits for, whether the launcher is privileged, and the launcher's accesses that are still to land. -/
structure DevRec where
  addr : Nat
  ctx : Nat
  token : W64
  dep : W64
  priv : Bool
  motif : Nat
  ids : List Nat
  deriving DecidableEq, Repr, Inhabited

structure HostQueue where
  q : Nat
  fn : Nat
  base : Nat
  n : Nat                  -- size code
  head : Nat
  tail : Nat
  seq : Nat
  alive : Bool
  deriving DecidableEq, Repr, Inhabited

/-! ## Fabric -/

structure FabReq where
  id : Nat
  who : ReqFor
  op : Nat                 -- 0 read, 1 write, 2 atomic, 3 CAS, 4 notice
  dev : Nat
  addr : Nat
  va : Nat
  len : Nat
  data : List Byte
  fn : Nat                 -- operation of an atomic group (R376)
  handle : Nat
  score : Nat
  tag : Nat                -- the response buffer (R373)
  port : Option Nat        -- the port it left through; none while R366 holds it
  sentAt : Nat
  deriving DecidableEq, Repr, Inhabited

/-- A request of another device, delivered and not yet performed. -/
structure InReq where
  sdev : Nat
  score : Nat
  handle : Nat
  tag : Nat
  op : Nat
  addr : Nat
  len : Nat
  data : List Byte
  fn : Nat
  forwarded : Bool
  via : Option (Nat × Nat)   -- the port and the virtual channel that it came on (R369)
  flits : List Nat := []     -- the flits of that port which hold it
  more : Bool := false       -- packets of a CAS group are still to come (R376)
  deriving DecidableEq, Repr, Inhabited

/-- A packet (R373): its header's fields, its payload, whether it is a forwarded request, and the port and virtual
channel that it came on, if it only passes. -/
structure Packet where
  op : Nat
  hop : Nat
  sdev : Nat
  tdev : Nat
  score : Nat
  handle : Nat
  tag : Nat
  addr : Nat
  len : Nat                -- bytes: the field LEN plus 1
  data : List Byte
  fwd : Bool
  via : Option (Nat × Nat)
  flits : List Nat := []   -- the flits of that port which hold it (R369)
  deriving DecidableEq, Repr, Inhabited

/-- A packet that has left by a port: until it is answered, or until the link has acknowledged a response, its flow
keeps its path (R366). -/
structure Passing where
  port : Nat
  dev : Nat                -- its destination
  flow : Nat
  seq : Nat                -- the flit that carried it
  asker : Nat × Nat × Nat × Nat × Nat   -- requesting device, core, handle, response buffer and address
  resp : Bool
  since : Nat
  deriving DecidableEq, Repr, Inhabited

/-- A stream context of a port (R374). -/
structure Stream where
  idx : Nat
  header : W64 × W64
  deriving DecidableEq, Repr, Inhabited

structure FPort where
  up : Bool
  lanes : Nat
  rxSeq : Nat              -- the SEQ expected next
  txSeq : Nat
  acked : Nat
  stop : Nat               -- STOP bits received
  stopTx : Nat             -- STOP bits that it sends (R369)
  replay : List (Nat × List Byte)
  askedSeq : Nat
  asks : List Nat          -- times of the replay requests for that SEQ
  streams : List Stream
  txStreams : List Stream  -- the contexts that it has opened at the other end (R374)
  rx : Map (List Byte)     -- bytes of a packet not yet whole, per VC
  rxFlits : Map (List Nat)     -- the flits that hold them
  rxNum : Nat              -- data flits accepted
  txq : List Packet        -- packets that wait for their VC
  linkErrors : Nat
  deriving DecidableEq, Repr, Inhabited

/-- An export entry (R375). -/
structure Export where
  dev : Nat
  base : Nat
  size : Nat
  r : Bool
  w : Bool
  a : Bool
  fwd : Option Nat
  deriving DecidableEq, Repr, Inhabited

/-! ## Memory tiers -/

/-- A migration in progress (R397). -/
structure Moving where
  slot : Nat
  desc : Nat               -- where its descriptor lies
  copyOp : Bool
  src : Nat
  dst : Nat
  size : Nat
  ptea : Nat
  ptev : W64
  ctx : Nat
  marks : List Nat
  pass : Nat
  todo : List Nat          -- sub-blocks still to copy in this pass
  hold : Bool
  deriving DecidableEq, Repr, Inhabited

/-- What a stack's part of the row-retirement store holds: its rows in order of retirement (R401). -/
structure RowStore where
  rows : List Nat
  sig : List Byte          -- of the rows, by the device's own key
  deriving DecidableEq, Repr, Inhabited

/-- An INVALIDATE that waits: its function and block, the requests and the stores of each core that were there before it
dropped the translations have lower numbers than these (R436). -/
structure Inval where
  fn : Nat
  block : Nat
  req : Nat
  stores : List (Nat × Nat)
  deriving DecidableEq, Repr, Inhabited

/-! ## Turns -/

/-- Where the driver places a code object, and what it has beside it (R412 to R415, R424): the virtual and physical
address of each section, the stub of each import, the page-table words that it writes, the entry of the object
table, its translator's version, and its scalar translation, placed after the last section. Then what it knows of the
scalars that the bundles of a section (by kind and offset) use: the least and the most trips of a LOOP, and where an
indirect transfer goes. -/
structure LoadPlan where
  sects : List (Nat × Nat)
  stubs : List Nat
  ptes : List (Nat × W64)
  slot : Nat
  version : Nat
  translation : List Byte
  trips : List ((Nat × Nat) × Nat × Nat)
  targets : List ((Nat × Nat) × List Nat)
  deriving DecidableEq, Repr, Inhabited

/-- Which agent of the device moves next when no turn is listed. -/
inductive Focus where
  | seq (core : Nat)
  | gang (core g : Nat)
  deriving DecidableEq, Repr, Inhabited

/-- The next move of some party (log entry 2). -/
inductive Turn where
  | focus (f : Focus)
  | event (i : Instr)
  | tick (n : Nat)
  | evict (core kind line : Nat)   -- drops a cached bundle line, lane line or translation
  | prefetch (core kind line : Nat)   -- fetches a bundle line or lane line ahead (R66, R151)
  | ahead (core : Nat) (ag : Agent) (handle : Nat) (space : Space) (addr n : Nat)
      -- a load is made ahead of its agent's earlier accesses under other handles (R251)
  | farArrive (token : W64) (id : Nat)   -- a launch's motifs on other devices have arrived at a barrier (R91)
  | grant (ctx : Nat) (ranges : Option (List (Nat × Nat)))   -- the driver sets a context's ranges (R352)
  | remoteToken (token : W64) (ok : Bool)          -- another device tells how a token completed
  | remotePart (token : W64) (inst : Nat) (ok : Option Bool)  -- and how its part of a launch stands
  | hostWrite (pa : Nat) (bs : List Byte)          -- a write from the host link to device memory
  | hostMem (a : Nat) (bs : List Byte)             -- the host writes its own memory
  | hostRead (fn off : Nat)                        -- the host reads a register of a function's window
  | exports (es : List Export)                     -- the driver writes the export tables (R375)
  | load (ctx : Nat) (object : List Byte) (plan : LoadPlan)   -- the driver loads a code object (R419)
  deriving DecidableEq, Repr

/-- A quote of the security engine (R425), signed. -/
structure Quote where
  nonce : List Byte
  devid : W64
  stages : List (List Byte)
  fuses : List Nat
  objects : Option (List (List Byte × Nat × Nat))
  signature : List Byte
  key : List Byte          -- the attestation key's public half
  cert : List Byte         -- the identity key's signature of it
  deriving DecidableEq, Repr

/-- An answer in the mailbox of the security engine (R421, R424, R425), or the status of a load and whether
a cached translation served it (R419, R424). -/
inductive Mail where
  | chain (c : List Byte)
  | quote (q : Quote)
  | signature (sig : List Byte)
  | verdict (ok : Bool)
  | load (status : Nat) (cached : Bool)
  deriving DecidableEq, Repr

structure FreezeRec where
  kind : Nat
  master : Nat
  addr : Nat
  access : Nat
  time : Nat
  mpos : W64
  deriving DecidableEq, Repr, Inhabited

/-- The device. -/
structure State where
  time : Nat               -- device cycle count (R330)
  fresh : Nat              -- counter of free values (the model's own)
  turns : List Turn
  focus : Focus
  mem : List Host.Cell     -- global memory by physical address
  poison : List Nat        -- poisoned 64-byte lines
  cores : Map Core
  clusters : Map Cluster
  contexts : List Context
  motifs : List Motif
  launches : List Launch
  queues : List HostQueue
  devQueue : List DevRec
  devSeq : Nat
  nextLaunch : Nat
  nextMotif : Nat
  gens : Map Nat           -- barrier generations completed
  -- identity and start-up
  started : Bool
  starts : Nat
  stage : Nat
  stages : List (List Byte)    -- digests of the firmware images loaded since the reset (R425)
  form : Nat
  dieMask : Nat
  stepping : Nat
  minimal : Bool
  forced : Bool
  failed : Nat
  bootwhy : W64
  mailbox : List Mail      -- answers of the security engine
  -- fabric
  dev : Nat
  gszm1 : Nat
  fabUp : Bool
  routes : Map W64
  ports : Map FPort
  exports : List Export
  requests : List FabReq
  nextReq : Nat
  distReply : List (ReqFor × Nat × List Byte)  -- replies to the distributor
  incoming : List InReq
  transit : List Packet    -- packets that pass, held while their flow changes its path (R366)
  passing : List Passing
  wire : List (Nat × List Byte)  -- flits sent: port, flit
  tokens : List W64
  resend : List (Nat × Nat × W64 × Nat × Nat × Nat)   -- core, motif, token, place in order, device, time of the RETRY
  remoteDone : List (W64 × Nat)           -- tokens of other devices known complete, with state
  -- tiers
  tiercap : W64
  heatcfg : W64
  heathbm : W64
  heatcxl : W64
  heatCount : Map Nat
  migqb : W64
  migHead : Nat
  migTail : Nat
  moving : List Moving
  ckptctl : W64
  ckptstat : W64
  ckptRun : W64            -- OP and DST of the operation that runs
  retired : List Nat       -- cores out of service (R350)
  noPlace : Bool           -- a SAVE keeps the distributor from placing (R404)
  rowret : Map RowStore    -- the row-retirement store, by stack
  cache : List (List Byte)     -- the driver's cached translations, header first (R424)
  -- power
  isl : Map W64
  islFrz : Map W64
  -- host interface
  hostMem : Map Byte       -- host memory that command blocks and the event ring use
  hcmd : List (Nat × Nat)  -- waiting commands: function, block address
  hcmdDropped : Map Nat
  invals : List Inval
  msix : List (Nat × Nat)
  capctl : W64
  capstat : W64
  replayPos : Nat
  evrb : W64
  evsz : W64
  evlost : W64
  evProd : Nat
  -- protection and trust
  freezeLog : List FreezeRec
  hostTouched : List (Nat × Nat)   -- ranges of read-duplicate pages that the host has written (R399)
  hostReplies : List (Nat × Nat × Option W64)   -- answers to the host's reads: function, offset, word or abort
  frozenFns : List Nat
  frozenPeers : List Nat
  svfuse : Map Nat
  keys : Map (List Byte)
  tests : List (Nat × Nat × Nat)          -- self-tests running: block, type, start
  deriving DecidableEq, Repr

/-- A gang slot that holds no routine. -/
def Gang.empty : Gang :=
  { st := .free, depth := 0, gpri := 0, bound := 0, res := 0, base := 0, fibres := [], regs := [],
    pend := [], cycle := 0, cmd := none, ops := [], nested := [], skid := 0, stopped := false,
    restart := false, stepOver := [] }

/-- A core that holds no motif, as after reset (log entry 4). -/
def Core.empty : Core :=
  { motif := none, ctx := 0, share := 0, scratch := 0, gangs := 1, fcap := 32, ended := false,
    bpc := 0, s := [], cfg := [], exitPending := false, stepOver := false, waitsFrom := none,
    waitsDue := false, waitsOn := none, waitsHeld := false, arrived := none, prick := [], tiles := [], guard := [], tileCmd := [],
    mzeroAt := [], mzeroFor := [], refill := [], saved := [], tags := [], ts := [], tsPoison := [], vold := [], eyes := [], gang := [],
    nextId := 1, buf := [], hdeps := [], ahead := [], issued := [], kcmds := [], mcmds := [],
    failures := [], notices := [], reply := [], lastLen := 0, producers := [], upk := none, first := [], trans := [],
    bcache := [], lcache := [], halt := none, skid := 0, seqStopped := false, debug := false,
    selvedge := false, frozen := false, frozenCh := [], credit := 0, cycles := 0, weight := 0, vcyc := 0,
    sfuLast := 3, lsuLast := 3, plimNext := none,
    refilled := false }

/-- A cluster with every lease IDLE, core 3 as if it had last held (R223, R225). -/
def Cluster.empty : Cluster :=
  { lease := [.idle, .idle, .idle, .idle], giveUp := [none, none, none, none],
    age := [0, 0, 0, 0], lastHolder := 3, tcmd := 0, termAt := 0,
    queue := [], slots := [] }

/-- A port that is down, with nothing sent or received. -/
def FPort.empty : FPort :=
  { up := false, lanes := 8, rxSeq := 0, txSeq := 0, acked := 0, stop := 0, stopTx := 0, replay := [],
    askedSeq := 0, asks := [], streams := [], txStreams := [], rx := [], rxFlits := [], rxNum := 0, txq := [],
    linkErrors := 0 }

/-- The device right after reset, before START has run (R426). The values that the spec does not
give are those of log entry 4. -/
def State.reset : State :=
  { time := 0, fresh := 0, turns := [], focus := .seq 0, mem := [], poison := [], cores := [],
    clusters := [], contexts := [], motifs := [], launches := [], queues := [], devQueue := [],
    devSeq := 0, nextLaunch := 1, nextMotif := 1, gens := [],
    started := false, starts := 0, stage := 0, stages := [], form := 0, dieMask := 0xF, stepping := 0,
    minimal := false, forced := false, failed := 0, bootwhy := 0x000000F000000000#64,
    mailbox := [], dev := 0, gszm1 := 0, fabUp := false, routes := [], ports := [], exports := [],
    requests := [], nextReq := 1, distReply := [], incoming := [], transit := [], passing := [], wire := [], tokens := [], resend := [],
    remoteDone := [], tiercap := 0, heatcfg := 0, heathbm := 0, heatcxl := 0, heatCount := [],
    migqb := 0, migHead := 0, migTail := 0, moving := [], ckptctl := 0, ckptstat := 0, ckptRun := 0, retired := [],
    noPlace := false, rowret := [], cache := [], isl := [], islFrz := [], hostMem := [],
    hcmd := [], hcmdDropped := [], invals := [], msix := [], capctl := 0, capstat := 0,
    replayPos := 0, evrb := 0, evsz := 0, evlost := 0, evProd := 0,
    freezeLog := [], hostTouched := [], hostReplies := [], frozenFns := [], frozenPeers := [], svfuse := [], keys := [], tests := [] }

/-- Why the machine stops with a fault. -/
inductive Fault where
  /-- Raised by no meaning: every fault the spec describes is taken as a trap, which is a next
  state. Safe. -/
  | unreachable
  deriving DecidableEq, Repr

/-- Why an instruction is refused. -/
inductive Refusal where
  /-- Raised only by an arm of exec for an instruction without a meaning yet. Safe. -/
  | notModelled (mnemonic : String)
  deriving DecidableEq, Repr

/-- The outcome of a step of this machine. -/
abbrev Out := Host.Outcome State Fault Refusal

end Sys2Proof.Machine
end

