-- ==== Sys2Proof/Machine/Map.lean ====
section
/-! DEFINITION. Sparse maps: reading, canonical writing, byte ranges, and bit fields of words. -/
namespace Sys2Proof.Machine

/-- What a key reads as; an unlisted key reads as `d`. -/
def mget {α : Type} (d : Nat → α) : Map α → Nat → α
  | [], k => d k
  | (j, v) :: m, k => if k = j then v else mget d m k

/-- Takes a key out. -/
def mdel {α : Type} : Map α → Nat → Map α
  | [], _ => []
  | (j, w) :: m, k => if j = k then mdel m k else (j, w) :: mdel m k

/-- Puts an entry at its place by key. -/
def mset {α : Type} : Map α → Nat → α → Map α
  | [], k, v => [(k, v)]
  | (j, w) :: m, k, v =>
    if k < j then (k, v) :: (j, w) :: m
    else if k = j then (k, v) :: m
    else (j, w) :: mset m k v

/-- A write that keeps the canonical form: an entry equal to the default is not listed. -/
def mput {α : Type} [DecidableEq α] (d : Nat → α) (m : Map α) (k : Nat) (v : α) : Map α :=
  if v = d k then mdel m k else mset m k v

/-- Keys strictly rising. -/
def sorted {α : Type} : Map α → Bool
  | [] => true
  | [_] => true
  | (j, _) :: (k, w) :: m => decide (j < k) && sorted ((k, w) :: m)

/-- The canonical form: keys strictly rising, no entry equal to its default. -/
def canon {α : Type} [DecidableEq α] (d : Nat → α) (m : Map α) : Bool :=
  sorted m && m.all (fun e => e.2 != d e.1)

/-- What a byte reads as that nothing has written (log entry 5 for global memory). -/
def noByte : Nat → Byte := fun _ => 0

/-- The form of global memory. -/
def Memory.wf (m : List Host.Cell) : Bool := canon noByte m

def byteAt (m : Map Byte) (a : Nat) : Byte := mget noByte m a

/-- n bytes from an address. -/
def bytesAt (m : Map Byte) (a : Nat) : Nat → List Byte
  | 0 => []
  | n + 1 => byteAt m a :: bytesAt m (a + 1) n

/-- Bytes written from an address upwards. -/
def putBytes (m : Map Byte) (a : Nat) : List Byte → Map Byte
  | [] => m
  | b :: bs => putBytes (mput noByte m a b) (a + 1) bs

/-- All entries of a key range taken out: the range reads as the default. -/
def mclear {α : Type} (m : Map α) (lo n : Nat) : Map α :=
  m.filter (fun e => decide (e.1 < lo ∨ lo + n ≤ e.1))

/-- The entries of a key range, with their keys from the range's start. -/
def mslice {α : Type} (m : Map α) (lo n : Nat) : Map α :=
  (m.filter (fun e => decide (lo ≤ e.1 ∧ e.1 < lo + n))).map (fun e => (e.1 - lo, e.2))

/-- A range replaced by a slice. -/
def mpaste (m : Map Byte) (lo n : Nat) (sl : Map Byte) : Map Byte :=
  sl.foldl (fun m e => mput noByte m (lo + e.1) e.2) (mclear m lo n)

/-- A little-endian number of n bytes (R4). -/
def numAt (m : Map Byte) (a n : Nat) : Nat := leNat (bytesAt m a n)

/-! ## Bit fields -/

/-- Bits [lo + len − 1 : lo] of a word, as a number. -/
def gf {n : Nat} (w : BitVec n) (lo len : Nat) : Nat := (w.toNat >>> lo) % 2 ^ len

/-- A word with those bits replaced. -/
def sf (w : W64) (lo len v : Nat) : W64 :=
  let m : W64 := BitVec.ofNat 64 ((2 ^ len - 1) <<< lo)
  (w &&& ~~~ m) ||| (BitVec.ofNat 64 ((v % 2 ^ len) <<< lo))

def w64 (n : Nat) : W64 := BitVec.ofNat 64 n
def w32 (n : Nat) : W32 := BitVec.ofNat 32 n

/-- Bits [lo + len − 1 : lo] of a number. -/
def nf (w lo len : Nat) : Nat := (w >>> lo) % 2 ^ len

/-- R82: addresses wrap modulo 2^57. -/
def va57 (n : Nat) : Nat := n % 2 ^ 57

/-- An address plus a signed offset, modulo 2^57. -/
def addVa (a : Nat) (off : Int) : Nat := (((a : Int) + off) % 2 ^ 57).toNat

/-- Whether two byte ranges share a byte. -/
def overlap (a n b m : Nat) : Bool := decide (a < b + m ∧ b < a + n ∧ 0 < n ∧ 0 < m)

/-- Replaces the element of a list at an index. -/
def lset {α : Type} (l : List α) (i : Nat) (v : α) : List α := l.set i v

/-- Looks a bit up in a mask. -/
def hasBit (m i : Nat) : Bool := m >>> i % 2 == 1

end Sys2Proof.Machine
end

