-- ==== Sys2Proof/Machine/Flags.lean ====
section
/-! DEFINITION. Core registers by number, the sticky flags of FSTAT and the draws of SRSTATE. -/
namespace Sys2Proof.Machine

/-! ## Accessors of units -/

def State.core (s : State) (c : Nat) : Core := mget (fun _ => Core.empty) s.cores c
def State.setCore (s : State) (c : Nat) (k : Core) : State := { s with cores := mset s.cores c k }
def State.modCore (s : State) (c : Nat) (f : Core → Core) : State := s.setCore c (f (s.core c))

def State.cluster (s : State) (n : Nat) : Cluster := mget (fun _ => Cluster.empty) s.clusters n
def State.setCluster (s : State) (n : Nat) (k : Cluster) : State :=
  { s with clusters := mset s.clusters n k }
def State.modCluster (s : State) (n : Nat) (f : Cluster → Cluster) : State :=
  s.setCluster n (f (s.cluster n))

/-- R12: the cluster of a core. -/
def clusterOf (c : Nat) : Nat := c / 4
def dieOf (c : Nat) : Nat := c / 64
/-- R18: the island of a core. -/
def islandOf (c : Nat) : Nat := 5 * (c / 64) + c / 4 % 16 / 4

def Core.gangAt (k : Core) (g : Nat) : Gang := mget (fun _ => Gang.empty) k.gang g
def Core.setGang (k : Core) (g : Nat) (x : Gang) : Core := { k with gang := mset k.gang g x }

def Fibre.none : Fibre :=
  { pc := 0, k := 1, st := .ended, arrived := .no, stamp := 0, seeds := [] }
def Gang.fibre (g : Gang) (l : Nat) : Fibre := mget (fun _ => Fibre.none) g.fibres l
def Gang.setFibre (g : Gang) (l : Nat) (f : Fibre) : Gang := { g with fibres := mset g.fibres l f }

def State.motif? (s : State) (id : Nat) : Option Motif := s.motifs.find? (·.id == id)
def State.setMotif (s : State) (m : Motif) : State :=
  { s with motifs := s.motifs.map (fun x => if x.id = m.id then m else x) }
def State.launch? (s : State) (id : Nat) : Option Launch := s.launches.find? (·.id == id)
def State.setLaunch (s : State) (l : Launch) : State :=
  { s with launches := s.launches.map (fun x => if x.id = l.id then l else x) }
def State.context? (s : State) (n : Nat) : Option Context := s.contexts.find? (·.num == n)
def State.setContext (s : State) (x : Context) : State :=
  { s with contexts := s.contexts.map (fun y => if y.num = x.num then x else y) }

/-- The motif that a core holds. -/
def State.motifOn (s : State) (c : Nat) : Option Motif :=
  match (s.core c).motif with
  | none => none
  | some id => s.motif? id

/-! ## Registers of a core -/

/-- Register numbers (R50, R85, R119, R134, R154, R221, R231, R281, R300, R362, R381, R388, R413,
R428). -/
abbrev rDEVID : Nat := 0x000
abbrev rFSTAT : Nat := 0x001
abbrev rSRSTATE : Nat := 0x002
abbrev rVROT : Nat := 0x008
abbrev rQPRED : Nat := 0x009
abbrev rTSHAPE : Nat := 0x010
abbrev rCBDESC : Nat := 0x020
abbrev rSVEC : Nat := 0x040
abbrev rSRET : Nat := 0x041
abbrev rSARG : Nat := 0x042
abbrev rMSTAT : Nat := 0x043
abbrev rWTMO : Nat := 0x044
abbrev rOTH : Nat := 0x050
abbrev rLIDX : Nat := 0x060
abbrev rMPOS : Nat := 0x068
abbrev rGWIN : Nat := 0x070
abbrev rDBGMEM : Nat := 0x080
abbrev rMFMT : Nat := 0x090
abbrev rMLST : Nat := 0x091
abbrev rOPCLAIM : Nat := 0x092
abbrev rPLIM : Nat := 0x093
abbrev rFRZCNT : Nat := 0x094
abbrev rLDIM : Nat := 0x0A0
abbrev rLSTAT : Nat := 0x0A6
abbrev rLPASS : Nat := 0x0A7
abbrev rLBEG : Nat := 0x0A8
abbrev rITER : Nat := 0x0B0
abbrev rITCFG : Nat := 0x0B8
abbrev rISTR : Nat := 0x0C0
abbrev rMON : Nat := 0x100
abbrev rMONSTAT : Nat := 0x120
abbrev rOHSTAT : Nat := 0x128
abbrev rLOGB : Nat := 0x130
abbrev rLOGP : Nat := 0x131
abbrev rLOGL : Nat := 0x132
abbrev rLOGCFG : Nat := 0x133
abbrev rLOGSTAT : Nat := 0x134
abbrev rGMAP : Nat := 0x135
abbrev rFABID : Nat := 0x138
abbrev rFERR : Nat := 0x139
abbrev rFERRA : Nat := 0x13A
abbrev rHACC : Nat := 0x13B
abbrev rMMCTL : Nat := 0x140
abbrev rPOOLB : Nat := 0x141
abbrev rBOOTWHY : Nat := 0x142

/-- The reset value of each register of a core (R37, R55, R119; zero elsewhere). -/
def cfgReset (n : Nat) : W64 :=
  if n = rSRSTATE then 1 else if n = rQPRED then 0xFF else if n = rOTH then 0x7F800000 else 0

def Core.cfgAt (k : Core) (n : Nat) : W64 := mget cfgReset k.cfg n
def Core.setCfg (k : Core) (n : Nat) (v : W64) : Core := { k with cfg := mput cfgReset k.cfg n v }
def Core.modCfg (k : Core) (n : Nat) (f : W64 → W64) : Core := k.setCfg n (f (k.cfgAt n))

def noW64 : Nat → W64 := fun _ => 0
/-- R49: a scalar; s0 is an ordinary register. -/
def Core.sAt (k : Core) (r : Nat) : W64 := mget noW64 k.s r
def Core.setS (k : Core) (r : Nat) (v : W64) : Core := { k with s := mput noW64 k.s r v }

/-- The bundle program counter (R49). -/
def Core.setBpc (k : Core) (a : Nat) : Core := { k with bpc := a }

/-- R55: stage predicate q(n). -/
def Core.q (k : Core) (n : Nat) : Bool := (k.cfgAt rQPRED).getLsbD n
def Core.setQ (k : Core) (n : Nat) (b : Bool) : Core :=
  k.modCfg rQPRED (fun w => sf w n 1 (bitOf b))

/-- R85: privileged mode. -/
def Core.priv (k : Core) : Bool := (k.cfgAt rMSTAT).getLsbD 0

/-! ## FSTAT and SRSTATE -/

/-- R42: flags are ORed into FSTAT. -/
def Core.orFlags (k : Core) (fl : Nat) : Core :=
  if fl = 0 then k else k.modCfg rFSTAT (fun w => w ||| w64 (fl % 64))

/-- R38: the draw of one active element: 0 and no draw unless the mode is SR. -/
def drawIf (rm : Rm) (sr : W64) : Nat × W64 :=
  if rm = .sr then (srDraw sr, srNext sr) else (0, sr)

/-- Element results in ascending order, each with its draw: the bits, the ORed flags, the
generator. -/
def mapDraw {α : Type} (rm : Rm) (f : Nat → α → FR) : List α → W64 → List Nat × Nat × W64
  | [], sr => ([], 0, sr)
  | x :: xs, sr =>
    let (u, sr1) := drawIf rm sr
    let r := f u x
    let (ys, fl, sr2) := mapDraw rm f xs sr1
    (r.bits :: ys, Nat.lor r.flags fl, sr2)

/-- SRSTATE after an instruction (R37: never zero, since the generator never reaches zero). -/
def Core.setSr (k : Core) (sr : W64) : Core := k.setCfg rSRSTATE sr

end Sys2Proof.Machine
end

