-- ==== Sys2Proof/Machine/Link.lean ====
section
/-! DEFINITION. What leaves the device: fabric packets and flits (R366 to R374), events to system
software (R440), and fresh free values (R8). -/
namespace Sys2Proof.Machine

/-! ## Fresh values -/

/-- A fresh free byte string (R8), and the counter moved past it. -/
def freeBytes (s : State) (n : Nat) : List Byte × State :=
  ((List.range n).map (fun i => Config.freeByte (s.fresh + i)), { s with fresh := s.fresh + n })

def freshSeed (s : State) : Nat × State := (s.fresh, { s with fresh := s.fresh + 1 })

/-! ## Time (R330, log entry 3) -/

/-- Device cycles of a microsecond: R17 gives the clock of 2.25 GHz. -/
abbrev usCycles : Nat := 2250

/-- So many microseconds have passed since a device cycle. -/
def elapsed (s : State) (since us : Nat) : Bool := decide (since + us * usCycles ≤ s.time)

/-! ## Events (R440) -/

/-- An event goes to the ring in host memory with MSI-X vector 1 of the physical function. A full
ring, or none, counts it in EVLOST. -/
def putEvent (s : State) (kind addr detail : Nat) : State :=
  let size := 2 ^ (gf s.evsz 0 4 + 6)
  if s.evrb = 0 ∨ size ≤ s.evProd then { s with evlost := s.evlost + 1 }
  else
    let bs := leBytes 8 kind ++ leBytes 8 (s.time % 2 ^ 64) ++ leBytes 8 addr ++ leBytes 8 detail
    { s with hostMem := putBytes s.hostMem (s.evrb.toNat + 32 * s.evProd) bs, evProd := s.evProd + 1,
             msix := s.msix ++ [(0, 1)] }

/-! ## Packets (R373) -/

/-- Operations in the order of R373. -/
abbrev pkRead : Nat := 0
abbrev pkWrite : Nat := 1
abbrev pkAtomic : Nat := 2
abbrev pkCas : Nat := 3
abbrev pkNotice : Nat := 4
abbrev pkData : Nat := 5
abbrev pkDone : Nat := 6
abbrev pkError : Nat := 7

/-- R367: the class of a packet. -/
def Packet.cls (p : Packet) : Nat := if pkData ≤ p.op then 2 else if p.fwd then 1 else 0

/-- Whether an operation carries data. -/
def carriesData (op : Nat) : Bool := op == pkWrite || op == pkAtomic || op == pkCas || op == pkNotice || op == pkData

/-- The words of a full header. -/
def headerLo (p : Packet) : Nat :=
  p.op % 16 * 2 ^ 16 + p.hop % 8 * 2 ^ 20 + p.sdev % 1024 * 2 ^ 24 + p.tdev % 1024 * 2 ^ 34 +
    p.score % 256 * 2 ^ 44 + p.handle % 16 * 2 ^ 52 + p.tag % 256 * 2 ^ 56

def headerHi (p : Packet) : Nat := p.addr % 2 ^ 52 + (p.len + 127) % 128 * 2 ^ 52

/-- A header read back. -/
def headerFields (lo hi : Nat) : Packet :=
  { op := nf lo 16 4, hop := nf lo 20 3, sdev := nf lo 24 10, tdev := nf lo 34 10, score := nf lo 44 8,
    handle := nf lo 52 4, tag := nf lo 56 8, addr := nf hi 0 52, len := nf hi 52 7 + 1, data := [],
    fwd := false, via := none }

/-- Bytes up to the next 4-byte boundary. -/
def pad4 (n : Nat) : Nat := (n + 3) / 4 * 4

/-- Bytes filled up to a 4-byte boundary. -/
def padded (bs : List Byte) : List Byte := bs ++ List.replicate (pad4 bs.length - bs.length) 0

/-- R374: how far a packet lies from the address of an open context, if a compressed header can say it. -/
def streamDelta (p : Packet) (x : Stream) : Option Int :=
  let d := (p.addr % 2 ^ 52 : Nat) - (nf x.header.2.toNat 0 52 : Int)
  if x.header.1 = w64 (headerLo p) ∧ nf x.header.2.toNat 52 7 = (p.len + 127) % 128 ∧ d % 64 = 0 ∧
      -(2 ^ 15) ≤ d / 64 ∧ d / 64 < 2 ^ 15 then some (d / 64) else none

/-- R374: the context that a new stream takes: one not used yet, else the one used longest ago (log entry 65). -/
def freeStream (ss : List Stream) : Nat :=
  ((List.range 1024).find? (fun n => !ss.any (·.idx == n))).getD ((ss.getLast?.map (·.idx)).getD 0)

/-- R373, R374: the bytes of a packet and the contexts after it: a compressed header where its stream is open, else
a full one that opens it. -/
def encodePacket (ss : List Stream) (p : Packet) : List Byte × List Stream :=
  match ss.findSome? (fun x => (streamDelta p x).map (fun d => (x, d))) with
  | some (x, d) =>
    (padded (leBytes 4 (1 + x.idx * 4 + (d % 2 ^ 16).toNat * 2 ^ 16) ++ p.data),
      { x with header := (x.header.1, w64 (headerHi p)) } :: ss.filter (fun y => y.idx != x.idx))
  | none =>
    let n := freeStream ss
    (padded (leBytes 8 (headerLo p + 4 + n * 8) ++ leBytes 8 (headerHi p) ++ p.data),
      { idx := n, header := (w64 (headerLo p), w64 (headerHi p)) } :: ss.filter (fun y => y.idx != n))

/-! ## Flits (R370, R371) -/

/-- CRC-64/XZ: reflected polynomial, initial and final value all ones. -/
def crcBit (c : W64) : W64 :=
  if c.getLsbD 0 then (c >>> 1) ^^^ 0xC96C5795D7870F42#64 else c >>> 1

def crcByte (c : W64) (b : Byte) : W64 :=
  let x := c ^^^ b.setWidth 64
  crcBit (crcBit (crcBit (crcBit (crcBit (crcBit (crcBit (crcBit x)))))))

def crc64 (bs : List Byte) : W64 := ~~~ (bs.foldl crcByte 0xFFFFFFFFFFFFFFFF#64)

/-- LINK: STOP, ACK, SEQ, VC and KIND. -/
def linkWord (stop ack seq vc kind : Nat) : Nat :=
  stop % 65536 * 2 ^ 48 + ack % 4096 * 2 ^ 36 + seq % 4096 * 2 ^ 24 + vc % 16 * 2 ^ 20 + kind % 16 * 2 ^ 16

def flitOf (stop ack seq vc kind : Nat) (payload : List Byte) : List Byte :=
  let bs := leBytes 8 (linkWord stop ack seq vc kind) ++ payload
  bs ++ leBytes 8 (crc64 bs).toNat

def State.port (s : State) (p : Nat) : FPort := mget (fun _ => FPort.empty) s.ports p
def State.setPort (s : State) (p : Nat) (x : FPort) : State := { s with ports := mset s.ports p x }

/-- A flit that takes no SEQ: idle, replay request or retrain. -/
def sendCtl (s : State) (p seq kind : Nat) : State :=
  let x := s.port p
  { s with wire := s.wire ++ [(p, flitOf x.stopTx (x.rxSeq + 4095) seq 0 kind (List.replicate 240 0))] }

/-- A data flit leaves and stays in the replay buffer until it is acknowledged. Its held bytes are VC
and payload. -/
def sendData (s : State) (p vc : Nat) (payload : List Byte) : State :=
  let x := s.port p
  let seq := x.txSeq
  let s1 := s.setPort p { x with txSeq := (seq + 1) % 4096,
                                 replay := x.replay ++ [(seq, BitVec.ofNat 8 vc :: payload)] }
  { s1 with wire := s1.wire ++ [(p, flitOf x.stopTx (x.rxSeq + 4095) seq vc 0 payload)] }

/-- A held flit is sent again with the current ACK and a new CRC (R371). -/
def resendFlit (s : State) (p : Nat) (h : Nat × List Byte) : State :=
  let x := s.port p
  { s with wire := s.wire ++
      [(p, flitOf x.stopTx (x.rxSeq + 4095) h.1 ((h.2.headD 0).toNat) 0 (h.2.drop 1))] }

/-- R367: the VC of a packet. -/
def Packet.vc (p : Packet) : Nat := 5 * p.cls + p.hop - 1

/-- R366: FLOW. -/
def Packet.flow (p : Packet) : Nat := 16 * p.score + p.handle

/-- Whose request a packet is, or answers: device, core, handle, response buffer and address. -/
def Packet.asker (p : Packet) : Nat × Nat × Nat × Nat × Nat :=
  (if p.cls = 2 then p.tdev else p.sdev, p.score, p.handle, p.tag, p.addr)

/-- Packets that wait go out, but not on a VC that the receiver has stopped (R369), and while the
replay buffer has room (R371). What fills the rest of a flit is a free value. -/
def pump (p : Nat) : List Packet → State → State
  | [], s => s
  | q :: rest, s =>
    let x := s.port p
    if hasBit x.stop q.vc || decide (512 ≤ x.replay.length) || !x.up then pump p rest s
    else
      let (bs, ss) := encodePacket x.txStreams q
      let (fill, s1) := freeBytes s (240 - bs.length)
      let y := s1.port p
      let s2 := s1.setPort p { y with txq := y.txq.erase q, txStreams := ss }
      let out : Passing := { port := p, dev := q.tdev, flow := q.flow, seq := y.txSeq, asker := q.asker,
                             resp := q.cls == 2, since := s.time }
      pump p rest (sendData { s2 with passing := s2.passing ++ [out] } p q.vc (bs ++ fill))

/-! ## Routes (R365, R366) -/

/-- An alternative that is present: its port, and the hops through it. -/
def altOf (e : W64) (a : Nat) : Option (Nat × Nat) :=
  let port := gf e (8 * a) 5
  let dist := gf e (8 * a + 5) 3
  if e.getLsbD (60 + a) && decide (1 ≤ dist ∧ dist ≤ 5 ∧ port < 24) then some (port, dist) else none

/-- R366: the ports of the eligible alternatives, in ascending order. -/
def eligible (s : State) (dev hop : Nat) : List Nat :=
  if !s.fabUp || dev == s.dev then []
  else
    ((List.range 4).filterMap (altOf (mget noW64 s.routes dev))).filterMap (fun pd =>
      if (s.port pd.1).up && decide (hop + pd.2 ≤ 5) then some pd.1 else none)

/-- R366: the output port for a flow; none is NOROUTE. -/
def routePort (s : State) (dev hop flow : Nat) : Option Nat :=
  let es := eligible s dev hop
  es[flow % es.length]?

/-- R366: a flow has packets on another path that are not yet answered, or some that wait for them. A request that
passes is answered where its answer passes here, and at the latest with the 4 ms of R380; nothing answers a response,
so that the acknowledgement of its link stands for the answer (log entry 65). -/
def flowHeld (s : State) (dev flow o : Nat) : Bool :=
  s.transit.any (fun q => q.tdev == dev && q.flow == flow) ||
  s.passing.any (fun x => x.port != o && x.dev == dev && x.flow == flow && !elapsed s x.since 4000) ||
  s.ports.any (fun e => e.1 != o && e.2.txq.any (fun q => q.tdev == dev && q.flow == flow))

/-- A packet takes its next hop (R366, R367), or is held; false where there is no route. -/
def sendPacket (s : State) (p : Packet) : State × Bool :=
  match routePort s p.tdev p.hop p.flow with
  | none => (s, false)
  | some o =>
    if flowHeld s p.tdev p.flow o then ({ s with transit := s.transit ++ [p] }, true)
    else
      let q := { p with hop := p.hop + 1 }
      let x := s.port o
      let y := { x with txq := x.txq ++ [q] }
      (pump o y.txq (s.setPort o y), true)

/-! ## Requests in flight -/

/-- Whose request it is. -/
def ReqFor.core : ReqFor → Option Nat
  | .store c _ | .piece c _ _ | .fetch c _ _ | .load c _ _ _ => some c
  | .notice _ _ _ _ | .dist _ _ | .gone _ _ => none

/-- The requests of a core serve nobody any more; they are still to be answered. -/
def dropReqs (s : State) (c : Nat) : State :=
  { s with requests := s.requests.map (fun r =>
      if r.who.core = some c then { r with who := .gone (s.core c).ctx r.id } else r) }

/-! ## Packets received (R373, R374) -/

/-- What a port makes of the bytes of a VC: packets, the bytes left over, the stream contexts and the
link errors. A word whose HOP is 0 begins no packet. -/
def parsePackets : Nat → List Byte → List Stream → List Packet × List Byte × List Stream × Nat
  | 0, bs, st => ([], bs, st, 0)
  | f + 1, bs, st =>
    let lo := leNat (bs.take 8)
    let form := lo % 4
    if bs.length < 4 then ([], bs, st, 0)
    else if form = 0 then
      if bs.length < 8 then ([], bs, st, 0)
      else
        let p := headerFields lo (leNat ((bs.drop 8).take 8))
        let n := if carriesData p.op then p.len else 0
        if p.hop = 0 then parsePackets f (bs.drop 4) st
        else if decide (pkError < p.op ∨ 5 < p.hop ∨ (n ≠ 0 ∧ 64 < n)) && decide (16 ≤ bs.length) then
          ([], [], st, 1)
        else if bs.length < pad4 (16 + n) then ([], bs, st, 0)
        else
          let hi := leNat ((bs.drop 8).take 8)
          let ctx := nf lo 3 10
          let st1 := if hasBit lo 2 then
              { idx := ctx, header := (w64 lo, w64 hi) } :: st.filter (fun x => x.idx != ctx)
            else st
          let r := parsePackets f (bs.drop (pad4 (16 + n))) st1
          ({ p with data := (bs.drop 16).take n } :: r.1, r.2)
    else if form = 1 then
      let ctx := nf lo 2 10
      match st.find? (fun x => x.idx == ctx) with
      | none => ([], [], st, 1)
      | some x =>
        let p0 := headerFields x.header.1.toNat x.header.2.toNat
        let d : Int := (BitVec.ofNat 16 (nf lo 16 16)).toInt
        let addr := (((p0.addr : Int) + d * 64) % 2 ^ 52).toNat
        let n := if carriesData p0.op then p0.len else 0
        if bs.length < pad4 (4 + n) then ([], bs, st, 0)
        else
          let y : Stream := { idx := ctx, header := (x.header.1, sf x.header.2 0 52 addr) }
          let r := parsePackets f (bs.drop (pad4 (4 + n))) (y :: st.filter (fun z => z.idx != ctx))
          ({ p0 with addr := addr, data := (bs.drop 4).take n } :: r.1, r.2)
    else ([], [], st, 1)

end Sys2Proof.Machine
end

