-- ==== Sys2Proof/Machine/Ops.lean ====
section
/-! DEFINITION. The named operations over memory, accesses and traps that every meaning shares:
taking a trap (R330 to R332), translation (R216), loads with forwarding (R250), landing of stores
with monitors (R294, R295), ordering of accesses (R251), protection (R352). -/
namespace Sys2Proof.Machine

/-! ## Functions -/

/-- R16, R353: functions are numbered 0 to 16, and a frozen one is heard no more. -/
def fnDeaf (s : State) (fn : Nat) : Bool := decide (16 < fn) || s.frozenFns.contains fn

/-! ## Causes and traps -/

/-- R329: the 8-bit code of a cause. -/
def Cause.code : Cause → Nat
  | .illegal => 0x01 | .regbound => 0x02 | .unbound => 0x03 | .unconf => 0x04 | .cbuf => 0x05
  | .ialign => 0x06 | .dalign => 0x07 | .tsrange => 0x08 | .portro => 0x09 | .divz => 0x0A
  | .priv => 0x0B | .syscall => 0x0C | .barscope => 0x0D | .vshape => 0x0E | .nest => 0x0F
  | .syncmix => 0x10 | .libparam => 0x11 | .nolease => 0x12 | .mformat => 0x13 | .mshape => 0x14
  | .opslot => 0x15 | .mhandle => 0x16 | .drain => 0x17 | .kparam => 0x18 | .loopctl => 0x19
  | .loopparam => 0x1A | .monparam => 0x1B | .logctl => 0x1C | .logparam => 0x1D | .logfull => 0x1E
  | .nodiff => 0x1F | .pending => 0x20 | .drift => 0x21 | .brk => 0x22 | .hdev => 0x23
  | .xlate => 0x30 | .perm => 0x31 | .wprot => 0x32 | .memerr => 0x38 | .logfault => 0x39
  | .fabric => 0x3A | .haltreq => 0x3F

/-- R329: causes after which the motif is never resumed. -/
def Cause.fatal : Cause → Bool
  | .logfault => true
  | _ => false

/-- R334: causes whose halt is a debug stop. -/
def Cause.debug : Cause → Bool
  | .brk | .haltreq => true
  | _ => false

/-- What stops an access: a trap, or the protection freeze of R352 with the violating address. -/
inductive Stop where
  | trap (t : Trap)
  | freeze (addr acc : Nat)
  deriving DecidableEq, Repr

/-- The gang that a trap stops: the one of a lane trap (R330: DEPTH 1 or 2). -/
def Trap.byLane (t : Trap) : Bool := t.depth != 0

/-- R381: the failure of an agent that is first in program order. -/
def firstFailure (k : Core) (ag : Agent) : Option Failure :=
  (k.failures.filter (·.agent == ag)).foldl (fun b f =>
    match b with
    | some x => if f.order < x.order then some f else b
    | none => some f) none

/-- R381: a failure that a synchronising point has reported is forgotten. -/
def dropFailure (k : Core) (ag : Agent) : Core :=
  match firstFailure k ag with
  | none => k
  | some f => { k with failures := k.failures.erase f }

/-- The agent that a trap stops. -/
def Trap.agent (t : Trap) : Agent := if t.byLane then .fibre t.gang t.lane else .seq

/-- The trap stops its own agent (R332); a fault of an engine command stops none by itself. -/
def stopAgent (k : Core) (t : Trap) : Core :=
  if t.byLane then
    k.setGang t.gang { k.gangAt t.gang with stopped := true }
  else if t.async then k
  else { k with seqStopped := true }

/-- R331, R432: a trap of the same cycle, whose agent has issued nothing since, takes the place of the
one that a halt has recorded: any trap before a halt request, the sequencer's before a lane's, a lower
gang's before a higher one's. -/
def goesFirst (s : State) (k : Core) (r : FaultRec) (t : Trap) : Bool :=
  r.time == s.time && ((r.trap.cause == .haltreq && t.cause != .haltreq) ||
    (r.trap.byLane && !t.async && (if t.byLane then decide (t.gang < r.trap.gang) && (k.gangAt t.gang).skid == 0
      else k.skid == 0)))

/-- TAKING A TRAP, the one operation for every cause (R330 to R332, R348): the first trap of a halt
is recorded with the time and MPOS and moves the motif to HALTING; a later one during the skid sets
MULTI; each stops its own agent. While the motif is PREEMPTING every agent stops where it stands,
and the record stays pending (R348). A halt that arrives together with a trap is recorded as the
trap, with MULTI set (R432). A FABRIC trap, and one for poison at another
device (status 16 here, recorded as 0), also writes FERR and FERRA (R380, R381). -/
def raiseTrap (s : State) (c : Nat) (t0 : Trap) : State :=
  let t := { t0 with fatal := t0.fatal || t0.cause.fatal }
  let k0 := s.core c
  let k1 := stopAgent (if t.report then dropFailure k0 t.agent else k0) t
  let k2 := if t.cause = .fabric ∨ (t.cause = .memerr ∧ t.status = 16) then
      (k1.setCfg rFERR (sf (sf 0 60 4 t.status) 50 10 t.tdev)).setCfg rFERRA (w64 (va57 t.whole))
    else k1
  match k2.halt with
  | some r =>
    if goesFirst s k0 r t then
      s.setCore c { k2 with halt := some { r with trap := t, multi := true }, debug := t.cause.debug }
    else s.setCore c { k2 with halt := some { r with multi := true } }
  | none =>
    let r : FaultRec := { trap := t, multi := false, time := s.time, mpos := k0.cfgAt rMPOS }
    let k3 := { k2 with halt := some r, skid := 0, debug := t.cause.debug }
    match s.motifOn c with
    | none => s.setCore c k3
    | some m =>
      if m.st = .preempting then
        let k4 := { k3 with seqStopped := true,
                            gang := k3.gang.map (fun e => (e.1, { e.2 with stopped := true })) }
        (s.setCore c k4).setMotif { m with fault := some r, pendingTrap := true }
      else (s.setCore c k3).setMotif { m with st := .halting, fault := some r }

/-- R352, R353, R440: a violation freezes its master and writes a freeze record. -/
def freezeMaster (s : State) (kind master addr acc ctx : Nat) (mpos : W64) : State :=
  let r : FreezeRec := { kind := kind, master := master, addr := addr,
                         access := acc % 4 + ctx * 2 ^ 48, time := s.time, mpos := mpos }
  let s1 := putEvent { s with freezeLog := s.freezeLog ++ [r] } 8 s.freezeLog.length kind
  match kind with
  | 0 => (dropReqs s1 master).modCore master (fun k => { k with frozen := true, buf := [], kcmds := [] })
  | 1 => s1.modCore (master / 4) (fun k => { k with frozenCh := master % 4 :: k.frozenCh })
  | 2 => { s1 with frozenFns := master :: s1.frozenFns }
  | _ => { s1 with frozenPeers := master :: s1.frozenPeers }

/-- An access of a core's sequencer or lanes is stopped. -/
def takeStop (s : State) (c : Nat) : Stop → State
  | .trap t => raiseTrap s c t
  | .freeze addr acc => freezeMaster s 0 c addr acc (s.core c).ctx ((s.core c).cfgAt rMPOS)

/-! ## Physical memory -/

/-- R392: the bytes of HBM. -/
abbrev hbmSize : Nat := 432000000000
/-- R392: the window of CXL port p. -/
abbrev cxlBase : Nat := 0x8000000000000
abbrev cxlWin : Nat := 0x40000000000

def capOf (s : State) (p : Nat) : Nat := gf s.tiercap (32 + 13 * p) 13

/-- R20, R217: whether the stripes of a range lie on stacks in service. -/
def stripesOn (s : State) (pa len : Nat) : Bool :=
  !s.minimal ||
    (List.range (len / 2048 + 2)).all (fun i =>
      let st := pa / 2048 + i
      decide (pa + len ≤ st * 2048) || hasBit s.dieMask (st % 12 / 3))

/-- R392, R20: a range wholly in mapped HBM. -/
def inHbm (s : State) (pa len : Nat) : Bool :=
  decide (pa + len ≤ hbmSize) && stripesOn s pa len

/-- R392: a range wholly in the mapped part of a CXL window. -/
def inCxl (s : State) (pa len : Nat) : Bool :=
  [0, 1].any (fun p => decide (cxlBase + p * cxlWin ≤ pa ∧
    pa + len ≤ cxlBase + p * cxlWin + capOf s p * 2 ^ 30))

/-- R393: the CXL port of an address is down. -/
def cxlDown (s : State) (pa : Nat) : Bool :=
  decide (cxlBase ≤ pa) && !s.tiercap.getLsbD ((pa - cxlBase) / cxlWin % 2)

/-- R351: a range touches a poisoned line. -/
def gmPoisoned (s : State) (pa len : Nat) : Bool :=
  s.poison.any (fun l => overlap (l * 64) 64 pa len)

/-- R351: a write clears the poison of the lines that it covers whole. -/
def gmClean (s : State) (pa len : Nat) : State :=
  { s with poison := s.poison.filter (fun l => !(decide (pa ≤ l * 64 ∧ l * 64 + 64 ≤ pa + len))) }

/-- R397: a write that lands in a page being moved marks its sub-block again. -/
def markMoves (s : State) (pa len : Nat) : State :=
  { s with moving := s.moving.map (fun m =>
      if m.copyOp then m
      else
        let n := m.size / 4096
        let hit := (List.range n).filter (fun i => overlap (m.src + i * 4096) 4096 pa len)
        { m with marks := m.marks ++ hit.filter (fun i => !m.marks.contains i) }) }

/-- R397: writes to a page at its switch are held at the home. -/
def heldByMove (s : State) (pa len : Nat) : Bool :=
  s.moving.any (fun m => m.hold && overlap m.src m.size pa len)

/-- Bytes written to physical memory, with poison cleared and moves marked. -/
def physWrite (s : State) (pa : Nat) (bs : List Byte) : State :=
  markMoves (gmClean { s with mem := putBytes s.mem pa bs } pa bs.length) pa bs.length

def physRead (s : State) (pa n : Nat) : List Byte := bytesAt s.mem pa n

/-- The bytes of a range of physical memory replaced by a slice, with the poison of its lines. -/
def physPaste (s : State) (pa n : Nat) (sl : Map Byte) (bad : List Nat) : State :=
  let s1 := markMoves (gmClean { s with mem := mpaste s.mem pa n sl } pa n) pa n
  { s1 with poison := s1.poison ++ (bad.map (fun g => pa / 64 + g)).filter (fun l => !s1.poison.contains l) }

/-! ## Undefined bytes (R8, log entry 7) -/

/-- A slice of the bytes of a list. -/
def sliceOf (bs : List Byte) : Map Byte :=
  bs.zipIdx.filterMap (fun x => if x.1 = 0 then none else some (x.2, x.1))

/-- A range of physical memory becomes undefined. -/
def openMem (s : State) (pa n : Nat) : State :=
  let (bs, s1) := freeBytes s n
  physPaste s1 pa n (sliceOf bs) []

/-- A range of a core's tile store becomes undefined. -/
def openTs (s : State) (c lo n : Nat) : State :=
  let (bs, s1) := freeBytes s n
  s1.modCore c (fun k => { k with ts := mpaste k.ts lo n (sliceOf bs) })

/-! ## Translation (R215, R216) -/

/-- How an access uses a page. -/
inductive Acc where
  | read | write | atomic | bfetch | lfetch
  deriving DecidableEq, Repr

/-- ACC of a fault record (R330). -/
def Acc.code : Acc → Nat
  | .read => 0 | .write => 1 | .atomic => 2 | .bfetch => 3 | .lfetch => 3

/-- R216: whether a leaf allows an access. -/
def Acc.allowed (a : Acc) (t : Trans) : Bool :=
  match a with
  | .read => t.r
  | .write => t.w
  | .atomic => t.r && t.w
  | .bfetch => t.xb
  | .lfetch => t.xl

def Acc.writes : Acc → Bool
  | .write | .atomic => true
  | _ => false

/-- The levels of the walk: index bits, page size, alignment of the next table, leaf rule. -/
structure Level where
  lo : Nat
  len : Nat
  next : Nat        -- alignment and size of the next level's table
  mayLeaf : Bool
  mayTable : Bool

def levels : List Level :=
  [⟨44, 13, 131072, false, true⟩, ⟨30, 14, 4096, true, true⟩, ⟨21, 9, 256, true, true⟩,
   ⟨16, 5, 1, true, false⟩]

/-- R216: an entry that breaks a rule of its level. -/
def malformed (s : State) (lv : Level) (e : W64) : Bool :=
  let leaf := e.getLsbD 1
  let pa := gf e 8 44 * 256
  let loc := gf e 6 2
  let size := 2 ^ lv.lo
  gf e 62 2 != 0 ||
  (if leaf then
    !lv.mayLeaf || pa % size != 0 ||
    (gf e 52 10 != 0 && loc != 2) ||
    ((loc == 0 || loc == 3) && !inHbm s pa size) || (loc == 1 && !inCxl s pa size) ||
    (loc == 3 && lv.lo == 30)
   else
    !lv.mayTable || gf e 2 6 != 0 || gf e 52 10 != 0 || pa % lv.next != 0 || !inHbm s pa lv.next)

/-- R216: the walk from a table through the remaining levels. -/
def walkFrom (s : State) (ctx va : Nat) : List Level → Nat → Option Trans
  | [], _ => none
  | lv :: rest, table =>
    let e := w64 (leNat (physRead s (table + 8 * nf va lv.lo lv.len) 8))
    if !e.getLsbD 0 || malformed s lv e then none
    else if e.getLsbD 1 then
      let size := 2 ^ lv.lo
      some { ctx := ctx, vbase := va - va % size, size := size, pbase := gf e 8 44 * 256,
             loc := gf e 6 2, tdev := gf e 52 10, r := e.getLsbD 2, w := e.getLsbD 3,
             xb := e.getLsbD 4, xl := e.getLsbD 5 }
    else walkFrom s ctx va rest (gf e 8 44 * 256)

def Trans.covers (t : Trans) (ctx va : Nat) : Bool :=
  t.ctx == ctx && decide (t.vbase ≤ va ∧ va < t.vbase + t.size)

def Trans.pa (t : Trans) (va : Nat) : Nat := t.pbase + (va - t.vbase)

/-- A translation held by the core, else the walk's (R216, R219). -/
def findTrans (s : State) (c va : Nat) : Option Trans :=
  let k := s.core c
  match k.trans.find? (·.covers k.ctx va) with
  | some t => some t
  | none =>
    match s.context? k.ctx with
    | none => none
    | some x => walkFrom s k.ctx va levels x.root

/-- The core keeps a valid translation until it is invalidated or dropped (R216). -/
def Core.keepTrans (t : Trans) (k : Core) : Core :=
  if k.trans.contains t then k else { k with trans := t :: k.trans }

def keepTrans (s : State) (c : Nat) (t : Trans) : State := s.modCore c (Core.keepTrans t)

/-- Translation and permission of an access (R215, R216): the cause when it fails. -/
def xlate (s : State) (c va : Nat) (a : Acc) : Except Cause Trans :=
  match findTrans s c va with
  | none => .error .xlate
  | some t =>
    if !a.allowed t then .error .perm
    else if a.writes && t.loc == 3 then .error .wprot
    else .ok t

/-- R352: the driver has bounded what a context may use, and a range of memory lies outside. -/
def ungranted (s : State) (ctx pa len : Nat) : Bool :=
  match (s.context? ctx).bind (·.grants) with
  | none => false
  | some rs => !rs.any (fun r => decide (r.1 ≤ pa ∧ pa + len ≤ r.1 + r.2))

/-- R352: a physical address outside the ranges granted, or inside another context's frames. -/
def violates (s : State) (ctx pa len : Nat) : Bool :=
  ungranted s ctx pa len || s.contexts.any (fun x => x.num != ctx && overlap x.frames (256 * 3 * 2 ^ 20) pa len)

/-! ## Loads of an agent -/

/-- What a read finds: bytes, a stop, or a remote line that is still to be fetched. -/
inductive Rd where
  | bytes (bs : List Byte)
  | stop (st : Stop)
  | wait (t : Trans)
  deriving DecidableEq, Repr

/-- Bytes with the agent's own buffered stores laid over them in program order (R250). -/
def overlay (a : Nat) (bs : List Byte) : List BufStore → List Byte
  | [] => bs
  | st :: rest =>
    overlay a (bs.zipIdx.map (fun (b, i) =>
      if decide (st.addr ≤ a + i ∧ a + i < st.addr + st.data.length) then
        st.data.getD (a + i - st.addr) b else b)) rest

/-- A buffered store is an agent's: its own, or one that combines its own (R249). -/
def BufStore.of (st : BufStore) (ag : Agent) : Bool := st.agent == ag || st.also.contains ag

/-- Two spaces of an agent's accesses share bytes at equal offsets: a multicast access reaches its own copy and
those of its peers (R213). -/
def sameMem (a b : Space) : Bool := a == b || (a == .mcast && b != .gm) || (b == .mcast && a != .gm)

/-- R88, R191, R251: a buffered store stands under a handle of an agent: its own, or one that FORK or JOIN relates. -/
def BufStore.under (st : BufStore) (ag : Agent) (h : Nat) : Bool :=
  st.of ag && (st.handle == h || st.hs.contains (ag, h))

/-- The agent's buffered stores that a read of these bytes takes: those to bytes of the same addresses (log entry
90). -/
def forwards (k : Core) (ag : Agent) (sp : Space) (a n : Nat) : List BufStore :=
  k.buf.filter (fun st => st.of ag && sameMem st.space sp && overlap st.addr st.data.length a n)

def tsPoisoned (k : Core) (off len : Nat) : Bool :=
  k.tsPoison.any (fun g => overlap (g * 64) 64 off len)

/-- R399: the host has written to a copy of a read-duplicate page: its bytes are undefined. -/
def dupOpen (s : State) (t : Trans) : Bool :=
  t.loc == 3 && s.hostTouched.any (fun r => overlap r.1 r.2 t.pbase t.size)

/-- The bytes that a read through a translation finds on this device. -/
def mappedRead (s : State) (t : Trans) (pa n : Nat) : List Byte :=
  if dupOpen s t then (List.range n).map (fun i => Config.freeByte (s.fresh + pa + i)) else physRead s pa n

/-! ## Reads ahead (R251, last row) -/

/-- What an agent has read ahead of its earlier accesses is read anew: an access or an acquire of its own stands
between (R251, R253, R254). -/
def Core.dropAhead (ag : Agent) (k : Core) : Core := { k with ahead := k.ahead.filter (·.agent != ag) }

/-- A load of an agent has been read ahead: its bytes. -/
def aheadOf (k : Core) (ag : Agent) (h : Nat) (sp : Space) (a n : Nat) : Option (List Byte) :=
  (k.ahead.find? (fun r => r.agent == ag && r.handle == h && r.space == sp && r.addr == a && r.data.length == n)).map
    (·.data)

/-- A load issues: what lies ahead of it under its handle, or in its bytes, is read anew, and all of it where the load
may observe a flip (R275); the load's own bytes stay. -/
def Core.loadPast (ag : Agent) (h : Nat) (sp : Space) (a n : Nat) (k : Core) : Core :=
  { k with ahead := k.ahead.filter (fun r => r.agent != ag ||
      (r.handle == h && r.space == sp && r.addr == a && r.data.length == n) ||
      !(r.handle == h || sp != .gm || (sameMem r.space sp && overlap r.addr r.data.length a n))) }

/-- A store issues: what its agent has read ahead of its bytes is read anew. -/
def Core.storePast (ag : Agent) (sp : Space) (a n : Nat) (k : Core) : Core :=
  { k with ahead := k.ahead.filter (fun r =>
      !(r.agent == ag && sameMem r.space sp && overlap r.addr r.data.length a n)) }

/-- The bytes that were read ahead are used. -/
def Core.useAhead (ag : Agent) (h : Nat) (sp : Space) (a n : Nat) (k : Core) : Core :=
  { k with ahead := k.ahead.filter (fun r =>
      !(r.agent == ag && r.handle == h && r.space == sp && r.addr == a && r.data.length == n)) }

/-- A read of global memory on core c (R81, R187, R250, R351, R381, R393): `who` names the request
for remote bytes, `fw` the buffered stores that are forwarded. `t0` is the trap's frame of
reference: slot, words and place. -/
def gmRead (s : State) (c : Nat) (who : ReqFor) (fw : List BufStore) (va n : Nat) (a : Acc) (t0 : Trap) :
    Rd :=
  let k := s.core c
  let t1 := { t0 with faddr := va, acc := a.code }
  match xlate s c va a with
  | .error cause => .stop (.trap { t1 with cause := cause })
  | .ok t =>
    let pa := t.pa va
    if t.loc = 2 then
      match k.reply.find? (fun r => r.1 == who) with
      | some (_, 0, bs) => if fw.isEmpty then .bytes bs else .wait t
      | some (_, st, _) =>
        if st = 16 then .stop (.trap { t1 with cause := .memerr, status := 16, tdev := t.tdev, whole := va })
        else .stop (.trap { t1 with cause := .fabric, status := st, tdev := t.tdev, whole := va })
      | none => .wait t
    else if violates s k.ctx pa n then .stop (.freeze pa a.code)
    else if cxlDown s pa || gmPoisoned s pa n then .stop (.trap { t1 with cause := .memerr })
    else .bytes (overlay va (mappedRead s t pa n) fw)

/-- A read of global memory by an agent, which forwards its own buffered stores (R250). -/
def gmLoad (s : State) (c : Nat) (ag : Option Agent) (va n : Nat) (a : Acc) (t0 : Trap) : Rd :=
  gmRead s c (.load c ag va n)
    (match ag with
     | some g => forwards (s.core c) g .gm va n
     | none => []) va n a t0

/-- R351: the first poisoned byte of a range of tile store, as its granule has it. -/
def poisonedAt (k : Core) (off len : Nat) : Nat :=
  (((k.tsPoison.filter (fun g => overlap (g * 64) 64 off len)).map (fun g =>
    if g * 64 < off then off else g * 64)).min?).getD off

/-- A read of a core's own or a peer's tile store. -/
def tsLoad (s : State) (c owner : Nat) (ag : Option Agent) (sp : Space) (off n : Nat) (t0 : Trap) : Rd :=
  let fw := match ag with
    | some g => forwards (s.core c) g sp off n
    | none => []
  if tsPoisoned (s.core owner) off n then
    .stop (.trap { t0 with cause := .memerr, faddr := poisonedAt (s.core owner) off n })
  else .bytes (overlay off (bytesAt (s.core owner).ts off n) fw)

/-! ## Monitors (R292 to R295) -/

structure Mon where
  base : Nat
  len : Nat
  off : Nat
  stride : Nat
  fmt : Fmt
  src : Nat
  ts : Bool
  comb : Bool
  rst : Bool
  armed : Bool

def Core.mon (k : Core) (m : Nat) : Mon :=
  let w := k.cfgAt (rMON + 8 * m)
  let f := (fmtOfCode (gf w 18 6)).getD .fp32
  let ts := w.getLsbD 13
  let b := k.cfgAt (rMON + 8 * m + 1)
  { base := if ts then gf b 0 20 else gf b 0 57, len := gf (k.cfgAt (rMON + 8 * m + 2)) 0 32,
    off := gf w 32 16, stride := if gf w 48 16 = 0 then fmtSize f else gf w 48 16,
    fmt := f, src := gf w 14 4, ts := ts, comb := w.getLsbD 12, rst := w.getLsbD 11,
    armed := w.getLsbD 0 }

/-- R295: a field's value in binary64. -/
def monVal (f : Fmt) (bits : Nat) : Nat := (convert f .fp64 .rne 0 false bits).bits

def monAdd (sum v : Nat) : Nat := (fadd .fp64 .rne 0 false sum v).bits

/-- R294: the fields of a monitor that a landing touches, in ascending address order; a whole one
adds its new value, a partial one sets PART. -/
def monFields (k : Core) (m : Nat) (x : Mon) (a : Nat) (bs : List Byte) : List Nat → Core
  | [] => k
  | n :: ns =>
    let sz := fmtSize x.fmt
    let f := x.base + x.off + n * x.stride
    let k1 :=
      if decide (x.base ≤ f ∧ f + sz ≤ x.base + x.len) && overlap f sz a bs.length then
        if decide (a ≤ f ∧ f + sz ≤ a + bs.length) then
          let v := leNat ((bs.drop (f - a)).take sz)
          k.modCfg (rMON + 8 * m + 5) (fun w => w64 (monAdd w.toNat (monVal x.fmt v)))
        else k.modCfg rMONSTAT (fun w => sf w (4 + m) 1 1)
      else k
    monFields k1 m x a bs ns

/-- A landing seen by the monitors of a core: in its space, from one of its sources. -/
def monLand (k : Core) (ts : Bool) (src a : Nat) (bs : List Byte) : Core :=
  [0, 1, 2, 3].foldl (fun k m =>
    let x := k.mon m
    if x.armed && x.ts == ts && hasBit x.src src && overlap x.base x.len a bs.length then
      let lo := (a - (x.base + x.off)) / x.stride
      monFields k m x a bs ((List.range (bs.length / x.stride + 2)).map (· + lo))
    else k) k

/-- Source bit of an agent for monitors (R292). -/
def srcOf : Agent → Nat
  | .seq => 0
  | .fibre _ _ => 1

/-! ## Landing -/

/-- A write lands in global memory (R248): `src` is the monitor source bit, `va` its virtual address. -/
def landGm (s : State) (c src va pa : Nat) (bs : List Byte) : State :=
  (physWrite s pa bs).modCore c (fun k => monLand k false src va bs)

/-- The aligned 4-byte words that lie wholly in a range. -/
def wordsIn (off n : Nat) : List Nat := (List.range ((off + n) / 4 - (off + 3) / 4)).map (· + (off + 3) / 4)

/-- A later landing shows in what an older one had overwritten. -/
def OldGran.patch (off : Nat) (bs : List Byte) (o : OldGran) : OldGran :=
  if overlap o.off 64 off bs.length then
    { o with old := o.old.zipIdx.map (fun b =>
        if decide (off ≤ o.off + b.2 ∧ o.off + b.2 < off + bs.length) then bs.getD (o.off + b.2 - off) b.1 else b.1) }
  else o

/-- A write lands in the tile store of core `o`. What an engine of the core writes there initialises no eyelet
(R273). -/
def landTs (s : State) (o src off : Nat) (bs : List Byte) : State :=
  s.modCore o (fun k =>
    let k1 := { k with ts := putBytes k.ts off bs, vold := k.vold.map (OldGran.patch off bs),
                       eyes := if src = 2 then k.eyes
                         else k.eyes ++ (wordsIn off bs.length).filter (fun u => !k.eyes.contains u),
                       tsPoison := k.tsPoison.filter (fun g =>
                         !(decide (off ≤ g * 64 ∧ g * 64 + 64 ≤ off + bs.length))) }
    monLand k1 true src off bs)

/-- R213: the members of a multicast: cores of the cluster with a motif of the issuer's launch. -/
def members (s : State) (c : Nat) : List Nat :=
  let mine := (s.motifOn c).map (·.launch)
  ((List.range 4).map (fun i => 4 * clusterOf c + i)).filter (fun o =>
    o == c || (mine.isSome && (s.motifOn o).map (·.launch) == mine))

/-- A multicast write lands in every member at one moment (R213, R258). -/
def landMc (s : State) (c src off : Nat) (bs : List Byte) : State :=
  (members s c).foldl (fun s o => landTs s o (if o = c then src else 3) off bs) s

/-- The agent of the log writer's stores (R303, R321): the motif as an engine. -/
abbrev logAgent : Agent := .fibre 4 0
/-- The handle that stands for none. -/
abbrev noHandle : Nat := 16

/-- A buffered store lands where it goes (R250, R257, R258). No handle marks a write of the log
writer, which no monitor counts (R292, R303). -/
def landStore (s : State) (c : Nat) (st : BufStore) : State :=
  let src := if st.handle = noHandle then 15 else srcOf st.agent
  match st.space with
  | .gm => landGm s c src st.addr (st.tr.pa st.addr) st.data
  | .ts => landTs s c src st.addr st.data
  | .peer o => landTs s o (if o = c then src else 3) st.addr st.data
  | .mcast => landMc s c src st.addr st.data

/-! ## Order of accesses (R251) -/

/-- The outstanding accesses of an agent under a handle, those among them that FORK or JOIN counts under it. A
transfer is one until its ring has advanced (R266), and so is a KEYE that is held back (R276). -/
def outUnder (k : Core) (ag : Agent) (h : Nat) : List Nat :=
  (k.buf.filter (·.under ag h)).map (·.id) ++
  (k.kcmds.filter (fun x => x.agent == ag && (x.hs.contains h ||
    (match x.i with
     | .kcopy _ o | .kfill _ o | .kgang _ o | .kmcast _ o | .kcgrad _ o _ _ _ | .kpull _ o _ =>
       o.oh.toNat == h
     | .keyeInit _ oh _ _ _ | .keyeAdd _ oh _ _ _ => oh.toNat == h
     | _ => false)))).map (·.id) ++
  (k.mcmds.filter (fun x => x.agent == ag && !x.fetched && (gf x.h 60 4 == h || x.hs.contains h))).map (·.id)

/-- Every outstanding access of an agent. -/
def outAll (k : Core) (ag : Agent) : List Nat :=
  (List.range 16).flatMap (outUnder k ag)

/-- What later accesses under a handle must follow beyond R251's own rows (R290). -/
def hdepOf (k : Core) (ag : Agent) (h : Nat) : List Nat :=
  (k.hdeps.filter (fun d => d.agent == ag && d.handle == h)).flatMap (·.ids)

/-- Whether an access is still outstanding on a core. -/
def outstanding (k : Core) (id : Nat) : Bool :=
  k.buf.any (·.id == id) || k.kcmds.any (·.id == id) || k.mcmds.any (fun m => m.id == id && !m.fetched)

def clearOf (k : Core) (ids : List Nat) : Bool := ids.all (fun i => !outstanding k i)

/-- Adds to what a handle's later accesses must follow; accesses that have landed are forgotten. -/
def addHdep (k : Core) (ag : Agent) (h : Nat) (ids : List Nat) : Core :=
  let new : HDep := ⟨ag, h, ids.filter (outstanding k)⟩
  let old := k.hdeps.map (fun d => { d with ids := d.ids.filter (outstanding k) })
  { k with hdeps := (new :: old).filter (fun d => !d.ids.isEmpty) }

/-- Every later access of an agent, on any handle, follows the accesses that another, or itself, has issued
(R290: SPAWN and ROLE). -/
def fenceOver (k : Core) (by_ ag : Agent) : Core :=
  let ids := outAll k by_ ++ (k.hdeps.filter (·.agent == by_)).flatMap (·.ids)
  (List.range 16).foldl (fun k h => addHdep k ag h ids) k

/-- The cores of a core's cluster. -/
def mates (c : Nat) : List Nat := (List.range 4).map (· + 4 * clusterOf c)

/-- A release of some agents of core c: later copies follow their V-slot stores, wherever these went (R87, R323). -/
def released (s : State) (c : Nat) (p : Agent → Bool) : State :=
  (mates c).foldl (fun s o =>
    if (s.core o).vold.any (fun v => v.core == c && p v.agent) then
      s.modCore o (fun k => { k with vold := k.vold.filter (fun v => !(v.core == c && p v.agent)) })
    else s) s

/-- R117, R220: the bytes of a core's tile store as a fibre reads them: each granule that a V-slot store of its motif's
sequencer has overwritten, with no fence since, is wholly old or wholly new, and new ever after (log entry 88). -/
def staleLoad (s : State) (o c : Nat) (ag : Agent) (off n : Nat) (bs : List Byte) : List Byte × State :=
  let es := (s.core o).vold.filter (fun v =>
    v.core == c && v.agent == .seq && ag != .seq && !v.seen.contains (c, ag) && overlap v.off 64 off n)
  if es.isEmpty then (bs, s)
  else
    let old := fun (i : Nat) => (Config.freeByte (s.fresh + i)).getLsbD 0
    let new := (es.zipIdx.filter (fun e => !old e.2)).map (·.1)
    (bs.zipIdx.map (fun b =>
        ((es.zipIdx.find? (fun e => old e.2 && decide (e.1.off ≤ off + b.2 ∧ off + b.2 < e.1.off + 64))).map
          (fun e => e.1.old.getD (off + b.2 - e.1.off) b.1)).getD b.1),
      { s with fresh := s.fresh + es.length }.modCore o (fun k =>
        { k with vold := k.vold.map (fun v => if new.contains v then { v with seen := (c, ag) :: v.seen } else v) }))

/-- Adds what is not in a list yet. -/
def addNew {α : Type} [BEq α] (xs ys : List α) : List α := xs ++ ys.filter (fun y => !xs.contains y)

/-- The outstanding accesses of an agent under some handles stand under others too, for what comes after them
(R88, R191, R251). -/
def Core.alsoUnder (c : Nat) (ag : Agent) (hs new : List Nat) (k : Core) : Core :=
  { k with
    buf := k.buf.map (fun b =>
      if hs.any (fun h => b.under ag h) then { b with hs := addNew b.hs (new.map (fun h => (ag, h))) } else b),
    kcmds := k.kcmds.map (fun x =>
      if hs.any (fun h => (outUnder k ag h).contains x.id) then { x with hs := addNew x.hs new } else x),
    mcmds := k.mcmds.map (fun x =>
      if hs.any (fun h => (outUnder k ag h).contains x.id) then { x with hs := addNew x.hs new } else x),
    vold := k.vold.map (fun o =>
      if o.core == c && o.agent == ag && o.handles.any hs.contains then { o with handles := addNew o.handles new } else o) }

/-- The accesses, failures and handles of agents under other names. -/
def Core.mapAgent (c : Nat) (f : Agent → Agent) (k : Core) : Core :=
  { k with
    buf := k.buf.map (fun b => { b with agent := f b.agent, also := b.also.map f,
                                        hs := b.hs.map (fun x => (f x.1, x.2)) }),
    kcmds := k.kcmds.map (fun x => { x with agent := f x.agent }),
    mcmds := k.mcmds.map (fun x => { x with agent := f x.agent }),
    hdeps := k.hdeps.map (fun d => { d with agent := f d.agent }),
    vold := k.vold.map (fun o => if o.core == c then { o with agent := f o.agent } else o),
    failures := k.failures.map (fun x => { x with agent := f x.agent }) }

/-- A store's failure is reported at these agents' next synchronising points: the log writer's at the
sequencer's. -/
def BufStore.reporters (st : BufStore) : List Agent :=
  if st.handle = noHandle then [.seq] else st.agent :: st.also

/-- A lane slot is free for a new fibre: what its ended one has still to land is that one's for ever (R200,
R201). -/
def freeLane (k0 : Core) (c g l : Nat) : Core :=
  let old : Agent := .fibre g l
  let k := k0.dropAhead old
  if k.buf.any (·.of old) || k.kcmds.any (·.agent == old) || k.mcmds.any (·.agent == old) ||
      k.hdeps.any (·.agent == old) || k.failures.any (·.agent == old) ||
      k.vold.any (fun v => v.core == c && v.agent == old) then
    let k1 := k.mapAgent c (fun a => if a = old then .fibre g (32 + k.nextId) else a)
    { k1 with nextId := k.nextId + 1 }
  else k

/-- MM1 fence-strengthening of the core's context (R327). -/
def Core.fstr (k : Core) : Bool := (k.cfgAt rMMCTL).getLsbD 0

/-- The accesses that must land before a store or atomic (R251, R266, R328). -/
def storeDeps (k : Core) (ag : Agent) (h : Nat) (sp : Space) (a n : Nat) (atomic : Bool) : List Nat :=
  let mine := k.buf.filter (·.of ag)
  (mine.filter (fun b =>
      (sameMem b.space sp && overlap b.addr b.data.length a n) ||
      (b.under ag h && (atomic || k.fstr || (sameMem b.space sp && b.addr / 64 == a / 64))))).map (·.id) ++
  (outUnder k ag h).filter (fun i => !k.buf.any (·.id == i)) ++ hdepOf k ag h

/-- The accesses that must land before a load; overlapping buffered stores are forwarded instead. -/
def loadDeps (k : Core) (ag : Agent) (h : Nat) : List Nat :=
  (outUnder k ag h).filter (fun i => !k.buf.any (·.id == i)) ++ hdepOf k ag h

def Core.newId (k : Core) : Nat × Core := (k.nextId, { k with nextId := k.nextId + 1 })

def noNat : Nat → Nat := fun _ => 0

/-- Agents of a gang. -/
def ofGang (g : Nat) : Agent → Bool
  | .fibre h _ => h == g
  | .seq => false

/-- R89: counts an access of the sequencer's agent under a handle, modulo 2^42. What counts as one access the
spec does not say: a load, store, row or atomic is one, a K command or an MMAH fetch is one, and the reads of
WAITS, BIND and KEYE.WAIT are none (DESIGN CHOICE, log entry 83). -/
def countIssue (k : Core) (ag : Agent) (h : Nat) : Core :=
  let n := (mget noNat k.issued h + 1) % 2 ^ 42
  if ag = .seq then { k with issued := mput noNat k.issued h n } else k

/-- A store enters the write buffers (R250), behind what it must follow (R251). -/
def Core.putStore (ag : Agent) (h : Nat) (sp : Space) (a : Nat) (tr : Trans) (bs : List Byte)
    (k : Core) : Core :=
  let st : BufStore := { id := k.nextId, agent := ag, handle := h, space := sp, addr := a, data := bs,
                         tr := tr, deps := storeDeps k ag h sp a bs.length false, sent := false }
  countIssue ({ k with nextId := k.nextId + 1, buf := k.buf ++ [st] }.storePast ag sp a bs.length) ag h

def bufferStore (s : State) (c : Nat) (ag : Agent) (h : Nat) (sp : Space) (a : Nat) (tr : Trans)
    (bs : List Byte) : State := s.modCore c (Core.putStore ag h sp a tr bs)

/-- No translation, for tile-store accesses. -/
def Trans.none : Trans :=
  { ctx := 0, vbase := 0, size := 0, pbase := 0, loc := 0, tdev := 0, r := false, w := false,
    xb := false, xl := false }

/-- Some buffered stores land, in program order, each once what it must follow has landed (R251). -/
def landThese (s : State) (c : Nat) (sts : List BufStore) : State :=
  sts.foldl (fun s st =>
    if clearOf (s.core c) st.deps then
      (landStore s c st).modCore c (fun k => { k with buf := k.buf.filter (·.id != st.id) })
    else s) s

/-- The agent's own buffered stores to bytes of tile store land: what an access that bypasses the buffers finds
(R117, R250, R251). -/
def landOverlapping (s : State) (c : Nat) (ag : Agent) (sp : Space) (a n : Nat) : State :=
  landThese s c (forwards (s.core c) ag sp a n)

/-! ## Remote requests (R376) -/

/-- The shared layout of a transfer command. -/
def xferOf : Instr → Option KXfer
  | .kcopy _ x | .kfill _ x | .kgang _ x | .kmcast _ x | .kcgrad _ x _ _ _ | .kpull _ x _ => some x
  | _ => none

/-- The engine command that a request serves. -/
def ReqFor.cmd : ReqFor → Option (Nat × Nat)
  | .piece c m _ | .fetch c m _ => some (c, m)
  | _ => none

/-- The copy channel of a core that a request goes through; handle fetches go through channel 0 (R240). -/
def reqChan (s : State) : ReqFor → Option (Nat × Nat)
  | .piece c m _ => some (c, (((s.core c).kcmds.find? (·.id == m)).bind (fun x => xferOf x.i)).elim 0 (·.ch.toNat))
  | .fetch c _ _ => some (c, 0)
  | _ => none

/-- R377: the copy channel of a request holds its 256 requests in flight. -/
def chanFull (s : State) (r : FabReq) : Bool :=
  match reqChan s r.who with
  | none => false
  | some ch => decide (256 ≤ (s.requests.filter (fun q => q.port.isSome && reqChan s q.who == some ch)).length)

/-- R368, R374: the response buffer of a request. The requests of one command to one device share theirs, at
different addresses, so that they form a stream; any other has one of its own (log entry 65). -/
def tagFor (s : State) (r : FabReq) : Option Nat :=
  let out := s.requests.filter (fun q => q.score == r.score && q.handle % 16 == r.handle % 16 && q.port.isSome)
  let shared := out.find? (fun q => q.who.cmd.isSome && q.who.cmd == r.who.cmd && q.op == r.op && q.dev == r.dev &&
    !out.any (fun z => z.tag == q.tag && z.addr == r.addr))
  match shared with
  | some q => some q.tag
  | none => (List.range 256).find? (fun t => !(out.map (·.tag)).contains t)

/-- The payloads of a request's packets: a CAS group of more than 64 bytes takes several (R373, R376). -/
def payloadParts (bs : List Byte) : List (List Byte) :=
  if bs.length ≤ 64 then [bs]
  else (List.range ((bs.length + 63) / 64)).map (fun i => (bs.drop (64 * i)).take 64)

/-- A request leaves through the port that its route selects, once its flow has no unanswered request
on another port (R366), its channel has room (R377) and a response buffer is free (R368). -/
def sendReq (s : State) (r : FabReq) : State :=
  match r.port, routePort s r.dev 0 (16 * r.score + r.handle % 16) with
  | none, some p =>
    let mine := s.requests.filter (fun q => q.score == r.score && q.handle % 16 == r.handle % 16 && q.dev == r.dev)
    if mine.any (fun q => q.port.isSome && q.port != some p) || chanFull s r ||
        flowHeld s r.dev (16 * r.score + r.handle % 16) p then s
    else
      match tagFor s r with
      | none => s
      | some t =>
        let r1 := { r with tag := t, port := some p, sentAt := s.time }
        let s1 := { s with requests := s.requests.map (fun q => if q.id = r.id then r1 else q) }
        (payloadParts r.data).foldl (fun s bs =>
          (sendPacket s { op := r.op, hop := 0, sdev := s.dev, tdev := r.dev, score := r.score,
                          handle := r.handle % 16, tag := t, addr := r.addr,
                          len := if bs.isEmpty then r.len else bs.length, data := bs,
                          fwd := false, via := none }).1) s1
  | _, _ => s

/-- Requests that were held are sent as their flows allow, in order. -/
def sendHeld (s : State) : State := s.requests.foldl sendReq s

/-- The core of a request (R373); the distributor's carry core 0. -/
def ReqFor.score : ReqFor → Nat
  | .store c _ | .piece c _ _ | .fetch c _ _ | .load c _ _ _ | .notice c _ _ _ => c
  | .dist _ _ | .gone _ _ => 0

/-- Sends a request once; with no route it is answered NOROUTE at once (R366, R380). -/
def postReq (s : State) (who : ReqFor) (op dev addr va len : Nat) (data : List Byte) (fn h : Nat) :
    State × Bool :=
  if s.requests.any (fun r => r.who == who) then (s, true)
  else if (routePort s dev 0 (16 * who.score + h % 16)).isNone then (s, false)
  else
    let r : FabReq := { id := s.nextReq, who := who, op := op, dev := dev, addr := addr, va := va,
                        len := len, data := data, fn := fn, handle := h, score := who.score, tag := 0,
                        port := none, sentAt := s.time }
    (sendReq { s with nextReq := s.nextReq + 1, requests := s.requests ++ [r] } r, true)

/-- A reply comes into the core's hands; a later one for the same access replaces it. -/
def putReply (s : State) (c : Nat) (who : ReqFor) (st : Nat) (bs : List Byte) : State :=
  s.modCore c (fun k => { k with reply := (who, st, bs) :: k.reply.filter (fun r => r.1 != who) })

def Core.dropReply (who : ReqFor) (k : Core) : Core :=
  { k with reply := k.reply.filter (fun r => r.1 != who) }

def dropReply (s : State) (c : Nat) (who : ReqFor) : State := s.modCore c (Core.dropReply who)

/-- A load that waits for a remote line asks for it (R376). -/
def askLoad (s : State) (c : Nat) (ag : Option Agent) (t : Trans) (va n h : Nat) : State :=
  let who := ReqFor.load c ag va n
  let (s1, ok) := postReq s who 0 t.tdev (t.pa va) va n [] 0 h
  if ok then s1 else putReply s1 c who 1 []

/-- What was asked for is no longer wanted: a reply is dropped, and one still to come serves nobody. -/
def forgetReq (s : State) (c : Nat) (who : ReqFor) : State :=
  dropReply { s with requests := s.requests.map (fun r =>
    if r.who == who then { r with who := .gone (s.core c).ctx r.id } else r) } c who

/-! ## Waiting for engines -/

/-- The stores of one agent have all landed. -/
def storesLanded (k : Core) (ag : Agent) : Bool := !k.buf.any (·.of ag)

/-- R91, R87, R303: every M, K and S command of the motif has completed, and every log write has landed. -/
def enginesQuiet (k : Core) : Bool :=
  k.kcmds.isEmpty && k.mcmds.isEmpty && k.mzeroAt.isEmpty && !k.buf.any (·.handle == noHandle) &&
    (List.range 4).all (fun g => (k.gangAt g).cmd.isNone)

/-- R381: the first unreported failure of an agent, as a trap at its synchronising point. -/
def failureTrap (k : Core) (ag : Agent) (t0 : Trap) : Option Trap :=
  match firstFailure k ag with
  | none => none
  | some f => some { t0 with cause := if f.poison then .memerr else .fabric, faddr := f.addr,
                             status := f.status, tdev := f.tdev, whole := f.addr, acc := 1,
                             report := true }

end Sys2Proof.Machine
end

