-- ==== Sys2Proof/Machine/Operands.lean ====
section
/-! DEFINITION. The operand forms: rings and descriptors (R67 to R69, R143), tile shapes and the
vector view (R51, R54), rows and elements (R99, R101), lane registers (R153), and the reading and
writing of scalars and predicates by a slot or by a nested command (R47, R203). -/
namespace Sys2Proof.Machine

/-! ## Rings -/

def Core.cb (k : Core) (h : Nat) : W64 := k.cfgAt (rCBDESC + h)
def cbFill (w : W64) : Nat := gf w 58 6
def cbWptr (w : W64) : Nat := gf w 53 5
def cbRptr (w : W64) : Nat := gf w 48 5
def cbRing (w : W64) : Nat := gf w 43 5 + 1
def cbSlotsz (w : W64) : Nat := gf w 32 11
def cbValid (w : W64) : Bool := w.getLsbD 31
def cbBase (w : W64) : Nat := gf w 6 14 * 64
def cbSlotBytes (w : W64) : Nat := cbSlotsz w * 64

/-- R67: whether a value describes a legal ring within the share. -/
def ringLegal (share : Nat) (w : W64) : Bool :=
  decide (1 ≤ cbSlotsz w ∧ cbSlotsz w ≤ 1024 ∧ cbBase w + cbRing w * cbSlotBytes w ≤ share)

/-- The start of a slot of a ring (R69). -/
def slotAddr (w : W64) (slot : Nat) : Nat := cbBase w + slot * cbSlotBytes w

def descOff (d : Desc) : Nat := gf d 11 5
def descSrf (d : Desc) : Nat := gf d 8 2
def descWait (d : Desc) : Nat := gf d 5 3
def descH (d : Desc) : Nat := gf d 0 5

/-- R69: the slot a source or a destination descriptor selects. -/
def srcSlot (w : W64) (d : Desc) : Nat := (cbRptr w + descOff d) % cbRing w
def dstSlot (w : W64) (d : Desc) : Nat := (cbWptr w + descOff d) % cbRing w
def srcReady (w : W64) (d : Desc) : Bool := decide (descWait d ≤ cbFill w)
def dstReady (w : W64) (d : Desc) : Bool := decide (descWait d ≤ cbRing w - cbFill w)

/-- R83: the pointer moves. -/
def cbAdvr (w : W64) (n : Nat) : W64 :=
  sf (sf w 48 5 ((cbRptr w + n) % cbRing w)) 58 6 (cbFill w - n)
def cbAdvw (w : W64) (n : Nat) : W64 :=
  sf (sf w 53 5 ((cbWptr w + n) % cbRing w)) 58 6 (cbFill w + n)

/-- R143: rings marked as being written, or read, by outstanding S commands. -/
def ringsOut (k : Core) : List Nat :=
  (List.range 4).flatMap (fun g => ((k.gangAt g).cmd.map (·.outs)).getD [])
def ringsIn (k : Core) : List Nat :=
  (List.range 4).flatMap (fun g => ((k.gangAt g).cmd.map (·.ins)).getD [])

/-- R143: a slot that names these rings need not wait for an S command. -/
def marksFree (k : Core) (srcs dsts : List Nat) : Bool :=
  srcs.all (fun h => !(ringsOut k).contains h) &&
    dsts.all (fun h => !(ringsOut k).contains h && !(ringsIn k).contains h)

/-! ## Tiles and the vector view -/

def Core.shape (k : Core) (t : Nat) : W64 := k.cfgAt (rTSHAPE + t)
def shapeConf (w : W64) : Bool := w.getLsbD 23
def shapePin (w : W64) : Bool := w.getLsbD 21
def shapeEtype (w : W64) : Nat := gf w 15 6
def shapeRows (w : W64) : Nat :=
  match gf w 12 3 with
  | 1 => 16 | 2 => 32 | 3 => 64 | 4 => 128 | _ => 0
def shapeRowB (w : W64) : Nat := 64 * 2 ^ gf w 10 2
/-- R22: the formats of an accumulator tile. -/
def etypeOk (e : Nat) : Bool := e == 0x00 || e == 0x04 || e == 0x0B
def isX (w : W64) : Bool := shapeEtype w == 0x04

/-- A row of a tile: where it lies, its bytes, and whether its tile is FP32X. -/
structure Row where
  tile : Nat
  row : Nat
  rb : Nat
  x : Bool
  deriving DecidableEq, Repr

/-- R54: the row that a vector register names; none where it traps UNCONF. -/
def viewRow (k : Core) (n : Nat) : Option Row :=
  let s0 := k.shape 0
  let rows := shapeRows s0
  let t := n / rows
  if !shapeConf s0 || !shapeConf (k.shape t) || shapeRows (k.shape t) != rows then none
  else some { tile := t, row := (n + gf (k.cfgAt rVROT) 0 7) % rows, rb := shapeRowB (k.shape t),
              x := isX (k.shape t) }

/-- The same with the rotation base that a log entry recorded (R309). -/
def viewRowAt (k : Core) (vrot n : Nat) : Option Row := viewRow (k.setCfg rVROT (w64 vrot)) n

/-- A row of a tile by its physical number. -/
def tileRow (k : Core) (t row : Nat) : Row :=
  { tile := t, row := row, rb := shapeRowB (k.shape t), x := isX (k.shape t) }

def tileKey (t off : Nat) : Nat := t * 65536 + off
def guardKey (t e : Nat) : Nat := t * 16384 + e

/-- R48: a tile marked busy by an engine. -/
def tileBusy (k : Core) (t : Nat) : Bool :=
  k.tileCmd.any (·.1 == t) || k.mzeroAt.any (·.1 == t)

/-- R343: a tile to be refilled, or still holding another motif's bytes. -/
def tileAway (k : Core) (t : Nat) : Bool := k.refill.contains t || k.tags.any (·.1 == t)

/-- A tile that a slot names can be used now. -/
def tileReady (k : Core) (t : Nat) : Bool := !tileBusy k t && !tileAway k t

def Core.setDirty (k : Core) (t : Nat) : Core := k.modCfg (rTSHAPE + t) (fun w => sf w 22 1 1)

/-- The main word and the guard byte of a 32-bit element. -/
def Core.main (k : Core) (r : Row) (j : Nat) : Nat :=
  numAt k.tiles (tileKey r.tile (r.row * r.rb + 4 * j)) 4
def Core.guardAt (k : Core) (r : Row) (j : Nat) : Nat :=
  (byteAt k.guard (guardKey r.tile (r.row * (r.rb / 4) + j))).toNat

/-- R101: a 32-bit element as the vector unit reads it. -/
def Core.elem32 (k : Core) (r : Row) (j : Nat) : Nat :=
  if r.x then fp32xRead (k.main r j) (k.guardAt r j) else k.main r j

/-- R99, R101: element j of `size` bytes of a row. -/
def Core.elem (k : Core) (r : Row) (size j : Nat) : Nat :=
  if size = 4 then k.elem32 r j
  else if r.x then nf (k.elem32 r (j * size / 4)) (8 * (j * size % 4)) (8 * size)
  else numAt k.tiles (tileKey r.tile (r.row * r.rb + size * j)) size

/-- All elements of a row. -/
def Core.elems (k : Core) (r : Row) (size : Nat) : List Nat :=
  (List.range (r.rb / size)).map (k.elem r size)

/-- R101: a write of element j; it clears the guard byte of the element it lies in. -/
def Core.putElem (k : Core) (r : Row) (size j v : Nat) : Core :=
  { k with tiles := putBytes k.tiles (tileKey r.tile (r.row * r.rb + size * j)) (leBytes size v),
           guard := mput noByte k.guard (guardKey r.tile (r.row * (r.rb / 4) + size * j / 4)) 0 }

/-- Consecutive elements written from element `j`; the tile becomes dirty. -/
def Core.putElems (k : Core) (r : Row) (size : Nat) : Nat → List Nat → Core
  | _, [] => k.setDirty r.tile
  | j, v :: vs => (k.putElem r size j v).putElems r size (j + 1) vs

/-- The bytes of a row as a store or a saved row takes them (R101). -/
def Core.rowBytes (k : Core) (r : Row) : List Byte :=
  (List.range (r.rb / 4)).flatMap (fun j => leBytes 4 (k.elem32 r j))

/-- R30: an FP32X element with its guard byte. -/
def Core.putX (k : Core) (r : Row) (j v : Nat) : Core :=
  { k with tiles := putBytes k.tiles (tileKey r.tile (r.row * r.rb + 4 * j)) (leBytes 4 (v / 256)),
           guard := mput noByte k.guard (guardKey r.tile (r.row * (r.rb / 4) + j))
             (BitVec.ofNat 8 v) }
def Core.elemX (k : Core) (r : Row) (j : Nat) : Nat := k.main r j * 256 + k.guardAt r j

/-! ## Lane registers -/

def regKey (l r : Nat) : Nat := l * 256 + r

/-- R153, R8: what a register holds that nothing has written since its making. -/
def Fibre.undef (f : Fibre) (l r : Nat) : W32 :=
  match f.seeds.find? (fun e => decide (e.1 ≤ r)) with
  | some e => Config.freeReg e.2 (regKey l r)
  | _ => 0

def Gang.reg (g : Gang) (l r : Nat) : W32 :=
  mget (fun _ => (g.fibre l).undef l r) g.regs (regKey l r)
def Gang.setReg (g : Gang) (l r : Nat) (v : W32) : Gang := { g with regs := mset g.regs (regKey l r) v }
/-- R153: the pair g(r), g(r + 1). -/
def Gang.pair (g : Gang) (l r : Nat) : W64 := (g.reg l (r + 1) ++ g.reg l r : BitVec 64)
def Gang.setPair (g : Gang) (l r : Nat) (v : W64) : Gang :=
  (g.setReg l r (v.setWidth 32)).setReg l (r + 1) ((v >>> 32).setWidth 32)

/-! ## The operands of a slot or nested command -/

/-- Who issues a slot and from where: `pre` is the state before the bundle, which gives every
register operand (R47); `lanes` are the lanes of the TISSUE batch of a nested command (R203). -/
structure Env where
  c : Nat
  who : Agent
  pre : State
  base : Nat
  next : Nat
  lanes : List Nat := []
  logAt : Option (Nat × W64) := Option.none
  drain : Bool := false      -- the bundle's M slot is an enabled MDRAIN (R241)
  cStore : Bool := false     -- its C slot is an enabled SST
  cHandles : Option Instr := Option.none   -- its C slot is an enabled FORK or JOIN (R88)
  gangNeed : Nat := 0        -- how many of its slots take a gang slot

def Env.k (e : Env) : Core := e.pre.core e.c

/-- The agent whose access a slot's own accesses are: the sequencer, or the fibre. -/
def Env.isSeq (e : Env) : Bool := e.who == .seq

/-- R47, R203: scalar s(r), or the pair g(2r) of the lane that issued a nested command. -/
def rdScal (e : Env) (r : SReg) : W64 :=
  match e.who with
  | .seq => e.k.sAt r.toNat
  | .fibre g l => (e.k.gangAt g).pair l (2 * r.toNat)

/-- The scalar r + 1 of a pair. -/
def rdScal1 (e : Env) (r : SReg) : W64 := rdScal e (r + 1)

def wrScal (e : Env) (s : State) (r : SReg) (v : W64) : State :=
  match e.who with
  | .seq => s.modCore e.c (·.setS r.toNat v)
  | .fibre g l => s.modCore e.c (fun k => k.setGang g ((k.gangAt g).setPair l (2 * r.toNat) v))

/-- R110, R203: predicate q(n), or lane predicate k(n) of the lane. -/
def wrPred (e : Env) (s : State) (n : PReg) (b : Bool) : State :=
  match e.who with
  | .seq => s.modCore e.c (·.setQ n.toNat b)
  | .fibre g l => s.modCore e.c (fun k =>
      let x := k.gangAt g
      let f := x.fibre l
      let m : BitVec 8 := BitVec.ofNat 8 (2 ^ n.toNat)
      k.setGang g (x.setFibre l { f with k := if b then f.k ||| m else f.k &&& ~~~ m }))

/-- The trap frame of a slot of a bundle, or of the lane whose TISSUE issued it. -/
def Env.trap (e : Env) (i : Instr) (slot : Nat) : Trap :=
  match e.who with
  | .seq => { cause := .illegal, slot := slot, baddr := e.base, w0 := (encWords i).1,
              w1 := (encWords i).2 }
  | .fibre g l =>
    let x := e.k.gangAt g
    { cause := .illegal, slot := 5, baddr := (x.cmd.map (·.baddr)).getD 0, fpc := (x.fibre l).pc,
      depth := x.depth, gang := g, lane := l, w0 := (encWords i).1 }

def Env.stop (e : Env) (i : Instr) (slot : Nat) (c : Cause) : Option Stop :=
  some (.trap { e.trap i slot with cause := c })

/-- The first check of a list that fails (R65). -/
def firstStop : List (Bool × Stop) → Option Stop
  | [] => none
  | (bad, st) :: rest => if bad then some st else firstStop rest

/-- Checks by cause, in order. -/
def Env.checks (e : Env) (i : Instr) (slot : Nat) (l : List (Bool × Cause)) : Option Stop :=
  firstStop (l.map (fun x => (x.1, .trap { e.trap i slot with cause := x.2 })))

/-- The traps of a ring: its number stands in the record (R330). -/
def Env.ringStop (e : Env) (i : Instr) (slot h : Nat) (c : Cause) : Stop :=
  .trap { e.trap i slot with cause := c, tkind := 2, tnum := h }
def Env.tileStop (e : Env) (i : Instr) (slot t : Nat) (c : Cause) : Stop :=
  .trap { e.trap i slot with cause := c, tkind := 1, tnum := t }

/-- A disabled-by-bits register operand check of R54: the tile an unresolved vector register names. -/
def viewTile (k : Core) (n : Nat) : Nat :=
  if shapeConf (k.shape 0) then n / shapeRows (k.shape 0) else 0

/-! ## The geometry of transfers (R262, R265) -/

structure Geo where
  rows : Nat
  rb : Nat
  ds : Int
  ss : Int
  deriving DecidableEq, Repr

def sint32 (n : Nat) : Int := if n < 2 ^ 31 then n else (n : Int) - 2 ^ 32

def geoOf (sn sn1 : W64) : Geo :=
  let rows := gf sn 21 16 + 1
  { rows := rows, rb := gf sn 0 21, ds := if rows = 1 then 0 else sint32 (gf sn1 32 32),
    ss := if rows = 1 then 0 else sint32 (gf sn1 0 32) }

/-- Row r of a side. -/
def rowAt (base : Nat) (r : Nat) (stride : Int) : Int := (base : Int) + r * stride

/-- The geometry of an outstanding transfer: KGANG's one row, KCGRAD's packet. -/
def kGeo (i : Instr) (scal : List W64) : Geo :=
  match i with
  | .kgang _ _ => { rows := 1, rb := (gf (scal.getD 0 0) 16 8 + 1) * 128, ds := 0, ss := 0 }
  | .kcgrad _ _ _ _ nb => { rows := 1, rb := 33 * (nb.toNat + 1), ds := 0, ss := 0 }
  | _ => geoOf (scal.getD 2 0) (scal.getD 3 0)

/-- The rows of a side that is not global. A negative stride may take one below 0. -/
def rowsAt (base : Nat) (g : Geo) (stride : Int) : List (Int × Nat) :=
  (List.range g.rows).map (fun r => (rowAt base r stride, g.rb))

/-- The same, for a side whose rows have passed their range check. -/
def rowsOf (base : Nat) (g : Geo) (stride : Int) : List (Nat × Nat) :=
  ((rowsAt base g stride).filter (fun r => decide (0 ≤ r.1))).map (fun r => (r.1.toNat, r.2))

/-- The own tile-store ranges that a transfer writes, and those that it reads (R222). -/
def kWrites (x : KCmd) : List (Nat × Nat) :=
  let g := kGeo x.i x.scal
  match x.i with
  | .kcopy _ o => if o.dst = .gm then [] else rowsOf x.dst g g.ds
  | .kmcast _ _ | .kpull _ _ _ => rowsOf x.dst g g.ds
  | .kcgrad _ _ _ _ nb => [((x.scal.getD 2 0).toNat, 128 * (nb.toNat + 1))]
  | _ => []

def kReads (c : Nat) (x : KCmd) : List (Nat × Nat) :=
  let g := kGeo x.i x.scal
  match x.i with
  | .kpull _ _ peer => if peer.toNat = c % 4 then rowsOf x.src g g.ss else []
  | .kcopy _ o | .kfill _ o | .kgang _ o | .kmcast _ o =>
    if o.src = .gm then [] else rowsOf x.src g g.ss
  | .kcgrad _ _ _ _ nb => [(x.src, 128 * (nb.toNat + 1)), ((x.scal.getD 2 0).toNat, 128 * (nb.toNat + 1))]
  | _ => []

/-- The commands of R222 with the ranges that they will write, and will read. An S command's are
its ports; it names no handle. -/
structure PendCmd where
  agent : Agent
  handle : Nat
  baddr : Nat
  gang : Option Nat
  wr : List (Nat × Nat)
  rd : List (Nat × Nat)

/-- A port's bytes; the stitch scratch, port t3, is read and written (R211). -/
def portRanges (out : Bool) (x : SCmd) : List (Nat × Nat) :=
  (x.ports.zipIdx.filter (fun p => (p.1.out == out || p.2 == 3) && decide (0 < p.1.size))).map
    (fun p => (p.1.base, p.1.size))

/-- An access of an agent is under the handle that the command named (R189, R222). -/
def PendCmd.named (p : PendCmd) (ag : Agent) (handle : Nat) : Bool := p.handle == handle && p.agent == ag

def pendCmds (k : Core) : List PendCmd :=
  k.kcmds.filterMap (fun x => (xferOf x.i).map (fun o =>
    { agent := x.agent, handle := o.oh.toNat, baddr := x.baddr, gang := x.parent.map (·.1), wr := kWrites x,
      rd := kReads (gf (k.cfgAt rMPOS) 0 8) x })) ++
  (List.range 4).filterMap (fun g => (k.gangAt g).cmd.map (fun x =>
    { agent := .seq, handle := noHandle, baddr := x.baddr, gang := some g, wr := portRanges true x,
      rd := portRanges false x }))

/-- The gang whose S command a gang's accesses belong to: its own, or its depth-1 issuer's. -/
def rootGang (k : Core) (g : Nat) : Nat :=
  match (k.gangAt g).cmd with
  | some x => (x.parent.map (·.1)).getD g
  | none => g

def ownCmd (k : Core) (ag : Agent) (p : PendCmd) : Bool :=
  match ag, p.gang with
  | .fibre g _, some h => rootGang k g == rootGang k h
  | _, _ => false

/-- The first granule of a range that a command's ranges touch. -/
def hitGranule (rs : List (Nat × Nat)) (off len : Nat) : Option Nat :=
  ((List.range (len / 64 + 2)).map (fun i => (off / 64 + i) * 64)).find? (fun g =>
    overlap g 64 off len && rs.any (fun r => overlap r.1 r.2 g 64))

/-- R222: whether an access to the share traps PENDING: the granule and the command's bundle. Where it touches granules
of several commands, R222 does not say which one the record names: here the first K command in the order of issue, then
the gangs by number, and its lowest granule (DESIGN CHOICE, log entry 90). -/
def pendingHit (k : Core) (ag : Agent) (handle off len : Nat) (store : Bool) : Option (Nat × Nat) :=
  let w := k.cfgAt rDBGMEM
  if !w.getLsbD 0 then none
  else (pendCmds k).findSome? (fun p =>
    if p.named ag handle || ownCmd k ag p then none
    else
      match hitGranule (if store && w.getLsbD 1 then p.wr ++ p.rd else p.wr) off len with
      | some g => some (g, p.baddr)
      | none => none)

/-- The PENDING trap of R222, if there is one. -/
def pendingStop (e : Env) (k : Core) (t : Trap) (handle off len : Nat) (store : Bool) : Option Stop :=
  (pendingHit k e.who handle off len store).map (fun p =>
    .trap { t with cause := .pending, faddr := p.1, baddr := p.2 })

end Sys2Proof.Machine
end

