-- ==== Sys2Proof/Machine/Bundle.lean ====
section
/-! DEFINITION. A bundle: its fetch (R66), its issue all-or-nothing (R47, R60 to R65), the loop nest
that replays bundles (R286), and the reservation of unpick-log entries (R302, R303). -/
namespace Sys2Proof.Machine

/-! ## Fetch (R66) -/

/-- A line of code of the core's bundle cache, or of memory (R219). -/
def fetchLine (s : State) (c line : Nat) (t0 : Trap) : Rd :=
  match (s.core c).bcache.find? (·.1 == line) with
  | some e => .bytes e.2
  | none => gmLoad s c none (line * 64) 64 .bfetch t0

/-- Code bytes from an address, within two lines; the address a fault names is the first byte of
the range in the faulting line. -/
def fetchBytes (s : State) (c va n : Nat) (t0 : Trap) : Rd :=
  let go := fun (line : Nat) => fetchLine s c line t0
  match go (va / 64) with
  | .wait t => .wait t
  | .stop (.trap t) => .stop (.trap { t with faddr := va })
  | .stop st => .stop st
  | .bytes b0 =>
    if (va + n - 1) / 64 = va / 64 then .bytes ((b0.drop (va % 64)).take n)
    else
      match go (va57 ((va / 64 + 1) * 64) / 64) with
      | .bytes b1 => .bytes (((b0 ++ b1).drop (va % 64)).take n)
      | r => r

/-- R219: the bundle cache holds 1,024 lines. -/
def keepLine (cap : Nat) (m : Map (List Byte)) (line : Nat) (bs : List Byte) : Map (List Byte) :=
  mset (if m.length < cap then m else m.drop 1) line bs

def cacheLine (s : State) (c line : Nat) : State :=
  match fetchLine s c line { cause := .illegal } with
  | .bytes bs => s.modCore c (fun k => { k with bcache := keepLine 1024 k.bcache line bs })
  | _ => s

/-- The translation that an access used stays with the core (R216). -/
def keepVa (s : State) (c va : Nat) (a : Acc) : State :=
  match xlate s c va a with
  | .ok t => keepTrans s c t
  | .error _ => s

/-- Lines and translations of a fetched range are kept. -/
def cacheFetch (s : State) (c va n : Nat) : State :=
  let l1 := va57 (va + n - 1) / 64
  let s1 := keepVa (cacheLine s c (va / 64)) c va .bfetch
  keepVa (cacheLine s1 c l1) c (va57 (va + n - 1)) .bfetch

/-- A fetch that waits for a remote line asks for it. -/
def askFetch (s : State) (c va n : Nat) : State :=
  let ask := fun (s : State) (line : Nat) =>
    match fetchLine s c line { cause := .illegal } with
    | .wait t => askLoad s c none t (line * 64) 64 0
    | _ => s
  ask (ask s (va / 64)) (va57 (va + n - 1) / 64)

/-- What a fetch at an address finds. -/
inductive Fetched where
  | bundle (b : RawBundle) (len : Nat)
  | badHeader (w : Nat)
  | stop (st : Stop)
  | wait (len : Nat)
  deriving DecidableEq, Repr

/-- The frame of a bundle-fetch trap: SLOT 6, the bundle that BADDR names (R330). -/
def fetchTrap (baddr : Nat) : Trap := { cause := .illegal, slot := 6, baddr := baddr, acc := 3 }

/-- The header of a bundle. -/
inductive HeaderAt where
  | ok (h : Header)
  | bad (w : Nat)
  | stop (st : Stop)
  | wait

/-- The header at an address: its two bytes are fetched, and nothing beyond them. A bundle lies on a 2-byte
boundary (R66). -/
def fetchHeader (s : State) (c va : Nat) (t0 : Trap) : HeaderAt :=
  if va % 2 = 1 then .stop (.trap { t0 with cause := .ialign, faddr := va, acc := 0 })
  else
    match fetchBytes s c va 2 t0 with
    | .wait _ => .wait
    | .stop st => .stop st
    | .bytes hb =>
      match headerOf (BitVec.ofNat 16 (leNat hb)) with
      | .error _ => .bad (leNat hb)
      | .ok h => .ok h

/-- The bundle at an address. The header decides before anything beyond it is fetched. -/
def fetchBundle (s : State) (c va : Nat) (t0 : Trap) : Fetched :=
  match fetchHeader s c va t0 with
  | .wait => .wait 2
  | .stop st => .stop st
  | .bad w => .badHeader w
  | .ok h =>
    match fetchBytes s c va h.length t0 with
    | .wait _ => .wait h.length
    | .stop st => .stop st
    | .bytes bs => .bundle (cutBundle h (bs.drop 2)) h.length

/-- R286: the address after n bundles, found from their headers. -/
def skipBundles (s : State) (c : Nat) (t0 : Trap) : Nat → Nat → Except (Option Stop × Nat) Nat
  | 0, va => .ok va
  | n + 1, va =>
    match fetchHeader s c va t0 with
    | .ok h => skipBundles s c t0 n (va57 (va + h.length))
    | .bad w => .error (some (.trap { t0 with cause := .illegal, w0 := w64 w, faddr := 0 }), va)
    | .stop st => .error (some st, va)
    | .wait => .error (none, va)

/-! ## The loop nest (R284 to R288) -/

def lsRun (w : W64) : Bool := w.getLsbD 63
def lsRall (w : W64) : Bool := w.getLsbD 62
def lsRot (w : W64) : Bool := w.getLsbD 61
def lsStages (w : W64) : Nat := gf w 58 3 + 1
def lsLevels (w : W64) : Nat := gf w 55 3 + 1
def lsBodym1 (w : W64) : Nat := gf w 49 6
def lsBpos (w : W64) : Nat := gf w 43 6

def Core.lstat (k : Core) : W64 := k.cfgAt rLSTAT
def Core.ldim (k : Core) (l : Nat) : W64 := k.cfgAt (rLDIM + l)

/-- The product T of the trip counts of levels 0 to L − 1. -/
def tripCount (k : Core) (levels : Nat) : Nat :=
  ((List.range levels).map (fun l => gf (k.ldim l) 0 32)).foldl (· * ·) 1

/-- clamp(p − LAG, 0, T − 1). -/
def clampIter (p lag t : Nat) : Nat := if t - 1 < p - lag then t - 1 else p - lag

/-- The index of each level for iteration n, after reversal. -/
def levelIdx (k : Core) (rall : Bool) : Nat → List Nat → List Nat
  | _, [] => []
  | n, l :: ls =>
    let cnt := gf (k.ldim l) 0 32
    let idx := n % cnt
    (if (k.ldim l).getLsbD 32 != rall then cnt - 1 - idx else idx) :: levelIdx k rall (n / cnt) ls

/-- R286: iter_value. -/
def iterValue (k : Core) (levels : Nat) (rall : Bool) (i n : Nat) : W64 :=
  ((levelIdx k rall n (List.range levels)).zipIdx).foldl
    (fun v (x : Nat × Nat) => v + w64 x.1 * k.cfgAt (rISTR + 8 * i + x.2)) (k.cfgAt (rITER + i))

/-- R286: start_pass. -/
def startPass (k : Core) (p : Nat) : Core :=
  let ls := k.lstat
  let t := tripCount k (lsLevels ls)
  let k1 := (List.range 8).foldl (fun k i =>
    let w := k.cfgAt (rITCFG + i)
    if w.getLsbD 12 then
      k.setS (gf w 0 5) (iterValue k (lsLevels ls) (lsRall ls) i (clampIter p (gf w 9 3) t))
    else k) k
  (List.range (lsStages ls)).foldl (fun k st => k.setQ st (decide (st ≤ p ∧ p < t + st))) k1

/-- R286: the end of a body bundle: the next position, the next pass, or the end of the nest. -/
def loopEnd (k : Core) (next : Nat) : Core :=
  let ls := k.lstat
  if lsBpos ls < lsBodym1 ls then k.setCfg rLSTAT (sf ls 43 6 (lsBpos ls + 1))
  else
    let p := gf (k.cfgAt rLPASS) 0 49
    let passes := tripCount k (lsLevels ls) + lsStages ls - 1
    let k1 := if lsRot ls then
        k.modCfg rVROT (fun w => sf w 0 7 (gf w 0 7 + 127)) else k
    if p + 1 = passes ∨ k1.exitPending then
      let k2 := (List.range (lsStages ls)).foldl (fun k st => k.setQ st true) k1
      { (k2.setCfg rLSTAT (sf ls 63 1 0)) with exitPending := false, bpc := next }
    else
      let k2 := (k1.setCfg rLPASS (w64 (p + 1))).setCfg rLSTAT (sf ls 43 6 0)
      { startPass k2 (p + 1) with bpc := gf (k.cfgAt rLBEG) 1 56 * 2 }

/-! ## The unpick log (R302, R303) -/

/-- An entry to be written. A payload part without its bytes is filled later; a producer is 0 for
none, 1 for the entry itself, else the producing entry's address. -/
structure LogRec where
  cls : Nat
  opc : Nat
  w0 : W64
  w1 : W32
  scals : List W64
  pa : List Nat
  ps : List Nat
  sv : Nat
  rc : Nat
  prods : List Nat
  payload : List (Nat × Option (List Byte))
  fmtrec : W64
  wrote : List (Nat × Nat)     -- ring slots that the command writes (R305)

def LogRec.len (r : LogRec) : Nat := 2 + (r.payload.map (fun p => (p.1 + 63) / 64)).sum

def pad64 (n : Nat) (bs : List Byte) : List Byte :=
  bs ++ List.replicate ((n + 63) / 64 * 64 - bs.length) 0

def chunks64 (bs : List Byte) : List (List Byte) :=
  (List.range ((bs.length + 63) / 64)).map (fun i => (bs.drop (64 * i)).take 64)

/-- R303: a write of the log writer, unit by unit. A fault on it is fatal. -/
def logWrite (s : State) (c : Nat) (t0 : Trap) (va : Nat) : List (List Byte) → State
  | [] => s
  | bs :: rest =>
    match xlate s c va .write with
    | .error _ => raiseTrap s c { t0 with cause := .logfault, async := true }
    | .ok t =>
      if t.loc = 2 || heldByMove s (t.pa va) bs.length || cxlDown s (t.pa va) then logWrite (bufferStore s c logAgent noHandle .gm va t bs) c t0 (va + 64) rest
      else if violates s (s.core c).ctx (t.pa va) bs.length then
        freezeMaster s 1 (4 * c) (t.pa va) 1 (s.core c).ctx ((s.core c).cfgAt rMPOS)
      else logWrite (keepTrans (physWrite s (t.pa va) bs) c t) c t0 (va + 64) rest

/-- Where each payload part of an entry begins (R303). -/
def payloadAt (entry : Nat) : List Nat → List Nat
  | lens => (lens.foldl (fun (acc : List Nat × Nat) n =>
      (acc.1 ++ [acc.2], acc.2 + (n + 63) / 64 * 64)) ([], entry + 128)).1

def le8 (n : Nat) : List Byte := leBytes 8 n

/-- The 128 bytes of an entry's header. -/
def headerBytes (k0 : Core) (base ctl : Nat) (r : LogRec) (entry : Nat) : List Byte :=
  let logb := gf (k0.cfgAt rLOGB) 6 51
  let pr := fun (n : Nat) =>
    match r.prods.getD n 0 with
    | 0 => 0
    | 1 => (entry / 64 - logb) % 2 ^ 21
    | a => (a / 64 - logb) % 2 ^ 21
  let pack := fun (l : List Nat) (w : Nat) =>
    l.getD 0 0 % 2 ^ w + l.getD 1 0 % 2 ^ w * 2 ^ w + l.getD 2 0 % 2 ^ w * 2 ^ (2 * w)
  le8 ctl ++ le8 base ++ le8 r.w0.toNat ++ le8 r.w1.toNat ++
  (List.range 6).flatMap (fun n => le8 (r.scals.getD n 0).toNat) ++
  le8 (if lsRun k0.lstat then gf (k0.cfgAt rLPASS) 0 49 else 0) ++
  le8 (gf (k0.cfgAt rVROT) 0 7 + gf (k0.cfgAt rQPRED) 0 8 * 256) ++
  le8 (pack r.pa 20) ++ le8 (pack r.ps 5) ++
  le8 (pr 0 + pr 1 * 2 ^ 21 + pr 2 * 2 ^ 42) ++ le8 r.fmtrec.toNat

def logpAddr (w : W64) : Nat := gf w 6 51 * 64

/-- R303: an entry reserves its space, its header is written, and what of its payload is at hand.
The answer names the entry and its CTL word. -/
def reserveLog (e : Env) (s : State) (t0 : Trap) (r : LogRec) : State × (Nat × W64) :=
  let k := s.core e.c
  let entry := logpAddr (k.cfgAt rLOGP)
  let ne := (k.cfgAt rLOGSTAT).getLsbD 62
  let done := r.payload.all (fun p => p.2.isSome)
  let ctl := r.cls * 2 ^ 61 + r.opc * 2 ^ 54 + bitOf (lsRun e.k.lstat) * 2 ^ 52 + r.len * 2 ^ 36 +
    (if ne then k.lastLen else 0) * 2 ^ 20 + r.sv * 2 ^ 16 + r.rc * 2 ^ 12
  let ctl' := if done then ctl + 2 ^ 53 else ctl
  let kept := k.producers.filter (fun p => !r.wrote.contains (p.1, p.2.1))
  let k1 := { (k.modCfg rLOGP (fun w => sf w 6 51 (entry / 64 + r.len))) with
              lastLen := r.len,
              producers := r.wrote.map (fun (x : Nat × Nat) => (x.1, x.2, entry)) ++ kept }
  let k2 := k1.setCfg rLOGSTAT (sf (sf (k.cfgAt rLOGSTAT) 62 1 1) 6 51 (entry / 64))
  let s1 := logWrite (s.setCore e.c k2) e.c t0 entry (chunks64 (headerBytes e.k e.base ctl' r entry))
  let parts := (r.payload.zip (payloadAt entry (r.payload.map (·.1))))
  (parts.foldl (fun s p =>
    match p.1.2 with
    | some bs => logWrite s e.c t0 p.2 (chunks64 (pad64 p.1.1 bs))
    | none => s) s1, (entry, w64 ctl))

/-- R303: a payload part that was saved later, and DONE when `last`. -/
def logFill (s : State) (c : Nat) (t0 : Trap) (entry : Nat) (ctl : W64) (off : Nat) (bs : List Byte)
    (last : Bool) : State :=
  let s1 := logWrite s c t0 (entry + off) (chunks64 (pad64 bs.length bs))
  if last then logWrite s1 c t0 entry [le8 (sf ctl 53 1 1).toNat] else s1

/-! ## Slots -/

/-- What a decoded slot does: the legality that depends on the pricking table, when it is ready,
what it polls while its bundle waits, its issue-time checks, its log entry, its effect, and what
follows once the bundle has taken its effect, and whether it takes a gang slot. `cls` is the SLOT code of R330. -/
structure SlotSem where
  cls : Nat
  guard : Guard
  i : Instr
  legal : Core → Bool := fun _ => true
  ready : Env → State → Bool := fun _ _ => true
  poll : Env → State → Bool → State := fun _ s _ => s
  check : Env → State → Option Stop := fun _ _ => none
  log : Env → State → Option LogRec := fun _ _ => none
  eff : Env → State → State
  post : Env → State → State := fun _ s => s
  weight : Env → Nat := fun _ => 0
  gang : Core → Bool := fun _ => false

/-- R60. -/
def SlotSem.enabled (k : Core) (x : SlotSem) : Bool := !x.guard.spe || k.q x.guard.qsel.toNat

/-- R94: record mode from the M slot of the bundle onwards. -/
def recording (k : Core) (l : List SlotSem) : Bool :=
  if l.any (fun x => match x.i with | .recon _ => true | _ => false) then true
  else if l.any (fun x => match x.i with | .recoff _ => true | _ => false) then false
  else (k.cfgAt rLOGSTAT).getLsbD 63

def firstSome {α : Type} : List (Option α) → Option α
  | [] => none
  | some a :: _ => some a
  | none :: rest => firstSome rest

/-- The slots of one class. -/
def ofClass (l : List SlotSem) (n : Nat) : List SlotSem := l.filter (·.cls == n)

def runEff (e : Env) (logs : List (Nat × Nat × W64)) (l : List SlotSem) (s : State) : State :=
  l.foldl (fun s x => x.eff { e with logAt := (logs.find? (·.1 == x.cls)).map (·.2) } s) s

/-- R303: the entries of the bundle's slots in the order M, V, K, S. -/
def logSlots (e : Env) : List SlotSem → State → State × List (Nat × Nat × W64)
  | [], s => (s, [])
  | x :: xs, s =>
    match x.log e s with
    | none => logSlots e xs s
    | some r =>
      let (s1, a) := reserveLog e s (e.trap x.i x.cls) r
      let (s2, rest) := logSlots e xs s1
      (s2, (x.cls, a) :: rest)

/-- R303: the units that the bundle's entries need, and the first slot that is logged. -/
def logNeed (e : Env) (s : State) (l : List SlotSem) : Nat × Option SlotSem :=
  let rs := l.filterMap (fun x => (x.log e s).map (fun r => (r.len, x)))
  ((rs.map (·.1)).sum, rs.head?.map (·.2))

/-- Whether the sequencer of a core is live: R332's skid, R135's ended motif, the freeze of R352, a
selvedge stop. -/
def seqLive (s : State) (c : Nat) : Bool :=
  let k := s.core c
  !k.frozen && !k.ended && !k.seqStopped && !k.selvedge &&
  (match s.motifOn c with
   | none => false
   | some m =>
     match m.st with
     | .running | .preempting => true
     | .halting => decide (k.skid < 2)
     | _ => false)

/-- R91, R268: a barrier, or transfers of a motif that has come back, hold the next bundle back. -/
def seqHeld (k : Core) : Bool :=
  k.arrived.isSome || k.first.any (fun i => k.kcmds.any (fun x => x.id == i))

/-- Whether it may issue: nothing holds its next bundle back, and the power budget lets the core move
(R246). -/
def seqCanIssue (s : State) (c : Nat) : Bool :=
  let k := s.core c
  seqLive s c && !seqHeld k && (gf (k.cfgAt rPLIM) 0 16 == 0 || decide (0 < k.credit))

/-- R345, R289: whether the next bundle is a selvedge point. -/
def selvHere (k : Core) (selv : Bool) : Bool := selv && (!lsRun k.lstat || lsStages k.lstat == 1)

/-- What issuing a bundle counts on its core: the skid of a halt (R332), the weight that the power
budget pays for (R245); a wait and a step-over end with it. -/
def countCore (w : Nat) (k : Core) : Core :=
  { k with skid := if k.halt.isSome then k.skid + 1 else k.skid, weight := k.weight + 1 + w,
           stepOver := false, waitsFrom := none, waitsDue := false, waitsOn := none, waitsHeld := false }

/-- A V slot takes so many cycles of its interval, each of which the power budget pays for (R125, R245). -/
def Core.vBusy (n : Nat) (k : Core) : Core := { k with vcyc := k.vcyc + n }

/-- The sequencer has issued a bundle. -/
def countBundle (s : State) (c w : Nat) : State := s.modCore c (countCore w)

/-- R286: a bundle of the body of a running nest moves the nest on. -/
def nestEnd (running : Bool) (next : Nat) (k : Core) : Core := if running then loopEnd k next else k

/-- The effects of a bundle whose slots are ready and have passed their checks (R47). The log entries of K and S are
made behind the effect of V, whose stores they save (R303, R305). -/
def effBundle (e : Env) (l : List SlotSem) (s : State) : State :=
  let s0 := s.modCore e.c (·.setBpc e.next)
  let s1 := runEff e [] (ofClass l 0) s0
  let log := fun (ns : List Nat) (s : State) =>
    if recording e.k l then logSlots e (ns.flatMap (ofClass l)) s else (s, [])
  let (s2, logs1) := log [1, 2] s1
  let (s3, logs2) := log [3, 4] (runEff e logs1 (ofClass l 2) s2)
  let logs := logs1 ++ logs2
  let s4 := s3.modCore e.c (nestEnd (lsRun e.k.lstat) e.next)
  let s5 := runEff e logs (ofClass l 1 ++ ofClass l 3 ++ ofClass l 4) s4
  let s6 := countBundle s5 e.c ((l.map (fun x => x.weight e)).sum)
  l.foldl (fun s x => x.post e s) s6

def isDrain : Instr → Bool
  | .mdrain _ => true
  | _ => false

def isSst : Instr → Bool
  | .sst _ _ _ _ _ _ => true
  | _ => false

def isForkJoin : Instr → Bool
  | .fork _ _ _ | .join _ _ _ => true
  | _ => false

/-- What the enabled slots of a bundle see of one another: an MDRAIN (R241), an SST, a FORK or JOIN (R88), and how
many of them take a gang slot (R142). -/
def marked (e : Env) (l : List SlotSem) : Env :=
  { e with drain := l.any (fun x => isDrain x.i), cStore := l.any (fun x => isSst x.i),
           cHandles := (l.map (·.i)).find? isForkJoin,
           gangNeed := (l.filter (fun x => x.gang e.k)).length }

/-- R62 to R65: the bundle waits, traps, or issues as a whole. -/
def issueSlots (e : Env) (slots : List SlotSem) (s : State) : State :=
  match slots.find? (fun x => !x.legal e.k) with
  | some x => raiseTrap s e.c { e.trap x.i x.cls with cause := .illegal }
  | none =>
    let l := slots.filter (SlotSem.enabled e.k)
    let e := marked e l
    if !l.all (fun x => x.ready e s) then
      l.foldl (fun s' x => x.poll e s' (l.all (fun y => y.cls == x.cls || y.ready e s))) s
    else
      match firstSome (l.map (fun x => x.check e s)) with
      | some st => takeStop s e.c st
      | none =>
        let order := ofClass l 1 ++ ofClass l 2 ++ ofClass l 3 ++ ofClass l 4
        let (need, who) := if recording e.k l then logNeed e s order else (0, none)
        match who with
        | some x =>
          if logpAddr (e.k.cfgAt rLOGP) + 64 * need > logpAddr (e.k.cfgAt rLOGL) then
            raiseTrap s e.c { e.trap x.i x.cls with cause := .logfull }
          else effBundle e l s
        | none => effBundle e l s

/-- R345: the sequencer stops at a selvedge point when a pre-emption is requested, but inside an UNPICK only between
its entries (R318); otherwise the bundle at BPC issues. Where the sequencer may not issue, nothing happens. -/
def issueBundle (c : Nat) (selv : Bool) (len : Nat) (slots : List SlotSem) (s : State) : State :=
  let k := s.core c
  let e : Env := { c := c, who := .seq, pre := s, base := k.bpc, next := va57 (k.bpc + len) }
  if !seqLive s c then s
  else if selvHere k selv && k.upk.isNone && ((s.motifOn c).map (·.st)) == some .preempting then
    s.modCore c (fun k => { k with selvedge := true })
  else if !seqCanIssue s c then s
  else issueSlots e slots s

/-- The core whose sequencer or gang moves. -/
def Focus.core : Focus → Nat
  | .seq c => c
  | .gang c _ => c

/-- The length of a bundle with one slot (R57). -/
def oneLen (cls : Nat) : Nat :=
  match cls with
  | 0 => 6
  | 3 => 14
  | _ => 10

/-- An instruction alone in the bundle at BPC of the sequencer that moves. -/
def issueOne (x : SlotSem) (s : State) : Out :=
  .next (issueBundle s.focus.core false (oneLen x.cls) [x] s)

end Sys2Proof.Machine
end

