-- ==== Sys2Proof/Machine/Stitch.lean ====
section
/-! DEFINITION. The pricking table (R140, R141, R149) and the dispatch of stitch routines and library
operations onto gangs (R142 to R148). -/
namespace Sys2Proof.Machine

/-! ## Pricking entries -/

/-- R149: the reset entry of an opcode. -/
def prickReset (opc : Nat) : Prick :=
  let hard := fun (eng : Nat) => (
    { kind := 1, inpl := false, fibm1 := 0, regm1 := 0, gpri := 0, use := 0, outp := 0, eng := eng,
      entry := 0, adj := 0 } : Prick)
  let lib := fun (use outp : Nat) => { hard 4 with fibm1 := 31, regm1 := 63, use := use, outp := outp }
  if 0x20 ≤ opc ∧ opc ≤ 0x2F then hard 1
  else if 0x38 ≤ opc ∧ opc ≤ 0x3F then hard 2
  else if 0x48 ≤ opc ∧ opc ≤ 0x4E then hard 3
  else if opc = 0x60 ∨ opc = 0x63 ∨ opc = 0x64 ∨ opc = 0x66 then lib 3 1
  else if opc = 0x65 then lib 7 3
  else if 0x60 ≤ opc ∧ opc ≤ 0x67 then lib 7 1
  else { hard 0 with kind := 0 }

def Core.prickAt (k : Core) (opc : Nat) : Prick := mget prickReset k.prick opc

/-- R140: an entry from the first three words of its image. -/
def prickParse (ctl entry adj : W64) : Prick :=
  { kind := gf ctl 62 2, inpl := ctl.getLsbD 61, fibm1 := gf ctl 56 5, regm1 := gf ctl 48 8,
    gpri := gf ctl 46 2, use := gf ctl 43 3, outp := gf ctl 40 3, eng := gf ctl 36 4,
    entry := gf entry 0 57, adj := adj }

/-- R140: the image of an entry. -/
def prickImage (p : Prick) : List W64 :=
  [w64 (p.kind * 2 ^ 62 + bitOf p.inpl * 2 ^ 61 + p.fibm1 * 2 ^ 56 + p.regm1 * 2 ^ 48 +
     p.gpri * 2 ^ 46 + p.use * 2 ^ 43 + p.outp * 2 ^ 40 + p.eng * 2 ^ 36),
   w64 p.entry, p.adj, 0]

/-- R314: an ADJ word that breaks its rules. -/
def adjBad (adj : W64) : Bool :=
  gf adj 57 5 != 0 ||
  (if gf adj 62 2 = 1 then gf adj 0 57 == 0 || gf adj 0 57 % 32 != 0 else gf adj 0 57 != 0)

/-- R141: the BADENTRY cases of an image. -/
def imageBad (opc : Nat) (ctl entry adj rsv : W64) : Bool :=
  let p := prickParse ctl entry adj
  p.kind == 3 || gf ctl 0 36 != 0 || gf entry 57 7 != 0 || rsv != 0 || adjBad adj ||
  p.outp &&& p.use != p.outp ||
  (p.kind == 1 && ((prickReset opc).kind != 1 || p.eng != (prickReset opc).eng)) ||
  (p.kind == 2 && (p.entry == 0 || p.entry % 8 != 0))

/-- R71: whether a mode may bind an opcode. -/
def mayBind (priv : Bool) (opc : Nat) : Bool :=
  decide (0x70 ≤ opc) || (priv && decide (0x20 ≤ opc ∧ opc < 0x68))

/-- R71: the kinds that an opcode admits: a free opcode only a routine. -/
def bindStatus (priv : Bool) (opc : Nat) (ctl entry adj rsv : W64) : Nat :=
  if !mayBind priv opc then 1 else if imageBad opc ctl entry adj rsv then 2 else 0

/-- R141: the entry that a BIND leaves: KIND 01 restores the reset entry but for ADJ. -/
def boundEntry (opc : Nat) (p : Prick) : Prick :=
  if p.kind = 1 then { prickReset opc with adj := p.adj } else p

/-- An unbound entry. -/
def prickNone : Prick :=
  { kind := 0, inpl := false, fibm1 := 0, regm1 := 0, gpri := 0, use := 0, outp := 0, eng := 0, entry := 0, adj := 0 }

/-- R140, R357: the entry that an image leaves which is checked as a BIND in a mode: one that BIND would refuse
is loaded as unbound. -/
def checkedEntry (priv : Bool) (opc : Nat) (ws : List W64) : Prick :=
  let w := fun n => ws.getD n 0
  if bindStatus priv opc (w 0) (w 1) (w 2) (w 3) = 0 then boundEntry opc (prickParse (w 0) (w 1) (w 2)) else prickNone

/-! ## Ports and descriptors (R142, R69) -/

/-- R142, R68: the descriptor checks at decode. -/
def descsLegal (p : Prick) (ds : List Desc) : Bool :=
  (ds.zipIdx).all (fun x => if hasBit p.use x.2 then descOk x.1 else x.1 == 0)

/-- The ports t0 to t2 with their ring slots. -/
def portsOf (k0 : Core) (p : Prick) (ds : List Desc) : List (Port × Option (Nat × Nat)) :=
  (ds.zipIdx).map (fun x =>
    if hasBit p.use x.2 then
      let w := k0.cb (descH x.1)
      let out := hasBit p.outp x.2
      let slot := if out then dstSlot w x.1 else srcSlot w x.1
      ({ base := slotAddr w slot, size := cbSlotBytes w, out := out }, some (descH x.1, slot))
    else ({ base := 0, size := 0, out := false }, none))

/-- R211: the stitch scratch of a gang, port t3: it is no output of the command (R145), and may be written
(R187). -/
def scratchPort (k : Core) (g : Nat) : Port :=
  if k.scratch = 0 then { base := 0, size := 0, out := false }
  else { base := k.share - (g + 1) * k.scratch, size := k.scratch, out := false }

/-- The rings of a command's descriptors: as outputs, and as inputs. -/
def outRings (p : Prick) (ds : List Desc) : List Nat :=
  ((ds.zipIdx).filter (fun x => hasBit p.use x.2 && hasBit p.outp x.2)).map (fun x => descH x.1)
def inRings (p : Prick) (ds : List Desc) : List Nat :=
  ((ds.zipIdx).filter (fun x => hasBit p.use x.2 && !hasBit p.outp x.2)).map (fun x => descH x.1)

/-- R64, R69: the slots that the descriptors wait for. A ring that is not VALID keeps no bundle
waiting: it traps CBUF (R67). -/
def descsReady (k : Core) (p : Prick) (ds : List Desc) : Bool :=
  (ds.zipIdx).all (fun x =>
    let w := k.cb (descH x.1)
    !hasBit p.use x.2 || !cbValid w ||
      (if hasBit p.outp x.2 then dstReady w x.1 else srcReady w x.1))

/-! ## Library parameters (R148) -/

structure LibPar where
  n : Nat
  cols : Nat
  rows : Nat
  fmt : Option Fmt

def libPar (p : W64) : LibPar :=
  { n := gf p 48 16, cols := gf p 32 16, rows := gf p 16 16, fmt := fmtOfCode (gf p 0 6) }

/-- R148: the formats of an operation. -/
def libFmtOk (opc : Nat) (f : Fmt) : Bool :=
  match opc with
  | 0x60 => fmtIsVec f
  | 0x61 | 0x62 => f != .fp32x
  | 0x65 | 0x66 => f == .fp32 || f == .int32
  | _ => f == .fp32

/-- The bytes that each port needs. -/
def libBytes (opc : Nat) (a : LibPar) (sz : Nat) : List Nat :=
  let m := a.rows * a.cols * sz
  match opc with
  | 0x61 => [m, a.n * a.cols * sz, a.rows * 4]
  | 0x62 => [a.n * a.cols * sz, m, a.rows * 4]
  | 0x65 => [a.rows * a.n * 4, a.rows * a.n * 4, m]
  | 0x67 => [a.n * 4, m, m]
  | _ => [m, m, 0]

/-- R148: LIBPARAM. COLS above 512 is none of its cases; tree_sum then has more leaves (DESIGN CHOICE, log entry
90). -/
def libBad (opc : Nat) (p : W64) (sizes : List Nat) : Bool :=
  let a := libPar p
  gf p 6 10 != 0 || a.rows == 0 || a.cols == 0 ||
  (match a.fmt with
   | none => true
   | some f => !libFmtOk opc f ||
      ((libBytes opc a (fmtSize f)).zipIdx).any (fun x => decide (sizes.getD x.2 0 < x.1)))

/-! ## Gangs -/

/-- R155: the allotment of registers per gang slot. -/
def allotment (gangs : Nat) : Nat :=
  if gangs ≤ 2 then 256 else if gangs = 3 then 160 else 128

/-- R154: GWINn as the motif reads it. While the gang is FREE the whole of it reads 0, where R154 says so of BOUND
alone (DESIGN CHOICE, log entry 88). -/
def gwin (k : Core) (n : Nat) : W64 :=
  let g := k.gangAt n
  if g.st = .free then 0 else w64 (g.base * 2 ^ 32 + g.bound * 2 ^ 16 + g.res)

/-- The lowest FREE gang slot of the motif. -/
def freeGang (k : Core) : Option Nat :=
  (List.range k.gangs).find? (fun g => (k.gangAt g).st == .free)

/-- How many gang slots of the motif are FREE. -/
def freeGangs (k : Core) : Nat := ((List.range k.gangs).filter (fun g => (k.gangAt g).st == .free)).length

/-- R144: a nested issue of a gang waits for a FREE gang. -/
def waitsForGang (x : Gang) : Bool := x.nested.any (·.forGang)
def nestedWait (k : Core) : Bool := (List.range 4).any (fun g => waitsForGang (k.gangAt g))

/-- R142: the fibres that start, with the predicate word of R142. -/
def newFibres (st : FibreSt) (f pc stamp seed : Nat) : Map Fibre :=
  (List.range f).map (fun l => (l, { pc := pc, k := 0x7F, st := st, arrived := .no,
                                     stamp := stamp, seeds := [(0, seed)] }))

/-- R142: g0 to g4 of each fibre, and g5 where UNPICK passes a pair. -/
def startRegs (f bound : Nat) (sa g45 : W64) (pair : Bool) : Map W32 :=
  (List.range f).flatMap (fun l =>
    ([(0, sa.setWidth 32), (1, (sa >>> 32).setWidth 32), (2, w32 l), (3, w32 f),
      (4, g45.setWidth 32)] ++ (if pair then [(5, (g45 >>> 32).setWidth 32)] else [])
      : List (Nat × W32)).filterMap
      (fun x => if x.1 < bound then some (regKey l x.1, x.2) else none))

/-- R142, R149: a gang slot receives a command, and its fibres start. The fibres of library code are WAITING:
they run the device's own lane code, whose whole effect is the S_COMMAND_COMPLETION of the model (log entry
14). Nothing of what the slot's last routine left is theirs (R290). -/
def startGang (s : State) (c g depth : Nat) (cmd : SCmd) : State :=
  let (seed, s1) := freshSeed s
  let k := s1.core c
  let p := cmd.entry
  let f := if p.fibm1 + 1 < k.fcap then p.fibm1 + 1 else k.fcap
  let a := allotment k.gangs
  let bound := p.regm1 + 1
  let x : Gang :=
    { Gang.empty with
      st := .running, depth := depth, gpri := p.gpri, bound := bound,
      res := if bound < a then bound else a, base := g * a,
      fibres := newFibres (if cmd.lib.isSome then .waiting else .ready) f p.entry 0 seed,
      regs := startRegs f bound cmd.sa cmd.g45 cmd.unpick,
      cmd := some cmd }
  s1.setCore c ({ k with hdeps := k.hdeps.filter (fun d => !ofGang g d.agent),
                         ahead := k.ahead.filter (fun r => !ofGang g r.agent),
                         failures := k.failures.filter (fun f => !ofGang g f.agent) }.setGang g x)

/-- A command for a gang from its word and ports. -/
def mkSCmd (k0 : Core) (g opc : Nat) (w0 : W64) (w1 : W32) (sa : W64) (baddr : Nat) (p : Prick)
    (ds : List Desc) (lib : Option Instr) (parent : Option (Nat × List Nat))
    (logAt : Option (Nat × W64)) : SCmd :=
  let ps := portsOf k0 p ds
  { opc := opc, w0 := w0, w1 := w1, sa := sa, baddr := baddr, entry := p, outs := outRings p ds,
    ins := inRings p ds, ports := ps.map (·.1) ++ [scratchPort k0 g],
    slots := ps.map (·.2) ++ [none], lib := lib, parent := parent, unpick := false,
    g45 := w1.setWidth 64, logAt := logAt }

/-! ## The log entry of an S command (R302 to R305) -/

/-- R330: the SLOT code of a slot class. -/
def slotCode : SlotClass → Nat
  | .c => 0 | .m => 1 | .v => 2 | .k => 3 | .s => 4

/-- R302: the CLASS code of a slot class. -/
def logClass (x : SlotClass) : Nat := slotCode x

def producerOf (k : Core) (ring slot : Nat) : Nat :=
  match k.producers.find? (fun p => p.1 == ring && p.2.1 == slot) with
  | some p => p.2.2
  | none => 0

def maskOf (l : List Nat) : Nat := (l.map (fun n => 2 ^ n)).sum

/-- The entry of a command that runs on a gang. Only the class S saves ports by their SRF; a rebound opcode of the
classes V, M and K saves nothing (R304; log entry 79). -/
def stitchLog (e : Env) (s : State) (opc : Nat) (w : W64 × W32) (sa : W64) (p : Prick)
    (ds : List Desc) : LogRec :=
  let ps := portsOf e.k p ds
  let k := s.core e.c
  let used := (List.range 3).filter (hasBit p.use)
  let srf := fun n => if opcClass opc = .s then descSrf (ds.getD n 0) else 0
  let out := hasBit p.outp
  let prod := fun n =>
    if srf n = 2 then
      (if out n then 1 else
        match (ps.getD n default).2 with
        | some (r, sl) => producerOf k r sl
        | none => 0)
    else 0
  let saved := used.filter (fun n => srf n == 1 || (srf n == 2 && prod n == 0))
  let rc := used.filter (fun n => prod n != 0)
  let port := fun n => (ps.getD n default).1
  { cls := logClass (opcClass opc), opc := opc, w0 := w.1, w1 := w.2, scals := [sa],
    pa := (List.range 3).map (fun n => (port n).base),
    ps := (List.range 3).map (fun n => (((ps.getD n default).2.map (·.2)).getD 0)),
    sv := maskOf saved, rc := maskOf rc,
    prods := (List.range 3).map (fun n => if rc.contains n then prod n else 0),
    payload := saved.map (fun n => ((port n).size,
      if out n then none else some (bytesAt k.ts (port n).base (port n).size))),
    fmtrec := 0,
    wrote := (used.filter (fun n => out n)).filterMap (fun n => (ps.getD n default).2) }

/-! ## The S slot (R142) -/

def sopDescs (o : SOp) : List Desc := [o.d0, o.d1, o.d2]

/-- A slot whose opcode is not carried out by a hard V, M or K engine: unbound, a stitch routine,
or a library operation. Every S slot waits for a gang (R64) and has descriptors, which decode checks against
USE (R142); a V, M or K slot has them only while its opcode is bound to a routine. The dispatch of a rebound
opcode weighs what an S dispatch does, which R245 leaves open (DESIGN CHOICE, log entry 91). -/
def semStitch (g : Guard) (opc : Nat) (o : SOp) (hi : BitVec 32) (i : Instr) : SlotSem :=
  let cls := slotCode (opcClass opc)
  let ds := sopDescs o
  let ent := fun (e : Env) => e.k.prickAt opc
  let isLib := fun (p : Prick) => p.kind == 1
  { cls := cls, guard := g, i := i,
    legal := fun k => ((k.prickAt opc).kind == 0 && cls != 4) || descsLegal (k.prickAt opc) ds,
    ready := fun e s =>
      let p := ent e
      let k := s.core e.c
      (p.kind == 0 && cls != 4) || ((freeGang k).isSome && decide (e.gangNeed ≤ freeGangs k) && !nestedWait k && descsReady k p ds &&
        marksFree k (inRings p ds) (outRings p ds)),
    check := fun e _ =>
      let p := ent e
      if p.kind = 0 then e.stop i cls .unbound
      else
        match (inRings p ds ++ outRings p ds).find? (fun h => !cbValid (e.k.cb h)) with
        | some _ =>
          (((ds.zipIdx).filter (fun x => hasBit p.use x.2)).find? (fun x =>
            !cbValid (e.k.cb (descH x.1)))).map (fun x => e.ringStop i cls (descH x.1) .cbuf)
        | none =>
          if isLib p && libBad opc (rdScal e o.sa) ((portsOf e.k p ds).map (·.1.size)) then
            e.stop i cls .libparam
          else none,
    log := fun e s => some (stitchLog e s opc (encWords i) (rdScal e o.sa) (ent e) ds),
    eff := fun e s =>
      match freeGang (s.core e.c) with
      | none => s
      | some n =>
        startGang s e.c n 1 (mkSCmd e.k n opc (encWords i).1 hi (rdScal e o.sa) e.base (ent e) ds
          (if isLib (ent e) then some i else none) none e.logAt),
    weight := fun _ => 8,
    gang := fun k => (k.prickAt opc).kind != 0 }

/-- A slot of a hard V, M or K opcode: its engine while the opcode is bound to it, else what its
binding makes of the same bits (R63, R71, R142). -/
def hardSlot (hard : SlotSem) (k : Core) (opc : Nat) : SlotSem :=
  if (k.prickAt opc).kind = 1 then hard
  else
    let w := encWords hard.i
    semStitch hard.guard opc
      ⟨fld w.1 11 5, fld w.1 16 16, fld w.1 32 16, fld w.1 48 16⟩ w.2
      (.stitchDispatch hard.guard (BitVec.ofNat 7 opc)
        ⟨fld w.1 11 5, fld w.1 16 16, fld w.1 32 16, fld w.1 48 16⟩ w.2)

/-- A hard instruction alone in a bundle. -/
def issueHard (x : SlotSem) (s : State) : Out :=
  issueOne (hardSlot x (s.core s.focus.core) ((encWords x.i).1.toNat % 128)) s

end Sys2Proof.Machine
end

