-- ==== Sys2Proof/Machine/Tiles.lean ====
section
/-! DEFINITION. Accumulator tiles and the frame of a motif: lazy saving and refilling (R343, R344),
and the frame's layout (R335, R338). -/
namespace Sys2Proof.Machine

/-- R335: the physical address of a motif's frame. -/
def frameOf (s : State) (m : Motif) : Option Nat :=
  match m.frame, (s.launch? m.launch).bind (fun l => s.context? l.ctx) with
  | some f, some x => some (x.frames + f * (3 * 2 ^ 20))
  | _, _ => none

abbrev frameRegs : Nat := 0x800
abbrev framePrick : Nat := 0x2000
abbrev frameTiles : Nat := 0x144000
abbrev frameOps : Nat := 0x1E4000
def gangFrame (fr g : Nat) : Nat := fr + 0x4000 + g * 0x50000
def tileFrame (fr t : Nat) : Nat := fr + frameTiles + t * 0x14000

/-- The bytes of a tile's configured area, and its guard bytes (R344). -/
def tileArea (k : Core) (w : W64) (t : Nat) : List Byte × List Byte :=
  let n := shapeRows w * shapeRowB w
  (bytesAt k.tiles (tileKey t 0) n, bytesAt k.guard (guardKey t 0) (n / 4))

/-- R343: whether a tile needs saving, by the registers and marks of the motif it belongs to. -/
def needsSave (k : Core) (t : Nat) : Bool :=
  shapeConf (k.shape t) && ((k.shape t).getLsbD 22 || !k.saved.contains t)

/-- A tile and its guard plane zeroed. -/
def zeroTile (k : Core) (t : Nat) : Core :=
  { k with tiles := mclear k.tiles (tileKey t 0) 65536, guard := mclear k.guard (guardKey t 0) 16384 }

/-- The tile's bytes into the frame, where DIRTY of its TSHAPE becomes 0 and all else that the driver has written
there stays (R337, R343). `own` holds the registers of the motif, `k` the tile's bytes. -/
def writeTile (s : State) (fr : Nat) (own k : Core) (t : Nat) : State × Core :=
  let (bs, gs) := tileArea k (own.shape t) t
  let w := sf (own.shape t) 22 1 0
  let s1 := physWrite (physWrite s (tileFrame fr t) bs) (tileFrame fr t + 0x10000) gs
  let a := fr + frameRegs + 8 * (rTSHAPE + t)
  (physWrite s1 a (leBytes 8 (sf (w64 (leNat (physRead s1 a 8))) 22 1 0).toNat),
   { own.setCfg (rTSHAPE + t) w with saved := t :: own.saved.filter (· != t) })

/-- R343: a tile that holds the bytes of a motif off this core is saved for it if it needs saving,
and zeroed. -/
def evictTile (s : State) (c t : Nat) : State :=
  match (s.core c).tags.find? (·.1 == t) with
  | none => s
  | some (_, id) =>
    let s1 :=
      match s.motif? id with
      | none => s
      | some m =>
        match m.saved, frameOf s m with
        | some own, some fr =>
          if needsSave own t then
            let (s1, own1) := writeTile s fr own (s.core c) t
            s1.setMotif { m with saved := some own1 }
          else s
        | _, _ => s
    s1.modCore c (fun k => { zeroTile k t with tags := k.tags.filter (·.1 != t) })

/-- R343: a tile is refilled from the frame, or as zero when it was never saved. -/
def refillTile (s : State) (c t : Nat) : State :=
  let k := s.core c
  if !k.refill.contains t then s
  else
    let k1 := { zeroTile k t with refill := k.refill.filter (· != t) }
    match (s.motifOn c).bind (frameOf s) with
    | none => s.setCore c k1
    | some fr =>
      if k.saved.contains t then
        let n := shapeRows (k.shape t) * shapeRowB (k.shape t)
        s.setCore c { k1 with
          tiles := putBytes k1.tiles (tileKey t 0) (physRead s (tileFrame fr t) n),
          guard := putBytes k1.guard (guardKey t 0) (physRead s (tileFrame fr t + 0x10000) (n / 4)) }
      else s.setCore c k1

/-- A tile that an instruction touches is brought to the motif: another motif's bytes are saved and
zeroed, the motif's own are refilled. -/
def bringTile (s : State) (c t : Nat) : State := refillTile (evictTile s c t) c t

def bringTiles (s : State) (c : Nat) (ts : List Nat) : State :=
  (ts.filter (tileAway (s.core c))).foldl (fun s t => bringTile s c t) s

/-- A slot that names tiles is ready when none is busy or away, and brings the tiles it waits for. -/
def tilesReady (k : Core) (ts : List Nat) : Bool := ts.all (tileReady k)

end Sys2Proof.Machine
end

