-- ==== Sys2Proof/Machine/Cslot.lean ====
section
/-! DEFINITION. The C slot (R72 to R98, R281 to R298, R301): scalars, control transfer, pointers,
configuration registers, waits, fences, handles, barriers, launches, bindings, recording, monitors,
the loop nest and system entry. -/
namespace Sys2Proof.Machine

/-! ## Scalar arithmetic (R76 to R79) -/

def lo32 (w : W64) : Nat := (w.setWidth 32).toNat

/-- R76: the result of a function and the flags of its FP32 forms. -/
def sopResult (fn : SopFn) (a b : W64) : W64 × Nat :=
  let sh := gf b 0 6
  let fl := fun (r : FR) => (w64 r.bits, r.flags)
  match fn with
  | .add => (a + b, 0)
  | .sub => (a - b, 0)
  | .mul => (a * b, 0)
  | .mulhs => (BitVec.ofInt 64 (a.toInt * b.toInt / 2 ^ 64), 0)
  | .mulhu => (w64 (a.toNat * b.toNat / 2 ^ 64), 0)
  | .divs => (BitVec.ofInt 64 (a.toInt.tdiv b.toInt), 0)
  | .divu => (a.udiv b, 0)
  | .rems => (BitVec.ofInt 64 (a.toInt.tmod b.toInt), 0)
  | .remu => (a.umod b, 0)
  | .and => (a &&& b, 0)
  | .or => (a ||| b, 0)
  | .xor => (a ^^^ b, 0)
  | .shl => (a <<< sh, 0)
  | .shr => (a >>> sh, 0)
  | .sra => (a.sshiftRight sh, 0)
  | .min => (if a.slt b then a else b, 0)
  | .max => (if a.slt b then b else a, 0)
  | .minu => (if a < b then a else b, 0)
  | .maxu => (if a < b then b else a, 0)
  | .fadd => fl (fadd .fp32 .rne 0 false (lo32 a) (lo32 b))
  | .fsub => fl (fsub .fp32 .rne 0 false (lo32 a) (lo32 b))
  | .fmul => fl (fmul .fp32 .rne 0 false (lo32 a) (lo32 b))
  | .fmin => (w64 (fmin .fp32 (lo32 a) (lo32 b)), 0)
  | .fmax => (w64 (fmax .fp32 (lo32 a) (lo32 b)), 0)

def sopDivides : SopFn → Bool
  | .divs | .divu | .rems | .remu => true
  | _ => false

/-- Slots of the C class. -/
def semC (g : Guard) (i : Instr) (eff : Env → State → State) : SlotSem :=
  { cls := 0, guard := g, i := i, eff := eff }

def semNop (g : Guard) : SlotSem := semC g (.nop g) (fun _ s => s)

def semSop (g : Guard) (fn : SopFn) (d a b : SReg) : SlotSem :=
  { semC g (.sop g fn d a b) (fun e s =>
      let r := sopResult fn (rdScal e a) (rdScal e b)
      wrScal e (s.modCore e.c (·.orFlags r.2)) d r.1) with
    check := fun e _ => e.checks (.sop g fn d a b) 0
      [(sopDivides fn && rdScal e b == 0, .divz)] }

def sopiResult (fn : SopiFn) (a : W64) (imm : BitVec 8) : W64 :=
  let b := imm.signExtend 64
  let sh := gf imm 0 6
  match fn with
  | .add => a + b
  | .and => a &&& b
  | .or => a ||| b
  | .xor => a ^^^ b
  | .shl => a <<< sh
  | .shr => a >>> sh
  | .sra => a.sshiftRight sh

def semSopi (g : Guard) (fn : SopiFn) (d a : SReg) (imm : BitVec 8) : SlotSem :=
  semC g (.sopi g fn d a imm) (fun e s => wrScal e s d (sopiResult fn (rdScal e a) imm))

def semSmovi (g : Guard) (d : SReg) (imm : BitVec 16) : SlotSem :=
  semC g (.smovi g d imm) (fun e s => wrScal e s d (imm.signExtend 64))

/-- R79. -/
def scmpResult (cc : ScmpCc) (a b : W64) : Bool :=
  let fa := decodeF .fp32 (lo32 a)
  let fb := decodeF .fp32 (lo32 b)
  match cc with
  | .eq => a == b
  | .ne => a != b
  | .lt => a.slt b
  | .ge => !a.slt b
  | .ltu => decide (a < b)
  | .geu => !decide (a < b)
  | .feq => fcc .eq fa fb
  | .flt => fcc .lt fa fb
  | .fle => fcc .le fa fb
  | .funord => fcc .un fa fb

def semScmp (g : Guard) (cc : ScmpCc) (imm : Bool) (qd : PReg) (a b : SReg) : SlotSem :=
  semC g (.scmp g cc imm qd a b) (fun e s =>
    wrPred e s qd (scmpResult cc (rdScal e a) (if imm then b.signExtend 64 else rdScal e b)))

/-! ## Scalar loads and stores (R81) -/

def sizeBytes : Size → Nat
  | .b8 => 1 | .b16 => 2 | .b32 => 4 | .b64 => 8

/-- R81, R82: the address of an access. Bits [63:57] of a global address are ignored here and in WAITS, LAUNCH and
BIND, for which R215 does not say so (DESIGN CHOICE, log entry 88). -/
def sAddr (e : Env) (sz : Size) (ts : Bool) (off : BitVec 7) (a : SReg) : Nat :=
  let v := (rdScal e a).toNat
  let o := off.toInt * sizeBytes sz
  if ts then (((v : Int) + o) % 2 ^ 64).toNat else addVa v o

/-- R81: the value read, extended to 64 bits. -/
def extend (n : Nat) (sx : Bool) (v : Nat) : W64 :=
  if sx then (BitVec.ofNat (8 * n) v).signExtend 64 else w64 v

/-- A read that its agent made ahead finds what it found then (R251). -/
def Rd.ahead (k : Core) (ag : Agent) (h : Nat) (sp : Space) (a n : Nat) : Rd → Rd
  | .stop st => .stop st
  | r => ((aheadOf k ag h sp a n).map Rd.bytes).getD r

/-- What a scalar load finds, its checks in the order of R74. -/
def sldRead (e : Env) (s : State) (i : Instr) (sz : Size) (ts : Bool) (off : BitVec 7) (a : SReg) : Rd :=
  let n := sizeBytes sz
  let ad := sAddr e sz ts off a
  let k := s.core e.c
  let t := e.trap i 0
  if ad % n ≠ 0 then .stop (.trap { t with cause := .dalign, faddr := ad })
  else if ts then
    if k.share < ad + n then .stop (.trap { t with cause := .tsrange, faddr := ad })
    else
      match pendingStop e k t 0 ad n false with
      | some st => .stop st
      | none => (tsLoad s e.c e.c (some e.who) .ts ad n t).ahead k e.who 0 .ts ad n
  else (gmLoad s e.c (some e.who) ad n .read t).ahead k e.who 0 .gm ad n

/-- A read is ready once what it must follow has landed and a remote line has come. -/
def rdReady (k : Core) (ag : Agent) (h : Nat) : Rd → Bool
  | .bytes _ => clearOf k (loadDeps k ag h)
  | .stop _ => true
  | .wait _ => false

/-- While a bundle waits for a remote line, the line is asked for once nothing before it is out. -/
def askRd (s : State) (c : Nat) (ag : Agent) (h ad n : Nat) : Rd → State
  | .wait t =>
    let k := s.core c
    if clearOf k (loadDeps k ag h) && (forwards k ag .gm ad n).isEmpty &&
        !(k.reply.any (fun r => r.1 == .load c (some ag) ad n)) then askLoad s c (some ag) t ad n h
    else s
  | _ => s

def rdStop : Rd → Option Stop
  | .stop st => some st
  | _ => none

def rdVal : Rd → Nat
  | .bytes bs => leNat bs
  | _ => 0

/-- A landed read leaves its translation with the core and its fabric reply used. -/
def afterRead (s : State) (c : Nat) (ag : Agent) (ad n : Nat) (ts : Bool) (a : Acc) : State :=
  if ts then s else dropReply (keepVa s c ad a) c (.load c (some ag) ad n)

/-- R222: with pending-bit checking on, a tile-store access under the handle of a command waits for
the command. -/
def pendWait (k : Core) (ag : Agent) (handle off len : Nat) (store : Bool) : Bool :=
  let w := k.cfgAt rDBGMEM
  w.getLsbD 0 && (pendCmds k).any (fun p => p.named ag handle && !ownCmd k ag p &&
    (hitGranule (if store && w.getLsbD 1 then p.wr ++ p.rd else p.wr) off len).isSome)

def semSld (g : Guard) (sz : Size) (ts sx : Bool) (off : BitVec 7) (a d : SReg) : SlotSem :=
  let i := Instr.sld g sz ts sx off a d
  { cls := 0, guard := g, i := i,
    ready := fun e s =>
      (!ts || !pendWait (s.core e.c) e.who 0 (sAddr e sz ts off a) (sizeBytes sz) false) &&
        rdReady (s.core e.c) e.who 0 (sldRead e s i sz ts off a),
    poll := fun e s _ => askRd s e.c e.who 0 (sAddr e sz ts off a) (sizeBytes sz)
      (sldRead e s i sz ts off a),
    check := fun e s => rdStop (sldRead e s i sz ts off a),
    eff := fun e s =>
      let v := extend (sizeBytes sz) sx (rdVal (sldRead e s i sz ts off a))
      let s1 := afterRead s e.c e.who (sAddr e sz ts off a) (sizeBytes sz) ts .read
      let (sp, ad) := (if ts then Space.ts else .gm, sAddr e sz ts off a)
      wrScal e (s1.modCore e.c (fun k =>
        countIssue ((k.loadPast e.who 0 sp ad (sizeBytes sz)).useAhead e.who 0 sp ad (sizeBytes sz)) e.who 0)) d v }

/-- The checks of a store to global memory: translation, permission, protection. -/
def gmStoreStop (s : State) (c ad n : Nat) (a : Acc) (t : Trap) : Option Stop :=
  match xlate s c ad a with
  | .error cause => some (.trap { t with cause := cause, faddr := ad, acc := a.code })
  | .ok tr =>
    if tr.loc != 2 && violates s (s.core c).ctx (tr.pa ad) n then some (.freeze (tr.pa ad) a.code)
    else none

def trOf (s : State) (c ad : Nat) (a : Acc) : Trans :=
  match xlate s c ad a with
  | .ok t => t
  | .error _ => Trans.none

def sstStop (e : Env) (s : State) (i : Instr) (sz : Size) (ts : Bool) (off : BitVec 7) (a : SReg) :
    Option Stop :=
  let n := sizeBytes sz
  let ad := sAddr e sz ts off a
  let k := s.core e.c
  let t := { e.trap i 0 with acc := 1 }
  if ad % n ≠ 0 then some (.trap { t with cause := .dalign, faddr := ad })
  else if ts then
    if k.share < ad + n then some (.trap { t with cause := .tsrange, faddr := ad })
    else pendingStop e k t 0 ad n true
  else gmStoreStop s e.c ad n .write t

def semSst (g : Guard) (sz : Size) (ts : Bool) (off : BitVec 7) (a b : SReg) : SlotSem :=
  let i := Instr.sst g sz ts off a b
  { cls := 0, guard := g, i := i,
    ready := fun e s => !ts || !pendWait (s.core e.c) e.who 0 (sAddr e sz ts off a) (sizeBytes sz) true,
    check := fun e s => sstStop e s i sz ts off a,
    eff := fun e s =>
      let ad := sAddr e sz ts off a
      let bs := leBytes (sizeBytes sz) (rdScal e b).toNat
      if ts then bufferStore s e.c e.who 0 .ts ad Trans.none bs
      else bufferStore (keepVa s e.c ad .write) e.c e.who 0 .gm ad (trOf s e.c ad .write) bs }

/-! ## Control transfer (R82) -/

/-- R287: what is barred in the body of a running nest. -/
def inBody (e : Env) : Bool := lsRun e.k.lstat

def jump (e : Env) (s : State) (a : Nat) : State := s.modCore e.c (·.setBpc a)

def relTarget (e : Env) (off : BitVec 20) : Nat := addVa e.base (off.toInt * 2)
def regTarget (e : Env) (a : SReg) : Nat := gf (rdScal e a) 0 57

def semJump (g : Guard) (i : Instr) (target : Env → Nat) (link : Bool) : SlotSem :=
  { cls := 0, guard := g, i := i,
    check := fun e _ => e.checks i 0 [(target e % 2 != 0, .ialign), (inBody e, .loopctl)],
    eff := fun e s =>
      let s1 := if link then wrScal e s 31 (w64 e.next) else s
      jump e s1 (target e) }

def semBr (g : Guard) (off : BitVec 20) : SlotSem := semJump g (.br g off) (fun e => relTarget e off) false
def semBrInd (g : Guard) (a : SReg) : SlotSem := semJump g (.brInd g a) (fun e => regTarget e a) false
def semCall (g : Guard) (off : BitVec 20) : SlotSem :=
  semJump g (.call g off) (fun e => relTarget e off) true
def semCallInd (g : Guard) (a : SReg) : SlotSem := semJump g (.callInd g a) (fun e => regTarget e a) true
def semRet (g : Guard) (a : SReg) : SlotSem := semJump g (.ret g a) (fun e => regTarget e a) false

/-! ## Circular-buffer pointers (R83) -/

def semAdv (g : Guard) (i : Instr) (h : RingReg) (ok : W64 → Bool) (f : W64 → W64) : SlotSem :=
  { cls := 0, guard := g, i := i,
    ready := fun e s =>
      let k := s.core e.c
      !cbValid (k.cb h.toNat) || (ok (k.cb h.toNat) && marksFree k [] [h.toNat]),
    check := fun e s =>
      if cbValid ((s.core e.c).cb h.toNat) then none else some (e.ringStop i 0 h.toNat .cbuf),
    eff := fun e s => s.modCore e.c (·.modCfg (rCBDESC + h.toNat) f) }

def semAdvr (g : Guard) (nm1 : BitVec 5) (h : RingReg) : SlotSem :=
  semAdv g (.advr g nm1 h) h (fun w => decide (nm1.toNat + 1 ≤ cbFill w)) (fun w => cbAdvr w (nm1.toNat + 1))
def semAdvw (g : Guard) (nm1 : BitVec 5) (h : RingReg) : SlotSem :=
  semAdv g (.advw g nm1 h) h (fun w => decide (nm1.toNat + 1 ≤ cbRing w - cbFill w))
    (fun w => cbAdvw w (nm1.toNat + 1))

/-! ## Configuration registers (R84) -/

/-- R19. -/
def devid (s : State) : W64 :=
  w64 (0x4D4A * 2 ^ 48 + 0x4480 * 2 ^ 32 + s.form * 2 ^ 28 + s.dieMask * 2 ^ 24 +
    s.stepping * 2 ^ 20 + 2 * 2 ^ 16 + 4 * 2 ^ 8)

/-- R362. -/
def fabid (s : State) : W64 := w64 (s.gszm1 * 2 ^ 32 + s.dev * 2 ^ 16 + bitOf s.fabUp)

/-- R231: MLST as a view of the cluster's lease. -/
def mlst (s : State) (c : Nat) : W64 :=
  let x := s.cluster (clusterOf c)
  let st := x.lease.getD (c % 4) .idle
  let held := st == .holding
  let cyc := if held then (if s.time - x.termAt < 4096 then s.time - x.termAt else 4096) else 0
  w64 (cyc * 2 ^ 21 + (if held then x.tcmd else 0) * 2 ^ 14 + bitOf held * 2 + bitOf (st != .idle))

/-- The claimed logical slots of the motif on a core (R227). -/
def claimedOf (s : State) (c : Nat) : List Nat :=
  match (s.core c).motif with
  | none => []
  | some id => (((s.cluster (clusterOf c)).slots.find? (·.motif == id)).map (·.claimed)).getD []

def opclaim (s : State) (c : Nat) : W64 := w64 (maskOf (claimedOf s c))

/-- R291: OHSTAT as a view of the sequencer's outstanding accesses. -/
def ohstat (k : Core) : W64 :=
  w64 (maskOf ((List.range 16).filter (fun h => !(outUnder k .seq h).isEmpty)))

/-- R84: what CFGR reads. -/
def cfgRead (s : State) (c reg : Nat) : W64 :=
  let k := s.core c
  if reg = rDEVID then devid s
  else if 0x070 ≤ reg ∧ reg ≤ 0x073 then gwin k (reg - 0x070)
  else if reg = rMLST then mlst s c
  else if reg = rOPCLAIM then opclaim s c
  else if reg = rOHSTAT then ohstat k
  else if reg = rFABID then fabid s
  else if reg = rHACC then 0
  else if reg = rBOOTWHY then s.bootwhy
  else k.cfgAt reg

def semCfgr (g : Guard) (reg : BitVec 12) (d : SReg) : SlotSem :=
  semC g (.cfgr g reg d) (fun e s => wrScal e s d (cfgRead e.pre e.c reg.toNat))

/-- The fields of a register that a plain write sets. -/
def cfgMask (n : Nat) : W64 :=
  if n = rVROT then 0x7F
  else if n = rQPRED then 0xFF
  else if n = rSVEC then 0x01FFFFFFFFFFFFFF
  else if n = rSRET then 0x01FFFFFFFFFFFFFE
  else if n = rWTMO ∨ n = rOTH then 0xFFFFFFFF
  else if n = rDBGMEM then 3
  else if n = rLOGCFG then 3
  else if n = rLOGB ∨ n = rLOGL then 0x01FFFFFFFFFFFFC0
  else if n = rGMAP then 0xFFFFFFFFFFFFFFF8
  else if n = rFRZCNT ∨ (0x0B0 ≤ n ∧ n ≤ 0x0B7) ∨ (0x0C0 ≤ n ∧ n ≤ 0x0FF) then 0xFFFFFFFFFFFFFFFF
  else if 0x100 ≤ n ∧ n < 0x120 ∧ 3 ≤ n % 8 then 0xFFFFFFFFFFFFFFFF
  else if 0x0A0 ≤ n ∧ n ≤ 0x0A5 then 0x00000001FFFFFFFF
  else if 0x0B8 ≤ n ∧ n ≤ 0x0BF then 0x1E1F
  else 0

/-- R84: a write under the field rules of the register's map. -/
def cfgWrite (k : Core) (n : Nat) (v : W64) : Core :=
  if n = rFSTAT then k.modCfg n (fun w => w &&& ~~~ (v &&& 0x3F))
  else if n = rMONSTAT then k.modCfg n (fun w => w &&& ~~~ (v &&& 0xFF))
  else k.modCfg n (fun w => (w &&& ~~~ cfgMask n) ||| (v &&& cfgMask n))

def isLoopReg (n : Nat) : Bool :=
  decide ((0x0A0 ≤ n ∧ n ≤ 0x0A5) ∨ (0x0B0 ≤ n ∧ n ≤ 0x0FF))
def isLogReg (n : Nat) : Bool := decide (n = rLOGB ∨ n = rLOGL ∨ n = rLOGCFG ∨ n = rGMAP)
def recNow (e : Env) : Bool := (e.k.cfgAt rLOGSTAT).getLsbD 63

def semCfgw (g : Guard) (reg : BitVec 12) (a : SReg) : SlotSem :=
  let n := reg.toNat
  let i := Instr.cfgw g reg a
  { semC g i (fun e s => s.modCore e.c (fun k => cfgWrite k n (rdScal e a))) with
    check := fun e _ => e.checks i 0
      [((n == rSVEC || n == rSRET) && !e.k.priv, .priv), (isLoopReg n && inBody e, .loopctl),
       (isLogReg n && recNow e, .logctl)] }

/-- R52: a write to TSHAPEn. -/
def tshapeWr (k : Core) (n : Nat) (v : W64) : Core :=
  let w := k.shape n
  let rows := gf v 12 3
  let et := gf v 15 6
  if rows = 0 then
    k.setCfg (rTSHAPE + n) (sf (sf (sf (sf (sf (sf w 23 1 0) 22 1 0) 21 1 0) 12 3 0) 10 2 (gf v 10 2))
      15 6 (if etypeOk et then et else shapeEtype w))
  else if rows ≤ 4 ∧ etypeOk et = true then
    let w1 := sf (sf (sf (sf (sf (sf w 23 1 1) 22 1 0) 12 3 rows) 10 2 (gf v 10 2)) 15 6 et) 21 1 (gf v 21 1)
    { (k.setCfg (rTSHAPE + n) w1) with guard := mclear k.guard (guardKey n 0) 16384,
                                       saved := k.saved.filter (· != n) }
  else k

def semTshapeWrite (g : Guard) (n : TileReg) (a : SReg) : SlotSem :=
  { semC g (.tshapeWrite g n a) (fun e s => s.modCore e.c (fun k => tshapeWr k n.toNat (rdScal e a))) with
    ready := fun e s => tileReady (s.core e.c) n.toNat,
    poll := fun e s _ => bringTiles s e.c [n.toNat] }

/-- R75: no copy command that names the ring is outstanding. -/
def ringQuiet (k : Core) (h : Nat) : Bool :=
  k.kcmds.all (fun x => (x.sring.map (·.1)) != some h && (x.dring.map (·.1)) != some h)

/-- R67, R305: a write to CBDESCk. -/
def cbdescWr (k : Core) (h : Nat) (v : W64) : Core :=
  let f := v &&& 0x0000FFFF000FFFC0
  { (k.setCfg (rCBDESC + h) (sf f 31 1 (bitOf (ringLegal k.share f)))) with
    producers := k.producers.filter (fun p => p.1 != h) }

def semCbdescWrite (g : Guard) (h : RingReg) (a : SReg) : SlotSem :=
  { semC g (.cbdescWrite g h a) (fun e s => s.modCore e.c (fun k => cbdescWr k h.toNat (rdScal e a))) with
    ready := fun e s => ringQuiet (s.core e.c) h.toNat && marksFree (s.core e.c) [] [h.toNat] }

/-- R37: a write of zero stores 1. -/
def semSrstateWrite (g : Guard) (a : SReg) : SlotSem :=
  semC g (.srstateWrite g a) (fun e s =>
    s.modCore e.c (·.setSr (if rdScal e a = 0 then 1 else rdScal e a)))

/-- R231: the formats that MFMT accepts. -/
def mfmtFmtOk (c : Nat) : Bool :=
  match fmtOfCode c with
  | some .bf16 | some .fp16 => true
  | some f => fmtIsB8 f
  | none => false

/-- A write of MFMT (R22, R231): one with EN = 1 and a format that is not allowed is discarded whole; a
reserved code leaves its field unchanged. -/
def mfmtWr (k : Core) (v : W64) : Core :=
  let fld := fun (lo : Nat) => if (fmtOfCode (gf v lo 6)).isSome then gf v lo 6 else gf (k.cfgAt rMFMT) lo 6
  if v.getLsbD 15 && !(mfmtFmtOk (gf v 0 6) && mfmtFmtOk (gf v 6 6)) then k
  else k.setCfg rMFMT (sf (sf (v &&& 0x8000) 6 6 (fld 6)) 0 6 (fld 0))

def semMfmtWrite (g : Guard) (a : SReg) : SlotSem :=
  { semC g (.mfmtWrite g a) (fun e s => s.modCore e.c (fun k => mfmtWr k (rdScal e a))) with
    check := fun e _ => e.checks (.mfmtWrite g a) 0 [(!e.drain, .drain)] }

/-- R292: a write to a monitor's configuration is discarded whole while it is armed. -/
def moncfgWr (k : Core) (m j : Nat) (v : W64) : Core :=
  let n := rMON + 8 * m + j
  let w := k.cfgAt n
  if (k.cfgAt (rMON + 8 * m)).getLsbD 0 then k
  else if j = 0 then
    let v1 := if (fmtOfCode (gf v 18 6)).isSome then v else sf v 18 6 (gf w 18 6)
    k.setCfg n (v1 &&& 0xFFFFFFFF00FFF800)
  else if j = 1 then k.setCfg n (v &&& 0x01FFFFFFFFFFFFFF)
  else k.setCfg n (v &&& 0xFFFFFFFF)

def semMoncfgWrite (g : Guard) (m : BitVec 2) (j : Nat) (a : SReg) : SlotSem :=
  semC g (.moncfgWrite g m j a) (fun e s => s.modCore e.c (fun k => moncfgWr k m.toNat j (rdScal e a)))

/-- R301: a write to LOGP empties the log. -/
def logpWr (k : Core) (v : W64) : Core :=
  { ((k.setCfg rLOGP (v &&& 0x01FFFFFFFFFFFFC0)).modCfg rLOGSTAT
      (fun w => sf (sf w 62 1 0) 6 51 0)) with lastLen := 0 }

def semLogpWrite (g : Guard) (a : SReg) : SlotSem :=
  { semC g (.logpWrite g a) (fun e s => s.modCore e.c (fun k => logpWr k (rdScal e a))) with
    check := fun e _ => e.checks (.logpWrite g a) 0 [(recNow e, .logctl)] }

/-- R388: the token is consumed. -/
def semHaccWrite (g : Guard) (a : SReg) : SlotSem :=
  { semC g (.haccWrite g a) (fun e s => { s with tokens := s.tokens.erase (rdScal e a) }) with
    ready := fun e s => s.tokens.contains (rdScal e a) }

/-! ## Waiting, fences and order handles (R86 to R89) -/

def waitCc (cc : WaitCc) (a b : W64) : Bool :=
  match cc with
  | .eq => a == b
  | .ne => a != b
  | .geu => !decide (a < b)
  | .ltu => decide (a < b)

/-- The read of the watched word; bits [63:57] of its address are ignored (DESIGN CHOICE, log entry 88). -/
def waitsRead (e : Env) (s : State) (i : Instr) (a : SReg) : Rd :=
  let ad := gf (rdScal e a) 0 57
  let t := e.trap i 0
  if ad % 8 ≠ 0 then .stop (.trap { t with cause := .dalign, faddr := ad })
  else gmLoad s e.c (some e.who) ad 8 .read t

/-- Whether the condition holds, or has held at a re-read (R86). The read stands under o0, which R86 does not name
(DESIGN CHOICE, log entry 83). -/
def waitsHolds (e : Env) (s : State) (i : Instr) (cc : WaitCc) (b a : SReg) : Bool :=
  match waitsRead e s i a with
  | .bytes bs => clearOf (s.core e.c) (loadDeps (s.core e.c) e.who 0) &&
      ((s.core e.c).waitsHeld || waitCc cc (w64 (leNat bs)) (rdScal e b))
  | _ => false

/-- R86: WTMO.CYCLES cycles have passed since the count began. -/
def waitsElapsed (k : Core) : Bool :=
  let n := gf (k.cfgAt rWTMO) 0 32
  k.waitsDue || (n != 0 &&
    match k.waitsFrom with
    | some f => decide (n ≤ k.cycles - f)
    | none => false)

/-- R86: a waiting WAITS re-reads a word that a step has changed. -/
def waitsWatch (s0 s : State) : State :=
  (s.cores.filter (fun e => e.2.waitsOn.isSome)).foldl (fun s e =>
    match e.2.waitsOn with
    | none => s
    | some (ad, cc, v) =>
      let rd := fun (s : State) => gmLoad s e.1 (some .seq) ad 8 .read { cause := .illegal }
      match rd s with
      | .bytes bs =>
        if rd s0 != rd s && clearOf e.2 (loadDeps e.2 .seq 0) && waitCc cc (w64 (leNat bs)) v then
          s.modCore e.1 (fun k => { k with waitsHeld := true })
        else s
      | _ => s) s

def semWaits (g : Guard) (cc : WaitCc) (scope : Scope) (b a : SReg) (qd : PReg) : SlotSem :=
  let i := Instr.waits g cc scope b a qd
  { cls := 0, guard := g, i := i,
    ready := fun e s =>
      (rdStop (waitsRead e s i a)).isSome || waitsHolds e s i cc b a || waitsElapsed (s.core e.c),
    poll := fun e s others =>
      let ad := gf (rdScal e a) 0 57
      let s1 := match waitsRead e s i a with
        | .bytes _ => dropReply s e.c (.load e.c (some e.who) ad 8)
        | r => askRd s e.c e.who 0 ad 8 r
      if others && !waitsHolds e s i cc b a then
        s1.modCore e.c (fun k => { k with waitsFrom := some (k.waitsFrom.getD k.cycles),
                                          waitsOn := some (ad, cc, rdScal e b) })
      else s1,
    check := fun e s =>
      match rdStop (waitsRead e s i a) with
      | some st => some st
      | none =>
        if waitsHolds e s i cc b a then
          (failureTrap (s.core e.c) e.who (e.trap i 0)).map Stop.trap
        else none,
    eff := fun e s =>
      let held := waitsHolds e s i cc b a
      let ad := gf (rdScal e a) 0 57
      let s1 := if held then (afterRead s e.c e.who ad 8 false .read).modCore e.c (Core.dropAhead e.who)
        else forgetReq s e.c (.load e.c (some e.who) ad 8)
      wrPred e s1 qd held }

/-- R381: a synchronising point of the agent traps for its first failed store. -/
def failStop (e : Env) (s : State) (i : Instr) (slot : Nat) : Option Stop :=
  (failureTrap (s.core e.c) e.who (e.trap i slot)).map Stop.trap

/-- A reply or request for a line of code that lies on another device. -/
def forCode (c : Nat) : ReqFor → Bool
  | .load d none _ _ => d == c
  | _ => false

/-- R66, R87, R151: the instruction-stream step: what the core holds of code, in its caches or fetched ahead
from another device, is discarded, and what is on its way is no longer for it. -/
def dropCode (s : State) (c : Nat) : State :=
  let s1 := { s with requests := s.requests.map (fun (r : FabReq) =>
    if forCode c r.who then { r with who := .gone (s.core c).ctx r.id } else r) }
  s1.modCore c (fun k => { k with bcache := [], lcache := [],
                                  reply := k.reply.filter (fun r => !forCode c r.1) })

/-- R252: core b lies in the instance of a scope that holds core a. -/
def sameScope (sc a b : Nat) : Bool :=
  match sc with
  | 0 => a == b
  | 1 => clusterOf a == clusterOf b
  | 2 => dieOf a == dieOf b
  | _ => true

def scopeCode : Scope → Nat
  | .core => 0 | .cluster => 1 | .die => 2 | .device => 3 | .system => 4

/-- A buffered store that can land on this device at once, once what it must follow has landed. -/
def landsHere (s : State) (b : BufStore) : Bool :=
  b.space != .gm || (b.tr.loc != 2 && !heldByMove s (b.tr.pa b.addr) b.data.length && !cxlDown s (b.tr.pa b.addr))

/-- The buffered stores of an agent that wait for nothing but one another. -/
def standing (s : State) (c : Nat) (ag : Agent) : List Nat :=
  let k := s.core c
  (k.buf.filter (·.of ag)).foldl (fun ids b =>
    if landsHere s b && b.deps.all (fun d => !outstanding k d || ids.contains d) then ids ++ [b.id] else ids) []

/-- R252, R253: what a fence of a scope holds has landed as seen within the scope: towards an agent outside, stores
that can land at once may land later, and they do before any agent within the scope moves. -/
def fenceMet (s : State) (c : Nat) (ag : Agent) (sc : Nat) : Bool :=
  storesLanded (s.core c) ag ||
    (decide (sc < 4) && ((s.core c).buf.filter (·.of ag)).all (fun b => (standing s c ag).contains b.id))

/-- The stores that a fence of a scope leaves standing. -/
def Core.veil (ag : Agent) (sc : Nat) (k : Core) : Core :=
  { k with buf := k.buf.map (fun b =>
      if b.of ag then { b with veil := some (match b.veil with
        | some x => if x < sc then sc else x
        | none => sc) } else b) }

/-- R87: a fence holds until what it orders has landed, as its scope sees it; loads have landed when they issued.
For the step of ISTR the stores have landed indeed. -/
def semFence (g : Guard) (scope : Scope) (istr eng : Bool) (kind : FenceKind) : SlotSem :=
  let i := Instr.fence g scope istr eng kind
  { cls := 0, guard := g, i := i,
    ready := fun e s =>
      let k := s.core e.c
      (!eng || enginesQuiet k) && (kind == .acq || fenceMet s e.c .seq (scopeCode scope)) && (!istr || storesLanded k .seq),
    check := fun e s => failStop e s i 0,
    eff := fun e s =>
      let s1 := if kind = .acq then s
        else (released s e.c (· == .seq)).modCore e.c (Core.veil .seq (scopeCode scope))
      let s2 := if kind = .rel then s1 else s1.modCore e.c (Core.dropAhead .seq)
      if istr then dropCode s2 e.c else s2 }

/-- The handles of a mask. -/
def maskBits (m : BitVec 16) : List Nat := (List.range 16).filter (fun h => m.getLsbD h)

/-- R88, R191, R251: FORK and JOIN of an agent: for the accesses that follow, those that are out under the parent, or
under any handle of the set, count under the others too (log entry 12). -/
def forkHandles (k : Core) (c : Nat) (ag : Agent) (mask : BitVec 16) (parent : Nat) : Core :=
  (k.alsoUnder c ag [parent] (maskBits mask)).dropAhead ag

def joinHandles (k : Core) (c : Nat) (ag : Agent) (mask : BitVec 16) (target : Nat) : Core :=
  if mask = 0 then k
  else
    let hs := target :: (maskBits mask).filter (· != target)
    (k.alsoUnder c ag hs hs).dropAhead ag

/-- The order that the bundle's C slot gives the accesses of its later slots (R46, R88). -/
def afterForks (e : Env) (k : Core) : Core :=
  match e.cHandles with
  | some (.fork _ mask parent) => forkHandles k e.c e.who mask parent.toNat
  | some (.join _ mask target) => joinHandles k e.c e.who mask target.toNat
  | _ => k

def semFork (g : Guard) (mask : BitVec 16) (parent : Handle) : SlotSem :=
  semC g (.fork g mask parent) (fun e s => s.modCore e.c (fun k => forkHandles k e.c .seq mask parent.toNat))
def semJoin (g : Guard) (mask : BitVec 16) (target : Handle) : SlotSem :=
  semC g (.join g mask target) (fun e s => s.modCore e.c (fun k => joinHandles k e.c .seq mask target.toNat))

/-- R89: a handle token. -/
def handleToken (s : State) (c h : Nat) : W64 :=
  w64 (s.dev * 2 ^ 54 + c * 2 ^ 46 + h * 2 ^ 42 + mget noNat (s.core c).issued h)

def semHpass (g : Guard) (oh : Handle) (a d : SReg) : SlotSem :=
  let i := Instr.hpass g oh a d
  { cls := 0, guard := g, i := i,
    check := fun e s =>
      let dev := gf (rdScal e a) 0 10
      e.checks i 0 [(decide (s.gszm1 < dev) || (!s.fabUp && dev != s.dev), .hdev)],
    eff := fun e s =>
      let k := s.core e.c
      let t := handleToken s e.c oh.toNat
      let n := (t, gf (rdScal e a) 0 10, k.nextId, outUnder k .seq oh.toNat)
      wrScal e (s.setCore e.c { k with nextId := k.nextId + 1, notices := k.notices ++ [n] }) d t }

/-! ## Monitors (R95, R296, R297) -/

/-- R297: whether a sum passes the check of monitor m. -/
def monPasses (k : Core) (m sum : Nat) : Bool :=
  let d := (fsub .fp64 .rne 0 false sum (k.cfgAt (rMON + 8 * m + 3)).toNat).bits
  let bnd := (k.cfgAt (rMON + 8 * m + 4)).toNat
  fcc .le (decodeF .fp64 (fabsB .fp64 d)) (decodeF .fp64 bnd) &&
    !(k.cfgAt rMONSTAT).getLsbD (4 + m)

/-- R297: the check with a given sum. -/
def monCheck (k : Core) (m sum : Nat) : Core :=
  let pass := monPasses k m sum
  let k1 := k.modCfg rMONSTAT (fun w => sf w m 1 (bitOf (!pass)))
  if pass && (k.cfgAt (rMON + 8 * m)).getLsbD 11 then k1.setCfg (rMON + 8 * m + 5) 0 else k1

def monSum (k : Core) (m : Nat) : Nat := (k.cfgAt (rMON + 8 * m + 5)).toNat

/-- The frame of a DRIFT trap. -/
def driftFrame (base : Nat) (w : W64) (info : Nat) : Trap :=
  { cause := .drift, slot := 0, baddr := base, w0 := w, info := info }

/-- R297: the DRIFT trap of a core where a monitor of `ms` fails its check. -/
def driftTrap (s : State) (c base : Nat) (w : W64) (ms : List Nat) : State :=
  let k := s.core c
  if ms.any (fun m => (k.cfgAt rMONSTAT).getLsbD m) then
    raiseTrap s c (driftFrame base w (gf (k.cfgAt rMONSTAT) 0 8))
  else s

/-- R296: the ARM checks. -/
def monBad (k : Core) (m : Nat) : Bool :=
  let x := k.mon m
  let w := k.cfgAt (rMON + 8 * m)
  let f := fmtOfCode (gf w 18 6)
  let sz := fmtSize x.fmt
  let raw := gf w 48 16
  !(f == some .fp32 || f == some .bf16 || f == some .fp16 || f == some .fp64 || f == some .int32) ||
  x.src == 0 || x.len == 0 || (x.base + x.off) % sz != 0 ||
  (raw != 0 && (raw % sz != 0 || decide (raw < x.off + sz))) || (raw == 0 && x.off != 0) ||
  (hasBit x.src 3 && !x.ts) || (x.ts && decide (k.share < x.base + x.len))

def semMonsetArm (g : Guard) (m : BitVec 2) : SlotSem :=
  let i := Instr.monsetArm g m
  { cls := 0, guard := g, i := i,
    ready := fun e s => storesLanded (s.core e.c) .seq,
    check := fun e s => e.checks i 0 [(monBad (s.core e.c) m.toNat, .monparam)],
    eff := fun e s => s.modCore e.c (fun k =>
      ((k.setCfg (rMON + 8 * m.toNat + 5) 0).modCfg rMONSTAT (fun w => sf w (4 + m.toNat) 1 0)).modCfg
        (rMON + 8 * m.toNat) (fun w => sf w 0 1 1)) }

def semMonsetDisarm (g : Guard) (m : BitVec 2) : SlotSem :=
  semC g (.monsetDisarm g m) (fun e s =>
    s.modCore e.c (·.modCfg (rMON + 8 * m.toNat) (fun w => sf w 0 1 0)))

/-- R331: a trap that follows its bundle's effect does not replace the record of a halt in progress, so its
bundle takes no effect then. -/
def lateTrap (e : Env) (s : State) (t : Trap) : Option Stop :=
  match (s.core e.c).halt with
  | none => none
  | some r => if goesFirst s (s.core e.c) r t then none else some (.trap t)

/-- The bundle's own checks of monitors would trap in the skid of another trap (R297, R331). -/
def lateDrift (e : Env) (s : State) (i : Instr) (ms : List Nat) : Option Stop :=
  let k := ms.foldl (fun k m => monCheck k m (monSum k m)) (s.core e.c)
  if ms.any (fun m => (k.cfgAt rMONSTAT).getLsbD m) then
    lateTrap e s (driftFrame e.base (encWords i).1 (gf (k.cfgAt rMONSTAT) 0 8))
  else none

def semMonsetCheck (g : Guard) (m : BitVec 2) : SlotSem :=
  let i := Instr.monsetCheck g m
  { semC g i (fun e s => s.modCore e.c (fun k => monCheck k m.toNat (monSum k m.toNat))) with
    check := fun e s => lateDrift e s i [m.toNat],
    post := fun e s => driftTrap s e.c e.base (encWords i).1 [m.toNat] }

/-! ## Barriers (R91) -/

/-- The level descriptors of a record (R126): extent, domain, scope, co, size. -/
structure Lvl where
  extent : Nat
  domain : Nat
  scope : Nat
  co : Bool
  size : Nat
  deriving DecidableEq, Repr, Inhabited

def levelsOf (recd : List W64) : List Lvl :=
  (List.range (gf (recd.getD 0 0) 61 3 + 1)).map (fun n =>
    let w := recd.getD (8 + n) 0
    { extent := gf w 32 32, domain := gf w 29 3, scope := gf w 26 3, co := w.getLsbD 25,
      size := gf w 0 25 })

/-- R91: the widest barrier scope that a launch declares co-resident; domain codes 000 system to 011
cluster stand for scope codes 4 to 1. -/
def coScope (recd : List W64) : Nat :=
  ((levelsOf recd).filter (fun l => l.co && decide (l.domain ≤ 3))).foldl
    (fun w l => if w < 4 - l.domain then 4 - l.domain else w) 0

/-- Where a motif is, or was last (R91: a motif off its core stays a participant of the instance in
which it was placed). -/
def Motif.home (m : Motif) : Option Nat :=
  match m.core with
  | some c => some c
  | none => m.ranOn.head?

/-- The state of a motif's core, or its saved state. -/
def motifCore (s : State) (m : Motif) : Core :=
  match m.core with
  | some c => s.core c
  | none => m.saved.getD Core.empty

def modMotifCore (s : State) (id : Nat) (f : Core → Core) : State :=
  match s.motif? id with
  | none => s
  | some m =>
    match m.core with
    | some c => s.modCore c f
    | none => s.setMotif { m with saved := m.saved.map f }

/-- The motifs that take part in a barrier of a scope instance, by home core. -/
def participants (s : State) (c sc : Nat) : List Motif :=
  match s.motifOn c with
  | none => []
  | some m =>
    if sc = 0 then [m]
    else s.motifs.filter (fun x => x.launch == m.launch && x.st != .done && x.st != .killed &&
      (match x.home with
       | some o => sameScope sc c o
       | none => false))

def insertAsc (n : Nat) : List Nat → List Nat
  | [] => [n]
  | m :: ms => if n ≤ m then n :: m :: ms else m :: insertAsc n ms

/-- R298: the total of the combined monitors of a cluster, in ascending core number. -/
def combSum (ks : List Core) (m : Nat) : Nat :=
  match ks with
  | [] => 0
  | k :: rest => rest.foldl (fun sum k => monAdd sum (monSum k m)) (monSum k m)

def homeNo (m : Motif) : Nat := m.home.getD 0

/-- Motifs in ascending core number. -/
def insertHome (x : Motif) : List Motif → List Motif
  | [] => [x]
  | y :: ys => if homeNo x ≤ homeNo y then x :: y :: ys else y :: insertHome x ys

/-- R348: a trap of a motif off its core stays pending until its next placement. -/
def pendTrap (s : State) (id : Nat) (t : Trap) : State :=
  match s.motif? id with
  | none => s
  | some m =>
    let r : FaultRec := { trap := t, multi := false, time := s.time, mpos := (motifCore s m).cfgAt rMPOS }
    s.setMotif { m with fault := some r, pendingTrap := true }

/-- The comparison point of one motif when a barrier completes (R297, R298). -/
def barChecks (s0 : State) (ps : List Motif) (sc : Nat) (s : State) (x : Motif) : State :=
  let k0 := motifCore s0 x
  match k0.arrived with
  | none => s
  | some (_, _, base, w) =>
    let armed := [0, 1, 2, 3].filter (fun m => (k0.mon m).armed && (!(k0.mon m).comb || decide (1 ≤ sc)))
    let s1 := armed.foldl (fun s m =>
      let sum := if (k0.mon m).comb then
          combSum ((ps.filter (fun p => clusterOf (homeNo p) == clusterOf (homeNo x) &&
            ((motifCore s0 p).mon m).armed && ((motifCore s0 p).mon m).comb)).map (motifCore s0)) m
        else monSum k0 m
      modMotifCore s x.id (fun k => monCheck k m sum)) s
    match x.core with
    | some o => driftTrap s1 o base w armed
    | none =>
      let st := ((s1.motif? x.id).map (fun y => (motifCore s1 y).cfgAt rMONSTAT)).getD 0
      if armed.any (fun m => st.getLsbD m) then
        pendTrap s1 x.id (driftFrame base w (gf st 0 8))
      else s1

def prodOf (l : List Nat) : Nat := l.foldl (· * ·) 1

/-- A launch has motifs on other devices (R363, R450): it has several instances of its device level, and the
group several devices. -/
def farMotifs (s : State) (l : Launch) : Bool :=
  let ls := levelsOf l.recd
  match ls.findIdx? (fun x => x.domain == 1) with
  | none => false
  | some d => decide (1 < prodOf ((ls.take (d + 1)).map (·.extent)) ∧ 0 < s.gszm1)

/-- The participants on other devices have arrived too: they take part at system scope only. -/
def farArrived (s : State) (c sc id : Nat) : Bool :=
  match (s.motifOn c).bind (fun m => s.launch? m.launch) with
  | none => true
  | some l => sc != 4 || !farMotifs s l || l.far.contains id

/-- A barrier completes once every participant has arrived at it. -/
def barDone (s : State) (c : Nat) : State :=
  match (s.core c).arrived with
  | none => s
  | some (sc, id, _, _) =>
    let ps := (participants s c sc).foldl (fun l x => insertHome x l) []
    let here := fun x => (match (motifCore s x).arrived with
      | some (sc', id', _, _) => sc' == sc && id' == id
      | none => false)
    if ps.all here && farArrived s c sc id then
      let key := ((s.motifOn c).map (·.launch)).getD 0 * 64 + sc * 8 + id
      let s1 := { s with
        gens := mput noNat s.gens key (mget noNat s.gens key + 1),
        launches := s.launches.map (fun (l : Launch) =>
          if sc = 4 ∧ some l.id = (s.motifOn c).map (fun (m : Motif) => m.launch) then { l with far := l.far.filter (· != id) } else l) }
      let s2 := (s1.modCore c (fun k => { k with arrived := none }))
      let s3 := ps.foldl (fun s x => modMotifCore s x.id (fun k => { k with arrived := none })) s2
      ps.foldl (fun s' x => barChecks s ps sc s' x) s3
    else s

def semBar (g : Guard) (scope : Scope) (id : BitVec 3) : SlotSem :=
  let i := Instr.bar g scope id
  { cls := 0, guard := g, i := i,
    ready := fun e s => enginesQuiet (s.core e.c) && fenceMet s e.c .seq (scopeCode scope),
    check := fun e s =>
      let recd := (((s.motifOn e.c).bind (fun m => s.launch? m.launch)).map (·.recd)).getD []
      let k := s.core e.c
      if coScope recd < scopeCode scope then e.stop i 0 .barscope
      else firstSome [failStop e s i 0,
        if scope = .core then lateDrift e s i ([0, 1, 2, 3].filter (fun m => (k.mon m).armed && !(k.mon m).comb))
        else none],
    eff := fun e s => (released s e.c (· == .seq)).modCore e.c (fun k =>
      { (k.veil .seq (scopeCode scope)).dropAhead .seq with arrived := some (scopeCode scope, id.toNat, e.base, (encWords i).1) }),
    post := fun e s => if scope = .core then barDone s e.c else s }

/-- BAR_COMPLETE: the event that a barrier's last arrival brings about. -/
def execBarComplete (core : Nat) (s : State) : Out := .next (barDone s core)

/-- WAITS_TIMEOUT: the timeout of a waiting WAITS has elapsed. -/
def execWaitsTimeout (core : Nat) (s : State) : Out :=
  .next (if waitsElapsed (s.core core) then s.modCore core (fun k => { k with waitsDue := true }) else s)

/-! ## Launches and bindings (R92, R93) -/

/-- The accesses of a core's motif that are still to land, of whatever agent. -/
def outstandingOf (k : Core) : List Nat :=
  k.buf.map (·.id) ++ k.kcmds.map (·.id) ++ (k.mcmds.filter (!·.fetched)).map (·.id)

/-- The enqueued record waits for the stores of the launcher, which may have written it; the launched work waits
for whatever else the motif's accesses have still to land. -/
def semLaunch (g : Guard) (dep : Bool) (b a d : SReg) : SlotSem :=
  let i := Instr.launch g dep b a d
  let ad := fun (e : Env) => gf (rdScal e a) 0 57
  { cls := 0, guard := g, i := i,
    ready := fun e s => decide (s.devQueue.length < 256) && storesLanded (s.core e.c) .seq,
    check := fun e s =>
      let t := { e.trap i 0 with faddr := ad e }
      if ad e % 64 ≠ 0 then some (.trap { t with cause := .dalign })
      else firstSome [gmStoreStop s e.c (ad e) 64 .read (e.trap i 0),
        gmStoreStop s e.c (ad e) 64 .write (e.trap i 0),
        gmStoreStop s e.c (va57 (ad e + 64)) 64 .read (e.trap i 0),
        gmStoreStop s e.c (va57 (ad e + 64)) 64 .write (e.trap i 0)],
    eff := fun e s =>
      let seq := (s.devSeq + 1) % 2 ^ 48
      let tok := w64 (s.dev * 2 ^ 54 + 63 * 2 ^ 48 + seq)
      let depTok := if dep then rdScal e b else 0
      wrScal e { s with devSeq := seq,
                        devQueue := s.devQueue ++
                          [{ addr := ad e, ctx := e.k.ctx, token := tok, dep := depTok, priv := e.k.priv,
                             motif := e.k.motif.getD 0, ids := outstandingOf (s.core e.c) }] } d tok }

/-- The image that a BIND reads: four words, where its opcode and address let it read. -/
def bindRead (e : Env) (s : State) (i : Instr) (topc : BitVec 7) (a : SReg) : Option Rd :=
  let ad := gf (rdScal e a) 0 57
  if !mayBind e.k.priv topc.toNat || ad % 32 ≠ 0 then none
  else some (gmLoad s e.c (some e.who) ad 32 .read (e.trap i 0))

def word8 (bs : List Byte) (n : Nat) : W64 := w64 (leNat ((bs.drop (8 * n)).take 8))

def semBind (g : Guard) (topc : BitVec 7) (a d : SReg) : SlotSem :=
  let i := Instr.bind g topc a d
  { cls := 0, guard := g, i := i,
    ready := fun e s =>
      match bindRead e s i topc a with
      | some r => rdReady (s.core e.c) e.who 0 r
      | none => true,
    poll := fun e s _ =>
      match bindRead e s i topc a with
      | some r => askRd s e.c e.who 0 (gf (rdScal e a) 0 57) 32 r
      | none => s,
    check := fun e s => (bindRead e s i topc a).bind rdStop,
    eff := fun e s =>
      match bindRead e s i topc a with
      | some (.bytes bs) =>
        let o := topc.toNat
        let st := bindStatus e.k.priv o (word8 bs 0) (word8 bs 1) (word8 bs 2) (word8 bs 3)
        let ad := gf (rdScal e a) 0 57
        let s1 := (afterRead s e.c e.who ad 32 false .read).modCore e.c (Core.loadPast e.who 0 .gm ad 32)
        let p := boundEntry o (prickParse (word8 bs 0) (word8 bs 1) (word8 bs 2))
        let s2 := if st = 0 then s1.modCore e.c (fun k => { k with prick := mset k.prick o p }) else s1
        wrScal e s2 d (w64 st)
      | _ => wrScal e s d (if mayBind e.k.priv topc.toNat then 3 else 1) }

/-! ## Recording (R94, R301) -/

def semRecon (g : Guard) : SlotSem :=
  let i := Instr.recon g
  { cls := 0, guard := g, i := i,
    check := fun e s =>
      let k := s.core e.c
      let b := gf (k.cfgAt rLOGB) 6 51
      let l := gf (k.cfgAt rLOGL) 6 51
      let p := gf (k.cfgAt rLOGP) 6 51
      e.checks i 0 [(!recNow e && !(decide (b ≤ p ∧ p ≤ l ∧ (l - b) * 64 ≤ 128 * 2 ^ 20)), .logparam)],
    eff := fun e s =>
      if recNow e then s
      else s.modCore e.c (fun k =>
        { (k.modCfg rLOGSTAT (fun w => sf w 63 1 1)) with producers := [] }) }

def semRecoff (g : Guard) : SlotSem :=
  semC g (.recoff g) (fun e s => s.modCore e.c (·.modCfg rLOGSTAT (fun w => sf w 63 1 0)))

/-! ## The loop nest (R285, R288) -/

/-- R285: two iterators drive one scalar. -/
def dupIter (k : Core) : Bool :=
  let on := (List.range 8).filter (fun i => (k.cfgAt (rITCFG + i)).getLsbD 12)
  on.any (fun i => on.any (fun j => i < j && gf (k.cfgAt (rITCFG + i)) 0 5 == gf (k.cfgAt (rITCFG + j)) 0 5))

def semLoop (g : Guard) (bodym1 : BitVec 6) (stm1 lvm1 : BitVec 3) (rall rot : Bool) : SlotSem :=
  let i := Instr.loop g bodym1 stm1 lvm1 rall rot
  let t := fun (k : Core) => tripCount k (lvm1.toNat + 1)
  let skip := fun (e : Env) (s : State) => skipBundles s e.c (fetchTrap e.base) (bodym1.toNat + 1) e.next
  { cls := 0, guard := g, i := i,
    ready := fun e s =>
      inBody e || t e.k != 0 ||
        (match skip e s with
         | .error (none, _) => false
         | _ => true),
    poll := fun e s _ =>
      match skip e s with
      | .error (none, va) => askFetch s e.c va 2
      | _ => s,
    check := fun e s =>
      if inBody e then e.stop i 0 .loopctl
      else if 2 ^ 48 < t e.k || dupIter e.k then e.stop i 0 .loopparam
      else if t e.k = 0 then
        match skip e s with
        | .error (some st, _) => some st
        | _ => none
      else none,
    eff := fun _ s => s,
    post := fun e s =>
      if t e.k = 0 then
        match skip e s with
        | .ok va => jump e s va
        | .error _ => s
      else s.modCore e.c (fun k =>
        let ls := w64 (2 ^ 63 + bitOf rall * 2 ^ 62 + bitOf rot * 2 ^ 61 + stm1.toNat * 2 ^ 58 +
          lvm1.toNat * 2 ^ 55 + bodym1.toNat * 2 ^ 49)
        startPass (((k.setCfg rLSTAT ls).setCfg rLPASS 0).setCfg rLBEG (w64 (e.next / 2 * 2))) 0) }

def semIterIdx (g : Guard) (lv : BitVec 3) (d : SReg) : SlotSem :=
  semC g (.iterIdx g lv d) (fun e s =>
    let k := e.k
    let l := lsLevels k.lstat
    let n := clampIter (gf (k.cfgAt rLPASS) 0 49) 0 (tripCount k l)
    wrScal e s d (if inBody e && decide (lv.toNat < l) then
      w64 ((levelIdx k (lsRall k.lstat) n (List.range l)).getD lv.toNat 0) else 0))

def semIterPass (g : Guard) (d : SReg) : SlotSem :=
  semC g (.iterPass g d) (fun e s =>
    wrScal e s d (if inBody e then w64 (gf (e.k.cfgAt rLPASS) 0 49) else 0))

def semIterExit (g : Guard) : SlotSem :=
  semC g (.iterExit g) (fun e s =>
    if inBody e then s.modCore e.c (fun k => { k with exitPending := true }) else s)

/-! ## System entry, return, breakpoints (R96 to R98) -/

/-- R386: a core's motif has handle notices that have not been answered yet. -/
def noticesOut (s : State) (c : Nat) : Bool :=
  !(s.core c).notices.isEmpty || s.resend.any (·.1 == c) ||
    s.requests.any (fun r => match r.who with
      | .notice d m _ _ => d == c && (s.core c).motif == some m
      | _ => false)

def semSys (g : Guard) : SlotSem :=
  let i := Instr.sys g
  { semC g i (fun e s => s.modCore e.c (fun k => { k with ended := true })) with
    ready := fun e s => inBody e || (storesLanded (s.core e.c) .seq && !noticesOut s e.c),
    check := fun e s => if inBody e then e.stop i 0 .loopctl else failStop e s i 0 }

def svecEn (k : Core) : Bool := (k.cfgAt rSVEC).getLsbD 0

def semSysServiceCall (g : Guard) (imm : BitVec 16) : SlotSem :=
  let i := Instr.sysServiceCall g imm
  let callTrap := fun (e : Env) => { e.trap i 0 with cause := .syscall, info := imm.toNat }
  { cls := 0, guard := g, i := i,
    check := fun e s => firstSome [e.checks i 0 [(e.k.priv, .priv), (inBody e, .loopctl)],
      if svecEn e.k then none else lateTrap e s (callTrap e)],
    eff := fun e s =>
      if svecEn e.k then
        jump e (s.modCore e.c (fun k =>
          ((k.setCfg rSRET (w64 (e.next / 2 * 2))).setCfg rSARG (imm.setWidth 64)).setCfg rMSTAT 1))
          (gf (e.k.cfgAt rSVEC) 1 56 * 2)
      else s,
    post := fun e s =>
      if svecEn e.k then s
      else raiseTrap s e.c (callTrap e) }

def semTret (g : Guard) : SlotSem :=
  let i := Instr.tret g
  { cls := 0, guard := g, i := i,
    check := fun e _ => e.checks i 0 [(!e.k.priv, .priv), (inBody e, .loopctl)],
    eff := fun e s => jump e (s.modCore e.c (·.setCfg rMSTAT 0)) (gf (e.k.cfgAt rSRET) 1 56 * 2) }

def semBrk (g : Guard) (imm : BitVec 16) : SlotSem :=
  let i := Instr.brk g imm
  { semC g i (fun _ s => s) with
    check := fun e _ =>
      if e.k.stepOver then none else some (.trap { e.trap i 0 with cause := .brk, info := imm.toNat }) }

/-! ## The C-slot instructions alone in a bundle -/

def execNullBundle (selv : Bool) (s : State) : Out :=
  .next (issueBundle s.focus.core selv 2 [] s)
def execNop (g : Guard) (s : State) : Out := issueOne (semNop g) s
def execSop (g : Guard) (fn : SopFn) (d a b : SReg) (s : State) : Out := issueOne (semSop g fn d a b) s
def execSopi (g : Guard) (fn : SopiFn) (d a : SReg) (imm : BitVec 8) (s : State) : Out :=
  issueOne (semSopi g fn d a imm) s
def execSmovi (g : Guard) (d : SReg) (imm : BitVec 16) (s : State) : Out := issueOne (semSmovi g d imm) s
def execScmp (g : Guard) (cc : ScmpCc) (imm : Bool) (qd : PReg) (a b : SReg) (s : State) : Out :=
  issueOne (semScmp g cc imm qd a b) s
def execSld (g : Guard) (sz : Size) (ts sx : Bool) (off : BitVec 7) (a d : SReg) (s : State) : Out :=
  issueOne (semSld g sz ts sx off a d) s
def execSst (g : Guard) (sz : Size) (ts : Bool) (off : BitVec 7) (a b : SReg) (s : State) : Out :=
  issueOne (semSst g sz ts off a b) s
def execBr (g : Guard) (off : BitVec 20) (s : State) : Out := issueOne (semBr g off) s
def execBrInd (g : Guard) (a : SReg) (s : State) : Out := issueOne (semBrInd g a) s
def execCall (g : Guard) (off : BitVec 20) (s : State) : Out := issueOne (semCall g off) s
def execCallInd (g : Guard) (a : SReg) (s : State) : Out := issueOne (semCallInd g a) s
def execRet (g : Guard) (a : SReg) (s : State) : Out := issueOne (semRet g a) s
def execAdvr (g : Guard) (nm1 : BitVec 5) (h : RingReg) (s : State) : Out := issueOne (semAdvr g nm1 h) s
def execAdvw (g : Guard) (nm1 : BitVec 5) (h : RingReg) (s : State) : Out := issueOne (semAdvw g nm1 h) s
def execCfgr (g : Guard) (reg : BitVec 12) (d : SReg) (s : State) : Out := issueOne (semCfgr g reg d) s
def execCfgw (g : Guard) (reg : BitVec 12) (a : SReg) (s : State) : Out := issueOne (semCfgw g reg a) s
def execTshapeWrite (g : Guard) (n : TileReg) (a : SReg) (s : State) : Out :=
  issueOne (semTshapeWrite g n a) s
def execCbdescWrite (g : Guard) (k : RingReg) (a : SReg) (s : State) : Out :=
  issueOne (semCbdescWrite g k a) s
def execSrstateWrite (g : Guard) (a : SReg) (s : State) : Out := issueOne (semSrstateWrite g a) s
def execMfmtWrite (g : Guard) (a : SReg) (s : State) : Out := issueOne (semMfmtWrite g a) s
def execMoncfgWrite (g : Guard) (m : BitVec 2) (j : Nat) (a : SReg) (s : State) : Out :=
  issueOne (semMoncfgWrite g m j a) s
def execLogpWrite (g : Guard) (a : SReg) (s : State) : Out := issueOne (semLogpWrite g a) s
def execHaccWrite (g : Guard) (a : SReg) (s : State) : Out := issueOne (semHaccWrite g a) s
def execWaits (g : Guard) (cc : WaitCc) (scope : Scope) (b a : SReg) (qd : PReg) (s : State) : Out :=
  issueOne (semWaits g cc scope b a qd) s
def execFence (g : Guard) (scope : Scope) (istr eng : Bool) (kind : FenceKind) (s : State) : Out :=
  issueOne (semFence g scope istr eng kind) s
def execFork (g : Guard) (mask : BitVec 16) (parent : Handle) (s : State) : Out :=
  issueOne (semFork g mask parent) s
def execJoin (g : Guard) (mask : BitVec 16) (target : Handle) (s : State) : Out :=
  issueOne (semJoin g mask target) s
def execHpass (g : Guard) (oh : Handle) (a d : SReg) (s : State) : Out := issueOne (semHpass g oh a d) s
def execBar (g : Guard) (scope : Scope) (id : BitVec 3) (s : State) : Out := issueOne (semBar g scope id) s
def execLaunch (g : Guard) (dep : Bool) (b a d : SReg) (s : State) : Out :=
  issueOne (semLaunch g dep b a d) s
def execBind (g : Guard) (topc : BitVec 7) (a d : SReg) (s : State) : Out :=
  issueOne (semBind g topc a d) s
def execRecon (g : Guard) (s : State) : Out := issueOne (semRecon g) s
def execRecoff (g : Guard) (s : State) : Out := issueOne (semRecoff g) s
def execMonsetArm (g : Guard) (m : BitVec 2) (s : State) : Out := issueOne (semMonsetArm g m) s
def execMonsetDisarm (g : Guard) (m : BitVec 2) (s : State) : Out := issueOne (semMonsetDisarm g m) s
def execMonsetCheck (g : Guard) (m : BitVec 2) (s : State) : Out := issueOne (semMonsetCheck g m) s
def execLoop (g : Guard) (bodym1 : BitVec 6) (stm1 lvm1 : BitVec 3) (rall rot : Bool) (s : State) : Out :=
  issueOne (semLoop g bodym1 stm1 lvm1 rall rot) s
def execIterIdx (g : Guard) (lv : BitVec 3) (d : SReg) (s : State) : Out := issueOne (semIterIdx g lv d) s
def execIterPass (g : Guard) (d : SReg) (s : State) : Out := issueOne (semIterPass g d) s
def execIterExit (g : Guard) (s : State) : Out := issueOne (semIterExit g) s
def execSys (g : Guard) (s : State) : Out := issueOne (semSys g) s
def execSysServiceCall (g : Guard) (imm : BitVec 16) (s : State) : Out :=
  issueOne (semSysServiceCall g imm) s
def execTret (g : Guard) (s : State) : Out := issueOne (semTret g) s
def execBrk (g : Guard) (imm : BitVec 16) (s : State) : Out := issueOne (semBrk g imm) s

end Sys2Proof.Machine
end

