-- ==== Sys2Proof/Machine/Vslot.lean ====
section
/-! DEFINITION. The V slot (R99 to R125): arithmetic on rows of accumulator tiles, reductions,
slices and columns, rows to and from tile store, conversions, scaling and special functions. -/
namespace Sys2Proof.Machine

/-! ## Element functions -/

def absEx : Ex → Ex
  | .nan nv => .nan nv
  | .inf _ dz => .inf false dz
  | .num _ m e st => .num false m e st

/-- R106: one element of VOP2. -/
def vop2El (fn : Vop2Fn) (f : Fmt) (rm : Rm) (sat : Bool) (u : Nat) (x : Nat × Nat) : FR :=
  let (a, b) := x
  if fmtIsInt f then
    let va := intVal f a
    let vb := intVal f b
    match fn with
    | .add => intRes f sat (va + vb)
    | .sub => intRes f sat (va - vb)
    | .mul => intRes f sat (va * vb)
    | .min => ⟨if vb < va then b else a, 0⟩
    | .max => ⟨if va < vb then b else a, 0⟩
    | .mulh => ⟨wrapInt (fmtSize f) (va * vb / 2 ^ (8 * fmtSize f)), 0⟩
    | .absd => intRes f sat (va - vb).natAbs
  else
    match fn with
    | .add => fadd f rm u sat a b
    | .sub => fsub f rm u sat a b
    | .mul => fmul f rm u sat a b
    | .min => ⟨fmin f a b, 0⟩
    | .max => ⟨fmax f a b, 0⟩
    | .mulh => ⟨a, 0⟩
    | .absd => finish f rm u sat (absEx (exSub rm (decodeF f a) (decodeF f b)))

/-- R108: one element of VFMA. -/
def vfmaEl (fn : VfmaFn) (f : Fmt) (rm : Rm) (sat : Bool) (u : Nat) (x : Nat × Nat × Nat) : FR :=
  let (a, b, c) := x
  if fmtIsInt f then
    let p := intVal f a * intVal f b
    match fn with
    | .fma => intRes f sat (p + intVal f c)
    | .fms => intRes f sat (p - intVal f c)
    | .fnma => intRes f sat (-p + intVal f c)
  else ffma f rm u sat (fn == .fnma) (fn == .fms) a b c

/-- The bits of 1.0. -/
def fone (f : Fmt) : Nat := (roundNum (spec f) .rne 0 false false 1 0 false).bits

def fposV : FVal → Bool
  | .nan => false
  | .inf n => !n
  | .fin n m _ => !n && m != 0

/-- R109: one element of VOP1. -/
def vop1El (fn : Vop1Fn) (f : Fmt) (rm : Rm) (sat : Bool) (a : Nat) : FR :=
  if fmtIsInt f then
    match fn with
    | .mov => ⟨a, 0⟩
    | .neg => intRes f sat (-intVal f a)
    | .abs => intRes f sat (intVal f a).natAbs
    | .relu => ⟨if 0 < intVal f a then a else 0, 0⟩
    | .relud | .rint => ⟨a, 0⟩
  else
    match fn with
    | .mov => ⟨a, 0⟩
    | .neg => ⟨fneg f a, 0⟩
    | .abs => ⟨fabsB f a, 0⟩
    | .relu =>
      match decodeF f a with
      | .nan => ⟨(spec f).nan, 0⟩
      | v => ⟨if fposV v then a else 0, 0⟩
    | .relud =>
      match decodeF f a with
      | .nan => ⟨(spec f).nan, 0⟩
      | v => ⟨if fposV v then fone f else 0, 0⟩
    | .rint => frint f rm a

/-- R110: one comparison. -/
def vcmpEl (cc : FCc) (f : Fmt) (a b : Nat) : Bool :=
  if fmtIsInt f then
    let va := intVal f a
    let vb := intVal f b
    match cc with
    | .eq => va == vb
    | .ne => va != vb
    | .lt => decide (va < vb)
    | .le => decide (va ≤ vb)
    | .gt => decide (vb < va)
    | .ge => decide (vb ≤ va)
    | .un => false
  else fcc cc (decodeF f a) (decodeF f b)

def onesOf (size : Nat) : Nat := 2 ^ (8 * size) - 1

/-- R107: one element of VINT, on bit patterns. -/
def vintEl (fn : VintFn) (size : Nat) (a b : Nat) : Nat :=
  let w := 8 * size
  let sh := b % w
  match fn with
  | .and => Nat.land a b
  | .or => Nat.lor a b
  | .xor => Nat.xor a b
  | .andn => Nat.land a (Nat.xor b (onesOf size))
  | .shl => (a <<< sh) % 2 ^ w
  | .shr => a >>> sh
  | .sra => wrapInt size ((if a < 2 ^ (w - 1) then (a : Int) else (a : Int) - 2 ^ w) / 2 ^ sh)

/-- One level of a summation tree on FP32 values (R112). -/
def pairUp : List Nat → List Nat × Nat
  | a :: b :: rest =>
    let r := fadd .fp32 .rne 0 false a b
    let (xs, fl) := pairUp rest
    (r.bits :: xs, Nat.lor r.flags fl)
  | l => (l, 0)

/-- R112: the tree, level by level, with the flags of its steps. -/
def treeSum : Nat → List Nat → Nat × Nat
  | 0, l => (l.headD 0, 0)
  | n + 1, l =>
    if l.length ≤ 1 then (l.headD 0, 0)
    else
      let (m, fl) := pairUp l
      let r := treeSum n m
      (r.1, Nat.lor fl r.2)

def foldNe {α : Type} (f : α → α → α) (d : α) : List α → α
  | [] => d
  | x :: xs => xs.foldl f x

/-- R112: the value and the flags of VRED. -/
def vredVal (fn : VredFn) (f : Fmt) (l : List Nat) : W64 × Nat :=
  if fmtIsInt f then
    let vs := l.map (intVal f)
    (BitVec.ofInt 64 (match fn with
      | .sum => vs.foldl (· + ·) 0
      | .max => foldNe (fun a b => if a < b then b else a) 0 vs
      | .min => foldNe (fun a b => if b < a then b else a) 0 vs
      | .amax => foldNe (fun a b => if a < b then b else a) 0 (vs.map (fun v => (v.natAbs : Int)))), 0)
  else
    let vs := l.map (toF32 f)
    match fn with
    | .sum => let r := treeSum 10 vs; (w64 r.1, r.2)
    | .max => (w64 (foldNe (fmax .fp32) 0 vs), 0)
    | .min => (w64 (foldNe (fmin .fp32) 0 vs), 0)
    | .amax => (w64 (foldNe (fmax .fp32) 0 (vs.map (fabsB .fp32))), 0)

/-- R121: one element of VSCA, from the destination, the partial, the two scale bytes. -/
def vscaEl (f : Fmt) (rm : Rm) (u : Nat) (x : Nat × FVal × Nat × Nat) : FR :=
  let (d, p, sa, sb) := x
  if sa = 0xFF ∨ sb = 0xFF then ⟨(spec f).nan, 0⟩
  else finish f rm u false (exFma rm false false p (.fin false 1 ((sa : Int) - 127 + (sb - 127)))
    (decodeF f d))

/-! ## Rows as operands -/

def rowOf (e : Env) (n : VReg) : Row :=
  (viewRow e.k n.toNat).getD { tile := 0, row := 0, rb := 64, x := false }

def vTiles (k : Core) (ns : List VReg) : List Nat :=
  ns.filterMap (fun n => (viewRow k n.toNat).map (·.tile))

/-- R54, R53: the first vector register that resolves to no row. -/
def unresolved (k : Core) (ns : List VReg) : Option VReg := ns.find? (fun n => (viewRow k n.toNat).isNone)

/-- R53: UNCONF of vector registers, then of tiles named directly. -/
def unconfStop (e : Env) (i : Instr) (ns : List VReg) (ts : List Nat) : Option Stop :=
  match unresolved e.k ns with
  | some n => some (e.tileStop i 2 (viewTile e.k n.toNat) .unconf)
  | none => (ts.find? (fun t => !shapeConf (e.k.shape t))).map (fun t => e.tileStop i 2 t .unconf)

/-- R99: the operands of an elementwise instruction have one row length. -/
def sameRb (e : Env) (ns : List VReg) : Bool :=
  match ns with
  | [] => true
  | n :: rest => rest.all (fun m => (rowOf e m).rb == (rowOf e n).rb)

/-- R302, R309: the log entry of a V slot. `saved` pairs an SV bit with a row. -/
def vLog (e : Env) (s : State) (i : Instr) (scals : List W64) (saved : List (Nat × VReg))
    (pa ps : Nat) (wrote : List (Nat × Nat)) : LogRec :=
  { cls := logClass .v, opc := (encWords i).1.toNat % 128, w0 := (encWords i).1, w1 := 0,
    scals := scals, pa := [pa], ps := [ps], sv := maskOf (saved.map (·.1)), rc := 0, prods := [],
    payload := saved.map (fun x => ((rowOf e x.2).rb, some ((s.core e.c).rowBytes (rowOf e x.2)))),
    fmtrec := 0, wrote := wrote }

/-- The scalar that BS = 1 names. -/
def bsReg (vb : VReg) : SReg := vb.setWidth 5
def bsScal (e : Env) (bs : Bool) (vb : VReg) : List W64 := if bs then [rdScal e (bsReg vb)] else []
def bsRows (bs : Bool) (vb : VReg) : List VReg := if bs then [] else [vb]

def vEls (e : Env) (s : State) (n : VReg) (size : Nat) : List Nat := (s.core e.c).elems (rowOf e n) size

/-- R100: the elements of vb, or the broadcast scalar. -/
def vElsB (e : Env) (s : State) (bs : Bool) (vb : VReg) (size n : Nat) : List Nat :=
  if bs then List.replicate n ((rdScal e (bsReg vb)).toNat % 2 ^ (8 * size)) else vEls e s vb size

/-- Results, flags and generator of a V slot written back (R38, R42, R101). -/
def finishV (e : Env) (s : State) (d : VReg) (size at' : Nat) (r : List Nat × Nat × W64) : State :=
  s.modCore e.c (fun k => ((k.orFlags r.2.1).setSr r.2.2).putElems (rowOf e d) size at' r.1)

def srOf (e : Env) (s : State) : W64 := (s.core e.c).cfgAt rSRSTATE

/-- A V slot over vector registers: readiness, UNCONF, the checks of its own, then its effect and the cycles of
its interval (R125). -/
def semV (g : Guard) (i : Instr) (names : List VReg) (own : Env → State → Option Stop)
    (scals : Env → List W64) (saved : List (Nat × VReg)) (interval : Nat)
    (eff : Env → State → State) : SlotSem :=
  { cls := 2, guard := g, i := i,
    ready := fun e s => tilesReady (s.core e.c) (vTiles e.k names),
    poll := fun e s _ => bringTiles s e.c (vTiles e.k names),
    check := fun e s =>
      match unconfStop e i names [] with
      | some st => some st
      | none => own e s,
    log := fun e s => some (vLog e s i (scals e) saved 0 0 []),
    eff := fun e s => (eff e s).modCore e.c (Core.vBusy interval) }

/-- VSHAPE of an elementwise instruction. -/
def shapeStop (i : Instr) (names : List VReg) (e : Env) (_ : State) : Option Stop :=
  if sameRb e names then none else e.stop i 2 .vshape

/-! ## Elementwise instructions -/

def semVop2 (g : Guard) (fn : Vop2Fn) (bs sat : Bool) (rm : Rm) (f : Fmt) (vb va vd : VReg) : SlotSem :=
  let i := Instr.vop2 g fn bs sat rm f vb va vd
  let names := [vd, va] ++ bsRows bs vb
  let saves := match fn with
    | .mul | .min | .max | .absd => (0, va) :: (bsRows bs vb).map (fun n => (1, n))
    | _ => []
  semV g i names (shapeStop i names) (fun e => bsScal e bs vb) saves 1 (fun e s =>
    let as := vEls e s va (fmtSize f)
    finishV e s vd (fmtSize f) 0 (mapDraw rm (vop2El fn f rm sat)
      (as.zip (vElsB e s bs vb (fmtSize f) as.length)) (srOf e s)))

def semVfma (g : Guard) (fn : VfmaFn) (bs sat : Bool) (rm : Rm) (f : Fmt) (vc vb va vd : VReg) : SlotSem :=
  let i := Instr.vfma g fn bs sat rm f vc vb va vd
  let names := [vd, va] ++ bsRows bs vb ++ [vc]
  semV g i names (shapeStop i names) (fun e => bsScal e bs vb)
    ((0, va) :: (bsRows bs vb).map (fun n => (1, n))) 1 (fun e s =>
      let as := vEls e s va (fmtSize f)
      finishV e s vd (fmtSize f) 0 (mapDraw rm (vfmaEl fn f rm sat)
        (as.zip ((vElsB e s bs vb (fmtSize f) as.length).zip (vEls e s vc (fmtSize f)))) (srOf e s)))

def semVop1 (g : Guard) (fn : Vop1Fn) (sat : Bool) (rm : Rm) (f : Fmt) (va vd : VReg) : SlotSem :=
  let i := Instr.vop1 g fn sat rm f va vd
  let saves := match fn with
    | .abs | .relu => [(0, va)]
    | _ => []
  semV g i [vd, va] (shapeStop i [vd, va]) (fun _ => []) saves 1 (fun e s =>
    finishV e s vd (fmtSize f) 0 (mapDraw .rne (fun _ a => vop1El fn f rm sat a)
      (vEls e s va (fmtSize f)) (srOf e s)))

def semVcmp (g : Guard) (qd : PReg) (qw : Bool) (cc : FCc) (bs : Bool) (f : Fmt) (vb va vd : VReg) :
    SlotSem :=
  let i := Instr.vcmp g qd qw cc bs f vb va vd
  let names := [vd, va] ++ bsRows bs vb
  semV g i names (shapeStop i names) (fun e => bsScal e bs vb) [] 1 (fun e s =>
    let as := vEls e s va (fmtSize f)
    let rs := (as.zip (vElsB e s bs vb (fmtSize f) as.length)).map (fun x => vcmpEl cc f x.1 x.2)
    let s1 := finishV e s vd (fmtSize f) 0
      (rs.map (fun b => if b then onesOf (fmtSize f) else 0), 0, srOf e s)
    if qw then wrPred e s1 qd (rs.any id) else s1)

def semVsel (g : Guard) (bs : Bool) (f : Fmt) (vc vb va vd : VReg) : SlotSem :=
  let i := Instr.vsel g bs f vc vb va vd
  let names := [vd, va] ++ bsRows bs vb ++ [vc]
  semV g i names (shapeStop i names) (fun e => bsScal e bs vb) [(2, vc)] 1 (fun e s =>
    let as := vEls e s va (fmtSize f)
    let xs := as.zip ((vElsB e s bs vb (fmtSize f) as.length).zip (vEls e s vc (fmtSize f)))
    finishV e s vd (fmtSize f) 0 (xs.map (fun x => if x.2.2 != 0 then x.1 else x.2.1), 0, srOf e s))

def semVred (g : Guard) (fn : VredFn) (f : Fmt) (va : VReg) (sd : SReg) : SlotSem :=
  semV g (.vred g fn f va sd) [va] (fun _ _ => none) (fun _ => []) [] 2 (fun e s =>
    let r := vredVal fn f (vEls e s va (fmtSize f))
    wrScal e (s.modCore e.c (·.orFlags r.2)) sd r.1)

def semVint (g : Guard) (fn : VintFn) (bs : Bool) (f : Fmt) (vb va vd : VReg) : SlotSem :=
  let i := Instr.vint g fn bs f vb va vd
  let names := [vd, va] ++ bsRows bs vb
  semV g i names (shapeStop i names) (fun e => bsScal e bs vb) [] 1 (fun e s =>
    let as := vEls e s va (fmtSize f)
    let xs := as.zip (vElsB e s bs vb (fmtSize f) as.length)
    finishV e s vd (fmtSize f) 0 (xs.map (fun x => vintEl fn (fmtSize f) x.1 x.2), 0, srOf e s))

def semVmovi (g : Guard) (imm : BitVec 32) (f : Fmt) (vd : VReg) : SlotSem :=
  semV g (.vmovi g imm f vd) [vd] (fun _ _ => none) (fun _ => []) [] 1 (fun e s =>
    finishV e s vd (fmtSize f) 0
      (List.replicate ((rowOf e vd).rb / fmtSize f) (imm.toNat % 2 ^ (8 * fmtSize f)), 0, srOf e s))

/-- R122, R124: FP32 only; the flags are those of each element. -/
def semVsfu (g : Guard) (fn : SfuFn) (va vd : VReg) : SlotSem :=
  let i := Instr.vsfu g fn va vd
  semV g i [vd, va] (shapeStop i [vd, va]) (fun _ => []) [(0, va)] 4 (fun e s =>
    finishV e s vd 4 0 (mapDraw .rne (fun _ a => sfu fn a) (vEls e s va 4) (srOf e s)))

/-! ## Slices and columns -/

def semVrows (g : Guard) (sz : Size) (cntm1 doff soff : BitVec 9) (va vd : VReg) : SlotSem :=
  let i := Instr.vrows g sz cntm1 doff soff va vd
  let n := sizeBytes sz
  let cnt := cntm1.toNat + 1
  semV g i [vd, va] (fun e _ =>
      if (rowOf e vd).rb / n < doff.toNat + cnt ∨ (rowOf e va).rb / n < soff.toNat + cnt then
        e.stop i 2 .vshape
      else none) (fun _ => []) [] 1 (fun e s =>
    finishV e s vd n doff.toNat (((vEls e s va n).drop soff.toNat).take cnt, 0, srOf e s))

def semVcols (g : Guard) (put : Bool) (sz : Size) (col : BitVec 9) (tile : TileReg) (va vd : VReg) :
    SlotSem :=
  let i := Instr.vcols g put sz col tile va vd
  let n := sizeBytes sz
  let t := tile.toNat
  let v := if put then va else vd
  let rows := fun (e : Env) => shapeRows (e.k.shape t)
  { semV g i [v] (fun _ _ => none) (fun _ => []) [] 0 (fun e s =>
      (if put then
        let xs := (vEls e s va n).take (rows e)
        s.modCore e.c (fun k =>
          (xs.zipIdx.foldl (fun k x => k.putElem (tileRow e.k t x.2) n col.toNat x.1) k).setDirty t)
      else
        let xs := (List.range (rows e)).map (fun r => (s.core e.c).elem (tileRow e.k t r) n col.toNat)
        finishV e s vd n 0 (xs, 0, srOf e s)).modCore e.c (Core.vBusy (rows e / 16))) with
    ready := fun e s => tilesReady (s.core e.c) (t :: vTiles e.k [v]),
    poll := fun e s _ => bringTiles s e.c (t :: vTiles e.k [v]),
    check := fun e _ =>
      match unconfStop e i [v] [t] with
      | some st => some st
      | none =>
        if (rowOf e v).rb / n < rows e ∨ shapeRowB (e.k.shape t) / n ≤ col.toNat then
          e.stop i 2 .vshape
        else none }

/-! ## Conversions -/

/-- R118: the elements converted, and where they land. -/
def semVcvt (g : Guard) (tgt : Fmt) (part : BitVec 2) (sat : Bool) (rm : Rm) (frm : Fmt) (va vd : VReg) :
    SlotSem :=
  let i := Instr.vcvt g tgt part sat rm frm va vd
  let s1 := fmtSize frm
  let d1 := fmtSize tgt
  semV g i [vd, va] (shapeStop i [vd, va]) (fun _ => []) [] 2 (fun e s =>
    let xs := vEls e s va s1
    let n := (rowOf e va).rb / (if s1 < d1 then d1 else s1)
    let src := if s1 < d1 then (xs.drop (part.toNat * n)).take n else xs
    let at' := if d1 < s1 then part.toNat * n else 0
    finishV e s vd d1 at' (mapDraw rm (fun u x => convert frm tgt rm u sat x) src (srOf e s)))

/-! ## Tile-store accesses of the V slot (R116, R117, R120) -/

/-- R212: whether a peer's tile store is granted: the core holds a motif of the same launch that
has not begun to leave. -/
def peerGrant (s : State) (c o : Nat) : Bool :=
  o == c ||
    (match s.motifOn c, s.motifOn o with
     | some m, some p =>
       m.launch == p.launch && !(s.core o).ended && !(s.core o).selvedge &&
         (p.st == .running || p.st == .preempting)
     | _, _ => false)

/-- The space of an access to core `o` of the cluster: one's own tile store is the own space. -/
def peerSpace (c o : Nat) : Space := if o = c then .ts else .peer o

/-- R10, R17: core PEER of the issuer's cluster. -/
def peerCore (c : Nat) (peer : BitVec 2) : Nat := 4 * clusterOf c + peer.toNat

/-- An access of the V slot bypasses the write buffers: everything that it must follow has landed,
the core's own buffered stores to the same lines can land, and pending-bit checking lets it pass. -/
def vAccReady (e : Env) (s : State) (h : Nat) (sp : Space) (ad n : Nat) (store : Bool) : Bool :=
  let k := afterForks e (s.core e.c)
  let lo := ad / 64 * 64
  clearOf k (loadDeps k e.who h) &&
  (!e.cStore || (clearOf k (loadDeps k e.who 0) && (!k.fstr || k.buf.all (fun b => !b.under e.who 0)))) &&
  (!store || ((forwards k e.who sp lo (n + 64)).all (fun b => clearOf k b.deps) &&
    (!k.fstr || k.buf.all (fun b => !b.under e.who h)))) &&
  (match sp with
   | .peer _ => true
   | _ => !pendWait k e.who h ad n store)

/-- The granules of a row that a V-slot store overwrites, as they stand: an unfenced copy under another handle may
still read them (R117, R323). -/
def oldRow (c : Nat) (ag : Agent) (h ad n : Nat) (k : Core) : List OldGran :=
  (List.range ((ad % 64 + n + 63) / 64)).map (fun i =>
    let g := ad / 64 * 64 + 64 * i
    { core := c, agent := ag, handles := [h], off := g, old := bytesAt k.ts g 64 })

/-- A V-slot store lands at issue: after the agent's own buffered stores to the same lines. In MM1 mode one
whose bundle's SST is still to land under the same handle lands behind it, granule by granule (R328). -/
def vStore (e : Env) (s : State) (h : Nat) (sp : Space) (ad : Nat) (bs : List Byte) : State :=
  let lo := ad / 64 * 64
  if (s.core e.c).fstr && (s.core e.c).buf.any (·.under e.who h) then
    (chunks64 bs).zipIdx.foldl (fun s x => bufferStore s e.c e.who h sp (ad + 64 * x.2) Trans.none x.1) s
  else
  let s1 := landOverlapping s e.c e.who sp lo (bs.length + 64)
  let s2 := s1.modCore e.c (fun k => countIssue (k.storePast e.who sp ad bs.length) e.who h)
  let src := srcOf e.who
  let s3 := match sp with
    | .mcast => landMc s2 e.c src ad bs
    | .peer o => landTs s2 o (if o = e.c then src else 3) ad bs
    | _ => landTs s2 e.c src ad bs
  (match sp with
    | .mcast => members s2 e.c
    | .peer o => [o]
    | _ => [e.c]).foldl (fun s o => s.modCore o (fun k =>
      { k with vold := k.vold ++ oldRow e.c e.who h ad bs.length (s2.core o) })) s3

/-- R305: a write by VSTT or VCVTO into a ring slot clears its producer. -/
def clearProducer (k : Core) (ring slot : Nat) : Core :=
  { k with producers := k.producers.filter (fun p => !(p.1 == ring && p.2.1 == slot)) }

/-- R69: the slot that the descriptor of a row access selects. -/
def vSlot (e : Env) (d : Desc) (store : Bool) : Nat :=
  let w := e.k.cb (descH d)
  if store then dstSlot w d else srcSlot w d

def vRowAddr (e : Env) (d : Desc) (rowix : BitVec 10) (am : Bool) (sa : SReg) (rb : Nat) (store : Bool) :
    Nat :=
  if am then ((rdScal e sa).toNat + rowix.toNat * 64) % 2 ^ 64
  else slotAddr (e.k.cb (descH d)) (vSlot e d store) + rowix.toNat * rb

def vSpace (e : Env) (win : Win) (peer : BitVec 2) : Space :=
  match win with
  | .own => .ts
  | .peer => peerSpace e.c (peerCore e.c peer)
  | .mcast => .mcast

/-- The checks of R116 in order, for a row of `rb` bytes. -/
def vRowStop (e : Env) (s : State) (i : Instr) (d : Desc) (rowix : BitVec 10) (win : Win)
    (peer : BitVec 2) (am : Bool) (oh : Handle) (sa : SReg) (rb : Nat) (store : Bool) : Option Stop :=
  let ad := vRowAddr e d rowix am sa rb store
  let k := s.core e.c
  let t := { e.trap i 2 with faddr := ad, acc := bitOf store }
  let w := e.k.cb (descH d)
  if !am && !cbValid w then some (e.ringStop i 2 (descH d) .cbuf)
  else if !am && decide (cbSlotBytes w < rowix.toNat * rb + rb) then some (.trap { t with cause := .tsrange })
  else if am && ad % 64 != 0 then some (.trap { t with cause := .dalign })
  else if am && (decide (k.share < ad + rb) || (win == .peer && !peerGrant s e.c (peerCore e.c peer))) then
    some (.trap { t with cause := .tsrange })
  else
    match vSpace e win peer with
    | .peer _ => none
    | _ => pendingStop e k t oh.toNat ad rb store

def vRingReady (e : Env) (s : State) (d : Desc) (am store : Bool) : Bool :=
  let w := (s.core e.c).cb (descH d)
  am || !cbValid w ||
    ((if store then dstReady w d else srcReady w d) &&
      marksFree (s.core e.c) (if store then [] else [descH d]) (if store then [descH d] else []))

def vRowRead (e : Env) (s : State) (i : Instr) (win : Win) (peer : BitVec 2) (ad rb : Nat) : Rd :=
  let sp := vSpace e win peer
  let o := match sp with
    | .peer o => o
    | _ => e.c
  tsLoad s e.c o (some e.who) sp ad rb (e.trap i 2)

def semVldt (g : Guard) (desc : Desc) (rowix : BitVec 10) (win : Win) (peer : BitVec 2) (am : Bool)
    (oh : Handle) (sa : SReg) (vd : VReg) : SlotSem :=
  let i := Instr.vldt g desc rowix win peer am oh sa vd
  let rb := fun (e : Env) => (rowOf e vd).rb
  let ad := fun (e : Env) => vRowAddr e desc rowix am sa (rb e) false
  { semV g i [vd] (fun _ _ => none) (fun _ => []) [] (if win = .own then 1 else 4) (fun e s =>
      match vRowRead e s i win peer (ad e) (rb e) with
      | .bytes bs =>
        let ws := (List.range (bs.length / 4)).map (fun j => leNat ((bs.drop (4 * j)).take 4))
        finishV e (s.modCore e.c (fun k =>
          countIssue (k.loadPast e.who oh.toNat (vSpace e win peer) (ad e) (rb e)) e.who oh.toNat)) vd 4 0 (ws, 0, srOf e s)
      | _ => s) with
    ready := fun e s =>
      tilesReady (s.core e.c) (vTiles e.k [vd]) && vRingReady e s desc am false &&
        ((unresolved e.k [vd]).isSome || vAccReady e s oh.toNat (vSpace e win peer) (ad e) (rb e) false),
    check := fun e s =>
      match unconfStop e i [vd] [] with
      | some st => some st
      | none =>
        match vRowStop e s i desc rowix win peer am oh sa (rb e) false with
        | some st => some st
        | none => rdStop (vRowRead e s i win peer (ad e) (rb e)),
    log := fun e s =>
      let w := e.k.cb (descH desc)
      if am then some (vLog e s i [rdScal e sa] [] 0 0 [])
      else some (vLog e s i [] [] (slotAddr w (vSlot e desc false)) (vSlot e desc false) []) }

def semVstt (g : Guard) (desc : Desc) (rowix : BitVec 10) (win : Win) (peer : BitVec 2) (am : Bool)
    (oh : Handle) (sa : SReg) (vs : VReg) : SlotSem :=
  let i := Instr.vstt g desc rowix win peer am oh sa vs
  let rb := fun (e : Env) => (rowOf e vs).rb
  let ad := fun (e : Env) => vRowAddr e desc rowix am sa (rb e) true
  { semV g i [vs] (fun _ _ => none) (fun _ => []) [] (if win = .own then 1 else 4) (fun e s =>
      let bs := (s.core e.c).rowBytes (rowOf e vs)
      let s1 := vStore e s oh.toNat (vSpace e win peer) (ad e) bs
      if am then s1 else s1.modCore e.c (fun k => clearProducer k (descH desc) (vSlot e desc true))) with
    ready := fun e s =>
      tilesReady (s.core e.c) (vTiles e.k [vs]) && vRingReady e s desc am true &&
        ((unresolved e.k [vs]).isSome || vAccReady e s oh.toNat (vSpace e win peer) (ad e) (rb e) true),
    check := fun e s =>
      match unconfStop e i [vs] [] with
      | some st => some st
      | none => vRowStop e s i desc rowix win peer am oh sa (rb e) true,
    log := fun e s =>
      let w := e.k.cb (descH desc)
      if am then some (vLog e s i [rdScal e sa] [] 0 0 [])
      else some (vLog e s i [] [] (slotAddr w (vSlot e desc true)) (vSlot e desc true) []) }

/-! ## VCVTO (R120) -/

/-- R120: whether an element is an outlier. -/
def isOutlier (t x : Nat) : Bool :=
  fcc .gt (decodeF .fp32 (fabsB .fp32 x)) (decodeF .fp32 (t % 2 ^ 31))

def semVcvto (g : Guard) (desc : Desc) (rm : Rm) (tgt : Fmt) (sat : Bool) (part : BitVec 2) (sd : SReg)
    (va vd : VReg) : SlotSem :=
  let i := Instr.vcvto g desc rm tgt sat part sd va vd
  let n := fun (e : Env) => (rowOf e va).rb / 4
  let t := fun (e : Env) => (e.k.cfgAt rOTH).toNat % 2 ^ 32
  let ad := fun (e : Env) => slotAddr (e.k.cb (descH desc)) (vSlot e desc true)
  let outs := fun (e : Env) (s : State) => (vEls e s va 4).filter (isOutlier (t e))
  { semV g i [vd, va] (shapeStop i [vd, va]) (fun _ => []) [] 2 (fun e s =>
      let xs := vEls e s va 4
      let side := (outs e s).map (fun x => floatToFloat .fp32 .bf16 .rne 0 false x)
      let norm := mapDraw rm (fun u x => floatToFloat .fp32 tgt rm u sat x)
        (xs.filter (fun x => !isOutlier (t e) x)) (srOf e s)
      let go := xs.foldl (fun (acc : List Nat × List Nat) x =>
        if isOutlier (t e) x then (acc.1 ++ [0], acc.2)
        else (acc.1 ++ [acc.2.headD 0], acc.2.drop 1)) ([], norm.1)
      let fl := side.foldl (fun f r => Nat.lor f r.flags) norm.2.1
      let mask := maskOf ((xs.zipIdx.filter (fun x => isOutlier (t e) x.1)).map (·.2))
      let s1 := finishV e s vd 1 (part.toNat * n e) (go.1, fl, norm.2.2)
      let bs := side.flatMap (fun r => leBytes 2 r.bits)
      let s2 := if bs.isEmpty then s1 else (vStore e s1 0 .ts (ad e) bs).modCore e.c (fun k =>
        clearProducer k (descH desc) (vSlot e desc true))
      wrScal e (wrScal e s2 sd (w64 mask)) (sd + 1) (w64 (mask / 2 ^ 64))) with
    ready := fun e s =>
      tilesReady (s.core e.c) (vTiles e.k [vd, va]) && vRingReady e s desc false true &&
        ((unresolved e.k [vd, va]).isSome || (outs e s).isEmpty ||
          vAccReady e s 0 .ts (ad e) (2 * (outs e s).length) true),
    check := fun e s =>
      match unconfStop e i [vd, va] [] with
      | some st => some st
      | none =>
        if !cbValid (e.k.cb (descH desc)) then some (e.ringStop i 2 (descH desc) .cbuf)
        else if !sameRb e [vd, va] then e.stop i 2 .vshape
        else if cbSlotBytes (e.k.cb (descH desc)) < 2 * n e then some (e.ringStop i 2 (descH desc) .cbuf)
        else if (outs e s).isEmpty then none
        else pendingStop e (s.core e.c) { e.trap i 2 with acc := 1 } 0 (ad e) (2 * (outs e s).length) true,
    log := fun e s => some (vLog e s i [] [] (ad e) (vSlot e desc true) []) }

/-! ## VSCA (R121) -/

def semVsca (g : Guard) (pint : Bool) (rm : Rm) (vc vb va vd : VReg) : SlotSem :=
  let i := Instr.vsca g pint rm vc vb va vd
  let n := fun (e : Env) => (rowOf e vd).rb / 4
  semV g i [vd, va, vb, vc] (fun e _ =>
      if !sameRb e [vd, va] || decide ((rowOf e vb).rb < n e ∨ (rowOf e vc).rb ≤ (rowOf e vd).row) then
        e.stop i 2 .vshape
      else none) (fun _ => []) [(1, vb), (2, vc)] 1 (fun e s =>
    let k := s.core e.c
    let d := rowOf e vd
    let sa := k.elem (rowOf e vc) 1 d.row
    let xs := (List.range (n e)).map (fun j =>
      let p := k.elem32 (rowOf e va) j
      ((if d.x then k.elemX d j else k.elem32 d j),
       (if pint then FVal.fin (decide (2 ^ 31 ≤ p)) (sint32 p).natAbs 0 else decodeF .fp32 p),
       sa, k.elem (rowOf e vb) 1 j))
    let r := mapDraw rm (vscaEl (if d.x then .fp32x else .fp32) rm) xs (srOf e s)
    if d.x then
      s.modCore e.c (fun k =>
        ((r.1.zipIdx.foldl (fun k x => k.putX d x.2 x.1) ((k.orFlags r.2.1).setSr r.2.2))).setDirty d.tile)
    else finishV e s vd 4 0 r)

/-! ## The V-slot instructions alone in a bundle -/

def execVop2 (g : Guard) (fn : Vop2Fn) (bs sat : Bool) (rm : Rm) (fmt : Fmt) (vb va vd : VReg)
    (s : State) : Out := issueHard (semVop2 g fn bs sat rm fmt vb va vd) s
def execVfma (g : Guard) (fn : VfmaFn) (bs sat : Bool) (rm : Rm) (fmt : Fmt) (vc vb va vd : VReg)
    (s : State) : Out := issueHard (semVfma g fn bs sat rm fmt vc vb va vd) s
def execVop1 (g : Guard) (fn : Vop1Fn) (sat : Bool) (rm : Rm) (fmt : Fmt) (va vd : VReg)
    (s : State) : Out := issueHard (semVop1 g fn sat rm fmt va vd) s
def execVcmp (g : Guard) (qd : PReg) (qw : Bool) (cc : FCc) (bs : Bool) (fmt : Fmt) (vb va vd : VReg)
    (s : State) : Out := issueHard (semVcmp g qd qw cc bs fmt vb va vd) s
def execVsel (g : Guard) (bs : Bool) (fmt : Fmt) (vc vb va vd : VReg) (s : State) : Out :=
  issueHard (semVsel g bs fmt vc vb va vd) s
def execVred (g : Guard) (fn : VredFn) (fmt : Fmt) (va : VReg) (sd : SReg) (s : State) : Out :=
  issueHard (semVred g fn fmt va sd) s
def execVrows (g : Guard) (sz : Size) (cntm1 doff soff : BitVec 9) (va vd : VReg) (s : State) : Out :=
  issueHard (semVrows g sz cntm1 doff soff va vd) s
def execVcols (g : Guard) (put : Bool) (sz : Size) (col : BitVec 9) (tile : TileReg) (va vd : VReg)
    (s : State) : Out := issueHard (semVcols g put sz col tile va vd) s
def execVcvt (g : Guard) (tgt : Fmt) (part : BitVec 2) (sat : Bool) (rm : Rm) (frm : Fmt) (va vd : VReg)
    (s : State) : Out := issueHard (semVcvt g tgt part sat rm frm va vd) s
def execVcvto (g : Guard) (desc : Desc) (rm : Rm) (tgt : Fmt) (sat : Bool) (part : BitVec 2) (sd : SReg)
    (va vd : VReg) (s : State) : Out := issueHard (semVcvto g desc rm tgt sat part sd va vd) s
def execVsca (g : Guard) (pint : Bool) (rm : Rm) (vc vb va vd : VReg) (s : State) : Out :=
  issueHard (semVsca g pint rm vc vb va vd) s
def execVsfu (g : Guard) (fn : SfuFn) (va vd : VReg) (s : State) : Out :=
  issueHard (semVsfu g fn va vd) s
def execVint (g : Guard) (fn : VintFn) (bs : Bool) (fmt : Fmt) (vb va vd : VReg) (s : State) : Out :=
  issueHard (semVint g fn bs fmt vb va vd) s
def execVmovi (g : Guard) (imm : BitVec 32) (fmt : Fmt) (vd : VReg) (s : State) : Out :=
  issueHard (semVmovi g imm fmt vd) s
def execVldt (g : Guard) (desc : Desc) (rowix : BitVec 10) (win : Win) (peer : BitVec 2) (am : Bool)
    (oh : Handle) (sa : SReg) (vd : VReg) (s : State) : Out :=
  issueHard (semVldt g desc rowix win peer am oh sa vd) s
def execVstt (g : Guard) (desc : Desc) (rowix : BitVec 10) (win : Win) (peer : BitVec 2) (am : Bool)
    (oh : Handle) (sa : SReg) (vs : VReg) (s : State) : Out :=
  issueHard (semVstt g desc rowix win peer am oh sa vs) s

end Sys2Proof.Machine
end

