-- ==== Sys2Proof/Machine/Mslot.lean ====
section
/-! DEFINITION. The M slot (R223 to R244): the lease of the cluster array, operand slots, matrix
commands and their acceptance and completion. -/
namespace Sys2Proof.Machine

/-! ## Engine commands in general -/

/-- The trap frame of an engine command after its bundle issued (R240, R268, R330); that of a
nested command names the fibre that issued it, which stands behind its TISSUE. -/
def engTrap (k : Core) (slot : Nat) (i : Instr) (baddr : Nat) (parent : Option (Nat × List Nat)) : Trap :=
  let t : Trap := { cause := .illegal, slot := slot, baddr := baddr, w0 := (encWords i).1,
                    w1 := (encWords i).2, async := true }
  match parent with
  | none => t
  | some (g, ls) =>
    let l := ls.headD 0
    { t with depth := (k.gangAt g).depth, gang := g, lane := l,
             fpc := va57 (((k.gangAt g).fibre l).pc + (2 ^ 57 - 8)) }

/-- R203: the fibres that waited for a nested command are ready again. -/
def wakeLanes (k : Core) (parent : Option (Nat × List Nat)) : Core :=
  match parent with
  | none => k
  | some (g, ls) =>
    let x := k.gangAt g
    k.setGang g (ls.foldl (fun x l =>
      let f := x.fibre l
      if f.st = .waiting then x.setFibre l { f with st := .ready } else x) x)

/-- R305: a command of a routine that is a recomputation suppresses all that is not data. -/
def Env.quiet (e : Env) : Bool :=
  match e.who with
  | .seq => false
  | .fibre g _ => ((e.k.gangAt g).cmd.map (·.quiet)).getD false

/-- The parent of a command that a slot or a TISSUE issues. -/
def Env.parent (e : Env) : Option (Nat × List Nat) :=
  match e.who with
  | .seq => Option.none
  | .fibre g _ => some (g, e.lanes)

/-! ## The lease (R223 to R226) -/

def leaseOf (s : State) (c : Nat) : Lease := (s.cluster (clusterOf c)).lease.getD (c % 4) .idle
def giveUpOf (s : State) (c : Nat) : Option Nat := (s.cluster (clusterOf c)).giveUp.getD (c % 4) none

def setLease (s : State) (c : Nat) (l : Lease) : State :=
  s.modCluster (clusterOf c) (fun x => { x with lease := lset x.lease (c % 4) l })
def setGiveUp (s : State) (c : Nat) (last : Option Nat) : State :=
  s.modCluster (clusterOf c) (fun x => { x with giveUp := lset x.giveUp (c % 4) last })

def holder (x : Cluster) : Option Nat := (List.range 4).find? (fun i => x.lease.getD i .idle == .holding)

/-- R225: PCLASS of the motif's launch, plus 1. -/
def leaseWeight (s : State) (c : Nat) : Nat :=
  match (s.motifOn c).bind (fun m => s.launch? m.launch) with
  | some l => gf (l.recd.getD 0 0) 59 2 + 1
  | none => 1

/-- R225: one arbitration, where some core is WAITING. -/
def arbitrate (s : State) (n : Nat) : State :=
  let x := s.cluster n
  let waits := fun i => x.lease.getD i .idle == .waiting
  let ages := (List.range 4).map (fun i =>
    if waits i then x.age.getD i 0 + leaseWeight s (4 * n + i) else 0)
  let order := ((List.range 4).map (fun d => (x.lastHolder + 1 + d) % 4)).filter waits
  match order with
  | [] => s
  | a :: rest =>
    let w := rest.foldl (fun b i => if ages.getD b 0 < ages.getD i 0 then i else b) a
    s.setCluster n { x with lease := lset x.lease w .holding, age := lset ages w 0, lastHolder := w,
                            tcmd := 0, termAt := s.time }

/-- The first command of a core that the array has not accepted. -/
def nextMcmd (k : Core) : Option MCmd := k.mcmds.find? (fun m => !m.accepted)

def modMcmd (k : Core) (id : Nat) (f : MCmd → MCmd) : Core :=
  { k with mcmds := k.mcmds.map (fun m => if m.id = id then f m else m) }

/-- A MUNLEASE takes effect: every command issued before it has been accepted (R223, R235). -/
def givesUp (s : State) (c : Nat) : Bool :=
  match giveUpOf s c with
  | none => false
  | some last => !(s.core c).mcmds.any (fun m => !m.accepted && decide (m.id ≤ last))

/-- The array accepts a command (R224). Once those issued again under R240 are accepted, the lease is what the
context had saved: one saved IDLE is given up, one saved WAITING waits again. -/
def acceptCmd (s : State) (c : Nat) (m : MCmd) : State :=
  let s1 := s.modCore c (fun k => modMcmd k m.id (fun m => { m with accepted := true, reissue := false }))
  let s2 := s1.modCluster (clusterOf c) (fun x =>
    { x with tcmd := x.tcmd + 1, queue := x.queue ++ [(c, m.id)] })
  if !m.reissue || (s2.core c).mcmds.any (fun q => q.reissue) then s2
  else if m.leaseBefore == 0 then setGiveUp s2 c (some m.id)
  else if m.leaseBefore == 1 then setLease s2 c .waiting
  else s2

/-- The array takes what it can: it accepts commands of the holder in issue order, takes back a
lease given up once what came before is accepted, and arbitrates when it has no holder. -/
def settle (n : Nat) : Nat → State → State
  | 0, s => s
  | f + 1, s =>
    match holder (s.cluster n) with
    | none =>
      if ((s.cluster n).lease).any (· == .waiting) then settle n f (arbitrate s n) else s
    | some i =>
      let c := 4 * n + i
      if givesUp s c then settle n f (setGiveUp (setLease s c .idle) c none)
      else
        match nextMcmd (s.core c) with
        | none => s
        | some m =>
          if m.fetched && decide ((s.cluster n).tcmd < 64) &&
              (!m.reissue || (s.core c).halt.isNone) then settle n f (acceptCmd s c m)
          else s

def settleOf (s : State) (c : Nat) : State := settle (clusterOf c) 64 s

/-- R223: a request; MLEASE while WAITING or HOLDING has no effect. -/
def requestLease (s : State) (c : Nat) : State :=
  if leaseOf s c = .idle then settleOf (setLease s c .waiting) c else s

/-- R223, R235. One that stands already ends the term by its own commands. -/
def releaseLease (s : State) (c : Nat) : State :=
  match leaseOf s c with
  | .idle => s
  | .waiting => setGiveUp (setLease s c .idle) c none
  | .holding =>
    if (giveUpOf s c).isSome then s else settleOf (setGiveUp s c (some ((s.core c).nextId - 1))) c

/-- Slots of the M class. -/
def semM (g : Guard) (i : Instr) (eff : Env → State → State) : SlotSem :=
  { cls := 1, guard := g, i := i, eff := eff }

def semMlease (g : Guard) : SlotSem := semM g (.mlease g) (fun e s => requestLease s e.c)
def semMunlease (g : Guard) : SlotSem := semM g (.munlease g) (fun e s => releaseLease s e.c)

/-- LEASE_TERM_END: a term ends after 64 commands or 4,096 cycles (R223, R224), but UNPICK holds the array until the
adjoint of an M entry has ended (R311). -/
def execLeaseTermEnd (n : Nat) (s : State) : Out :=
  let x := s.cluster n
  match holder x with
  | none => .next s
  | some i =>
    if (decide (x.tcmd < 64) && decide (s.time - x.termAt < 4096)) ||
        ((s.core (4 * n + i)).upk.bind (·.lease)).isSome then .next s
    else if x.lease.any (· == .waiting) then .next (settle n 64 (setLease s (4 * n + i) .waiting))
    else .next (settle n 64 (s.setCluster n { x with tcmd := 0, termAt := s.time }))

/-! ## Operand slots (R227, R228, R236) -/

def OpSlots.empty (id : Nat) : OpSlots := { motif := id, claimed := [], bytes := [], poison := [] }

def Cluster.ops (x : Cluster) (id : Nat) : OpSlots := (x.slots.find? (·.motif == id)).getD (OpSlots.empty id)
def Cluster.setOps (x : Cluster) (o : OpSlots) : Cluster :=
  { x with slots := x.slots.filter (·.motif != o.motif) ++ (if o.claimed.isEmpty then [] else [o]) }

/-- The operand slots of the motif on a core. -/
def opsOf (s : State) (c : Nat) : OpSlots := (s.cluster (clusterOf c)).ops ((s.core c).motif.getD 0)

def modOps (s : State) (c : Nat) (f : OpSlots → OpSlots) : State :=
  let id := (s.core c).motif.getD 0
  s.modCluster (clusterOf c) (fun x =>
    if x.slots.any (·.motif == id) then
      let os := x.slots.map (fun o => if o.motif = id then f o else o)
      { x with slots := os.filter (fun o => !o.claimed.isEmpty) }
    else x.setOps (f (OpSlots.empty id)))

/-- Takes logical slots out: their contents are discarded. -/
def dropSlots (o : OpSlots) (ls : List Nat) : OpSlots :=
  { o with claimed := o.claimed.filter (fun l => !ls.contains l),
           bytes := ls.foldl (fun b l => mclear b (l * 16384) 16384) o.bytes,
           poison := o.poison.filter (fun g => !ls.contains (g / 256)) }

/-- R228: a slot of a parked motif goes into its owner's save area. -/
def saveSlot (s : State) (fr : Nat) (o : OpSlots) (l : Nat) : State :=
  let s1 := physWrite s (fr + frameOps + l * 16384) (bytesAt o.bytes (l * 16384) 16384)
  { s1 with poison := s1.poison ++ (o.poison.filter (fun g => g / 256 == l)).map (fun g =>
      (fr + frameOps) / 64 + g) }

/-- R228: evicts the oldest parked slot of a cluster. -/
def evictSlot (s : State) (n : Nat) : State :=
  let here := (List.range 4).filterMap (fun i => (s.core (4 * n + i)).motif)
  match (s.cluster n).slots.find? (fun o => !here.contains o.motif && !o.claimed.isEmpty) with
  | none => s
  | some o =>
    let l := o.claimed.headD 0
    let s1 := match (s.motif? o.motif).bind (frameOf s) with
      | some fr => saveSlot s fr o l
      | none => s
    s1.modCluster n (fun x =>
      let os := x.slots.map (fun p => if p.motif = o.motif then dropSlots p [l] else p)
      { x with slots := os.filter (fun p => !p.claimed.isEmpty) })

/-- Frees physical slots until `need` more can be claimed. -/
def makeRoom (n need : Nat) : Nat → State → State
  | 0, s => s
  | f + 1, s =>
    if 256 < (((s.cluster n).slots.map (fun o => o.claimed.length)).sum) + need then
      makeRoom n need f (evictSlot s n)
    else s

def slotRange (cntm1 first : LSlot) : List Nat :=
  (List.range (cntm1.toNat + 1)).map (· + first.toNat)

def semMclaim (g : Guard) (cntm1 first : LSlot) : SlotSem :=
  semM g (.mclaim g cntm1 first) (fun e s =>
    let new := (slotRange cntm1 first).filter (fun l => !(opsOf s e.c).claimed.contains l)
    modOps (makeRoom (clusterOf e.c) new.length 256 s) e.c (fun o =>
      let o1 := dropSlots o new
      { o1 with claimed := new.foldl (fun cs l => insertAsc l cs) o1.claimed }))

/-- Logical slots that a range of operand bytes touches. -/
def slotsOfRange (a n : Nat) : List Nat :=
  (List.range ((a + n + 16383) / 16384 - a / 16384)).map (· + a / 16384)

/-- The logical slots that an outstanding KFILL writes. -/
def kSlots (x : KCmd) : List Nat :=
  match x.i with
  | .kfill _ _ =>
    let g := kGeo x.i x.scal
    (rowsOf x.dst g g.ds).flatMap (fun r => slotsOfRange r.1 r.2)
  | _ => []

/-- M, N, K and the shared fields of a multiply. -/
def mmaDims : Instr → Nat × Nat × Nat × MmaOp
  | .mma _ km1 o => (o.mm1.toNat + 1, o.nm1.toNat + 1, km1.toNat + 1, o)
  | .mmah _ _ _ _ km1 o => (o.mm1.toNat + 1, o.nm1.toNat + 1, km1.toNat + 1, o)
  | _ => (0, 0, 0, default)

/-- R234: the bytes of the operands. -/
def mmaBytes (i : Instr) (fa fb : Fmt) : Nat × Nat :=
  let (m, n, k, _) := mmaDims i
  (m * k * fmtSize fa, k * n * fmtSize fb)

/-- The destination slot, base, row bytes, rows and stride of each operand that an MMAH fetches,
once its records are read (R239). -/
structure FetchRec where
  slot : Nat
  base : Nat
  stride : Int
  rb : Nat
  rows : Nat
  deriving DecidableEq, Repr

/-- The operands that a handle fetch brings: their first slots. -/
def fetchSlots : Instr → List Nat
  | .mmah _ _ a b _ o => (if a then [o.sla.toNat] else []) ++ (if b then [o.slb.toNat] else [])
  | _ => []

def fetchRecs (m : MCmd) : List FetchRec :=
  if m.recs.isEmpty then []
  else (fetchSlots m.i).zipIdx.map (fun x =>
    let w := fun n => m.recs.getD (4 * x.2 + n) 0
    { slot := x.1, base := gf (w 0) 0 57, stride := sint32 (gf (w 1) 0 32), rb := gf (w 2) 32 32,
      rows := gf (w 2) 0 32 })

/-- The logical slots that an outstanding matrix command names. -/
def mSlots (m : MCmd) : List Nat :=
  let (_, _, _, o) := mmaDims m.i
  let (na, nb) := mmaBytes m.i m.fa m.fb
  slotsOfRange (o.sla.toNat * 16384) na ++ slotsOfRange (o.slb.toNat * 16384) nb ++
    (fetchRecs m).flatMap (fun r => slotsOfRange (r.slot * 16384) (r.rows * r.rb))

def semMrels (g : Guard) (cntm1 first : LSlot) : SlotSem :=
  let ls := slotRange cntm1 first
  { semM g (.mrels g cntm1 first) (fun e s => modOps s e.c (fun o => dropSlots o ls)) with
    ready := fun e s =>
      let k := s.core e.c
      !(k.mcmds.flatMap mSlots ++ k.kcmds.flatMap kSlots).any (fun l => ls.contains l) }

/-! ## Multiply-accumulate (R232 to R239) -/

/-- R238: the formats of A and B. -/
def mmaFmts (k : Core) (o : MmaOp) : Fmt × Fmt :=
  if o.cmp then
    let w := k.cfgAt rMFMT
    ((fmtOfCode (gf w 0 6)).getD .bf16, (fmtOfCode (gf w 6 6)).getD .bf16)
  else (o.fmt, o.fmt)

/-- R234, MFORMAT. -/
def mformatBad (k : Core) (o : MmaOp) : Bool :=
  let et := shapeEtype (k.shape o.ad.toNat)
  (o.cmp && !(k.cfgAt rMFMT).getLsbD 15) ||
    (if (mmaFmts k o).1 = .int8 then et != 0x0B else et != 0x00 && et != 0x04)

/-- R234, OPSLOT: the first slot of an operand that is not claimed, or lies beyond l63. -/
def badSlot (s : State) (c first n : Nat) : Option Nat :=
  (slotsOfRange (first * 16384) n).find? (fun l =>
    decide (64 ≤ l) || !(claimedOf s c).contains l)

def Env.slotStop (e : Env) (i : Instr) (slot l : Nat) (c : Cause) : Stop :=
  .trap { e.trap i slot with cause := c, tkind := 3, tnum := l % 64 }

def mmaStop (e : Env) (s : State) (i : Instr) : Option Stop :=
  let (m, n, _, o) := mmaDims i
  let k := s.core e.c
  let t := o.ad.toNat
  let (fa, fb) := mmaFmts e.k o
  let (na, nb) := mmaBytes i fa fb
  if !shapeConf (k.shape t) then some (e.tileStop i 1 t .unconf)
  else if leaseOf s e.c = .idle then e.stop i 1 .nolease
  else if mformatBad e.k o then some (e.tileStop i 1 t .mformat)
  else if shapeRows (k.shape t) < m ∨ shapeRowB (k.shape t) < n * 4 then some (e.tileStop i 1 t .mshape)
  else
    match (badSlot s e.c o.sla.toNat na).orElse (fun _ => badSlot s e.c o.slb.toNat nb) with
    | some l => some (e.slotStop i 1 l .opslot)
    | none => none

/-- R226: with the lease IDLE the command does not wait, it traps. -/
def mmaReady (e : Env) (s : State) (o : MmaOp) : Bool :=
  tileReady (s.core e.c) o.ad.toNat &&
    (match leaseOf s e.c with
     | .idle => true
     | .waiting => false
     | .holding => decide ((s.cluster (clusterOf e.c)).tcmd < 64))

/-- R302, R304: the log entry of a matrix command. -/
def mmaLog (e : Env) (i : Instr) (scals : List W64) : LogRec :=
  let (_, _, _, o) := mmaDims i
  let (fa, fb) := mmaFmts e.k o
  let (na, nb) := mmaBytes i fa fb
  let save := gf (e.k.cfgAt rLOGCFG) 0 2
  { cls := logClass .m, opc := (encWords i).1.toNat % 128, w0 := (encWords i).1, w1 := 0,
    scals := scals, pa := [], ps := [], sv := save, rc := 0, prods := [],
    payload := (if hasBit save 0 then [(na, none)] else []) ++
      (if hasBit save 1 then [(nb, none)] else []),
    fmtrec := if o.cmp then e.k.cfgAt rMFMT else 0, wrote := [] }

/-- A matrix command starts: its tile is busy and dirty, and it stands before the array. -/
def startMma (e : Env) (s : State) (i : Instr) (h : W64) : State :=
  let (_, _, _, o) := mmaDims i
  let (fa, fb) := mmaFmts e.k o
  let fetch := !(fetchSlots i).isEmpty
  let oh := gf h 60 4
  let s1 := s.modCore e.c (fun k =>
    let (id, k1) := k.newId
    let m : MCmd := { id := id, agent := e.who, i := i, h := h, baddr := e.base, fa := fa, fb := fb,
                      landed := [], recs := [], fetched := !fetch, accepted := false, reissue := false,
                      leaseBefore := 2,
                      deps := if fetch then outUnder k e.who oh ++ hdepOf k e.who oh else [],
                      fmtrec := if o.cmp then e.k.cfgAt rMFMT else 0, logAt := e.logAt,
                      parent := e.parent, ran := 0 }
    let k2 := { k1 with mcmds := k1.mcmds ++ [m], tileCmd := k1.tileCmd ++ [(o.ad.toNat, id)] }
    (if fetch then countIssue (k2.dropAhead e.who) e.who oh else k2).setDirty o.ad.toNat)
  settleOf s1 e.c

def semMma (g : Guard) (km1 : BitVec 10) (o : MmaOp) : SlotSem :=
  let i := Instr.mma g km1 o
  { semM g i (fun e s => startMma e s i 0) with
    ready := fun e s => mmaReady e s o,
    poll := fun e s _ => bringTiles s e.c [o.ad.toNat],
    check := fun e s => mmaStop e s i,
    log := fun e _ => some (mmaLog e i []) }

def semMmah (g : Guard) (sh : SReg) (gA gB : Bool) (km1 : BitVec 7) (o : MmaOp) : SlotSem :=
  let i := Instr.mmah g sh gA gB km1 o
  { semM g i (fun e s => startMma e s i (rdScal e sh)) with
    ready := fun e s => mmaReady e s o,
    poll := fun e s _ => bringTiles s e.c [o.ad.toNat],
    check := fun e s => mmaStop e s i,
    log := fun e _ => some (mmaLog e i [rdScal e sh]) }

/-- R241. -/
def semMdrain (g : Guard) : SlotSem :=
  { semM g (.mdrain g) (fun _ s => s) with
    ready := fun e s => (s.core e.c).mcmds.isEmpty && (s.core e.c).mzeroAt.isEmpty }

/-- R242: the configured bytes and the guard plane become zero; the tile is busy for 16 cycles. -/
def semMzero (g : Guard) (ad : TileReg) : SlotSem :=
  let i := Instr.mzero g ad
  let t := ad.toNat
  { semM g i (fun e s => s.modCore e.c (fun k =>
      let n := shapeRows (k.shape t) * shapeRowB (k.shape t)
      let k1 := { k with tiles := mclear k.tiles (tileKey t 0) n,
                         guard := mclear k.guard (guardKey t 0) 16384,
                         mzeroAt := k.mzeroAt ++ [(t, k.cycles)],
                         mzeroFor := k.mzeroFor ++ (e.parent.toList.map (fun p => (t, p))) }
      k1.setDirty t)) with
    ready := fun e s => tileReady (s.core e.c) t,
    poll := fun e s _ => bringTiles s e.c [t],
    check := fun e s => if shapeConf ((s.core e.c).shape t) then none else some (e.tileStop i 1 t .unconf),
    log := fun _ _ => some { cls := logClass .m, opc := 0x3F, w0 := (encWords i).1, w1 := 0, scals := [],
                             pa := [], ps := [], sv := 0, rc := 0, prods := [], payload := [],
                             fmtrec := 0, wrote := [] } }

/-- MZERO_BUSY_END: after 16 cycles the tile is released, and a batch that waited for it goes on (R203). -/
def execMzeroBusyEnd (core tile : Nat) (s : State) : Out :=
  .next (s.modCore core (fun k =>
    let k1 := { k with mzeroAt := k.mzeroAt.filter (fun x => !(x.1 == tile && decide (x.2 + 16 ≤ k.cycles))) }
    if k1.mzeroAt.any (·.1 == tile) then k1
    else
      (k.mzeroFor.filter (·.1 == tile)).foldl (fun k w => wakeLanes k (some w.2))
        { k1 with mzeroFor := k.mzeroFor.filter (·.1 != tile) }))

/-! ## The array (R237, R243) -/

/-- R32, R43, R237: the blocks of 32 added to an accumulator, in ascending order. -/
def mmaElem (int : Bool) (af fa fb : Fmt) (a b : Nat → Nat) (kk acc : Nat) : Nat :=
  (List.range ((kk + 31) / 32)).foldl (fun acc blk =>
    let ks := ((List.range 32).map (· + 32 * blk)).filter (· < kk)
    if int then
      wrapInt 4 ((acc : Int) + (ks.map (fun k => intVal .int8 (a k) * intVal .int8 (b k))).sum)
    else
      accumulate af acc ((ks.foldl (fun bl k =>
        bl.add (termMul (decodeF fa (a k)) (decodeF fb (b k)))) Block.empty).val)) acc

/-- R229: element (i, k) of A and element (k, j) of B. -/
def opA (o : OpSlots) (i : Instr) (fa : Fmt) (r k : Nat) : Nat :=
  let (m, _, kk, x) := mmaDims i
  let es := fmtSize fa
  numAt o.bytes (x.sla.toNat * 16384 + (if x.ta then k * m + r else r * kk + k) * es) es
def opB (o : OpSlots) (i : Instr) (fb : Fmt) (k j : Nat) : Nat :=
  let (_, n, kk, x) := mmaDims i
  let es := fmtSize fb
  numAt o.bytes (x.slb.toNat * 16384 + (if x.tb then j * kk + k else k * n + j) * es) es

/-- R237: the tile after a command. -/
def mmaTile (k : Core) (o : OpSlots) (m : MCmd) : Core :=
  let (mm, n, kk, x) := mmaDims m.i
  let t := x.ad.toNat
  let int := m.fa == .int8
  ((List.range mm).foldl (fun k r =>
    let row := tileRow k t r
    (List.range n).foldl (fun k j =>
      let acc := if !x.acc then 0 else if row.x then k.elemX row j else k.main row j
      let v := mmaElem int (if row.x then .fp32x else .fp32) m.fa m.fb (opA o m.i m.fa r)
        (fun q => opB o m.i m.fb q j) kk acc
      if row.x then k.putX row j v else k.putElem row 4 j v) k) k).setDirty t

/-- R243: whether both operands of a command have 8-bit formats. -/
def MCmd.bytes8 (m : MCmd) : Bool := fmtSize m.fa == 1 && fmtSize m.fb == 1

/-- R243: the cycles for which a command occupies the array. -/
def mmaCycles (m : MCmd) : Nat :=
  let (_, _, kk, _) := mmaDims m.i
  if m.bytes8 then (kk + 1) / 2 else kk

/-- R245: the weight of an array cycle of a command. -/
def mmaWeight (m : MCmd) : Nat := if m.bytes8 then 64 else 56

/-- The command that the array of a cluster works on: the first that has not had its cycles. -/
def arrayAt (s : State) (n : Nat) : Option (Nat × MCmd) :=
  (s.cluster n).queue.findSome? (fun q =>
    ((s.core q.1).mcmds.find? (fun m => m.id == q.2 && decide (m.ran < mmaCycles m))).map (fun m => (q.1, m)))

/-- The operands that an M entry saves, as the array read them (R303). -/
def mmaFill (s : State) (c : Nat) (o : OpSlots) (m : MCmd) : State :=
  match m.logAt with
  | none => s
  | some (entry, ctl) =>
    let (_, _, _, x) := mmaDims m.i
    let (na, nb) := mmaBytes m.i m.fa m.fb
    let a := bytesAt o.bytes (x.sla.toNat * 16384) na
    let b := bytesAt o.bytes (x.slb.toNat * 16384) nb
    let t := engTrap (s.core c) 1 m.i m.baddr none
    let parts := (if ctl.getLsbD 16 then [a] else []) ++ (if ctl.getLsbD 17 then [b] else [])
    match parts with
    | [] => s
    | [p] => logFill s c t entry ctl 128 p true
    | p :: q :: _ =>
      logFill (logFill s c t entry ctl 128 p false) c t entry ctl (128 + (p.length + 63) / 64 * 64) q true

/-- R246: the power budget of a core's island lets the core move. -/
def powered (k : Core) : Bool := gf (k.cfgAt rPLIM) 0 16 == 0 || decide (0 < k.credit)

/-- The first poisoned granule of an operand that a command reads, A before B. -/
def operandPoison (o : OpSlots) (m : MCmd) : Option Nat :=
  let (_, _, _, x) := mmaDims m.i
  let (na, nb) := mmaBytes m.i m.fa m.fb
  let bad := fun (a n : Nat) => (o.poison.filter (fun g => overlap (g * 64) 64 a n)).min?
  (bad (x.sla.toNat * 16384) na).orElse (fun _ => bad (x.slb.toNat * 16384) nb)

/-- ARRAY_COMMAND_COMPLETE: the command at the head of the array, which has had its cycles, finishes. Its tile
is brought to it first (R343). A poisoned operand faults the command, which is issued again at resume (R240,
R351); the record names the operand slot and the granule (log entry 84). -/
def execArrayCommandComplete (n : Nat) (s : State) : Out :=
  match (s.cluster n).queue with
  | [] => .next s
  | (c, id) :: rest =>
    let k := s.core c
    let s1 := s.modCluster n (fun x => { x with queue := rest })
    match k.mcmds.find? (·.id == id) with
    | none => .next s1
    | some m =>
      if !powered k || decide (m.ran < mmaCycles m) then .next s
      else
        let o := opsOf s c
        match operandPoison o m with
        | some g =>
          let s2 := s1.modCore c (fun k => modMcmd k id (fun m =>
            { m with accepted := false, reissue := true, ran := 0 }))
          .next (raiseTrap s2 c { engTrap k 1 m.i m.baddr m.parent with
            cause := .memerr, faddr := g * 64, tkind := 3, tnum := g / 256 })
        | none =>
          let s2 := (bringTiles s1 c [(mmaDims m.i).2.2.2.ad.toNat]).modCore c (fun k =>
            let k1 := mmaTile k o m
            wakeLanes { k1 with mcmds := k1.mcmds.filter (·.id != id),
                                tileCmd := k1.tileCmd.filter (·.2 != id) } m.parent)
          .next (settle n 64 (mmaFill s2 c o m))

/-! ## The M-slot instructions alone in a bundle -/

def execMlease (g : Guard) (s : State) : Out := issueHard (semMlease g) s
def execMunlease (g : Guard) (s : State) : Out := issueHard (semMunlease g) s
def execMclaim (g : Guard) (cntm1 first : LSlot) (s : State) : Out := issueHard (semMclaim g cntm1 first) s
def execMrels (g : Guard) (cntm1 first : LSlot) (s : State) : Out := issueHard (semMrels g cntm1 first) s
def execMma (g : Guard) (km1 : BitVec 10) (o : MmaOp) (s : State) : Out := issueHard (semMma g km1 o) s
def execMmah (g : Guard) (sh : SReg) (gA gB : Bool) (km1 : BitVec 7) (o : MmaOp) (s : State) : Out :=
  issueHard (semMmah g sh gA gB km1 o) s
def execMdrain (g : Guard) (s : State) : Out := issueHard (semMdrain g) s
def execMzero (g : Guard) (ad : TileReg) (s : State) : Out := issueHard (semMzero g ad) s

end Sys2Proof.Machine
end

