-- ==== Sys2Proof/Machine/Kslot.lean ====
section
/-! DEFINITION. The K slot (R259 to R280): transfers and their pieces, completion, stamps and ring
advances, eyelets, compressed gradient copies, and the handle fetch of MMAH (R239). -/
namespace Sys2Proof.Machine

/-! ## Sides -/

/-- Whether the destination of a transfer is global memory. -/
def kDstGm : Instr → Bool
  | .kcopy _ x => x.dst == .gm
  | .kcgrad _ _ _ _ _ => true
  | _ => false

/-- Whether the source is global memory. -/
def kSrcGm : Instr → Bool
  | .kcopy _ x | .kfill _ x | .kgang _ x | .kmcast _ x => x.src == .gm
  | _ => false

def ringOf (e : Env) (ring : Bool) (d : Desc) (dst : Bool) : Option (Nat × Nat) :=
  if ring then some (descH d, if dst then dstSlot (e.k.cb (descH d)) d else srcSlot (e.k.cb (descH d)) d)
  else none

def kSring (e : Env) (x : KXfer) : Option (Nat × Nat) := ringOf e (x.src == .ring) x.sdesc false
def kDring (e : Env) (x : KXfer) : Option (Nat × Nat) := ringOf e (x.dst == .ring) x.ddesc true

/-- The start of a side. Bits [63:57] of a global address are ignored, which R260 leaves open (DESIGN CHOICE, log
entry 88). -/
def sideStart (e : Env) (ring : Option (Nat × Nat)) (gm : Bool) (r : SReg) : Nat :=
  match ring with
  | some (h, sl) => slotAddr (e.k.cb h) sl
  | none => if gm then gf (rdScal e r) 0 57 else (rdScal e r).toNat

def kSrcAt (e : Env) (i : Instr) (x : KXfer) : Nat := sideStart e (kSring e x) (kSrcGm i) x.ss
def kDstAt (e : Env) (i : Instr) (x : KXfer) : Nat := sideStart e (kDring e x) (kDstGm i) x.sd

/-- R260: the scalars of the command, as they stood before the bundle. -/
def kScal (e : Env) (x : KXfer) : List W64 :=
  [rdScal e x.sd, rdScal e x.ss, rdScal e x.sn, rdScal1 e x.sn, rdScal e x.se, rdScal1 e x.se]

def usesPair : Instr → Bool
  | .kcopy _ _ | .kfill _ _ | .kmcast _ _ | .kpull _ _ _ => true
  | _ => false

/-! ## Issue-time checks (R264) -/

/-- A side in 64-byte units: row bytes, offset and stride must be multiples of 64. -/
def side64 (g : Geo) (off : Nat) (stride : Int) : Bool :=
  g.rb % 64 == 0 && off % 64 == 0 && stride % 64 == 0

/-- The first row of a side, of its first and its last, that leaves a range. -/
def rowOut (lo hi : Nat) (g : Geo) (off : Nat) (stride : Int) : Option Nat :=
  [0, g.rows - 1].findSome? (fun r =>
    let a := rowAt off r stride
    if (lo : Int) ≤ a ∧ a + g.rb ≤ hi then none else some (a % 2 ^ 64).toNat)

/-- R270: a KGANG target that the command may not write. -/
def kgangBad (k : Core) (sd : W64) : Bool :=
  let g := gf sd 0 2
  let x := k.gangAt g
  gf sd 2 6 != 0 || gf sd 24 8 != 0 || decide (k.gangs ≤ g) || x.st != .running ||
    decide (x.bound < gf sd 8 8 + gf sd 16 8 + 1) || gf sd 32 32 == 0

def stampAt (scal : List W64) : Nat := gf (scal.getD 4 0) 0 57
def eyeAt (scal : List W64) : Nat := (scal.getD 4 0).toNat

/-- Rows of a global side, modulo 2^57. -/
def gmRows (base : Nat) (g : Geo) (stride : Int) : List (Nat × Nat) :=
  (List.range g.rows).map (fun (r : Nat) => (addVa base (Int.ofNat r * stride), g.rb))

/-- R264, KPARAM. -/
def kparamBad (k : Core) (i : Instr) (x : KXfer) (scal : List W64) (src dst : Nat) : Bool :=
  let g := kGeo i scal
  let sn := scal.getD 2 0
  (usesPair i && (gf sn 37 27 != 0 || g.rb == 0 || decide (1048576 < g.rb))) ||
  (match i with
   | .kgang _ _ => kgangBad k (scal.getD 0 0)
   | .kfill _ _ => gf (scal.getD 0 0) 20 44 != 0
   | .kcgrad _ _ _ _ _ => sn.toNat % 64 != 0
   | _ => false) ||
  (match i with
   | .kcgrad _ _ _ _ _ => src % 64 != 0
   | _ => !kSrcGm i && !side64 g src g.ss) ||
  (match i with
   | .kgang _ _ => false
   | _ => !kDstGm i && !side64 g dst g.ds) ||
  (x.cmpl == Cmpl.stamp && (gmRows dst g g.ds).any (fun r => overlap r.1 r.2 (stampAt scal) 8)) ||
  (x.cmpl == Cmpl.eyelet &&
    (match i with
     | .kfill _ _ => false
     | _ => (rowsAt dst g g.ds).any (fun r => decide (r.1 < eyeAt scal + 16 ∧ (eyeAt scal : Int) < r.1 + r.2))))

/-- R264, TSRANGE: the offset that leaves its slot or the share. -/
def kRangeBad (e : Env) (i : Instr) (x : KXfer) (scal : List W64) (src dst : Nat) : Option Nat :=
  let g := kGeo i scal
  let share := e.k.share
  let within := fun (ring : Option (Nat × Nat)) (off : Nat) (st : Int) (n : Nat) =>
    let gg := { g with rb := n }
    match ring with
    | some (h, _) => rowOut off (off + cbSlotBytes (e.k.cb h)) gg off st
    | none => rowOut 0 share gg off st
  let dstOut := match i with
    | .kgang _ _ | .kfill _ _ => none
    | _ => if kDstGm i then none else within (kDring e x) dst g.ds g.rb
  let srcOut := match i with
    | .kpull _ _ _ => none
    | .kcgrad _ _ _ _ nb => within (kSring e x) src 0 (128 * (nb.toNat + 1))
    | _ => if kSrcGm i then none else within (kSring e x) src g.ss g.rb
  let resOut := match i with
    | .kcgrad _ _ _ _ nb => within none (scal.getD 2 0).toNat 0 (128 * (nb.toNat + 1))
    | _ => none
  let eyeOut := if x.cmpl == .eyelet && decide (share < eyeAt scal + 16) then some (eyeAt scal) else none
  (dstOut.orElse (fun _ => srcOut)).orElse (fun _ => resOut.orElse (fun _ => eyeOut))

def kStop (e : Env) (s : State) (i : Instr) (x : KXfer) : Option Stop :=
  let scal := kScal e x
  let src := kSrcAt e i x
  let dst := kDstAt e i x
  let g := kGeo i scal
  let t := e.trap i 3
  let rings := ((if x.dst == .ring then [descH x.ddesc] else []) ++
    (if x.src == .ring then [descH x.sdesc] else []))
  match rings.find? (fun h => !cbValid (e.k.cb h)) with
  | some h => some (e.ringStop i 3 h .cbuf)
  | none =>
    if kparamBad (s.core e.c) i x scal src dst then e.stop i 3 .kparam
    else
      match kRangeBad e i x scal src dst with
      | some a => some (.trap { t with cause := .tsrange, faddr := a })
      | none =>
        let op : Option Nat := match i with
          | .kfill _ _ => (rowsAt dst g g.ds).findSome? (fun (r : Int × Nat) =>
              if r.1 < 0 then some (r.1 / 16384 % 64).toNat
              else (slotsOfRange r.1.toNat r.2).find? (fun l => !(claimedOf s e.c).contains l))
          | _ => none
        match op with
        | some l => some (e.slotStop i 3 l .opslot)
        | none =>
          if x.cmpl == Cmpl.stamp && stampAt scal % 8 != 0 then
            some (.trap { t with cause := .dalign, faddr := stampAt scal })
          else if x.cmpl == Cmpl.eyelet && eyeAt scal % 16 != 0 then
            some (.trap { t with cause := .dalign, faddr := eyeAt scal })
          else none

/-! ## Issue -/

/-- R64, R69, R143, R259, R352: the channel has room and the rings are ready. -/
def kReady (s : State) (c : Nat) (x : KXfer) : Bool :=
  let k := s.core c
  let ch := x.ch.toNat
  !k.frozenCh.contains ch &&
  decide ((k.kcmds.filter (fun y => ((xferOf y.i).map (·.ch.toNat)) == some ch)).length < 8) &&
  (x.dst != .ring || !cbValid (k.cb (descH x.ddesc)) || dstReady (k.cb (descH x.ddesc)) x.ddesc) &&
  (x.src != .ring || !cbValid (k.cb (descH x.sdesc)) || srcReady (k.cb (descH x.sdesc)) x.sdesc) &&
  marksFree k (if x.src == .ring then [descH x.sdesc] else []) (if x.dst == .ring then [descH x.ddesc] else [])

/-- R270: the registers that a KGANG writes, as keys of the gang. -/
def kgangKeys (sd : W64) : List Nat :=
  ((List.range 32).filter (fun l => hasBit (gf sd 32 32) l)).flatMap (fun l =>
    (List.range (gf sd 16 8 + 1)).map (fun r => regKey l (gf sd 8 8 + r)))

/-- A command enters its channel (R47, R266); KGANG marks its registers pending, KCGRAD takes its
draws (R279). -/
def startK (e : Env) (s : State) (i : Instr) (x : KXfer) : State :=
  let h := x.oh.toNat
  s.modCore e.c (fun k =>
    let (id, k1) := k.newId
    let y : KCmd := { id := id, agent := e.who, i := i, scal := kScal e x, baddr := e.base,
                      src := kSrcAt e i x, dst := kDstAt e i x, sring := kSring e x, dring := kDring e x,
                      landed := [], packet := [], draws := k.cfgAt rSRSTATE, finished := false,
                      deps := outUnder k e.who h ++ hdepOf k e.who h, quiet := e.quiet,
                      parent := e.parent }
    let k2 := countIssue ({ k1 with kcmds := k1.kcmds ++ [y] }.dropAhead e.who) e.who h
    match i with
    | .kgang _ _ =>
      let sd := rdScal e x.sd
      let g := gf sd 0 2
      k2.setGang g { k2.gangAt g with pend := (k2.gangAt g).pend ++ kgangKeys sd }
    | .kcgrad _ _ _ _ nb => k2.setSr (srAdvance (32 * (nb.toNat + 1)) (k2.cfgAt rSRSTATE))
    | _ => k2)

/-- R302: the scalars that the command reads, in the order of their fields. -/
def kLogScals (e : Env) (i : Instr) (x : KXfer) : List W64 :=
  (if x.dst == .ring then [] else [rdScal e x.sd]) ++ (if x.src == .ring then [] else [rdScal e x.ss]) ++
  (match i with
   | .kgang _ _ => []
   | .kcgrad _ _ _ _ _ => [rdScal e x.sn]
   | _ => [rdScal e x.sn, rdScal1 e x.sn]) ++
  (match x.cmpl with
   | .none => []
   | .eyelet => [rdScal e x.se]
   | .stamp => [rdScal e x.se, rdScal1 e x.se])

def kLog (e : Env) (i : Instr) (x : KXfer) : LogRec :=
  let at' := fun (r : Option (Nat × Nat)) => (r.map (fun p => slotAddr (e.k.cb p.1) p.2)).getD 0
  let sl := fun (r : Option (Nat × Nat)) => (r.map (·.2)).getD 0
  { cls := logClass .k, opc := (encWords i).1.toNat % 128, w0 := (encWords i).1, w1 := (encWords i).2,
    scals := kLogScals e i x, pa := [at' (kDring e x), at' (kSring e x)],
    ps := [sl (kDring e x), sl (kSring e x)], sv := 0, rc := 0, prods := [], payload := [], fmtrec := 0,
    wrote := (kDring e x).toList }

def semXfer (g : Guard) (i : Instr) (x : KXfer) : SlotSem :=
  { cls := 3, guard := g, i := i,
    ready := fun e s => kReady s e.c x,
    check := fun e s => kStop e s i x,
    log := fun e _ => some (kLog e i x),
    eff := fun e s => startK e s i x,
    weight := fun _ => 4 }

def semKcopy (g : Guard) (x : KXfer) : SlotSem := semXfer g (.kcopy g x) x
def semKfill (g : Guard) (x : KXfer) : SlotSem := semXfer g (.kfill g x) x
def semKgang (g : Guard) (x : KXfer) : SlotSem := semXfer g (.kgang g x) x
def semKmcast (g : Guard) (x : KXfer) : SlotSem := semXfer g (.kmcast g x) x
def semKcgrad (g : Guard) (x : KXfer) (tgt : Fmt) (rm : Rm) (nbm1 : BitVec 6) : SlotSem :=
  semXfer g (.kcgrad g x tgt rm nbm1) x
def semKpull (g : Guard) (x : KXfer) (peer : BitVec 2) : SlotSem := semXfer g (.kpull g x peer) x

/-! ## Pieces (R265) -/

/-- Piece p of a row of n bytes that is cut at the multiples of 64 of its start: offset, length. -/
def pieceSplit (start n p : Nat) : Option (Nat × Nat) :=
  let first := if 64 - start % 64 < n then 64 - start % 64 else n
  if p = 0 then some (0, first)
  else
    let o := first + 64 * (p - 1)
    if o < n then some (o, if n - o < 64 then n - o else 64) else none

def perRow (rb : Nat) : Nat := rb / 64 + 2

/-- The start of a row of a global side. One that leaves the address space wraps modulo 2^57, which R262 leaves open
(DESIGN CHOICE, log entry 88). -/
def gmRow (base r : Nat) (stride : Int) : Nat := addVa base (r * stride)

/-- Between two global sides, and for a packet, a row is cut at the lines of its destination;
otherwise at the granules of the side that is not global, on which it starts. -/
def kPiece (x : KCmd) (p : Nat) : Option (Nat × Nat × Nat) :=
  let g := kGeo x.i x.scal
  let r := p / perRow g.rb
  let lines := kDstGm x.i && (kSrcGm x.i || (match x.i with
    | .kcgrad _ _ _ _ _ => true
    | _ => false))
  if g.rows ≤ r ∨ (xferOf x.i).isNone then none
  else
    (pieceSplit (if lines then gmRow x.dst r g.ds else 0) g.rb (p % perRow g.rb)).map
      (fun c => (r, c.1, c.2))

def kPieces (x : KCmd) : List Nat :=
  let g := kGeo x.i x.scal
  (List.range (g.rows * perRow g.rb)).filter (fun p => (kPiece x p).isSome)

def kAllLanded (x : KCmd) : Bool := (kPieces x).all (fun p => x.landed.contains p)

/-- R376 to R378: the parts of a global range, one in each page that it touches: what lies in one page has one home. -/
def pageParts (s : State) (c va n : Nat) : List (Nat × Nat) :=
  let stop := match findTrans s c va with
    | some t => t.vbase + t.size
    | none => (va / 65536 + 1) * 65536
  if va + n ≤ stop then [(va, n)] else [(va, stop - va), (va57 stop, va + n - stop)]

/-- The parts of a global range in its lines. -/
def lineParts (va n : Nat) : List (Nat × Nat) :=
  if va % 64 + n ≤ 64 then [(va, n)]
  else [(va, 64 - va % 64), (va57 (va + (64 - va % 64)), n - (64 - va % 64))]

/-- A read of global memory by an engine, in the parts of its pages; each part that is remote is a request of
its own. -/
def engParts (s : State) (c : Nat) (key : Nat → ReqFor) (t0 : Trap) (va n : Nat) :
    List (Nat × Nat × ReqFor × Rd) :=
  (pageParts s c va n).zipIdx.map (fun x =>
    (x.1.1, x.1.2, key x.2, gmRead s c (key x.2) [] x.1.1 x.1.2 .read t0))

def joinRd : List Rd → Rd
  | [] => .bytes []
  | .stop st :: _ => .stop st
  | .wait t :: _ => .wait t
  | .bytes b :: rest =>
    match joinRd rest with
    | .bytes bs => .bytes (b ++ bs)
    | r => r

/-- R378, R381: the fault of a part names the first byte of its row as that of the whole access. -/
def Rd.inRow (row : Nat) : Rd → Rd
  | .stop (.trap t) => .stop (.trap { t with whole := row })
  | r => r

/-- The parts of a read that are remote and not yet here are asked for. -/
def engAsk (s : State) (c h : Nat) (parts : List (Nat × Nat × ReqFor × Rd)) : State :=
  parts.foldl (fun s p =>
    match p.2.2.2 with
    | .wait t =>
      let (s1, ok) := postReq s p.2.2.1 0 t.tdev (t.pa p.1) p.1 p.2.1 [] 0 h
      if ok then s1 else putReply s1 c p.2.2.1 1 []
    | _ => s) s

def engDrop (s : State) (c : Nat) (parts : List (Nat × Nat × ReqFor × Rd)) : State :=
  parts.foldl (fun s p => dropReply (keepVa s c p.1 .read) c p.2.2.1) s

/-- An engine of a core is stopped: by a fault of its command, or by a freeze of its channel. -/
def engStop (s : State) (c ch : Nat) : Stop → State
  | .trap t => raiseTrap s c t
  | .freeze addr acc =>
    freezeMaster s 1 (4 * c + ch) addr acc (s.core c).ctx ((s.core c).cfgAt rMPOS)

/-- The stop of a global write of an engine, in the parts of its pages; a port that is down fails it (R393). -/
def engWriteStop (s : State) (c : Nat) (t0 : Trap) (va n : Nat) : Option Stop :=
  firstSome ((pageParts s c va n).map (fun p =>
    (gmStoreStop s c p.1 p.2 .write t0).orElse (fun _ =>
      let tr := trOf s c p.1 .write
      if tr.loc != 2 && cxlDown s (tr.pa p.1) then
        some (.trap { t0 with cause := .memerr, faddr := p.1, acc := 1 }) else none)))

/-- R397: a page at its switch holds such a write. -/
def engHeld (s : State) (c va n : Nat) : Bool :=
  (pageParts s c va n).any (fun p =>
    let tr := trOf s c p.1 .write
    tr.loc != 2 && heldByMove s (tr.pa p.1) p.2)

/-- The parts of a global write that go to another device. -/
def remoteParts (s : State) (c va n : Nat) : List (Nat × Nat × Nat) :=
  ((pageParts s c va n).zipIdx.filter (fun p => (trOf s c p.1.1 .write).loc == 2)).map
    (fun p => (p.1.1, p.1.2, p.2))

/-- Local parts land; remote ones are sent. -/
def engWrite (s : State) (c h : Nat) (key : Nat → ReqFor) (va : Nat) (bs : List Byte) : State :=
  (pageParts s c va bs.length).zipIdx.foldl (fun s p =>
    let tr := trOf s c p.1.1 .write
    let part := (bs.drop (if p.2 = 0 then 0 else bs.length - p.1.2)).take p.1.2
    if tr.loc = 2 then
      let (s1, ok) := postReq s (key p.2) 1 tr.tdev (tr.pa p.1.1) p.1.1 p.1.2 part 0 h
      if ok then s1 else putReply s1 c (key p.2) 1 []
    else landGm (keepVa s c p.1.1 .write) c 2 p.1.1 (tr.pa p.1.1) part) s

/-- What has become of the remote parts of a write: none sent, some not answered, or answered with
the first failure if there is one. -/
inductive Sent where
  | no | waiting | done (fail : Option (Nat × Nat × Nat))   -- status, address, device
  deriving DecidableEq, Repr

def sentState (s : State) (c : Nat) (key : Nat → ReqFor) (va n : Nat) : Sent :=
  let ps := remoteParts s c va n
  let k := s.core c
  let out := fun (p : Nat × Nat × Nat) => s.requests.any (fun r => r.who == key p.2.2)
  let ans := fun (p : Nat × Nat × Nat) => k.reply.find? (fun r => r.1 == key p.2.2)
  if ps.isEmpty || !ps.any (fun p => out p || (ans p).isSome) then .no
  else if ps.any (fun p => (ans p).isNone) then .waiting
  else .done (ps.findSome? (fun p =>
    match ans p with
    | some (_, st, _) => if st = 0 then none else some (st, p.1, (trOf s c p.1 .write).tdev)
    | none => none))

/-- The trap of a failed remote write, which names the first byte of its row (R378, R381). -/
def failTrap (t0 : Trap) (row : Nat) (f : Nat × Nat × Nat) : Trap :=
  { t0 with cause := if f.1 = 16 then .memerr else .fabric, faddr := f.2.1, whole := row,
            status := f.1, tdev := f.2.2, acc := 1 }

def dropKeys (s : State) (c : Nat) (keys : List ReqFor) : State :=
  keys.foldl (fun s k => dropReply s c k) s

/-! ## Eyelets (R273, R274) -/

def eyeWord (k : Core) (off n : Nat) : Nat := numAt k.ts (off + 4 * n) 4

/-- R274: the bytes of COUNT, TARGET and GEN after an arrival of b bytes. -/
def eyeAfter (k : Core) (off b : Nat) : List Byte :=
  let c := (eyeWord k off 0 + b) % 2 ^ 32
  let t := eyeWord k off 1
  if t ≠ 0 ∧ t ≤ c then
    leBytes 4 (c - t) ++ leBytes 4 t ++ leBytes 4 (eyeWord k off 2 + 1)
  else leBytes 4 c ++ leBytes 4 t ++ leBytes 4 (eyeWord k off 2)

/-- R273: an eyelet is initialised: KEYE.INIT, or stores of programs, have written its COUNT, TARGET and GEN. -/
def eyeKnown (k : Core) (off : Nat) : Bool := [0, 1, 2].all (fun n => k.eyes.contains (off / 4 + n))

/-- R273, R8: COUNT and GEN of an eyelet that nothing has initialised are undefined when a command first names it. -/
def eyeOpen (s : State) (o off : Nat) : State :=
  if eyeKnown (s.core o) off then s
  else
    let (bs, s1) := freeBytes s 8
    s1.modCore o (fun k =>
      { k with ts := putBytes (putBytes k.ts off (bs.take 4)) (off + 8) (bs.drop 4), eyes := addNew k.eyes [off / 4, off / 4 + 1, off / 4 + 2] })

/-- An arrival at the eyelet of one core, or of every member (R271). -/
def arrive (s : State) (c src : Nat) (mc : Bool) (off b : Nat) : State :=
  (if mc then members s c else [c]).foldl (fun s o =>
    let s1 := eyeOpen s o off
    landTs s1 o (if o = c then src else 3) off (eyeAfter (s1.core o) off b)) s

/-- R276: KEYE.INIT; GEN keeps its value in each copy. -/
def eyeInit (s : State) (c src : Nat) (mc : Bool) (off target : Nat) : State :=
  (if mc then members s c else [c]).foldl (fun s o =>
    landTs s o (if o = c then src else 3) off
      (leBytes 4 0 ++ leBytes 4 target ++ leBytes 4 (eyeWord (s.core o) off 2) ++ leBytes 4 0)) s

/-! ## Compressed gradients (R278 to R280) -/

def emaxOf (f : Fmt) : Int :=
  match magVal (spec f) false (spec f).maxMag with
  | .fin _ m e => bitLen m + e - 1
  | _ => 0

def f32At (k : Core) (off j : Nat) : Nat := numAt k.ts (off + 4 * j) 4

/-- R279: one block: the codes, the scale and the new residuals. -/
def kcgradBlock (tgt : Fmt) (rm : Rm) (es : List (Nat × Nat)) : List Nat × Nat × List Nat :=
  let vs := es.map (fun x => decodeF .fp32 x.1)
  if vs.any (fun v => match v with
      | .fin _ _ _ => false
      | _ => true) then
    (es.map (fun _ => (spec tgt).nan), 0xFF, es.map (fun _ => 0))
  else
    let mags := vs.filterMap (fun v => match v with
      | .fin _ m e => if m = 0 then none else some ((bitLen m : Int) + e - 1)
      | _ => none)
    let sc : Int := match mags with
      | [] => 0
      | x :: xs =>
        let d := xs.foldl (fun a b => if a < b then b else a) x - emaxOf tgt
        if d < -127 then -127 else d
    let codes := es.map (fun x =>
      match decodeF .fp32 x.1 with
      | .fin n m e => (toB8 (spec tgt) rm x.2 true (.fin n m (e - sc))).bits
      | _ => 0)
    let res := (es.zip codes).map (fun x =>
      match decodeF tgt x.2 with
      | .fin n m e =>
        (finish .fp32 .rne 0 false (exSub .rne (decodeF .fp32 x.1.1) (.fin n m (e + sc)))).bits
      | _ => 0)
    (codes, (sc + 127).toNat, res)

def drawsOf : Nat → W64 → List Nat
  | 0, _ => []
  | n + 1, x => srDraw x :: drawsOf n (srNext x)

/-- The packet and the residuals of a KCGRAD (R278, R279). -/
def kcgradForm (k : Core) (tgt : Fmt) (rm : Rm) (nb src res : Nat) (sr : W64) : List Byte × List Byte :=
  let es := (List.range (32 * nb)).map (fun j =>
    (fadd .fp32 .rne 0 false (f32At k src j) (f32At k res j)).bits)
  let es2 := es.zip (drawsOf (32 * nb) sr)
  let bl := (List.range nb).map (fun b => kcgradBlock tgt rm ((es2.drop (32 * b)).take 32))
  ((bl.flatMap (fun x => x.1.map (fun v => BitVec.ofNat 8 v))) ++ bl.map (fun x => BitVec.ofNat 8 x.2.1),
   bl.flatMap (fun x => x.2.2.flatMap (leBytes 4)))

/-! ## A piece lands -/

def modKcmd (k : Core) (id : Nat) (f : KCmd → KCmd) : Core :=
  { k with kcmds := k.kcmds.map (fun x => if x.id = id then f x else x) }

def kTrap (k : Core) (x : KCmd) : Trap := engTrap k 3 x.i x.baddr x.parent

/-- Keys of the requests of a piece: reads, and writes; key 0 and 1 of piece 0 are the stamp's. -/
def keyRd (c id p part : Nat) : ReqFor := .piece c id (4 * (p + 1) + part)
def keyWr (c id p part : Nat) : ReqFor := .piece c id (4 * (p + 1) + 2 + part)
def keyStamp (c id part : Nat) : ReqFor := .piece c id part

def chOf (x : KCmd) : Nat := ((xferOf x.i).map (·.ch.toNat)).getD 0
def ohOf (x : KCmd) : Nat := ((xferOf x.i).map (·.oh.toNat)).getD 0

/-- What the source of a piece holds. -/
def kRead (s : State) (c : Nat) (x : KCmd) (p r o n : Nat) : Rd × List (Nat × Nat × ReqFor × Rd) :=
  let g := kGeo x.i x.scal
  let k := s.core c
  let t := kTrap k x
  if kSrcGm x.i then
    let parts := engParts s c (keyRd c x.id p) t (addVa (gmRow x.src r g.ss) o) n
    ((joinRd (parts.map (·.2.2.2))).inRow (gmRow x.src r g.ss), parts)
  else
    let at' := rowAt x.src r g.ss + o
    let off := (at' % 2 ^ 64).toNat
    match x.i with
    | .kcgrad _ _ _ _ _ => (.bytes ((x.packet.drop o).take n), [])
    | .kpull _ _ peer =>
      let q := peerCore c peer
      if !peerGrant s c q || decide (at' < 0 ∨ (k.share : Int) < at' + n) then
        (.stop (.trap { t with cause := .tsrange, faddr := off }), [])
      else (tsLoad s c q none .ts off n t, [])
    | _ => (tsLoad s c c none .ts off n t, [])

/-- R117, R323: core o as a copy of core c may read it: a granule that a V-slot store has overwritten, and nothing
orders before the copy, is wholly old or wholly new. -/
def staleCore (s : State) (c o : Nat) (x : KCmd) : Core × State :=
  let k := s.core o
  let oh := ((xferOf x.i).map (·.oh.toNat)).getD 0
  let free := k.vold.filter (fun o => !(o.core == c && o.agent == x.agent && o.handles.contains oh))
  (free.zipIdx.foldr (fun o (k : Core) =>
      if (Config.freeByte (s.fresh + o.2)).getLsbD 0 then { k with ts := putBytes k.ts o.1.off o.1.old } else k) k,
    { s with fresh := s.fresh + free.length })

/-- The bytes of a piece whose source is tile store, as the copy may read them. -/
def kStale (s : State) (c : Nat) (x : KCmd) (r o n : Nat) (bs : List Byte) : List Byte × State :=
  let src := match x.i with
    | .kcopy _ y | .kfill _ y | .kgang _ y | .kmcast _ y => if y.src == .gm then none else some c
    | .kpull _ _ peer => some (peerCore c peer)
    | _ => none
  match src with
  | none => (bs, s)
  | some q =>
  if (s.core q).vold.isEmpty then (bs, s)
  else
    let (k, s1) := staleCore s c q x
    (bytesAt k.ts (rowAt x.src r (kGeo x.i x.scal).ss + o).toNat n, s1)

/-- A piece has landed: it is noted, and its eyelet counts it (R274). -/
def kLanded (s : State) (c : Nat) (x : KCmd) (p : Nat) : State :=
  let s1 := s.modCore c (fun k => modKcmd k x.id (fun y => { y with landed := y.landed ++ [p] }))
  match xferOf x.i with
  | some o =>
    if o.cmpl == .eyelet && !x.quiet then
      arrive s1 c 2 (match x.i with
        | .kmcast _ _ => true
        | _ => false) (eyeAt x.scal) 64
    else s1
  | none => s1

/-- R270: the registers of a piece. -/
def kgangLand (k : Core) (sd : W64) (o : Nat) (bs : List Byte) : Core :=
  let g := gf sd 0 2
  let lm := gf sd 32 32
  k.setGang g ((List.range (bs.length / 4)).foldl (fun x j =>
    let q := o / 4 + j
    let l := q % 32
    let r := gf sd 8 8 + q / 32
    if hasBit lm l then
      let y := x.setReg l r (w32 (leNat ((bs.drop (4 * j)).take 4)))
      { y with pend := y.pend.erase (regKey l r) }
    else x) (k.gangAt g))

/-- R269, R351: bytes land in operand memory. -/
def landOp (s : State) (c off : Nat) (bs : List Byte) : State :=
  modOps s c (fun o =>
    { o with bytes := putBytes o.bytes off bs,
             poison := o.poison.filter (fun g =>
               !(decide (off ≤ g * 64 ∧ g * 64 + 64 ≤ off + bs.length))) })

/-- R265: whether a byte of the destination is also a byte of the source. -/
def kOverlaps (c : Nat) (x : KCmd) (a : Nat) : Bool :=
  let g := kGeo x.i x.scal
  let same := match x.i with
    | .kcopy _ _ => kSrcGm x.i == kDstGm x.i
    | .kmcast _ _ => !kSrcGm x.i
    | .kpull _ _ peer => peerCore c peer == c
    | _ => false
  same && (List.range g.rows).any (fun r =>
    if kSrcGm x.i then decide ((a + 2 ^ 57 - gmRow x.src r g.ss) % 2 ^ 57 < g.rb)
    else
      let b := rowAt x.src r g.ss
      decide (b ≤ a ∧ (a : Int) < b + g.rb))

/-- R265: the bytes of a piece; where destination and source overlap they are undefined. -/
def kBytes (s : State) (c : Nat) (x : KCmd) (a : Nat) (bs : List Byte) : List Byte × State :=
  let at' := fun (j : Nat) => if kDstGm x.i then va57 (a + j) else a + j
  if bs.zipIdx.any (fun b => kOverlaps c x (at' b.2)) then
    let (fs, s1) := freeBytes s bs.length
    ((bs.zip fs).zipIdx.map (fun b => if kOverlaps c x (at' b.2) then b.1.2 else b.1.1), s1)
  else (bs, s)

/-- The bytes of a piece go to their destination. -/
def kLand (s0 : State) (c : Nat) (x : KCmd) (p r o : Nat) (bs0 : List Byte) : State :=
  let g := kGeo x.i x.scal
  let off := (rowAt x.dst r g.ds + o).toNat
  let (bs, s) := kBytes s0 c x (if kDstGm x.i then addVa (gmRow x.dst r g.ds) o else off) bs0
  match x.i with
  | .kgang _ _ => kLanded (s.modCore c (fun k => kgangLand k (x.scal.getD 0 0) o bs)) c x p
  | .kfill _ _ => kLanded (landOp s c off bs) c x p
  | .kmcast _ _ => kLanded (landMc s c 2 off bs) c x p
  | _ =>
    if kDstGm x.i then
      let va := addVa (gmRow x.dst r g.ds) o
      match engWriteStop s c (kTrap (s.core c) x) va bs.length with
      | some st => engStop s c (chOf x) st
      | none =>
        let s1 := engWrite s c (ohOf x) (keyWr c x.id p) va bs
        if (remoteParts s c va bs.length).isEmpty then kLanded s1 c x p else s1
    else kLanded (landTs s c 2 off bs) c x p

/-- R279: the packet is formed and the residuals are written. -/
def kForm (s : State) (c : Nat) (x : KCmd) : State :=
  match x.i with
  | .kcgrad _ _ tgt rm nb =>
    let n := 128 * (nb.toNat + 1)
    let res := (x.scal.getD 2 0).toNat
    match joinRd [tsLoad s c c none .ts x.src n (kTrap (s.core c) x),
        tsLoad s c c none .ts res n (kTrap (s.core c) x)] with
    | .stop st => engStop s c (chOf x) st
    | _ =>
      let (k, s) := staleCore s c c x
      let f := kcgradForm k tgt rm (nb.toNat + 1) x.src res x.draws
      landTs (s.modCore c (fun k => modKcmd k x.id (fun y => { y with packet := f.1 }))) c 2 res f.2
  | _ => s

def needsForm (x : KCmd) : Bool :=
  match x.i with
  | .kcgrad _ _ _ _ _ => x.packet.isEmpty
  | _ => false

/-- R318: a fault of a recomputation is the fault of the UNPICK that asked for it, and names the log
entry; the recomputation is given up. -/
def quietStop (s : State) (c : Nat) (x : KCmd) (st : Stop) : State × Stop :=
  if !x.quiet || x.parent.isSome then (s, st)
  else
    let u := ((s.core c).upk).getD default
    let s1 := s.modCore c (fun k =>
      { k.dropAhead .seq with kcmds := k.kcmds.filter (·.id != x.id), upk := none })
    match st with
    | .trap t => (s1, .trap { t with slot := 8, baddr := (s.core c).bpc, faddr := u.entry, w0 := u.w0,
                                     w1 := 0, async := false, depth := 0 })
    | st => (s1, st)

/-- One piece of a transfer that may land (R265, R266). -/
def kStep (s : State) (c : Nat) (x : KCmd) (p : Nat) : State :=
  let k := s.core c
  if !clearOf k x.deps || k.frozenCh.contains (chOf x) || k.frozen then s
  else if needsForm x then kForm s c x
  else if x.landed.contains p then s
  else
    match kPiece x p with
    | none => s
    | some (r, o, n) =>
      let g := kGeo x.i x.scal
      let va := addVa (gmRow x.dst r g.ds) o
      let st := if kDstGm x.i then sentState s c (keyWr c x.id p) va n else .no
      match st with
      | .waiting => s
      | .done f =>
        let s1 := dropKeys s c [keyWr c x.id p 0, keyWr c x.id p 1]
        (match f with
         | some f => raiseTrap s1 c (failTrap (kTrap k x) (gmRow x.dst r g.ds) f)
         | none => kLanded s1 c x p)
      | .no =>
        if kDstGm x.i && engHeld s c va n then s
        else match kRead s c x p r o n with
        | (.stop st, parts) =>
          let (s1, st1) := quietStop (dropKeys s c (parts.map (·.2.2.1))) c x st
          engStop s1 c (chOf x) st1
        | (.wait _, parts) => engAsk s c (ohOf x) parts
        | (.bytes bs, parts) =>
          let (bs1, s1) := kStale (engDrop s c parts) c x r o n bs
          kLand s1 c x p r o bs1

/-! ## The handle fetch of MMAH (R239, R240) -/

def keyFetch (c id p part : Nat) : ReqFor := .fetch c id (2 * p + part)

/-- R239: where the records lie. -/
def recordAt (m : MCmd) (n : Nat) : Nat := va57 (gf m.h 0 57 + 32 * n)

/-- R239: MHANDLE, by a record's words or by the slots that it would fill. -/
def badRecord (s : State) (c slot : Nat) (w : List W64) : Bool :=
  let rb := gf (w.getD 2 0) 32 32
  let rows := gf (w.getD 2 0) 0 32
  gf (w.getD 0 0) 57 7 != 0 || gf (w.getD 1 0) 32 32 != 0 || w.getD 3 0 != 0 || rows == 0 || rb == 0 ||
    decide (16384 < rb) || decide ((64 - slot) * 16384 < rows * rb) ||
    (slotsOfRange (slot * 16384) (rows * rb)).any (fun l => !(claimedOf s c).contains l)

/-- A fault of the fetch: the command is issued again at resume, fetch first. -/
def fetchFault (s : State) (c : Nat) (m : MCmd) (st : Stop) : State :=
  let s1 := s.modCore c (fun k => modMcmd k m.id (fun m => { m with landed := [], recs := [], reissue := true }))
  engStop s1 c 0 st

def fetchRecords (s : State) (c : Nat) (m : MCmd) : State :=
  let k := s.core c
  let t := engTrap k 1 m.i m.baddr m.parent
  let slots := fetchSlots m.i
  if gf m.h 0 57 % 32 ≠ 0 then fetchFault s c m (.trap { t with cause := .mhandle })
  else
    let parts := (List.range slots.length).flatMap (fun n =>
      engParts s c (fun q => keyFetch c m.id 0 (n + 2 * q)) t (recordAt m n) 32)
    match joinRd (parts.map (·.2.2.2)) with
    | .stop st => fetchFault (dropKeys s c (parts.map (·.2.2.1))) c m st
    | .wait _ => engAsk s c (gf m.h 60 4) parts
    | .bytes bs =>
      let ws := (List.range (bs.length / 8)).map (word8 bs)
      let s1 := engDrop s c parts
      if slots.zipIdx.any (fun x => badRecord s c x.1 ((ws.drop (4 * x.2)).take 4)) then
        fetchFault s1 c m (.trap { t with cause := .mhandle })
      else s1.modCore c (fun k => modMcmd k m.id (fun m => { m with recs := ws }))

/-- Piece p of the fetch, from 1: the operand, the row, the offset and the length. A row is cut at the operand's
granules, so that two rows that share one land in it apart, which R239 leaves open (DESIGN CHOICE, log entry 50). -/
def fetchPiece (m : MCmd) (p : Nat) : Option (FetchRec × Nat × Nat × Nat) :=
  let rs := fetchRecs m
  if p = 0 ∨ rs.isEmpty then none
  else
    match rs[(p - 1) % rs.length]? with
    | none => none
    | some r =>
      let q := (p - 1) / rs.length
      let row := q / perRow r.rb
      if r.rows ≤ row then none
      else (pieceSplit (r.slot * 16384 + row * r.rb) r.rb (q % perRow r.rb)).map
        (fun c => (r, row, c.1, c.2))

def fetchPieces (m : MCmd) : List Nat :=
  let n := (fetchRecs m).foldl (fun a r => if a < r.rows * perRow r.rb then r.rows * perRow r.rb else a) 0
  (List.range ((fetchRecs m).length * n + 1)).filter (fun p => (fetchPiece m p).isSome)

/-- One piece of a handle fetch: the records first, then rows into the operand slots. -/
def fetchStep (s : State) (c : Nat) (m : MCmd) (p : Nat) : State :=
  let k := s.core c
  if m.fetched || !clearOf k m.deps || k.frozen || k.frozenCh.contains 0 then s
  else if m.recs.isEmpty then fetchRecords s c m
  else if m.landed.contains p then s
  else
    match fetchPiece m p with
    | none => s
    | some (r, row, o, n) =>
      let t := engTrap k 1 m.i m.baddr m.parent
      let parts := engParts s c (fun q => keyFetch c m.id (2 * p) q) t
        (addVa r.base (row * r.stride + o)) n
      match (joinRd (parts.map (·.2.2.2))).inRow (addVa r.base (row * r.stride)) with
      | .stop st => fetchFault (dropKeys s c (parts.map (·.2.2.1))) c m st
      | .wait _ => engAsk s c (gf m.h 60 4) parts
      | .bytes bs =>
        (landOp (engDrop s c parts) c (r.slot * 16384 + row * r.rb + o) bs).modCore c (fun k =>
          modMcmd k m.id (fun m => { m with landed := m.landed ++ [p] }))

/-- TRANSFER_PIECE: one piece of a transfer or of a handle fetch. -/
def execTransferPiece (core cmd piece : Nat) (s : State) : Out :=
  let k := s.core core
  match k.kcmds.find? (·.id == cmd) with
  | some x => .next (kStep s core x piece)
  | none =>
    match k.mcmds.find? (·.id == cmd) with
    | some m => .next (fetchStep s core m piece)
    | none => .next s

/-- MMAH_FETCH_COMPLETE: the multiply may start. -/
def execMmahFetchComplete (core cmd : Nat) (s : State) : Out :=
  match (s.core core).mcmds.find? (·.id == cmd) with
  | some m =>
    if !m.fetched && !m.recs.isEmpty && (fetchPieces m).all (fun p => m.landed.contains p) then
      .next (settleOf (s.modCore core (fun k => modMcmd k cmd (fun m => { m with fetched := true }))) core)
    else .next s
  | none => .next s

/-- R276: what KEYE.INIT and KEYE.ADD do at an offset with a value. -/
def keyeDo (s : State) (c src : Nat) (i : Instr) (off v : Nat) : State :=
  match i with
  | .keyeInit _ _ mc _ _ => eyeInit s c src mc off v
  | .keyeAdd _ _ mc _ _ => arrive s c src mc off v
  | _ => s

/-! ## Completion (R266, R267, R277) -/

/-- R277: the stamp is written; a remote one is answered first. Whether it has landed is the second
component. -/
def kStamp (s : State) (c : Nat) (x : KCmd) : State × Bool :=
  let a := stampAt x.scal
  let t := kTrap (s.core c) x
  match sentState s c (keyStamp c x.id) a 8 with
  | .waiting => (s, false)
  | .done f =>
    let s1 := dropKeys s c [keyStamp c x.id 0]
    (match f with
     | some f => (raiseTrap s1 c (failTrap t a f), false)
     | none => (s1, true))
  | .no =>
    if engHeld s c a 8 then (s, false)
    else match engWriteStop s c t a 8 with
    | some st => (engStop s c (chOf x) st, false)
    | none =>
      let s1 := engWrite s c (ohOf x) (keyStamp c x.id) a (le8 (x.scal.getD 5 0).toNat)
      (s1, (remoteParts s c a 8).isEmpty)

def hasStamp (x : KCmd) : Bool := !x.quiet && ((xferOf x.i).map (·.cmpl)) == some .stamp
def hasAdv (x : KCmd) : Bool := !x.quiet && ((xferOf x.i).map (·.adv)) == some true

def ringsOfK (x : KCmd) : List Nat := (x.sring.toList ++ x.dring.toList).map (·.1)

/-- R267: an earlier command with ADV on one of the rings has not advanced yet. -/
def advHeld (k : Core) (x : KCmd) : Bool :=
  hasAdv x && k.kcmds.any (fun y => decide (y.id < x.id) && hasAdv y &&
    (ringsOfK y).any (fun h => (ringsOfK x).contains h))

def kAdvance (k : Core) (x : KCmd) : Core :=
  if !hasAdv x then k
  else
    let k1 := match x.dring with
      | some (h, _) => k.modCfg (rCBDESC + h) (fun w => cbAdvw w 1)
      | none => k
    match x.sring with
    | some (h, _) => k1.modCfg (rCBDESC + h) (fun w => cbAdvr w 1)
    | none => k1

/-- The command is complete: its rings advance, and a TISSUE batch that waited for it goes on. -/
def kFinish (s : State) (c : Nat) (x : KCmd) : State :=
  let s1 := s.modCore c (fun k => modKcmd k x.id (fun y => { y with finished := true }))
  if advHeld (s1.core c) x then s1
  else s1.modCore c (fun k =>
    let k1 := (kAdvance k x).dropAhead x.agent
    wakeLanes { k1 with kcmds := k1.kcmds.filter (·.id != x.id) } x.parent)

/-- COMMAND_COMPLETION. -/
def execCommandCompletion (core cmd : Nat) (s : State) : Out :=
  let k := s.core core
  match k.kcmds.find? (·.id == cmd) with
  | none => .next s
  | some x =>
    if x.finished then .next (kFinish s core x)
    else if (xferOf x.i).isNone then
      .next (if k.frozen || !clearOf k x.deps then s
        else kFinish (keyeDo s core (srcOf x.agent) x.i (eyeAt x.scal) ((x.scal.getD 0 0).toNat % 2 ^ 32)) core x)
    else if needsForm x || !kAllLanded x || k.frozenCh.contains (chOf x) || k.frozen then .next s
    else if hasStamp x then
      let (s1, done) := kStamp s core x
      .next (if done then kFinish s1 core x else s1)
    else .next (kFinish s core x)

/-! ## KEYE (R276) -/

def keyeTrap (e : Env) (i : Instr) (off : Nat) (store : Bool) : Trap :=
  { e.trap i 3 with faddr := off, acc := bitOf store }

/-- The checks of an eyelet offset. -/
def keyeStop (e : Env) (s : State) (i : Instr) (oh : Handle) (off : Nat) (store : Bool) : Option Stop :=
  let k := s.core e.c
  let t := keyeTrap e i off store
  if off % 16 ≠ 0 then some (.trap { t with cause := .dalign })
  else if k.share < off + 16 then some (.trap { t with cause := .tsrange })
  else pendingStop e k t oh.toNat off 16 store

/-- The buffered stores of an agent that some test picks land, as far as they can at once. -/
def landSome (s : State) (c : Nat) (ag : Agent) (f : BufStore → Bool) : State :=
  landThese s c ((s.core c).buf.filter (fun b => b.of ag && f b && landsHere s b))

/-- R276: a KEYE takes effect at issue, after the stores of its own bundle that it must follow; where one of them
cannot land yet, as one to another device, the update lands behind it. -/
def keyeEff (e : Env) (s : State) (i : Instr) (oh : Handle) (off v : Nat) (f : BufStore → Bool) : State :=
  let s1 := (landSome s e.c e.who f).modCore e.c (fun k => countIssue (k.dropAhead e.who) e.who oh.toNat)
  if e.quiet then s1 else
  let left := ((s1.core e.c).buf.filter (fun b => b.of e.who && f b)).map (·.id)
  if left.isEmpty then keyeDo s1 e.c (srcOf e.who) i off v
  else s1.modCore e.c (fun k =>
    let (id, k1) := k.newId
    { k1 with kcmds := k1.kcmds ++
        [{ id := id, agent := e.who, i := i, scal := [w64 v, 0, 0, 0, w64 off, 0], baddr := e.base, src := 0, dst := 0,
           sring := none, dring := none, landed := [], packet := [], draws := 0, finished := false, deps := left,
           quiet := e.quiet, parent := e.parent }] })

/-- The stores that an eyelet's initialisation must follow: it is an atomic under its handle (R251, R273). -/
def beforeInit (oh : Handle) (mc : Bool) (off : Nat) (b : BufStore) : Bool :=
  b.handle == oh.toNat || b.hs.any (fun x => x.2 == oh.toNat) ||
    (sameMem b.space (if mc then .mcast else .ts) && overlap b.addr b.data.length off 16)

def semKeyeInit (g : Guard) (oh : Handle) (mc : Bool) (sa se : SReg) : SlotSem :=
  let i := Instr.keyeInit g oh mc sa se
  let off := fun (e : Env) => (rdScal e se).toNat
  { cls := 3, guard := g, i := i,
    ready := fun e s =>
      let k := afterForks e (s.core e.c)
      clearOf k (loadDeps k e.who oh.toNat) &&
        k.buf.all (fun b => !(b.of e.who && beforeInit oh mc (off e) b)) &&
        !pendWait k e.who oh.toNat (off e) 16 true,
    check := fun e s => keyeStop e s i oh (off e) true,
    eff := fun e s => keyeEff e s i oh (off e) ((rdScal e sa).toNat % 2 ^ 32) (beforeInit oh mc (off e)),
    weight := fun _ => 4 }

/-- R276: ADD is a release: every earlier access of the agent lands first. -/
def semKeyeAdd (g : Guard) (oh : Handle) (mc : Bool) (sa se : SReg) : SlotSem :=
  let i := Instr.keyeAdd g oh mc sa se
  let off := fun (e : Env) => (rdScal e se).toNat
  { cls := 3, guard := g, i := i,
    ready := fun e s =>
      let k := s.core e.c
      storesLanded k e.who && clearOf k (outAll k e.who ++ hdepOf k e.who oh.toNat) &&
        !pendWait k e.who oh.toNat (off e) 16 true,
    check := fun e s =>
      match keyeStop e s i oh (off e) true with
      | some st => some st
      | none =>
        if tsPoisoned (s.core e.c) (off e) 16 then
          some (.trap { keyeTrap e i (off e) true with cause := .memerr, acc := 2 })
        else none,
    eff := fun e s =>
      released (keyeEff e s i oh (off e) ((rdScal e sa).toNat % 2 ^ 32) (fun _ => true)) e.c (· == e.who),
    weight := fun _ => 4 }

def semKeyeWait (g : Guard) (oh : Handle) (sa se : SReg) : SlotSem :=
  let i := Instr.keyeWait g oh sa se
  let off := fun (e : Env) => (rdScal e se).toNat
  let gen := fun (e : Env) (s : State) =>
    match tsLoad s e.c e.c (some e.who) .ts (off e + 8) 4 (keyeTrap e i (off e) false) with
    | .bytes bs =>
      Rd.bytes (if eyeKnown (s.core e.c) (off e) || !(forwards (s.core e.c) e.who .ts (off e) 16).isEmpty
        then bs else (freeBytes s 4).1)
    | r => r
  { cls := 3, guard := g, i := i,
    ready := fun e s =>
      (keyeStop e s i oh (off e) false).isSome ||
        (!pendWait (s.core e.c) e.who oh.toNat (off e) 16 false &&
          (match gen e s with
           | .bytes bs => leNat bs != (rdScal e sa).toNat % 2 ^ 32
           | _ => true)),
    check := fun e s =>
      match keyeStop e s i oh (off e) false with
      | some st => some st
      | none => rdStop (gen e s),
    eff := fun e s => s.modCore e.c (Core.dropAhead e.who), weight := fun _ => 4 }

/-! ## The K-slot instructions alone in a bundle -/

def execKcopy (g : Guard) (x : KXfer) (s : State) : Out := issueHard (semKcopy g x) s
def execKfill (g : Guard) (x : KXfer) (s : State) : Out := issueHard (semKfill g x) s
def execKgang (g : Guard) (x : KXfer) (s : State) : Out := issueHard (semKgang g x) s
def execKmcast (g : Guard) (x : KXfer) (s : State) : Out := issueHard (semKmcast g x) s
def execKcgrad (g : Guard) (x : KXfer) (tgt : Fmt) (rm : Rm) (nbm1 : BitVec 6) (s : State) : Out :=
  issueHard (semKcgrad g x tgt rm nbm1) s
def execKeyeInit (g : Guard) (oh : Handle) (mc : Bool) (sa se : SReg) (s : State) : Out :=
  issueHard (semKeyeInit g oh mc sa se) s
def execKeyeAdd (g : Guard) (oh : Handle) (mc : Bool) (sa se : SReg) (s : State) : Out :=
  issueHard (semKeyeAdd g oh mc sa se) s
def execKeyeWait (g : Guard) (oh : Handle) (sa se : SReg) (s : State) : Out :=
  issueHard (semKeyeWait g oh sa se) s
def execKpull (g : Guard) (x : KXfer) (peer : BitVec 2) (s : State) : Out :=
  issueHard (semKpull g x peer) s

end Sys2Proof.Machine
end

