-- ==== Sys2Proof/Machine/Library.lean ====
section
/-! DEFINITION. The library operations (R148) and the completion of S commands (R143). -/
namespace Sys2Proof.Machine

/-! ## Float rows -/

abbrev add32 (a b : Nat) : FR := fadd .fp32 .rne 0 false a b
abbrev sub32 (a b : Nat) : FR := fsub .fp32 .rne 0 false a b
abbrev mul32 (a b : Nat) : FR := fmul .fp32 .rne 0 false a b

/-- Element results of a row with their flags ORed. -/
def mapFR {α : Type} (f : α → FR) (l : List α) : List Nat × Nat :=
  let rs := l.map f
  (rs.map (·.bits), rs.foldl (fun a r => Nat.lor a r.flags) 0)

/-- R148: tree_sum of a row padded with +0 to a power of two that is at least 16. -/
def rowSum (l : List Nat) : Nat × Nat :=
  let n := if l.length ≤ 16 then 16 else 2 ^ bitLen (l.length - 1)
  treeSum 17 (l ++ List.replicate (n - l.length) 0)

def f32OfNat (n : Nat) : Nat := (convert .int32 .fp32 .rne 0 false n).bits

/-- R148: round(1/COLS). -/
def recipCols (cols : Nat) : FR := fdiv .fp32 .rne 0 false (fone .fp32) (f32OfNat cols)

def rowOfList (l : List Nat) (cols r : Nat) : List Nat := (l.drop (r * cols)).take cols

/-- SOFTMAX of a row. -/
def softmaxRow (x : List Nat) : List Nat × Nat :=
  let m := foldNe (fmax .fp32) 0 x
  let d := mapFR (fun a => sub32 a m) x
  let p := mapFR (fun a => mul32 a 0x3FB8AA3B) d.1
  let e := mapFR (sfu .exp2) p.1
  let s := rowSum e.1
  let r := sfu .rcp s.1
  let y := mapFR (fun a => mul32 a r.bits) e.1
  (y.1, [d.2, p.2, e.2, s.2, r.flags, y.2].foldl Nat.lor 0)

/-- LNORM: d and round(v + eps) of a row, with the flags. -/
def lnormParts (eps : Nat) (x : List Nat) : List Nat × Nat × Nat :=
  let c := recipCols x.length
  let s := rowSum x
  let mu := mul32 s.1 c.bits
  let d := mapFR (fun a => sub32 a mu.bits) x
  let q := mapFR (fun a => mul32 a a) d.1
  let t := rowSum q.1
  let v := mul32 t.1 c.bits
  let w := add32 v.bits (eps * 65536)
  (d.1, w.bits, [c.flags, s.2, mu.flags, d.2, q.2, t.2, v.flags, w.flags].foldl Nat.lor 0)

def lnormRow (eps : Nat) (x : List Nat) : List Nat × Nat :=
  let (d, w, fl) := lnormParts eps x
  let r := sfu .rsq w
  let y := mapFR (fun a => mul32 a r.bits) d
  (y.1, Nat.lor fl (Nat.lor r.flags y.2))

/-! ## Orders -/

/-- Insertion before the first element that is not strictly before it: stable for equals. -/
def insBy {α : Type} (before : α → α → Bool) (x : α) : List α → List α
  | [] => [x]
  | y :: ys => if before y x then y :: insBy before x ys else x :: y :: ys

def sortBy {α : Type} (before : α → α → Bool) (l : List α) : List α := l.foldr (insBy before) []

/-- R148: a strictly larger element; NaN ranks below −∞. -/
def larger (f : Fmt) (a b : Nat) : Bool :=
  if f = .int32 then decide (intVal f b < intVal f a)
  else
    let va := decodeF f a
    let vb := decodeF f b
    !isNan va && (isNan vb || cmpV va vb == .gt)

/-- R148: strictly earlier in SORT; NaNs last. -/
def smaller (f : Fmt) (a b : Nat) : Bool :=
  if f = .int32 then decide (intVal f a < intVal f b)
  else
    let va := decodeF f a
    let vb := decodeF f b
    !isNan va && (isNan vb || cmpV va vb == .lt)

/-- Elements with their indices, in an order. -/
def ranked (before : Nat → Nat → Bool) (row : List Nat) : List (Nat × Nat) :=
  sortBy (fun x y => before x.1 y.1) row.zipIdx

def canonNan (f : Fmt) (a : Nat) : Nat :=
  if f != .int32 && isNan (decodeF f a) then (spec f).nan else a

/-! ## Ports -/

def sPort (x : SCmd) (n : Nat) : Port := x.ports.getD n { base := 0, size := 0, out := false }

/-- Elements of a port. -/
def portElems (k : Core) (x : SCmd) (n sz cnt : Nat) : List Nat :=
  (List.range cnt).map (fun j => numAt k.ts ((sPort x n).base + sz * j) sz)

/-- A signed index word that names one of K rows. -/
def idxOk (k idx : Nat) : Option Nat := if idx < 2 ^ 31 ∧ idx < k then some idx else none

/-- The bytes that an operation reads of each port. -/
def libReads (opc : Nat) (a : LibPar) (sz : Nat) : List (Nat × Nat) :=
  let m := a.rows * a.cols * sz
  match opc with
  | 0x61 => [(1, a.n * a.cols * sz), (2, a.rows * 4)]
  | 0x62 => [(1, m), (2, a.rows * 4)]
  | 0x65 => [(2, m)]
  | 0x67 => [(1, m), (2, m)]
  | _ => [(1, m)]

/-! ## Effects: the writes by port and offset, the flags, and how many values stay undefined -/

structure LibOut where
  writes : List (Nat × Nat × List Byte)
  flags : Nat

def bytesOf (sz : Nat) (l : List Nat) : List Byte := l.flatMap (leBytes sz)

def xposeOut (k : Core) (x : SCmd) (a : LibPar) (sz : Nat) : LibOut :=
  let m := portElems k x 1 sz (a.rows * a.cols)
  ⟨[(0, 0, bytesOf sz ((List.range a.cols).flatMap (fun j =>
      (List.range a.rows).map (fun i => m.getD (i * a.cols + j) 0))))], 0⟩

def gatherOut (k : Core) (x : SCmd) (a : LibPar) (sz : Nat) : LibOut :=
  let idx := portElems k x 2 4 a.rows
  ⟨[(0, 0, idx.flatMap (fun i =>
      match idxOk a.n i with
      | some r => bytesAt k.ts ((sPort x 1).base + r * a.cols * sz) (a.cols * sz)
      | none => List.replicate (a.cols * sz) 0))], 0⟩

def scatterOut (k : Core) (x : SCmd) (a : LibPar) (sz : Nat) : LibOut :=
  let idx := portElems k x 2 4 a.rows
  ⟨idx.zipIdx.filterMap (fun p => (idxOk a.n p.1).map (fun r =>
      (0, r * a.cols * sz, bytesAt k.ts ((sPort x 1).base + p.2 * a.cols * sz) (a.cols * sz)))), 0⟩

/-- An operation that makes each output row from its input row. -/
def rowwise (k : Core) (x : SCmd) (a : LibPar) (f : List Nat → List Nat × Nat) : LibOut :=
  let m := portElems k x 1 4 (a.rows * a.cols)
  let rs := (List.range a.rows).map (fun r => f (rowOfList m a.cols r))
  ⟨[(0, 0, bytesOf 4 (rs.flatMap (·.1)))], rs.foldl (fun b r => Nat.lor b r.2) 0⟩

/-- TOPK: values and indices. Where K exceeds COLS the spec states no element: free bytes. -/
def topkOut (s : State) (c : Nat) (x : SCmd) (a : LibPar) (f : Fmt) : LibOut × State :=
  let m := portElems (s.core c) x 2 4 (a.rows * a.cols)
  let rows := (List.range a.rows).map (fun r => (ranked (larger f) (rowOfList m a.cols r)).take a.n)
  let (fb, s1) := freeBytes s (8 * a.rows * (a.n - a.cols))
  let ex := 4 * (a.n - a.cols)
  (⟨[(0, 0, (rows.zipIdx.flatMap (fun r =>
        bytesOf 4 (r.1.map (·.1)) ++ (fb.drop (2 * ex * r.2)).take ex))),
      (1, 0, (rows.zipIdx.flatMap (fun r =>
        bytesOf 4 (r.1.map (·.2)) ++ (fb.drop (2 * ex * r.2 + ex)).take ex)))], 0⟩, s1)

def segsumOut (k : Core) (x : SCmd) (a : LibPar) : LibOut :=
  let n := a.rows * a.cols
  let r := ((portElems k x 1 4 n).zip (portElems k x 2 4 n)).foldl (fun (acc : List Nat × Nat) p =>
    match idxOk a.n p.2 with
    | some i =>
      let v := add32 (acc.1.getD i 0) p.1
      (lset acc.1 i v.bits, Nat.lor acc.2 v.flags)
    | none => acc) (List.replicate a.n 0, 0)
  ⟨[(0, 0, bytesOf 4 r.1)], r.2⟩

/-- R148: what a library command writes. -/
def libOut (s : State) (c : Nat) (x : SCmd) : LibOut × State :=
  let a := libPar x.sa
  let f := a.fmt.getD .fp32
  let k := s.core c
  match x.opc with
  | 0x60 => (xposeOut k x a (fmtSize f), s)
  | 0x61 => (gatherOut k x a (fmtSize f), s)
  | 0x62 => (scatterOut k x a (fmtSize f), s)
  | 0x63 => (rowwise k x a softmaxRow, s)
  | 0x64 => (rowwise k x a (lnormRow a.n), s)
  | 0x65 => topkOut s c x a f
  | 0x66 => (rowwise k x a (fun r => ((ranked (smaller f) r).map (fun e => canonNan f e.1), 0)), s)
  | _ => (segsumOut k x a, s)

/-- R351: an input granule that is poisoned. -/
def libPoison (k : Core) (x : SCmd) : Option Nat :=
  let a := libPar x.sa
  (libReads x.opc a (fmtSize (a.fmt.getD .fp32))).findSome? (fun r =>
    hitGranule (k.tsPoison.map (fun g => (g * 64, 64))) (sPort x r.1).base r.2)

/-! ## Completion (R143) -/

/-- The trap frame of library code: its gang's, in lane 0. -/
def libTrap (k : Core) (g : Nat) (x : SCmd) : Trap :=
  { cause := .memerr, slot := 5, baddr := x.baddr, depth := (k.gangAt g).depth, gang := g }

/-- R303: the saved outputs of a logged command, and DONE with the last of them. -/
def fillOutputs (s : State) (c : Nat) (x : SCmd) : State :=
  match x.logAt with
  | none => s
  | some (entry, ctl) =>
    let saved := (List.range 3).filter (fun n => hasBit (gf ctl 16 4) n)
    let offs := payloadAt entry (saved.map (fun n => (sPort x n).size))
    let outs := (saved.zip offs).filter (fun p => (sPort x p.1).out)
    outs.zipIdx.foldl (fun s p =>
      logFill s c { cause := .logfault, slot := slotCode (opcClass x.opc), baddr := x.baddr, w0 := x.w0,
                    w1 := x.w1 } entry ctl (p.1.2 - entry)
        (bytesAt (s.core c).ts (sPort x p.1.1).base (sPort x p.1.1).size)
        (decide (p.2 + 1 = outs.length))) s

/-- R136: every access of the gang's routine has been performed and nothing it issued is left. -/
def gangQuiet (k : Core) (g : Nat) : Bool :=
  let x := k.gangAt g
  !k.buf.any (fun b => ofGang g b.agent) && !k.kcmds.any (fun y => ofGang g y.agent) &&
  !k.mcmds.any (fun y => ofGang g y.agent) && x.ops.isEmpty &&
  x.pend.isEmpty && x.nested.isEmpty &&
  (List.range 4).all (fun h => ((k.gangAt h).cmd.bind (·.parent)).map (·.1) != some g)

/-- R143, R203: who sees a command complete: its accesses come before what follows (R254, R324). -/
def Core.acquired (parent : Option (Nat × List Nat)) (k : Core) : Core :=
  match parent with
  | none => k.dropAhead .seq
  | some (g, ls) => ls.foldl (fun k l => k.dropAhead (.fibre g l)) k

/-- The command is complete: its marks are cleared, the slot is FREE, its V-slot stores are ordered before what
follows (R323, R324), and a batch that waited for it goes on. -/
def completeS (s : State) (c g : Nat) (x : SCmd) : State :=
  (released (fillOutputs s c x) c (ofGang g)).modCore c (fun k =>
    (wakeLanes (k.setGang g Gang.empty) x.parent).acquired x.parent)

/-- R117: what library code reads where the sequencer's V-slot stores are not ordered before it: each granule wholly
old or wholly new. -/
def libStale (s : State) (c : Nat) (x : SCmd) : LibOut × State :=
  let old := (s.core c).vold.filter (fun v => v.core == c && v.agent == .seq)
  if old.isEmpty then libOut s c x
  else
    let s0 := { s with fresh := s.fresh + old.length }
    let (o, s1) := libOut (s0.modCore c (fun k => old.zipIdx.foldr (fun v k =>
      if (Config.freeByte (s.fresh + v.2)).getLsbD 0 then { k with ts := putBytes k.ts v.1.off v.1.old } else k) k)) c x
    (o, { s0 with fresh := s1.fresh })

/-- Library code has run: its whole effect, then its completion. -/
def runLib (s : State) (c g : Nat) (x : SCmd) : State :=
  match libPoison (s.core c) x with
  | some a => raiseTrap s c { libTrap (s.core c) g x with faddr := a }
  | none =>
    let (o, s1) := libStale s c x
    let s2 := o.writes.foldl (fun s w => landTs s c 1 ((sPort x w.1).base + w.2.1) w.2.2) s1
    completeS (s2.modCore c (·.orFlags o.flags)) c g x

/-- S_COMMAND_COMPLETION. A gang that a copy still has registers to write in is not yet done (R270). -/
def execSCommandCompletion (core gang : Nat) (s : State) : Out :=
  let k := s.core core
  let g := k.gangAt gang
  match g.cmd with
  | none => .next s
  | some x =>
    if k.frozen || g.stopped then .next s
    else if x.lib.isSome then
      if g.st = .running && g.pend.isEmpty then .next (runLib s core gang x) else .next s
    else if g.st = .draining && gangQuiet k gang then .next (completeS s core gang x)
    else .next s

/-! ## The S-slot instructions alone in a bundle (R142) -/

def semXpose (g : Guard) (o : SOp) : SlotSem := semStitch g 0x60 o 0 (.xpose g o)
def semGather (g : Guard) (o : SOp) : SlotSem := semStitch g 0x61 o 0 (.gather g o)
def semScatter (g : Guard) (o : SOp) : SlotSem := semStitch g 0x62 o 0 (.scatter g o)
def semSoftmax (g : Guard) (o : SOp) : SlotSem := semStitch g 0x63 o 0 (.softmax g o)
def semLnorm (g : Guard) (o : SOp) : SlotSem := semStitch g 0x64 o 0 (.lnorm g o)
def semTopk (g : Guard) (o : SOp) : SlotSem := semStitch g 0x65 o 0 (.topk g o)
def semSort (g : Guard) (o : SOp) : SlotSem := semStitch g 0x66 o 0 (.sort g o)
def semSegsum (g : Guard) (o : SOp) : SlotSem := semStitch g 0x67 o 0 (.segsum g o)
def semDispatch (g : Guard) (opc : BitVec 7) (o : SOp) (hi : BitVec 32) : SlotSem :=
  semStitch g opc.toNat o hi (.stitchDispatch g opc o hi)

def execXpose (g : Guard) (o : SOp) (s : State) : Out := issueOne (semXpose g o) s
def execGather (g : Guard) (o : SOp) (s : State) : Out := issueOne (semGather g o) s
def execScatter (g : Guard) (o : SOp) (s : State) : Out := issueOne (semScatter g o) s
def execSoftmax (g : Guard) (o : SOp) (s : State) : Out := issueOne (semSoftmax g o) s
def execLnorm (g : Guard) (o : SOp) (s : State) : Out := issueOne (semLnorm g o) s
def execTopk (g : Guard) (o : SOp) (s : State) : Out := issueOne (semTopk g o) s
def execSort (g : Guard) (o : SOp) (s : State) : Out := issueOne (semSort g o) s
def execSegsum (g : Guard) (o : SOp) (s : State) : Out := issueOne (semSegsum g o) s
def execStitchDispatch (g : Guard) (opc : BitVec 7) (o : SOp) (hi : BitVec 32) (s : State) : Out :=
  issueOne (semDispatch g opc o hi) s

end Sys2Proof.Machine
end

