-- ==== Sys2Proof/Machine/Adjoint.lean ====
section
/-! DEFINITION. The adjoint of one log entry (R306 to R313): the gradient map, where gradients lie,
and for each command the elements that are zeroed and the terms that are added, in order. -/
namespace Sys2Proof.Machine

/-! ## Log entries as read back -/

/-- A log entry (R302). -/
structure Entry where
  addr : Nat
  cls : Nat
  opc : Nat
  len : Nat
  back : Nat
  sv : Nat
  rc : Nat
  w0 : W64
  w1 : W32
  scal : List W64
  vrot : Nat
  pa : List Nat
  ps : List Nat
  prod : List Nat
  fmtrec : W64
  payload : List Byte

def parseEntry (addr : Nat) (bs : List Byte) : Entry :=
  let w := word8 bs
  let ctl := w 0
  { addr := addr, cls := gf ctl 61 3, opc := gf ctl 54 7, len := gf ctl 36 16, back := gf ctl 20 16,
    sv := gf ctl 16 4, rc := gf ctl 12 4, w0 := w 2, w1 := (w 3).setWidth 32,
    scal := (List.range 6).map (fun n => w (4 + n)), vrot := gf (w 11) 0 7,
    pa := (List.range 3).map (fun n => gf (w 12) (20 * n) 20),
    ps := (List.range 3).map (fun n => gf (w 13) (5 * n) 5),
    prod := (List.range 3).map (fun n => gf (w 14) (21 * n) 21), fmtrec := w 15,
    payload := bs.drop 128 }

/-- The saved operand of SV bit n, whose lengths by bit are given (R303). -/
def Entry.saved (e : Entry) (lens : List Nat) (n : Nat) : Option (List Byte) :=
  if !hasBit e.sv n then none
  else
    let before := ((List.range n).filter (hasBit e.sv)).map (fun m => (lens.getD m 0 + 63) / 64 * 64)
    some ((e.payload.drop before.sum).take (lens.getD n 0))

def elemOf (bs : List Byte) (sz j : Nat) : Nat := leNat ((bs.drop (sz * j)).take sz)

/-! ## The gradient map (R306, R307) -/

/-- Not differentiable. -/
abbrev Nodiff (α : Type) := Except Unit α

/-- R306: a map that UNPICK refuses. -/
def gmapBad (m : List W64) : Bool :=
  m.any (fun e => gf e 15 49 != 0 || e.getLsbD 5 || decide (1 < gf e 6 2) || decide (104 ≤ gf e 8 7))

/-- The gradient kind and target of a forward object; the later entry stands. -/
def gradOf (m : List W64) (fwd : Nat) : Option (Nat × Nat) :=
  (m.reverse.find? (fun e => gf e 8 7 == fwd)).map (fun e => (gf e 6 2, gf e 0 5))

def gradShapeOk (w : W64) : Bool := shapeConf w && (shapeEtype w == 0x00 || shapeEtype w == 0x04)

/-- The gradient tile of tile t. -/
def gradTile (k : Core) (m : List W64) (t : Nat) : Nodiff (Option Nat) :=
  match gradOf m t with
  | none => .ok none
  | some (tk, g) =>
    let w := k.shape g
    if tk = 0 ∧ g < 8 ∧ gradShapeOk w ∧ shapeRows w = shapeRows (k.shape t) ∧
        shapeRowB w = shapeRowB (k.shape t) then .ok (some g)
    else .error ()

/-- The gradient ring of ring h. -/
def gradRing (k : Core) (m : List W64) (h : Nat) : Nodiff (Option Nat) :=
  match gradOf m (8 + h) with
  | none => .ok none
  | some (tk, g) =>
    if tk = 1 ∧ cbValid (k.cb g) ∧ cbRing (k.cb g) = cbRing (k.cb h) ∧
        cbSlotsz (k.cb g) = cbSlotsz (k.cb h) then .ok (some g)
    else .error ()

/-- The gradient tile of logical slot l, for an operand of `rows` by `cols`. -/
def gradSlot (k : Core) (m : List W64) (l rows cols : Nat) : Nodiff (Option Nat) :=
  match gradOf m (40 + l) with
  | none => .ok none
  | some (tk, g) =>
    let w := k.shape g
    if tk = 0 ∧ g < 8 ∧ gradShapeOk w ∧ rows ≤ shapeRows w ∧ 4 * cols ≤ shapeRowB w then .ok (some g)
    else .error ()

/-! ## Gradient elements -/

/-- Where a gradient element lies. -/
inductive GLoc where
  | tile (t row col : Nat)
  | ts (off : Nat)
  deriving DecidableEq, Repr

/-- A gradient read at its full value. -/
def gVal (k : Core) : GLoc → FVal
  | .tile t r c =>
    let row := tileRow k t r
    if row.x then decodeF .fp32x (k.elemX row c) else decodeF .fp32 (k.main row c)
  | .ts off => decodeF .fp32 (numAt k.ts off 4)

/-- A gradient element written: from its own format's bits. -/
def gPut (s : State) (c : Nat) (l : GLoc) (bits : Nat) : State :=
  match l with
  | .tile t r col => s.modCore c (fun k =>
      let row := tileRow k t r
      (if row.x then k.putX row col bits else k.putElem row 4 col bits).setDirty t)
  | .ts off => landTs s c 0 off (leBytes 4 bits)

def gZero (s : State) (c : Nat) (l : GLoc) : State := gPut s c l 0

/-- R308: grad := round(grad + term), with its flags. -/
def gAdd (s : State) (c : Nat) (l : GLoc) (t : FVal) : State × Nat :=
  let f : Fmt := match l with
    | .tile t _ _ => if isX ((s.core c).shape t) then .fp32x else .fp32
    | .ts _ => .fp32
  let r := finish f .rne 0 false (exAdd .rne (gVal (s.core c) l) t)
  (gPut s c l r.bits, r.flags)

/-- What an adjoint does: elements zeroed first, terms in order, elements zeroed last, and the flags
of forming the terms. `quiet` adjoints set no flags (R308: M). The ranges of the tile store and of the operand
slots that forming the terms reads are listed, for R351. -/
structure Plan where
  zero : List GLoc := []
  terms : List (GLoc × FVal) := []
  last : List GLoc := []
  flags : Nat := 0
  quiet : Bool := false
  tsReads : List (Nat × Nat) := []
  opReads : List (Nat × Nat) := []

def applyPlan (s : State) (c : Nat) (p : Plan) : State :=
  let s1 := p.zero.foldl (fun s l => gZero s c l) s
  let r := p.terms.foldl (fun (acc : State × Nat) t =>
    let x := gAdd acc.1 c t.1 t.2
    (x.1, Nat.lor acc.2 x.2)) (s1, p.flags)
  let s2 := p.last.foldl (fun s l => gZero s c l) r.1
  if p.quiet then s2 else s2.modCore c (·.orFlags r.2)

/-- R351: whether an adjoint reads a poisoned granule of an operand slot, or of the tile store, where the
elements that it adds to are read too. -/
def planPoison (s : State) (c : Nat) (p : Plan) : Bool :=
  let hit := fun (ps : List Nat) (r : Nat × Nat) => ps.any (fun g => overlap (g * 64) 64 r.1 r.2)
  let sums := p.terms.filterMap (fun t =>
    match t.1 with
    | .ts off => some (off, 4)
    | _ => none)
  (p.tsReads ++ sums).any (hit (s.core c).tsPoison) || p.opReads.any (hit (opsOf s c).poison)

/-! ## Terms -/

/-- A value of a term with the flags of its roundings. -/
abbrev TV := FVal × Nat

def rnd32 (x : Ex) : TV := let r := finish .fp32 .rne 0 false x; (decodeF .fp32 r.bits, r.flags)
def mulV (a b : FVal) : TV := rnd32 (exMul a b)
def f32V (bits : Nat) : FVal := decodeF .fp32 bits
def sfuV (fn : SfuFn) (a : Nat) : TV := let r := sfu fn a; (f32V r.bits, r.flags)

/-- Chained products, each rounded. -/
def mulT (a : TV) (b : TV) : TV := let r := mulV a.1 b.1; (r.1, Nat.lor (Nat.lor a.2 b.2) r.2)
def tv (v : FVal) : TV := (v, 0)
def negT (a : TV) : TV := (negV a.1, a.2)

/-- R310. -/
def sfuTerm (fn : SfuFn) (a : Nat) (g : FVal) : TV :=
  match fn with
  | .rcp => let y := sfuV .rcp a; negT (mulT (mulT (tv g) y) y)
  | .rsq =>
    let y := sfuV .rsq a
    mulT (tv (.fin true 1 (-1))) (mulT (mulT (mulT (tv g) y) y) y)
  | .exp2 => mulT (mulT (tv g) (sfuV .exp2 a)) (tv (f32V 0x3F317218))
  | .log2 => mulT (mulT (tv g) (sfuV .rcp a)) (tv (f32V 0x3FB8AA3B))
  | .sinpi => mulT (mulT (tv g) (sfuV .cospi a)) (tv (f32V 0x40490FDB))
  | .cospi => negT (mulT (mulT (tv g) (sfuV .sinpi a)) (tv (f32V 0x40490FDB)))

/-- σ·g for a sign: nothing for 0. -/
def signTerm (o : Option Bool) (g : FVal) : Option TV :=
  o.map (fun neg => tv (if neg then negV g else g))

/-- The sign of a − b: negative, positive, or none for equal or NaN operands. -/
def signOf (a b : FVal) : Option Bool :=
  if isNan a || isNan b then none
  else match cmpV a b with
    | .lt => some true
    | .gt => some false
    | .eq => none

/-! ## The V slot (R309) -/

/-- A named row with the recorded view. -/
def adjRow (k : Core) (e : Entry) (n : VReg) : Nodiff Row :=
  match viewRowAt k e.vrot n.toNat with
  | some r => .ok r
  | none => .error ()

def rowLocs (g : Nat) (r : Row) (lo n : Nat) : List GLoc :=
  (List.range n).map (fun j => .tile g r.row (lo + j))

/-- A source operand: its row, and the term for element j from the gradient g. -/
structure Src where
  reg : VReg
  f : Nat → FVal → Option TV

/-- Written elements `dlo …` of vd and, for each source, elements `slo …` of its row. -/
def rowPlan (k : Core) (m : List W64) (e : Entry) (vd : VReg) (zeroed : Bool) (dlo slo n : Nat)
    (srcs : List Src) : Nodiff Plan := do
  let d ← adjRow k e vd
  match ← gradTile k m d.tile with
  | none => return {}
  | some gd =>
    let locs := rowLocs gd d dlo n
    let gs := locs.map (gVal k)
    let ts ← srcs.mapM (fun x => do
      let r ← adjRow k e x.reg
      let own := gs.zipIdx.filterMap (fun g => (x.f g.2 g.1).map (fun t => (g.2, t)))
      if own.isEmpty then return []
      else
        match ← gradTile k m r.tile with
        | none => return []
        | some ga => return own.map (fun t => (GLoc.tile ga r.row (slo + t.1), t.2)))
    let all := ts.flatten
    return { zero := if zeroed then locs else [], terms := all.map (fun t => (t.1, t.2.1)),
             flags := all.foldl (fun a t => Nat.lor a t.2.2) 0 }

/-- A cut: the gradient elements that overlap the written bytes of vd. -/
def cutRow (k : Core) (m : List W64) (e : Entry) (vd : VReg) (lo n : Nat) : Nodiff Plan := do
  let d ← adjRow k e vd
  match ← gradTile k m d.tile with
  | none => return {}
  | some gd => return { zero := if n = 0 then [] else rowLocs gd d (lo / 4) ((lo + n - 1) / 4 + 1 - lo / 4) }

/-- The vector registers and the tiles that a V instruction names. -/
def vNames : Instr → List VReg × List Nat
  | .vop2 _ _ bs _ _ _ vb va vd => ([vd, va] ++ bsRows bs vb, [])
  | .vfma _ _ bs _ _ _ vc vb va vd => ([vd, va] ++ bsRows bs vb ++ [vc], [])
  | .vop1 _ _ _ _ _ va vd => ([vd, va], [])
  | .vcmp _ _ _ _ bs _ vb va vd => ([vd, va] ++ bsRows bs vb, [])
  | .vsel _ bs _ vc vb va vd => ([vd, va] ++ bsRows bs vb ++ [vc], [])
  | .vred _ _ _ va _ => ([va], [])
  | .vrows _ _ _ _ _ va vd => ([vd, va], [])
  | .vcols _ put _ _ t va vd => ([if put then va else vd], [t.toNat])
  | .vcvt _ _ _ _ _ _ va vd => ([vd, va], [])
  | .vcvto _ _ _ _ _ _ _ va vd => ([vd, va], [])
  | .vsca _ _ _ vc vb va vd => ([vd, va, vb, vc], [])
  | .vsfu _ _ va vd => ([vd, va], [])
  | .vint _ _ bs _ vb va vd => ([vd, va] ++ bsRows bs vb, [])
  | .vmovi _ _ _ vd => ([vd], [])
  | .vldt _ _ _ _ _ _ _ _ vd => ([vd], [])
  | .vstt _ _ _ _ _ _ _ _ vs => ([vs], [])
  | _ => ([], [])

/-- R319: a row or tile that the entry names cannot be resolved, whatever adjoint its opcode has. -/
def unresolved319 (k : Core) (e : Entry) (i : Instr) : Bool :=
  match i with
  | .mma _ _ o | .mmah _ _ _ _ _ o => !shapeConf (k.shape o.ad.toNat)
  | .mzero _ ad => !shapeConf (k.shape ad.toNat)
  | _ =>
    let (rs, ts) := vNames i
    rs.any (fun n => (viewRowAt k e.vrot n.toNat).isNone) || ts.any (fun t => !shapeConf (k.shape t))

/-- Operand b of an entry: a saved row, or the broadcast scalar. -/
def bVal (e : Entry) (lens : List Nat) (bs : Bool) (j : Nat) : Nat :=
  if bs then (e.scal.getD 0 0).toNat % 2 ^ 32 else elemOf ((e.saved lens 1).getD []) 4 j

def gPass (_ : Nat) (g : FVal) : Option TV := some (tv g)
def gNeg (_ : Nat) (g : FVal) : Option TV := some (tv (negV g))

def planVop2 (k : Core) (m : List W64) (e : Entry) (fn : Vop2Fn) (bs : Bool) (f : Fmt)
    (vb va vd : VReg) (rb : Nat) : Nodiff Plan :=
  let lens := [rb, rb, rb]
  let a := fun j => elemOf ((e.saved lens 0).getD []) 4 j
  let b := bVal e lens bs
  let srcB := fun (g : Nat → FVal → Option TV) => (bsRows bs vb).map (fun v => (⟨v, g⟩ : Src))
  let go := fun (ga gb : Nat → FVal → Option TV) =>
    rowPlan k m e vd true 0 0 (rb / 4) (⟨va, ga⟩ :: srcB gb)
  let pick := fun (p : FVal → FVal → Bool) =>
    go (fun j g => if p (f32V (a j)) (f32V (b j)) then none else some (tv g))
       (fun j g => if p (f32V (a j)) (f32V (b j)) then some (tv g) else none)
  if f != .fp32 then cutRow k m e vd 0 rb
  else
    match fn with
    | .add => go gPass gPass
    | .sub => go gPass gNeg
    | .mul => go (fun j g => some (mulV g (f32V (b j)))) (fun j g => some (mulV g (f32V (a j))))
    | .min => pick minPicksB
    | .max => pick maxPicksB
    | .absd => go (fun j g => signTerm (signOf (f32V (a j)) (f32V (b j))) g)
        (fun j g => signTerm ((signOf (f32V (a j)) (f32V (b j))).map not) g)
    | .mulh => cutRow k m e vd 0 rb

def planVfma (k : Core) (m : List W64) (e : Entry) (fn : VfmaFn) (bs : Bool) (f : Fmt)
    (vc vb va vd : VReg) (rb : Nat) : Nodiff Plan :=
  let lens := [rb, rb, rb]
  let a := fun j => elemOf ((e.saved lens 0).getD []) 4 j
  let b := bVal e lens bs
  let sg := fun (t : TV) => if fn = .fnma then negT t else t
  if f != .fp32 then cutRow k m e vd 0 rb
  else rowPlan k m e vd true 0 0 (rb / 4)
    (⟨va, fun j g => some (sg (mulV g (f32V (b j))))⟩ ::
      (bsRows bs vb).map (fun v => (⟨v, fun j g => some (sg (mulV g (f32V (a j))))⟩ : Src)) ++
      [⟨vc, if fn = .fms then gNeg else gPass⟩])

def planVop1 (k : Core) (m : List W64) (e : Entry) (fn : Vop1Fn) (f : Fmt) (va vd : VReg)
    (rb : Nat) : Nodiff Plan :=
  let a := fun j => f32V (elemOf ((e.saved [rb, rb, rb] 0).getD []) 4 j)
  let go := fun (g : Nat → FVal → Option TV) => rowPlan k m e vd true 0 0 (rb / 4) [⟨va, g⟩]
  if f != .fp32 then cutRow k m e vd 0 rb
  else
    match fn with
    | .mov => go gPass
    | .neg => go gNeg
    | .abs => go (fun j g => signTerm (signOf (a j) (.fin false 0 0)) g)
    | .relu => go (fun j g => if fposV (a j) then some (tv g) else none)
    | .relud | .rint => cutRow k m e vd 0 rb

/-- Elements of a column of a tile's gradient. -/
def colLocs (g rows col : Nat) : List GLoc := (List.range rows).map (fun r => .tile g r col)

def planVcols (k : Core) (m : List W64) (e : Entry) (put : Bool) (sz : Size) (col t : Nat)
    (va vd : VReg) : Nodiff Plan := do
  let rows := shapeRows (k.shape t)
  let n := sizeBytes sz
  if put then
    match ← gradTile k m t with
    | none => return {}
    | some gc =>
      let locs := colLocs gc rows (col * n / 4)
      if sz != .b32 then return { zero := locs }
      else
        let r ← adjRow k e va
        match ← gradTile k m r.tile with
        | none => return { zero := locs }
        | some ga =>
          return { zero := locs,
                   terms := locs.zipIdx.map (fun l => (.tile ga r.row l.2, gVal k l.1)) }
  else if sz != .b32 then cutRow k m e vd 0 (rows * n)
  else
    let d ← adjRow k e vd
    match ← gradTile k m d.tile with
    | none => return {}
    | some gd =>
      let locs := rowLocs gd d 0 rows
      match ← gradTile k m t with
      | none => return { zero := locs }
      | some gc =>
        return { zero := locs, terms := locs.zipIdx.map (fun l => (.tile gc l.2 col, gVal k l.1)) }

/-- R307: the gradient elements of bytes of the recorded slot of a forward ring. -/
def ringLocs (k : Core) (cg slot lo n : Nat) : List GLoc :=
  (List.range n).map (fun j => .ts (slotAddr (k.cb cg) slot + lo + 4 * j))

/-- VLDT and VSTT in ring form: between the row's gradient and the ring's. -/
def planRing (k : Core) (m : List W64) (e : Entry) (h : Nat) (rowix : BitVec 10) (v : VReg)
    (load : Bool) : Nodiff Plan := do
  let r ← adjRow k e v
  let n := r.rb / 4
  let locs := fun cg => ringLocs k cg (e.ps.getD 0 0) (rowix.toNat * r.rb) n
  if load then
    match ← gradTile k m r.tile with
    | none => return {}
    | some gd =>
      let ds := rowLocs gd r 0 n
      match ← gradRing k m h with
      | none => return { zero := ds }
      | some cg => return { zero := ds, terms := (locs cg).zip (ds.map (gVal k)) }
  else
    match ← gradRing k m h with
    | none => return {}
    | some cg =>
      match ← gradTile k m r.tile with
      | none => return { zero := locs cg }
      | some gd => return { zero := locs cg, terms := (rowLocs gd r 0 n).zip ((locs cg).map (gVal k)),
                            tsReads := [(slotAddr (k.cb cg) (e.ps.getD 0 0) + rowix.toNat * r.rb, r.rb)] }

/-- VCVTO is cut on its side list too: the list has an element of two bytes for each outlier of va, as the vector unit
reads it (R101), which, with OTH, is read where it stands (R304; log entry 86). -/
def cutSide (k : Core) (m : List W64) (e : Entry) (h : Nat) (va : VReg) : Nodiff (List GLoc) := do
  let r ← adjRow k e va
  let t := (k.cfgAt rOTH).toNat % 2 ^ 32
  let n := (((List.range (r.rb / 4)).map (k.elem32 r)).filter (isOutlier t)).length
  if n = 0 then return []
  else
    match ← gradRing k m h with
    | none => return []
    | some cg => return ringLocs k cg (e.ps.getD 0 0) 0 ((2 * n + 3) / 4)

/-- R309, VSCA: Ga += g × 2^(scales − 254), or NaN where a scale is 0xFF. -/
def planVsca (k : Core) (m : List W64) (e : Entry) (pint : Bool) (vc vb va vd : VReg) : Nodiff Plan := do
  let d ← adjRow k e vd
  let b ← adjRow k e vb
  let c ← adjRow k e vc
  let lens := [0, b.rb, c.rb]
  let sa := elemOf ((e.saved lens 2).getD []) 1 d.row
  let sb := fun j => elemOf ((e.saved lens 1).getD []) 1 j
  if pint then return {}
  else rowPlan k m e vd false 0 0 (d.rb / 4) [⟨va, fun j g =>
    if sa = 0xFF ∨ sb j = 0xFF then some (tv .nan)
    else some (mulV g (.fin false 1 ((sa : Int) - 127 + (sb j - 127))))⟩]

def planV (k : Core) (m : List W64) (e : Entry) (i : Instr) : Nodiff Plan :=
  let rb := fun (v : VReg) => ((viewRowAt k e.vrot v.toNat).map (·.rb)).getD 0
  match i with
  | .vop2 _ fn bs _ _ f vb va vd => planVop2 k m e fn bs f vb va vd (rb vd)
  | .vfma _ fn bs _ _ f vc vb va vd => planVfma k m e fn bs f vc vb va vd (rb vd)
  | .vop1 _ fn _ _ f va vd => planVop1 k m e fn f va vd (rb vd)
  | .vsel _ bs f vc vb va vd =>
    let c := fun j => elemOf ((e.saved [rb vd, rb vd, rb vc] 2).getD []) 4 j
    if f != .fp32 then cutRow k m e vd 0 (rb vd)
    else rowPlan k m e vd true 0 0 (rb vd / 4)
      (⟨va, fun j g => if c j != 0 then some (tv g) else none⟩ ::
        (bsRows bs vb).map (fun v => (⟨v, fun j g => if c j != 0 then none else some (tv g)⟩ : Src)))
  | .vred _ _ _ _ _ => .ok {}
  | .vrows _ sz cntm1 doff soff va vd =>
    let n := sizeBytes sz
    if sz = .b32 then
      rowPlan k m e vd true doff.toNat soff.toNat (cntm1.toNat + 1) [⟨va, gPass⟩]
    else cutRow k m e vd (doff.toNat * n) ((cntm1.toNat + 1) * n)
  | .vcols _ put sz col t va vd => planVcols k m e put sz col.toNat t.toNat va vd
  | .vcvt _ tgt part _ _ frm va vd =>
    let s1 := fmtSize frm
    let d1 := fmtSize tgt
    let n := rb va / (if s1 < d1 then d1 else s1)
    cutRow k m e vd (if d1 < s1 then part.toNat * n * d1 else 0) (n * d1)
  | .vcvto _ desc _ _ _ part _ va vd => do
    let row ← cutRow k m e vd (part.toNat * (rb va / 4)) (rb va / 4)
    let side ← cutSide k m e (descH desc) va
    return { row with zero := row.zero ++ side }
  | .vsca _ pint _ vc vb va vd => planVsca k m e pint vc vb va vd
  | .vsfu _ fn va vd =>
    rowPlan k m e vd true 0 0 (rb vd / 4)
      [⟨va, fun j g => some (sfuTerm fn (elemOf ((e.saved [rb vd, 0, 0] 0).getD []) 4 j) g)⟩]
  | .vcmp _ _ _ _ _ _ _ _ vd | .vint _ _ _ _ _ _ vd | .vmovi _ _ _ vd => cutRow k m e vd 0 (rb vd)
  | .vldt _ desc rowix _ _ am _ _ vd =>
    if am then cutRow k m e vd 0 (rb vd) else planRing k m e (descH desc) rowix vd true
  | .vstt _ desc rowix _ _ am _ _ vs => if am then .ok {} else planRing k m e (descH desc) rowix vs false
  | _ => .error ()

/-! ## The M slot (R311) -/

/-- Element n of an operand, from the payload or from its slot. -/
def mOperand (e : Entry) (o : OpSlots) (lens : List Nat) (bit slot sz : Nat) : Nat → Nat :=
  match e.saved lens bit with
  | some bs => fun n => elemOf bs sz n
  | none => fun n => numAt o.bytes (slot * 16384 + n * sz) sz

/-- One exact block of products of gradients and operand elements. -/
def blockVal (g : Nat → FVal) (f : Fmt) (x : Nat → Nat) (lo hi : Nat) : FVal :=
  ((List.range (hi - lo)).foldl (fun b d =>
    b.add (termMul (g (lo + d)) (decodeF f (x (lo + d))))) Block.empty).val

/-- The blocks of 32 of an index range. -/
def blocks (n : Nat) : List (Nat × Nat) :=
  (List.range ((n + 31) / 32)).map (fun b => (32 * b, if 32 * b + 32 < n then 32 * b + 32 else n))

def planMma (s : State) (c : Nat) (m : List W64) (e : Entry) (i : Instr) : Nodiff Plan := do
  let k := s.core c
  let (mm, n, kk, x) := mmaDims i
  let t := x.ad.toNat
  let fa := if x.cmp then (fmtOfCode (gf e.fmtrec 0 6)).getD .bf16 else x.fmt
  let fb := if x.cmp then (fmtOfCode (gf e.fmtrec 6 6)).getD .bf16 else x.fmt
  if fa == .int8 && x.acc then return { quiet := true }
  else
  match ← gradTile k m t with
  | none => return {}
  | some g =>
    let area := (List.range mm).flatMap (fun r => (List.range n).map (fun j => GLoc.tile g r j))
    if fa == .int8 then return { zero := area, quiet := true }
    else
      let (na, nb) := mmaBytes i fa fb
      let lost := fun (bit slot len : Nat) => !hasBit e.sv bit && (badSlot s c slot len).isSome
      let reads := fun (bit slot len : Nat) => if hasBit e.sv bit then [] else [(slot * 16384, len)]
      if lost 0 x.sla.toNat na || lost 1 x.slb.toNat nb then throw ()
      let o := opsOf s c
      let av := mOperand e o [na, nb] 0 x.sla.toNat (fmtSize fa)
      let bv := mOperand e o [na, nb] 1 x.slb.toNat (fmtSize fb)
      let gv := fun r j => gVal k (.tile g r j)
      let aAt := fun r q => av (if x.ta then q * mm + r else r * kk + q)
      let bAt := fun q j => bv (if x.tb then j * kk + q else q * n + j)
      let (ra, ca) := if x.ta then (kk, mm) else (mm, kk)
      let (rb, cb) := if x.tb then (n, kk) else (kk, n)
      let ga ← gradSlot k m x.sla.toNat ra ca
      let gb ← gradSlot k m x.slb.toNat rb cb
      let da := match ga with
        | none => []
        | some ga => (List.range ra).flatMap (fun r => (List.range ca).flatMap (fun q =>
            let (ii, ki) := if x.ta then (q, r) else (r, q)
            (blocks n).map (fun b => (GLoc.tile ga r q, blockVal (gv ii) fb (bAt ki) b.1 b.2))))
      let db := match gb with
        | none => []
        | some gb => (List.range rb).flatMap (fun r => (List.range cb).flatMap (fun q =>
            let (ki, ji) := if x.tb then (q, r) else (r, q)
            (blocks mm).map (fun b => (GLoc.tile gb r q,
              blockVal (fun r => gv r ji) fa (fun r => aAt r ki) b.1 b.2))))
      return { terms := da ++ db, last := if x.acc then [] else area, quiet := true,
               opReads := reads 0 x.sla.toNat na ++ reads 1 x.slb.toNat nb }

/-- MZERO: a cut over the configured area. -/
def planMzero (k : Core) (m : List W64) (t : Nat) : Nodiff Plan := do
  match ← gradTile k m t with
  | none => return {}
  | some g => return { zero := (List.range (shapeRows (k.shape t))).flatMap (fun r =>
      (List.range (shapeRowB (k.shape t) / 4)).map (fun j => GLoc.tile g r j)), quiet := true }

/-! ## The library operations (R313) -/

/-- The forward bytes of port n: the payload, or the recorded slot as it stands. -/
def portFwd (k : Core) (e : Entry) (ds : List Desc) (n : Nat) : Nat → Nat → Nat :=
  let lens := ds.map (fun d => cbSlotBytes (k.cb (descH d)))
  match e.saved lens n with
  | some bs => fun sz j => elemOf bs sz j
  | none => fun sz j => numAt k.ts (e.pa.getD n 0 + sz * j) sz

/-- R148: the bytes of output ports that a library command wrote: port, offset, length. -/
def libWritten (k : Core) (e : Entry) (ds : List Desc) (a : LibPar) (sz : Nat) : List (Nat × Nat × Nat) :=
  let m := a.rows * a.cols * sz
  match e.opc with
  | 0x62 => (List.range a.rows).filterMap (fun i =>
      (idxOk a.n (portFwd k e ds 2 4 i)).map (fun r => (0, r * a.cols * sz, a.cols * sz)))
  | 0x65 => [(0, 0, a.rows * a.n * 4), (1, 0, a.rows * a.n * 4)]
  | 0x67 => [(0, 0, a.n * 4)]
  | _ => [(0, 0, m)]

/-- The gradient ring of the ring of port n. -/
def portGrad (k : Core) (m : List W64) (ds : List Desc) (n : Nat) : Nodiff (Option Nat) :=
  gradRing k m (descH (ds.getD n 0))

/-- The gradient elements that overlap written bytes; unmapped ports have none. -/
def libZero (k : Core) (m : List W64) (e : Entry) (ds : List Desc) (ws : List (Nat × Nat × Nat)) :
    Nodiff (List GLoc) := do
  let l ← (ws.filter (fun w => w.2.2 != 0)).mapM (fun w => do
    match ← portGrad k m ds w.1 with
    | none => return []
    | some cg =>
      let cnt := (w.2.1 + w.2.2 - 1) / 4 + 1 - w.2.1 / 4
      return ringLocs k cg (e.ps.getD w.1 0) (w.2.1 / 4 * 4) cnt)
  return l.flatten

/-- Per row: the terms for the input row from the output gradients g (R313), with flags. -/
def softmaxAdj (y g : List Nat) : List Nat × Nat :=
  let p := mapFR (fun x : Nat × Nat => mul32 x.1 x.2) (g.zip y)
  let s := rowSum p.1
  let d := mapFR (fun a => sub32 a s.1) g
  let r := mapFR (fun x : Nat × Nat => mul32 x.1 x.2) (y.zip d.1)
  (r.1, [p.2, s.2, d.2, r.2].foldl Nat.lor 0)

def lnormAdj (eps : Nat) (x g : List Nat) : List Nat × Nat :=
  let (d, w, fl) := lnormParts eps x
  let c := recipCols x.length
  let rs := sfu .rsq w
  let xh := mapFR (fun v => mul32 v rs.bits) d
  let sa := rowSum g
  let a := mul32 sa.1 c.bits
  let q := mapFR (fun v : Nat × Nat => mul32 v.1 v.2) (g.zip xh.1)
  let sb := rowSum q.1
  let b := mul32 sb.1 c.bits
  let r := (g.zip xh.1).map (fun v =>
    let u := sub32 v.1 a.bits
    let t := mul32 v.2 b.bits
    let z := sub32 u.bits t.bits
    let o := mul32 rs.bits z.bits
    (o.bits, [u.flags, t.flags, z.flags, o.flags].foldl Nat.lor 0))
  (r.map (·.1), Nat.lor ([fl, c.flags, rs.flags, xh.2, sa.2, a.flags, q.2, sb.2, b.flags].foldl Nat.lor 0)
    (r.foldl (fun a t => Nat.lor a t.2) 0))

/-- The index of the last position at which a valid index names the row that position i names. -/
def lastWinner (idx : List Nat) (n i : Nat) : Bool :=
  match idxOk n (idx.getD i 0) with
  | none => false
  | some r => !((idx.drop (i + 1)).any (fun j => idxOk n j == some r))

/-- The terms of a library adjoint: input port, input element, the bits of the term. `g` gives the
bits of gradient element j of output port 0. -/
def libTerms (k : Core) (e : Entry) (ds : List Desc) (a : LibPar) (g : Nat → Nat) :
    Nat × List (Nat × Nat) × Nat :=
  let idx := fun n cnt => (List.range cnt).map (fun j => portFwd k e ds n 4 j)
  let n := a.rows * a.cols
  let rows := List.range a.rows
  let cs := List.range a.cols
  match e.opc with
  | 0x60 => (1, rows.flatMap (fun i => cs.map (fun j => (i * a.cols + j, g (j * a.rows + i)))), 0)
  | 0x61 => (1, (idx 2 a.rows).zipIdx.flatMap (fun p =>
      match idxOk a.n p.1 with
      | some r => cs.map (fun j => (r * a.cols + j, g (p.2 * a.cols + j)))
      | none => []), 0)
  | 0x62 =>
    let ix := idx 2 a.rows
    (1, rows.flatMap (fun i =>
      if lastWinner ix a.n i then cs.map (fun j => (i * a.cols + j, g (ix.getD i 0 * a.cols + j))) else []), 0)
  | 0x63 =>
    let rs := rows.map (fun r => softmaxAdj (cs.map (fun j => portFwd k e ds 0 4 (r * a.cols + j)))
      (cs.map (fun j => g (r * a.cols + j))))
    (1, (rs.flatMap (·.1)).zipIdx.map (fun p => (p.2, p.1)), rs.foldl (fun b r => Nat.lor b r.2) 0)
  | 0x64 =>
    let rs := rows.map (fun r => lnormAdj a.n (cs.map (fun j => portFwd k e ds 1 4 (r * a.cols + j)))
      (cs.map (fun j => g (r * a.cols + j))))
    (1, (rs.flatMap (·.1)).zipIdx.map (fun p => (p.2, p.1)), rs.foldl (fun b r => Nat.lor b r.2) 0)
  | 0x65 => (2, rows.flatMap (fun r => (List.range a.n).filterMap (fun q =>
      (idxOk a.cols (portFwd k e ds 1 4 (r * a.n + q))).map (fun j =>
        (r * a.cols + j, g (r * a.n + q))))), 0)
  | 0x66 => (1, rows.flatMap (fun r =>
      (ranked (smaller .fp32) (cs.map (fun j => portFwd k e ds 1 4 (r * a.cols + j)))).zipIdx.map
        (fun p => (r * a.cols + p.1.2, g (r * a.cols + p.2)))), 0)
  | _ => (1, (idx 2 n).zipIdx.filterMap (fun p => (idxOk a.n p.1).map (fun r => (p.2, g r))), 0)

/-- R313: the forward port that the adjoint of an opcode reads, and its bytes; a cut one reads the indices of
SCATTER only. -/
def libFwd (e : Entry) (a : LibPar) (cut : Bool) : List (Nat × Nat) :=
  if cut && e.opc != 0x62 then []
  else
    match e.opc with
    | 0x60 => []
    | 0x61 | 0x62 => [(2, a.rows * 4)]
    | 0x63 => [(0, a.rows * a.cols * 4)]
    | 0x64 | 0x66 => [(1, a.rows * a.cols * 4)]
    | 0x65 => [(1, a.rows * a.n * 4)]
    | _ => [(2, a.rows * a.cols * 4)]

/-- The ranges of the tile store that the forward values come from: the ports that the payload does not hold. -/
def libFwdReads (e : Entry) (a : LibPar) (cut : Bool) : List (Nat × Nat) :=
  ((libFwd e a cut).filter (fun p => !hasBit e.sv p.1)).map (fun p => (e.pa.getD p.1 0, p.2))

/-- The elements of gradient port 0 that the terms read. -/
def libGout (e : Entry) (a : LibPar) : Nat :=
  match e.opc with
  | 0x62 => a.n * a.cols
  | 0x65 => a.rows * a.n
  | 0x67 => a.n
  | _ => a.rows * a.cols

/-- The plan of a library entry. A gradient is looked for where an element is written or has a term (R307). -/
def planLib (k : Core) (m : List W64) (e : Entry) (ds : List Desc) : Nodiff Plan := do
  let a := libPar (e.scal.getD 0 0)
  let f := a.fmt.getD .int8
  let zero ← libZero k m e ds (libWritten k e ds a (fmtSize f))
  let cut : Plan := { zero := zero, tsReads := libFwdReads e a true }
  if f != .fp32 || (libTerms k e ds a (fun _ => 0)).2.1.isEmpty then return cut
  else
    match ← portGrad k m ds 0 with
    | none => return cut
    | some cg =>
      let base := slotAddr (k.cb cg) (e.ps.getD 0 0)
      let (port, ts, fl) := libTerms k e ds a (fun j => numAt k.ts (base + 4 * j) 4)
      match ← portGrad k m ds port with
      | none => return cut
      | some ci =>
        let at' := slotAddr (k.cb ci) (e.ps.getD port 0)
        return { zero := zero, tsReads := (base, libGout e a * 4) :: libFwdReads e a false, terms := ts.map (fun t => (GLoc.ts (at' + 4 * t.1), f32V t.2)), flags := fl }

end Sys2Proof.Machine
end

