-- ==== Sys2Proof/Machine/Unpick.lean ====
section
/-! DEFINITION. UNPICK (R305, R308, R314 to R319): its wait, the gradient map, the recomputation of
ports, adjoint routines, and the walk from the last entry back. -/
namespace Sys2Proof.Machine

/-! ## Reads of UNPICK -/

/-- The parts of a range in its lines. -/
def spanParts (va n : Nat) : List (Nat × Nat) :=
  let lo := fun (j : Nat) => if j = 0 then va else va / 64 * 64 + 64 * j
  (List.range (if n = 0 then 0 else (va % 64 + n + 63) / 64)).map (fun j =>
    (va57 (lo j), (if lo (j + 1) < va + n then lo (j + 1) else va + n) - lo j))

def spanRead (s : State) (c va n : Nat) (t0 : Trap) : Rd :=
  joinRd ((spanParts va n).map (fun p => gmLoad s c (some .seq) p.1 p.2 .read t0))

/-- The parts of a range that are remote and not here are asked for. -/
def spanAsk (s : State) (c va n : Nat) (t0 : Trap) : State :=
  (spanParts va n).foldl (fun s p =>
    match gmLoad s c (some .seq) p.1 p.2 .read t0 with
    | .wait t => askLoad s c (some .seq) t p.1 p.2 0
    | _ => s) s

/-- A range has been used: its replies are dropped, its translations kept. -/
def spanDone (s : State) (c va n : Nat) : State :=
  (spanParts va n).foldl (fun s p =>
    dropReply (keepVa s c p.1 .read) c (.load c (some .seq) p.1 p.2)) s

/-! ## Traps and the lease -/

def leaseCode : Lease → Nat
  | .idle => 0 | .waiting => 1 | .holding => 2

/-- R311: the lease returns to the state that stood before. -/
def restoreLease (s : State) (c : Nat) (l : Option Nat) : State :=
  match l with
  | some 0 => releaseLease s c
  | some 1 => settleOf (setLease s c .waiting) c
  | _ => s

/-- UNPICK lets go of what it holds; what the sequencer has read ahead of its writes is read anew. -/
def upkLeave (s : State) (c : Nat) : State :=
  match (s.core c).upk with
  | none => s
  | some u => (restoreLease s c u.lease).modCore c (fun k => { k.dropAhead .seq with upk := none })

/-- R318: the frame of a trap in UNPICK names its bundle and the entry. -/
def upkFrame (k : Core) (w0 : W64) (entry : Nat) : Trap :=
  { cause := .nodiff, slot := 8, baddr := k.bpc, faddr := entry, w0 := w0 }

def upkTrap (s : State) (c : Nat) (t : Trap) : State := raiseTrap (upkLeave s c) c t

/-- A read that faulted: the trap names the entry. -/
def upkStop (s : State) (c : Nat) (entry : Nat) : Stop → State
  | .trap t => upkTrap s c { t with faddr := entry }
  | st => takeStop (upkLeave s c) c st

/-! ## The entry's command -/

/-- The descriptors of an S slot. -/
def descsOfWord (w : W64) : List Desc := [fld w 16 16, fld w 32 16, fld w 48 16]

/-- R319: the recorded word as decode would judge it under the binding as it stands. -/
def entryInstr (k : Core) (e : Entry) : Option Instr :=
  let cls := opcClass e.opc
  let p := k.prickAt e.opc
  if logClass cls != e.cls || opcOf e.w0 != e.opc then none
  else if p.kind = 1 then
    match decode (match cls with
      | .v => .v e.w0
      | .m => .m e.w0
      | .k => .k (e.w1 ++ e.w0 : BitVec 96)
      | _ => .s e.w0) with
    | .ok i => if cls != .s || descsLegal p (descsOfWord e.w0) then some i else none
    | .error _ => none
  else
    let i := parseStitch e.w0 e.w1
    match i with
    | .stitchDispatch g _ o _ =>
      if guardOk g && ((p.kind == 0 && e.cls != 4) || descsLegal p (sopDescs o)) then some i else none
    | _ => none

/-- Ports of a command as the log recorded them. -/
def loggedPorts (k : Core) (e : Entry) (p : Prick) (ds : List Desc) : List (Port × Option (Nat × Nat)) :=
  (ds.zipIdx).map (fun x =>
    if hasBit p.use x.2 then
      ({ base := e.pa.getD x.2 0, size := cbSlotBytes (k.cb (descH x.1)), out := hasBit p.outp x.2 },
        some (descH x.1, e.ps.getD x.2 0))
    else ({ base := 0, size := 0, out := false }, none))

/-! ## Recomputation (R305) -/

/-- The scalars of a K entry, taken apart again. -/
def unpackScal (i : Instr) (x : KXfer) (l : List W64) : List W64 :=
  let take := fun (b : Bool) (n : Nat) => if b then l.getD n 0 else 0
  let nd := x.dst != .ring
  let ns := x.src != .ring
  let p := bitOf nd + bitOf ns
  let one := match i with
    | .kcgrad _ _ _ _ _ => true
    | _ => false
  let q := p + (if one then 1 else 2)
  [take nd 0, take ns (bitOf nd), l.getD p 0, take (!one) (p + 1), take (x.cmpl != Cmpl.none) q,
   take (x.cmpl == .stamp) (q + 1)]

/-- The ports that a producer saved go back into their slots. -/
def copyBack (s : State) (c : Nat) (e : Entry) (ds : List Desc) : State :=
  let lens := ds.map (fun d => cbSlotBytes ((s.core c).cb (descH d)))
  (List.range 3).foldl (fun s n =>
    match e.saved lens n with
    | some bs => landTs s c 0 (e.pa.getD n 0) bs
    | none => s) s

/-- A producer's command is issued again, without its side effects. The trap cause where it cannot. -/
def reissue (s : State) (c : Nat) (e : Entry) : Except Cause State :=
  let k := s.core c
  match entryInstr k e with
  | none => .error .nodiff
  | some i =>
    match xferOf i with
    | some x =>
      let scal := unpackScal i x e.scal
      let (id, k1) := k.newId
      let y : KCmd := { id := id, agent := .seq, i := i, scal := scal, baddr := k.bpc,
                        src := if x.src = .ring then e.pa.getD 1 0
                               else if kSrcGm i then gf (scal.getD 1 0) 0 57 else (scal.getD 1 0).toNat,
                        dst := if x.dst = .ring then e.pa.getD 0 0
                               else if kDstGm i then gf (scal.getD 0 0) 0 57 else (scal.getD 0 0).toNat,
                        sring := none, dring := none, landed := [], packet := [],
                        draws := k.cfgAt rSRSTATE, finished := false, deps := [], quiet := true,
                        parent := none }
      .ok (s.setCore c { k1 with kcmds := k1.kcmds ++ [y] })
    | none =>
      let p := k.prickAt e.opc
      if e.cls != 4 && p.kind != 2 then .error .nodiff
      else if p.kind = 0 then .error .unbound
      else
        match freeGang k with
        | none => .error .nodiff
        | some g =>
          let ds := descsOfWord e.w0
          let ps := loggedPorts k e p ds
          let cmd : SCmd :=
            { opc := e.opc, w0 := e.w0, w1 := e.w1, sa := e.scal.getD 0 0, baddr := k.bpc, entry := p,
              outs := outRings p ds, ins := inRings p ds, ports := ps.map (·.1) ++ [scratchPort k g],
              slots := ps.map (·.2) ++ [none], lib := if p.kind = 1 then some i else none,
              parent := none, unpick := false, g45 := e.w1.setWidth 64, logAt := none, quiet := true }
          .ok (startGang (copyBack s c e ds) c g 1 cmd)

/-! ## Adjoint routines (R315) -/

/-- The forward rings of the ports of an entry. -/
def entryRings (k : Core) (e : Entry) (i : Instr) : List (Option Nat) :=
  match xferOf i with
  | some x => [if x.dst == .ring then some (descH x.ddesc) else none,
               if x.src == .ring then some (descH x.sdesc) else none, none]
  | none =>
    match i with
    | .vldt _ d _ _ _ am _ _ _ | .vstt _ d _ _ _ am _ _ _ => [if am then none else some (descH d), none, none]
    | .vcvto _ d _ _ _ _ _ _ _ => [some (descH d), none, none]
    | _ =>
      let p := k.prickAt e.opc
      if p.kind = 2 || e.cls = 4 then
        (descsOfWord e.w0).zipIdx.map (fun x => if hasBit p.use x.2 then some (descH x.1) else none)
      else [none, none, none]

def adjPorts (k : Core) (m : List W64) (e : Entry) (i : Instr) (img : Prick) : Nodiff (List (Port × Option (Nat × Nat))) :=
  (entryRings k e i).zipIdx.mapM (fun x => do
    match x.1 with
    | none => return ({ base := 0, size := 0, out := false }, none)
    | some h =>
      match ← gradRing k m h with
      | none => return ({ base := 0, size := 0, out := false }, none)
      | some cg =>
        let sl := e.ps.getD x.2 0
        return ({ base := slotAddr (k.cb cg) sl, size := cbSlotBytes (k.cb cg), out := hasBit img.outp x.2 },
          some (cg, sl)))

/-- R315: the adjoint routine is dispatched. What the dispatches and commands of UNPICK weigh R245 does not say: they
weigh nothing (DESIGN CHOICE, log entry 91). -/
def startAdjoint (s : State) (c : Nat) (m : List W64) (e : Entry) (i : Instr) (img : Prick) : Nodiff State := do
  let k := s.core c
  if img.kind != 2 || img.entry == 0 || img.entry % 8 != 0 then throw ()
  let ps ← adjPorts k m e i img
  match freeGang k with
  | none => throw ()
  | some g =>
    let cmd : SCmd :=
      { opc := e.opc, w0 := e.w0, w1 := e.w1, sa := e.scal.getD 0 0, baddr := k.bpc, entry := img,
        outs := [], ins := [], ports := ps.map (·.1) ++ [scratchPort k g], slots := ps.map (·.2) ++ [none],
        lib := none, parent := none, unpick := true, g45 := w64 e.addr, logAt := none }
    return startGang s c g 1 cmd

/-! ## One entry -/

/-- The architected adjoint of an entry (R309 to R313). -/
def planOf (s : State) (c : Nat) (m : List W64) (e : Entry) (i : Instr) : Nodiff Plan :=
  let k := s.core c
  match i with
  | .mma _ _ _ | .mmah _ _ _ _ _ _ => planMma s c m e i
  | .mzero _ ad => planMzero k m ad.toNat
  | .mlease _ | .munlease _ | .mclaim _ _ _ | .mrels _ _ _ | .mdrain _ | .stitchDispatch _ _ _ _ =>
    .error ()
  | _ =>
    match e.cls with
    | 2 => planV k m e i
    | 3 => .ok {}
    | 4 => planLib k m e (descsOfWord e.w0)
    | _ => .error ()

/-- R317: an entry is consumed. -/
def consume (s : State) (c : Nat) (e : Entry) : State :=
  (upkLeave s c).modCore c (fun k =>
    let k1 := k.modCfg rLOGP (fun w => sf w 6 51 (e.addr / 64))
    let st := k.cfgAt rLOGSTAT
    let k2 := if e.back = 0 then k1.setCfg rLOGSTAT (sf (sf st 62 1 0) 6 51 0)
      else k1.setCfg rLOGSTAT (sf st 6 51 (e.addr / 64 - e.back))
    { k2 with lastLen := e.back })

def setUpk (s : State) (c : Nat) (u : Upk) : State := s.modCore c (fun k => { k with upk := some u })

/-- The next entry keeps the map and the word. -/
def nextUpk (s : State) (c : Nat) (u : Upk) : State :=
  setUpk s c { u with stage := 0, busy := false, lease := none }

/-- R305: the next port of the entry that is to be recomputed, from a stage on. -/
def nextPort (e : Entry) (stage : Nat) : Option Nat :=
  (List.range 3).find? (fun n => decide (stage ≤ n) && e.cls == 4 && hasBit e.rc n)

/-- The RC bits of a producer that would make the recomputation two levels deep: an entry that
produces for itself counts only its inputs. -/
def deepRc (k : Core) (e p : Entry) : Bool :=
  if e.addr = p.addr then (List.range 3).any (fun n => hasBit p.rc n && !hasBit (k.prickAt p.opc).outp n)
  else p.rc != 0

/-- The forward objects of an entry, as the map numbers them (R306). -/
def fwdObjs (k : Core) (e : Entry) (i : Instr) : List Nat :=
  let (rs, ts) := vNames i
  let (_, _, _, o) := mmaDims i
  let ops := match i with
    | .mma _ _ _ | .mmah _ _ _ _ _ _ => [o.ad.toNat, 40 + o.sla.toNat, 40 + o.slb.toNat]
    | .mzero _ ad => [ad.toNat]
    | _ => []
  rs.filterMap (fun n => (viewRowAt k e.vrot n.toNat).map (·.tile)) ++ ts ++ ops ++
    (entryRings k e i).filterMap (fun h => h.map (8 + ·))

/-- The tiles that an entry's adjoint touches: those of its forward operands, and their gradients. -/
def entryTiles (k : Core) (m : List W64) (e : Entry) (i : Instr) : List Nat :=
  let fs := fwdObjs k e i
  fs.filter (· < 8) ++ (fs.filterMap (gradOf m)).filterMap (fun x => if x.1 = 0 ∧ x.2 < 8 then some x.2 else none)

/-- A recomputation is started. -/
def startRecompute (s : State) (c : Nat) (u : Upk) (e : Entry) (n : Nat) : State :=
  let k := s.core c
  let t := upkFrame k u.w0 e.addr
  let pa := va57 (gf (k.cfgAt rLOGB) 6 51 * 64 + 64 * e.prod.getD n 0)
  match spanRead s c pa 128 t with
  | .stop st => upkStop s c e.addr st
  | .wait _ => spanAsk s c pa 128 t
  | .bytes hb =>
    let len := if (parseEntry pa hb).len < 2 then 128 else 64 * (parseEntry pa hb).len
    match spanRead s c pa len t with
    | .stop st => upkStop s c e.addr st
    | .wait _ => spanAsk s c pa len t
    | .bytes bs =>
      let p := parseEntry pa bs
      let ts := ((entryInstr k p).map (entryTiles k u.map p)).getD []
      if deepRc k e p then upkTrap s c t
      else if ts.any (tileAway k) then bringTiles s c ts
      else
        match reissue (spanDone s c pa len) c p with
        | .error cause => upkTrap s c { t with cause := cause }
        | .ok s1 => setUpk s1 c { u with stage := n, busy := true }

/-- An object of the map becomes undefined: a tile's configured area, or a ring. -/
def openObj (s : State) (c obj : Nat) : State :=
  let k := s.core c
  if obj < 8 then
    let n := shapeRows (k.shape obj) * shapeRowB (k.shape obj)
    let (bs, s1) := freeBytes s n
    let (gs, s2) := freeBytes s1 (n / 4)
    s2.modCore c (fun k => { k with tiles := mpaste k.tiles (tileKey obj 0) n (sliceOf bs), guard := mpaste k.guard (guardKey obj 0) (n / 4) (sliceOf gs) })
  else
    let w := k.cb (obj - 8)
    openTs s c (slotAddr w 0) (cbRing w * cbSlotBytes w)

/-- R307: the gradient objects of an entry that are also its forward operands. -/
def bothRoles (k : Core) (m : List W64) (e : Entry) (i : Instr) : List Nat :=
  let fs := fwdObjs k e i
  ((fs.filterMap (gradOf m)).map (fun x => if x.1 = 0 then x.2 else 8 + x.2)).filter fs.contains

def openBoth (s : State) (c : Nat) (objs : List Nat) : State := objs.foldl (fun s o => openObj s c o) s

/-- The adjoint of an entry whose ports stand ready. An M entry holds the array, whatever its adjoint (R311). A
trap inside the adjoint comes before it changes a gradient, and names the entry (R318). -/
def runEntry (s : State) (c : Nat) (u : Upk) (e : Entry) (i : Instr) : State :=
  let k := s.core c
  let p := k.prickAt e.opc
  let t := upkFrame k u.w0 e.addr
  if gf p.adj 62 2 = 3 || unresolved319 k e i then upkTrap s c t
  else if e.cls = 1 && leaseOf s c != .holding then
    let s1 := requestLease s c
    if u.lease.isSome then s1 else setUpk s1 c { u with lease := some (leaseCode (leaseOf s c)) }
  else
  match gf p.adj 62 2 with
  | 2 => nextUpk (consume s c e) c u
  | 1 =>
    let ad := gf p.adj 0 57
    match spanRead s c ad 32 t with
    | .stop st => upkStop s c e.addr st
    | .wait _ => spanAsk s c ad 32 t
    | .bytes bs =>
      match startAdjoint (spanDone s c ad 32) c u.map e i (prickParse (word8 bs 0) (word8 bs 1) (word8 bs 2)) with
      | .error _ => upkTrap s c t
      | .ok s1 => setUpk s1 c { u with stage := 3, busy := true,
                                       lease := if e.cls = 1 then some (u.lease.getD 2) else u.lease }
  | _ =>
    if p.kind != 1 then upkTrap s c t
    else
      match planOf s c u.map e i with
      | .error _ => upkTrap s c t
      | .ok pl =>
        if planPoison s c pl then upkTrap s c { t with cause := .memerr }
        else nextUpk (consume (openBoth (applyPlan s c pl) c (bothRoles k u.map e i)) c e) c u

/-- One step of UNPICK at the entry LAST. -/
def entryStep (s : State) (c : Nat) (u : Upk) : State :=
  let k := s.core c
  let last := gf (k.cfgAt rLOGSTAT) 6 51 * 64
  let t := upkFrame k u.w0 last
  let u := { u with entry := last }
  match spanRead s c last 128 t with
  | .stop st => upkStop s c last st
  | .wait _ => spanAsk s c last 128 t
  | .bytes hb =>
    let n := (parseEntry last hb).len
    let len := if n < 2 then 128 else 64 * n
    match spanRead s c last len t with
    | .stop st => upkStop s c last st
    | .wait _ => spanAsk s c last len t
    | .bytes bs =>
      let e := parseEntry last bs
      if u.busy && u.stage = 3 then
        let both := ((entryInstr k e).map (bothRoles k u.map e)).getD []
        nextUpk (consume (openBoth (spanDone s c last len) c both) c e) c u
      else
        match entryInstr k e with
        | none => upkTrap s c t
        | some i =>
          if (entryTiles k u.map e i).any (tileAway k) then bringTiles s c (entryTiles k u.map e i)
          else match nextPort e (if u.busy then u.stage + 1 else u.stage) with
          | some q =>
            if u.busy || u.entry != ((k.upk.map (·.entry)).getD 0) then
              setUpk s c { u with stage := q, busy := false }
            else startRecompute s c u e q
          | none => runEntry (spanDone (setUpk s c { u with stage := 3, busy := false }) c last len) c
              { u with stage := 3, busy := false } e i

/-! ## The instruction (R317, R318) -/

/-- Everything earlier has completed. -/
def upkQuiet (k : Core) : Bool := enginesQuiet k && k.buf.isEmpty

/-- Entries remain that lie at or above the stop address. -/
def upkMore (k : Core) (stop : Nat) : Bool :=
  let w := k.cfgAt rLOGSTAT
  w.getLsbD 62 && decide (stop ≤ gf w 6 51 * 64)

/-- Between two entries, or before the first. -/
def upkBetween (k : Core) : Bool :=
  match k.upk with
  | none => true
  | some u => !u.busy && (u.stage == 0 || u.stage == 3)

/-- An UNPICK before its first entry. -/
def Upk.first (w0 : W64) : Upk :=
  { entry := 0, stage := 0, busy := false, lease := none, map := [], w0 := w0, reread := false }

/-- The map is read, at issue and at each resume (R306). -/
def upkStart (s : State) (c : Nat) (u : Upk) : State :=
  let k := s.core c
  let g := k.cfgAt rGMAP
  let n := gf g 57 7
  let ad := gf g 3 54 * 8
  let t := { upkFrame k u.w0 0 with acc := 0 }
  if 104 < n then upkTrap s c t
  else
    match spanRead s c ad (8 * n) t with
    | .stop st => takeStop s c st
    | .wait _ => spanAsk s c ad (8 * n) t
    | .bytes bs =>
      let m := (List.range n).map (word8 bs)
      if gmapBad m then upkTrap s c t
      else setUpk (spanDone s c ad (8 * n)) c { u with map := m, reread := false }

/-- A step of an UNPICK that has not ended. At a boundary a halt stops the sequencer, and a
pre-emption finds its selvedge point. -/
def upkStep (e : Env) (i : Instr) (s : State) : State :=
  let c := e.c
  let k := s.core c
  let st := (s.motifOn c).map (·.st)
  if upkBetween k && st == some .halting then
    (upkLeave s c).modCore c (fun k => { k with seqStopped := true })
  else if upkBetween k && st == some .preempting && upkQuiet k then
    (upkLeave s c).modCore c (fun k => { k with selvedge := true })
  else if st == some .halting && (List.range 4).any (fun g => (k.gangAt g).stopped) then
    s.modCore c (fun k => { k with seqStopped := true })
  else if !upkQuiet k then s
  else
    match k.upk with
    | none => upkStart s c (Upk.first (encWords i).1)
    | some u => if u.reread then upkStart s c u else entryStep s c u

def semUnpick (g : Guard) (a d : SReg) : SlotSem :=
  let i := Instr.unpick g a d
  let bad := fun (e : Env) => recNow e || inBody e
  { cls := 0, guard := g, i := i,
    ready := fun e s =>
      let k := s.core e.c
      bad e || (upkQuiet k && k.upk.isSome && upkBetween k && !upkMore k (gf (rdScal e a) 0 57)),
    poll := fun e s _ => upkStep e i s,
    check := fun e _ => e.checks i 0 [(recNow e, .logctl), (inBody e, .loopctl)],
    eff := fun e s =>
      let s1 := (upkLeave s e.c).modCore e.c (fun k => countIssue k .seq 0)
      wrScal e s1 d (w64 (logpAddr ((s.core e.c).cfgAt rLOGP))) }

def execUnpick (g : Guard) (a d : SReg) (s : State) : Out := issueOne (semUnpick g a d) s

end Sys2Proof.Machine
end

