-- ==== Sys2Proof/Machine/Issue.lean ====
section
/-! DEFINITION. The decoded slots of a bundle and its issue as a whole (R62 to R66, R71). -/
namespace Sys2Proof.Machine

/-- What a slot instruction does: C slots, then the hard V, M and K slots, then S slots. -/
def semOf : Instr → Option SlotSem
  | .nop g => some (semNop g)
  | .sop g fn d a b => some (semSop g fn d a b)
  | .sopi g fn d a imm => some (semSopi g fn d a imm)
  | .smovi g d imm => some (semSmovi g d imm)
  | .scmp g cc imm qd a b => some (semScmp g cc imm qd a b)
  | .sld g sz ts sx off a d => some (semSld g sz ts sx off a d)
  | .sst g sz ts off a b => some (semSst g sz ts off a b)
  | .br g off => some (semBr g off)
  | .brInd g a => some (semBrInd g a)
  | .call g off => some (semCall g off)
  | .callInd g a => some (semCallInd g a)
  | .ret g a => some (semRet g a)
  | .advr g nm1 h => some (semAdvr g nm1 h)
  | .advw g nm1 h => some (semAdvw g nm1 h)
  | .cfgr g reg d => some (semCfgr g reg d)
  | .cfgw g reg a => some (semCfgw g reg a)
  | .tshapeWrite g n a => some (semTshapeWrite g n a)
  | .cbdescWrite g k a => some (semCbdescWrite g k a)
  | .srstateWrite g a => some (semSrstateWrite g a)
  | .mfmtWrite g a => some (semMfmtWrite g a)
  | .moncfgWrite g m j a => some (semMoncfgWrite g m j a)
  | .logpWrite g a => some (semLogpWrite g a)
  | .haccWrite g a => some (semHaccWrite g a)
  | .waits g cc scope b a qd => some (semWaits g cc scope b a qd)
  | .fence g scope istr eng kind => some (semFence g scope istr eng kind)
  | .fork g mask parent => some (semFork g mask parent)
  | .join g mask target => some (semJoin g mask target)
  | .hpass g oh a d => some (semHpass g oh a d)
  | .bar g scope id => some (semBar g scope id)
  | .launch g dep b a d => some (semLaunch g dep b a d)
  | .bind g topc a d => some (semBind g topc a d)
  | .recon g => some (semRecon g)
  | .recoff g => some (semRecoff g)
  | .monsetArm g m => some (semMonsetArm g m)
  | .monsetDisarm g m => some (semMonsetDisarm g m)
  | .monsetCheck g m => some (semMonsetCheck g m)
  | .unpick g a d => some (semUnpick g a d)
  | .loop g bodym1 stm1 lvm1 rall rot => some (semLoop g bodym1 stm1 lvm1 rall rot)
  | .iterIdx g lv d => some (semIterIdx g lv d)
  | .iterPass g d => some (semIterPass g d)
  | .iterExit g => some (semIterExit g)
  | .sys g => some (semSys g)
  | .sysServiceCall g imm => some (semSysServiceCall g imm)
  | .tret g => some (semTret g)
  | .brk g imm => some (semBrk g imm)
  | .vop2 g fn bs sat rm fmt vb va vd => some (semVop2 g fn bs sat rm fmt vb va vd)
  | .vfma g fn bs sat rm fmt vc vb va vd => some (semVfma g fn bs sat rm fmt vc vb va vd)
  | .vop1 g fn sat rm fmt va vd => some (semVop1 g fn sat rm fmt va vd)
  | .vcmp g qd qw cc bs fmt vb va vd => some (semVcmp g qd qw cc bs fmt vb va vd)
  | .vsel g bs fmt vc vb va vd => some (semVsel g bs fmt vc vb va vd)
  | .vred g fn fmt va sd => some (semVred g fn fmt va sd)
  | .vrows g sz cntm1 doff soff va vd => some (semVrows g sz cntm1 doff soff va vd)
  | .vcols g put sz col tile va vd => some (semVcols g put sz col tile va vd)
  | .vcvt g tgt part sat rm frm va vd => some (semVcvt g tgt part sat rm frm va vd)
  | .vcvto g desc rm tgt sat part sd va vd => some (semVcvto g desc rm tgt sat part sd va vd)
  | .vsca g pint rm vc vb va vd => some (semVsca g pint rm vc vb va vd)
  | .vsfu g fn va vd => some (semVsfu g fn va vd)
  | .vint g fn bs fmt vb va vd => some (semVint g fn bs fmt vb va vd)
  | .vmovi g imm fmt vd => some (semVmovi g imm fmt vd)
  | .vldt g desc rowix win peer am oh sa vd => some (semVldt g desc rowix win peer am oh sa vd)
  | .vstt g desc rowix win peer am oh sa vs => some (semVstt g desc rowix win peer am oh sa vs)
  | .mlease g => some (semMlease g)
  | .munlease g => some (semMunlease g)
  | .mclaim g cntm1 first => some (semMclaim g cntm1 first)
  | .mrels g cntm1 first => some (semMrels g cntm1 first)
  | .mma g km1 o => some (semMma g km1 o)
  | .mmah g sh gselA gselB km1 o => some (semMmah g sh gselA gselB km1 o)
  | .mdrain g => some (semMdrain g)
  | .mzero g ad => some (semMzero g ad)
  | .kcopy g x => some (semKcopy g x)
  | .kfill g x => some (semKfill g x)
  | .kgang g x => some (semKgang g x)
  | .kmcast g x => some (semKmcast g x)
  | .kcgrad g x tgt rm nbm1 => some (semKcgrad g x tgt rm nbm1)
  | .keyeInit g oh mc sa se => some (semKeyeInit g oh mc sa se)
  | .keyeAdd g oh mc sa se => some (semKeyeAdd g oh mc sa se)
  | .keyeWait g oh sa se => some (semKeyeWait g oh sa se)
  | .kpull g x peer => some (semKpull g x peer)
  | .xpose g o => some (semXpose g o)
  | .gather g o => some (semGather g o)
  | .scatter g o => some (semScatter g o)
  | .softmax g o => some (semSoftmax g o)
  | .lnorm g o => some (semLnorm g o)
  | .topk g o => some (semTopk g o)
  | .sort g o => some (semSort g o)
  | .segsum g o => some (semSegsum g o)
  | .stitchDispatch g opc o hi => some (semDispatch g opc o hi)
  | _ => none

/-! ## Decode under the pricking table (R62, R63, R142) -/

/-- The words that a bundle holds, with their classes, in the order C, M, V, K, S. -/
def rawSlots (b : RawBundle) : List (SlotClass × W64 × W32) :=
  (b.c.toList.map (fun w => (SlotClass.c, w.setWidth 64, (0 : W32)))) ++
  (b.m.toList.map (fun w => (SlotClass.m, w, (0 : W32)))) ++
  (b.v.toList.map (fun w => (SlotClass.v, w, (0 : W32)))) ++
  (b.k.toList.map (fun w => (SlotClass.k, fld w 0 64, fld w 64 32))) ++
  (b.s.toList.map (fun w => (SlotClass.s, w, (0 : W32))))

/-- The code word of a slot of a class. -/
def slotWord (cls : SlotClass) (w0 : W64) (w1 : W32) : CodeWord :=
  match cls with
  | .c => .c (w0.setWidth 32)
  | .m => .m w0
  | .v => .v w0
  | .k => .k (w1 ++ w0 : BitVec 96)
  | .s => .s w0

def okInstr : Dec Instr → Option Instr
  | .ok i => some i
  | .error _ => none

/-- A slot as decode reads it: fully while its opcode is a C opcode or bound to its engine, else by
the common fields and the descriptors alone. -/
def slotOf (k : Core) (cls : SlotClass) (w0 : W64) (w1 : W32) : Option SlotSem :=
  let opc := opcOf w0
  if cls = .c || (cls != .s && (k.prickAt opc).kind == 1) then
    (okInstr (decode (slotWord cls w0 w1))).bind semOf
  else if opcClass opc != cls || !guardOk (guardOf w0) then none
  else if cls = .s then (okInstr (parseS w0)).bind semOf
  else semOf (parseStitch w0 w1)

def isUnpick (x : SlotSem) : Bool :=
  match x.i with
  | .unpick _ _ _ => true
  | _ => false

/-- R63, R317: the slots of a bundle, or the first that is illegal. -/
def decodeSlots (k : Core) (b : RawBundle) : Except (SlotClass × W64 × W32) (List SlotSem) :=
  let raw := rawSlots b
  let ds := raw.map (fun r => (r, slotOf k r.1 r.2.1 r.2.2))
  match ds.find? (fun d =>
      match d.2 with
      | none => true
      | some x => !x.legal k || (isUnpick x && decide (1 < raw.length))) with
  | some d => .error d.1
  | none => .ok (ds.filterMap (·.2))

/-- The bundle at BPC of a core: fetched, decoded and issued as a whole. -/
def bundleAt (c : Nat) (s : State) : State :=
  let k := s.core c
  let t := fetchTrap k.bpc
  if !seqLive s c then s
  else if seqHeld k then
    (match fetchBundle s c k.bpc t with
     | .bundle b len => issueBundle c b.hdr.selv len [] s
     | _ => s)
  else if !seqCanIssue s c then s
  else
    match fetchBundle s c k.bpc t with
    | .wait len => askFetch s c k.bpc len
    | .stop st => takeStop s c st
    | .badHeader w => raiseTrap s c { t with w0 := w64 w, acc := 0 }
    | .bundle b len =>
      let s1 := cacheFetch s c k.bpc len
      match decodeSlots k b with
      | .error (cls, w0, w1) =>
        raiseTrap s1 c { cause := .illegal, slot := slotCode cls, baddr := k.bpc, w0 := w0, w1 := w1 }
      | .ok slots => issueBundle c b.hdr.selv len slots s1

/-- BUNDLE_ISSUE: the sequencer in focus moves. -/
def execBundleIssue (s : State) : Out := .next (bundleAt s.focus.core s)

end Sys2Proof.Machine
end

