-- ==== Sys2Proof/Machine/Lane.lean ====
section
/-! DEFINITION. Lanes: the batch that a gang issues (R137 to R139, R150 to R160), integer and float
computation, conversion, control transfer (R164 to R183), and the collectives (R196 to R199). -/
namespace Sys2Proof.Machine

/-! ## Fields of lane instructions -/

/-- PSEL and PNEG of a lane instruction (R150). -/
def lanePred : Instr → Pred
  | .lnop p | .movi p _ _ | .movhi p _ _ _ | .mov p _ _ | .movd p _ _ | .sel p _ _ _ _ _ | .lid p _ _
  | .iop p _ _ _ _ | .iopi p _ _ _ _ | .idiv p _ _ _ _ | .imad p _ _ _ _ _ | .isat p _ _ _ _
  | .ibit p _ _ _ | .bfx p _ _ _ _ _ | .bfi p _ _ _ _ _ | .icmp p _ _ _ _ | .icmpi p _ _ _ _
  | .plop p _ _ _ _ _ | .pmov p _ _ _ | .iop64 p _ _ _ _ | .icmp64 p _ _ _ _ | .fop p _ _ _ _ _
  | .ffma p _ _ _ _ _ _ | .funop p _ _ _ _ | .fcmp p _ _ _ _ | .hop p _ _ _ _ _ _
  | .hfma p _ _ _ _ _ _ _ | .dop p _ _ _ _ _ | .dfma p _ _ _ _ _ _ | .dun p _ _ _ _ | .dcmp p _ _ _ _
  | .cvt p _ _ _ _ _ _ _ | .sfu p _ _ _ | .bra p _ | .brx p _ | .laneCall p _ _ | .callx p _ _
  | .laneRet p _ | .ld p _ _ _ _ _ _ | .st p _ _ _ _ _ | .ldts p _ _ _ _ _ _ | .stts p _ _ _ _ _
  | .ldtp p _ _ _ _ _ _ _ | .sttp p _ _ _ _ _ _ | .ldpeer p _ _ _ _ _ _ _ | .stpeer p _ _ _ _ _ _ _
  | .lfence p _ _ _ | .lfork p _ _ | .ljoin p _ _ | .lwait p _ _ _ _ _ _ | .atom p _ _ _ _ _ _ _ _
  | .atomts p _ _ _ _ _ _ _ _ _ _ | .cas p _ _ _ _ _ _ _ | .casts p _ _ _ _ _ _ _ _ _ | .vote p _ _ _ _
  | .shfl p _ _ _ _ _ _ | .scan p _ _ _ _ _ | .lred p _ _ _ _ | .spawn p _ _ _ | .quit p
  | .tissue p _ _ _ => p
  | _ => ⟨false, 0⟩

/-- One register, or a pair. -/
abbrev RegUse := GReg × Bool

def r1 (r : GReg) : RegUse := (r, false)
def r2 (r : GReg) : RegUse := (r, true)
def rIf (b : Bool) (r : GReg) : RegUse := (r, b)
/-- A register that holds an element of a format: a pair for FP64. -/
def rF (f : Fmt) (r : GReg) : RegUse := (r, f == .fp64)

/-- The registers that a lane instruction reads or writes (R152, R157). -/
def laneRegs : Instr → List RegUse
  | .movi _ d _ | .lid _ _ d => [r1 d]
  | .movhi _ d a _ | .mov _ d a => [r1 d, r1 a]
  | .movd _ d a => [r2 d, r2 a]
  | .sel _ w _ d a b => [rIf w d, rIf w a, rIf w b]
  | .iop _ _ d a b | .idiv _ _ d a b | .isat _ _ d a b => [r1 d, r1 a, r1 b]
  | .iopi _ _ d a _ | .ibit _ _ d a | .bfx _ _ d a _ _ => [r1 d, r1 a]
  | .imad _ fn d a b c => [rIf (fn != .mad) d, r1 a, r1 b, rIf (fn != .mad) c]
  | .bfi _ d a b _ _ => [r1 d, r1 a, r1 b]
  | .icmp _ _ _ a b | .fcmp _ _ _ a b => [r1 a, r1 b]
  | .icmpi _ _ _ a _ => [r1 a]
  | .pmov _ fn d a => if fn = .p2g then [r1 d] else [r1 a]
  | .iop64 _ _ d a b | .dop _ _ _ d a b => [r2 d, r2 a, r2 b]
  | .icmp64 _ _ _ a b | .dcmp _ _ _ a b => [r2 a, r2 b]
  | .fop _ _ _ d a b | .hop _ _ _ _ d a b => [r1 d, r1 a, r1 b]
  | .ffma _ _ _ d a b c | .hfma _ _ _ _ d a b c => [r1 d, r1 a, r1 b, r1 c]
  | .funop _ _ _ d a | .sfu _ _ d a => [r1 d, r1 a]
  | .dfma _ _ _ d a b c => [r2 d, r2 a, r2 b, r2 c]
  | .dun _ _ _ d a => [r2 d, r2 a]
  | .cvt _ _ _ _ tgt frm d a => [rF tgt d, rF frm a]
  | .brx _ a | .laneRet _ a => [r2 a]
  | .laneCall _ d _ => [r2 d]
  | .callx _ d a => [r2 d, r2 a]
  | .ld _ sz _ _ d a _ => [rIf (sz == .b64) d, r2 a]
  | .st _ sz _ a b _ => [r2 a, rIf (sz == .b64) b]
  | .ldts _ sz _ _ d a _ | .ldtp _ _ sz _ _ d a _ | .ldpeer _ _ sz _ _ d a _ => [rIf (sz == .b64) d, r1 a]
  | .stts _ sz _ a b _ | .sttp _ _ sz _ a b _ | .stpeer _ _ _ sz _ a b _ => [r1 a, rIf (sz == .b64) b]
  | .lwait _ _ _ _ a b _ => [r2 a, r2 b]
  | .atom _ _ nr w _ d a b _ => (if nr then [] else [rIf w d]) ++ [r2 a, rIf w b]
  | .atomts _ _ nr w _ d a b _ _ _ => (if nr then [] else [rIf w d]) ++ [r1 a, rIf w b]
  | .cas _ w _ d a b c _ => [rIf w d, r2 a, rIf w b, rIf w c]
  | .casts _ w _ d a b c _ _ _ => [rIf w d, r1 a, rIf w b, rIf w c]
  | .vote _ fn d _ b => (if fn = .ballot || fn = .count then [r1 d] else []) ++ [r1 b]
  | .shfl _ fn d a b c _ => [r1 d, r1 a, r1 c] ++ (if fn = .idx then [r1 b] else [])
  | .scan _ _ _ d a b | .lred _ _ d a b => [r1 d, r1 a, r1 b]
  | .spawn _ d a _ => [r1 d, r1 a]
  | .tissue _ k96 a b => r2 a :: (if k96 then [r1 b] else [])
  | _ => []

/-- The highest register of a use. -/
def RegUse.top (u : RegUse) : Nat := u.1.toNat + bitOf u.2
def RegUse.nums (u : RegUse) : List Nat := if u.2 then [u.1.toNat, u.1.toNat + 1] else [u.1.toNat]

/-! ## Batches -/

/-- A batch at issue: its gang, program counter, lanes and active lanes, ascending. -/
structure Batch where
  c : Nat
  g : Nat
  pc : Nat
  lanes : List Nat
  act : List Nat

/-- The lanes that a gang slot can hold fibres in (R137). -/
def allLanes : List Nat := List.range 32

def liveLanes (x : Gang) : List Nat := allLanes.filter (fun l => (x.fibre l).st != .ended)

def readyLanes (x : Gang) : List Nat := allLanes.filter (fun l => (x.fibre l).st == .ready)

/-- Of two waiting places, stamp and program counter, the one that issues first (R139). -/
def waitsLonger (a b : Nat × Nat) : Bool := decide (a.1 < b.1 ∨ (a.1 = b.1 ∧ a.2 < b.2))

/-- R139: the program counter of the READY fibre that has waited longest; ties go to the lower. -/
def pickPc (x : Gang) : Option Nat :=
  match (readyLanes x).map (fun l => ((x.fibre l).stamp, (x.fibre l).pc)) with
  | [] => none
  | r :: rs => some (rs.foldl (fun b e => if waitsLonger e b then e else b) r).2

/-- R138: the READY fibres at one program counter. -/
def batchLanes (x : Gang) (pc : Nat) : List Nat :=
  allLanes.filter (fun l => (x.fibre l).st == .ready && (x.fibre l).pc == pc)

/-- R146: a command bound in place, or one nested under such a command, goes on to its end at a
selvedge point. -/
def inPlace (k : Core) (g : Nat) : Bool :=
  [g, rootGang k g].any (fun h => ((k.gangAt h).cmd.map (·.entry.inpl)).getD false)

/-- R318: an entry's adjoint goes on to its end, past the skid of a halt that no gang of its own has caused. -/
def adjointRuns (k : Core) : Bool := (k.upk.map (·.busy)).getD false && !k.gang.any (fun e => e.2.stopped)

/-- Whether a gang may issue: R332's skid, R345, the freezes of R246 and R352. -/
def gangCanIssue (s : State) (c g : Nat) : Bool :=
  let k := s.core c
  let x := k.gangAt g
  !k.frozen && powered k && x.st == .running && !x.stopped && (!k.selvedge || inPlace k g) &&
  (match s.motifOn c with
   | none => false
   | some m =>
     match m.st with
     | .running | .preempting => true
     | .halting => decide (x.skid < 24) || adjointRuns k
     | _ => false)

/-- What a batch's instruction comes to. -/
inductive LaneRes where
  | go (s : State)
  | stall (s : State)
  | stop (lane : Nat) (st : Stop)

/-- The trap frame of a lane instruction (R330). -/
def laneTrap (k : Core) (g lane pc : Nat) (w0 : W64) : Trap :=
  let x := k.gangAt g
  { cause := .illegal, slot := 5, baddr := (x.cmd.map (·.baddr)).getD 0, fpc := pc, depth := x.depth,
    gang := g, lane := lane, w0 := w0 }

def Batch.trap (b : Batch) (s : State) (i : Instr) (lane : Nat) (c : Cause) : LaneRes :=
  .stop lane (.trap { laneTrap (s.core b.c) b.g lane b.pc (encWords i).1 with cause := c })

def modGang (s : State) (c g : Nat) (f : Gang → Gang) : State :=
  s.modCore c (fun k => k.setGang g (f (k.gangAt g)))

def Batch.gang (b : Batch) (s : State) : Gang := (s.core b.c).gangAt b.g

def modFibre (x : Gang) (l : Nat) (f : Fibre → Fibre) : Gang := x.setFibre l (f (x.fibre l))
def modFibres (x : Gang) (ls : List Nat) (f : Fibre → Fibre) : Gang := ls.foldl (fun x l => modFibre x l f) x

/-- R151: the fibres of the batch move on to the next instruction. -/
def Batch.advance (b : Batch) (x : Gang) : Gang :=
  modFibres x b.lanes (fun f => { f with pc := va57 (b.pc + 8) })

/-! ## Roles, barriers and the end of a gang (R147, R201, R202) -/

/-- R290: what the agents of a gang have still to land when its fibres restart: a fibre that goes on follows its
own accesses, one that takes an ended fibre's slot is another agent. -/
def roleAgents (c g f : Nat) (x : Gang) (k : Core) : Core :=
  (List.range f).foldl (fun k l =>
    if (x.fibre l).st = .ended then freeLane k c g l
    else fenceOver (k.dropAhead (.fibre g l)) (.fibre g l) (.fibre g l)) k

/-- A release of the fibres of some lanes (R253, R254). -/
def releaseLanes (s : State) (c g : Nat) (ls : List Nat) : State :=
  released s c (fun a => ls.any (fun l => a == .fibre g l))

/-- An acquire of the fibres of some lanes. -/
def Core.acquireLanes (g : Nat) (ls : List Nat) (k : Core) : Core := ls.foldl (fun k l => k.dropAhead (.fibre g l)) k

/-- R147: the gang takes a new role. -/
def takeRole (s : State) (c g : Nat) (p : Prick) : State :=
  let (seed, s0) := freshSeed s
  let s1 := releaseLanes s0 c g (liveLanes ((s0.core c).gangAt g))
  let k := s1.core c
  let x := k.gangAt g
  let f := if p.fibm1 + 1 < k.fcap then p.fibm1 + 1 else k.fcap
  let bound := p.regm1 + 1
  let a := allotment k.gangs
  let fib := fun (l : Nat) =>
    let old := x.fibre l
    let seeds := if old.st = .ended then [(0, seed)] else (if x.bound < bound then [(x.bound, seed)] else []) ++ old.seeds
    (l, { pc := p.entry, k := 0x7F, st := .ready, arrived := .no, stamp := x.cycle, seeds := seeds : Fibre })
  let regs := x.regs.filter (fun e => decide (e.1 % 256 < bound) && decide (e.1 / 256 < f) &&
    (x.fibre (e.1 / 256)).st != .ended)
  s1.setCore c ((roleAgents c g f x k).setGang g { x with
    fibres := (List.range f).map fib, regs := regs, bound := bound,
    res := if bound < a then bound else a, gpri := p.gpri,
    pend := x.pend.filter (fun q => decide (q % 256 < bound) && decide (q / 256 < f)) })

/-- R202: where a waiting fibre has arrived. -/
def arrivedAt (f : Fibre) : Arrival := if f.st = .waiting then f.arrived else .no

def roleOf (f : Fibre) : Option Nat :=
  match arrivedAt f with
  | .role t => some t
  | _ => none

/-- What follows once every live fibre has arrived: a role, which waits while a copy into the gang's registers is
pending (R270), a barrier's end, or SYNCMIX. A gang whose last fibre has quit drains. -/
def gangSettle (s : State) (c g : Nat) : State :=
  let k := s.core c
  let x := k.gangAt g
  let ls := liveLanes x
  if x.st != .running || x.stopped || (x.cmd.bind (·.lib)).isSome then s
  else if ls.isEmpty then modGang s c g (fun x => { x with st := .draining })
  else if !ls.all (fun l => arrivedAt (x.fibre l) != .no) then s
  else
    let roles := ls.filterMap (fun l => (roleOf (x.fibre l)).map (fun t => (l, t)))
    match roles with
    | [] =>
      if !ls.all (fun l => storesLanded k (.fibre g l)) then s
      else
        let tr := fun (l : Nat) => failureTrap k (.fibre g l) (laneTrap k g l (x.fibre l).pc (encWords .lbar).1)
        match ls.findSome? tr with
        | some t => raiseTrap s c t
        | none => (releaseLanes s c g ls).modCore c (fun k =>
            (k.acquireLanes g ls).setGang g (modFibres (k.gangAt g) ls (fun f => { f with arrived := .no, st := .ready, pc := va57 (f.pc + 8) })))
    | (l, t) :: _ =>
      let tr := laneTrap k g l (x.fibre l).pc (encWords (.role (BitVec.ofNat 7 t))).1
      if roles.length < ls.length then raiseTrap s c { tr with cause := .syncmix }
      else if (k.prickAt t).kind != 2 then raiseTrap s c { tr with cause := .unbound }
      else if !x.pend.isEmpty then s
      else takeRole s c g (k.prickAt t)

/-- A batch has issued: the waits of its fibres begin again, a lane cycle and the skid are counted; a step over
an LBRK in it is over (R335). -/
def countBatch (s : State) (b : Batch) : State :=
  let halted := (s.core b.c).halt.isSome
  let s1 := modGang s b.c b.g (fun x =>
    let y := modFibres x (b.lanes.filter (fun l => (x.fibre l).st != .ended)) (fun f => { f with stamp := x.cycle })
    { y with cycle := x.cycle + 1, skid := if halted && decide (x.skid < 24) then x.skid + 1 else x.skid,
             stepOver := x.stepOver.filter (fun l => !b.lanes.contains l) })
  gangSettle s1 b.c b.g

/-- The fibres of the batch wait for what the instruction needs (R157, R203). -/
def stallBatch (s : State) (b : Batch) : State :=
  modGang s b.c b.g (fun x => modFibres x b.lanes (fun f => { f with st := .stalled }))

/-- ISSUE OF A LANE INSTRUCTION for the batch of the gang in focus, the one operation for all of them:
the register bound (R152), pending registers (R157), then its effect in all active lanes or, where it
traps, in none (R160). -/
def issueLane (i : Instr) (f : Batch → State → LaneRes) (s : State) : State :=
  match s.focus with
  | .seq _ => s
  | .gang c g =>
    let x := (s.core c).gangAt g
    if !gangCanIssue s c g then s
    else
      match pickPc x with
      | none => s
      | some pc =>
        let p := lanePred i
        let ls := batchLanes x pc
        let act := ls.filter (fun l => (x.fibre l).k.getLsbD p.sel.toNat != p.neg)
        let b : Batch := { c := c, g := g, pc := pc, lanes := ls, act := act }
        if (laneRegs i).any (fun u => decide (x.bound ≤ u.top)) then
          raiseTrap s c { laneTrap (s.core c) g (ls.headD 0) pc (encWords i).1 with cause := .regbound }
        else if act.any (fun l => (laneRegs i).any (fun u => u.nums.any (fun r => x.pend.contains (regKey l r)))) then
          stallBatch s b
        else
          match f b s with
          | .go s1 => countBatch s1 b
          | .stall s1 => stallBatch s1 b
          | .stop _ st => takeStop s c st

/-! ## Plain computation -/

/-- An instruction that changes each active lane on its own. -/
def laneEach (i : Instr) (f : Core → Gang → Nat → Gang) (s : State) : Out :=
  .next (issueLane i (fun b s =>
    let k := s.core b.c
    .go (modGang s b.c b.g (fun x => b.advance (b.act.foldl (fun x l => f k x l) x)))) s)

def setK (x : Gang) (l : Nat) (n : Nat) (v : Bool) : Gang :=
  modFibre x l (fun f =>
    let m : BitVec 8 := BitVec.ofNat 8 (2 ^ n)
    { f with k := (if v then f.k ||| m else f.k &&& ~~~ m) ||| 1 })

def kAt (x : Gang) (l : Nat) (n : PReg) : Bool := n == 0 || (x.fibre l).k.getLsbD n.toNat

def setR (x : Gang) (l : Nat) (d : GReg) (v : W32) : Gang := x.setReg l d.toNat v
def rg (x : Gang) (l : Nat) (a : GReg) : W32 := x.reg l a.toNat
def rp (x : Gang) (l : Nat) (a : GReg) : W64 := x.pair l a.toNat
def setP (x : Gang) (l : Nat) (d : GReg) (v : W64) : Gang := x.setPair l d.toNat v

def sx32 (imm : BitVec 16) : W32 := imm.signExtend 32

/-- R165, R171 on words of any width. -/
def shAmt {n : Nat} (b : BitVec n) (bits : Nat) : Nat := b.toNat % 2 ^ bits

def smin {n : Nat} (a b : BitVec n) : BitVec n := if b.slt a then b else a
def smax {n : Nat} (a b : BitVec n) : BitVec n := if a.slt b then b else a
def umin {n : Nat} (a b : BitVec n) : BitVec n := if b < a then b else a
def umax {n : Nat} (a b : BitVec n) : BitVec n := if a < b then b else a

def iopRes (fn : IopFn) (a b : W32) : W32 :=
  match fn with
  | .add => a + b
  | .sub => a - b
  | .mul => a * b
  | .mulhs => ((a.signExtend 64 * b.signExtend 64 : W64) >>> 32).setWidth 32
  | .mulhu => ((a.setWidth 64 * b.setWidth 64 : W64) >>> 32).setWidth 32
  | .and => a &&& b
  | .or => a ||| b
  | .xor => a ^^^ b
  | .andn => a &&& ~~~ b
  | .shl => a <<< shAmt b 5
  | .shr => a >>> shAmt b 5
  | .sra => a.sshiftRight (shAmt b 5)
  | .min => smin a b
  | .max => smax a b
  | .minu => umin a b
  | .maxu => umax a b

def iop64Res (fn : Iop64Fn) (a b : W64) : W64 :=
  match fn with
  | .add => a + b
  | .sub => a - b
  | .mul => a * b
  | .and => a &&& b
  | .or => a ||| b
  | .xor => a ^^^ b
  | .shl => a <<< shAmt b 6
  | .shr => a >>> shAmt b 6
  | .sra => a.sshiftRight (shAmt b 6)
  | .min => smin a b
  | .max => smax a b
  | .minu => umin a b
  | .maxu => umax a b

/-- R166, for a divisor that is not zero. -/
def idivRes (fn : IdivFn) (a b : W32) : W32 :=
  match fn with
  | .divs => a.sdiv b
  | .divu => a / b
  | .rems => a.srem b
  | .remu => a % b

def imadRes (fn : ImadFn) (a b : W32) (c : W64) : W64 :=
  match fn with
  | .mad => (a * b + c.setWidth 32).setWidth 64
  | .madws => a.signExtend 64 * b.signExtend 64 + c
  | .madwu => a.setWidth 64 * b.setWidth 64 + c

/-- R168: the clamped value, and whether it clamped. -/
def isatRes (fn : IsatFn) (a b : W32) : W32 × Bool :=
  let sg := fn == .adds || fn == .subs
  let va : Int := if sg then a.toInt else a.toNat
  let vb : Int := if sg then b.toInt else b.toNat
  let v := if fn == .adds || fn == .addus then va + vb else va - vb
  let lo : Int := if sg then -(2 ^ 31) else 0
  let hi : Int := if sg then 2 ^ 31 - 1 else 2 ^ 32 - 1
  if v < lo then (BitVec.ofInt 32 lo, true)
  else if hi < v then (BitVec.ofInt 32 hi, true)
  else (BitVec.ofInt 32 v, false)

/-- The number of leading bits, from bit `n − 1` down, before the first that is set. -/
def clzGo (w : W32) : Nat → Nat
  | 0 => 0
  | n + 1 => if w.getLsbD n then 0 else clzGo w n + 1

def revBits (w : W32) : W32 :=
  w32 (maskOf ((List.range 32).filter (fun n => w.getLsbD (31 - n))))

def ibitRes (fn : IbitFn) (a : W32) : W32 :=
  match fn with
  | .popc => w32 ((List.range 32).filter (fun n => a.getLsbD n)).length
  | .clz => w32 (clzGo a 32)
  | .ctz => w32 (clzGo (revBits a) 32)
  | .brev => revBits a
  | .bswap => (a.extractLsb' 0 8 ++ a.extractLsb' 8 8 ++ a.extractLsb' 16 8 ++ a.extractLsb' 24 8 : BitVec 32)
  | .not => ~~~ a
  | .neg => -a
  | .abs => if a.slt 0 then -a else a

def bfxRes (sx : Bool) (a : W32) (len pos : Nat) : W32 :=
  let v := a.toNat / 2 ^ pos % 2 ^ len
  if sx then (BitVec.ofNat len v).signExtend 32 else w32 v

def bfiRes (a b : W32) (len pos : Nat) : W32 :=
  let m : W32 := w32 ((2 ^ len - 1) * 2 ^ pos)
  (a &&& ~~~ m) ||| (w32 (b.toNat * 2 ^ pos) &&& m)

/-- R172: the integer conditions. -/
def iccRes {n : Nat} (cc : ICc) (a b : BitVec n) : Bool :=
  match cc with
  | .eq => a == b
  | .ne => a != b
  | .lt => a.slt b
  | .le => !b.slt a
  | .gt => b.slt a
  | .ge => !a.slt b
  | .ltu => decide (a < b)
  | .leu => !decide (b < a)
  | .gtu => decide (b < a)
  | .geu => !decide (a < b)

def execLnop (p : Pred) (s : State) : Out := laneEach (.lnop p) (fun _ x _ => x) s
def execMovi (p : Pred) (d : GReg) (imm : BitVec 16) (s : State) : Out :=
  laneEach (.movi p d imm) (fun _ x l => setR x l d (sx32 imm)) s
def execMovhi (p : Pred) (d a : GReg) (imm : BitVec 16) (s : State) : Out :=
  laneEach (.movhi p d a imm) (fun _ x l =>
    setR x l d (imm ++ (rg x l a).extractLsb' 0 16 : BitVec 32)) s
def execMov (p : Pred) (d a : GReg) (s : State) : Out :=
  laneEach (.mov p d a) (fun _ x l => setR x l d (rg x l a)) s
def execMovd (p : Pred) (d a : GReg) (s : State) : Out :=
  laneEach (.movd p d a) (fun _ x l => setP x l d (rp x l a)) s
def execSel (p : Pred) (w : Bool) (k : PReg) (d a b : GReg) (s : State) : Out :=
  laneEach (.sel p w k d a b) (fun _ x l =>
    let r := if kAt x l k then a else b
    if w then setP x l d (rp x l r) else setR x l d (rg x l r)) s

def lidRes (k : Core) (x0 x : Gang) (g l : Nat) (fn : LidFn) : W32 :=
  match fn with
  | .lane => w32 l
  | .gang => w32 g
  | .depth => w32 x.depth
  | .live => w32 (liveLanes x0).length
  | .core => w32 (gf (k.cfgAt rMPOS) 0 8)

def execLid (p : Pred) (fn : LidFn) (d : GReg) (s : State) : Out :=
  .next (issueLane (.lid p fn d) (fun b s =>
    let k := s.core b.c
    .go (modGang s b.c b.g (fun x0 => b.advance (b.act.foldl (fun x l =>
      setR x l d (lidRes k x0 x b.g l fn)) x0)))) s)

def execIop (p : Pred) (fn : IopFn) (d a b : GReg) (s : State) : Out :=
  laneEach (.iop p fn d a b) (fun _ x l => setR x l d (iopRes fn (rg x l a) (rg x l b))) s
def execIopi (p : Pred) (fn : IopFn) (d a : GReg) (imm : BitVec 16) (s : State) : Out :=
  laneEach (.iopi p fn d a imm) (fun _ x l => setR x l d (iopRes fn (rg x l a) (sx32 imm))) s

/-- R166: a zero divisor in an active lane traps before any lane writes. -/
def execIdiv (p : Pred) (fn : IdivFn) (d a b : GReg) (s : State) : Out :=
  let i := Instr.idiv p fn d a b
  .next (issueLane i (fun t s =>
    let x := t.gang s
    match t.act.find? (fun l => rg x l b == 0) with
    | some l => t.trap s i l .divz
    | none => .go (modGang s t.c t.g (fun x => t.advance (t.act.foldl (fun x l =>
        setR x l d (idivRes fn (rg x l a) (rg x l b))) x)))) s)

def execImad (p : Pred) (fn : ImadFn) (d a b c : GReg) (s : State) : Out :=
  laneEach (.imad p fn d a b c) (fun _ x l =>
    if fn = .mad then setR x l d ((imadRes fn (rg x l a) (rg x l b) ((rg x l c).setWidth 64)).setWidth 32)
    else setP x l d (imadRes fn (rg x l a) (rg x l b) (rp x l c))) s

/-- R168: a clamp sets FSTAT.SAT. -/
def execIsat (p : Pred) (fn : IsatFn) (d a b : GReg) (s : State) : Out :=
  .next (issueLane (.isat p fn d a b) (fun t s =>
    let x := t.gang s
    let rs := t.act.map (fun l => (l, isatRes fn (rg x l a) (rg x l b)))
    let s1 := s.modCore t.c (fun k => if rs.any (fun r => r.2.2) then k.orFlags fSAT else k)
    .go (modGang s1 t.c t.g (fun x => t.advance (rs.foldl (fun x r => setR x r.1 d r.2.1) x)))) s)

def execIbit (p : Pred) (fn : IbitFn) (d a : GReg) (s : State) : Out :=
  laneEach (.ibit p fn d a) (fun _ x l => setR x l d (ibitRes fn (rg x l a))) s
def execBfx (p : Pred) (sx : Bool) (d a : GReg) (lenm1 pos : BitVec 5) (s : State) : Out :=
  laneEach (.bfx p sx d a lenm1 pos) (fun _ x l =>
    setR x l d (bfxRes sx (rg x l a) (lenm1.toNat + 1) pos.toNat)) s
def execBfi (p : Pred) (d a b : GReg) (lenm1 pos : BitVec 5) (s : State) : Out :=
  laneEach (.bfi p d a b lenm1 pos) (fun _ x l =>
    setR x l d (bfiRes (rg x l a) (rg x l b) (lenm1.toNat + 1) pos.toNat)) s

def execIcmp (p : Pred) (cc : ICc) (kd : PReg) (a b : GReg) (s : State) : Out :=
  laneEach (.icmp p cc kd a b) (fun _ x l => setK x l kd.toNat (iccRes cc (rg x l a) (rg x l b))) s
def execIcmpi (p : Pred) (cc : ICc) (kd : PReg) (a : GReg) (imm : BitVec 16) (s : State) : Out :=
  laneEach (.icmpi p cc kd a imm) (fun _ x l => setK x l kd.toNat (iccRes cc (rg x l a) (sx32 imm))) s
def execIcmp64 (p : Pred) (cc : ICc) (kd : PReg) (a b : GReg) (s : State) : Out :=
  laneEach (.icmp64 p cc kd a b) (fun _ x l => setK x l kd.toNat (iccRes cc (rp x l a) (rp x l b))) s
def execIop64 (p : Pred) (fn : Iop64Fn) (d a b : GReg) (s : State) : Out :=
  laneEach (.iop64 p fn d a b) (fun _ x l => setP x l d (iop64Res fn (rp x l a) (rp x l b))) s

def plopRes (fn : PlopFn) (a b v : Bool) : Bool :=
  match fn with
  | .and => a && b
  | .or => a || b
  | .xor => a != b
  | .andn => a && !b
  | .not => !a
  | .set => v

def execPlop (p : Pred) (fn : PlopFn) (kd ka kb : PReg) (v : Bool) (s : State) : Out :=
  laneEach (.plop p fn kd ka kb v) (fun _ x l =>
    setK x l kd.toNat (plopRes fn (kAt x l ka) (kAt x l kb) v)) s

/-- R158, R173: bit 0 of the predicate word always reads 1. -/
def execPmov (p : Pred) (fn : PmovFn) (d a : GReg) (s : State) : Out :=
  laneEach (.pmov p fn d a) (fun _ x l =>
    match fn with
    | .p2g => setR x l d (((x.fibre l).k ||| 1).setWidth 32)
    | .g2p => modFibre x l (fun f => { f with k := ((rg x l a).setWidth 8) ||| 1 })) s

/-! ## Float computation (R163, R174 to R180) -/

/-- Results of active lanes with their draws: bits by lane, flags, generator. -/
def laneFloats (rm : Rm) (f : Nat → Nat → FR) (act : List Nat) (sr : W64) : List (Nat × Nat) × Nat × W64 :=
  let r := mapDraw rm (fun u l => f l u) act sr
  (act.zip r.1, r.2.1, r.2.2)

/-- A float instruction: one result in each active lane, in ascending order. -/
def laneFloat (i : Instr) (rm : Rm) (f : Gang → Nat → Nat → FR) (put : Gang → Nat → Nat → Gang)
    (s : State) : Out :=
  .next (issueLane i (fun b s =>
    let x := b.gang s
    let r := laneFloats rm (f x) b.act ((s.core b.c).cfgAt rSRSTATE)
    let s1 := s.modCore b.c (fun k => (k.orFlags r.2.1).setSr r.2.2)
    .go (modGang s1 b.c b.g (fun x => b.advance (r.1.foldl (fun x e => put x e.1 e.2) x)))) s)

def n32 (x : Gang) (l : Nat) (a : GReg) : Nat := (rg x l a).toNat
def n64 (x : Gang) (l : Nat) (a : GReg) : Nat := (rp x l a).toNat
def put32 (d : GReg) (x : Gang) (l v : Nat) : Gang := setR x l d (w32 v)
def put64 (d : GReg) (x : Gang) (l v : Nat) : Gang := setP x l d (w64 v)

def fopRes (f : Fmt) (fn : FopFn) (m : FMod) (u a b : Nat) : FR :=
  match fn with
  | .add => fadd f m.rm u m.sat a b
  | .sub => fsub f m.rm u m.sat a b
  | .mul => fmul f m.rm u m.sat a b
  | .div => fdiv f m.rm u m.sat a b
  | .min => ⟨fmin f a b, 0⟩
  | .max => ⟨fmax f a b, 0⟩
  | .csgn => ⟨a % 2 ^ 31 + b / 2 ^ 31 * 2 ^ 31, 0⟩

def ffmaRes (f : Fmt) (fn : FfmaFn) (m : FMod) (u a b c : Nat) : FR :=
  ffma f m.rm u m.sat (fn == .fnma || fn == .fnms) (fn == .fms || fn == .fnms) a b c

def funRes (f : Fmt) (fn : FunFn) (m : FMod) (u a : Nat) : FR :=
  match fn with
  | .sqrt => fsqrt f m.rm u a
  | .neg => ⟨fneg f a, 0⟩
  | .abs => ⟨fabsB f a, 0⟩
  | .rint => frint f m.rm a
  | .cls => ⟨fclass a, 0⟩

def hopToFop : HopFn → FopFn
  | .add => .add | .sub => .sub | .mul => .mul | .min => .min | .max => .max
def dopToFop : DopFn → FopFn
  | .add => .add | .sub => .sub | .mul => .mul | .div => .div | .min => .min | .max => .max
def dunToFun : DunFn → FunFn
  | .sqrt => .sqrt | .neg => .neg | .abs => .abs | .rint => .rint
def vfmaToFfma : VfmaFn → FfmaFn
  | .fma => .fma | .fms => .fms | .fnma => .fnma

def execFop (p : Pred) (fn : FopFn) (m : FMod) (d a b : GReg) (s : State) : Out :=
  laneFloat (.fop p fn m d a b) m.rm (fun x l u => fopRes .fp32 fn m u (n32 x l a) (n32 x l b)) (put32 d) s
def execFfma (p : Pred) (fn : FfmaFn) (m : FMod) (d a b c : GReg) (s : State) : Out :=
  laneFloat (.ffma p fn m d a b c) m.rm (fun x l u =>
    ffmaRes .fp32 fn m u (n32 x l a) (n32 x l b) (n32 x l c)) (put32 d) s
def execFunop (p : Pred) (fn : FunFn) (m : FMod) (d a : GReg) (s : State) : Out :=
  laneFloat (.funop p fn m d a) m.rm (fun x l u => funRes .fp32 fn m u (n32 x l a)) (put32 d) s
def execDop (p : Pred) (fn : DopFn) (m : FMod) (d a b : GReg) (s : State) : Out :=
  laneFloat (.dop p fn m d a b) m.rm (fun x l u =>
    fopRes .fp64 (dopToFop fn) m u (n64 x l a) (n64 x l b)) (put64 d) s
def execDfma (p : Pred) (fn : FfmaFn) (m : FMod) (d a b c : GReg) (s : State) : Out :=
  laneFloat (.dfma p fn m d a b c) m.rm (fun x l u =>
    ffmaRes .fp64 fn m u (n64 x l a) (n64 x l b) (n64 x l c)) (put64 d) s
def execDun (p : Pred) (fn : DunFn) (m : FMod) (d a : GReg) (s : State) : Out :=
  laneFloat (.dun p fn m d a) m.rm (fun x l u => funRes .fp64 (dunToFun fn) m u (n64 x l a)) (put64 d) s
def execSfu (p : Pred) (fn : SfuFn) (d a : GReg) (s : State) : Out :=
  laneFloat (.sfu p fn d a) .rne (fun x l _ => sfu fn (n32 x l a)) (put32 d) s

def execFcmp (p : Pred) (cc : FCc) (kd : PReg) (a b : GReg) (s : State) : Out :=
  laneEach (.fcmp p cc kd a b) (fun _ x l =>
    setK x l kd.toNat (fcc cc (decodeF .fp32 (n32 x l a)) (decodeF .fp32 (n32 x l b)))) s
def execDcmp (p : Pred) (cc : FCc) (kd : PReg) (a b : GReg) (s : State) : Out :=
  laneEach (.dcmp p cc kd a b) (fun _ x l =>
    setK x l kd.toNat (fcc cc (decodeF .fp64 (n64 x l a)) (decodeF .fp64 (n64 x l b)))) s

/-- R177: two packed elements in each lane, element 0 first. -/
def lanePacked (i : Instr) (rm : Rm) (d : GReg) (f : Gang → Nat → Nat → Nat → FR) (s : State) : Out :=
  .next (issueLane i (fun b s =>
    let x := b.gang s
    let r := mapDraw rm (fun u (e : Nat × Nat) => f x e.1 e.2 u) (b.act.flatMap (fun l => [(l, 0), (l, 1)]))
      ((s.core b.c).cfgAt rSRSTATE)
    let vs := b.act.zipIdx.map (fun e => (e.1, r.1.getD (2 * e.2) 0 + r.1.getD (2 * e.2 + 1) 0 * 2 ^ 16))
    let s1 := s.modCore b.c (fun k => (k.orFlags r.2.1).setSr r.2.2)
    .go (modGang s1 b.c b.g (fun x => b.advance (vs.foldl (fun x e => put32 d x e.1 e.2) x)))) s)

def half (x : Gang) (l : Nat) (a : GReg) (e : Nat) : Nat := n32 x l a / 2 ^ (16 * e) % 2 ^ 16
def hFmt (h16 : Bool) : Fmt := if h16 then .fp16 else .bf16

def execHop (p : Pred) (fn : HopFn) (h16 : Bool) (m : FMod) (d a b : GReg) (s : State) : Out :=
  lanePacked (.hop p fn h16 m d a b) m.rm d (fun x l e u =>
    fopRes (hFmt h16) (hopToFop fn) m u (half x l a e) (half x l b e)) s
def execHfma (p : Pred) (fn : VfmaFn) (h16 : Bool) (m : FMod) (d a b c : GReg) (s : State) : Out :=
  lanePacked (.hfma p fn h16 m d a b c) m.rm d (fun x l e u =>
    ffmaRes (hFmt h16) (vfmaToFfma fn) m u (half x l a e) (half x l b e) (half x l c e)) s

/-- R179: an element of a register, or of a pair. -/
def cvtSrc (x : Gang) (l : Nat) (f : Fmt) (part : BitVec 2) (a : GReg) : Nat :=
  if f = .fp64 then n64 x l a
  else nf (n32 x l a) (8 * fmtSize f * part.toNat) (8 * fmtSize f)

def cvtPut (f : Fmt) (part : BitVec 2) (d : GReg) (x : Gang) (l v : Nat) : Gang :=
  if f = .fp64 then put64 d x l v
  else put32 d x l (sf ((rg x l d).setWidth 64) (8 * fmtSize f * part.toNat) (8 * fmtSize f) v).toNat

def execCvt (p : Pred) (dpart spart : BitVec 2) (m : FMod) (tgt frm : Fmt) (d a : GReg) (s : State) : Out :=
  laneFloat (.cvt p dpart spart m tgt frm d a) m.rm (fun x l u =>
    convert frm tgt m.rm u m.sat (cvtSrc x l frm spart a)) (cvtPut tgt dpart d) s

/-! ## Control transfer (R181 to R183) -/

def laneRel (b : Batch) (off : BitVec 16) : Nat := addVa b.pc (off.toInt * 8)

/-- Active lanes move to their targets, with a link where one is named; the others fall through. -/
def laneJump (i : Instr) (target : Batch → Gang → Nat → Nat) (link : Option GReg) (s : State) : Out :=
  .next (issueLane i (fun b s =>
    let x := b.gang s
    match b.act.find? (fun l => target b x l % 8 != 0) with
    | some l => b.trap s i l .ialign
    | none =>
      .go (modGang s b.c b.g (fun y => b.act.foldl (fun y l =>
        let y1 := match link with
          | some d => setP y l d (w64 (va57 (b.pc + 8)))
          | none => y
        modFibre y1 l (fun f => { f with pc := target b x l })) (b.advance y)))) s)

def execBra (p : Pred) (off : BitVec 16) (s : State) : Out :=
  laneJump (.bra p off) (fun b _ _ => laneRel b off) none s
def execBrx (p : Pred) (a : GReg) (s : State) : Out :=
  laneJump (.brx p a) (fun _ x l => gf (rp x l a) 0 57) none s
def execLaneCall (p : Pred) (d : GReg) (off : BitVec 16) (s : State) : Out :=
  laneJump (.laneCall p d off) (fun b _ _ => laneRel b off) (some d) s
def execCallx (p : Pred) (d a : GReg) (s : State) : Out :=
  laneJump (.callx p d a) (fun _ x l => gf (rp x l a) 0 57) (some d) s
def execLaneRet (p : Pred) (a : GReg) (s : State) : Out :=
  laneJump (.laneRet p a) (fun _ x l => gf (rp x l a) 0 57) none s

/-- R182: LBRK traps whatever the active mask; in the batch that a resume steps over, it acts once as LNOP (R335). -/
def execLbrk (imm : BitVec 16) (s : State) : Out :=
  let i := Instr.lbrk imm
  .next (issueLane i (fun b s =>
    if b.lanes.all (fun l => (b.gang s).stepOver.contains l) then .go (modGang s b.c b.g b.advance)
    else
      let l := b.lanes.headD 0
      .stop l (.trap { laneTrap (s.core b.c) b.g l b.pc (encWords i).1 with
        cause := .brk, info := imm.toNat })) s)

/-! ## Collectives (R196 to R199) -/

/-- R196: the participants. -/
def participating (b : Batch) (x : Gang) (m : GReg) : List Nat :=
  match b.act with
  | [] => []
  | l0 :: _ => b.act.filter (fun l => (rg x l0 m).getLsbD l)

/-- A collective: a change of the gang from its state before. -/
def collective (i : Instr) (m : GReg) (f : List Nat → Gang → Gang × Nat) (s : State) : Out :=
  .next (issueLane i (fun b s =>
    let x := b.gang s
    let r := f (participating b x m) x
    let s1 := s.modCore b.c (fun k => k.orFlags r.2)
    .go (modGang s1 b.c b.g (fun _ => b.advance r.1))) s)

def execVote (p : Pred) (fn : VoteFn) (d : GReg) (ka : PReg) (b : GReg) (s : State) : Out :=
  collective (.vote p fn d ka b) b (fun ps x =>
    let yes := ps.filter (fun l => kAt x l ka)
    (ps.foldl (fun y l =>
      match fn with
      | .all => setK y l (d.toNat % 8) (yes.length == ps.length)
      | .any => setK y l (d.toNat % 8) (!yes.isEmpty)
      | .ballot => setR y l d (w32 (maskOf yes))
      | .count => setR y l d (w32 yes.length)) x, 0)) s

/-- R198: the source lane, where it lies within 0 to 31. -/
def shflSrc (x : Gang) (fn : ShflFn) (b : GReg) (delta : BitVec 5) (l : Nat) : Option Nat :=
  match fn with
  | .idx => some (n32 x l b % 32)
  | .up => if delta.toNat ≤ l then some (l - delta.toNat) else none
  | .down => if l + delta.toNat < 32 then some (l + delta.toNat) else none
  | .xor => some (Nat.xor l delta.toNat)

def execShfl (p : Pred) (fn : ShflFn) (d a b c : GReg) (delta : BitVec 5) (s : State) : Out :=
  collective (.shfl p fn d a b c delta) c (fun ps x =>
    (ps.foldl (fun y l =>
      match shflSrc x fn b delta l with
      | some q =>
        if ps.contains q then setK (setR y l d (rg x q a)) l 7 false
        else setK (setR y l d (rg x l a)) l 7 true
      | none => setK (setR y l d (rg x l a)) l 7 true) x, 0)) s

def scanOp (op : ScanOp) (a b : W32) : W32 × Nat :=
  match op with
  | .add => (a + b, 0)
  | .min => (smin a b, 0)
  | .max => (smax a b, 0)
  | .minu => (umin a b, 0)
  | .maxu => (umax a b, 0)
  | .and => (a &&& b, 0)
  | .or => (a ||| b, 0)
  | .fadd => let r := fadd .fp32 .rne 0 false a.toNat b.toNat; (w32 r.bits, r.flags)

def scanIdent : ScanOp → W32
  | .add => 0 | .min => 0x7FFFFFFF | .max => 0x80000000 | .minu => 0xFFFFFFFF | .maxu => 0
  | .and => 0xFFFFFFFF | .or => 0 | .fadd => 0x80000000

/-- R199: exclusive and inclusive values by lane, and the flags. -/
def scanGo (op : ScanOp) : Option W32 → Nat → List (Nat × W32) → List (Nat × W32 × W32) × Option W32 × Nat
  | acc, fl, [] => ([], acc, fl)
  | none, fl, (l, v) :: rest =>
    let r := scanGo op (some v) fl rest
    ((l, scanIdent op, v) :: r.1, r.2)
  | some a, fl, (l, v) :: rest =>
    let x := scanOp op a v
    let r := scanGo op (some x.1) (Nat.lor fl x.2) rest
    ((l, a, x.1) :: r.1, r.2)

def execScan (p : Pred) (excl : Bool) (op : ScanOp) (d a b : GReg) (s : State) : Out :=
  collective (.scan p excl op d a b) b (fun ps x =>
    let r := scanGo op none 0 (ps.map (fun l => (l, rg x l a)))
    (r.1.foldl (fun y e => setR y e.1 d (if excl then e.2.1 else e.2.2)) x, r.2.2)) s

def execLred (p : Pred) (op : ScanOp) (d a b : GReg) (s : State) : Out :=
  collective (.lred p op d a b) b (fun ps x =>
    let r := scanGo op none 0 (ps.map (fun l => (l, rg x l a)))
    (ps.foldl (fun y l => setR y l d (r.2.1.getD 0)) x, r.2.2)) s

/-! ## Fibres (R200 to R202) -/

def freeSlot (x : Gang) : Option Nat := allLanes.find? (fun l => (x.fibre l).st == .ended)

/-- R200: one fibre of SPAWN. Every access of its spawner comes before its own; what the ended fibre of its slot
has still to land is another agent's (R201, R290). -/
def spawnOne (c g cap pc stamp seed : Nat) (d a : GReg) (k : Core) (l : Nat) : Core :=
  let x := k.gangAt g
  let live := (liveLanes x).length
  match freeSlot x with
  | some n =>
    if live < cap then
      let f : Fibre := { pc := pc, k := 0x7F, st := .ready, arrived := .no, stamp := stamp, seeds := [(0, seed)] }
      let v := rg x l a
      let y := { x with regs := x.regs.filter (fun e => e.1 / 256 != n) }.setFibre n f
      let z := [(0, v), (1, w32 l), (2, w32 n), (3, w32 (live + 1))].foldl (fun z (e : Nat × W32) =>
        if e.1 < x.bound then z.setReg n e.1 e.2 else z) y
      (fenceOver (freeLane k c g n) (.fibre g l) (.fibre g n)).setGang g (setR z l d (w32 n))
    else k.setGang g (setR x l d 0xFFFFFFFF)
  | none => k.setGang g (setR x l d 0xFFFFFFFF)

def execSpawn (p : Pred) (d a : GReg) (off : BitVec 16) (s : State) : Out :=
  .next (issueLane (.spawn p d a off) (fun b s =>
    let s1 := releaseLanes { s with fresh := s.fresh + b.act.length } b.c b.g b.act
    let cap := (s.core b.c).fcap
    let x := b.gang s
    .go (s1.modCore b.c (fun k => b.act.zipIdx.foldl (fun k e =>
      spawnOne b.c b.g cap (laneRel b off) x.cycle (s.fresh + e.2) d a k e.1) (k.setGang b.g (b.advance x))))) s)

/-- A store of an agent to another device has not been answered yet. -/
def farStores (k : Core) (ag : Agent) : Bool := k.buf.any (fun b => b.of ag && b.space == .gm && b.tr.loc == 2)

/-- R201, R381: QUIT ends the fibres of the active lanes; it is a synchronising point of each, and waits for the
answers to their stores that it may have to report. -/
def execQuit (p : Pred) (s : State) : Out :=
  let i := Instr.quit p
  .next (issueLane i (fun b s =>
    let k := s.core b.c
    if b.act.any (fun l => farStores k (.fibre b.g l)) then .stall s
    else
    match b.act.findSome? (fun l => (failureTrap k (.fibre b.g l)
        (laneTrap k b.g l b.pc (encWords i).1)).map (fun t => (l, t))) with
    | some (l, t) => .stop l (.trap t)
    | none => .go (modGang s b.c b.g (fun x =>
        modFibres (b.advance x) b.act (fun f => { f with st := .ended })))) s)

def arriveBatch (b : Batch) (a : Arrival) (x : Gang) : Gang :=
  modFibres x b.lanes (fun f => { f with st := .waiting, arrived := a })

def execRole (topc : BitVec 7) (s : State) : Out :=
  .next (issueLane (.role topc) (fun b s =>
    .go (modGang s b.c b.g (arriveBatch b (.role topc.toNat)))) s)
def execLbar (s : State) : Out :=
  .next (issueLane .lbar (fun b s => .go (modGang s b.c b.g (arriveBatch b .lbar))) s)

end Sys2Proof.Machine
end

