-- ==== Sys2Proof/Machine/LaneMem.lean ====
section
/-! DEFINITION. Lane accesses to memory: loads and stores (R186 to R189), fences, handles and waits
(R190 to R192), atomics (R193 to R195), and nested tile issue (R144, R203). -/
namespace Sys2Proof.Machine

/-! ## Addresses and their checks (R187) -/

/-- Where a lane access goes before its address is known. -/
inductive LSpace where
  | gm | ts | port (p : Nat) | peer (p : BitVec 2) | mcast
  deriving DecidableEq, Repr

/-- A lane access: space, bytes, handle, address register, byte offset, and its ACC code. -/
structure LAcc where
  sp : LSpace
  n : Nat
  oh : Handle
  a : GReg
  off : Int
  acc : Acc

/-- The address as computed, before any check. -/
def lRaw (x : Gang) (m : LAcc) (l : Nat) : Int :=
  match m.sp with
  | .gm => (addVa (gf (rp x l m.a) 0 57) m.off : Nat)
  | _ => (n32 x l m.a : Int) + m.off

def gangPort (x : Gang) (p : Nat) : Port :=
  ((x.cmd.map (·.ports)).getD []).getD p { base := 0, size := 0, out := false }

/-- The tile-store offset or global address that an access names. -/
def lWhere (x : Gang) (m : LAcc) (l : Nat) : Int :=
  match m.sp with
  | .port p => (gangPort x p).base + lRaw x m l
  | _ => lRaw x m l

def lSpace (c : Nat) (m : LAcc) : Space :=
  match m.sp with
  | .gm => .gm
  | .ts | .port _ => .ts
  | .peer p => peerSpace c (peerCore c p)
  | .mcast => .mcast

def within (lo n : Int) (size : Nat) : Bool := decide (0 ≤ lo ∧ lo + n ≤ size)

/-- The first check of R187 that a lane's access fails, with pending-bit checking after them. -/
def lStop (s : State) (b : Batch) (i : Instr) (m : LAcc) (l : Nat) : Option Stop :=
  let k := s.core b.c
  let x := b.gang s
  let raw := lRaw x m l
  let ad := lWhere x m l
  let t := { laneTrap k b.g l b.pc (encWords i).1 with faddr := (ad % 2 ^ 64).toNat, acc := m.acc.code }
  let e : Env := { c := b.c, who := .fibre b.g l, pre := s, base := 0, next := 0 }
  let readOnly := match m.sp with
    | .port p => m.acc.writes && decide (p < 3) && !(gangPort x p).out
    | _ => false
  let fits := match m.sp with
    | .gm => true
    | .port p => within raw m.n (gangPort x p).size
    | .peer p => within raw m.n k.share && peerGrant s b.c (peerCore b.c p)
    | _ => within raw m.n k.share
  if raw % m.n ≠ 0 then some (.trap { t with cause := .dalign })
  else if readOnly then some (.trap { t with cause := .portro })
  else if !fits then some (.trap { t with cause := .tsrange })
  else
    match lSpace b.c m with
    | .gm => gmStoreStop s b.c ad.toNat m.n m.acc { t with faddr := ad.toNat }
    | .peer _ => none
    | _ => pendingStop e k t m.oh.toNat ad.toNat m.n m.acc.writes

/-- The lowest active lane whose access is stopped. -/
def lFirstStop (s : State) (b : Batch) (i : Instr) (m : LAcc) : Option (Nat × Stop) :=
  b.act.findSome? (fun l => (lStop s b i m l).map (fun st => (l, st)))

/-- R222: an access under the handle of a pending command waits for it. -/
def lPendWait (s : State) (b : Batch) (m : LAcc) : Bool :=
  match lSpace b.c m with
  | .gm | .peer _ => false
  | _ => b.act.any (fun l => pendWait (s.core b.c) (.fibre b.g l) m.oh.toNat
      (lWhere (b.gang s) m l).toNat m.n m.acc.writes)

def lAddr (s : State) (b : Batch) (m : LAcc) (l : Nat) : Nat := (lWhere (b.gang s) m l).toNat

/-! ## Stores -/

/-- The active lanes whose stores of one instruction write the same bytes as a lane's: their addresses are equal,
since every access has one size and is aligned to it. -/
def sameBytes (s : State) (b : Batch) (m : LAcc) (l : Nat) : List Nat :=
  b.act.filter (fun q => lAddr s b m q == lAddr s b m l)

/-- A lane's store enters the write buffers. Where lanes of one instruction write the same bytes, one store enters
for them all, with the value of the highest, behind what each of them must follow (R188, R249). -/
def laneStore (b : Batch) (m : LAcc) (val : Nat → Nat) (s : State) (l : Nat) : State :=
  let all := sameBytes s b m l
  if all.getLast? ≠ some l then s
  else
    let sp := lSpace b.c m
    let ad := lAddr s b m l
    let k := s.core b.c
    let lower := all.dropLast.map (fun q => Agent.fibre b.g q)
    let before := lower.flatMap (fun a => storeDeps k a m.oh.toNat sp ad m.n false)
    let s0 := if sp = .gm then keepVa s b.c ad .write else s
    let tr := if sp = .gm then trOf s b.c ad .write else Trans.none
    let s1 := bufferStore s0 b.c (.fibre b.g l) m.oh.toNat sp ad tr (leBytes m.n (val l))
    s1.modCore b.c (fun k1 => { k1 with buf := k1.buf.map (fun st =>
      if st.id = k.nextId then { st with deps := st.deps ++ before, also := lower } else st) })

def laneStoreIssue (i : Instr) (m : LAcc) (val : Gang → Nat → Nat) (s : State) : Out :=
  .next (issueLane i (fun b s =>
    let x := b.gang s
    match lFirstStop s b i m with
    | some (l, st) => .stop l st
    | none =>
      if lPendWait s b m then .stall s
      else
        let s0 := s.modCore b.c (fun k => b.act.foldl (fun k l =>
          k.storePast (.fibre b.g l) (lSpace b.c m) (lAddr s b m l) m.n) k)
        let s1 := b.act.foldl (laneStore b m (val x)) s0
        .go (modGang s1 b.c b.g b.advance)) s)

def regVal (sz : Size) (r : GReg) (x : Gang) (l : Nat) : Nat :=
  if sz = .b64 then n64 x l r else n32 x l r

def execSt (p : Pred) (sz : Size) (oh : Handle) (a b : GReg) (off : BitVec 16) (s : State) : Out :=
  laneStoreIssue (.st p sz oh a b off) ⟨.gm, sizeBytes sz, oh, a, off.toInt, .write⟩ (regVal sz b) s
def execStts (p : Pred) (sz : Size) (oh : Handle) (a b : GReg) (off : BitVec 16) (s : State) : Out :=
  laneStoreIssue (.stts p sz oh a b off) ⟨.ts, sizeBytes sz, oh, a, off.toInt, .write⟩ (regVal sz b) s
def execSttp (p : Pred) (port : BitVec 2) (sz : Size) (oh : Handle) (a b : GReg) (off : BitVec 16)
    (s : State) : Out :=
  laneStoreIssue (.sttp p port sz oh a b off) ⟨.port port.toNat, sizeBytes sz, oh, a, off.toInt, .write⟩
    (regVal sz b) s
def execStpeer (p : Pred) (peer : BitVec 2) (mc : Bool) (sz : Size) (oh : Handle) (a b : GReg)
    (off : BitVec 16) (s : State) : Out :=
  laneStoreIssue (.stpeer p peer mc sz oh a b off)
    ⟨if mc then .mcast else .peer peer, sizeBytes sz, oh, a, off.toInt, .write⟩ (regVal sz b) s

/-! ## Batches that wait for memory (R204) -/

/-- The batch of a load, atomic or LWAIT waits with what each active lane asks for. The translations of an atomic
are its core's from here on, so that no walk between its groups can fail (R160, R216). -/
def startOp (i : Instr) (m : LAcc) (s : State) : Out :=
  .next (issueLane i (fun b s =>
    match lFirstStop s b i m with
    | some (l, st) => .stop l st
    | none =>
      if b.act.isEmpty then .go (modGang s b.c b.g b.advance)
      else if lPendWait s b m then .stall s
      else
        let k := s.core b.c
        let x := b.gang s
        let addrs := b.act.map (fun l => (l, lSpace b.c m, lAddr s b m l))
        let deps := addrs.flatMap (fun e =>
          if m.acc = .atomic then storeDeps k (.fibre b.g e.1) m.oh.toNat e.2.1 e.2.2 m.n true
          else loadDeps k (.fibre b.g e.1) m.oh.toNat)
        let op : LaneOp := { i := i, pc := b.pc, lanes := b.lanes, addrs := addrs, deps := deps, got := [], bad := [],
                             since := x.cycle }
        let s1 := if m.acc = .atomic then
            addrs.foldl (fun s e => if e.2.1 = .gm then keepVa s b.c e.2.2 .atomic else s) s
          else s
        let s2 := s1.modCore b.c (fun k => addrs.foldl (fun k e =>
          if m.acc = .atomic then k.dropAhead (.fibre b.g e.1)
          else k.loadPast (.fibre b.g e.1) m.oh.toNat e.2.1 e.2.2 m.n) k)
        .go (modGang s2 b.c b.g (fun x =>
          { modFibres x b.lanes (fun f => { f with st := .waiting }) with ops := x.ops ++ [op] }))) s)

def ldAcc (sz : Size) (sp : LSpace) (oh : Handle) (a : GReg) (off : BitVec 16) : LAcc :=
  ⟨sp, sizeBytes sz, oh, a, off.toInt, .read⟩

def execLd (p : Pred) (sz : Size) (sx : Bool) (oh : Handle) (d a : GReg) (off : BitVec 16) (s : State) : Out :=
  startOp (.ld p sz sx oh d a off) (ldAcc sz .gm oh a off) s
def execLdts (p : Pred) (sz : Size) (sx : Bool) (oh : Handle) (d a : GReg) (off : BitVec 16)
    (s : State) : Out := startOp (.ldts p sz sx oh d a off) (ldAcc sz .ts oh a off) s
def execLdtp (p : Pred) (port : BitVec 2) (sz : Size) (sx : Bool) (oh : Handle) (d a : GReg)
    (off : BitVec 16) (s : State) : Out :=
  startOp (.ldtp p port sz sx oh d a off) (ldAcc sz (.port port.toNat) oh a off) s
def execLdpeer (p : Pred) (peer : BitVec 2) (sz : Size) (sx : Bool) (oh : Handle) (d a : GReg)
    (off : BitVec 16) (s : State) : Out :=
  startOp (.ldpeer p peer sz sx oh d a off) (ldAcc sz (.peer peer) oh a off) s

def wBytes (w : Bool) : Nat := if w then 8 else 4

def execAtom (p : Pred) (fn : AtomFn) (nr w : Bool) (oh : Handle) (d a b : GReg) (off : BitVec 16)
    (s : State) : Out :=
  startOp (.atom p fn nr w oh d a b off) ⟨.gm, wBytes w, oh, a, off.toInt, .atomic⟩ s
def tsAcc (w tp : Bool) (port : BitVec 2) (oh : Handle) (a : GReg) (off : BitVec 12) : LAcc :=
  ⟨if tp then .port port.toNat else .ts, wBytes w, oh, a, off.toInt, .atomic⟩
def execAtomts (p : Pred) (fn : AtomFn) (nr w : Bool) (oh : Handle) (d a b : GReg) (tp : Bool)
    (port : BitVec 2) (off : BitVec 12) (s : State) : Out :=
  startOp (.atomts p fn nr w oh d a b tp port off) (tsAcc w tp port oh a off) s
def execCas (p : Pred) (w : Bool) (oh : Handle) (d a b c : GReg) (off : BitVec 15) (s : State) : Out :=
  startOp (.cas p w oh d a b c off) ⟨.gm, wBytes w, oh, a, off.toInt, .atomic⟩ s
def execCasts (p : Pred) (w : Bool) (oh : Handle) (d a b c : GReg) (tp : Bool) (port : BitVec 2)
    (off : BitVec 12) (s : State) : Out :=
  startOp (.casts p w oh d a b c tp port off) (tsAcc w tp port oh a off) s

/-- R192: an LWAIT reads under o0, which R192 and R251 leave open (DESIGN CHOICE, log entry 83); its address is a
multiple of 8. -/
def execLwait (p : Pred) (cc : WaitCc) (scope : Scope) (kd : PReg) (a b : GReg) (tmo : BitVec 16)
    (s : State) : Out :=
  startOp (.lwait p cc scope kd a b tmo) ⟨.gm, 8, 0, a, 0, .read⟩ s

/-! ## Values that return -/

/-- What an atomic function makes of a word (R193). `w` is the width. -/
def atomOp (fn : AtomFn) (w : Bool) (m x : W64) : W64 :=
  let a := m.setWidth 32
  let b := x.setWidth 32
  match fn with
  | .add => m + x
  | .and => m &&& x
  | .or => m ||| x
  | .xor => m ^^^ x
  | .min => if w then smin m x else (smin a b).setWidth 64
  | .max => if w then smax m x else (smax a b).setWidth 64
  | .minu => umin m x
  | .maxu => umax m x
  | .swap => x
  | .fadd => if w then w64 (fadd .fp64 .rne 0 false m.toNat x.toNat).bits
      else w64 (fadd .fp32 .rne 0 false a.toNat b.toNat).bits

def cutW (w : Bool) (v : W64) : W64 := if w then v else (v.setWidth 32).setWidth 64
def atomOpW (fn : AtomFn) (w : Bool) (m x : W64) : W64 := cutW w (atomOp fn w m x)

/-- R194: the operands of a group combined, in lane order. -/
def combine (fn : AtomFn) (w : Bool) : List W64 → W64
  | [] => 0
  | x :: xs => xs.foldl (atomOpW fn w) x

/-- R194: the value each lane returns, rebuilt from the old value: lane j's exclusive prefix. -/
def groupRets (fn : AtomFn) (w : Bool) (m : W64) (xs : List W64) : List W64 :=
  (List.range xs.length).map (fun j => if j = 0 then m else atomOpW fn w m (combine fn w (xs.take j)))

/-- The new value of memory. -/
def groupNew (fn : AtomFn) (w : Bool) (m : W64) (xs : List W64) : W64 := atomOpW fn w m (combine fn w xs)

/-- R195: a group of CAS. -/
def casGroup (m : W64) : List (W64 × W64) → List W64 × W64
  | [] => ([], m)
  | (e, n) :: rest =>
    let r := casGroup (if m = e then n else m) rest
    (m :: r.1, r.2)

/-- The size, handle and kind of access of a waiting instruction. -/
def opAcc : Instr → Nat × Nat × Acc
  | .ld _ sz _ oh _ _ _ | .ldts _ sz _ oh _ _ _ | .ldtp _ _ sz _ oh _ _ _ | .ldpeer _ _ sz _ oh _ _ _ =>
    (sizeBytes sz, oh.toNat, .read)
  | .atom _ _ _ w oh _ _ _ _ | .atomts _ _ _ w oh _ _ _ _ _ _ | .cas _ w oh _ _ _ _ _
  | .casts _ w oh _ _ _ _ _ _ _ => (wBytes w, oh.toNat, .atomic)
  | _ => (8, 0, .read)

def wVal (w : Bool) (r : GReg) (x : Gang) (l : Nat) : W64 := if w then rp x l r else (rg x l r).setWidth 64

/-- R188: a returned value goes to its register. -/
def putLoad (sz : Size) (sx : Bool) (d : GReg) (x : Gang) (l : Nat) (v : W64) : Gang :=
  if sz = .b64 then setP x l d v else setR x l d ((extend (sizeBytes sz) sx v.toNat).setWidth 32)

/-- The effect of a completed operation on the registers of a lane. -/
def opPut (i : Instr) (x : Gang) (l : Nat) (v : W64) : Gang :=
  match i with
  | .ld _ sz sx _ d _ _ | .ldts _ sz sx _ d _ _ | .ldtp _ _ sz sx _ d _ _ | .ldpeer _ _ sz sx _ d _ _ =>
    putLoad sz sx d x l v
  | .atom _ _ nr w _ d _ _ _ | .atomts _ _ nr w _ d _ _ _ _ _ =>
    if nr then x else if w then setP x l d v else setR x l d (v.setWidth 32)
  | .cas _ w _ d _ _ _ _ | .casts _ w _ d _ _ _ _ _ _ =>
    if w then setP x l d v else setR x l d (v.setWidth 32)
  | .lwait _ _ _ kd _ _ _ => setK x l kd.toNat (v == 1)
  | _ => x

/-- An LWAIT. -/
def isLwait : Instr → Bool
  | .lwait _ _ _ _ _ _ _ => true
  | _ => false

/-- Removes an operation from its gang and lets its fibres go on at `pc`. -/
def endOp (x : Gang) (n pc : Nat) (op : LaneOp) : Gang :=
  let y := modFibres x op.lanes (fun f => if f.st = .waiting then { f with st := .ready, pc := pc } else f)
  { y with ops := (y.ops.take n) ++ (y.ops.drop (n + 1)) }

/-- Every active lane has its value: they are written and the batch goes on. An LWAIT whose condition
held is a synchronising point (R381). -/
def finishOp (s : State) (c g n : Nat) (op : LaneOp) : State :=
  let k := s.core c
  let isWait := isLwait op.i
  let held : List Nat := if isWait then (op.got.filter (fun e => e.2 == 1)).map (·.1) else []
  match held.findSome? (fun l => failureTrap k (.fibre g l) (laneTrap k g l op.pc (encWords op.i).1)) with
  | some t => raiseTrap (modGang s c g (fun x => endOp x n op.pc op)) c t
  | none =>
    modGang (s.modCore c (Core.acquireLanes g held)) c g (fun x =>
      let y := endOp x n (va57 (op.pc + 8)) op
      op.addrs.foldl (fun y e =>
        match op.got.find? (fun r => r.1 == e.1) with
        | some r => opPut op.i y e.1 r.2
        | none => if isWait then opPut op.i y e.1 0 else y) y)

/-- A lane of the operation failed: no lane takes effect (R160). -/
def failOp (s : State) (c g n : Nat) (op : LaneOp) (st : Stop) : State :=
  takeStop (modGang s c g (fun x => endOp x n op.pc op)) c st

def setOp (s : State) (c g n : Nat) (op : LaneOp) : State :=
  modGang s c g (fun x => { x with ops := lset x.ops n op })

/-- Values have returned to lanes; the operation completes with the last of them. -/
def gotOp (s : State) (c g n : Nat) (op : LaneOp) (vs : List (Nat × W64)) : State :=
  let op1 := { op with got := op.got ++ vs }
  if op1.got.length < op1.addrs.length then setOp s c g n op1 else finishOp s c g n op1

/-- The frame of a trap of a waiting lane. -/
def opTrap (k : Core) (g : Nat) (op : LaneOp) (l : Nat) : Trap :=
  laneTrap k g l op.pc (encWords op.i).1

/-- The core whose tile store a local access of core c reaches. -/
def ownerOf (c : Nat) : Space → Nat
  | .peer o => o
  | _ => c

/-- One lane's read; a load that was made ahead has its value (R251). -/
def opRead (s : State) (c g : Nat) (op : LaneOp) (l : Nat) (sp : Space) (ad n : Nat) : Rd :=
  let ag := Agent.fibre g l
  let t := opTrap (s.core c) g op l
  let r := match sp with
    | .gm => gmLoad s c (some ag) ad n .read t
    | .peer o => tsLoad s c o (some ag) sp ad n t
    | _ => tsLoad s c c (some ag) .ts ad n t
  if isLwait op.i then r else r.ahead (s.core c) ag (opAcc op.i).2.1 sp ad n

def lwaitHolds (op : LaneOp) (x : Gang) (l : Nat) (v : W64) : Bool :=
  match op.i with
  | .lwait _ cc _ _ _ b _ => waitCc cc v (rp x l b)
  | _ => true

/-- The lanes whose value has not returned. -/
def LaneOp.open_ (op : LaneOp) : List (Nat × Space × Nat) := op.addrs.filter (fun e => !op.got.any (·.1 == e.1))

/-- What the reads of the lanes still open come to: the lowest that has no value yet, if any. -/
def lowestRd (s : State) (c g : Nat) (op : LaneOp) : Option (Nat × Nat × Rd) :=
  (op.open_.map (fun e => (e.1, e.2.2, opRead s c g op e.1 e.2.1 e.2.2 (opAcc op.i).1))).find? (fun r =>
    match r.2.2 with
    | .bytes _ => false
    | _ => true)

/-- A read of one lane returns. A lane that fails stops the instruction in every lane, named by the lowest that
fails: a lower lane whose answer is still to come is awaited first (R160). -/
def stepRead (s : State) (c g n : Nat) (op : LaneOp) (l : Nat) (sp : Space) (ad : Nat) : State :=
  let (sz, h, _) := opAcc op.i
  let ag := Agent.fibre g l
  match lowestRd s c g op, opRead s c g op l sp ad sz with
  | some (_, _, .stop st), _ => failOp s c g n op st
  | some (q, aq, .wait t), .stop _ => askRd s c (.fibre g q) h aq sz (.wait t)
  | _, .wait t => askRd s c ag h ad sz (.wait t)
  | _, .stop st => failOp s c g n op st
  | _, .bytes bs =>
    let s1 := afterRead s c ag ad sz (sp != .gm) .read
    if isLwait op.i then
      if lwaitHolds op ((s.core c).gangAt g) l (w64 (leNat bs)) then gotOp s1 c g n op [(l, 1)] else s1
    else
      let (bs1, s2) := if sp = .gm || (aheadOf (s.core c) ag h sp ad sz).isSome || !(forwards (s.core c) ag sp ad sz).isEmpty
        then (bs, s1) else staleLoad s1 (ownerOf c sp) c ag ad sz bs
      gotOp (s2.modCore c (Core.useAhead ag h sp ad sz)) c g n op [(l, w64 (leNat bs1))]

/-- R194: the lanes of the group of a lane, ascending. -/
def opGroup (op : LaneOp) (sp : Space) (ad : Nat) : List Nat :=
  (op.addrs.filter (fun e => e.2.1 == sp && e.2.2 == ad)).map (·.1)

def atomFnCode (fn : AtomFn) : Nat := codeOf atomFns fn

/-- What a group does to the old value: the lanes' returns and the new value. -/
def groupEffect (i : Instr) (x : Gang) (ls : List Nat) (m : W64) : List W64 × W64 :=
  match i with
  | .atom _ fn _ w _ _ _ b _ | .atomts _ fn _ w _ _ _ b _ _ _ =>
    let xs := ls.map (wVal w b x)
    (groupRets fn w m xs, groupNew fn w m xs)
  | .cas _ w _ _ _ b c _ | .casts _ w _ _ _ b c _ _ _ => casGroup m (ls.map (fun l => (wVal w b x l, wVal w c x l)))
  | _ => ([], m)

/-- R195, R376: a group of CAS as one operand: for each value that it changes, the value that it leaves. A group
that changes none compares with its first lane's value. -/
def casMap (ps : List (W64 × W64)) : List (W64 × W64) :=
  let all := (ps.map (·.1)).eraseDups.map (fun e => (e, (casGroup e ps).2))
  match all.filter (fun p => p.1 != p.2) with
  | [] => all.take 1
  | es => es

/-- Lanes of the operation whose remote group has been asked for and whose answer is not taken yet. -/
def askedLanes (s : State) (c g : Nat) (op : LaneOp) : List Nat :=
  (op.open_.filter (fun e =>
    let who := ReqFor.load c (some (.fibre g e.1)) e.2.2 (opAcc op.i).1
    s.requests.any (fun r => r.who == who) || (s.core c).reply.any (fun r => r.1 == who))).map (·.1)

/-- A remote group has failed: the operation does once every answer that it waits for has come, and the record
names the lowest lane that failed (R160). -/
def badOp (s : State) (c g n : Nat) (op : LaneOp) (l : Nat) (t : Trap) : State :=
  let bad := insertBad l t op.bad
  if (askedLanes s c g op).isEmpty then
    failOp s c g n op (.trap ((bad.head?.map (·.2)).getD t))
  else setOp s c g n { op with bad := bad }
where
  /-- In the order of the lanes. -/
  insertBad (l : Nat) (t : Trap) : List (Nat × Trap) → List (Nat × Trap)
    | [] => [(l, t)]
    | e :: es => if l ≤ e.1 then (l, t) :: e :: es else e :: insertBad l t es

/-- A remote group: one request with its combined operand (R376, R382). -/
def remoteGroup (s : State) (c g n : Nat) (op : LaneOp) (t : Trans) (ls : List Nat) (ad sz h : Nat) :
    State :=
  let x := (s.core c).gangAt g
  let (fop, fn, data) : Nat × Nat × List Byte := match op.i with
    | .atom _ fn _ w _ _ _ b _ => (2, atomFnCode fn + 16 * bitOf w, leBytes sz (combine fn w (ls.map (wVal w b x))).toNat)
    | .cas _ w _ _ _ b cc _ =>
      let pair := fun (l : Nat) => (wVal w b x l, wVal w cc x l)
      (3, 16 * bitOf w, (casMap (ls.map pair)).flatMap (fun p => leBytes sz p.1.toNat ++ leBytes sz p.2.toNat))
    | _ => (2, 0, [])
  let l0 := ls.headD 0
  let who := ReqFor.load c (some (.fibre g l0)) ad sz
  let tr := { opTrap (s.core c) g op l0 with faddr := ad, acc := 2, tdev := t.tdev, whole := ad }
  match (s.core c).reply.find? (fun r => r.1 == who) with
  | none =>
    let (s1, ok) := postReq s who fop t.tdev (t.pa ad) ad sz data fn h
    if ok then s1 else putReply s1 c who 1 []
  | some (_, 0, bs) =>
    let r := groupEffect op.i x ls (w64 (leNat bs))
    let s1 := (dropReply (keepVa s c ad .atomic) c who).modCore c (fun k =>
      monLand k false 1 ad (leBytes sz r.2.toNat))
    match op.bad with
    | [] => gotOp s1 c g n op (ls.zip r.1)
    | (q, t) :: _ => badOp s1 c g n { op with got := op.got ++ ls.zip r.1 } q t
  | some (_, st, _) =>
    let s1 := dropReply s c who
    let noReturn := match op.i with
      | .atom _ _ nr _ _ _ _ _ _ => nr
      | _ => false
    if noReturn then
      let fs : List Failure := ls.map (fun l =>
        { agent := .fibre g l, order := (s.core c).nextId, addr := ad, status := st, tdev := t.tdev, poison := st == 16 })
      gotOp (s1.modCore c (fun k => { k with nextId := k.nextId + 1, failures := k.failures ++ fs })) c g n op
        (ls.map (fun l => (l, 0)))
    else badOp s1 c g n op l0 { tr with cause := if st = 16 then .memerr else .fabric, status := st }

/-- An atomic access of a lane goes to another device. -/
def isRemote (s : State) (c : Nat) (sp : Space) (ad : Nat) : Bool :=
  sp == .gm && (match xlate s c ad .atomic with
    | .ok t => t.loc == 2
    | .error _ => false)

/-- What the memory of this device answers to an atomic access of a lane; a remote one is judged at its home. -/
def atomicRd (s : State) (c g : Nat) (op : LaneOp) (e : Nat × Space × Nat) : Rd :=
  let t := { opTrap (s.core c) g op e.1 with acc := 2, faddr := e.2.2 }
  let sz := (opAcc op.i).1
  if isRemote s c e.2.1 e.2.2 then .wait (trOf s c e.2.2 .atomic)
  else if e.2.1 = .gm then gmRead s c (.load c (some (.fibre g e.1)) e.2.2 sz) [] e.2.2 sz .atomic t
  else tsLoad s c c none .ts e.2.2 sz t

/-- The lowest lane whose atomic access is stopped on this device (R160). -/
def atomicStop (s : State) (c g : Nat) (op : LaneOp) : Option Stop :=
  op.open_.findSome? (fun e =>
    match atomicRd s c g op e with
    | .stop st => some st
    | _ => none)

/-- An atomic group is performed as one (R194). No group lands while a lane of the instruction is known to fail,
one on this device waits until those on others have been answered, and once one has landed the others land before
anything that could stop them (R160; landRest). A CAS whose comparison fails lands the old value, which R294 leaves
open (DESIGN CHOICE, log entry 90). -/
def stepAtomic (s : State) (c g n : Nat) (op : LaneOp) (l : Nat) (sp : Space) (ad : Nat) : State :=
  let (sz, h, _) := opAcc op.i
  let x := (s.core c).gangAt g
  let ls := (opGroup op sp ad).filter (fun q => !op.got.any (·.1 == q))
  match atomicStop s c g op, atomicRd s c g op (l, sp, ad) with
  | some st, _ => failOp s c g n op st
  | none, .wait tr =>
    if op.bad.isEmpty || (askedLanes s c g op).contains (ls.headD 0) then remoteGroup s c g n op tr ls ad sz h else s
  | none, .stop st => failOp s c g n op st
  | none, .bytes bs =>
    if op.open_.any (fun e => isRemote s c e.2.1 e.2.2) then s
    else
      let r := groupEffect op.i x ls (w64 (leNat bs))
      let new := leBytes sz r.2.toNat
      if sp = .gm then
        let tr := trOf s c ad .atomic
        if heldByMove s (tr.pa ad) sz then s
        else gotOp (landGm (keepVa s c ad .atomic) c 1 ad (tr.pa ad) new) c g n op (ls.zip r.1)
      else gotOp (landTs s c 1 ad new) c g n op (ls.zip r.1)

/-- R190, R253: what an LFENCE of some lanes orders has landed, as its scope sees it, and for the step of ISTR indeed.
-/
def lfenceMet (s : State) (c g : Nat) (kind : FenceKind) (istr : Bool) (scope : Scope) (ls : List Nat) : Bool :=
  ls.all (fun l => (kind == .acq || fenceMet s c (.fibre g l) (scopeCode scope)) &&
    (!istr || storesLanded (s.core c) (.fibre g l)))

/-- The effect of a complete LFENCE. -/
def lfenceDo (s : State) (c g : Nat) (kind : FenceKind) (istr : Bool) (scope : Scope) (ls : List Nat) : State :=
  let s1 := if istr && !ls.isEmpty then dropCode s c else s
  let s2 := if kind != .acq then
      (releaseLanes s1 c g ls).modCore c (fun k => ls.foldl (fun k l => k.veil (.fibre g l) (scopeCode scope)) k)
    else s1
  if kind = .rel then s2 else s2.modCore c (Core.acquireLanes g ls)

/-- A batch that waits at an LFENCE goes on once the fence is complete. -/
def lfenceStep (s : State) (c g n : Nat) (op : LaneOp) (kind : FenceKind) (istr : Bool) (scope : Scope) : State :=
  let ls := op.addrs.map (·.1)
  if !lfenceMet s c g kind istr scope ls then s
  else
    match ls.findSome? (fun l => failureTrap (s.core c) (.fibre g l) (opTrap (s.core c) g op l)) with
    | some t => raiseTrap (modGang s c g (fun x => endOp x n op.pc op)) c t
    | none => modGang (lfenceDo s c g kind istr scope ls) c g (fun x => endOp x n (va57 (op.pc + 8)) op)

/-- What returns to one lane of a waiting operation, or to one atomic group. The index is 32 × operation + lane. -/
def loadResult (core gang idx : Nat) (s : State) : State :=
  let k := s.core core
  let n := idx / 32
  let l := idx % 32
  match (k.gangAt gang).ops[n]? with
  | none => s
  | some op =>
    match op.i with
    | .lfence _ kind istr scope => if k.frozen then s else lfenceStep s core gang n op kind istr scope
    | _ =>
      if op.open_.isEmpty then finishOp s core gang n op
      else match op.addrs.find? (fun e => e.1 == l) with
      | none => s
      | some (_, sp, ad) =>
        if k.frozen || (op.got.any (·.1 == l)) || !clearOf k op.deps then s
        else if (opAcc op.i).2.2 = .atomic then stepAtomic s core gang n op l sp ad
        else stepRead s core gang n op l sp ad

/-- LOAD_RESULT. -/
def execLoadResult (core gang idx : Nat) (s : State) : Out := .next (loadResult core gang idx s)

/-- The operations of a gang that a test picks, the last first, are taken on in all their lanes. -/
def pushOps (p : State → Nat → LaneOp → List Nat) (s : State) (c g : Nat) : State :=
  ((List.range ((s.core c).gangAt g).ops.length).reverse).foldl (fun s n =>
    match ((s.core c).gangAt g).ops[n]? with
    | none => s
    | some op => (p s n op).foldl (fun s l => loadResult c g (32 * n + l) s) s) s

/-- Every gang of the device. -/
def allGangs (s : State) : List (Nat × Nat) := s.cores.flatMap (fun e => e.2.gang.map (fun g => (e.1, g.1)))

/-- R190: the batches that wait at an LFENCE try again, in each lane cycle. -/
def lfenceRetry (s : State) (c g : Nat) : State :=
  pushOps (fun _ _ op => match op.i with
    | .lfence _ _ _ _ => [0]
    | _ => []) s c g

/-- R160: of an atomic instruction of which a group has landed on this device, the rest land too. -/
def landRest (s : State) : State :=
  (allGangs s).foldl (fun s e => pushOps (fun s _ op =>
    if (opAcc op.i).2.2 = .atomic && !op.got.isEmpty && !op.open_.any (fun a => isRemote s e.1 a.2.1 a.2.2) then
      op.open_.map (·.1)
    else []) s e.1 e.2) s

/-- R86, R192: a waiting LWAIT re-reads a word that a step has changed. -/
def lwaitWatch (s0 s : State) : State :=
  (allGangs s).foldl (fun s e => pushOps (fun s _ op =>
    if isLwait op.i then
      (op.open_.filter (fun a => opRead s e.1 e.2 op a.1 a.2.1 a.2.2 8 != opRead s0 e.1 e.2 op a.1 a.2.1 a.2.2 8)).map (·.1)
    else []) s e.1 e.2) s

/-- The last read of the lanes of an LWAIT whose condition has not held (R86: a write that has landed is seen), once
what it must follow has landed; an answer that is still to come serves nobody. -/
def lwaitLast (s : State) (c g : Nat) (op : LaneOp) : State × LaneOp :=
  (if clearOf (s.core c) op.deps then op.open_ else []).foldl (fun (p : State × LaneOp) e =>
    match opRead p.1 c g op e.1 e.2.1 e.2.2 8 with
    | .bytes bs =>
      let s1 := afterRead p.1 c (.fibre g e.1) e.2.2 8 false .read
      (s1, if lwaitHolds op ((s.core c).gangAt g) e.1 (w64 (leNat bs)) then { p.2 with got := p.2.got ++ [(e.1, 1)] }
           else p.2)
    | _ => (forgetReq p.1 c (.load c (some (.fibre g e.1)) e.2.2 8), p.2)) (s, op)

/-- LWAIT_TIMEOUT: TMO × 64 lane cycles have passed. -/
def execLwaitTimeout (core gang idx : Nat) (s : State) : Out :=
  let x := (s.core core).gangAt gang
  match x.ops[idx / 32]? with
  | none => .next s
  | some op =>
    match op.i with
    | .lwait _ _ _ _ _ _ tmo =>
      if tmo != 0 && decide (op.since + 64 * tmo.toNat ≤ x.cycle) then
        let (s1, op1) := lwaitLast s core gang op
        .next (finishOp s1 core gang (idx / 32) op1)
      else .next s
    | _ => .next s

/-! ## Fences and handles (R190, R191) -/

/-- R190: the batch is WAITING until its fence completes. -/
def execLfence (p : Pred) (kind : FenceKind) (istr : Bool) (scope : Scope) (s : State) : Out :=
  let i := Instr.lfence p kind istr scope
  .next (issueLane i (fun b s =>
    let k := s.core b.c
    if !lfenceMet s b.c b.g kind istr scope b.act then
      let op : LaneOp := { i := i, pc := b.pc, lanes := b.lanes, addrs := b.act.map (fun l => (l, .gm, 0)), deps := [],
                           got := [], bad := [], since := (b.gang s).cycle }
      .go (modGang s b.c b.g (fun x =>
        { modFibres x b.lanes (fun f => { f with st := .waiting }) with ops := x.ops ++ [op] }))
    else
      match b.act.findSome? (fun l => (failureTrap k (.fibre b.g l)
          (laneTrap k b.g l b.pc (encWords i).1)).map (fun t => (l, t))) with
      | some (l, t) => .stop l (.trap t)
      | none => .go (modGang (lfenceDo s b.c b.g kind istr scope b.act) b.c b.g b.advance)) s)

def execLfork (p : Pred) (parent : Handle) (mask : BitVec 16) (s : State) : Out :=
  .next (issueLane (.lfork p parent mask) (fun b s =>
    let s1 := s.modCore b.c (fun k => b.act.foldl (fun k l => forkHandles k b.c (.fibre b.g l) mask parent.toNat) k)
    .go (modGang s1 b.c b.g b.advance)) s)
def execLjoin (p : Pred) (target : Handle) (mask : BitVec 16) (s : State) : Out :=
  .next (issueLane (.ljoin p target mask) (fun b s =>
    let s1 := s.modCore b.c (fun k => b.act.foldl (fun k l => joinHandles k b.c (.fibre b.g l) mask target.toNat) k)
    .go (modGang s1 b.c b.g b.advance)) s)

/-! ## Nested tile issue (R144, R203) -/

/-- The scalars that a tile command reads or writes. -/
def nestScalars : Instr → List SReg
  | .vop2 _ _ bs _ _ _ vb _ _ | .vfma _ _ bs _ _ _ _ vb _ _ | .vcmp _ _ _ _ bs _ vb _ _
  | .vsel _ bs _ _ vb _ _ | .vint _ _ bs _ vb _ _ => if bs then [bsReg vb] else []
  | .vred _ _ _ _ sd => [sd]
  | .vcvto _ _ _ _ _ _ sd _ _ => [sd, sd + 1]
  | .vldt _ _ _ _ _ am _ sa _ | .vstt _ _ _ _ _ am _ sa _ => if am then [sa] else []
  | .mmah _ sh _ _ _ _ => [sh]
  | .keyeInit _ _ _ sa se | .keyeAdd _ _ _ sa se | .keyeWait _ _ sa se => [sa, se]
  | .xpose _ o | .gather _ o | .scatter _ o | .softmax _ o | .lnorm _ o | .topk _ o | .sort _ o
  | .segsum _ o | .stitchDispatch _ _ o _ => [o.sa]
  | i =>
    match xferOf i with
    | none => []
    | some x =>
      (if x.dst == .ring then [] else [x.sd]) ++ (if x.src == .ring then [] else [x.ss]) ++
      (match i with
       | .kgang _ _ => []
       | .kcgrad _ _ _ _ _ => [x.sn]
       | _ => [x.sn, x.sn + 1]) ++
      (match x.cmpl with
       | .none => []
       | .eyelet => [x.se]
       | .stamp => [x.se, x.se + 1])

/-- R203: a nested VCMP may not name k0. -/
def nestBad : Instr → Bool
  | .vcmp _ qd qw _ _ _ _ _ _ => qw && qd == 0
  | _ => false

/-- Whether the binding of a nested opcode runs it on a gang slot. -/
def runsOnGang (k : Core) (cls : SlotClass) (opc : Nat) : Bool :=
  (k.prickAt opc).kind == 2 || (cls == .s && (k.prickAt opc).kind == 1)

/-- The command of a batch has issued: the batch goes on, or is WAITING while the command is outstanding. -/
def awaitChild (b : Batch) (s : State) : State :=
  let k := s.core b.c
  let me := some (b.g, b.lanes)
  let out := k.kcmds.any (·.parent == me) || k.mcmds.any (·.parent == me) ||
    k.mzeroFor.any (fun w => some w.2 == me) ||
    (List.range 4).any (fun g => ((k.gangAt g).cmd.bind (·.parent)) == me)
  modGang s b.c b.g (fun x =>
    let y := b.advance { x with nested := x.nested.filter (fun e => e.lanes != b.lanes) }
    modFibres y b.lanes (fun f => { f with st := if out then .waiting else .ready }))

/-- A batch is WAITING at its TISSUE for what its command needs (R203). -/
def nestWait (b : Batch) (w : NestWait) (s : State) : State :=
  modGang s b.c b.g (fun x =>
    { modFibres x b.lanes (fun f => { f with st := .waiting }) with
      nested := if x.nested.any (fun e => e.lanes == w.lanes)
        then x.nested.map (fun e => if e.lanes = w.lanes then w else e) else x.nested ++ [w] })

/-- What the power budget pays for a nested command (R245). -/
def charge (c n : Nat) (s : State) : State := s.modCore c (fun k => { k with weight := k.weight + n })

/-- The trap of a TISSUE (R203, R330). -/
def nestTrap (b : Batch) (w : NestWait) (s : State) (c : Cause) : LaneRes :=
  .stop w.lane (.trap { laneTrap (s.core b.c) b.g w.lane b.pc w.word with cause := c })

/-- A stop of a nested command at issue is its TISSUE's. -/
def nestStop (b : Batch) (w : NestWait) : Stop → LaneRes
  | .trap t => .stop w.lane (.trap { t with w0 := w.word, w1 := 0, fpc := b.pc })
  | st => .stop w.lane st

/-- R144: a command for a gang slot at depth 2. It waits for every ring mark of R143, those of its issuer's own
top-level command among them, where R143 speaks of later bundles only (DESIGN CHOICE, log entry 90). -/
def nestDispatch (b : Batch) (w : NestWait) (e : Env) (x : SlotSem) (opc : Nat) (s : State) : LaneRes :=
  let k := s.core b.c
  let p := k.prickAt opc
  let ds := [fld w.lo 16 16, fld w.lo 32 16, fld w.lo 48 16]
  if (k.gangAt b.g).depth == 2 then nestTrap b w s .nest
  else if !(descsReady k p ds && marksFree k (inRings p ds) (outRings p ds)) then
    .go (nestWait b { w with forGang := false } s)
  else
    match x.check e s with
    | some st => nestStop b w st
    | none =>
      match freeGang k with
      | some n =>
        let cmd := mkSCmd k n opc w.lo w.hi (rdScal e (fld w.lo 11 5)) e.base p ds
          (if p.kind = 1 then some x.i else none) (some (b.g, b.lanes)) none
        .go (awaitChild b (charge b.c (x.weight e) (startGang s b.c n 2 cmd)))
      | none =>
        let s1 := nestWait b { w with forGang := true } s
        let k1 := s1.core b.c
        if (List.range k.gangs).all (fun g => waitsForGang (k1.gangAt g)) then nestTrap b w s .nest
        else .go s1

/-- A nested command of a batch issues, waits, or stops (R144, R203). -/
def nestIssue (b : Batch) (w : NestWait) (s : State) : LaneRes :=
  let k := s.core b.c
  let x := b.gang s
  let l := w.lane
  let opc := opcOf w.lo
  let cls := opcClass opc
  match slotOf k cls w.lo w.hi with
  | none => nestTrap b w s .illegal
  | some sem =>
    let pairs := nestScalars sem.i
    if !sem.legal k || nestBad sem.i then nestTrap b w s .illegal
    else if (k.prickAt opc).kind = 0 then nestTrap b w s .unbound
    else if pairs.any (fun r => decide (x.bound ≤ 2 * r.toNat + 1)) then nestTrap b w s .regbound
    else if pairs.any (fun r => x.pend.contains (regKey l (2 * r.toNat)) ||
        x.pend.contains (regKey l (2 * r.toNat + 1))) then .go (nestWait b { w with forGang := false } s)
    else
      let e : Env := { c := b.c, who := .fibre b.g l, pre := s,
                       base := (x.cmd.map (·.baddr)).getD 0, next := 0, lanes := b.lanes }
      if runsOnGang k cls opc then nestDispatch b w e sem opc s
      else if !sem.ready e s then .go (nestWait b { w with forGang := false } (sem.poll e s true))
      else
        match sem.check e s with
        | some st => nestStop b w st
        | none => .go (awaitChild b (sem.post e (charge b.c (sem.weight e) (sem.eff e s))))

/-- R203: TISSUE. Bits [95:64] of a K word that K96 = 0 issues have no source in R203: they are 0 (DESIGN CHOICE, log
entry 90). -/
def tissueRun (b : Batch) (i : Instr) (k96 : Bool) (a c : GReg) (s : State) : LaneRes :=
  match b.act with
  | [] => .go (modGang s b.c b.g b.advance)
  | l :: _ =>
    let x := b.gang s
    let lo := rp x l a
    let cls := opcClass (opcOf lo)
    let g := guardOf lo
    let w : NestWait := { lane := l, lanes := b.lanes, lo := lo, hi := if k96 then rg x l c else 0,
                          word := (encWords i).1, forGang := false }
    if cls == .c || g.spe || g.qsel != 0 || (k96 && cls != .k) then nestTrap b w s .illegal
    else nestIssue b w s

/-- A batch that waits at a TISSUE tries its command again, in each lane cycle. -/
def nestRetry (c g : Nat) (s : State) (w : NestWait) : State :=
  if !gangCanIssue s c g then s
  else
    let x := (s.core c).gangAt g
    let b : Batch := { c := c, g := g, pc := (x.fibre w.lane).pc, lanes := w.lanes, act := [w.lane] }
    match nestIssue b w s with
    | .go s1 => s1
    | .stall s1 => s1
    | .stop _ st => takeStop s c st

def execTissue (p : Pred) (k96 : Bool) (a b : GReg) (s : State) : Out :=
  let i := Instr.tissue p k96 a b
  .next (issueLane i (fun t s => tissueRun t i k96 a b s) s)

end Sys2Proof.Machine
end

