-- ==== Sys2Proof/Machine/Context.lean ====
section
/-! DEFINITION. The life of a motif on and off its core: stores that land (R250), the end of a motif
and of its launch (R130, R135), halts (R332 to R334), frames and swap-out (R335 to R341), re-entry
(R342), lazy tiles (R343) and the fault ring (R336). -/
namespace Sys2Proof.Machine

/-! ## Stores land (R250) -/

def dropStore (k : Core) (id : Nat) : Core := { k with buf := k.buf.filter (·.id != id) }

/-- R381: a store that failed is kept for its agent's next synchronising point. -/
def failStore (k : Core) (st : BufStore) (status : Nat) : Core :=
  { dropStore k st.id with failures := k.failures ++ st.reporters.map (fun a =>
      { agent := a, order := st.id, addr := st.addr, status := status, tdev := st.tr.tdev, poison := false }) }

/-- What waited for the stores of an agent's gang goes on. -/
def settleAgent (s : State) (c : Nat) : Agent → State
  | .seq => s
  | .fibre g _ => gangSettle s c g

/-- A store in the write buffers whose earlier accesses have landed lands; one to another device is
sent to it once (R376), and fails at once where there is no route (R366). -/
def landOne (s : State) (c id : Nat) : State :=
  let k := s.core c
  match k.buf.find? (·.id == id) with
  | none => s
  | some st =>
    if k.frozen || !clearOf k (st.deps.filter (· != id)) then s
    else if st.space = .gm && st.tr.loc = 2 then
      if st.sent then s
      else
        let n := st.data.length
        let (s1, ok) := postReq s (.store c id) 1 st.tr.tdev (st.tr.pa st.addr) st.addr n st.data 0 st.handle
        if ok then s1.modCore c (fun k => { k with buf := k.buf.map (fun b =>
          if b.id = id then { b with sent := true } else b) })
        else settleAgent (s1.modCore c (fun k => failStore k st 1)) c st.agent
    else if st.space = .gm && heldByMove s (st.tr.pa st.addr) st.data.length then s
    else if st.space = .gm && cxlDown s (st.tr.pa st.addr) then
      settleAgent (s.modCore c (fun k =>
        let k1 := failStore k st 0
        { k1 with failures := k1.failures.map (fun f =>
            if f.order = id then { f with poison := true } else f) })) c st.agent
    else settleAgent ((landStore s c st).modCore c (fun k => dropStore k id)) c st.agent

/-- STORE_LANDS. -/
def execStoreLands (core id : Nat) (s : State) : Out := .next (landOne s core id)

/-! ## The records of launches -/

/-- A write of the device itself; one to a port that is down fails, with nobody to tell (R393). -/
def mappedWrite (s : State) (pa : Nat) (bs : List Byte) : State := if cxlDown s pa then s else physWrite s pa bs

/-- The distributor's translation of an address of a context (R216). -/
def ctxTrans (s : State) (ctx va : Nat) : Option Trans :=
  (s.context? ctx).bind (fun x => walkFrom s ctx va levels x.root)

/-- A word of a launch's record is written by the distributor, in the address space of its launcher (R92, R126,
R130). The captured record of a replayed launch stays as it was captured (DESIGN CHOICE, log entry 37). -/
def recWrite (s : State) (l : Launch) (off : Nat) (v : W64) : State :=
  if l.replayOf != 0 then s
  else if !l.virt then mappedWrite s (l.addr + off) (leBytes 8 v.toNat)
  else
    let va := va57 (l.addr + off)
    match ctxTrans s l.vctx va with
    | none => s
    | some t =>
      if t.loc = 2 then
        (postReq s (.dist l.id (off * 4 + v.toNat / 2 ^ 62)) 1 t.tdev (t.pa va) va 8 (leBytes 8 v.toNat) 0 0).1
      else mappedWrite s (t.pa va) (leBytes 8 v.toNat)

/-- R130: the STATUS word of a state. -/
def statusWord : LaunchSt → W64
  | .waiting | .eligible => 0
  | .running => w64 (2 ^ 62)
  | .done => w64 (2 * 2 ^ 62)
  | .failed code => w64 (3 * 2 ^ 62 + code)

/-- The launch takes a state, and the owner writes it to STATUS (R130, R363). -/
def setStatus (s : State) (l : Launch) (st : LaunchSt) : State :=
  let s1 := s.setLaunch { l with st := st }
  if l.home.isNone then recWrite s1 l 0x30 (statusWord st) else s1

def Launch.isOver (l : Launch) : Bool :=
  match l.st with
  | .done | .failed _ => true
  | _ => false

/-! ## A motif leaves its core -/

/-- What a core keeps when its motif has left: tiles tagged with a frame (R343), translations, the
power budget and freezes. -/
def freedCore (k : Core) : Core :=
  let away := k.tags.map (·.1)
  { Core.empty with
    cfg := mput cfgReset [] rPLIM (k.cfgAt rPLIM), trans := k.trans, tags := k.tags,
    tiles := k.tiles.filter (fun e => away.contains (e.1 / 65536)),
    guard := k.guard.filter (fun e => away.contains (e.1 / 16384)),
    nextId := k.nextId, frozen := k.frozen, frozenCh := k.frozenCh, credit := k.credit,
    cycles := k.cycles, weight := k.weight, vcyc := k.vcyc, sfuLast := k.sfuLast, lsuLast := k.lsuLast,
    plimNext := k.plimNext, refilled := k.refilled }

/-- Tiles that still hold the bytes of a motif that has ended become zero (R343). -/
def dropTags (s : State) (id : Nat) : State :=
  { s with cores := s.cores.map (fun e => (e.1,
      { ((e.2.tags.filter (·.2 == id)).foldl (fun k t => zeroTile k t.1) e.2) with
        tags := e.2.tags.filter (·.2 != id) })) }

/-- R228: the claims of a motif that has ended are released. -/
def dropOps (s : State) (id : Nat) : State :=
  { s with clusters := s.clusters.map (fun e => (e.1,
      { e.2 with slots := e.2.slots.filter (·.motif != id) })) }

/-- The lease of a core becomes IDLE, and its accepted commands leave the array (R223). -/
def idleLease (s : State) (c : Nat) : State :=
  let s1 := (setGiveUp (setLease s c .idle) c none).modCluster (clusterOf c) (fun x =>
    { x with queue := x.queue.filter (·.1 != c) })
  settleOf s1 c

/-- No access that another core was granted to this core's share is still on its way (R210, R212). -/
def peersQuiet (s : State) (c : Nat) : Bool :=
  s.cores.all (fun e => e.1 == c || (!e.2.buf.any (fun b => b.space == .peer c) &&
    e.2.gang.all (fun g => g.2.ops.all (fun op => op.open_.all (fun a => a.2.1 != .peer c)))))

/-- The loads of another core that were granted a share take their values (R210). -/
def serveLoads (s : State) (c o : Nat) : State :=
  s.modCore o (fun k => { k with gang := k.gang.map (fun g => (g.1, { g.2 with ops := g.2.ops.map (fun op =>
    { op with got := op.got ++ (op.open_.filter (fun a => a.2.1 == .peer c)).filterMap (fun a =>
        match tsLoad s o c (some (.fibre g.1 a.1)) (.peer c) a.2.2 (opAcc op.i).1 { cause := .memerr } with
        | .bytes bs => some (a.1, w64 (leNat bs))
        | _ => none) }) })) })

/-- What other cores have been granted of a share is done before the share passes to another motif (R210, R212). -/
def servePeers (s : State) (c : Nat) : State :=
  ((s.cores.map (·.1)).filter (· != c)).foldl (fun s o =>
    let s1 := serveLoads s c o
    ((s1.core o).buf.filter (fun b => b.space == .peer c)).foldl (fun s b =>
      (landStore s o b).modCore o (fun k => dropStore k b.id)) s1) s

/-- R335: the frame goes back to its context. -/
def freeFrame (s : State) (m : Motif) : State :=
  match m.frame, (s.launch? m.launch).bind (fun l => s.context? l.ctx) with
  | some f, some x => s.setContext { x with framesUsed := x.framesUsed.erase f }
  | _, _ => s

/-- A store of a motif that has been saved behind a transfer lands as its motif ends (R325). -/
def landSaved (s : State) (ctx : Nat) (b : BufStore) : State :=
  match b.space, ctxTrans s ctx b.addr with
  | .gm, some t => if t.loc = 2 || !t.w then s else mappedWrite s (t.pa b.addr) b.data
  | _, _ => s

/-- A motif is DONE or KILLED (R135): its local stores have landed or land now (R325), but for those to a port that is
down; its core, lease, claims, tiles and frame are free. -/
def endMotif (s : State) (m : Motif) (st : MotifSt) : State :=
  let s1 := match m.core with
    | none => ((m.saved.map (·.buf)).getD []).foldl (fun s b => landSaved s ((m.saved.map (·.ctx)).getD 0) b) s
    | some c =>
      let s1 := (s.core c).buf.foldl (fun s b =>
        if b.space = .gm && (b.tr.loc = 2 || cxlDown s (b.tr.pa b.addr)) then s else landStore s c b) s
      idleLease ((dropReqs (servePeers s1 c) c).modCore c freedCore) c
  freeFrame ((dropOps (dropTags s1 m.id) m.id).setMotif
    { m with st := st, core := none, saved := none, frame := none, pendingTrap := false }) m

/-- R135: a launch fails, and its remaining motifs are killed. -/
def failLaunch (s : State) (id code : Nat) : State :=
  match s.launch? id with
  | none => s
  | some l =>
    if l.isOver then s
    else
      let s1 := (s.motifs.filter (fun m => m.launch == id && m.st != .done && m.st != .killed)).foldl
        (fun s m => endMotif s m .killed) s
      setStatus s1 { l with reserved := [] } (.failed code)

/-- A motif is KILLED: its launch has failed with KILLED. -/
def killMotif (s : State) (m : Motif) : State :=
  let s1 := endMotif s m .killed
  failLaunch s1 m.launch 6

/-- MOTIF_DONE: SYS 0 has issued, everything the motif issued has completed, and so has what its peers were granted
of its share; the last motif ends the launch. -/
def execMotifDone (core : Nat) (s : State) : Out :=
  let k := s.core core
  match s.motifOn core with
  | none => .next s
  | some m =>
    if m.st = .running && k.ended && !k.frozen && enginesQuiet k && k.buf.isEmpty && !noticesOut s core &&
        k.gang.all (fun e => e.2.st == .free) && peersQuiet s core then
      let s1 := endMotif s m .done
      match s1.launch? m.launch with
      | none => .next s1
      | some l =>
        let l1 := { l with ended := l.ended + 1 }
        if l1.ended = l1.total then .next (setStatus s1 l1 .done) else .next (s1.setLaunch l1)
    else .next s

/-- R135, R146, R346: 2 ms have passed since the request, with no selvedge point reached, or with a command bound
in place still to complete; a trap has not stopped the motif (R348). -/
def preemptLate (s : State) (k : Core) (m : Motif) : Bool :=
  m.st == .preempting && !m.pendingTrap && elapsed s m.preemptAt 2000 &&
    (!k.selvedge || k.gang.any (fun e => e.2.st != .free && inPlace k e.1))

/-- PREEMPT_TIMEOUT: no selvedge point was reached in time (R346). -/
def execPreemptTimeout (core : Nat) (s : State) : Out :=
  match s.motifOn core with
  | some m => if preemptLate s (s.core core) m then .next (killMotif s m) else .next s
  | none => .next s

/-! ## Halts (R145, R332, R334) -/

/-- R145: a trap inside a routine that cannot be restarted. -/
def inplFault (k : Core) (r : FaultRec) : Bool :=
  r.trap.byLane && !r.trap.cause.debug && inPlace k r.trap.gang

/-- R223, R224: the lease term of a motif that halts ends; the state that it had is kept to be saved. -/
def haltLease (s : State) (c : Nat) (m : Motif) : State :=
  match leaseOf s c with
  | .idle => s
  | l => settleOf (setGiveUp (setLease (s.setMotif { m with lease := l, giveUp := giveUpOf s c }) c .idle) c none) c

/-- MOTIF_HALT: every agent has stopped, within its skid, and the motif's lease term ends. An UNPICK stops between
two entries; one whose own routine trapped stops where it stands (R318). -/
def execMotifHalt (core : Nat) (s : State) : Out :=
  let k := s.core core
  match s.motifOn core, k.halt with
  | some m, some r =>
    if m.st = .halting && (upkBetween k || k.seqStopped) then
      let s1 := if upkBetween k then upkLeave s core else s
      .next ((haltLease s1 core m).modCore core (fun k =>
        { k with
          seqStopped := true,
          upk := k.upk.map (fun u => { u with reread := true }),
          halt := some { r with trap := { r.trap with fatal := r.trap.fatal || inplFault k r } },
          gang := k.gang.map (fun e =>
            (e.1, if e.2.st = .running then { e.2 with st := .halted, stopped := true } else e.2)) }))
    else .next s
  | _, _ => .next s

/-! ## The fault record and the frame (R330, R338, R339) -/

def faultCtl (r : FaultRec) : Nat :=
  let t := r.trap
  t.info % 65536 * 2 ^ 48 + bitOf t.fatal * 2 ^ 41 + bitOf r.multi * 2 ^ 40 + bitOf t.async * 2 ^ 39 +
    t.depth % 4 * 2 ^ 37 + t.gang % 4 * 2 ^ 35 + t.lane % 32 * 2 ^ 30 + t.acc % 4 * 2 ^ 28 +
    t.tkind % 4 * 2 ^ 22 + t.tnum % 64 * 2 ^ 16 + t.slot % 16 * 2 ^ 12 + t.cause.code

def faultBytes (r : FaultRec) : List Byte :=
  le8 (faultCtl r) ++ le8 (va57 r.trap.baddr) ++ le8 r.trap.faddr ++ le8 (va57 r.trap.fpc) ++
    le8 r.trap.w0.toNat ++ le8 r.trap.w1.toNat ++ le8 r.time ++ le8 r.mpos.toNat

/-- GHDR (R339). -/
def ghdr (x : Gang) : Nat :=
  (match x.st with
   | .free => 0
   | .running | .halted => 1
   | .draining => 2) * 2 ^ 62 + bitOf x.cmd.isSome * 2 ^ 61 +
    bitOf ((x.cmd.map (·.entry.inpl)).getD false) * 2 ^ 60 + x.depth % 4 * 2 ^ 58 + x.gpri % 4 * 2 ^ 56 +
    x.bound % 512 * 2 ^ 47 + x.res % 512 * 2 ^ 38 + x.skid % 32 * 2 ^ 33 + bitOf x.restart * 2 ^ 32

def fibreWord (f : Fibre) : Nat :=
  f.k.toNat + (match f.st with
    | .ready | .stalled => 0
    | .waiting => 1
    | .ended => 2) * 2 ^ 8 + bitOf (f.arrived != .no) * 2 ^ 10

/-- A gang's header, command, fibre table of 32 lanes and registers go to its context slot (R339). -/
def saveGang (s : State) (fr c g : Nat) : State :=
  let x := (s.core c).gangAt g
  let a := gangFrame fr g
  let cmd := x.cmd.getD default
  let s1 := physWrite s a (le8 (ghdr x) ++ le8 cmd.w0.toNat ++ le8 cmd.w1.toNat ++ le8 cmd.sa.toNat)
  let s2 := allLanes.foldl (fun s l =>
    physWrite s (a + 0x100 + 16 * l) (le8 (x.fibre l).pc ++ le8 (fibreWord (x.fibre l)))) s1
  x.fibres.foldl (fun s e =>
    (List.range x.bound).foldl (fun s r =>
      physWrite s (a + 0x1000 + 128 * r + 4 * e.1) (leBytes 4 (x.reg e.1 r).toNat)) s) s2

/-- R341: each gang's quarter of the share. -/
def quarter (share g : Nat) : Nat × Nat :=
  let q := (share + 255) / 256 * 64
  (g * q, (if (g + 1) * q < share then (g + 1) * q else share) - g * q)

def saveQuarter (s : State) (fr c g : Nat) : State :=
  let k := s.core c
  let (lo, n) := quarter k.share g
  physPaste s (gangFrame fr g + 0x9000) n (mslice k.ts lo n)
    ((k.tsPoison.filter (fun p => decide (lo / 64 ≤ p ∧ p < (lo + n + 63) / 64))).map (· - lo / 64))

def restoreQuarter (s : State) (fr c g : Nat) : State :=
  s.modCore c (fun k =>
    let (lo, n) := quarter k.share g
    let a := gangFrame fr g + 0x9000
    let bad := (s.poison.filter (fun l => decide (a / 64 ≤ l ∧ l < (a + n + 63) / 64))).map (· - a / 64)
    { k with ts := mpaste k.ts lo n (mslice s.mem a n),
             tsPoison := k.tsPoison.filter (fun p => !(decide (lo / 64 ≤ p ∧ p < (lo + n + 63) / 64))) ++
               bad.map (· + lo / 64) })

/-- R338: scalars, registers and pricking table. -/
def saveRegs (s : State) (fr c : Nat) : State :=
  let k := s.core c
  let s1 := physWrite s (fr + 0x80) (le8 k.bpc)
  let s2 := physWrite s1 (fr + 0x100) ((List.range 32).flatMap (fun r => le8 (k.sAt r).toNat))
  let s3 := physWrite s2 (fr + frameRegs) ((List.range 0x300).flatMap (fun n => le8 (cfgRead s c n).toNat))
  physWrite s3 (fr + framePrick) ((List.range 128).flatMap (fun n =>
    (prickImage (k.prickAt n)).flatMap (fun w => le8 w.toNat)))

/-! ## Swap-out (R340) -/

/-- The buffered stores that must follow what remains of a transfer or of a fetch, one after another: they land after
it, and so after the motif has come back (R266, R268, R340). -/
def behindEngines (k : Core) : List Nat :=
  k.buf.foldl (fun ids b =>
    if b.deps.any (fun d => ids.contains d || k.kcmds.any (·.id == d) || k.mcmds.any (fun m => m.id == d && !m.fetched))
      then ids ++ [b.id] else ids) []

/-- R290: every access of the motif's agents has landed, but for what stands behind a transfer, and no peer's access is
on its way to its share. Transfers stop at a piece boundary (R333). -/
def allLanded (s : State) (c : Nat) : Bool :=
  let k := s.core c
  k.buf.all (fun b => (behindEngines k).contains b.id) && k.notices.all (fun n => !clearOf k n.2.2.2) &&
  !s.requests.any (fun r => r.who.core == some c) &&
  !k.reply.any (fun r => match r.1 with
    | .piece _ _ _ => true
    | _ => false) &&
  k.mcmds.all (fun m => !m.accepted) && k.mzeroAt.isEmpty &&
  k.gang.all (fun e => e.2.ops.all (fun op => match op.i with
    | .lwait _ _ _ _ _ _ _ | .lfence _ _ _ _ => true
    | _ => false)) && peersQuiet s c

/-- Whether the motif on a core may be saved now. -/
def maySwap (s : State) (c : Nat) (m : Motif) : Bool :=
  let k := s.core c
  !k.frozen && allLanded s c &&
  (match m.st with
   | .halting => k.seqStopped && k.gang.all (fun e => e.2.st != .running)
   | .preempting => m.pendingTrap ||
       (k.selvedge && k.gang.all (fun e => e.2.st == .free || !inPlace k e.1))
   | _ => false)

/-- R145, R146, R333, R334: the gangs whose commands are abandoned and dispatched again. -/
def abandoned (k : Core) (m : Motif) : List Nat :=
  match k.halt with
  | some r => if r.trap.byLane && !r.trap.cause.debug then [rootGang k r.trap.gang] else []
  | none => if m.st = .preempting then
      (List.range 4).filter (fun g => (k.gangAt g).cmd.isSome && rootGang k g == g) else []

/-- A gang as it is saved: an LWAIT or LFENCE, and a TISSUE whose command has not issued, stand at their instruction,
and their waits begin again (R339). -/
def restGang (x : Gang) : Gang :=
  let y := (x.ops.foldl (fun y op => endOp y 0 op.pc op) x)
  let z := x.nested.foldl (fun y w => modFibres y w.lanes (fun f => { f with st := .ready })) y
  { z with ops := [], nested := [],
           fibres := z.fibres.map (fun e =>
             (e.1, if e.2.st = .stalled then { e.2 with st := .ready } else e.2)) }

/-- The motif's engines and gangs as they are saved (R333): what an abandoned command had started is
dropped, an MMAH not yet accepted starts again with its fetch (R240). -/
def settleCore (k : Core) (m : Motif) (lease : Nat) : Core :=
  let ab := abandoned k m
  let child := fun (g : Nat) => decide (rootGang k g ≠ g) && ab.contains (rootGang k g)
  let dead := fun (p : Option (Nat × List Nat)) => (p.map (fun x => ab.contains x.1 || child x.1)).getD false
  let gangs : Map Gang := k.gang.map (fun (e : Nat × Gang) =>
    (e.1, if child e.1 then Gang.empty
          else { restGang e.2 with restart := e.2.restart || ab.contains e.1 }))
  let kcmds := k.kcmds.filter (fun x => !dead x.parent)
  let mcmds := (k.mcmds.filter (fun x => !dead x.parent)).map (fun (x : MCmd) =>
    { x with landed := [], recs := [], fetched := (fetchSlots x.i).isEmpty, reissue := true,
             leaseBefore := lease, ran := 0 })
  { k with gang := gangs, kcmds := kcmds, mcmds := mcmds,
           tileCmd := k.tileCmd.filter (fun t => mcmds.any (·.id == t.2)) }

/-- The device-owned state of a motif off its core (R337): the rest lies in its frame. A WAITS is judged afresh
when the motif comes back, its timeout too (R86). -/
def snapshot (k : Core) (claims : W64) : Core :=
  { (k.setCfg rOPCLAIM claims) with
    waitsFrom := none, waitsDue := false, waitsOn := none, waitsHeld := false, ahead := [], vold := [], vcyc := 0, tiles := [], guard := [], ts := [], tsPoison := [], tags := [], refill := [],
    reply := [], trans := [], bcache := [], lcache := [], halt := none, skid := 0, seqStopped := false,
    debug := false, selvedge := false, weight := 0, plimNext := none }

/-- R343: pinned tiles are saved at the swap-out itself. -/
def savePinned (s : State) (fr c : Nat) (k : Core) : State × Core :=
  (List.range 8).foldl (fun (p : State × Core) t =>
    if shapePin (k.shape t) && needsSave p.2 t && !k.refill.contains t && !k.tags.any (·.1 == t) then
      writeTile p.1 fr p.2 (s.core c) t
    else p) (s, k)

/-- R343: the configured tiles that hold the motif's bytes are tagged with its frame. -/
def ownTiles (k : Core) : List Nat :=
  (List.range 8).filter (fun t =>
    shapeConf (k.shape t) && !k.refill.contains t && !k.tags.any (·.1 == t))

/-- R228: the motif's slots become the youngest parked ones. -/
def parkOps (s : State) (c id : Nat) : State :=
  s.modCluster (clusterOf c) (fun x =>
    { x with slots := x.slots.filter (·.motif != id) ++ x.slots.filter (·.motif == id) })

/-- R336: entries are appended while the ring has room; the others stay held. -/
def appendEntries (s : State) (x : Context) : List W64 → State
  | [] => s.setContext { x with held := [] }
  | e :: rest =>
    let size := 2 ^ (x.fringN + 4)
    let cons := leNat (physRead s (x.fring + 8) 4)
    let past := (cons + 2 ^ 32 - x.prod % 2 ^ 32) % 2 ^ 32
    let used := if 1 ≤ past ∧ past ≤ 2 ^ 31 - 1 then 0 else (x.prod + 2 ^ 32 - cons) % 2 ^ 32
    if size ≤ used then s.setContext { x with held := e :: rest }
    else
      let q := (x.prod + 1) % 2 ^ 32
      let s1 := physWrite s (x.fring + 64 + 8 * ((q + 2 ^ 32 - 1) % 2 ^ 32 % size)) (leBytes 8 (e.toNat + q))
      let s2 := physWrite s1 x.fring (le8 q)
      appendEntries { s2 with msix := s2.msix ++ [(x.fn, 2)] } { x with prod := q } rest

/-- R335: a motif enters FAULTED: its entry goes to the context's fault ring. -/
def faultEntry (s : State) (m : Motif) (cause : Nat) : State :=
  match (s.launch? m.launch).bind (fun l => s.context? l.ctx) with
  | none => s
  | some x =>
    let e := w64 (x.num % 65536 * 2 ^ 48 + cause * 2 ^ 40 + m.frame.getD 0 % 256 * 2 ^ 32)
    appendEntries s x (x.held ++ [e])

/-- FAULT_RING_RETRY: CONS is read again. -/
def execFaultRingRetry (ctx : Nat) (s : State) : Out :=
  match s.context? ctx with
  | none => .next s
  | some x => .next (appendEntries s x x.held)

/-- R145: the output ports of the commands that are abandoned become undefined. -/
def openOutputs (s : State) (c : Nat) (m : Motif) : State :=
  let outs := fun (g : Nat) => ((((s.core c).gangAt g).cmd.map (·.ports)).getD []).filter (·.out)
  ((abandoned (s.core c) m).flatMap outs).foldl (fun s p => openTs s c p.base p.size) s

/-- R344: the area of a tile that has not been saved is undefined. -/
def openTiles (s : State) (fr : Nat) (saved : List Nat) : State :=
  ((List.range 8).filter (fun t => !saved.contains t)).foldl (fun s t => openMem s (tileFrame fr t) 0x14000) s

/-- The motif's state goes to its frame, and the core is free (R340). -/
def saveMotif (s : State) (c : Nat) (m : Motif) (fr : Nat) : State :=
  let lease := if m.st = .halting then m.lease else leaseOf s c
  let giveUp := if m.st = .halting then m.giveUp else giveUpOf s c
  let claims := opclaim s c
  let r := (s.core c).halt
  let s0 := (openOutputs s c m).modCore c (fun k => settleCore k m (leaseCode lease))
  let k := s0.core c
  let s1 := saveRegs s0 fr c
  let s2 := (List.range 4).foldl (fun s g => saveQuarter (saveGang s fr c g) fr c g) s1
  let s3 := match r with
    | some r => physWrite s2 fr (faultBytes r)
    | none => s2
  let s4 := physWrite s3 (fr + 0x48)
    (le8 (k.skid % 4 + bitOf m.pendingTrap * 4 + bitOf (r.isSome && k.debug) * 8))
  let (s5a, own) := savePinned s4 fr c k
  let s5 := openTiles s5a fr own.saved
  let tags := (ownTiles k).map (fun t => (t, m.id))
  let s6 := parkOps (s5.modCore c (fun k => freedCore { k with tags := k.tags ++ tags })) c m.id
  let st := if m.st = .halting then MotifSt.faulted else .swapped
  (idleLease s6 c).setMotif
    { m with st := st, core := none, saved := some (snapshot own claims), lease := lease,
             giveUp := giveUp, fault := if r.isSome then r else m.fault }

/-- R381: a swap-out for a pre-emption is a synchronising point: the trap of the first agent with a failed store,
the sequencer's before a fibre's. -/
def swapFailure (s : State) (c : Nat) (m : Motif) : Option Trap :=
  let k := s.core c
  if m.st != .preempting || m.pendingTrap then none
  else
    let lanes := (List.range 4).flatMap (fun g => allLanes.map (fun l => (g, l)))
    (failureTrap k .seq { cause := .fabric, baddr := va57 k.bpc }).orElse (fun _ =>
      lanes.findSome? (fun q =>
        failureTrap k (.fibre q.1 q.2) (laneTrap k q.1 q.2 ((k.gangAt q.1).fibre q.2).pc 0)))

/-- SWAP_OUT. -/
def execSwapOut (core : Nat) (s : State) : Out :=
  match s.motifOn core with
  | none => .next s
  | some m =>
    match frameOf s m with
    | none => .next s
    | some fr =>
      if !maySwap s core m then .next s
      else match swapFailure s core m with
      | some t => .next (raiseTrap s core t)
      | none =>
        let s1 := saveMotif s core m fr
        match s1.motif? m.id with
        | none => .next s1
        | some m1 =>
          if m1.st = .faulted then
            let t := (m1.fault.map (·.trap)).getD { cause := .illegal }
            let s2 := faultEntry s1 m1 t.cause.code
            .next (if t.fatal then killMotif s2 m1 else s2)
          else .next s1

/-! ## Re-entry (R342) -/

/-- The fields that each register of the motif's context holds. -/
def ctxMask (n : Nat) : W64 :=
  if n = rFSTAT then 0x3F
  else if n = rSRSTATE then 0xFFFFFFFFFFFFFFFF
  else if n = rSARG then 0xFFFF
  else if n = rMSTAT then 1
  else if 0x010 ≤ n ∧ n ≤ 0x017 then 0xFFFC00
  else if 0x020 ≤ n ∧ n ≤ 0x03F then 0xFFFFFFFF800FFFC0
  else if n = rMFMT then 0x8FFF
  else if n = rLSTAT then 0xFFFFF80000000000
  else if n = rLPASS then 0x0001FFFFFFFFFFFF
  else if n = rLBEG then 0x01FFFFFFFFFFFFFE
  else if 0x100 ≤ n ∧ n < 0x120 ∧ n % 8 = 0 then 0xFFFFFFFF00FFF801
  else if 0x100 ≤ n ∧ n < 0x120 ∧ n % 8 = 1 then 0x01FFFFFFFFFFFFFF
  else if 0x100 ≤ n ∧ n < 0x120 ∧ n % 8 = 2 then 0xFFFFFFFF
  else if n = rMONSTAT then 0xFF
  else if n = rLOGP then 0x01FFFFFFFFFFFFC0
  else if n = rLOGSTAT then 0xC1FFFFFFFFFFFFC0
  else if n = rFERR then 0xFFFC000000000000
  else if n = rFERRA then 0x01FFFFFFFFFFFFFF
  else cfgMask n

/-- R338: registers that re-entry takes from their own sources. -/
def notCtx (n : Nat) : Bool :=
  n == rDEVID || n == rFABID || n == rBOOTWHY || (0x060 ≤ n && n ≤ 0x068) || (0x070 ≤ n && n ≤ 0x073) ||
  n == rPOOLB || n == rMMCTL || n == rPLIM || n == rMLST || n == rOPCLAIM || n == rOHSTAT || n == rHACC

/-- R357: the pricking table of the frame. An entry that the driver has rewritten is checked as a BIND of the
motif. -/
def loadPrick (s : State) (fr : Nat) (k : Core) : Core :=
  (List.range 128).foldl (fun k n =>
    let ws := (List.range 4).map (fun i => w64 (leNat (physRead s (fr + framePrick + 32 * n + 8 * i) 8)))
    if ws = prickImage (k.prickAt n) then k else { k with prick := mset k.prick n (checkedEntry k.priv n ws) }) k

/-- Scalars, registers and BPC of the frame. The BPC word is checked before anything issues (R359). -/
def loadRegs (s : State) (fr : Nat) (k : Core) : Core :=
  let k1 := (List.range 32).foldl (fun k r => k.setS r (w64 (leNat (physRead s (fr + 0x100 + 8 * r) 8)))) k
  let k2 := ((List.range 0x300).filter (fun n => !notCtx n)).foldl (fun k n =>
    let v := w64 (leNat (physRead s (fr + frameRegs + 8 * n) 8)) &&& ctxMask n
    k.setCfg n (if n = rSRSTATE ∧ v = 0 then 1 else v)) k1
  { loadPrick s fr k2 with bpc := leNat (physRead s (fr + 0x80) 8) }

/-- R359: what a BPC word that the driver has written comes to. A re-entry with a trap pending leaves the comparison to
the next one (R348). -/
def entryTrap (own k : Core) : Option Trap :=
  if k.bpc % 2 = 1 ∨ 2 ^ 57 ≤ k.bpc then
    some { cause := .ialign, slot := 6, baddr := va57 k.bpc, faddr := va57 k.bpc }
  else if lsRun own.lstat && k.bpc != own.bpcRef.getD own.bpc then some { cause := .loopctl, slot := 0, baddr := k.bpc }
  else none

/-- R357: a command that is dispatched again takes its routine from the entry as it now stands, with its saved
descriptors: a port keeps its slot where the entry uses it as before. An adjoint routine is that of its AENT image
(R315). -/
def renewCmd (k : Core) (x : SCmd) : SCmd :=
  let p := if x.unpick then x.entry else k.prickAt x.opc
  let ds := [fld x.w0 16 16, fld x.w0 32 16, fld x.w0 48 16]
  let old := x.ports.zip x.slots
  let ps := (portsOf k p ds).zipIdx.map (fun n =>
    if hasBit p.use n.2 == hasBit x.entry.use n.2 && hasBit p.outp n.2 == hasBit x.entry.outp n.2
      then old.getD n.2 n.1 else n.1)
  { x with entry := p, outs := outRings p ds, ins := inRings p ds,
           ports := ps.map (·.1) ++ x.ports.drop 3, slots := ps.map (·.2) ++ x.slots.drop 3,
           lib := if p.kind = 1 then x.lib else none }

/-- R357: why a command is not dispatched again. -/
def renewTrap (k : Core) (x : SCmd) : Option Trap :=
  let p := if x.unpick then x.entry else k.prickAt x.opc
  let t : Trap := { cause := .unbound, slot := slotCode (opcClass x.opc), baddr := x.baddr, w0 := x.w0, w1 := x.w1 }
  if p.kind = 0 || (p.kind = 1 && x.lib.isNone) then some t
  else if !descsLegal p [fld x.w0 16 16, fld x.w0 32 16, fld x.w0 48 16] then some { t with cause := .illegal }
  else none

/-- A gang comes back with the program counters, predicate words and registers of its frame; a
command that is dispatched again starts from its entry (R145, R146), or traps (R357). The low three bits of a program
counter that the driver has written are taken as zero, as in every lane word's address (DESIGN CHOICE, log entry
92). -/
def loadGang (s : State) (fr c g : Nat) : State :=
  let x := (s.core c).gangAt g
  let a := gangFrame fr g
  match x.restart, x.cmd with
  | true, some cmd =>
    (match renewTrap (s.core c) cmd with
     | some t => raiseTrap (modGang s c g (fun y => { y with st := .halted, stopped := true })) c t
     | none =>
       modGang (startGang s c g x.depth (renewCmd (s.core c) cmd)) c g (fun y =>
         { y with pend := x.pend.filter (fun q => decide (q % 256 < y.bound)) }))
  | _, _ =>
    if x.st = .free then s
    else
      let fib := x.fibres.map (fun e =>
        (e.1, { e.2 with pc := va57 (leNat (physRead s (a + 0x100 + 16 * e.1) 8)) / 8 * 8,
                         k := BitVec.ofNat 8 (leNat (physRead s (a + 0x108 + 16 * e.1) 1)) ||| 1 }))
      let regs := fib.flatMap (fun e => (List.range x.bound).map (fun r =>
        (regKey e.1 r, w32 (leNat (physRead s (a + 0x1000 + 128 * r + 4 * e.1) 4)))))
      modGang s c g (fun x => { x with
        fibres := fib, regs := regs, skid := 0, stopped := false,
        st := if x.st = .halted then .running else x.st })

/-- R413: the pool base of the object whose code range holds an address. -/
def poolBase (s : State) (x : Context) (entry : Nat) : W64 :=
  let word := fun (i n : Nat) => gf (w64 (leNat (physRead s (x.objtab + 32 * i + 8 * n) 8))) 0 57
  match (List.range 256).find? (fun i => decide (word i 0 ≤ entry ∧ entry < word i 1)) with
  | none => 0
  | some i => w64 (word i 2 / 32 * 32)

/-- R134, R327, R413: what placement loads. -/
def placeRegs (s : State) (k : Core) (c : Nat) (x : Context) (l : Launch) (m : Motif) : Core :=
  let k1 := (List.range 8).foldl (fun k n => k.setCfg (rLIDX + n) (w64 (m.lidx.getD n 0))) k
  let k2 := k1.setCfg rMPOS (w64 (m.index % 2 ^ 32 * 2 ^ 32 + s.dev % 1024 * 2 ^ 16 + c % 256))
  (k2.setCfg rMMCTL (if x.fstr then 1 else 0)).setCfg rPOOLB
    (poolBase s x (gf (l.recd.getD 1 0) 0 57))

/-- R343: tiles that another core still holds for the motif are saved there first. -/
def recallTiles (s : State) (c id : Nat) : State :=
  (s.cores.filter (fun e => e.1 != c)).foldl (fun s e =>
    (e.2.tags.filter (·.2 == id)).foldl (fun s t => evictTile s e.1 t.1) s) s

/-- R228: slots parked in another cluster go to the frame; what is not here comes from it. -/
def recallOps (s : State) (fr c id : Nat) (claims : W64) : State :=
  let n := clusterOf c
  let s1 := (s.clusters.filter (fun e => e.1 != n)).foldl (fun s e =>
    let o := e.2.ops id
    let s2 := o.claimed.foldl (fun s l => saveSlot s fr o l) s
    s2.modCluster e.1 (fun x => { x with slots := x.slots.filter (·.motif != id) })) s
  let here := ((s1.cluster n).ops id).claimed
  let want := (List.range 64).filter (fun l => claims.getLsbD l && !here.contains l)
  let s2 := makeRoom n want.length 256 s1
  want.foldl (fun s l =>
    let a := fr + frameOps + l * 16384
    let bad := (s.poison.filter (fun p => decide (a / 64 ≤ p ∧ p < a / 64 + 256))).map
      (fun p => l * 256 + (p - a / 64))
    s.modCluster n (fun x =>
      let o := x.ops id
      let o1 : OpSlots := { o with claimed := insertAsc l o.claimed,
                                   bytes := mpaste o.bytes (l * 16384) 16384 (mslice s.mem a 16384),
                                   poison := o.poison ++ bad }
      { x with slots := x.slots.filter (·.motif != id) ++ [o1] })) s2

/-- The stores of a motif that were saved behind a transfer are translated anew, and one to a peer goes to the core of
that place in the cluster (log entry 92); what stops one is a trap of its own, as on a transfer. -/
def renewStores (s : State) (c : Nat) (quiet : Bool) : State :=
  (s.core c).buf.foldl (fun s b =>
    let put := fun (s : State) (b : BufStore) => s.modCore c (fun k =>
      { k with buf := k.buf.map (fun x => if x.id = b.id then b else x) })
    match b.space with
    | .gm =>
      (match xlate s c b.addr .write with
       | .ok t => put s { b with tr := t }
       | .error cause =>
         if quiet || (s.core c).halt.isSome then s
         else raiseTrap s c { cause := cause, faddr := b.addr, acc := 1, async := true, baddr := va57 (s.core c).bpc })
    | .peer o => put s { b with space := .peer (4 * clusterOf c + o % 4) }
    | _ => s) s

/-- The motif's state is back on a core (R342). -/
def restoreMotif (s : State) (c : Nat) (m : Motif) (x : Context) (l : Launch) (fr : Nat) (own : Core) :
    State :=
  let s1 := recallTiles s c m.id
  let own1 := ((s1.motif? m.id).bind (·.saved)).getD own
  let k0 := s1.core c
  let mine := (k0.tags.filter (·.2 == m.id)).map (·.1)
  let k1 := placeRegs s1 (loadRegs s1 fr (own1.setCfg rOPCLAIM 0)) c x l m
  let k2 := { (k1.setCfg rPLIM (k0.cfgAt rPLIM)) with
    motif := some m.id, ctx := l.ctx, tiles := k0.tiles, guard := k0.guard,
    tags := k0.tags.filter (·.2 != m.id),
    refill := (List.range 8).filter (fun t => shapeConf (k1.shape t) && !mine.contains t),
    bpcRef := if m.pendingTrap then some (own1.bpcRef.getD own1.bpc) else none,
    nextId := if own1.nextId < k0.nextId then k0.nextId else own1.nextId,
    first := own1.kcmds.map (·.id), trans := k0.trans, frozen := k0.frozen, frozenCh := k0.frozenCh,
    credit := k0.credit, cycles := k0.cycles, weight := k0.weight, vcyc := k0.vcyc, sfuLast := k0.sfuLast,
    lsuLast := k0.lsuLast, plimNext := k0.plimNext, refilled := k0.refilled }
  let s2 := (recallOps (s1.setCore c k2) fr c m.id (own1.cfgAt rOPCLAIM)).setMotif
    { m with core := some c, saved := none, ranOn := c :: m.ranOn, placedAt := s.time,
             st := if m.pendingTrap then .halting else .running, pendingTrap := false, lease := .idle,
             giveUp := none }
  let s3 := (List.range 4).foldl (fun s g => loadGang (restoreQuarter s fr c g) fr c g)
    (renewStores (match entryTrap own1 k2 with
     | some t => if m.pendingTrap then s2 else raiseTrap s2 c t
     | none => s2) c m.pendingTrap)
  let s4 := bringTiles s3 c ((List.range 8).filter (fun t => shapePin (k1.shape t)))
  let s5 := s4.modCore c (fun k =>
    if m.pendingTrap then
      { k with halt := m.fault, debug := ((m.fault.map (·.trap.cause.debug)).getD false), seqStopped := true,
               gang := k.gang.map (fun e => (e.1, { e.2 with stopped := true })) }
    else k)
  let s6 := if m.lease = .idle then s5 else setGiveUp (requestLease s5 c) c m.giveUp
  if (own1.mcmds.any (·.reissue)) && m.lease = .idle then requestLease s6 c else settleOf s6 c

/-! ## Tiles (R343) -/

/-- TILE_REFILL: a tile of the motif comes back from the frame. Another motif's bytes stay in the tile until the motif
touches it (`bringTile`, R343). -/
def execTileRefill (core tile : Nat) (s : State) : Out :=
  .next (if decide (8 ≤ tile) || (s.core core).tags.any (·.1 == tile) then s else refillTile s core tile)

end Sys2Proof.Machine
end

