-- ==== Sys2Proof/Machine/Distributor.lean ====
section
/-! DEFINITION. The distributor: acceptance of launch records (R126 to R131), placement and re-entry
in order of class (R132 to R134, R342), pre-emption requests (R133), work of other devices (R450), and
the capture of a host queue (R438). -/
namespace Sys2Proof.Machine

/-! ## The distributor's reads -/

def putDistReply (s : State) (who : ReqFor) (st : Nat) (bs : List Byte) : State :=
  { s with distReply := (who, st, bs) :: s.distReply.filter (fun r => r.1 != who) }

/-- A read in a context by the distributor: bytes, no bytes, or a remote line that is still to come. -/
inductive DRd where
  | bytes (bs : List Byte)
  | bad
  | wait (s : State)

/-- One line part of such a read. -/
def distPart (s : State) (ctx : Nat) (who : ReqFor) (va n : Nat) : DRd :=
  match ctxTrans s ctx va with
  | none => .bad
  | some t =>
    if !t.r then .bad
    else if t.loc = 2 then
      match s.distReply.find? (fun r => r.1 == who) with
      | some (_, 0, bs) => .bytes bs
      | some _ => .bad
      | none =>
        let (s1, ok) := postReq s who 0 t.tdev (t.pa va) va n [] 0 0
        if ok then .wait s1 else .bad
    else if cxlDown s (t.pa va) || gmPoisoned s (t.pa va) n then .bad
    else .bytes (mappedRead s t (t.pa va) n)

/-- A read of several lines; `id` is the launch that it serves. -/
def distRead (s : State) (ctx id : Nat) : Nat → List (Nat × Nat) → DRd
  | _, [] => .bytes []
  | q, (va, n) :: rest =>
    match distPart s ctx (.dist id q) va n with
    | .bytes bs =>
      (match distRead s ctx id (q + 1) rest with
       | .bytes bs' => .bytes (bs ++ bs')
       | r => r)
    | r => r

def wordsOf (bs : List Byte) : List W64 := (List.range (bs.length / 8)).map (word8 bs)

/-! ## Levels (R127, R128) -/

def recDomain (ls : List Lvl) (d : Nat) : Option Lvl := ls.find? (fun l => l.domain == d)

/-- The level of the cores. -/
def coreLvl (ls : List Lvl) : Nat := (ls.findIdx? (fun l => l.domain == 4)).getD 0

def rising : List Nat → Bool
  | a :: b :: rest => decide (a < b) && rising (b :: rest)
  | _ => true

/-- The rules of R127 for one level: `outer` is the domain of the enclosing level, `inner` the levels
between it and the cores. -/
def lvlOk (l : Lvl) (outer : Nat) (inner : List Lvl) : Bool :=
  decide (1 ≤ l.extent) && (l.domain != 5 || decide (l.extent ≤ 4)) &&
  (l.domain != 6 || decide (l.extent ≤ 32)) && (l.domain != 7 || l.extent == 1) &&
  (if l.domain < 4 then
    decide (l.scope ≤ l.domain ∧ outer ≤ l.scope) && l.size == 0 && (!l.co || inner.all (·.co))
   else
    l.scope == 4 && !l.co &&
    (l.domain != 4 || decide (1 ≤ l.size ∧ l.size ≤ 16384)) &&
    (l.domain == 4 || l.domain == 7 || l.size == 0))

/-- R127: the rules of the levels. -/
def levelsOk (ls : List Lvl) : Bool :=
  let ci := coreLvl ls
  rising (ls.map (·.domain)) && (ls.filter (·.domain == 4)).length == 1 &&
  (ls.zipIdx).all (fun x =>
    lvlOk x.1 (if x.2 = 0 then 0 else (ls.getD (x.2 - 1) default).domain) ((ls.take ci).drop (x.2 + 1))) &&
  decide (((recDomain ls 7).map (·.size)).getD 0 * ((recDomain ls 5).map (·.extent)).getD 1 ≤
    ((recDomain ls 4).map (·.size)).getD 0)

/-- R134: the extents of the levels down to the cores. -/
def coreExts (ls : List Lvl) : List Nat := (ls.take (coreLvl ls + 1)).map (·.extent)

/-- R134: the indices of a linear index, the outermost level most significant. -/
def lidxOf : List Nat → Nat → List Nat
  | [], _ => []
  | _ :: rest, j => let p := prodOf rest; j / p :: lidxOf rest (j % p)

/-- R11, R20: the cores in service of an instance of a domain. -/
def coresIn (s : State) (d : Nat) : Nat :=
  let dev := ((List.range 4).filter (hasBit s.dieMask)).length * 64
  match d with
  | 0 => dev * (s.gszm1 + 1)
  | 1 => dev
  | 2 => 64
  | _ => 4

def devLvl (ls : List Lvl) : Option Nat := ls.findIdx? (fun l => l.domain == 1)

/-- R128, R363, R427: a launch that can never fit. -/
def noFit (s : State) (ls : List Lvl) : Bool :=
  s.dieMask == 0 ||
  (match recDomain ls 1 with
   | none => false
   | some l => (decide (1 < l.extent) && !s.fabUp) || (l.co && decide (s.gszm1 + 1 < l.extent))) ||
  ((ls.take (coreLvl ls)).zipIdx).any (fun x =>
    x.1.co && decide (coresIn s x.1.domain < prodOf ((coreExts ls).drop (x.2 + 1))))

/-! ## Tokens (R129, R131) -/

/-- R131: whether a token names a launch, as it stands when the dependent record is accepted. -/
def tokenNames (s : State) (own tok : W64) : Bool :=
  let dev := gf tok 54 10
  let q := gf tok 48 6
  let n := gf tok 0 48
  if tok = own then false
  else if dev = s.dev then
    (if q = 63 then decide (1 ≤ n ∧ n ≤ s.devSeq)
     else match s.queues.find? (fun x => x.q == q && x.alive) with
       | some x => decide (1 ≤ n ∧ n ≤ x.seq)
       | none => false)
  else s.fabUp && decide (dev ≤ s.gszm1 ∧ 1 ≤ n)

/-- R129: not complete, done, or failed. -/
def tokenState (s : State) (tok : W64) : Option Bool :=
  if gf tok 54 10 = s.dev then
    match (s.launches.reverse).find? (fun l => l.token == tok && l.home.isNone) with
    | some l =>
      (match l.st with
       | .done => some true
       | .failed _ => some false
       | _ => none)
    | none => none
  else (s.remoteDone.find? (fun r => r.1 == tok)).map (fun r => r.2 == 1)

/-! ## Acceptance (R126, R127, R130) -/

def recNargs (r : List W64) : Nat := gf (r.getD 0 0) 52 6
def recEntry (r : List W64) : W64 := r.getD 1 0
/-- ARGS: the spec gives no check of bits [63:57]; they are ignored (DESIGN CHOICE, log entry 85). -/
def recArgs (r : List W64) : Nat := gf (r.getD 2 0) 0 57

/-- R130: the code of the first rule that a record breaks; a record of a context that is being destroyed fails with
KILLED (R434). -/
def recCode (s : State) (fn : Nat) (mayPriv : Bool) (r : List W64) : Option Nat :=
  let ctl := r.getD 0 0
  let ctx := r.getD 4 0
  let ls := levelsOf r
  if decide (32 < recNargs r) || gf ctl 0 52 != 0 ||
      (recNargs r != 0 && ((r.getD 2 0).toNat % 8 != 0)) then some 7
  else if gf ctx 16 48 != 0 || !s.contexts.any (fun x => x.num == gf ctx 0 16 && x.fn == fn) then some 8
  else if (recEntry r).getLsbD 0 || gf (recEntry r) 57 7 != 0 then some 3
  else if ctl.getLsbD 58 && !mayPriv then some 4
  else if !levelsOk ls then some 1
  else if noFit s ls then some 2
  else if (s.context? (gf ctx 0 16)).any (·.dying) then some 6
  else none

/-- A launch enters the distributor with its token (R126, R129). `ctx` is the launcher's context, in which the record
of a LAUNCH lies. -/
def newLaunch (s : State) (tok : W64) (q slot addr : Nat) (virt : Bool) (ctx fn : Nat) (r : List W64)
    (extra : W64) (mayPriv : Bool) (unread : Bool) (rep : W64 := 0) : State :=
  let deps := ([r.getD 5 0, extra]).filter (· != 0)
  let l : Launch :=
    { id := s.nextLaunch, token := tok, queue := q, slot := slot, addr := addr, virt := virt, vctx := ctx,
      ctx := if virt then ctx else gf (r.getD 4 0) 0 16, fn := fn, recd := r, deps := deps,
      bad := deps.any (fun d => !tokenNames s tok d), args := [], st := .waiting, eligAt := 0,
      boost := 0, total := prodOf (coreExts (levelsOf r)), placed := 0, ended := 0, ranOn := [],
      home := none, replayOf := rep, reserved := [], devices := [], far := [] }
  let s1 := { s with nextLaunch := s.nextLaunch + 1, launches := s.launches ++ [l] }
  if unread then setStatus s1 l (.failed 9)
  else
    let s2 := recWrite (recWrite s1 l 0x38 tok) l 0x30 0
    match recCode s fn mayPriv r with
    | some code => setStatus s2 l (.failed code)
    | none =>
      let l1 := { l with ctx := gf (r.getD 4 0) 0 16 }
      if l.bad then setStatus s2 l1 (.failed 5) else s2.setLaunch l1

/-! ## Capture (R437, R438) -/

def capOn (s : State) : Bool := s.capctl.getLsbD 63 && gf s.capstat 0 16 == 0
def capQueue (s : State) : Nat := gf s.capctl 56 6
def capArea (s : State) : Nat := gf s.capctl 16 36 * 65536
def capRanges (s : State) : List (Nat × Nat) :=
  (List.range (gf s.capctl 0 16)).map (fun i =>
    (gf (w64 (leNat (physRead s (capArea s + 16 * i) 8))) 0 57, leNat (physRead s (capArea s + 16 * i + 8) 8)))

/-- Bytes are appended to the area; a full area stops the capture (CAPFULL). -/
def capAppend (s : State) (bs : List Byte) : State :=
  let used := gf s.capstat 16 48
  let at0 := capArea s + 16 * gf s.capctl 0 16 + used
  if !inCxl s at0 bs.length then { s with capstat := sf s.capstat 0 16 1, capctl := sf s.capctl 63 1 0 }
  else { mappedWrite s at0 bs with capstat := sf s.capstat 16 48 (used + bs.length) }

/-- A virtual range in the parts of its 64-byte lines. -/
def linesOf (va n : Nat) : List (Nat × Nat) :=
  let h := if n < 64 - va % 64 then n else 64 - va % 64
  if n = 0 then []
  else (va, h) :: (List.range ((n - h + 63) / 64)).map (fun i =>
    (va57 (va + h + 64 * i), if n - h - 64 * i < 64 then n - h - 64 * i else 64))

/-- Bytes of virtual ranges as the capture reads them, line by line; of another device they are asked for, and none come
until it has answered. What has no translation is a free value. -/
def capRead (ctx id : Nat) : Nat → List (Nat × Nat) → State → Option (List Byte) × State
  | _, [], s => (some [], s)
  | q, (va, n) :: rest, s =>
    match distPart s ctx (.dist id q) va n with
    | .wait s1 => (none, s1)
    | .bytes bs => let r := capRead ctx id (q + 1) rest s; (r.1.map (bs ++ ·), r.2)
    | .bad => let f := freeBytes s n; let r := capRead ctx id (q + 1) rest f.2; (r.1.map (f.1 ++ ·), r.2)

/-- The ranges that go with a record: its argument words and every input range. -/
def capParts (s : State) (r : List W64) : List (Nat × Nat) := (recArgs r, 8 * recNargs r) :: capRanges s

/-- What is captured of a record: the record with the TOKEN and STATUS of its acceptance (log entry 37), and the ranges
that go with it. -/
def capRecord (s : State) (tok : W64) (r : List W64) : Option (List Byte) × State :=
  let p := capRead (gf (r.getD 4 0) 0 16) s.nextLaunch (2 ^ 21)
    ((capParts s r).flatMap (fun x => linesOf x.1 x.2)) s
  (p.1.map (((r.set 6 0).set 7 tok).flatMap (fun w => le8 w.toNat) ++ ·), p.2)

/-- A placement or re-entry of a captured queue's launch. -/
def capPlace (s : State) (l : Launch) (m : Motif) (c : Nat) : State :=
  if capOn s && l.queue == capQueue s && l.home.isNone then
    capAppend s (le8 l.token.toNat ++
      le8 (m.index % 2 ^ 32 * 2 ^ 32 + s.dev % 1024 * 2 ^ 16 + c) ++ le8 s.time)
  else s

/-- Where the captured bytes begin. -/
def capBase (s : State) : Nat := capArea s + 16 * gf s.capctl 0 16

/-- The entries of the area from an offset: records (true), and placement entries, whose first word is a TOKEN with its
SEQ. They end at the bytes used or, where a start has cleared CAPSTAT, at the first words that make no entry (log
entry 37). -/
def capParse (s : State) : Nat → Nat → List (Bool × Nat)
  | 0, _ => []
  | f + 1, off =>
    let used := gf s.capstat 16 48
    let w := fun (i : Nat) => w64 (leNat (physRead s (capBase s + off + 8 * i) 8))
    if !inCxl s (capBase s + off) 24 || (if used = 0 then w 0 == 0 && w 7 == 0 else decide (used ≤ off)) then []
    else if gf (w 0) 0 48 != 0 then (false, off) :: capParse s f (off + 24)
    else (true, off) :: capParse s f (off + 128 + 8 * gf (w 0) 52 6 + ((capRanges s).map (·.2)).sum)

def capEntries (s : State) : List (Bool × Nat) := capParse s (2 ^ 20) 0

/-- Records of the area, in order: the offset and the token. -/
def capRecords (s : State) : List (Nat × W64) :=
  ((capEntries s).filter (·.1)).map (fun e => (e.2, w64 (leNat (physRead s (capBase s + e.2 + 0x38) 8))))

/-- The next record of a host queue. A captured one is accepted once all that is to be captured with it is here
(R438). -/
def acceptHost (s : State) (x : HostQueue) : State :=
  if x.head = x.tail || s.frozenFns.contains x.fn then s
  else
    let size := 2 ^ (x.n + 4)
    let addr := x.base + 128 * x.head
    let r := wordsOf (physRead s addr 128)
    let seq := x.seq + 1
    let tok := w64 (s.dev % 1024 * 2 ^ 54 + x.q * 2 ^ 48 + seq % 2 ^ 48)
    let y := { x with seq := seq, head := (x.head + 1) % size }
    let go := fun (s : State) => newLaunch { s with queues := s.queues.map (fun z => if z.q = x.q && z.alive then y else z) }
      tok x.q x.head addr false 0 x.fn r 0 (x.fn == 0) false
    if capOn s && capQueue s == x.q then
      match capRecord s tok r with
      | (none, s1) => s1
      | (some bs, s1) => go (capAppend s1 bs)
    else go s

/-- R92: every access that the launcher had issued before its LAUNCH has landed. -/
def recReleased (s : State) (d : DevRec) : Bool :=
  match s.motif? d.motif with
  | none => true
  | some m =>
    match m.core, m.saved with
    | some c, _ => clearOf (s.core c) d.ids
    | none, some own => clearOf own d.ids
    | none, none => true

/-- The next record of the device launch queue (R92, R129): the first whose launcher's accesses have landed. -/
def acceptDevice (s : State) : State :=
  match s.devQueue.find? (recReleased s) with
  | none => s
  | some d =>
    let fn := ((s.context? d.ctx).map (·.fn)).getD 0
    let s0 := { s with devQueue := s.devQueue.erase d }
    match distRead s d.ctx s.nextLaunch 0 [(d.addr, 64), (va57 (d.addr + 64), 64)] with
    | .wait s1 => s1
    | .bad => newLaunch s0 d.token 63 0 d.addr true d.ctx fn [] d.dep d.priv true
    | .bytes bs => newLaunch s0 d.token 63 0 d.addr true d.ctx fn (wordsOf bs) d.dep d.priv false

/-- LAUNCH_RECORD_ACCEPT. -/
def execLaunchRecordAccept (queue : Nat) (s : State) : Out :=
  if queue = 63 then .next (acceptDevice s)
  else
    match s.queues.find? (fun x => x.q == queue && x.alive) with
    | some x => .next (acceptHost s x)
    | none => .next s

/-- CAPTURE: a record of the captured queue is accepted and captured. -/
def execCapture (queue : Nat) (s : State) : Out :=
  match s.queues.find? (fun x => x.q == queue && x.alive) with
  | some x => if capOn s && capQueue s == queue then .next (acceptHost s x) else .next s
  | none => .next s

/-! ## Placement (R127, R128, R132) -/

/-- R132: the effective class. -/
def effClass (l : Launch) : Nat :=
  let c := gf (l.recd.getD 0 0) 59 2 + l.boost
  if 3 < c then 3 else c

def open' (l : Launch) : Bool :=
  match l.st with
  | .eligible | .running => true
  | _ => false

/-- R132: the order of the distributor. Between two of equal class that became eligible together the lower launch
number goes first (DESIGN CHOICE, log entry 85). -/
def ahead (a b : Launch) : Bool :=
  decide (effClass b < effClass a) || (effClass a == effClass b &&
    (decide (a.eligAt < b.eligAt) || (a.eligAt == b.eligAt && decide (a.id < b.id))))

def coLvl (ls : List Lvl) : Option Nat := ls.findIdx? (·.co)

/-- R450: a co-resident group that spans devices. -/
def spans (l : Launch) : Bool :=
  let ls := levelsOf l.recd
  match coLvl ls, devLvl ls with
  | some i, some d => decide (i ≤ d) && decide (1 < (ls.getD d default).extent)
  | _, _ => false

/-- The linear indices that are placed together with one of them: a co-resident group (R128), this
device's instance of a group that spans devices, or the motif alone. -/
def unitOf (l : Launch) (j : Nat) : List Nat :=
  let ls := levelsOf l.recd
  let lv := if spans l then devLvl ls else coLvl ls
  match lv with
  | none => [j]
  | some i =>
    let per := prodOf ((coreExts ls).drop (i + 1))
    (List.range per).map (· + j / per * per)

/-- R363: whether an index is placed by this device. -/
def isMine (s : State) (l : Launch) (j : Nat) : Bool :=
  let ls := levelsOf l.recd
  match l.home, devLvl ls with
  | none, some d => (lidxOf (coreExts ls) j).getD d 0 % (s.gszm1 + 1) == 0
  | _, _ => true

/-- The next index to be placed here: the first of this device from a number upwards, by whole instances of the device
level. -/
def nextFrom (s : State) (l : Launch) (lo : Nat) : Option Nat :=
  let ls := levelsOf l.recd
  let per := match devLvl ls with
    | some d => prodOf ((coreExts ls).drop (d + 1))
    | none => 1
  ((List.range (s.gszm1 + 2)).map (fun i =>
    if i = 0 then lo else (lo / per + i) * per)).find? (fun j =>
    decide (j < l.total) && isMine s l j)

def nextIdx (s : State) (l : Launch) : Option Nat := nextFrom s l l.placed

/-- Cores on which the distributor may place work of a launch. -/
def openCore (s : State) (l : Launch) (c : Nat) : Bool :=
  let k := s.core c
  s.started && !s.noPlace && !(s.context? l.ctx).any (·.dying) && decide (c < 256) && hasBit s.dieMask (dieOf c) && !s.retired.contains c &&
  k.motif.isNone && !k.frozen && !s.launches.any (fun x => x.id != l.id && x.reserved.contains c)

/-- Whether two cores lie in one instance of a domain code of R127. -/
def sameDomain (d a b : Nat) : Bool :=
  match d with
  | 0 | 1 => true
  | 2 => dieOf a == dieOf b
  | 3 => clusterOf a == clusterOf b
  | _ => a == b

/-- R127: the bounds that one placed motif sets for another: an instance of a level lies in one
instance of its domain, and the instances of a level within one enclosing instance in one of SCOPE. Two instances
of a level may lie in one physical instance: the spec does not ask for distinct ones (DESIGN CHOICE, log entry
85). -/
def boundOk (ls : List Lvl) (p : List Nat × Nat) (lidx : List Nat) (c : Nat) : Bool :=
  (List.range (coreLvl ls)).all (fun i =>
    let l := ls.getD i default
    p.1.take i != lidx.take i ||
      (sameDomain l.scope p.2 c && (p.1.getD i 0 != lidx.getD i 0 || sameDomain l.domain p.2 c)))

/-- The placed motifs of a launch that bound the others. -/
def bounding (s : State) (l : Launch) : List (List Nat × Nat) :=
  (s.motifs.filter (fun m => m.launch == l.id && (m.core.isSome || m.st == .done))).map
    (fun m => (m.lidx, homeNo m))

/-- R132: cores for a list of motifs, each the lowest of those that are free from which the rest can still be
placed. -/
def fillFrom (free : Nat → Bool) (l : Launch) : List (List Nat) → List (List Nat × Nat) → Option (List Nat)
  | [], _ => some []
  | ix :: rest, acc =>
    (List.range 256).findSome? (fun c =>
      if free c && !acc.any (fun p => p.2 == c) && acc.all (fun p => boundOk (levelsOf l.recd) p ix c)
      then (fillFrom free l rest (acc ++ [(ix, c)])).map (c :: ·)
      else none)

def fillCores (s : State) (l : Launch) : List (List Nat) → List (List Nat × Nat) → Option (List Nat) :=
  fillFrom (openCore s l) l

/-- Whether given cores satisfy every bound. -/
def coresFit (s : State) (l : Launch) : List (List Nat) → List Nat → List (List Nat × Nat) → Bool
  | [], [], _ => true
  | ix :: rest, c :: cs, acc =>
    openCore s l c && !acc.any (fun p => p.2 == c) && acc.all (fun p => boundOk (levelsOf l.recd) p ix c) &&
      coresFit s l rest cs (acc ++ [(ix, c)])
  | _, _, _ => false

def unitIdx (l : Launch) (j : Nat) : List (List Nat) :=
  (unitOf l j).map (lidxOf (coreExts (levelsOf l.recd)))

/-- R335: frames that a context still has. -/
def framesLeft (s : State) (ctx : Nat) : Nat :=
  256 - ((s.context? ctx).map (fun x => x.framesUsed.length)).getD 256

/-- R450: the devices that hold instances of a spanning group, in ascending number. -/
def groupDevices (s : State) (l : Launch) : List Nat :=
  let ls := levelsOf l.recd
  let n := ((recDomain ls 1).map (·.extent)).getD 1
  (List.range (s.gszm1 + 1)).filter (fun d =>
    decide ((d + (s.gszm1 + 1) - s.dev) % (s.gszm1 + 1) < n))

/-- R450: this device may be asked now to reserve its instance of a spanning group: it holds no other reservation, and
the devices before it have reserved theirs. -/
def mayReserve (s : State) (l : Launch) : Bool :=
  s.launches.all (fun x => x.reserved.isEmpty) &&
    (l.home.isSome || ((groupDevices s l).filter (fun d => decide (d < s.dev))).all l.devices.contains)

/-- R439: the core that a replayed motif goes to: that of its n-th captured placement. -/
def replayCore (s : State) (l : Launch) (j n : Nat) : Option Nat :=
  let es := ((capEntries s).filter (fun e => !e.1)).map (fun e => wordsOf (physRead s (capBase s + e.2) 16))
  ((es.filter (fun w => w.getD 0 0 == l.replayOf && gf (w.getD 1 0) 32 32 == j)).map
    (fun w => gf (w.getD 1 0) 0 8))[n]?

/-- The cores on which the distributor places motifs of a launch, each with its index, its place and how often it has
been placed: the lowest that satisfy every bound (R132); for a replay, those of the captured placements (R439). -/
def coresFor (s : State) (l : Launch) (ms : List (Nat × List Nat × Nat)) : Option (List Nat) :=
  if l.replayOf = 0 then fillCores s l (ms.map (·.2.1)) (bounding s l)
  else
    let cs := ms.filterMap (fun m => replayCore s l m.1 m.2.2)
    if coresFit s l (ms.map (·.2.1)) cs (bounding s l) then some cs else none

/-- The cores for a new unit. -/
def placeTo (s : State) (l : Launch) (j : Nat) : Option (List Nat) :=
  coresFor s l ((unitOf l j).map (fun i => (i, lidxOf (coreExts (levelsOf l.recd)) i, 0)))

/-- The new motifs that a launch would have placed, or reserved for, next, where they fit. -/
def canPlaceNew (s : State) (l : Launch) : Bool :=
  match nextIdx s l with
  | none => false
  | some j => (!spans l || mayReserve s l) && decide ((unitOf l j).length ≤ framesLeft s l.ctx) &&
      (placeTo s l j).isSome

/-- The swapped motifs of the co-resident group of one, in ascending linear index; none while a member is still
being pre-empted (R132, R133). -/
def swappedGroup (s : State) (l : Launch) (m : Motif) : List Motif :=
  let u := unitOf l m.index
  let all := s.motifs.filter (fun x => x.launch == l.id && u.contains x.index)
  if all.any (fun x => x.st == .preempting) then []
  else u.filterMap (fun j => all.find? (fun x => x.index == j && x.st == .swapped))

/-- The cores on which a group that is swapped out is placed again. -/
def returnTo (s : State) (l : Launch) (g : List Motif) : Option (List Nat) :=
  coresFor s l (g.map (fun m => (m.index, m.lidx, m.ranOn.length)))

def canReturn (s : State) (l : Launch) (m : Motif) : Bool :=
  let g := swappedGroup s l m
  m.st == .swapped && !g.isEmpty && (returnTo s l g).isSome

def swappedOf (s : State) (l : Launch) : List Motif :=
  s.motifs.filter (fun m => m.launch == l.id && m.st == .swapped)

/-- R132: within a launch, what could be placed now from a lower linear index goes first. -/
def returnsFirst (s : State) (l : Launch) (j : Nat) : Bool :=
  (swappedOf s l).any (fun x => decide (x.index < j) && canReturn s l x)

/-- Work of a launch that can be placed now. -/
def canPlace (s : State) (l : Launch) : Bool :=
  open' l && (canPlaceNew s l || (swappedOf s l).any (canReturn s l))

/-- R132: nothing that goes before a launch could be placed instead. -/
def isTurn (s : State) (l : Launch) : Bool :=
  s.launches.all (fun x => x.id == l.id || !ahead x l || !canPlace s x)

/-! ## Pre-emption requests (R133) -/

/-- The running motif of the lowest class, below a class, that has held its core longest; of two placed together, the
one that was placed first as a motif (DESIGN CHOICE, log entry 85). -/
def victim (s : State) (cls : Nat) : Option Motif :=
  let run := (s.motifs.filter (·.st == .running)).filterMap (fun m =>
    (s.launch? m.launch).map (fun l => (effClass l, m)))
  (run.filter (fun x => decide (x.1 < cls))).foldl (fun (b : Option (Nat × Motif)) x =>
    match b with
    | none => some x
    | some y => if x.1 < y.1 ∨ (x.1 = y.1 ∧ x.2.placedAt < y.2.placedAt) then some x else b) none
    |>.map (·.2)

/-- R133: a co-resident group is pre-empted as a whole. -/
def preemptGroup (s : State) (v : Motif) : State :=
  match s.launch? v.launch with
  | none => s
  | some l =>
    let u := unitOf l v.index
    let ms := s.motifs.filter (fun x => x.launch == l.id && u.contains x.index && x.st == .running)
    ms.foldl (fun s m => s.setMotif { m with st := .preempting, preemptAt := s.time }) s

/-- A core that a blocked launch can count on: it is free, or asked for, and not meant for a launch before it. -/
def soonFree (s : State) (l : Launch) (taken : List Nat) (c : Nat) : Bool :=
  !taken.contains c &&
    (openCore s l c || ((s.motifOn c).map (·.st) == some .preempting &&
      openCore (s.modCore c (fun k => { k with motif := none })) l c))

/-- New units of a launch from a number upwards, as far as its context has frames for them. -/
def newUnits (s : State) (l : Launch) : Nat → Nat → Nat → List (List (List Nat))
  | 0, _, _ => []
  | f + 1, lo, frames =>
    match nextFrom s l lo with
    | none => []
    | some j =>
      let u := unitOf l j
      if frames < u.length then [] else unitIdx l j :: newUnits s l f (u.getLastD j + 1) (frames - u.length)

/-- Insertion by index, ascending. -/
def insIndex {α : Type} (x : Nat × α) : List (Nat × α) → List (Nat × α)
  | [] => [x]
  | y :: ys => if x.1 < y.1 then x :: y :: ys else y :: insIndex x ys

/-- The units that a launch would have on the device, in ascending linear index: those that are swapped out, and new
ones; one at a time where the group spans devices (R132, R133, R450). -/
def wanted (s : State) (l : Launch) : List (List (List Nat)) :=
  let back := ((swappedOf s l).filter (fun m => ((swappedGroup s l m).head?.map (·.id)) == some m.id)).map
    (fun m => (m.index, (swappedGroup s l m).map (·.lidx)))
  (back.foldl (fun ys x => insIndex x ys) []).map (·.2) ++ (if spans l then (if mayReserve s l then newUnits s l 1 l.placed (framesLeft s l.ctx) else [])
    else newUnits s l 256 l.placed (framesLeft s l.ctx))

/-- R133: pre-emption is requested, one motif or group after another, until a unit of a blocked launch would fit beside
what is meant to be placed already. -/
def requestFor (l : Launch) (u : List (List Nat)) (taken : List Nat) (acc : List (List Nat × Nat)) :
    Nat → State → Option (State × List Nat)
  | 0, _ => none
  | f + 1, s =>
    match fillFrom (soonFree s l taken) l u acc, victim s (effClass l) with
    | some cs, _ => some (s, cs)
    | none, some v => requestFor l u taken acc f (preemptGroup s v)
    | none, none => none

/-- The requests for the units of a blocked launch in their order, as long as each can be made to fit. -/
def requestUnits (l : Launch) : List (List (List Nat)) → List (List Nat × Nat) → State × List Nat → State × List Nat
  | [], _, p => p
  | u :: rest, acc, p =>
    match requestFor l u p.2 acc 257 p.1 with
    | none => p
    | some (s, cs) => requestUnits l rest (acc ++ u.zip cs) (s, p.2 ++ cs)

/-- R133: what a blocked launch has the distributor request: nothing where no request would make it fit. -/
def requestOne (p : State × List Nat) (l : Launch) : State × List Nat :=
  if !open' l || canPlace p.1 l then p
  else requestUnits l (wanted p.1 l) (bounding p.1 l) p

def insLaunch (x : Launch) : List Launch → List Launch
  | [] => [x]
  | y :: ys => if ahead y x then y :: insLaunch x ys else x :: y :: ys

/-- R133: what the distributor requests for the records it is blocked on, in its order, beyond what it has asked. -/
def requestPreempt (s : State) : State :=
  (((s.launches.filter open').foldl (fun l x => insLaunch x l) []).foldl requestOne (s, [])).1

/-- CLASS_AGING: 2 ms more of eligibility (R132). -/
def execClassAging (launch : Nat) (s : State) : Out :=
  match s.launch? launch with
  | none => .next s
  | some l =>
    if open' l && decide (effClass l < 3) && elapsed s l.eligAt (2000 * (l.boost + 1)) then
      .next (requestPreempt (s.setLaunch { l with boost := l.boost + 1 }))
    else .next s

/-- LAUNCH_ELIGIBLE: every token has completed; the argument words are read once (R126, R131). -/
def execLaunchEligible (launch : Nat) (s : State) : Out :=
  match s.launch? launch with
  | none => .next s
  | some l =>
    let ds := l.deps.map (tokenState s)
    if l.st != .waiting || ds.any (·.isNone) then .next s
    else if ds.any (· == some false) then .next (setStatus s l (.failed 5))
    else
      match distRead s l.ctx l.id 8 ((List.range (recNargs l.recd)).map (fun n =>
          (va57 (recArgs l.recd + 8 * n), 8))) with
      | .wait s1 => .next s1
      | .bad => .next (setStatus s l (.failed 9))
      | .bytes bs =>
        .next (requestPreempt (s.setLaunch { l with st := .eligible, eligAt := s.time, args := wordsOf bs }))

/-! ## A motif is placed (R134, R140, R210, R335) -/

/-- R429: the reset word of an island. -/
def islReset : Nat → W64 := fun _ => w64 (2250 * 65536)

/-- R430: the island of a core is powered on. -/
def powerOn (s : State) (c : Nat) : State :=
  let n := islandOf c
  let w := mget islReset s.isl n
  if gf w 62 2 = 0 then
    let limit := gf ((s.core c).plimNext.getD ((s.core c).cfgAt rPLIM)) 0 16
    { s with isl := mput islReset s.isl n (sf w 62 2 (if limit = 0 then 1 else 2)) }
  else s

/-- A new motif of a launch on a core. -/
def placeOne (s0 : State) (l : Launch) (x : Context) (j c : Nat) : State :=
  let s := powerOn s0 c
  let used := ((s.context? x.num).map (·.framesUsed)).getD []
  match (List.range 256).find? (fun f => !used.contains f) with
  | none => s
  | some f =>
    let ls := levelsOf l.recd
    let m : Motif :=
      { id := s.nextMotif, launch := l.id, index := j, lidx := lidxOf (coreExts ls) j, st := .running,
        core := some c, frame := some f, saved := none, fault := none, pendingTrap := false,
        placedAt := s.time, lease := .idle, giveUp := none, preemptAt := 0, ranOn := [c] }
    let k0 := s.core c
    let k1 : Core :=
      { freedCore k0 with
        motif := some m.id, ctx := x.num, share := ((recDomain ls 4).map (·.size)).getD 0 * 64,
        scratch := ((recDomain ls 7).map (·.size)).getD 0 * 64,
        gangs := ((recDomain ls 5).map (·.extent)).getD 1, fcap := ((recDomain ls 6).map (·.extent)).getD 32,
        bpc := va57 (recEntry l.recd).toNat, prick := x.table }
    let k2 := (l.args.zipIdx).foldl (fun k a => k.setS a.2 a.1) k1
    let seed := l.recd.getD 3 0
    let k3 := (k2.setCfg rSRSTATE (if seed = 0 then 1 else seed)).setCfg rMSTAT
      (if (l.recd.getD 0 0).getLsbD 58 then 1 else 0)
    let s1 := { s.setCore c (placeRegs s k3 c x l m) with motifs := s.motifs ++ [m],
                                                          nextMotif := s.nextMotif + 1 }
    let s2 := match s1.context? x.num with
      | some y => s1.setContext { y with framesUsed := f :: y.framesUsed }
      | none => s1
    capPlace s2 l m c

/-- The next unit of a launch is placed on given cores. -/
def placeUnit (s : State) (l : Launch) (j : Nat) (cores : List Nat) : State :=
  match s.context? l.ctx with
  | none => s
  | some x =>
    let u := unitOf l j
    let s1 := (u.zip cores).foldl (fun s p => placeOne s l x p.1 p.2) s
    let l1 := { l with placed := u.getLastD j + 1, reserved := [],
                       ranOn := cores.filter (fun c => !l.ranOn.contains c) ++ l.ranOn }
    if l.st = .eligible then setStatus s1 l1 .running else s1.setLaunch l1

/-- MOTIF_PLACE: the next unit of a launch goes to free cores within its bounds. With no cores named,
the distributor finds the launch blocked, and requests what it needs (R133). -/
def execMotifPlace (launch : Nat) (cores : List Nat) (s : State) : Out :=
  match s.launch? launch with
  | none => .next s
  | some l =>
    match nextIdx s l with
    | none => .next (if cores.isEmpty then requestPreempt s else s)
    | some j =>
      if cores.isEmpty then .next (requestPreempt s)
      else if open' l && !spans l && isTurn s l && !returnsFirst s l j &&
          decide ((unitOf l j).length ≤ framesLeft s l.ctx) && placeTo s l j == some cores then
        .next (requestPreempt (placeUnit s l j cores))
      else .next s

/-- One motif of a launch is back on a core. -/
def reenter (s : State) (m : Motif) (core : Nat) : State :=
  match s.launch? m.launch, m.saved, frameOf s m with
  | some l, some own, some fr =>
    (match s.context? l.ctx with
     | none => s
     | some x =>
       let s1 := restoreMotif (powerOn s core) core m x l fr own
       let s2 := s1.setLaunch { l with ranOn := if l.ranOn.contains core then l.ranOn else core :: l.ranOn }
       capPlace s2 l m core)
  | _, _, _ => s

/-- MOTIF_REENTRY: a swapped motif is placed again, with the whole of the group that was pre-empted with it, whose
first it is (R128, R132). -/
def execMotifReentry (motif core : Nat) (s : State) : Out :=
  match s.motif? motif with
  | none => .next s
  | some m =>
    match s.launch? m.launch with
    | none => .next s
    | some l =>
      let g := swappedGroup s l m
      if !open' l || (g.head?.map (·.id)) != some m.id || returnsFirst s l m.index || !isTurn s l then .next s
      else
        match returnTo s l g with
        | none => .next s
        | some cs =>
          if cs.head? = some core then .next ((g.zip cs).foldl (fun s p => reenter s p.1 p.2) s) else .next s

/-! ## Work of other devices (R363, R450) -/

/-- REMOTE_INSTANCE: an instance of another device's launch that falls to this device, with its class and eligibility
time. -/
def execRemoteInstance (dev token inst pclass since : Nat) (record args : List W64) (s : State) : Out :=
  let ctl := sf (record.getD 0 0) 59 2 pclass
  let r := ctl :: record.drop 1
  let ls := levelsOf r
  match devLvl ls with
  | none => .next s
  | some d =>
    let per := prodOf ((coreExts ls).drop (d + 1))
    let ctx := gf (r.getD 4 0) 0 16
    match s.context? ctx with
    | none => .next s
    | some x =>
      if !s.fabUp || dev == s.dev || !levelsOk ls || decide (s.gszm1 < dev) || x.dying ||
          (dev + inst) % (s.gszm1 + 1) != s.dev || decide ((ls.getD d default).extent ≤ inst) then .next s
      else
        let l : Launch :=
          { id := s.nextLaunch, token := w64 token, queue := 64, slot := 0, addr := 0, virt := false,
            vctx := ctx, ctx := ctx, fn := x.fn, recd := r, deps := [], bad := false, args := args, st := .eligible,
            eligAt := since, boost := 0, total := (inst + 1) * per, placed := inst * per,
            ended := inst * per, ranOn := [], home := some dev, replayOf := 0, reserved := [], devices := [],
            far := [] }
        .next (requestPreempt { s with nextLaunch := s.nextLaunch + 1, launches := s.launches ++ [l] })

/-- CROSS_DEVICE_RESERVE: cores are reserved for this device's instance, once every device before it
has reserved; when all have, the instance is placed. -/
def execCrossDeviceReserve (launch : Nat) (cores : List Nat) (commit : Bool) (s : State) : Out :=
  match s.launch? launch with
  | none => .next s
  | some l =>
    match nextIdx s l with
    | none => .next s
    | some j =>
      let others := (groupDevices s l).filter (· != s.dev)
      if !open' l || !spans l then .next s
      else if commit then
        (if !l.reserved.isEmpty && !s.noPlace && !(s.context? l.ctx).any (·.dying) && (l.home.isSome || others.all l.devices.contains) then
          .next (placeUnit s l j l.reserved)
         else .next s)
      else if cores.isEmpty then .next (requestPreempt s)
      else if mayReserve s l && isTurn s l && !returnsFirst s l j &&
          decide ((unitOf l j).length ≤ framesLeft s l.ctx) && placeTo s l j == some cores then
        .next (s.setLaunch { l with reserved := cores })
      else .next s

/-- How another device's part of a launch stands: reserved or begun, done, or failed. -/
def remotePart (s : State) (token : W64) (inst : Nat) (ok : Option Bool) : State :=
  match (s.launches.reverse).find? (fun l => l.token == token && l.home.isNone) with
  | none => s
  | some l =>
    let ls := levelsOf l.recd
    let per := match devLvl ls with
      | some d => prodOf ((coreExts ls).drop (d + 1))
      | none => 0
    if l.isOver then s
    else
      match ok with
      | none =>
        let l1 := { l with devices := (s.dev + inst) % (s.gszm1 + 1) :: l.devices }
        if spans l || l.st != .eligible then s.setLaunch l1 else setStatus s l1 .running
      | some true =>
        let l1 := { l with ended := l.ended + per }
        if l1.ended = l1.total then setStatus s l1 .done else s.setLaunch l1
      | some false => failLaunch s l.id 6

end Sys2Proof.Machine
end

