-- ==== Sys2Proof/Machine/Fabric.lean ====
section
/-! DEFINITION. The Seldor fabric as a device sees it: flits and links (R369 to R374), routes (R365,
R366), requests of other devices performed at home (R375 to R385), responses (R380, R381), handle
notices (R386, R387) and the management path's unfreeze (R354). -/
namespace Sys2Proof.Machine

/-! ## Responses at the requester (R380, R381) -/

/-- Status 16 stands for poisoned data at the home. -/
abbrev stPoison : Nat := 16

/-- R386: a failed notice is a failure of the agent that issued HPASS, at the place of the HPASS in its program,
wherever its motif is. -/
def noticeFailed (s : State) (motif order status dev : Nat) : State :=
  let add := fun (k : Core) =>
    { k with failures := k.failures ++ [{ agent := .seq, order := order, addr := 0, status := status,
                                          tdev := dev, poison := false }] }
  match s.motif? motif with
  | none => s
  | some m =>
    match m.core with
    | some c => s.modCore c add
    | none => s.setMotif { m with saved := m.saved.map add }

/-- A remote write of a core has landed: its monitors count it (R294). -/
def remoteLanded (s : State) (c src : Nat) (r : FabReq) : State :=
  s.modCore c (fun k => monLand k false src r.va r.data)

/-- The answer to a store of the write buffers. -/
def storeAnswered (s : State) (c id st : Nat) (r : FabReq) : State :=
  match (s.core c).buf.find? (·.id == id) with
  | none => s
  | some b =>
    let s1 :=
      if st = 0 then
        (remoteLanded s c (if b.handle = noHandle then 15 else srcOf b.agent) r).modCore c (fun k => dropStore k id)
      else s.modCore c (fun k =>
        let k1 := failStore k b st
        { k1 with failures := k1.failures.map (fun f =>
            if f.order = id then { f with poison := st == stPoison } else f) })
    settleAgent s1 c b.agent

/-- A request is answered: the requests it held back are sent, and whom it served learns it. -/
def answered (s : State) (r : FabReq) (st : Nat) (bs : List Byte) : State :=
  let s1 := sendHeld { s with requests := s.requests.filter (·.id != r.id) }
  match r.who with
  | .store c id => storeAnswered s1 c id st r
  | .piece c _ _ | .fetch c _ _ =>
    putReply (if r.op = pkWrite && st == 0 then remoteLanded s1 c 2 r else s1) c r.who st bs
  | .load c _ _ _ => putReply s1 c r.who st bs
  | .notice c m token order =>
    if st = 0 then s1
    else if st = 7 then { s1 with resend := s1.resend ++ [(c, m, token, order, r.dev, s.time)] }
    else noticeFailed s1 m order st r.dev
  | .gone _ _ => s1
  | .dist _ part => if r.op = pkRead || decide (2 ^ 21 ≤ part) then putDistReply s1 r.who st bs else s1

/-- Whether an answer fits its request: the data that it must bring, and a status of R380. -/
def fits (r : FabReq) (st : Nat) (bs : List Byte) : Bool :=
  r.port.isSome &&
  (if st = 0 then
    (if r.op = pkRead || r.op = pkAtomic || r.op = pkCas then bs.length == r.len else bs.isEmpty)
   else decide (st < 7 ∨ st = stPoison) || (st == 7 && r.op == pkNotice))

/-- FABRIC_RESPONSE. -/
def execFabricResponse (req status : Nat) (data : List Byte) (poison : Bool) (s : State) : Out :=
  match s.requests.find? (·.id == req) with
  | none => .next s
  | some r =>
    let st := if poison then stPoison else status
    if fits r st data then .next (answered s r st data) else .next s

/-- FABRIC_TIMEOUT: 4 ms after sending, or, for a request that is held, after it was made: every request completes or
fails within that time (R368, R380). -/
def execFabricTimeout (req : Nat) (s : State) : Out :=
  match s.requests.find? (·.id == req) with
  | none => .next s
  | some r => if elapsed s r.sentAt 4000 then .next (answered s r 3 []) else .next s

/-- Requests that were held and have lost their last route are answered NOROUTE (R366, R380). -/
def failLost (s : State) : State :=
  (s.requests.filter (fun r => r.port.isNone && (routePort s r.dev 0 (16 * r.score + r.handle % 16)).isNone)).foldl
    (fun s r => answered s r 1 []) s

/-! ## Flits (R369 to R374) -/

/-- A replay request that names the SEQ expected. -/
def askReplay (s : State) (p : Nat) : State :=
  let x := s.port p
  let asks := if x.askedSeq = x.rxSeq then x.asks ++ [s.time] else [s.time]
  sendCtl (s.setPort p { x with askedSeq := x.rxSeq, asks := asks }) p x.rxSeq 2

/-- Flits up to an acknowledged SEQ leave the replay buffer. -/
def ackTo (x : FPort) (ack : Nat) : FPort :=
  match x.replay.findIdx? (fun h => h.1 == ack) with
  | some i =>
    let held := x.replay.drop (i + 1)
    { x with acked := ack, replay := held }
  | none => x

/-- The responses that a port has sent are through once its link has acknowledged them (log entry 65). -/
def passedOn (s : State) (p : Nat) : State :=
  { s with passing := s.passing.filter (fun x =>
      !(x.port == p && x.resp && !(s.port p).replay.any (·.1 == x.seq))) }

def resendFrom (s : State) (p seq : Nat) : State :=
  let held := (s.port p).replay
  match held.findIdx? (fun h => h.1 == seq) with
  | some i => (held.drop i).foldl (fun s h => resendFlit s p h) s
  | none => s

/-- A response to a request of another device, in the response class (R384: straight to the
requester). What a header of it leaves open is a free value. -/
def answer (s : State) (r : InReq) (op : Nat) (data : List Byte) : State :=
  let open1 := (Config.freeWord s.fresh).toNat
  let s1 := { s with fresh := s.fresh + 1 }
  (sendPacket s1
    { op := op, hop := 0, sdev := r.sdev, tdev := r.sdev, score := r.score, handle := r.handle, tag := r.tag,
      addr := r.addr, len := if data.isEmpty then open1 % 128 + 1 else data.length, data := data,
      fwd := false, via := none }).1

/-- An error response with its status. -/
def refuse (s : State) (r : InReq) (status : Nat) : State :=
  (sendPacket s
    { op := pkError, hop := 0, sdev := r.sdev, tdev := r.sdev, score := r.score, handle := r.handle,
      tag := r.tag, addr := r.addr, len := (Config.statusCode status).toNat + 1, data := [], fwd := false,
      via := none }).1

/-- R373 has no field for the function and the width of an atomic, nor for the width of a CAS group whose payload
fits both: free values. -/
def wideOp (p : Packet) : Bool :=
  if p.op = pkCas then
    p.len % 16 == 0 && p.addr % 8 == 0 && Config.atomicFn p.addr p.data / 16 % 2 == 1
  else p.len == 8

/-- A request as delivered. -/
def inReqOf (p : Packet) : InReq :=
  { sdev := p.sdev, score := p.score, handle := p.handle, tag := p.tag, op := p.op, addr := p.addr,
    len := p.len, data := p.data, flits := p.flits, fn := Config.atomicFn p.addr p.data % 10 + (if wideOp p then 16 else 0),
    forwarded := p.fwd, via := p.via }

/-- A packet for another device goes on (R366). -/
def passOn (s : State) (p : Packet) : State :=
  let r := sendPacket s p
  if r.2 || p.cls == 2 then r.1 else refuse s (inReqOf p) 1

/-- Packets that were held go on, in order, as their flows allow. -/
def releaseTransit (s : State) : State := s.transit.foldl passOn { s with transit := [] }

/-- What an answer answers no longer holds its flow to a path (R366). -/
def answeredPass (s : State) (p : Packet) : State :=
  { s with passing := s.passing.filter (fun x => x.resp || x.asker != p.asker) }

/-- A request comes in. The packets of one CAS group make one request (R376). -/
def takeIn (s : State) (p : Packet) : State :=
  let r := inReqOf p
  let mine := fun (q : InReq) => q.more && q.sdev == r.sdev && q.score == r.score && q.handle == r.handle &&
    q.tag == r.tag && q.addr == r.addr && q.forwarded == r.forwarded
  if p.op = pkCas && s.incoming.any mine then
    { s with incoming := s.incoming.map (fun q =>
        if mine q then
          let w := inReqOf { p with data := q.data ++ p.data, len := q.data.length + p.data.length, flits := q.flits ++ p.flits }
          { w with via := q.via, more := Config.casMore w.addr w.data }
        else q) }
  else { s with incoming := s.incoming ++ [{ r with more := p.op == pkCas && Config.casMore p.addr p.data }] }

/-- The request that a response answers: of those that share its response buffer, the one with its address. -/
def requestOf (s : State) (p : Packet) : Option FabReq :=
  let rs := s.requests.filter (fun r => r.score == p.score && r.handle % 16 == p.handle && r.tag == p.tag &&
    r.port.isSome)
  match rs with
  | [r] => some r
  | _ => rs.find? (·.addr == p.addr)

/-- A packet that has reached its device, or goes on (R366). The status of an error has no field of its
own in R373: which one a header shows is a free value. -/
def deliver (s0 : State) (p : Packet) : State :=
  let s := if p.cls = 2 then answeredPass s0 p else s0
  if p.tdev ≠ s.dev then passOn s p
  else if p.op < pkData then takeIn s p
  else
    match requestOf s p with
    | none => s
    | some r =>
      let f := Config.statusOf (BitVec.ofNat 7 (p.len - 1))
      let code := if r.op = pkNotice then 1 + f % 7 else f % 7
      let st := if p.op ≠ pkError then 0 else if code = 0 then stPoison else code
      if fits r st p.data then answered s r st p.data else s

/-- R369: the flits that wait in the buffer of a VC of a port: those of a packet that is not yet whole, and those of
packets that are not yet consumed or sent on. -/
def buffered (s : State) (p vc : Nat) : Nat :=
  let mine := fun (v : Option (Nat × Nat)) => v == some (p, vc)
  let packets := fun (qs : List Packet) => (qs.filter (fun q => mine q.via)).flatMap (·.flits)
  (mget (fun _ => []) (s.port p).rxFlits vc ++ (s.incoming.filter (fun r => mine r.via)).flatMap (·.flits) ++
    packets s.transit ++ s.ports.flatMap (fun e => packets e.2.txq)).eraseDups.length

/-- R369: STOP of each VC is set once no more than 28 of the 48 buffers are free, and cleared once 36 are. -/
def restop (s : State) (p : Nat) : State :=
  let x := s.port p
  let bit := fun (vc : Nat) =>
    let used := buffered s p vc
    decide (20 ≤ used) || (hasBit x.stopTx vc && decide (12 < used))
  let stop := ((List.range 16).map (fun vc => if bit vc then 2 ^ vc else 0)).sum
  if stop = x.stopTx then s else s.setPort p { x with stopTx := stop }

def restopAll (s : State) : State := (List.range 24).foldl restop s

/-- A data flit in order: its packets are delivered. -/
def acceptFlit (s : State) (p vc : Nat) (payload : List Byte) : State :=
  let x := s.port p
  let old := mget (fun _ => []) x.rx vc
  if vc = 15 then s.setPort p { x with rxSeq := (x.rxSeq + 1) % 4096 }
  else
    let bs := old ++ payload
    let r := parsePackets bs.length bs x.streams
    let n := x.rxNum
    let first := mget (fun _ => []) x.rxFlits vc ++ [n]
    let left := if r.2.1.isEmpty then [] else if r.1.isEmpty then first else [n]
    let x1 := { x with rxSeq := (x.rxSeq + 1) % 4096, rx := mput (fun _ => []) x.rx vc r.2.1,
                       rxFlits := mput (fun _ => []) x.rxFlits vc left, rxNum := n + 1,
                       streams := r.2.2.1, linkErrors := x.linkErrors + r.2.2.2 }
    restop (r.1.zipIdx.foldl (fun s q => deliver s { q.1 with
      fwd := vc / 5 == 1, via := some (p, vc), flits := if q.2 = 0 then first else [n] }) (s.setPort p x1)) p

/-- Packets that wait on a port go out as far as they can, and so do those that were held. -/
def pumpPort (s : State) (p : Nat) : State := sendHeld (restopAll (releaseTransit (pump p (s.port p).txq s)))

/-- FLIT_RECEIVE. -/
def execFlitReceive (port : Nat) (flit : List Byte) (s : State) : Out :=
  let x := s.port port
  if !x.up || decide (24 ≤ port) || flit.length != 256 then .next s
  else
    let lk := leNat (flit.take 8)
    let kind := nf lk 16 4
    if leNat (flit.drop 248) ≠ (crc64 (flit.take 248)).toNat ∨ 3 < kind then .next (askReplay s port)
    else
      let s1 := passedOn (s.setPort port (ackTo { x with stop := nf lk 48 16 } (nf lk 36 12))) port
      let s2 :=
        if kind = 0 then
          (if nf lk 24 12 = x.rxSeq then acceptFlit s1 port (nf lk 20 4) ((flit.drop 8).take 240)
           else askReplay s1 port)
        else if kind = 2 then resendFrom s1 port (nf lk 24 12)
        else if kind = 3 then s1.setPort port { (s1.port port) with streams := [], txStreams := [] }
        else s1
      .next (pumpPort s2 port)

/-! ## Links and routes (R362 to R366, R372) -/

/-- The routes have changed: what was held goes on, takes another path, or fails (R366). -/
def rerouted (s : State) : State := failLost (sendHeld (restopAll (releaseTransit s)))

/-- A port goes down: the flits of its replay buffer are dropped, and R366 looks for other ports for the packets that
had not left; what had left holds its flow still. -/
def portDown (s : State) (p : Nat) : State :=
  let x := s.port p
  let s1 := s.setPort p { x with up := false, replay := [], txq := [], streams := [], txStreams := [],
                                 rx := [], rxFlits := [], asks := [] }
  rerouted (putEvent { s1 with transit := s1.transit ++ x.txq.map (fun q => { q with hop := q.hop - 1 }) } 6 p x.lanes)

/-- R372: a port asked for one SEQ 16 times within 1 ms. -/
def asksTooOften (x : FPort) : Bool :=
  let last := x.asks.drop (x.asks.length - 16)
  decide (16 ≤ x.asks.length ∧ last.getLastD 0 ≤ last.headD 0 + 1000 * usCycles)

/-- LINK_RETRAIN: 16 replay requests for one SEQ within 1 ms. Lanes that fail are retired; a port that trains again
sends what it holds, one that does not goes down. -/
def execLinkRetrain (port lanesFailed : Nat) (ok : Bool) (s : State) : Out :=
  let x := s.port port
  if !x.up || !asksTooOften x || decide (24 ≤ port) then .next s
  else
    let lanes := x.lanes - lanesFailed
    let s1 := sendCtl (s.setPort port { x with lanes := lanes, asks := [], streams := [], txStreams := [] }) port 0 3
    if !ok || lanes == 0 then .next (portDown s1 port)
    else
      let s2 := if lanesFailed = 0 then s1 else putEvent s1 6 port lanes
      .next (pumpPort ((s2.port port).replay.foldl (fun s h => resendFlit s port h) s2) port)

/-- LINK_PORT_STATE_CHANGE. The ports stay down in minimal mode (R20). -/
def execLinkPortStateChange (port : Nat) (up : Bool) (s : State) : Out :=
  let x := s.port port
  if decide (24 ≤ port) || x.up == up || (up && (s.minimal || !s.started)) then .next s
  else if up then
    .next (sendHeld (pumpPort (s.setPort port { x with up := true, streams := [], txStreams := [] }) port))
  else .next (portDown s port)

/-- ROUTE_TABLE_LOAD: the fabric manager gives the device its number and routes (R362, R365). -/
def execRouteTableLoad (dev gszm1 : Nat) (entries : List W64) (s : State) : Out :=
  if !s.started || s.minimal || decide (1024 ≤ dev ∨ 1024 ≤ gszm1) then .next s
  else
    let rs := ((entries.take 1024).zipIdx).foldl (fun m e =>
      mput noW64 m e.2 (e.1 &&& 0xF0000000FFFFFFFF#64)) []
    .next (rerouted { s with dev := dev, gszm1 := gszm1, routes := rs, fabUp := true })

/-! ## Requests of other devices (R375 to R385) -/

/-- The packets of a request that is sent on to another device, in the forwarded class (R384). -/
def InReq.packets (r : InReq) (d : Nat) : List Packet :=
  (payloadParts r.data).map (fun bs =>
    { op := r.op, hop := 0, sdev := r.sdev, tdev := d, score := r.score, handle := r.handle, tag := r.tag,
      addr := r.addr, len := (if r.data.length ≤ 64 then r.len else bs.length), data := bs, fwd := true, via := none })

/-- The export entry of a request: the requester's, around the whole range. -/
def exportOf (s : State) (r : InReq) (n : Nat) : Option Export :=
  s.exports.find? (fun e => e.dev == r.sdev && decide (e.base ≤ r.addr ∧ r.addr + n ≤ e.base + e.size))

def granted (e : Export) (op : Nat) : Bool :=
  if op = pkRead then e.r else if op = pkWrite then e.w else e.a

/-- Bytes that a request touches. -/
def InReq.span (r : InReq) : Nat := if r.op = pkCas then (if hasBit r.fn 4 then 8 else 4) else r.len

def InReq.acc (r : InReq) : Nat := if r.op = pkRead then 0 else if r.op = pkWrite then 1 else 2

/-- The pairs of a CAS group: the value expected and the new one. -/
def InReq.pairs (r : InReq) : List (W64 × W64) :=
  let at' := fun (n : Nat) => w64 (leNat ((r.data.drop (r.span * n)).take r.span))
  (List.range (r.data.length / (2 * r.span))).map (fun n => (at' (2 * n), at' (2 * n + 1)))

/-- What an atomic or a CAS group leaves in memory (R194, R195, R382): of the pairs of a group, the first that
expects the old value stores its new one. -/
def remoteNew (r : InReq) (old : List Byte) : List Byte :=
  let w := hasBit r.fn 4
  let m := w64 (leNat old)
  let v := if r.op = pkCas then ((r.pairs.find? (·.1 == m)).map (·.2)).getD m
    else atomOpW (atomFns.getD (r.fn % 16) .add) w m (w64 (leNat r.data))
  leBytes r.span v.toNat

/-- A request performed at its home. -/
def perform (s : State) (r : InReq) : State :=
  let n := r.span
  if !(inHbm s r.addr n || inCxl s r.addr n) || cxlDown s r.addr then refuse s r 6
  else if r.op ≠ pkWrite ∧ gmPoisoned s r.addr n then refuse s r stPoison
  else if r.op = pkRead then answer s r pkData (physRead s r.addr n)
  else if r.op = pkWrite then answer (physWrite s r.addr r.data) r pkDone []
  else
    let old := physRead s r.addr n
    answer (physWrite s r.addr (remoteNew r old)) r pkData old

/-- R387: a notice at the token table: accepted, refused for its room, or a violation. -/
def noticeArrive (s : State) (sender : Nat) (token : W64) : State × Option Nat :=
  if s.frozenPeers.contains sender then (s, some 5)
  else if gf token 54 10 ≠ sender then
    let f := (Config.freeWord s.fresh).toNat
    (freezeMaster { s with fresh := s.fresh + 1 } 3 sender (f / 4) f 0 0, some 5)
  else if 1024 ≤ s.tokens.length then (s, some 7)
  else ({ s with tokens := s.tokens ++ [token] }, none)

/-- R352, R353: a request of a peer is a violation. The global virtual address that the record is to show is not in
the request: a free value (log entry 66). -/
def peerFreeze (s : State) (r : InReq) : State :=
  freezeMaster { s with fresh := s.fresh + 1 } 3 r.sdev (gf (Config.freeWord s.fresh) 0 57) r.acc 0 0

/-- R379: the requests of one flow to one line are performed in arrival order. -/
def firstOfFlow (s : State) (idx : Nat) (r : InReq) : Bool :=
  (s.incoming.take idx).all (fun q =>
    !(q.sdev == r.sdev && q.score == r.score && q.handle == r.handle && q.addr / 64 == r.addr / 64))

/-- REMOTE_REQUEST: a request is judged and performed, forwarded or refused. -/
def execRemoteRequest (idx : Nat) (s : State) : Out :=
  match s.incoming[idx]? with
  | none => .next s
  | some r =>
    if r.more || !firstOfFlow s idx r then .next s
    else
      let s0 := restopAll { s with incoming := s.incoming.eraseIdx idx }
      if r.op = pkNotice then
        let a := noticeArrive s0 r.sdev (w64 (leNat r.data))
        .next (match a.2 with
          | none => answer a.1 r pkDone []
          | some st => refuse a.1 r st)
      else if s.frozenPeers.contains r.sdev then .next (refuse s0 r 5)
      else
        match exportOf s r r.span with
        | none => .next (refuse (peerFreeze s0 r) r 2)
        | some e =>
          if !granted e r.op then .next (refuse (peerFreeze s0 r) r 2)
          else
            match e.fwd with
            | some d =>
              if r.forwarded then .next (refuse s0 r 4)
              else
                if (routePort s0 d 0 (16 * r.score + r.handle)).isNone then .next (refuse s0 r 1)
                else .next (r.packets d |>.foldl (fun s p => (sendPacket s p).1) s0)
            | none =>
              if r.op ≠ pkRead ∧ heldByMove s r.addr r.span then .next s
              else .next (perform s0 r)

/-! ## Handle notices (R386, R387) -/

/-- The notice of a token goes to a device; false where the table of this device is full. -/
def sendNotice (s : State) (core motif : Nat) (token : W64) (order dev : Nat) : State × Bool :=
  if dev = s.dev then
    if 1024 ≤ s.tokens.length then (s, false) else ({ s with tokens := s.tokens ++ [token] }, true)
  else
    let (s1, ok) := postReq s (.notice core motif token order) pkNotice dev 0 0 8 (leBytes 8 token.toNat) 0
      (gf token 42 4)
    if ok then (s1, true) else (noticeFailed s1 motif order 1 dev, true)

/-- HANDLE_NOTICE: every access of the snapshot has been answered. -/
def execHandleNotice (core idx : Nat) (s : State) : Out :=
  let k := s.core core
  match k.notices[idx]?, k.motif with
  | some (token, dev, order, ids), some m =>
    if !clearOf k ids || s.requests.any (fun r => r.who == .notice core m token order) then .next s
    else
      let s1 := s.modCore core (fun k => { k with notices := k.notices.eraseIdx idx })
      let r := sendNotice s1 core m token order dev
      .next (if r.2 then r.1 else { r.1 with resend := r.1.resend ++ [(core, m, token, order, dev, s.time)] })
  | _, _ => .next s

/-- HANDLE_NOTICE_ARRIVAL: a notice of another device. -/
def execHandleNoticeArrival (sender : Nat) (token : W64) (s : State) : Out :=
  .next (if sender = s.dev || !s.fabUp then s else (noticeArrive s sender token).1)

/-- NOTICE_RESEND: 1 µs after RETRY. -/
def execNoticeResend (idx : Nat) (s : State) : Out :=
  match s.resend[idx]? with
  | none => .next s
  | some (core, m, token, order, dev, since) =>
    if !elapsed s since 1 || s.requests.any (fun r => r.who == .notice core m token order) then .next s
    else
      let r := sendNotice { s with resend := s.resend.eraseIdx idx } core m token order dev
      .next (if r.2 then r.1 else s)

/-! ## Unfreeze (R354) -/

/-- The motif of a core is killed by a reset. -/
def resetCore (s : State) (c : Nat) : State :=
  match s.motifOn c with
  | some m => killMotif s m
  | none => s

/-- UNFREEZE: the management path unfreezes a master. -/
def execUnfreeze (kind master : Nat) (s : State) : Out :=
  match kind with
  | 0 =>
    if (s.core master).frozen then
      .next ((resetCore s master).modCore master (fun k => { k with frozen := false }))
    else .next s
  | 1 =>
    if (s.core (master / 4)).frozenCh.contains (master % 4) then
      .next ((resetCore s (master / 4)).modCore (master / 4) (fun k =>
        { k with frozenCh := k.frozenCh.filter (· != master % 4) }))
    else .next s
  | 2 => .next { s with frozenFns := s.frozenFns.filter (· != master) }
  | 3 => .next { s with frozenPeers := s.frozenPeers.filter (· != master) }
  | _ => .next s

end Sys2Proof.Machine
end

