-- ==== Sys2Proof/Machine/Crypto.lean ====
section
/-! DEFINITION. The algorithms that R17, R401, R403 and R421 to R425 name: SHA-384 and ECDSA on the curve P-384, whose
constants the standards FIPS 180-4 and FIPS 186-5 fix (PRESUMED, log entry 8). -/
namespace Sys2Proof.Machine

/-! ## SHA-384 -/

/-- The largest n below 2^bits with n^e at most v. -/
def rootOf (e v : Nat) : Nat → Nat → Nat
  | 0, n => n
  | b + 1, n => let m := n + 2 ^ b; rootOf e v b (if m ^ e ≤ v then m else n)

/-- The first 64 bits of the fractional part of the e-th root of p. -/
def rootFrac (e p : Nat) : W64 := w64 (rootOf e (p * 2 ^ (64 * e)) 70 0)

/-- The primes below 410, of which there are 80: a number there that is not prime has a divisor below 21. -/
def primes80 : List Nat :=
  (List.range 410).filter (fun n => decide (2 ≤ n) && (List.range 21).all (fun d => d < 2 || n ≤ d || n % d != 0))

/-- The round constants: cube roots of the first 80 primes. -/
def shaK : List W64 := primes80.map (rootFrac 3)

/-- The initial value: square roots of the ninth to the sixteenth prime. -/
def shaInit : List W64 := ((primes80.drop 8).take 8).map (rootFrac 2)

/-- A big-endian number of bytes. -/
def beNat (bs : List Byte) : Nat := bs.foldl (fun n b => n * 256 + b.toNat) 0
def beBytes (n v : Nat) : List Byte := (leBytes n v).reverse

/-- The padded message in blocks of sixteen words. -/
def shaBlocks (bs : List Byte) : List (List W64) :=
  let n := bs.length
  let pad := bs ++ 0x80 :: List.replicate ((239 - n % 128) % 128) 0 ++ beBytes 16 (8 * n)
  (List.range (pad.length / 128)).map (fun i => (List.range 16).map (fun j =>
    w64 (beNat ((pad.drop (128 * i + 8 * j)).take 8))))

/-- The 80 words of a block's schedule: each new one from those 2, 7, 15 and 16 before it. The list runs backwards. -/
def shaSchedule (w : List W64) : List W64 :=
  let s0 := fun (x : W64) => x.rotateRight 1 ^^^ x.rotateRight 8 ^^^ (x >>> 7)
  let s1 := fun (x : W64) => x.rotateRight 19 ^^^ x.rotateRight 61 ^^^ (x >>> 6)
  ((List.range 64).foldl (fun l _ => (s1 (l.getD 1 0) + l.getD 6 0 + s0 (l.getD 14 0) + l.getD 15 0) :: l) w.reverse).reverse

def shaRound (v : List W64) (x : W64 × W64) : List W64 :=
  match v with
  | [a, b, c, d, e, f, g, h] =>
    let t1 := h + (e.rotateRight 14 ^^^ e.rotateRight 18 ^^^ e.rotateRight 41) + ((e &&& f) ^^^ (~~~e &&& g)) + x.1 + x.2
    let t2 := (a.rotateRight 28 ^^^ a.rotateRight 34 ^^^ a.rotateRight 39) + ((a &&& b) ^^^ (a &&& c) ^^^ (b &&& c))
    [t1 + t2, a, b, c, d + t1, e, f, g]
  | _ => v

def shaBlock (h w : List W64) : List W64 :=
  List.zipWith (· + ·) h ((shaK.zip (shaSchedule w)).foldl shaRound h)

/-- SHA-384 of a message: 48 bytes. -/
def sha384 (bs : List Byte) : List Byte :=
  (((shaBlocks bs).foldl shaBlock shaInit).take 6).flatMap (fun x => beBytes 8 x.toNat)

/-! ## The curve P-384 -/

abbrev ecP : Nat := 2 ^ 384 - 2 ^ 128 - 2 ^ 96 + 2 ^ 32 - 1
abbrev ecB : Nat :=
  0xB3312FA7E23EE7E4988E056BE3F82D19181D9C6EFE8141120314088F5013875AC656398D8A2ED19D2A85C8EDD3EC2AEF
abbrev ecN : Nat :=
  0xFFFFFFFFFFFFFFFFFFFFFFFFFFFFFFFFFFFFFFFFFFFFFFFFC7634D81F4372DDF581A0DB248B0A77AECEC196ACCC52973
abbrev ecGx : Nat :=
  0xAA87CA22BE8B05378EB1C71EF320AD746E1D3B628BA79B9859F741E082542A385502F25DBF55296C3A545E3872760AB7
abbrev ecGy : Nat :=
  0x3617DE4A96262C6F5D9E98BF9292DC29F8F41DBD289A147CE9DA3113B5F0B8C00A60B1CE1D7E819D7A431D7C90EA0E5F

/-- x^k modulo m, for k below 2^bits. -/
def powMod (m x k : Nat) : Nat → Nat
  | 0 => 1 % m
  | b + 1 =>
    let r := powMod m x (k / 2) b
    if k % 2 = 1 then r * r % m * x % m else r * r % m

/-- The inverse modulo a prime. -/
def invMod (m x : Nat) : Nat := powMod m x (m - 2) 384

/-- A point in Jacobian coordinates; Z = 0 is the point at infinity. -/
structure EcPoint where
  x : Nat
  y : Nat
  z : Nat
  deriving DecidableEq, Repr, Inhabited

def ecInf : EcPoint := ⟨1, 1, 0⟩

/-- a - b modulo P. -/
def subP (a b : Nat) : Nat := (a + ecP - b % ecP) % ecP

def ecDouble (p : EcPoint) : EcPoint :=
  if p.z = 0 ∨ p.y = 0 then ecInf
  else
    let zz := p.z * p.z % ecP
    let yy := p.y * p.y % ecP
    let s := 4 * p.x * yy % ecP
    let m := 3 * subP p.x zz * ((p.x + zz) % ecP) % ecP
    let x := subP (m * m) (2 * s)
    ⟨x, subP (m * subP s x) (8 * yy * yy), 2 * p.y * p.z % ecP⟩

def ecAdd (p q : EcPoint) : EcPoint :=
  if p.z = 0 then q
  else if q.z = 0 then p
  else
    let pz := p.z * p.z % ecP
    let qz := q.z * q.z % ecP
    let u1 := p.x * qz % ecP
    let u2 := q.x * pz % ecP
    let s1 := p.y * qz * q.z % ecP
    let s2 := q.y * pz * p.z % ecP
    if u1 = u2 then (if s1 = s2 then ecDouble p else ecInf)
    else
      let h := subP u2 u1
      let r := subP s2 s1
      let hh := h * h % ecP
      let v := u1 * hh % ecP
      let x := subP (r * r) (hh * h + 2 * v)
      ⟨x, subP (r * subP v x) (s1 * hh * h), p.z * q.z * h % ecP⟩

/-- k times a point, for k below 2^bits. -/
def ecMul (k : Nat) (p : EcPoint) : Nat → EcPoint
  | 0 => ecInf
  | b + 1 =>
    let r := ecDouble (ecMul (k / 2) p b)
    if k % 2 = 1 then ecAdd r p else r

/-- The coordinates of a point; none at infinity. -/
def ecAffine (p : EcPoint) : Option (Nat × Nat) :=
  if p.z = 0 then none
  else
    let i := invMod ecP p.z
    some (p.x * (i * i % ecP) % ecP, p.y * (i * i % ecP * i % ecP) % ecP)

def ecOn (x y : Nat) : Bool :=
  decide (x < ecP ∧ y < ecP) && (y * y + 3 * x) % ecP == (x * x * x + ecB) % ecP

/-! ## ECDSA

A signature is its two integers, each little-endian in 48 bytes (R422, R424); a public key is taken to be the two
coordinates of its point in the same form (DESIGN CHOICE, log entry 8). -/

/-- The number that is signed for a message: its digest. -/
def msgNum (msg : List Byte) : Nat := beNat (sha384 msg)

/-- The public key of a private one. -/
def publicKey (d : Nat) : List Byte :=
  match ecAffine (ecMul d ⟨ecGx, ecGy, 1⟩ 384) with
  | none => []
  | some (x, y) => leBytes 48 x ++ leBytes 48 y

/-- The signature of a message digest z under a private key with a nonce k. -/
def ecdsaSign (d k z : Nat) : List Byte :=
  let r := (((ecAffine (ecMul k ⟨ecGx, ecGy, 1⟩ 384)).map (·.1)).getD 0) % ecN
  leBytes 48 r ++ leBytes 48 (invMod ecN k * (z + r * d) % ecN)

/-- Whether a signature of a digest z verifies under a public key. -/
def ecdsaOk (key : List Byte) (z : Nat) (sig : List Byte) : Bool :=
  let x := leNat (key.take 48)
  let y := leNat (key.drop 48)
  let r := leNat (sig.take 48)
  let s := leNat (sig.drop 48)
  key.length == 96 && sig.length == 96 && ecOn x y && decide (0 < r ∧ r < ecN ∧ 0 < s ∧ s < ecN) &&
    (let w := invMod ecN s
     let p := ecAdd (ecMul (z * w % ecN) ⟨ecGx, ecGy, 1⟩ 384) (ecMul (r * w % ecN) ⟨x, y, 1⟩ 384)
     match ecAffine p with
     | none => false
     | some (v, _) => v % ecN == r)

/-- A signature of a message, with a nonce that the security engine draws: a free value. -/
def signMsg (d : Nat) (msg : List Byte) : List Byte := ecdsaSign d (Config.signNonce d msg) (msgNum msg)

def verifyMsg (key msg sig : List Byte) : Bool := ecdsaOk key (msgNum msg) sig

end Sys2Proof.Machine
end

