-- ==== Sys2Proof/Machine/Tiers.lean ====
section
/-! DEFINITION. The memory tiers: CXL ports (R391 to R393), page-heat counters (R394, R395), the
migration engine (R396 to R398) and checkpoints (R403, R404). -/
namespace Sys2Proof.Machine

/-! ## Invalidation (R219, R397, R436) -/

/-- Every core drops the translations of a context that a test names, and the context's cores drop the code that
they hold, which may have been fetched through one (R219). -/
def dropTrans (s : State) (ctx : Nat) (f : Trans → Bool) : State :=
  { s with cores := s.cores.map (fun e =>
      let k := { e.2 with trans := e.2.trans.filter (fun t => !(t.ctx == ctx && f t)) }
      (e.1, if k.ctx = ctx then
          { k with bcache := [], lcache := [], reply := k.reply.filter (fun r => !forCode e.1 r.1) }
        else k)) }

/-- The entries of a translation table that memory lists: any other is zero. -/
def tableEntries (s : State) (lv : Level) (table : Nat) : List W64 :=
  (((s.mem.filter (fun e => decide (table ≤ e.1 ∧ e.1 < table + 8 * 2 ^ lv.len))).map (fun e => e.1 / 8 * 8)).eraseDups).map
    (fun a => w64 (leNat (physRead s a 8)))

/-- A table maps a range of physical memory read-duplicate. -/
def tableDup (s : State) (pa n : Nat) : List Level → Nat → Bool
  | [], _ => false
  | lv :: rest, table => (tableEntries s lv table).any (fun e =>
      e.getLsbD 0 && !malformed s lv e &&
      (if e.getLsbD 1 then gf e 6 2 == 3 && overlap (gf e 8 44 * 256) (2 ^ lv.lo) pa n
       else tableDup s pa n rest (gf e 8 44 * 256)))

/-- R399: a range of physical memory lies in a read-duplicate page, by a context's tables or a translation that a core
still holds. -/
def dupPage (s : State) (pa n : Nat) : Bool :=
  s.contexts.any (fun x => tableDup s pa n levels x.root) ||
  s.cores.any (fun e => e.2.trans.any (fun t => t.loc == 3 && overlap t.pbase t.size pa n))

/-- A buffered store still uses a translation that a test names. -/
def usesTrans (s : State) (f : Trans → Bool) : Bool :=
  s.cores.any (fun e => e.2.buf.any (fun b => b.space == .gm && f b.tr))

/-! ## CXL ports (R391, R393) -/

/-- CXL_BACK_INVALIDATE: a line leaves its die cache. Every line has one home (R15), so nothing that a
program or the host reads changes. -/
def execCxlBackInvalidate (_line : Nat) (s : State) : Out := .next s

/-- A migration ends: PASSES and STATUS go to its descriptor, wherever MIGQB now points. -/
def endMove (s : State) (m : Moving) (st code : Nat) : State :=
  let s1 := physWrite s (m.desc + 0x38) (le8 m.pass)
  let s2 := physWrite s1 (m.desc + 0x30) (le8 (st * 2 ^ 62 + code))
  { s2 with moving := s2.moving.filter (fun x => x.desc != m.desc) }

def cxlPortOf (pa : Nat) : Option Nat := if pa < cxlBase then none else some ((pa - cxlBase) / cxlWin)

/-- A checkpoint ends. -/
def ckptEnd (s : State) (st code : Nat) : State :=
  { s with ckptstat := sf (sf s.ckptstat 62 2 st) 0 16 code, noPlace := false }

def ckptRunning (s : State) : Bool := gf s.ckptstat 62 2 == 1
def ckptDst (s : State) : Nat := gf s.ckptRun 16 36 * 65536

/-- CXL_PORT_DOWN: the range of the port fails from now on. -/
def execCxlPortDown (port status : Nat) (s : State) : Out :=
  if decide (2 ≤ port) || !s.tiercap.getLsbD port then .next s
  else
    let s1 := putEvent { s with tiercap := sf s.tiercap port 1 0 } 7 port status
    let hit := fun (m : Moving) => cxlPortOf m.src == some port || cxlPortOf m.dst == some port
    let s2 := (s1.moving.filter hit).foldl (fun s m => endMove s m 3 3) s1
    .next (if ckptRunning s2 && cxlPortOf (ckptDst s2) == some port then ckptEnd s2 3 3 else s2)

/-! ## The row-retirement store (R401) -/

/-- A stack's part of the store. -/
def State.rowStore (s : State) (n : Nat) : RowStore := mget (fun _ => ⟨[], []⟩) s.rowret n

/-! ## Page heat (R394, R395) -/

/-- The entry of a frame. -/
def heatEntry (s : State) (pa : Nat) : Option Nat :=
  if pa < hbmSize then some (gf s.heathbm 16 36 * 65536 + 4 * (pa / 65536))
  else if inCxl s pa 1 then
    let p := (pa - cxlBase) / cxlWin
    let f := (pa - cxlBase) % cxlWin / 65536 + (if p = 0 then 0 else capOf s 0 * 16384)
    some (gf s.heatcxl 16 36 * 65536 + 4 * f)
  else none

/-- R394, R9: software must keep the tables inside HBM and away from every other use, which the device's own structures
show here: the other table, the migration queue, the rings and the frame arrays. -/
def heatMisplaced (s : State) (a : Nat) (cxl : Bool) : Bool :=
  let other := if cxl then (gf s.heathbm 16 36 * 65536, 26367188) else (gf s.heatcxl 16 36 * 65536, 268435456)
  !inHbm s a 4 || overlap other.1 other.2 a 4 || overlap (gf s.migqb 12 40 * 4096) (64 * 2 ^ (gf s.migqb 0 4 + 6)) a 4 ||
    s.contexts.any (fun x => overlap x.frames (256 * 3 * 2 ^ 20) a 4 ||
      overlap x.fring (64 + 8 * 2 ^ (x.fringN + 4)) a 4 || overlap x.objtab 8192 a 4 || overlap x.root 65536 a 4) ||
    s.queues.any (fun q => q.alive && overlap q.base (128 * 2 ^ (q.n + 4)) a 4)

/-- An entry with one count raised; each count saturates. -/
def heatUp (e : Nat) (wr : Bool) : Nat :=
  let rd := e % 65536
  let w := e / 65536 % 65536
  if wr then rd + 65536 * (if w = 0xFFFF then w else w + 1)
  else (if rd = 0xFFFF then rd else rd + 1) + 65536 * w

/-- HEAT_INCREMENT: a fill or a write-back of a die; one in 2^SHIFT of its kind is counted. An entry of a misplaced
table becomes undefined (R8, R9); there is none where no memory is mapped. -/
def execHeatIncrement (die pa : Nat) (wr : Bool) (s : State) : Out :=
  let key := 2 * die + bitOf wr
  let n := mget noNat s.heatCount key
  if !s.heatcfg.getLsbD 8 || decide (4 ≤ die) then .next s
  else
    let s1 := { s with heatCount := mput noNat s.heatCount key (n + 1) }
    match heatEntry s pa with
    | none => .next s
    | some a =>
      if n % 2 ^ gf s.heatcfg 4 4 ≠ 0 then .next s1
      else if heatMisplaced s a (decide (hbmSize ≤ pa)) then
        .next (if inHbm s a 4 || inCxl s a 4 then openMem s1 a 4 else s1)
      else
        .next (physWrite s1 a (leBytes 4 (heatUp (leNat (physRead s1 a 4)) wr)))

/-- HEAT_TABLE_BASE_WRITE: discarded while counting is on. -/
def execHeatTableBaseWrite (cxl : Bool) (v : W64) (s : State) : Out :=
  let b := v &&& 0x000FFFFFFFFF0000#64
  if s.heatcfg.getLsbD 8 then .next s
  else if cxl then .next { s with heatcxl := b } else .next { s with heathbm := b }

/-! ## The migration engine (R396, R397) -/

def migSize (s : State) : Nat := 2 ^ (gf s.migqb 0 4 + 6)

/-- MIGQB_WRITE: discarded whole while the queue is not empty, or for a reserved SZ. -/
def execMigqbWrite (v : W64) (s : State) : Out :=
  if s.migHead ≠ s.migTail ∨ 11 ≤ gf v 0 4 then .next s
  else
    let s1 := { s with migqb := v &&& 0x000FFFFFFFFFF00F#64 }
    .next { s1 with migHead := s.migHead % migSize s1, migTail := s.migHead % migSize s1 }

/-- MIGQP_TAIL_WRITE: the doorbell. -/
def execMigqpTailWrite (v : W64) (s : State) : Out :=
  if migSize s ≤ gf v 0 16 then .next s else .next { s with migTail := gf v 0 16 }

/-- The engine's reading of a descriptor: what it moves, or the code of its failure. -/
def readDesc (s : State) (slot : Nat) : Moving × Option Nat :=
  let d := gf s.migqb 12 40 * 4096 + 64 * slot
  let w := fun (i : Nat) => leNat (physRead s (d + 8 * i) 8)
  let op := w 0 / 2 ^ 62
  let size := if hasBit (w 0) 61 then 2 * 2 ^ 20 else 65536
  let m : Moving := { slot := slot, desc := d, copyOp := op == 1, src := w 1, dst := w 2, size := size, ptea := w 3,
                      ptev := w64 (w 4), ctx := w 5, marks := [], pass := 0,
                      todo := List.range (size / 4096), hold := false }
  let ok := fun (a : Nat) => (inHbm s a size || inCxl s a size) && !cxlDown s a
  if decide (2 ≤ op) || w 0 % 2 ^ 61 != 0 || w 1 % size != 0 || w 2 % size != 0 ||
      decide (2 ^ 52 ≤ w 1 ∨ 2 ^ 52 ≤ w 2 ∨ 2 ^ 52 ≤ w 3 ∨ 2 ^ 16 ≤ w 5) || w 3 % 8 != 0 ||
      overlap (w 1) size (w 2) size || (op == 1 && w 3 != 0) then (m, some 1)
  else if !ok (w 1) || !ok (w 2) then (m, some 3)
  else (m, none)

/-- The engine takes the next descriptor. -/
def takeDesc (s : State) (slot : Nat) (copyOp : Bool) : State :=
  let (m, bad) := readDesc s slot
  let d := gf s.migqb 12 40 * 4096 + 64 * slot
  let reserved := decide (2 ≤ leNat (physRead s d 8) / 2 ^ 62)
  if slot ≠ s.migHead ∨ s.migHead = s.migTail ∨ 4 ≤ s.moving.length ∨ (m.copyOp ≠ copyOp ∧ !reserved) then s
  else
    let s1 := { s with migHead := (s.migHead + 1) % migSize s }
    match bad with
    | some code => endMove s1 m 3 code
    | none =>
      let s2 := physWrite s1 (d + 0x30) (le8 (2 ^ 62))
      { s2 with moving := s2.moving ++ [m] }

/-- A sub-block is copied, with the poison of its lines. -/
def copyBlock (s : State) (m : Moving) (i : Nat) : State :=
  let a := m.src + 4096 * i
  let bad := (s.poison.filter (fun l => decide (a / 64 ≤ l ∧ l < a / 64 + 64))).map (· - a / 64)
  physPaste s (m.dst + 4096 * i) 4096 (mslice s.mem a 4096) bad

/-- Held writes of the cores go on to DST. -/
def redirect (s : State) (m : Moving) : State :=
  let mine := fun (b : BufStore) => b.space == .gm && b.tr.loc != 2 &&
    overlap m.src m.size (b.tr.pa b.addr) b.data.length
  { s with cores := s.cores.map (fun e => (e.1, { e.2 with buf := e.2.buf.map (fun b =>
      if mine b then { b with tr := { b.tr with pbase := b.tr.pbase + m.dst - m.src } } else b) })) }

/-- Held writes of other devices land at DST, in their order. -/
def landHeld (s : State) (m : Moving) : State :=
  let mine := fun (r : InReq) => r.op != pkRead && r.op != pkNotice && overlap m.src m.size r.addr r.span &&
    !s.frozenPeers.contains r.sdev && (match exportOf s r r.span with
      | some e => granted e r.op && e.fwd.isNone
      | none => false)
  (s.incoming.filter mine).foldl (fun s r => perform s { r with addr := m.dst + (r.addr - m.src) })
    { s with incoming := s.incoming.filter (fun r => !mine r) }

/-- The switch (R397): the entry, the translations, the held writes; SRC becomes undefined. What the device itself has
written meanwhile has been copied. -/
def switchPage (s : State) (m : Moving) : State :=
  let s1 := if inHbm s m.ptea 8 || inCxl s m.ptea 8 then physWrite s m.ptea (le8 m.ptev.toNat) else s
  let s2 := dropTrans s1 m.ctx (fun t => t.loc != 2 && overlap t.pbase t.size m.src m.size)
  let s3 := { s2 with moving := s2.moving.map (fun x => if x.desc = m.desc then { x with hold := false } else x) }
  let s4 := landHeld (redirect s3 m) m
  openMem (endMove s4 m 2 0) m.src m.size

def setMoving (s : State) (m : Moving) : State :=
  { s with moving := s.moving.map (fun x => if x.desc = m.desc then m else x) }

/-- The end of a pass. -/
def passEnd (s : State) (m : Moving) : State :=
  let m1 := { m with pass := m.pass + 1 }
  if m.copyOp then endMove s m1 2 0
  else if m.marks.length ≤ 8 then setMoving s { m1 with todo := m.marks, marks := [], hold := true }
  else if m1.pass = 16 then openMem (endMove s m1 3 2) m.dst m.size
  else setMoving s { m1 with todo := m.marks, marks := [] }

/-- One move of the engine on a descriptor: taking it, a sub-block, the end of a pass, the switch. -/
def migStep (s : State) (slot : Nat) (copyOp : Bool) : State :=
  match s.moving.find? (fun m => m.slot == slot) with
  | none => takeDesc s slot copyOp
  | some m =>
    if m.copyOp ≠ copyOp then s
    else
      match m.todo with
      | i :: rest =>
        let s1 := setMoving s { m with todo := rest, marks := m.marks.filter (· != i) }
        copyBlock s1 m i
      | [] =>
        if !m.hold then passEnd s m
        else if m.marks.isEmpty then switchPage s m
        else setMoving s { m with todo := m.marks, marks := [] }

/-- MOVE. -/
def execMove (slot : Nat) (s : State) : Out := .next (migStep s slot false)

/-- COPY. -/
def execCopy (slot : Nat) (s : State) : Out := .next (migStep s slot true)

/-! ## Checkpoints (R403, R404) -/

def digest (bs : List Byte) : List Byte := sha384 bs

abbrev chunkSize : Nat := 2 ^ 30
abbrev chunks : Nat := (hbmSize + chunkSize - 1) / chunkSize
def chunkLen (i : Nat) : Nat := if (i + 1) * chunkSize ≤ hbmSize then chunkSize else hbmSize - i * chunkSize
def ckptMagic : Nat := 0x54504B434C4E4A4D
def ckptDone (s : State) : Nat := gf s.ckptstat 16 32

/-- The image lies in mapped CXL memory whose port is up: else its code. -/
def ckptSpace (s : State) : Option Nat :=
  if cxlDown s (ckptDst s) then some 3
  else if !inCxl s (ckptDst s) (65536 + hbmSize) then some 1 else none

/-- A write of CKPTCTL (R403, R404): GO starts an operation, and a SAVE asks every running motif to
leave its core. -/
def ckptWrite (s : State) (v : W64) : State :=
  let s1 := { s with ckptctl := v &&& 0x600FFFFFFFFF0000#64 }
  let op := gf v 61 2
  if !v.getLsbD 63 || ckptRunning s || op == 0 || op == 3 then s1
  else
    let s2 := { s1 with ckptRun := s1.ckptctl, ckptstat := w64 (2 ^ 62) }
    if op = 1 then
      (s2.motifs.filter (·.st == .running)).foldl (fun s m => s.setMotif { m with st := .preempting, preemptAt := s.time })
        { s2 with noPlace := true }
    else if !s2.contexts.isEmpty then ckptEnd s2 3 4
    else s2

/-- A range of memory copied with the poison of its lines. -/
def copyRange (s : State) (src dst n : Nat) : State :=
  let bad := (s.poison.filter (fun l => decide (src / 64 ≤ l ∧ l * 64 < src + n))).map (· - src / 64)
  physPaste s dst n (mslice s.mem src n) bad

/-- R404: every motif is off its core, migration is idle and every access has landed, those of other devices too. -/
def quiet (s : State) : Bool :=
  s.motifs.all (fun m => m.core.isNone) && s.moving.isEmpty && s.migHead == s.migTail &&
  s.requests.isEmpty && s.incoming.all (fun r => r.op == pkRead || r.op == pkNotice) &&
  s.cores.all (fun e => e.2.buf.isEmpty)

def nextChunk (s : State) : State := { s with ckptstat := sf s.ckptstat 16 32 (ckptDone s + 1) }

/-- CHECKPOINT_SAVE: one chunk, and after the last the header. The image is one state of HBM, that of the first chunk
(DESIGN CHOICE, log entry 93). -/
def execCheckpointSave (s : State) : Out :=
  if !ckptRunning s || gf s.ckptRun 61 2 != 1 || !quiet s then .next s
  else
    match ckptSpace s with
    | some code => .next (ckptEnd s 3 code)
    | none =>
      let i := ckptDone s
      let body := ckptDst s + 65536
      if i < chunks then .next (nextChunk (if i = 0 then copyRange s 0 body hbmSize else s))
      else
        let s1 := physWrite s (ckptDst s)
          (le8 ckptMagic ++ le8 (devid s).toNat ++ le8 hbmSize)
        let s2 := (List.range chunks).foldl (fun s j =>
          physWrite s (ckptDst s + 0x40 + 48 * j) (digest (physRead s (body + j * chunkSize) (chunkLen j)))) s1
        .next (ckptEnd s2 2 0)

/-- CHECKPOINT_RESTORE: one chunk, once its digest matches. -/
def execCheckpointRestore (s : State) : Out :=
  if !ckptRunning s || gf s.ckptRun 61 2 != 2 then .next s
  else
    match ckptSpace s with
    | some code => .next (ckptEnd s 3 code)
    | none =>
      let i := ckptDone s
      let h := ckptDst s
      let at0 := h + 65536 + i * chunkSize
      if chunks ≤ i then .next (ckptEnd s 2 0)
      else if leNat (physRead s h 8) = ckptMagic ∧ leNat (physRead s (h + 0x10) 8) = hbmSize ∧
          physRead s (h + 0x40 + 48 * i) 48 = digest (physRead s at0 (chunkLen i)) then
        .next (nextChunk (copyRange s at0 (i * chunkSize) (chunkLen i)))
      else .next (ckptEnd (openMem s (i * chunkSize) (hbmSize - i * chunkSize)) 3 2)

end Sys2Proof.Machine
end

