-- ==== Sys2Proof/Machine/Power.lean ====
section
/-! DEFINITION. Current limits and islands (R245, R246, R429 to R431). -/
namespace Sys2Proof.Machine

/-! ## Windows and freeze cycles (R246) -/

/-- WIN: cycles of a window. -/
def winCycles (k : Core) : Nat := 64 * 2 ^ gf (k.cfgAt rPLIM) 16 2
def plimLimit (k : Core) : Nat := gf (k.cfgAt rPLIM) 0 16

/-- The first cycle of a window: a PLIM that was written takes effect, and the credit is refilled. -/
def refill (k : Core) : Core :=
  if k.refilled || k.cycles % winCycles k != 0 then k
  else
    let k1 := match k.plimNext with
      | some w => { k.setCfg rPLIM w with plimNext := none }
      | none => k
    let budget : Int := (plimLimit k1 * winCycles k1 / 16 : Nat)
    { k1 with credit := budget + (if k1.credit < 0 then k1.credit else 0), refilled := true }

/-- The power budget keeps a core from moving in this cycle. -/
def inFreeze (k : Core) : Bool := plimLimit k != 0 && decide (k.credit ≤ 0)

def islNoFrz : Nat → W64 := fun _ => 0

/-- The next cycle begins; a window's first cycle refills the credit. -/
def nextCycle (k : Core) : Core := refill { k with cycles := k.cycles + 1, refilled := false }

/-- A freeze cycle: FRZCNT and ISLFRZ count it (R246, R431). What a V slot still has to run waits with the core (log
entry 87). -/
def freezeCycle (s : State) (c : Nat) : State :=
  let n := islandOf c
  let s1 := s.modCore c (fun k => nextCycle (if k.motif.isSome then k.modCfg rFRZCNT (· + 1) else k))
  { s1 with islFrz := mput islNoFrz s1.islFrz n (mget islNoFrz s1.islFrz n + 1) }

/-- R245: the weight of the gangs in RUNNING. -/
def gangWeight (k : Core) : Nat := 3 * (k.gang.filter (fun e => e.2.st == .running)).length

/-- R245: what a cycle of a core costs: what has issued in it, its V slot's interval, its gangs, and its command
in the array. -/
def cycleWeight (k : Core) (job : Option MCmd) : Nat :=
  k.weight + (if 0 < k.vcyc then 6 else 0) + gangWeight k + (job.map mmaWeight).getD 0

/-- The array steps a core's command. -/
def stepArray (k : Core) : Option MCmd → Core
  | none => k
  | some m => modMcmd k m.id (fun m => { m with ran := m.ran + 1 })

/-- One cycle of a core, whose command the array may be at: it is refilled at a window's first cycle, and either
freezes, with its command, or pays for what arose in the cycle. -/
def coreCycle (s : State) (c : Nat) (job : Option MCmd) : State :=
  let s1 := s.modCore c refill
  let k := s1.core c
  if inFreeze k then freezeCycle s1 c
  else s1.modCore c (fun k =>
    nextCycle { stepArray k job with credit := k.credit - (cycleWeight k job : Int), weight := 0, vcyc := k.vcyc - 1 })

/-- A lane cycle of a gang: a halt counts it (R332), and fibres that were stalled, or wait with a command of their
own or at an LFENCE, try again (R139, R157, R190, R203). -/
def gangCycle (s : State) (c g : Nat) : State :=
  let halted := (s.core c).halt.isSome
  let s1 := modGang s c g (fun x =>
    if x.st = .running then
      { x with
        cycle := x.cycle + 1,
        skid := if halted && !x.stopped && decide (x.skid < 24) then x.skid + 1 else x.skid,
        fibres := x.fibres.map (fun e =>
          (e.1, if e.2.st = .stalled then { e.2 with st := .ready } else e.2)) }
    else x)
  gangSettle (((s1.core c).gangAt g).nested.foldl (nestRetry c g) (lfenceRetry s1 c g)) c g

/-- The commands that the arrays work on, with their cores. -/
def arrayJobs (s : State) : List (Nat × MCmd) := s.clusters.filterMap (fun e => arrayAt s e.1)

/-- One device cycle. -/
def tickOnce (s : State) : State :=
  let jobs := arrayJobs s
  (s.cores.map (·.1)).foldl (fun s c =>
    [0, 1, 2, 3].foldl (fun s g => if ((s.core c).gangAt g).st = .running then gangCycle s c g else s)
      (coreCycle s c ((jobs.find? (·.1 == c)).map (·.2)))) { s with time := s.time + 1 }

def ticks : Nat → State → State
  | 0, s => s
  | n + 1, s => ticks n (tickOnce s)

/-- PLIM_WINDOW: the boundary of a window. -/
def execPlimWindow (core : Nat) (s : State) : Out := .next (s.modCore core refill)

/-- FREEZE_CYCLE: a cycle in which a core has no credit left; it passes for the whole device. -/
def execFreezeCycle (core : Nat) (s : State) : Out :=
  if inFreeze (refill (s.core core)) then .next (tickOnce s) else .next s

/-! ## The management path (R429, R430) -/

def islWord (s : State) (n : Nat) : W64 := mget islReset s.isl n

/-- An island's word changes, and the host hears of it (R440). -/
def setIsl (s : State) (n : Nat) (w : W64) : State :=
  putEvent { s with isl := mput islReset s.isl n w } 9 n w.toNat

/-- SET_PLIM: every core of the island takes it at its next window. -/
def execSetPlim (island : Nat) (win : BitVec 2) (limit : BitVec 16) (s : State) : Out :=
  if 24 ≤ island then .next s
  else
    let v := w64 (win.toNat * 65536 + limit.toNat)
    let s1 := ((List.range 256).filter (fun c => islandOf c == island)).foldl
      (fun s c => s.modCore c (fun k => { k with plimNext := some v })) s
    let w := islWord s1 island
    .next (setIsl s1 island
      (if gf w 62 2 = 0 then w else sf w 62 2 (if limit = 0 then 1 else 2)))

/-- SET_FREQUENCY: timing only. -/
def execSetFrequency (island : Nat) (mhz : BitVec 16) (s : State) : Out :=
  if 24 ≤ island then .next s
  else .next (setIsl s island (sf (islWord s island) 16 16 mhz.toNat))

end Sys2Proof.Machine
end

