-- ==== Sys2Proof/Machine/Host.lean ====
section
/-! DEFINITION. The host interface: command blocks (R433 to R436), queue and frame doorbells (R335,
R432, R435), capture and replay (R437, R439), and the registers of a function's window. -/
namespace Sys2Proof.Machine

/-! ## Command blocks (R433) -/

/-- A word of a command block. -/
def blockWord (s : State) (block i : Nat) : Nat := leNat (bytesAt s.hostMem (block + 8 * i) 8)

/-- ARG n. -/
def arg (s : State) (block n : Nat) : Nat := blockWord s block (n + 1)

/-- STATUS is written, MSI-X vector 0 raised, and the function's next command may run. -/
def endCmd (s : State) (fn block code : Nat) : State :=
  let st := if code = 0 then 2 * 2 ^ 62 else 3 * 2 ^ 62 + code
  { s with hostMem := putBytes s.hostMem (block + 0x38) (leBytes 8 st), msix := s.msix ++ [(fn, 0)],
           hcmd := s.hcmd.erase (fn, block) }

/-- A command runs when it heads its function's doorbell order (functions 0 to 16, R16). A reserved OP, or a
bit that must be zero, is BADCMD. -/
def runCmd (s : State) (fn block op : Nat) (clean : Bool) (f : State) : State :=
  let w := blockWord s block 0
  let reserved := decide (w % 256 = 0 ∨ 5 < w % 256)
  if decide (16 < fn) || (s.hcmd.find? (fun e => e.1 == fn)) != some (fn, block) || (w % 256 != op && !reserved) then s
  else if reserved || w / 256 != 0 || !clean then endCmd s fn block 1
  else f

/-- Every bit outside a mask is zero. -/
def onlyBits (v m : Nat) : Bool := v &&& m == v

/-- R433: a range that lies in mapped HBM and off the frame arrays of the contexts other than `own`. -/
def placeOk (s : State) (own pa len : Nat) : Bool :=
  inHbm s pa len && !violates s own pa len

abbrev frameArray : Nat := 256 * 3 * 2 ^ 20

/-! ## Contexts (R434) -/

/-- The words of a default pricking image. -/
def prickWords (s : State) (base opc : Nat) : List W64 := wordsOf (physRead s (base + 32 * opc) 32)

/-- The default pricking table of a context. -/
def defaultTable (s : State) (base : Nat) : Map Prick :=
  (List.range 128).foldl (fun m opc => mput prickReset m opc (checkedEntry true opc (prickWords s base opc))) []

def ctxCreate (s : State) (fn block : Nat) : State :=
  let a := arg s block
  let n := a 0 % 65536
  let code := a 3 % 16
  let root := a 1; let frames := a 2; let ring := a 3 / 64 * 64; let prick := a 4; let objs := a 5
  let clean := onlyBits (a 0) 0x3FFFF && onlyBits root 0xFFFFFFFFF0000 && decide (frames < 2 ^ 52) &&
    onlyBits (a 3) 0xFFFFFFFFFFFCF && decide (code ≤ 12) && onlyBits prick 0xFFFFFFFFFF000 &&
    onlyBits objs 0xFFFFFFFFFF000 && n != 0
  let ok := frames % (3 * 2 ^ 20) == 0 && placeOk s n frames frameArray && placeOk s n root 65536 &&
    placeOk s n ring (64 + 8 * 2 ^ (code + 4)) && placeOk s n prick 4096 && placeOk s n objs 8192
  runCmd s fn block 1 clean
    (if s.contexts.any (fun x => x.num == n) then endCmd s fn block 2
     else if !ok then endCmd s fn block 4
     else if 1024 ≤ s.contexts.length then endCmd s fn block 5
     else
       let x : Context :=
         { num := n, fn := fn, sigreq := hasBit (a 0) 16, fstr := hasBit (a 0) 17, root := root,
           frames := frames, fring := ring, fringN := code, objtab := objs, table := defaultTable s prick,
           framesUsed := [], prod := 0, held := [], objects := [], grants := none }
       endCmd { (physWrite s ring (le8 0)) with contexts := s.contexts ++ [x] } fn block 0)

/-- CTX_CREATE. -/
def execCtxCreate (fn block : Nat) (s : State) : Out := .next (ctxCreate s fn block)

/-- Records of the device launch queue that name a context become failed launches. -/
def failDevQueue (s : State) (ctx fn : Nat) : State :=
  (s.devQueue.filter (fun e => e.ctx == ctx)).foldl (fun s e =>
    let l : Launch :=
      { id := s.nextLaunch, token := e.token, queue := 63, slot := 0, addr := e.addr, virt := true, ctx := ctx,
        fn := fn, recd := [], deps := [], bad := false, args := [], st := .waiting, eligAt := 0, boost := 0,
        total := 0, placed := 0, ended := 0, ranOn := [], home := none, replayOf := 0, reserved := [],
        devices := [], vctx := ctx, far := [] }
    setStatus (recWrite { s with nextLaunch := s.nextLaunch + 1, launches := s.launches ++ [l] } l 0x38 l.token)
      l (.failed 6))
    { s with devQueue := s.devQueue.filter (fun e => e.ctx != ctx) }

/-- The motifs of a context. -/
def motifsOf (s : State) (ctx : Nat) : List Nat :=
  (s.motifs.filter (fun m => ((s.launch? m.launch).map (·.ctx)) == some ctx)).map (·.id)

/-- A context's launches fail with KILLED, which kills its motifs; its handle notices are discarded. -/
def quell (s : State) (ctx fn : Nat) : State :=
  let ms := motifsOf s ctx
  let s1 := failDevQueue s ctx fn
  let s2 := (s1.launches.filter (fun l => l.ctx == ctx && !l.isOver)).foldl (fun s l => failLaunch s l.id 6) s1
  { s2 with
    resend := s2.resend.filter (fun r => !ms.contains r.2.1),
    requests := s2.requests.map (fun r => match r.who with
      | .notice _ m _ _ => if ms.contains m then { r with who := .gone ctx r.id } else r
      | _ => r) }

/-- An access of a context that is still to be answered: what its motifs have left behind, and the distributor's own for
its records and launches. -/
def ctxBusy (s : State) (ctx : Nat) : Bool :=
  s.requests.any (fun r => match r.who with
    | .gone x _ => x == ctx
    | .dist l _ => (s.launch? l).any (fun l => l.ctx == ctx || l.vctx == ctx)
    | _ => false)

/-- R399: once translations are dropped, what the host has written counts only where a page is still read-duplicate. -/
def renewDups (s : State) : State := { s with hostTouched := s.hostTouched.filter (fun r => dupPage s r.1 r.2) }

def ctxDestroy (s : State) (fn block : Nat) : State :=
  let a := arg s block
  let n := a 0
  let clean := decide (n < 65536) && (List.range 5).all (fun i => a (i + 1) == 0)
  runCmd s fn block 2 clean
    (match s.contexts.find? (fun x => x.num == n && x.fn == fn) with
     | none => endCmd s fn block 3
     | some x =>
       let s1 := quell (s.setContext { x with dying := true }) n fn
       if ctxBusy s1 n then s1
       else
         let s2 := { s1 with contexts := s1.contexts.filter (fun y => y.num != x.num) }
         endCmd (renewDups (dropTrans s2 n (fun _ => true))) fn block 0)

/-- CTX_DESTROY. From its first moment nothing of the context is placed (`openCore`, `recCode`); it ends once every
access of the context has landed. -/
def execCtxDestroy (fn block : Nat) (s : State) : Out := .next (ctxDestroy s fn block)

/-! ## Queues (R435) -/

def queueCreate (s : State) (fn block : Nat) : State :=
  let a := arg s block
  let q := a 0 % 64
  let n := a 0 / 256 % 16
  let clean := onlyBits (a 0) 0xF3F && q != 63 && decide (n ≤ 12) && onlyBits (a 1) 0xFFFFFFFFFF000 &&
    (List.range 4).all (fun i => a (i + 2) == 0)
  runCmd s fn block 3 clean
    (if s.queues.any (fun x => x.q == q && x.alive) then endCmd s fn block 2
     else if !placeOk s 65536 (a 1) (128 * 2 ^ (n + 4)) then endCmd s fn block 4
     else
       let x : HostQueue := { q := q, fn := fn, base := a 1, n := n, head := 0, tail := 0, seq := 0, alive := true }
       endCmd { s with queues := s.queues.filter (fun y => y.q != q) ++ [x] } fn block 0)

/-- QUEUE_CREATE. -/
def execQueueCreate (fn block : Nat) (s : State) : Out := .next (queueCreate s fn block)

def queueDestroy (s : State) (fn block : Nat) : State :=
  let a := arg s block
  let clean := decide (a 0 < 64) && (List.range 5).all (fun i => a (i + 1) == 0)
  runCmd s fn block 4 clean
    (if s.queues.any (fun x => x.q == a 0 && x.alive && x.fn == fn) then
      endCmd { s with queues := s.queues.map (fun x => if x.q = a 0 then { x with alive := false } else x) }
        fn block 0
     else endCmd s fn block 3)

/-- QUEUE_DESTROY. -/
def execQueueDestroy (fn block : Nat) (s : State) : Out := .next (queueDestroy s fn block)

/-- A function reads (0) or writes (1) outside its windows, or writes to what another function owns (R352). -/
def fnViolation (s : State) (fn off acc : Nat) : State := freezeMaster s 2 fn off acc 0 0

/-- QTAIL_WRITE: the doorbell of a host queue. -/
def qtailWrite (s : State) (fn q : Nat) (v : W64) : State :=
  if fnDeaf s fn then s
  else
    match s.queues.find? (fun x => x.q == q && x.alive) with
    | none => s
    | some x =>
      let t := gf v 0 16
      if x.fn ≠ fn then fnViolation s fn (0x50000 + 8 * q) 1
      else if 2 ^ (x.n + 4) ≤ t then s
      else { s with queues := s.queues.map (fun y => if y.q = q && y.alive then { y with tail := t } else y) }

def execQtailWrite (fn q : Nat) (v : W64) (s : State) : Out := .next (qtailWrite s fn q v)

/-! ## Invalidation (R436) -/

/-- The translations that an INVALIDATE names. -/
def named (ctx kind va len : Nat) (t : Trans) : Bool :=
  t.ctx == ctx && (if kind = 0 then t.covers ctx va else if kind = 1 then overlap t.vbase t.size va len else true)

/-- The addresses whose page an INVALIDATE may name, by the largest page (R216, R436). -/
def nearNamed (kind va len : Nat) (a n : Nat) : Bool :=
  let lo := va / 2 ^ 30 * 2 ^ 30
  let hi := (va + (if kind = 1 then len else 1) + 2 ^ 30 - 1) / 2 ^ 30 * 2 ^ 30
  kind == 2 || overlap lo (hi - lo) a n

/-- R436: an access that was there when the translations were dropped is still to land. -/
def invalBusy (s : State) (n kind va len : Nat) (x : Inval) : Bool :=
  let f := named n kind va len
  s.requests.any (fun r => decide (r.id < x.req) && nearNamed kind va len r.va r.len && (match r.who with
    | .gone c _ => c == n
    | .dist l _ => (s.launch? l).any (fun l => l.ctx == n || l.vctx == n)
    | w => w.core.any (fun c => (s.core c).ctx == n))) ||
  x.stores.any (fun e => (s.core e.1).buf.any (fun b => decide (b.id < e.2) && b.space == .gm && f b.tr))

def invalidate (s : State) (fn block : Nat) : State :=
  let a := arg s block
  let n := a 0 % 65536
  let kind := a 0 / 65536
  let clean := decide (kind < 3) && decide (a 1 < 2 ^ 57) && (kind == 1 || a 2 == 0) &&
    (kind != 2 || a 1 == 0) && (List.range 3).all (fun i => a (i + 3) == 0)
  let mine := fun (x : Inval) => x.fn == fn && x.block == block
  runCmd s fn block 5 clean
    (if !s.contexts.any (fun x => x.num == n && x.fn == fn) then endCmd s fn block 3
     else
       let f := named n kind (a 1) (a 2)
       let x := (s.invals.find? mine).getD
         { fn := fn, block := block, req := s.nextReq, stores := s.cores.map (fun e => (e.1, e.2.nextId)) }
       let s1 := if s.invals.any mine then s else renewDups (dropTrans s n f)
       if invalBusy s1 n kind (a 1) (a 2) x then { s1 with invals := x :: s1.invals.filter (fun y => !mine y) }
       else endCmd { s1 with invals := s1.invals.filter (fun y => !mine y) } fn block 0)

/-- INVALIDATE. It ends once every access that used a dropped translation has landed. -/
def execInvalidate (fn block : Nat) (s : State) : Out := .next (invalidate s fn block)

/-! ## Doorbells of frames (R335, R432) -/

/-- The context that a doorbell names, and the motif in its frame. -/
def doorMotif (s : State) (fn : Nat) (v : W64) : Option (Context × Motif) :=
  match s.contexts.find? (fun x => x.num == gf v 48 16 && x.fn == fn) with
  | none => none
  | some x => (s.motifs.find? (fun m => m.frame == some (gf v 0 8) &&
      ((s.launch? m.launch).map (·.ctx)) == some x.num)).map (fun m => (x, m))

/-- R335: the trapping breakpoint is to act once as NOP, or as LNOP for the fibres that stand at it. -/
def stepOver (m : Motif) : Option Core :=
  match m.fault, m.saved with
  | some r, some k =>
    if r.trap.cause = .brk then
      (if r.trap.byLane then some (k.setGang r.trap.gang { k.gangAt r.trap.gang with
          stepOver := (liveLanes (k.gangAt r.trap.gang)).filter (fun l =>
            ((k.gangAt r.trap.gang).fibre l).pc == r.trap.fpc) })
       else some { k with stepOver := true })
    else some k
  | _, k => k

/-- The motif in FAULTED may be placed again. -/
def resumeMotif (s : State) (m : Motif) (saved : Option Core) : State :=
  requestPreempt (s.setMotif { m with st := .swapped, fault := none, saved := saved })

/-- R335: a RESUME doorbell. CONS is read again; the ACTION of the frame is done if it is the one of
this event, and is cleared. -/
def resumeBell (s : State) (fn : Nat) (v : W64) (act : Nat) : State :=
  if fnDeaf s fn then s
  else
    match s.contexts.find? (fun x => x.num == gf v 48 16 && x.fn == fn) with
    | none => s
    | some x =>
      let s1 := appendEntries s x x.held
      match doorMotif s1 fn v with
      | none => s1
      | some (_, m) =>
        let a := x.frames + gf v 0 8 * (3 * 2 ^ 20) + 0x40
        let w := w64 (leNat (physRead s1 a 8))
        if m.st ≠ .faulted ∨ gf w 62 2 ≠ act then s1
        else
          let s2 := physWrite s1 a (le8 (sf w 62 2 0).toNat)
          if act = 1 then resumeMotif s2 m m.saved
          else if act = 2 then resumeMotif s2 m (stepOver m)
          else killMotif s2 m

/-- RESUME. -/
def execResume (fn : Nat) (v : W64) (s : State) : Out := .next (resumeBell s fn v 1)

/-- RESUME_AND_STEP_OVER. -/
def execResumeAndStepOver (fn : Nat) (v : W64) (s : State) : Out := .next (resumeBell s fn v 2)

/-- KILL. -/
def execKill (fn : Nat) (v : W64) (s : State) : Out := .next (resumeBell s fn v 3)

/-- R432: a HALT doorbell. One that comes together with a trap only sets MULTI. -/
def haltBell (s : State) (fn : Nat) (v : W64) : State :=
  if fnDeaf s fn then s
  else
    match doorMotif s fn v with
    | none => s
    | some (_, m) =>
      match m.core with
      | none => s
      | some c =>
        let k := s.core c
        if m.st = .running then raiseTrap s c { cause := .haltreq, slot := 0, baddr := k.bpc }
        else
          match k.halt with
          | some r =>
            if m.st = .halting ∧ r.time = s.time ∧ r.trap.cause ≠ .haltreq then
              s.setCore c { k with halt := some { r with multi := true } }
            else s
          | none => s

/-- HALT_DOORBELL. -/
def execHaltDoorbell (fn : Nat) (v : W64) (s : State) : Out := .next (haltBell s fn v)

/-! ## Capture and replay (R437, R439) -/

def replaying (s : State) : Bool := s.capctl.getLsbD 62

/-- A capture or a replay is running. -/
def capBusy (s : State) : Bool :=
  let mine := s.launches.any (fun l => !l.isOver && l.home.isNone &&
    (if replaying s then l.replayOf != 0 else l.queue == capQueue s))
  (capOn s && mine) || (replaying s && (mine || decide (s.replayPos < (capRecords s).length)))

/-- A write of CAPCTL. EN starts an empty area, REPLAY its first record. -/
def capWrite (s : State) (v : W64) : State :=
  let w := v &&& 0xFF0FFFFFFFFFFFFF#64
  if capBusy s || (v.getLsbD 63 && v.getLsbD 62) || decide (64 < gf v 0 16) then s
  else
    let s1 := { s with capctl := w }
    let s2 := if v.getLsbD 63 && !s.capctl.getLsbD 63 then { s1 with capstat := 0 } else s1
    if v.getLsbD 62 then { s2 with replayPos := 0 } else s2

/-- Captured bytes go back to the lines of virtual ranges, those of another device by a write that it answers; false
while one is still to be answered (R439). -/
def putBack (ctx id : Nat) : Nat → List (Nat × List Byte) → State → Bool × State
  | _, [], s => (true, s)
  | q, (va, bs) :: rest, s =>
    match ctxTrans s ctx va with
    | none => putBack ctx id (q + 1) rest s
    | some t =>
      if t.loc = 2 then
        if s.distReply.any (fun r => r.1 == .dist id q) then putBack ctx id (q + 1) rest s
        else
          let (s1, ok) := postReq s (.dist id q) 1 t.tdev (t.pa va) va bs.length bs 0 0
          if ok then (false, s1) else putBack ctx id (q + 1) rest s1
      else putBack ctx id (q + 1) rest (mappedWrite s (t.pa va) bs)

/-- The lines of ranges, with the bytes of a list in order. -/
def spread : List (Nat × Nat) → List Byte → List (Nat × List Byte)
  | [], _ => []
  | (va, n) :: rest, bs => (va, bs.take n) :: spread rest (bs.drop n)

/-- REPLAY: the next captured launch of the area is submitted, once its inputs are back. -/
def execReplay (s : State) : Out :=
  if !replaying s then .next s
  else
    match (capRecords s)[s.replayPos]?, s.queues.find? (fun x => x.q == capQueue s && x.alive) with
    | some (off, old), some x =>
      let addr := capBase s + off
      let r := wordsOf (physRead s addr 128)
      let lines := (capParts s r).flatMap (fun y => linesOf y.1 y.2)
      let bytes := physRead s (addr + 128) ((lines.map (·.2)).sum)
      match putBack (gf (r.getD 4 0) 0 16) s.nextLaunch (2 ^ 22) (spread lines bytes) s with
      | (false, s1) => .next s1
      | (true, s1) =>
        let seq := x.seq + 1
        let tok := w64 (s.dev % 1024 * 2 ^ 54 + x.q * 2 ^ 48 + seq % 2 ^ 48)
        let s2 := { s1 with replayPos := s.replayPos + 1,
                            queues := s1.queues.map (fun y => if y.q = x.q && y.alive then { y with seq := seq } else y) }
        .next (newLaunch s2 tok x.q 0 addr false 0 x.fn r 0 (x.fn == 0) false old)
    | _, _ => .next s

/-! ## Registers of a function's window (R6, R433) -/

/-- HCMD: the doorbell of the command interface. Up to 64 commands wait. -/
def hcmdWrite (s : State) (fn : Nat) (v : W64) : State :=
  let waiting := (s.hcmd.filter (fun e => e.1 == fn)).length
  if 16 < fn then s
  else if 64 ≤ waiting then
    { s with hcmdDropped := mput noNat s.hcmdDropped fn ((mget noNat s.hcmdDropped fn + 1) % 65536) }
  else { s with hcmd := s.hcmd ++ [(fn, v.toNat / 64 * 64)] }

/-- A virtual function's window (R433). -/
def vfWindow (off : Nat) : Bool :=
  off == 0 || off == 0x100 || off == 0x110 || off == 0x300 || off == 0x308 ||
  (decide (0x50000 ≤ off ∧ off < 0x50400))

/-- A RESUME doorbell does what its frame's ACTION says. -/
def resumeAny (s : State) (fn : Nat) (v : W64) : State :=
  resumeBell (resumeBell (resumeBell s fn v 1) fn v 2) fn v 3

/-- A host write to a register. Writes to registers that the host only reads are discarded. -/
def hostWrite (s : State) (fn off : Nat) (v : W64) : State :=
  if fnDeaf s fn || !s.started then s
  else if fn ≠ 0 ∧ !vfWindow off then fnViolation s fn off 1
  else if off = 0x100 then resumeAny s fn v
  else if off = 0x110 then haltBell s fn v
  else if off = 0x300 then hcmdWrite s fn v
  else if 0x50000 ≤ off ∧ off < 0x50200 then qtailWrite s fn ((off - 0x50000) / 8) v
  else if fn ≠ 0 then s
  else if off = 0x10008 then
    { s with heatcfg := v &&& 0x1F0#64,
             heatCount := if v.getLsbD 8 && !s.heatcfg.getLsbD 8 then [] else s.heatCount }
  else if (off = 0x10010 ∨ off = 0x10018) ∧ !s.heatcfg.getLsbD 8 then
    let b := v &&& 0x000FFFFFFFFF0000#64
    if off = 0x10010 then { s with heathbm := b } else { s with heatcxl := b }
  else if off = 0x10020 ∧ s.migHead = s.migTail ∧ gf v 0 4 < 11 then
    let s1 := { s with migqb := v &&& 0x000FFFFFFFFFF00F#64 }
    { s1 with migHead := s.migHead % migSize s1, migTail := s.migHead % migSize s1 }
  else if off = 0x10028 ∧ gf v 0 16 < migSize s then { s with migTail := gf v 0 16 }
  else if off = 0x10100 then ckptWrite s v
  else if off = 0x40000 then capWrite s v
  else if off = 0x40100 then { s with evrb := v, evProd := 0 }
  else if off = 0x40108 then { s with evsz := v &&& 0xF#64 }
  else s

/-- HOST_REGISTER_WRITE. -/
def execHostRegisterWrite (fn off : Nat) (v : W64) (s : State) : Out := .next (hostWrite s fn off v)

/-- R427: after a minimal start that failed at stage 0 or 1, only DEVID, BOOTWHY and the mailbox are
presented. -/
def presentsLittle (s : State) : Bool :=
  !s.started && s.bootwhy.getLsbD 0 && gf s.bootwhy 16 8 != 0 && decide (gf s.bootwhy 32 4 < 2) && s.stage == 0 &&
    s.starts != 0

/-- What the host reads at an offset of the physical function's window. -/
def hostRead (s : State) (off : Nat) : W64 :=
  if off = 0 then devid s
  else if off = 0x200 then s.bootwhy
  else if presentsLittle s then 0
  else if off = 0x308 then
    w64 ((s.hcmd.filter (fun e => e.1 == 0)).length + mget noNat s.hcmdDropped 0 * 65536)
  else if off = 0x10000 then s.tiercap
  else if off = 0x10008 then s.heatcfg
  else if off = 0x10010 then s.heathbm
  else if off = 0x10018 then s.heatcxl
  else if off = 0x10020 then s.migqb
  else if off = 0x10028 then w64 (s.migHead * 2 ^ 32 + s.migTail)
  else if 0x10040 ≤ off ∧ off < 0x100A0 then
    let n := (s.rowStore ((off - 0x10040) / 8)).rows.length
    w64 (n % 2048 + bitOf (decide (1024 ≤ n)) * 2048)
  else if off = 0x10100 then s.ckptctl
  else if off = 0x10108 then s.ckptstat
  else if 0x20000 ≤ off ∧ off < 0x200A0 then w64 (mget noNat s.svfuse ((off - 0x20000) / 8))
  else if 0x30000 ≤ off ∧ off < 0x300C0 then islWord s ((off - 0x30000) / 8)
  else if 0x30100 ≤ off ∧ off < 0x301C0 then mget islNoFrz s.islFrz ((off - 0x30100) / 8)
  else if off = 0x40000 then s.capctl
  else if off = 0x40008 then s.capstat
  else if off = 0x40100 then s.evrb
  else if off = 0x40108 then s.evsz
  else if off = 0x40110 then s.evlost
  else if 0x50000 ≤ off ∧ off < 0x50200 then
    w64 (((s.queues.find? (fun x => x.q == (off - 0x50000) / 8 && x.alive)).map (·.tail)).getD 0)
  else if 0x50200 ≤ off ∧ off < 0x50400 then
    w64 (((s.queues.find? (fun x => x.q == (off - 0x50200) / 8 && x.alive)).map (·.head)).getD 0)
  else 0

/-- R433: HCMDSTAT of a function. -/
def hcmdStat (s : State) (fn : Nat) : W64 :=
  w64 ((s.hcmd.filter (fun e => e.1 == fn)).length + mget noNat s.hcmdDropped fn * 65536)

/-- A read of the host through a function's window: it is answered with the register, or, outside the window and for
a frozen function, with Completer Abort (R352, R433). -/
def hostAsk (s : State) (fn off : Nat) : State :=
  let answer := fun (s : State) (v : Option W64) => { s with hostReplies := s.hostReplies ++ [(fn, off, v)] }
  if fnDeaf s fn then answer s none
  else if fn ≠ 0 ∧ !vfWindow off then answer (fnViolation s fn off 0) none
  else answer s (some (if off = 0x308 then hcmdStat s fn else hostRead s off))

end Sys2Proof.Machine
end

