-- ==== Sys2Proof/Machine/Trust.lean ====
section
/-! DEFINITION. Start-up (R20, R426 to R428), errors and self-tests (R350, R351, R401, R402) and the
security engine (R421 to R425). -/
namespace Sys2Proof.Machine

/-! ## Start-up (R426 to R428) -/

/-- The form of a part (R1, R19): codes from 3 on are never reported. -/
def formOf (form : Nat) : Nat := if form < 3 then form else 0

/-- The dies that a form has. Which die the test carrier holds is not stated: die 0 (log entry 70). -/
def presentDies (form : Nat) : Nat := if form = 2 then 1 else 0xF

/-- The lowest die in service of those that pass (R427). -/
def lowestDie (mask : Nat) : Option Nat := (List.range 4).find? (hasBit mask)

/-- DIEMASK: in minimal mode, and on the test carrier, the lowest die that passes alone (R1, R20, R427). -/
def maskFor (form failed : Nat) (few : Bool) : Nat :=
  let present := presentDies form
  let good := (List.range 4).foldl (fun m d => if hasBit present d && !hasBit failed d then m + 2 ^ d else m) 0
  if few then ((lowestDie good).map (2 ^ ·)).getD 0 else present

/-- What the part presents (R19, R20): its form and stepping, and one die in minimal mode. The test carrier
always presents as in minimal mode. -/
def presentAs (s : State) (form step failed : Nat) (minimal : Bool) : State :=
  let few := minimal || form == 2
  { s with form := form, stepping := step, minimal := few, dieMask := maskFor form failed few }

/-- The device as a reset leaves it, with what outlives a reset: the non-volatile stores of the hub
die, its fuses and keys, the freeze log, memory outside the cores, and what the driver keeps on the host. -/
def afterReset (s : State) : State :=
  { State.reset with
    fresh := s.fresh, turns := s.turns, focus := s.focus, mem := s.mem, poison := s.poison,
    starts := s.starts + 1, forced := false, failed := s.failed, bootwhy := s.bootwhy, rowret := s.rowret, cache := s.cache,
    hostMem := s.hostMem, msix := s.msix, wire := s.wire, freezeLog := s.freezeLog, hostReplies := s.hostReplies, svfuse := s.svfuse,
    keys := s.keys }

/-- BOOTWHY as a failed attempt leaves it (R428). -/
def noteFailure (w : W64) (die stage reason : Nat) : W64 :=
  sf (sf (sf w 36 4 die) 32 4 stage) 16 8 reason

/-- R427: an attempt has failed; one that is not minimal raises the count. The part presents as before the
attempt, in minimal mode if the attempt was minimal. -/
def failStart (s : State) (minimal : Bool) (die stage reason failDie : Nat) : State :=
  presentAs { afterReset s with
    starts := s.starts, stage := 0, forced := s.forced,
    failed := if minimal then s.failed else if s.failed < 3 then s.failed + 1 else 3,
    bootwhy := noteFailure s.bootwhy die stage reason } s.form s.stepping failDie minimal

/-- The first stage that fails, with its REASON; 0 is a stage that passes. A minimal start skips stages
6 and 7, and a die that fails stage 2 or 3 only loses it that die. -/
def firstFail (minimal : Bool) (stages : List Nat) : Option (Nat × Nat) :=
  ((stages.zipIdx).map (fun x => (x.2, x.1))).find? (fun x =>
    x.2 != 0 && x.1 < 6 && !(minimal && (x.1 == 2 || x.1 == 3)))

/-- R392: the memory that a port has enumerated, in whole GiB; none where it did not come up. -/
def cxlGib : CxlPart → Option Nat
  | .memory gib => some gib
  | _ => none

/-- R392: which ports are up, and the capacities as mapped, port 1's truncated first. -/
def tierWord (cxl0 cxl1 : CxlPart) : W64 :=
  let c0 := min ((cxlGib cxl0).getD 0) 4096
  let c1 := min ((cxlGib cxl1).getD 0) (4096 - c0)
  w64 (c1 * 2 ^ 45 + c0 * 2 ^ 32 + bitOf (cxlGib cxl1).isSome * 2 + bitOf (cxlGib cxl0).isSome)

/-- R391, R440: a component that uses an unsupported part is reported. -/
def reportCxl (s : State) (port : Nat) : CxlPart → State
  | .unsupported status => putEvent s 7 port status
  | _ => s

/-- R426, R427: the islands that hold no cluster are on, those of a die as far as it is in service; the distributor
powers on the others. -/
def islandsOn (s : State) : State :=
  let up := [0, 1, 2, 3].filter (hasBit s.dieMask)
  { s with isl := (up.map (5 * · + 4) ++ [20, 21, 22, 23]).foldl (fun m n =>
      mput islReset m n (sf (islReset n) 62 2 1)) s.isl }

/-- A start is complete: launches are accepted (R426). The device presents as `presentAs` has left it; the
test carrier, whose one die is taken to be die 0 (log entry 70), presents as in minimal mode (R1). -/
def completeStart (s : State) (minimal : Bool) (cxl0 cxl1 : CxlPart) : State :=
  let s1 := islandsOn { s with started := true, stage := 7, failed := if minimal then s.failed else 0,
                               tiercap := if s.minimal then 0 else tierWord cxl0 cxl1 }
  if s.minimal then s1 else reportCxl (reportCxl s1 0 cxl0) 1 cxl1

/-- A fuse counter (R423). -/
def fuse (s : State) (cls : Nat) : Nat := mget noNat s.svfuse cls

/-- R426: the classes of the firmware that a stage loads. -/
def stageClasses : Nat → List Nat
  | 1 => [0]
  | 4 => [1, 2]
  | 5 => [3]
  | _ => []

/-- R421, R426: the boot ROM's check of an image: its signature, then its SECVER. -/
def fwReason (s : State) (images : List Firmware) (cls : Nat) : Nat :=
  let f := images.getD cls default
  if !verifyMsg Config.romKey f.bytes f.sig then 1
  else if Config.imageSecver f.bytes < fuse s cls then 2 else 0

/-- The bytes of a stack's store that are signed. -/
def rowBytes (rows : List Nat) : List Byte := rows.flatMap le8

/-- R401: the store as the device writes it; the key of its signature is not stated, and the model takes the device's
identity key (DESIGN CHOICE, log entry 8). -/
def signRows (rows : List Nat) : RowStore := ⟨rows, signMsg Config.identityKey (rowBytes rows)⟩

/-- R401: the signature of the store, where it holds anything. -/
def rowStoreOk (s : State) : Bool :=
  s.rowret.all (fun e => e.2.rows.isEmpty ||
    verifyMsg (publicKey Config.identityKey) (rowBytes e.2.rows) e.2.sig)

/-- The REASON of a stage (R426, R427, R428): of its firmware, of its own test, and of the row-retirement store, which a
minimal start does not apply. -/
def stageReason (s : State) (minimal : Bool) (images : List Firmware) (stage own : Nat) : Nat :=
  match ((stageClasses stage).map (fwReason s images)).find? (· != 0) with
  | some r => r
  | none => if own != 0 then own else if stage == 3 && !minimal && !rowStoreOk s then 5 else 0

def bootReasons (s : State) (minimal : Bool) (stages : List Nat) (images : List Firmware) : List Nat :=
  stages.zipIdx.map (fun x => stageReason s minimal images x.2 x.1)

/-- A start from the REASON of each stage that has run. `failDie` is the mask of the dies that fail stage 2 or 3. With
fewer than seven stages listed the device is still at the next one. `loaded` are the digests of the firmware. -/
def runStart (s : State) (form step : Nat) (reasons : List Nat) (loaded : List (List Byte)) (failDie : Nat)
    (cxl0 cxl1 : CxlPart) : State :=
  let minimal := s.forced || s.failed == 3
  let why := if s.failed = 0 then noteFailure s.bootwhy 0xF 0 0 else s.bootwhy
  let s1 := presentAs { afterReset s with
    stages := loaded,
    bootwhy := sf (sf (if s.forced then sf why 16 8 7 else why) 8 8 s.failed) 0 1 (bitOf minimal) }
    (formOf form) (step % 16) failDie minimal
  match firstFail minimal reasons with
  | some (stage, reason) =>
    let die := if stage = 2 ∨ stage = 3 then (lowestDie failDie).getD 0xF else 0xF
    failStart s1 minimal die stage reason failDie
  | none =>
    if reasons.length < (if minimal then 6 else 7) then { s1 with stage := reasons.length }
    else completeStart s1 minimal cxl0 cxl1

/-- START: a reset, and the stages that have run since, with what they find and what the CXL ports enumerate. -/
def execStart (form step : Nat) (run : BootRun) (failDie : Nat) (cxl0 cxl1 : CxlPart) (s : State) : Out :=
  .next (runStart s form step (bootReasons s (s.forced || s.failed == 3) run.tests run.images)
    (((List.range run.tests.length).flatMap stageClasses).map (fun c => digest (run.images.getD c default).bytes))
    failDie cxl0 cxl1)

/-- R426: the time limit of a stage, in milliseconds. -/
def stageLimit : Nat → Nat
  | 0 => 50 | 1 => 200 | 2 => 2000 | 3 => 3000 | 4 => 500 | 5 => 200 | _ => 5000

/-- STAGE_TIMEOUT: a stage has run past its limit; stage 7 has none. MIN of BOOTWHY tells whether the start
is minimal. The dies that failed a test of this start are out of what the device presents. -/
def execStageTimeout (stage : Nat) (s : State) : Out :=
  if s.started || s.starts == 0 || stage != s.stage || decide (7 ≤ stage) || !elapsed s 0 (1000 * stageLimit stage)
  then .next s
  else .next (failStart s (s.bootwhy.getLsbD 0) 0xF stage 6 (if s.minimal then 15 - s.dieMask else 0))

/-- CLEAR_FAILED_STARTS. -/
def execClearFailedStarts (s : State) : Out := .next { s with failed := 0 }

/-- MINIMAL_MODE_FORCE: the next start is minimal. -/
def execMinimalModeForce (s : State) : Out := .next { s with forced := true }

/-! ## Errors (R350, R351) -/

/-- A self-test of a block starts. -/
def startTest (s : State) (block blockType : Nat) : State :=
  { s with tests := s.tests ++ [(block, blockType, s.time)] }

/-- CORRECTED_ERROR. -/
def execCorrectedError (block blockType : Nat) (s : State) : Out :=
  .next (startTest (putEvent s 1 block blockType) block blockType)

/-- The aligned 64-byte granule of an error is poisoned: 0 a line of global memory, 1 a granule of a
core's tile store, 2 one of a motif's operand slots (16,384 bytes each, by logical number). -/
def poisonAt (s : State) (space unit addr : Nat) : State :=
  let g := addr / 64
  match space with
  | 0 => if s.poison.contains g then s else { s with poison := g :: s.poison }
  | 1 => s.modCore unit (fun k => if k.tsPoison.contains g then k else { k with tsPoison := g :: k.tsPoison })
  | 2 =>
    { s with clusters := s.clusters.map (fun e => (e.1, { e.2 with slots := e.2.slots.map (fun o =>
        if o.motif = unit ∧ !o.poison.contains g then { o with poison := g :: o.poison } else o) })) }
  | _ => s

/-- The block that holds a granule: the line for the die cache and HBM; a core for its tile store, accumulator memory
(3) and lane register file (4); the operand memory of a cluster (256 and its number) for its banks; a port for a link
lane (5) (log entry 73). -/
def blockOf (s : State) (space unit addr : Nat) : Nat :=
  match space with
  | 0 => addr / 64 * 64
  | 2 => ((s.clusters.find? (fun e => e.2.slots.any (·.motif == unit))).map (fun e => 256 + e.1)).getD 320
  | _ => unit

/-- UNCORRECTED_ERROR. -/
def execUncorrectedError (space unit addr blockType : Nat) (s : State) : Out :=
  .next (startTest (putEvent (poisonAt s space unit addr) 2 (addr / 64 * 64) blockType) (blockOf s space unit addr)
    blockType)

/-- The cores that a bank without a spare takes out of service: its own, or those of its cluster. -/
def coresOf (block : Nat) : List Nat :=
  if block < 256 then [block]
  else if block < 320 then (List.range 4).map (fun i => 4 * (block - 256) + i)
  else []

/-- R217: the stack of an address. -/
def stackOf (pa : Nat) : Nat := pa / 2048 % 12

/-- A lasting fault is retired (R350): a bank by its spare or, without one, with its core or cluster; a
die-cache bank; an HBM row while its store has room, which in minimal mode is not appended (R401, R402, R427); a link
lane. -/
def retire (s : State) (block blockType detail : Nat) : State :=
  match blockType with
  | 0 =>
    let s1 := if detail = 0 then
        { s with retired := (coresOf block).filter (fun c => !s.retired.contains c) ++ s.retired } else s
    putEvent s1 4 block detail
  | 2 =>
    let st := stackOf block
    let rows := (s.rowStore st).rows
    if 1024 ≤ rows.length then putEvent s 5 (block / 65536 * 65536) detail
    else if s.minimal then putEvent s 4 block detail
    else putEvent { s with rowret := mset s.rowret st (signRows (rows ++ [block])) } 4 block detail
  | 3 =>
    let x := s.port block
    putEvent (s.setPort block { x with lanes := x.lanes - 1 }) 6 block (x.lanes - 1)
  | _ => putEvent s 4 block detail

/-- SELF_TEST: the test of a block ends. -/
def execSelfTest (block blockType : Nat) (lasting : Bool) (detail : Nat) (s : State) : Out :=
  match s.tests.find? (fun t => t.1 == block && t.2.1 == blockType) with
  | none => .next s
  | some t =>
    let s1 := { s with tests := s.tests.erase t }
    .next (if lasting then retire s1 block blockType detail else putEvent s1 3 block detail)

/-- ROW_RETIREMENT_REMOVE: the management path takes entries out of a stack's store, the oldest first (DESIGN CHOICE,
log entry 73). -/
def execRowRetirementRemove (stack count : Nat) (s : State) : Out :=
  if 12 ≤ stack then .next s
  else .next { s with rowret := mset s.rowret stack (signRows ((s.rowStore stack).rows.drop count)) }

/-! ## The security engine (R421 to R425) -/

/-- FUSE_RAISE: a counter only rises. -/
def execFuseRaise (cls count : Nat) (s : State) : Out :=
  if decide (cls < 20 ∧ count ≤ 128) && decide (fuse s cls < count) then
    .next { s with svfuse := mput noNat s.svfuse cls count }
  else .next s

/-- CODE_SIGNING_KEY_INSTALL. -/
def execCodeSigningKeyInstall (slot : Nat) (key : List Byte) (s : State) : Out :=
  if 16 ≤ slot then .next s else .next { s with keys := mset s.keys slot key }

/-- R424: the private half of the device's translation key. -/
def translationKey : Nat := Config.deriveKey Config.identityKey []

/-- R425: the private half of the attestation key of this start, from the firmware that was loaded. -/
def attestationKey (s : State) : Nat := Config.deriveKey Config.identityKey s.stages

/-- R425: the quote for a nonce; a context that does not live gives no object list. -/
def quoteOf (s : State) (nonce : List Byte) (ctx : Nat) : Quote :=
  let objs := (s.context? ctx).map (·.objects)
  let fuses := (List.range 20).map (fuse s)
  let key := publicKey (attestationKey s)
  { nonce := nonce, devid := devid s, stages := s.stages, fuses := fuses, objects := objs,
    signature := signMsg (attestationKey s) (Config.quoteForm nonce (devid s) s.stages fuses objs),
    key := key, cert := signMsg Config.identityKey key }

/-- ATTESTATION: a request carries a nonce of 48 bytes. -/
def execAttestation (nonce : List Byte) (ctx : Nat) (s : State) : Out :=
  if nonce.length = 48 then .next { s with mailbox := s.mailbox ++ [.quote (quoteOf s nonce ctx)] } else .next s

/-- CERTIFICATE_CHAIN_READ. -/
def execCertificateChainRead (s : State) : Out :=
  .next { s with mailbox := s.mailbox ++ [.chain Config.certificateChain] }

/-- TRANSLATION_SIGNATURE (R424): the bytes of the header up to its signature and the translation are
signed with the device's translation key, or a signature is verified. -/
def execTranslationSignature (verify : Bool) (body sig : List Byte) (s : State) : Out :=
  .next { s with mailbox := s.mailbox ++
    [if verify then .verdict (verifyMsg (publicKey translationKey) body sig)
     else .signature (signMsg translationKey body)] }

end Sys2Proof.Machine
end

