-- ==== Sys2Proof/Machine/Dispatch.lean ====
section
/-! DEFINITION. One arm per instruction or event of the opcode table, each one direct call. -/
namespace Sys2Proof.Machine

def exec (i : Instr) (s : State) : Host.Outcome State Fault Refusal :=
  match i with
  | .bundleIssue => Sys2Proof.Machine.execBundleIssue s
  | .nullBundle selv => Sys2Proof.Machine.execNullBundle selv s
  | .nop g => Sys2Proof.Machine.execNop g s
  | .sop g fn d a b => Sys2Proof.Machine.execSop g fn d a b s
  | .sopi g fn d a imm => Sys2Proof.Machine.execSopi g fn d a imm s
  | .smovi g d imm => Sys2Proof.Machine.execSmovi g d imm s
  | .scmp g cc imm qd a b => Sys2Proof.Machine.execScmp g cc imm qd a b s
  | .sld g sz ts sx off a d => Sys2Proof.Machine.execSld g sz ts sx off a d s
  | .sst g sz ts off a b => Sys2Proof.Machine.execSst g sz ts off a b s
  | .br g off => Sys2Proof.Machine.execBr g off s
  | .brInd g a => Sys2Proof.Machine.execBrInd g a s
  | .call g off => Sys2Proof.Machine.execCall g off s
  | .callInd g a => Sys2Proof.Machine.execCallInd g a s
  | .ret g a => Sys2Proof.Machine.execRet g a s
  | .advr g nm1 h => Sys2Proof.Machine.execAdvr g nm1 h s
  | .advw g nm1 h => Sys2Proof.Machine.execAdvw g nm1 h s
  | .cfgr g reg d => Sys2Proof.Machine.execCfgr g reg d s
  | .cfgw g reg a => Sys2Proof.Machine.execCfgw g reg a s
  | .tshapeWrite g n a => Sys2Proof.Machine.execTshapeWrite g n a s
  | .cbdescWrite g k a => Sys2Proof.Machine.execCbdescWrite g k a s
  | .srstateWrite g a => Sys2Proof.Machine.execSrstateWrite g a s
  | .mfmtWrite g a => Sys2Proof.Machine.execMfmtWrite g a s
  | .moncfgWrite g m j a => Sys2Proof.Machine.execMoncfgWrite g m j a s
  | .logpWrite g a => Sys2Proof.Machine.execLogpWrite g a s
  | .haccWrite g a => Sys2Proof.Machine.execHaccWrite g a s
  | .waits g cc scope b a qd => Sys2Proof.Machine.execWaits g cc scope b a qd s
  | .waitsTimeout core => Sys2Proof.Machine.execWaitsTimeout core s
  | .fence g scope istr eng kind => Sys2Proof.Machine.execFence g scope istr eng kind s
  | .fork g mask parent => Sys2Proof.Machine.execFork g mask parent s
  | .join g mask target => Sys2Proof.Machine.execJoin g mask target s
  | .hpass g oh a d => Sys2Proof.Machine.execHpass g oh a d s
  | .bar g scope id => Sys2Proof.Machine.execBar g scope id s
  | .barComplete core => Sys2Proof.Machine.execBarComplete core s
  | .launch g dep b a d => Sys2Proof.Machine.execLaunch g dep b a d s
  | .bind g topc a d => Sys2Proof.Machine.execBind g topc a d s
  | .recon g => Sys2Proof.Machine.execRecon g s
  | .recoff g => Sys2Proof.Machine.execRecoff g s
  | .monsetArm g m => Sys2Proof.Machine.execMonsetArm g m s
  | .monsetDisarm g m => Sys2Proof.Machine.execMonsetDisarm g m s
  | .monsetCheck g m => Sys2Proof.Machine.execMonsetCheck g m s
  | .unpick g a d => Sys2Proof.Machine.execUnpick g a d s
  | .loop g bodym1 stm1 lvm1 rall rot => Sys2Proof.Machine.execLoop g bodym1 stm1 lvm1 rall rot s
  | .iterIdx g lv d => Sys2Proof.Machine.execIterIdx g lv d s
  | .iterPass g d => Sys2Proof.Machine.execIterPass g d s
  | .iterExit g => Sys2Proof.Machine.execIterExit g s
  | .sys g => Sys2Proof.Machine.execSys g s
  | .sysServiceCall g imm => Sys2Proof.Machine.execSysServiceCall g imm s
  | .tret g => Sys2Proof.Machine.execTret g s
  | .brk g imm => Sys2Proof.Machine.execBrk g imm s
  | .vop2 g fn bs sat rm fmt vb va vd => Sys2Proof.Machine.execVop2 g fn bs sat rm fmt vb va vd s
  | .vfma g fn bs sat rm fmt vc vb va vd => Sys2Proof.Machine.execVfma g fn bs sat rm fmt vc vb va vd s
  | .vop1 g fn sat rm fmt va vd => Sys2Proof.Machine.execVop1 g fn sat rm fmt va vd s
  | .vcmp g qd qw cc bs fmt vb va vd => Sys2Proof.Machine.execVcmp g qd qw cc bs fmt vb va vd s
  | .vsel g bs fmt vc vb va vd => Sys2Proof.Machine.execVsel g bs fmt vc vb va vd s
  | .vred g fn fmt va sd => Sys2Proof.Machine.execVred g fn fmt va sd s
  | .vrows g sz cntm1 doff soff va vd => Sys2Proof.Machine.execVrows g sz cntm1 doff soff va vd s
  | .vcols g put sz col tile va vd => Sys2Proof.Machine.execVcols g put sz col tile va vd s
  | .vcvt g tgt part sat rm frm va vd => Sys2Proof.Machine.execVcvt g tgt part sat rm frm va vd s
  | .vcvto g desc rm tgt sat part sd va vd => Sys2Proof.Machine.execVcvto g desc rm tgt sat part sd va vd s
  | .vsca g pint rm vc vb va vd => Sys2Proof.Machine.execVsca g pint rm vc vb va vd s
  | .vsfu g fn va vd => Sys2Proof.Machine.execVsfu g fn va vd s
  | .vint g fn bs fmt vb va vd => Sys2Proof.Machine.execVint g fn bs fmt vb va vd s
  | .vmovi g imm fmt vd => Sys2Proof.Machine.execVmovi g imm fmt vd s
  | .vldt g desc rowix win peer am oh sa vd => Sys2Proof.Machine.execVldt g desc rowix win peer am oh sa vd s
  | .vstt g desc rowix win peer am oh sa vs => Sys2Proof.Machine.execVstt g desc rowix win peer am oh sa vs s
  | .mlease g => Sys2Proof.Machine.execMlease g s
  | .munlease g => Sys2Proof.Machine.execMunlease g s
  | .mclaim g cntm1 first => Sys2Proof.Machine.execMclaim g cntm1 first s
  | .mrels g cntm1 first => Sys2Proof.Machine.execMrels g cntm1 first s
  | .mma g km1 o => Sys2Proof.Machine.execMma g km1 o s
  | .mmah g sh gselA gselB km1 o => Sys2Proof.Machine.execMmah g sh gselA gselB km1 o s
  | .mmahFetchComplete core cmd => Sys2Proof.Machine.execMmahFetchComplete core cmd s
  | .arrayCommandComplete cluster => Sys2Proof.Machine.execArrayCommandComplete cluster s
  | .mdrain g => Sys2Proof.Machine.execMdrain g s
  | .mzero g ad => Sys2Proof.Machine.execMzero g ad s
  | .mzeroBusyEnd core tile => Sys2Proof.Machine.execMzeroBusyEnd core tile s
  | .leaseTermEnd cluster => Sys2Proof.Machine.execLeaseTermEnd cluster s
  | .kcopy g x => Sys2Proof.Machine.execKcopy g x s
  | .kfill g x => Sys2Proof.Machine.execKfill g x s
  | .kgang g x => Sys2Proof.Machine.execKgang g x s
  | .kmcast g x => Sys2Proof.Machine.execKmcast g x s
  | .kcgrad g x tgt rm nbm1 => Sys2Proof.Machine.execKcgrad g x tgt rm nbm1 s
  | .keyeInit g oh mc sa se => Sys2Proof.Machine.execKeyeInit g oh mc sa se s
  | .keyeAdd g oh mc sa se => Sys2Proof.Machine.execKeyeAdd g oh mc sa se s
  | .keyeWait g oh sa se => Sys2Proof.Machine.execKeyeWait g oh sa se s
  | .kpull g x peer => Sys2Proof.Machine.execKpull g x peer s
  | .transferPiece core cmd piece => Sys2Proof.Machine.execTransferPiece core cmd piece s
  | .commandCompletion core cmd => Sys2Proof.Machine.execCommandCompletion core cmd s
  | .xpose g o => Sys2Proof.Machine.execXpose g o s
  | .gather g o => Sys2Proof.Machine.execGather g o s
  | .scatter g o => Sys2Proof.Machine.execScatter g o s
  | .softmax g o => Sys2Proof.Machine.execSoftmax g o s
  | .lnorm g o => Sys2Proof.Machine.execLnorm g o s
  | .topk g o => Sys2Proof.Machine.execTopk g o s
  | .sort g o => Sys2Proof.Machine.execSort g o s
  | .segsum g o => Sys2Proof.Machine.execSegsum g o s
  | .stitchDispatch g opc o hi => Sys2Proof.Machine.execStitchDispatch g opc o hi s
  | .sCommandCompletion core gang => Sys2Proof.Machine.execSCommandCompletion core gang s
  | .lnop p => Sys2Proof.Machine.execLnop p s
  | .movi p d imm => Sys2Proof.Machine.execMovi p d imm s
  | .movhi p d a imm => Sys2Proof.Machine.execMovhi p d a imm s
  | .mov p d a => Sys2Proof.Machine.execMov p d a s
  | .movd p d a => Sys2Proof.Machine.execMovd p d a s
  | .sel p w k d a b => Sys2Proof.Machine.execSel p w k d a b s
  | .lid p fn d => Sys2Proof.Machine.execLid p fn d s
  | .iop p fn d a b => Sys2Proof.Machine.execIop p fn d a b s
  | .iopi p fn d a imm => Sys2Proof.Machine.execIopi p fn d a imm s
  | .idiv p fn d a b => Sys2Proof.Machine.execIdiv p fn d a b s
  | .imad p fn d a b c => Sys2Proof.Machine.execImad p fn d a b c s
  | .isat p fn d a b => Sys2Proof.Machine.execIsat p fn d a b s
  | .ibit p fn d a => Sys2Proof.Machine.execIbit p fn d a s
  | .bfx p sx d a lenm1 pos => Sys2Proof.Machine.execBfx p sx d a lenm1 pos s
  | .bfi p d a b lenm1 pos => Sys2Proof.Machine.execBfi p d a b lenm1 pos s
  | .icmp p cc kd a b => Sys2Proof.Machine.execIcmp p cc kd a b s
  | .icmpi p cc kd a imm => Sys2Proof.Machine.execIcmpi p cc kd a imm s
  | .plop p fn kd ka kb v => Sys2Proof.Machine.execPlop p fn kd ka kb v s
  | .pmov p fn d a => Sys2Proof.Machine.execPmov p fn d a s
  | .iop64 p fn d a b => Sys2Proof.Machine.execIop64 p fn d a b s
  | .icmp64 p cc kd a b => Sys2Proof.Machine.execIcmp64 p cc kd a b s
  | .fop p fn m d a b => Sys2Proof.Machine.execFop p fn m d a b s
  | .ffma p fn m d a b c => Sys2Proof.Machine.execFfma p fn m d a b c s
  | .funop p fn m d a => Sys2Proof.Machine.execFunop p fn m d a s
  | .fcmp p cc kd a b => Sys2Proof.Machine.execFcmp p cc kd a b s
  | .hop p fn h16 m d a b => Sys2Proof.Machine.execHop p fn h16 m d a b s
  | .hfma p fn h16 m d a b c => Sys2Proof.Machine.execHfma p fn h16 m d a b c s
  | .dop p fn m d a b => Sys2Proof.Machine.execDop p fn m d a b s
  | .dfma p fn m d a b c => Sys2Proof.Machine.execDfma p fn m d a b c s
  | .dun p fn m d a => Sys2Proof.Machine.execDun p fn m d a s
  | .dcmp p cc kd a b => Sys2Proof.Machine.execDcmp p cc kd a b s
  | .cvt p dpart spart m tgt frm d a => Sys2Proof.Machine.execCvt p dpart spart m tgt frm d a s
  | .sfu p fn d a => Sys2Proof.Machine.execSfu p fn d a s
  | .bra p off => Sys2Proof.Machine.execBra p off s
  | .brx p a => Sys2Proof.Machine.execBrx p a s
  | .laneCall p d off => Sys2Proof.Machine.execLaneCall p d off s
  | .callx p d a => Sys2Proof.Machine.execCallx p d a s
  | .laneRet p a => Sys2Proof.Machine.execLaneRet p a s
  | .lbrk imm => Sys2Proof.Machine.execLbrk imm s
  | .ld p sz sx oh d a off => Sys2Proof.Machine.execLd p sz sx oh d a off s
  | .st p sz oh a b off => Sys2Proof.Machine.execSt p sz oh a b off s
  | .ldts p sz sx oh d a off => Sys2Proof.Machine.execLdts p sz sx oh d a off s
  | .stts p sz oh a b off => Sys2Proof.Machine.execStts p sz oh a b off s
  | .ldtp p port sz sx oh d a off => Sys2Proof.Machine.execLdtp p port sz sx oh d a off s
  | .sttp p port sz oh a b off => Sys2Proof.Machine.execSttp p port sz oh a b off s
  | .ldpeer p peer sz sx oh d a off => Sys2Proof.Machine.execLdpeer p peer sz sx oh d a off s
  | .stpeer p peer mc sz oh a b off => Sys2Proof.Machine.execStpeer p peer mc sz oh a b off s
  | .loadResult core gang idx => Sys2Proof.Machine.execLoadResult core gang idx s
  | .lfence p kind istr scope => Sys2Proof.Machine.execLfence p kind istr scope s
  | .lfork p parent mask => Sys2Proof.Machine.execLfork p parent mask s
  | .ljoin p target mask => Sys2Proof.Machine.execLjoin p target mask s
  | .lwait p cc scope kd a b tmo => Sys2Proof.Machine.execLwait p cc scope kd a b tmo s
  | .lwaitTimeout core gang idx => Sys2Proof.Machine.execLwaitTimeout core gang idx s
  | .atom p fn nr w oh d a b off => Sys2Proof.Machine.execAtom p fn nr w oh d a b off s
  | .atomts p fn nr w oh d a b tp port off => Sys2Proof.Machine.execAtomts p fn nr w oh d a b tp port off s
  | .cas p w oh d a b c off => Sys2Proof.Machine.execCas p w oh d a b c off s
  | .casts p w oh d a b c tp port off => Sys2Proof.Machine.execCasts p w oh d a b c tp port off s
  | .vote p fn d ka b => Sys2Proof.Machine.execVote p fn d ka b s
  | .shfl p fn d a b c delta => Sys2Proof.Machine.execShfl p fn d a b c delta s
  | .scan p excl op d a b => Sys2Proof.Machine.execScan p excl op d a b s
  | .lred p op d a b => Sys2Proof.Machine.execLred p op d a b s
  | .spawn p d a off => Sys2Proof.Machine.execSpawn p d a off s
  | .quit p => Sys2Proof.Machine.execQuit p s
  | .role topc => Sys2Proof.Machine.execRole topc s
  | .lbar => Sys2Proof.Machine.execLbar s
  | .tissue p k96 a b => Sys2Proof.Machine.execTissue p k96 a b s
  | .storeLands core id => Sys2Proof.Machine.execStoreLands core id s
  | .motifPlace launch cores => Sys2Proof.Machine.execMotifPlace launch cores s
  | .classAging launch => Sys2Proof.Machine.execClassAging launch s
  | .preemptTimeout core => Sys2Proof.Machine.execPreemptTimeout core s
  | .motifHalt core => Sys2Proof.Machine.execMotifHalt core s
  | .swapOut core => Sys2Proof.Machine.execSwapOut core s
  | .faultRingRetry ctx => Sys2Proof.Machine.execFaultRingRetry ctx s
  | .motifReentry motif core => Sys2Proof.Machine.execMotifReentry motif core s
  | .tileRefill core tile => Sys2Proof.Machine.execTileRefill core tile s
  | .motifDone core => Sys2Proof.Machine.execMotifDone core s
  | .launchRecordAccept queue => Sys2Proof.Machine.execLaunchRecordAccept queue s
  | .launchEligible launch => Sys2Proof.Machine.execLaunchEligible launch s
  | .remoteInstance dev token inst pclass since record args => Sys2Proof.Machine.execRemoteInstance dev token inst pclass since record args s
  | .crossDeviceReserve launch cores commit => Sys2Proof.Machine.execCrossDeviceReserve launch cores commit s
  | .flitReceive port flit => Sys2Proof.Machine.execFlitReceive port flit s
  | .linkRetrain port lanesFailed ok => Sys2Proof.Machine.execLinkRetrain port lanesFailed ok s
  | .linkPortStateChange port up => Sys2Proof.Machine.execLinkPortStateChange port up s
  | .routeTableLoad dev gszm1 entries => Sys2Proof.Machine.execRouteTableLoad dev gszm1 entries s
  | .remoteRequest idx => Sys2Proof.Machine.execRemoteRequest idx s
  | .fabricResponse req status data poison => Sys2Proof.Machine.execFabricResponse req status data poison s
  | .fabricTimeout req => Sys2Proof.Machine.execFabricTimeout req s
  | .handleNotice core idx => Sys2Proof.Machine.execHandleNotice core idx s
  | .handleNoticeArrival sender token => Sys2Proof.Machine.execHandleNoticeArrival sender token s
  | .noticeResend idx => Sys2Proof.Machine.execNoticeResend idx s
  | .unfreeze kind master => Sys2Proof.Machine.execUnfreeze kind master s
  | .cxlBackInvalidate line => Sys2Proof.Machine.execCxlBackInvalidate line s
  | .cxlPortDown port status => Sys2Proof.Machine.execCxlPortDown port status s
  | .heatIncrement die pa wr => Sys2Proof.Machine.execHeatIncrement die pa wr s
  | .heatTableBaseWrite cxl v => Sys2Proof.Machine.execHeatTableBaseWrite cxl v s
  | .migqbWrite v => Sys2Proof.Machine.execMigqbWrite v s
  | .migqpTailWrite v => Sys2Proof.Machine.execMigqpTailWrite v s
  | .move slot => Sys2Proof.Machine.execMove slot s
  | .copy slot => Sys2Proof.Machine.execCopy slot s
  | .checkpointSave => Sys2Proof.Machine.execCheckpointSave s
  | .checkpointRestore => Sys2Proof.Machine.execCheckpointRestore s
  | .plimWindow core => Sys2Proof.Machine.execPlimWindow core s
  | .freezeCycle core => Sys2Proof.Machine.execFreezeCycle core s
  | .setPlim island win limit => Sys2Proof.Machine.execSetPlim island win limit s
  | .setFrequency island mhz => Sys2Proof.Machine.execSetFrequency island mhz s
  | .start form step run failDie cxl0 cxl1 => Sys2Proof.Machine.execStart form step run failDie cxl0 cxl1 s
  | .stageTimeout stage => Sys2Proof.Machine.execStageTimeout stage s
  | .clearFailedStarts => Sys2Proof.Machine.execClearFailedStarts s
  | .ctxCreate fn block => Sys2Proof.Machine.execCtxCreate fn block s
  | .ctxDestroy fn block => Sys2Proof.Machine.execCtxDestroy fn block s
  | .queueCreate fn block => Sys2Proof.Machine.execQueueCreate fn block s
  | .queueDestroy fn block => Sys2Proof.Machine.execQueueDestroy fn block s
  | .invalidate fn block => Sys2Proof.Machine.execInvalidate fn block s
  | .qtailWrite fn q v => Sys2Proof.Machine.execQtailWrite fn q v s
  | .resume fn v => Sys2Proof.Machine.execResume fn v s
  | .resumeAndStepOver fn v => Sys2Proof.Machine.execResumeAndStepOver fn v s
  | .kill fn v => Sys2Proof.Machine.execKill fn v s
  | .haltDoorbell fn v => Sys2Proof.Machine.execHaltDoorbell fn v s
  | .capture queue => Sys2Proof.Machine.execCapture queue s
  | .replay => Sys2Proof.Machine.execReplay s
  | .hostRegisterWrite fn off v => Sys2Proof.Machine.execHostRegisterWrite fn off v s
  | .correctedError block blockType => Sys2Proof.Machine.execCorrectedError block blockType s
  | .uncorrectedError space unit addr blockType => Sys2Proof.Machine.execUncorrectedError space unit addr blockType s
  | .selfTest block blockType lasting detail => Sys2Proof.Machine.execSelfTest block blockType lasting detail s
  | .attestation nonce ctx => Sys2Proof.Machine.execAttestation nonce ctx s
  | .certificateChainRead => Sys2Proof.Machine.execCertificateChainRead s
  | .fuseRaise cls count => Sys2Proof.Machine.execFuseRaise cls count s
  | .codeSigningKeyInstall slot key => Sys2Proof.Machine.execCodeSigningKeyInstall slot key s
  | .rowRetirementRemove stack count => Sys2Proof.Machine.execRowRetirementRemove stack count s
  | .minimalModeForce => Sys2Proof.Machine.execMinimalModeForce s
  | .translationSignature verify body sig => Sys2Proof.Machine.execTranslationSignature verify body sig s

end Sys2Proof.Machine
end

