-- ==== Sys2Proof/Machine/Loader.lean ====
section
/-! DEFINITION. Code objects as the loader reads them: the container (R411, R412), patch records (R414,
R416), the levels of a function (R415, R417), signatures (R422, R423), revisions (R418) and the status of
a load (R419). The loader is a part of the driver (log entry 81). -/
namespace Sys2Proof.Machine

/-! ## The container (R411, R412) -/

/-- A little-endian integer of a code object. -/
def objNum (bs : List Byte) (off n : Nat) : Nat := leNat ((bs.drop off).take n)

/-- A section table entry. -/
structure Sect where
  kind : Nat
  align : Nat
  off : Nat
  size : Nat
  clean : Bool             -- its unnamed bits are zero
  deriving DecidableEq, Repr, Inhabited

/-- A function table entry: its level offsets are none where the entry holds all ones. -/
structure Func where
  name : Nat
  kind : Nat
  levels : List (Option Nat)     -- tile, loop, scalar
  clean : Bool
  deriving DecidableEq, Repr, Inhabited

/-- A patch record. -/
structure Patch where
  kind : Nat
  sect : Nat
  off : Nat
  tsect : Nat
  addend : Nat
  clean : Bool
  deriving DecidableEq, Repr, Inhabited

/-- A code object. -/
structure CodeObj where
  signed : Bool
  mmrev : Nat
  archrev : Nat
  secver : Nat
  keyslot : Nat
  sects : List Sect
  funcs : List Func
  patches : List Patch
  deriving DecidableEq, Repr, Inhabited

def sectAt (bs : List Byte) (at0 : Nat) : Sect :=
  let w0 := objNum bs at0 8
  { kind := w0 % 2 ^ 32, align := w0 / 2 ^ 32 % 256, off := objNum bs (at0 + 8) 8, size := objNum bs (at0 + 16) 8,
    clean := w0 / 2 ^ 40 == 0 && objNum bs (at0 + 24) 8 == 0 }

def funcAt (bs : List Byte) (at0 : Nat) : Func :=
  let w0 := objNum bs at0 8
  let lv := fun (i : Nat) => let v := objNum bs (at0 + 8 * i) 8; if v = 2 ^ 64 - 1 then none else some v
  { name := w0 % 2 ^ 32, kind := w0 / 2 ^ 32 % 256, levels := [lv 1, lv 2, lv 3], clean := w0 / 2 ^ 40 == 0 }

def patchAt (bs : List Byte) (at0 : Nat) : Patch :=
  let w0 := objNum bs at0 8
  let w1 := objNum bs (at0 + 8) 8
  { kind := w0 / 2 ^ 56 % 16, sect := w0 / 2 ^ 48 % 256, off := w0 % 2 ^ 48, tsect := w1 / 2 ^ 56, addend := w1 % 2 ^ 56,
    clean := w0 / 2 ^ 60 == 0 }

def CodeObj.sect? (o : CodeObj) (kind : Nat) : Option Sect := o.sects.find? (·.kind == kind)
def CodeObj.sectSize (o : CodeObj) (kind : Nat) : Nat := ((o.sect? kind).map (·.size)).getD 0

/-- The object in a file. -/
def readObj (bs : List Byte) : CodeObj :=
  let sects := (List.range (objNum bs 0x18 2)).map (fun i => sectAt bs (objNum bs 0x20 8 + 32 * i))
  let reloc := (sects.find? (·.kind == 8)).getD default
  { signed := hasBit (objNum bs 0x0A 2) 0, mmrev := objNum bs 0x0C 1, archrev := objNum bs 0x0D 1,
    secver := objNum bs 0x10 4, keyslot := objNum bs 0x14 1, sects := sects,
    funcs := (List.range (objNum bs 0x1A 2)).map (fun i => funcAt bs (objNum bs 0x28 8 + 32 * i)),
    patches := (List.range (reloc.size / 16)).map (fun i => patchAt bs (reloc.off + 16 * i)) }

/-- R411: the header's fields are in range and all else in it is zero. -/
def headerOk (bs : List Byte) : Bool :=
  let zeros := fun (off n : Nat) => objNum bs off n == 0
  let signed := hasBit (objNum bs 0x0A 2) 0
  let n := objNum bs 0x18 2
  let within := fun (off len : Nat) => decide (off + len ≤ bs.length)
  decide (128 ≤ bs.length) && decide (objNum bs 0x0A 2 ≤ 1) && zeros 0x0E 2 && decide (objNum bs 0x10 4 ≤ 128) &&
  decide (objNum bs 0x14 1 ≤ 15) && (signed || zeros 0x14 1) && zeros 0x15 3 && decide (1 ≤ n ∧ n ≤ 64) && zeros 0x1C 4 &&
  zeros 0x30 80 && within (objNum bs 0x20 8) (32 * n) && within (objNum bs 0x28 8) (32 * objNum bs 0x1A 2)

/-- The bytes of a section in the file. -/
def Sect.bytes (bs : List Byte) (x : Sect) : List Byte := (bs.drop x.off).take x.size

/-- R412: what a section of a kind holds: whole records, an import's name inside STRINGS and its other words zero,
names that end. -/
def contentOk (bs : List Byte) (o : CodeObj) (x : Sect) : Bool :=
  let b := x.bytes bs
  match x.kind with
  | 8 => x.size % 16 == 0
  | 9 => x.size % 32 == 0 && (List.range (x.size / 32)).all (fun i =>
      decide (objNum b (32 * i) 8 < o.sectSize 10) && objNum b (32 * i + 8) 24 == 0)
  | 10 => b.isEmpty || b.getLast? == some 0
  | 11 => x.size % 32 == 0
  | _ => true

/-- R412: the section table and what its sections hold. The size of a SIG section is judged with the signature
(R419). -/
def sectsOk (bs : List Byte) (o : CodeObj) : Bool :=
  o.sects.all (fun x => x.clean && decide (1 ≤ x.kind ∧ x.kind ≤ 12) && decide (6 ≤ x.align ∧ x.align ≤ 30) &&
    decide (x.off + x.size ≤ bs.length) && (o.sects.filter (·.kind == x.kind)).length == 1 && contentOk bs o x) &&
  o.signed == (o.sect? 12).isSome

/-! ## Patch records (R414, R416) -/

/-- R416: the figures of the device. -/
def paramOf : Nat → Option Nat
  | 0 => some 1048576
  | 1 => some 512
  | 2 => some 128
  | 3 => some 16384
  | 4 => some 512
  | 5 => some 4
  | 6 => some 32
  | _ => none

/-- The lowest bit and the width of a PARAM field. -/
def Patch.bitLo (p : Patch) : Nat := p.addend % 64
def Patch.width (p : Patch) : Nat := p.addend / 64 % 64

/-- R414: a record names sections that are there, of a kind that it may patch, and stays inside. -/
def patchOk (o : CodeObj) (p : Patch) : Bool :=
  match o.sects[p.sect]? with
  | none => false
  | some x =>
    p.clean && decide (p.kind < 4) && p.off % 8 == 0 && decide (p.off + 8 ≤ x.size) &&
    (if p.kind = 2 then
      (x.kind == 3 || x.kind == 4) && (paramOf p.tsect).isSome && p.addend / 4096 == 0 && decide (p.bitLo + p.width ≤ 64)
     else
      (x.kind == 6 || x.kind == 7) &&
      (if p.kind = 3 then p.tsect == 0 && decide (32 * p.addend + 32 ≤ o.sectSize 9)
       else decide (p.tsect < o.sects.length)))

/-- A parameter fits its field. -/
def paramFits (p : Patch) : Bool := p.kind != 2 || decide ((paramOf p.tsect).getD 0 < 2 ^ p.width)

/-- What a patched field becomes. `base` gives the load address of a section and `stub` the address of an
import's stub. -/
def patchWord (base stub : Nat → Nat) (p : Patch) (old : W64) : W64 :=
  match p.kind with
  | 0 => w64 (base p.tsect + p.addend)
  | 1 => sf old 0 57 (va57 (base p.tsect + p.addend))
  | 2 => sf old p.bitLo p.width ((paramOf p.tsect).getD 0)
  | _ => w64 (stub p.addend)

/-- The bytes of a section once its records are applied, in section order. -/
def patchSect (o : CodeObj) (base stub : Nat → Nat) (n : Nat) (bs : List Byte) : List Byte :=
  (o.patches.filter (·.sect == n)).foldl (fun bs p =>
    let old := w64 (objNum bs p.off 8)
    bs.take p.off ++ leBytes 8 (patchWord base stub p old).toNat ++ bs.drop (p.off + 8)) bs

/-! ## Levels (R415, R417) -/

/-- The section that holds a level of a function: bundles of a motif, lane code of a routine. -/
def levelSect (kind lv : Nat) : Nat := if lv = 2 then 5 else if kind = 0 then 1 + 2 * lv else 2 + 2 * lv

/-- R415: at least one level, and each within its own section. -/
def funcOk (o : CodeObj) (f : Func) : Bool :=
  f.clean && decide (f.kind < 3) && decide (f.name < o.sectSize 10) && f.levels.any (·.isSome) &&
  (f.levels.zipIdx).all (fun x => x.1.all (fun off => decide (off < o.sectSize (levelSect f.kind x.2))))

/-- R415: lane code at the scalar level uses no tile port, and no M, V or S opcode: TISSUE there issues K words alone
(log entry 81). -/
def scalarWord (w : W64) : Bool :=
  match decode (.lane w) with
  | .ok (.ldtp _ _ _ _ _ _ _ _) | .ok (.sttp _ _ _ _ _ _ _) | .ok (.tissue _ false _ _) => false
  | _ => true

def scalarOk (bs : List Byte) (o : CodeObj) : Bool :=
  (o.sect? 5).all (fun x => (List.range (x.size / 8)).all (fun i => scalarWord (w64 (objNum bs (x.off + 8 * i) 8))))

/-- R417: the level that is used. -/
def levelOf (s : State) (o : CodeObj) (f : Func) : Option Nat :=
  let has := fun (i : Nat) => (f.levels.getD i none).isSome
  if has 0 && decide (o.archrev ≤ gf (devid s) 8 8) then some 0
  else if has 1 then some 1 else if has 2 then some 2 else none

/-! ## Selvedge points (R347) -/

/-- A bundle of a section: its length, SELV, and its C slot. -/
structure Bund where
  len : Nat
  selv : Bool
  c : Option Instr

def bundleIn (bs : List Byte) (off : Nat) : Option Bund :=
  match headerOf (BitVec.ofNat 16 (objNum bs off 2)) with
  | .error _ => none
  | .ok h =>
    if bs.length < off + h.length then none
    else some { len := h.length, selv := h.selv,
                c := if h.pc then okInstr (decode (.c (BitVec.ofNat 32 (objNum bs (off + 2) 4)))) else none }

/-- Where a path through the bundles of a section stands: its bundle, the returns that are open, and the nest that runs:
where its body begins, the bundles of a pass, the place in it, the passes left, and whether it is not pipelined. -/
structure PathAt where
  off : Nat
  calls : List Nat
  nest : Option (Nat × Nat × Nat × Nat × Bool)
  deriving DecidableEq, Repr

/-- What a path reads: the section, its kind, and what the loader knows of its scalars. -/
structure PathEnv where
  bs : List Byte
  kind : Nat
  plan : LoadPlan

/-- R289, R347: the bundle is a selvedge point. -/
def PathEnv.selv (e : PathEnv) (p : PathAt) : Bool :=
  (bundleIn e.bs p.off).any (·.selv) && p.nest.all (fun n => n.2.2.2.2)

/-- Where n bundles from an offset end. -/
def skipIn (bs : List Byte) : Nat → Nat → Option Nat
  | 0, off => some off
  | n + 1, off => (bundleIn bs off).bind (fun b => skipIn bs n (off + b.len))

/-- The trips of a LOOP: any number, where the loader does not know better. -/
def PathEnv.trips (e : PathEnv) (off : Nat) : Nat × Nat :=
  ((e.plan.trips.find? (·.1 == (e.kind, off))).map (·.2)).getD (0, 2 ^ 48)

def PathEnv.targets (e : PathEnv) (off : Nat) : List Nat :=
  ((e.plan.targets.find? (·.1 == (e.kind, off))).map (·.2)).getD []

/-- Inside a nest nothing transfers but the end of a pass (R287): the next pass, `dec` fewer being left, or what follows
the nest. -/
def nestSuccs (dec next : Nat) (p : PathAt) (n : Nat × Nat × Nat × Nat × Bool) : List PathAt :=
  let (beg, len, pos, left, plain) := n
  if pos + 1 < len then [{ p with off := next, nest := some (beg, len, pos + 1, left, plain) }]
  else (if left = 0 then [] else [{ p with off := beg, nest := some (beg, len, 0, left - dec, plain) }]) ++
    [{ p with off := next, nest := none }]

/-- Where execution may go on after a bundle (R82, R84, R286, R287). A transfer under a predicate may not be taken. An
indirect transfer goes where the loader knows; where it does not, a call goes on at its return and any other ends the
path, as does SYS (log entry 81). -/
def PathEnv.succs (e : PathEnv) (dec : Nat) (p : PathAt) : List PathAt :=
  match bundleIn e.bs p.off with
  | none => []
  | some b =>
    let next := p.off + b.len
    let rel := fun (d : BitVec 20) => let a := (p.off : Int) + d.toInt * 2; if a < 0 then [] else [a.toNat]
    let fall := fun (g : Guard) => if g.spe then [next] else []
    let goTo := fun (cs : List Nat) (l : List Nat) => l.map (fun o => ({ off := o, calls := cs, nest := none } : PathAt))
    let known := e.targets p.off
    match p.nest, b.c with
    | some n, some (.br g _) | some n, some (.brInd g _) | some n, some (.call g _) | some n, some (.callInd g _)
    | some n, some (.ret g _) | some n, some (.sys g) | some n, some (.tret g) =>
      if g.spe then nestSuccs dec next p n else []
    | some n, _ => nestSuccs dec next p n
    | none, some (.br g d) => goTo p.calls (fall g ++ rel d)
    | none, some (.brInd g _) => goTo p.calls (fall g ++ known)
    | none, some (.call g d) => goTo p.calls (fall g) ++ goTo (next :: p.calls) (rel d)
    | none, some (.callInd g _) =>
      if known.isEmpty then goTo p.calls [next] else goTo p.calls (fall g) ++ goTo (next :: p.calls) known
    | none, some (.ret g _) =>
      goTo p.calls (fall g) ++
        (match p.calls with
         | r :: rest => goTo rest [r]
         | [] => goTo [] known)
    | none, some (.sys g) | none, some (.tret g) => goTo p.calls (fall g)
    | none, some (.loop g bodym1 stm1 _ _ _) =>
      let (least, most) := e.trips p.off
      let len := bodym1.toNat + 1
      goTo p.calls (fall g) ++
        (if least = 0 then goTo p.calls (skipIn e.bs len next).toList else []) ++
        (if most = 0 then [] else
          [{ p with off := next, nest := some (next, len, 0, min (most + stm1.toNat) 16386 - 1, stm1 == 0) }])
    | none, _ => goTo p.calls [next]

/-- The places that a path may stand at; the passes of a nest are not told apart. -/
def PathEnv.reach (e : PathEnv) : Nat → List PathAt → List PathAt → List PathAt
  | 0, _, seen => seen
  | n + 1, front, seen =>
    let new := ((front.flatMap (e.succs 0)).filter (fun p => (bundleIn e.bs p.off).isSome && !seen.contains p)).eraseDups
    if new.isEmpty then seen else e.reach n new (seen ++ new)

/-- A path goes on for n more bundles with no selvedge point. -/
def PathEnv.long (e : PathEnv) : Nat → List PathAt → Bool
  | 0, front => !front.isEmpty
  | n + 1, front =>
    if front.isEmpty then false
    else e.long n (((front.flatMap (e.succs 1)).filter (fun p => (bundleIn e.bs p.off).isSome && !e.selv p)).eraseDups)

/-- R347: a path from an entry executes more than 16,384 bundles between selvedge points, each body bundle counted once
in each pass. -/
def PathEnv.selvFar (e : PathEnv) (entry : Nat) : Bool :=
  let p0 : PathAt := ⟨entry, [], none⟩
  if (bundleIn e.bs entry).isNone then false
  else e.long 16384 (p0 :: (e.reach (16384 * e.bs.length) [p0] [p0]).filter e.selv)

/-- A section with its records applied as the loader's plan places things (R414). -/
def placedSect (bs : List Byte) (o : CodeObj) (plan : LoadPlan) (n : Nat) : List Byte :=
  patchSect o (fun i => (plan.sects.getD i (0, 0)).1) (fun i => plan.stubs.getD i 0) n ((o.sects.getD n default).bytes bs)

/-- The section of a kind, so placed; none of its bytes where it is absent. -/
def placedKind (bs : List Byte) (o : CodeObj) (plan : LoadPlan) (kind : Nat) : List Byte :=
  ((o.sects.findIdx? (·.kind == kind)).map (placedSect bs o plan)).getD []

/-- R417, R347: a motif of the object, at the level that is used, lacks its selvedge points. The bundles of a scalar
level are the loader's own. -/
def selvBad (s : State) (bs : List Byte) (o : CodeObj) (plan : LoadPlan) : Bool :=
  o.funcs.any (fun f => f.kind == 0 && (match levelOf s o f with
    | some lv =>
      let kind := levelSect 0 lv
      lv != 2 && PathEnv.selvFar ⟨placedKind bs o plan kind, kind, plan⟩ ((f.levels.getD lv none).getD 0)
    | none => false))

/-! ## Signatures and the status of a load (R418, R419, R422, R423) -/

/-- R422: every byte in file order, the SIG section's own taken as zero. -/
def objDigest (bs : List Byte) (o : CodeObj) : List Byte :=
  match o.sect? 12 with
  | none => digest bs
  | some x => digest (bs.take x.off ++ List.replicate 144 0 ++ bs.drop (x.off + 144))

/-- The signature of an object is there where the context asks for one, and valid for its slot. -/
def sigOk (s : State) (x : Context) (bs : List Byte) (o : CodeObj) : Bool :=
  match o.sect? 12 with
  | none => !x.sigreq && o.secver == 0
  | some g =>
    let d := objDigest bs o
    g.size == 144 && (bs.drop g.off).take 48 == d && s.keys.any (fun e => e.1 == o.keyslot) &&
      ecdsaOk (mget (fun _ => []) s.keys o.keyslot) (beNat d) ((bs.drop (g.off + 48)).take 96)

/-- R419: the status of a load into a context. -/
def loadStatus (s : State) (x : Context) (bs : List Byte) (plan : LoadPlan) : Nat :=
  let o := readObj bs
  if decide (bs.length < 10) || objNum bs 0 8 != 0x000031524F4E594C || objNum bs 8 2 != 1 then 1
  else if !headerOk bs || !sectsOk bs o || !o.patches.all (patchOk o) || !o.funcs.all (funcOk o) || !scalarOk bs o ||
      decide (o.mmrev ≠ 1 ∧ o.mmrev ≠ 2) then 2
  else if !sigOk s x bs o then 3
  else if o.signed && decide (o.secver < fuse s (4 + o.keyslot)) then 4
  else if o.mmrev == 1 && !x.fstr then 5
  else if o.funcs.any (fun f => (levelOf s o f).isNone) then 6
  else if selvBad s bs o plan then 7
  else if !o.patches.all paramFits then 8
  else if 256 ≤ x.objects.length then 9
  else 0

/-! ## Translations and their cache (R424) -/

/-- DEVID with FORM and DIEMASK taken as zero. -/
def targetOf (s : State) : W64 := sf (sf (devid s) 28 4 0) 24 4 0

/-- An entry is for a source and this target. -/
def entryFor (s : State) (d : List Byte) (e : List Byte) : Bool :=
  e.take 48 == d && w64 (objNum e 0x38 8) == targetOf s

/-- A cached translation serves a load where it is of this object, of the loader's translator, and signed by the
device's translation key. -/
def cacheOk (bs : List Byte) (version : Nat) (e : List Byte) : Bool :=
  let o := readObj bs
  objNum e 0x30 4 == o.secver && objNum e 0x34 1 == o.keyslot && objNum e 0x40 4 == version &&
  verifyMsg (publicKey translationKey) (e.take 0x60 ++ e.drop 192) ((e.drop 0x60).take 96)

/-- A new entry: the header, signed with the translation, and the translation. -/
def newEntry (s : State) (d : List Byte) (o : CodeObj) (version : Nat) (tr : List Byte) : List Byte :=
  let head := d ++ leBytes 4 o.secver ++ leBytes 1 o.keyslot ++ List.replicate 3 0 ++ le8 (targetOf s).toNat ++
    leBytes 4 version ++ List.replicate 28 0
  head ++ signMsg translationKey (head ++ tr) ++ tr

/-- The object is used through a translation: some function of it runs at its loop or scalar level. -/
def translates (s : State) (o : CodeObj) : Bool :=
  o.funcs.any (fun f => levelOf s o f == some 1 || levelOf s o f == some 2)

/-- The translation: the loop level's sections as they are patched, then the scalar form, which is the loader's. -/
def freshTranslation (bs : List Byte) (o : CodeObj) (plan : LoadPlan) : List Byte :=
  placedKind bs o plan 3 ++ placedKind bs o plan 4 ++ plan.translation

/-! ## A load (R413, R414, R417, R424) -/

/-- The parts of the object that are mapped, each with its virtual and physical address: sections 1 to 7, the loop level
taken from the translation, and the scalar form after the last section. -/
def loadedParts (bs : List Byte) (o : CodeObj) (plan : LoadPlan) (tr : List Byte) :
    List (Nat × (Nat × Nat) × List Byte) :=
  let a := o.sectSize 3
  let b := o.sectSize 4
  let part := fun (n : Nat) =>
    let x := o.sects.getD n default
    (x.kind, plan.sects.getD n (0, 0),
      if x.kind = 3 ∧ !tr.isEmpty then tr.take a else if x.kind = 4 ∧ !tr.isEmpty then (tr.drop a).take b
      else placedSect bs o plan n)
  ((List.range o.sects.length).map part).filter (fun p => decide (1 ≤ p.1 ∧ p.1 ≤ 7)) ++
    (if tr.length ≤ a + b then [] else [(5, plan.sects.getD o.sects.length (0, 0), tr.drop (a + b))])

/-- The entry of the object table (R413): the range of the object's code, its pool, and a zero word. -/
def tableEntry (parts : List (Nat × (Nat × Nat) × List Byte)) : List W64 :=
  let code := parts.filter (fun p => decide (p.1 ≤ 5))
  let base := code.foldl (fun m p => if m ≤ p.2.1.1 then m else p.2.1.1) (2 ^ 57 - 1)
  let lim := code.foldl (fun m p => max m (p.2.1.1 + p.2.2.length)) 0
  let pool := ((parts.find? (·.1 == 6)).map (·.2.1.1)).getD 0
  (if code.isEmpty then [0, 0] else [w64 base, w64 lim]) ++ [w64 pool, 0]

/-- The driver's writes of a load: the parts, its page-table words, and the entry of the object table. -/
def placeObj (s : State) (x : Context) (plan : LoadPlan) (parts : List (Nat × (Nat × Nat) × List Byte)) : State :=
  let s1 := parts.foldl (fun s p => mappedWrite s p.2.1.2 p.2.2) s
  let s2 := plan.ptes.foldl (fun s e => mappedWrite s e.1 (le8 e.2.toNat)) s1
  mappedWrite s2 (x.objtab + 32 * plan.slot) ((tableEntry parts).flatMap (fun w => le8 w.toNat))

/-- The cache after a load, and whether an entry served it. The source is checked first: a revoked one loses its entry,
and an entry that does not serve gives way to a new one. -/
def cacheAfter (s : State) (bs : List Byte) (o : CodeObj) (plan : LoadPlan) (st : Nat) : List (List Byte) × Bool :=
  let d := objDigest bs o
  let purged := s.cache.filter (fun e => !entryFor s d e)
  if st = 4 then (purged, false)
  else if st ≠ 0 || !translates s o then (s.cache, false)
  else if (s.cache.find? (entryFor s d)).any (cacheOk bs plan.version) then (s.cache, true)
  else (purged ++ [newEntry s d o plan.version (freshTranslation bs o plan)], false)

/-- A load: where it is accepted, the object is placed, patched and mapped, and the context holds it; the host learns
the status, and whether a cached translation served it. -/
def loadObj (s : State) (ctx : Nat) (bs : List Byte) (plan : LoadPlan) : State :=
  match s.context? ctx with
  | none => s
  | some x =>
    let o := readObj bs
    let st := loadStatus s x bs plan
    let (cache, used) := cacheAfter s bs o plan st
    let s1 := { s with mailbox := s.mailbox ++ [.load st used], cache := cache }
    if st ≠ 0 then s1
    else
      let d := objDigest bs o
      let tr := if translates s o then ((cache.find? (entryFor s d)).map (·.drop 192)).getD [] else []
      (placeObj s1 x plan (loadedParts bs o plan tr)).setContext
        { x with objects := x.objects ++ [(d, o.secver, o.keyslot)] }

end Sys2Proof.Machine
end

