-- ==== Sys2Proof/Machine/Next.lean ====
section
/-! DEFINITION. Whose move it is: the turns that are listed, else the agent in focus, which fetches and
runs its next bundle or lane instruction; and how a word is laid where the sequencer fetches. -/
namespace Sys2Proof.Machine

/-! ## The sequencer moves (R47, R57, R66) -/

/-- The one instruction of a bundle that holds a single slot and is no selvedge point, or of a null
bundle, with the bundle's length. -/
def soloAt (s : State) (c : Nat) : Option (Instr × Nat) :=
  let k := s.core c
  match fetchBundle s c k.bpc (fetchTrap k.bpc) with
  | .bundle b len =>
    (match decodeSlots k b with
     | .ok [] => some (.nullBundle b.hdr.selv, len)
     | .ok [x] => if b.hdr.selv then none else some (x.i, len)
     | _ => none)
  | _ => none

/-- The sequencer of a core moves: one instruction where its bundle holds only one, else the bundle. -/
def seqMove (s : State) (c : Nat) : Out :=
  if !seqCanIssue s c then exec .bundleIssue s
  else
    match soloAt s c with
    | some (i, len) => exec i (cacheFetch s c (s.core c).bpc len)
    | none => exec .bundleIssue s

/-! ## A gang moves (R138, R151) -/

/-- R219: the lane instruction cache holds 512 lines. -/
def laneLine (s : State) (c line : Nat) (t0 : Trap) : Rd :=
  match (s.core c).lcache.find? (·.1 == line) with
  | some e => .bytes e.2
  | none => gmLoad s c none (line * 64) 64 .lfetch t0

def keepLaneLine (s : State) (c pc : Nat) (bs : List Byte) : State :=
  keepVa (s.modCore c (fun k => { k with lcache := keepLine 512 k.lcache (pc / 64) bs })) c pc .lfetch

/-- The batch that the gang selects fetches its instruction, which is then executed. A fetch fault and
an undecodable word name the batch's lowest lane (R160, R330). -/
def gangMove (s : State) (c g : Nat) : Out :=
  let k := s.core c
  let x := k.gangAt g
  match pickPc x with
  | none => .next s
  | some pc =>
    let t : Trap := laneTrap k g ((batchLanes x pc).headD 0) pc 0
    match laneLine s c (pc / 64) { t with slot := 7, acc := 3 } with
    | .wait tr => .next (askLoad s c none tr (pc / 64 * 64) 64 0)
    | .stop (.trap tr) => .next (raiseTrap s c { tr with faddr := pc })
    | .stop st => .next (takeStop s c st)
    | .bytes bs =>
      let w := w64 (leNat ((bs.drop (pc % 64)).take 8))
      match decode (.lane w) with
      | .error _ => .next (raiseTrap s c { t with w0 := w })
      | .ok i => exec i (keepLaneLine s c pc bs)

/-! ## The shared units of a core (R139) -/

/-- The unit that the gangs of a core compete for. -/
inductive LaneUnit where
  | sfu | lsu
  deriving DecidableEq, Repr

def unitOfLane : Instr → Option LaneUnit
  | .sfu _ _ _ _ => some .sfu
  | .ld _ _ _ _ _ _ _ | .st _ _ _ _ _ _ | .ldts _ _ _ _ _ _ _ | .stts _ _ _ _ _ _ | .ldtp _ _ _ _ _ _ _ _
  | .sttp _ _ _ _ _ _ _ | .ldpeer _ _ _ _ _ _ _ _ | .stpeer _ _ _ _ _ _ _ _ | .lwait _ _ _ _ _ _ _
  | .atom _ _ _ _ _ _ _ _ _ | .atomts _ _ _ _ _ _ _ _ _ _ _ | .cas _ _ _ _ _ _ _ _ | .casts _ _ _ _ _ _ _ _ _ _ =>
    some .lsu
  | _ => none

/-- The unit that the next batch of a gang asks for, where its instruction is here. -/
def unitWanted (s : State) (c g : Nat) : Option LaneUnit :=
  if !gangCanIssue s c g then none
  else
    (pickPc ((s.core c).gangAt g)).bind (fun pc =>
      match laneLine s c (pc / 64) { cause := .illegal } with
      | .bytes bs => (okInstr (decode (.lane (w64 (leNat ((bs.drop (pc % 64)).take 8)))))).bind unitOfLane
      | _ => none)

/-- R139: of the gangs that ask for a unit, the one that is served: the highest class, and round-robin among
equals, after the gang served last. -/
def servedGang (s : State) (c : Nat) (u : LaneUnit) (last : Nat) : Option Nat :=
  let gs := ((List.range 4).map (fun n => (last + 1 + n) % 4)).filter (fun g => unitWanted s c g == some u)
  let pri := fun (g : Nat) => ((s.core c).gangAt g).gpri
  gs.find? (fun g => gs.all (fun h => decide (pri h ≤ pri g)))

def lastServed (k : Core) : LaneUnit → Nat
  | .sfu => k.sfuLast
  | .lsu => k.lsuLast

def setServed (u : LaneUnit) (g : Nat) (k : Core) : Core :=
  match u with
  | .sfu => { k with sfuLast := g }
  | .lsu => { k with lsuLast := g }

/-- A gang moves, or the gang to which it yields a unit of the core. -/
def gangTurn (s : State) (c g : Nat) : Out :=
  match unitWanted s c g with
  | none => gangMove s c g
  | some u =>
    let w := (servedGang s c u (lastServed (s.core c) u)).getD g
    gangMove ({ s with focus := .gang c w }.modCore c (setServed u w)) c w

/-! ## Turns (log entry 2) -/

/-- A cached bundle line, lane line or translation is dropped (R216, R219). -/
def evict (s : State) (c kind line : Nat) : State :=
  s.modCore c (fun k =>
    match kind with
    | 0 => { k with bcache := mdel k.bcache line }
    | 1 => { k with lcache := mdel k.lcache line }
    | _ => { k with trans := k.trans.filter (fun t => !(decide (t.vbase ≤ line ∧ line < t.vbase + t.size))) })

/-- Code is fetched ahead of need: a bundle line or a line of lane code, as memory now holds it. A fault is not
reported (R66). -/
def prefetch (s : State) (c kind line : Nat) : State :=
  if kind = 0 then keepVa (cacheLine s c line) c (line * 64) .bfetch
  else
    match laneLine s c line { cause := .illegal } with
    | .bytes bs => keepLaneLine s c (line * 64) bs
    | _ => s

/-- R251, last row: the bytes of a load to come are read ahead of what its agent still issues before it under other
handles; nothing that the load must follow is out, and none of its bytes waits in the agent's own buffers. -/
def readAhead (s : State) (c : Nat) (ag : Agent) (h : Nat) (sp : Space) (a n : Nat) : State :=
  let k := s.core c
  let busy := match ag with
    | .seq => k.upk.isSome
    | .fibre g l => ((k.gangAt g).fibre l).st != .ready
  let o := ownerOf c sp
  let rd := match sp with
    | .gm => gmLoad s c (some ag) a n .read { cause := .illegal }
    | .mcast => Rd.wait Trans.none
    | _ => if (o == c || peerGrant s c o) && decide (a + n ≤ k.share) then
        tsLoad s c o (some ag) sp a n { cause := .illegal } else Rd.wait Trans.none
  if busy || k.frozen || !clearOf k (loadDeps k ag h) || !(forwards k ag sp a n).isEmpty then s
  else
    match rd with
    | .bytes bs => s.modCore c (fun k => { k.useAhead ag h sp a n with
        ahead := (k.useAhead ag h sp a n).ahead ++ [⟨ag, h, sp, a, bs⟩] })
    | _ => s

/-- A launch's motifs on other devices have all arrived at a barrier of system scope (R91). -/
def farArrive (s : State) (token : W64) (id : Nat) : State :=
  { s with launches := s.launches.map (fun (l : Launch) =>
      if l.token = token && !l.far.contains id then { l with far := id :: l.far } else l) }

/-- The driver sets the ranges of physical memory that a context may use (R352). -/
def grantRanges (s : State) (ctx : Nat) (ranges : Option (List (Nat × Nat))) : State :=
  match s.context? ctx with
  | none => s
  | some x => s.setContext { x with grants := ranges }

/-- A write of the host to device memory, where it is mapped and its port is up (R393); a page at its switch holds it
(R397), and one that is read-duplicate is marked (R399). -/
def hostDma (s : State) (pa : Nat) (bs : List Byte) : State :=
  if !(inHbm s pa bs.length || inCxl s pa bs.length) then s
  else if heldByMove s pa bs.length then { s with turns := s.turns ++ [.hostWrite pa bs] }
  else
    mappedWrite (if dupPage s pa bs.length then { s with hostTouched := s.hostTouched ++ [(pa, bs.length)] } else s)
      pa bs

/-- What a listed turn does. An instruction that has a code word comes only from memory. -/
def runTurn (t : Turn) (s : State) : Out :=
  match t with
  | .focus f => .next { s with focus := f }
  | .event i => if (encode i).isSome then .next s else exec i s
  | .tick n => .next (ticks n s)
  | .evict c kind line => .next (evict s c kind line)
  | .prefetch c kind line => .next (prefetch s c kind line)
  | .ahead c ag h sp a n => .next (readAhead s c ag h sp a n)
  | .farArrive token id => .next (farArrive s token id)
  | .grant ctx ranges => .next (grantRanges s ctx ranges)
  | .remoteToken token ok =>
    .next { s with remoteDone := s.remoteDone ++ [(token, if ok then 1 else 0)] }
  | .remotePart token inst ok => .next (remotePart s token inst ok)
  | .hostWrite pa bs => .next (hostDma s pa bs)
  | .hostMem a bs => .next { s with hostMem := putBytes s.hostMem a bs }
  | .hostRead fn off => .next (hostAsk s fn off)
  | .exports es => .next { s with exports := es }
  | .load ctx bs plan => .next (loadObj s ctx bs plan)

/-- The agent in focus moves; where it cannot, a cycle passes. -/
def moveFocus (s : State) : Out :=
  match s.focus with
  | .seq c => if seqLive s c then seqMove s c else .next (tickOnce s)
  | .gang c g => if gangCanIssue s c g then gangTurn s c g else .next (tickOnce s)

/-! ## Around a move -/

/-- What is to move: a listed turn, else the agent in focus. -/
def moverOf (s : State) : Option Turn := s.turns.head?

/-- An agent that moves in a gang is the only one there. -/
def aloneIn (s : State) (c g : Nat) (ag : Agent) : Bool :=
  match ag with
  | .fibre h l => h == g && liveLanes ((s.core c).gangAt g) == [l]
  | .seq => false

/-- R252: what is to move may find a store of core c that its agent has fenced at a scope still in its buffer: it is
the agent itself, or it lies outside the scope, or it makes no access. -/
def mayStand (s : State) (c : Nat) (b : BufStore) (sc : Nat) : Bool :=
  let gangOk := fun (d g : Nat) => if d = c then aloneIn s c g b.agent && b.also.isEmpty else !sameScope sc c d
  let focusOk : Bool := match s.focus with
    | .seq d => seqLive s d && (if d = c then b.agent == .seq else !sameScope sc c d)
    | .gang d g => gangCanIssue s d g && gangOk d g
  match moverOf s with
  | none => focusOk
  | some (.focus _) => true
  | some (.event i) =>
    (match i with
     | .storeLands d id =>
       if d = c then ((s.core c).buf.find? (·.id == id)).all (fun x => x.agent == b.agent) else !sameScope sc c d
     | .loadResult d g _ => gangOk d g
     | .remoteRequest _ | .flitReceive _ _ => true
     | _ => false)
  | some _ => false

/-- R252: the fenced stores land that what is to move may not find in their buffers. -/
def unveil (s : State) : State :=
  (s.cores.map (·.1)).foldl (fun s c =>
    if (s.core c).buf.any (fun b => b.veil.any (fun sc => !mayStand s c b sc)) then
      landThese s c ((s.core c).buf.filter (fun b => b.veil.isSome && landsHere s b))
    else s) s

/-- What can stop an access that could be made before it (R160, R216, R351, R352, R393). -/
def mayStop : Turn → Bool
  | .evict _ _ _ | .grant _ _ => true
  | .event i =>
    (match i with
     | .uncorrectedError _ _ _ _ | .cxlPortDown _ _ | .invalidate _ _ | .ctxCreate _ _ | .move _ => true
     | _ => false)
  | _ => false

/-- The state as what is to move finds it. -/
def before (s : State) : State := unveil (if (moverOf s).any mayStop then landRest s else s)

/-- What has been waiting for a word of memory sees what a move has changed (R86, R192). -/
def watched (s0 : State) : Out → Out
  | .next s => .next (lwaitWatch s0 (waitsWatch s0 s))
  | o => o

/-- A move, with what stands around it. -/
def move (s0 : State) : Out :=
  let s := before s0
  watched s0 (match s0.turns with
    | t :: rest => runTurn t { s with turns := rest }
    | [] => moveFocus s)

/-! ## A word where the sequencer fetches -/

/-- The bytes of a bundle that holds one code word (R56, R57). -/
def soloBytes : CodeWord → List Byte
  | .header w => leBytes 2 w.toNat
  | .c w => leBytes 2 0x4000 ++ leBytes 4 w.toNat
  | .m w => leBytes 2 0x2000 ++ leBytes 8 w.toNat
  | .v w => leBytes 2 0x1000 ++ leBytes 8 w.toNat
  | .k w => leBytes 2 0x0800 ++ leBytes 12 w.toNat
  | .s w => leBytes 2 0x0400 ++ leBytes 8 w.toNat
  | .lane w => leBytes 8 w.toNat

/-- Core c holds a motif that runs: the one it has, or a new one of a launch of its own. -/
def withMotif (s : State) (c : Nat) : State :=
  match s.motifOn c with
  | some m => s.setMotif { m with st := .running }
  | none =>
    let l : Launch :=
      { id := s.nextLaunch, token := 0, queue := 0, slot := 0, addr := 0, virt := false, ctx := (s.core c).ctx,
        fn := 0, recd := [], deps := [], bad := false, args := [], st := .running, eligAt := 0, boost := 0,
        total := 1, placed := 1, ended := 0, ranOn := [c], home := none, replayOf := 0, reserved := [],
        devices := [], vctx := (s.core c).ctx, far := [] }
    let m : Motif :=
      { id := s.nextMotif, launch := l.id, index := 0, lidx := [], st := .running, core := some c,
        frame := none, saved := none, fault := none, pendingTrap := false, placedAt := s.time, lease := .idle,
        giveUp := none, preemptAt := 0,
        ranOn := [c] }
    { s.modCore c (fun k => { k with motif := some m.id }) with
      launches := s.launches ++ [l], nextLaunch := s.nextLaunch + 1, motifs := s.motifs ++ [m],
      nextMotif := s.nextMotif + 1 }

/-- Bytes of code where the sequencer of core 0 fetches next: its page is translated to itself, its
motif runs, and it is its turn. -/
def placeCode (s : State) (bs : List Byte) : State :=
  let s1 := withMotif s 0
  let k := s1.core 0
  let at' := k.bpc / 2 * 2
  let t : Trans := { ctx := k.ctx, vbase := at' / 65536 * 65536, size := 131072,
                     pbase := at' / 65536 * 65536, loc := 0, tdev := 0, r := true, w := true, xb := true, xl := true }
  let k1 := { k with
    bpc := at', ended := false, seqStopped := false, selvedge := false, halt := none, skid := 0, arrived := none, first := [],
    frozen := false, credit := if k.credit ≤ 0 then 1 else k.credit, bcache := [], trans := t :: k.trans }
  { s1.setCore 0 k1 with mem := putBytes s1.mem at' bs, turns := [], focus := .seq 0,
                         poison := s1.poison.filter (fun l => !overlap (l * 64) 64 at' bs.length) }

def placeWord (s : State) (nbits w : Nat) : State :=
  match tableWord nbits w with
  | some cw => placeCode s (soloBytes cw)
  | none => placeCode s (leBytes ((nbits + 7) / 8) w)

end Sys2Proof.Machine
end

