-- ==== Sys2Proof/Machine/Step.lean ====
section
/-! DEFINITION. One step of the machine: the first listed turn, else the agent in focus, with what stands around its
move. -/
namespace Sys2Proof.Machine

def step (s : State) : Host.Outcome State Fault Refusal := move s

def State.withFetchWord (s : State) (nbits w : Nat) : State := placeWord s nbits w

end Sys2Proof.Machine
end

