-- ==== Sys2Proof/Safety.lean ====
section
/-! DEFINITION. What the claims speak of: a step that completes, the invariant of the device, when a
sequencer or a gang may move, and the state that one bundle or lane instruction leaves. -/
namespace Sys2Proof.Machine

/-! ## Steps -/

/-- The move completes: the machine has a next state. -/
def Completes (o : Out) : Prop := ∃ t, o = .next t

/-- The invariant of the device: global memory keeps its canonical form. -/
def State.Inv (s : State) : Prop := Memory.wf s.mem = true

/-- Global memory reads byte for byte as before. -/
def SameMem (s t : State) : Prop := ∀ a, byteAt t.mem a = byteAt s.mem a

/-- Nothing of the device changes but core c. -/
def OnlyCore (s t : State) (c : Nat) : Prop := t = { s with cores := t.cores } ∧ ∀ o, o ≠ c → t.core o = s.core o

/-! ## A bundle of one slot -/

/-- The sequencer of core c is in focus and may issue its next bundle: its motif runs, no halt, freeze,
barrier or spent power budget holds it back (R47, R91, R246, R332, R352). -/
def CanIssue (s : State) (c : Nat) : Prop := s.focus = .seq c ∧ seqCanIssue s c = true

/-- R60: the guard lets the slot take effect. -/
def Enabled (k : Core) (g : Guard) : Prop := g.spe = false ∨ k.q g.qsel.toNat = true

/-- The bundle at BPC that holds one slot, of a class: who issues it, from where, and what its
registers held before (R47). -/
def solo (s : State) (c cls : Nat) : Env :=
  { c := c, who := .seq, pre := s, base := (s.core c).bpc, next := va57 ((s.core c).bpc + oneLen cls) }

/-- The core after a bundle of `len` bytes and weight `w` whose one slot changes it by `f`: BPC has
passed the bundle, a running nest has moved on, the issue is counted; all else is as `f` leaves it. -/
def issuedCore (k : Core) (len w : Nat) (f : Core → Core) : Core :=
  countCore w (nestEnd (lsRun k.lstat) (va57 (k.bpc + len)) (f (k.setBpc (va57 (k.bpc + len)))))

/-- The device after that bundle: only core c has changed. -/
def issued (s : State) (c len w : Nat) (f : Core → Core) : State :=
  s.setCore c (issuedCore (s.core c) len w f)

/-- The device as a C or V slot finds it: BPC has passed the bundle. -/
def passed (s : State) (c len : Nat) : State := s.modCore c (·.setBpc (va57 ((s.core c).bpc + len)))

/-- The device as an M, K or S slot finds it: the nest, too, has moved on. -/
def passedNest (s : State) (c len : Nat) : State :=
  (passed s c len).modCore c (nestEnd (lsRun (s.core c).lstat) (va57 ((s.core c).bpc + len)))

/-- The device after a bundle whose one C or V slot changes it by `f`. -/
def issuedBy (s : State) (c len w : Nat) (f : State → State) : State :=
  ((f (passed s c len)).modCore c (nestEnd (lsRun (s.core c).lstat) (va57 ((s.core c).bpc + len)))).modCore c
    (countCore w)

/-- The device after a bundle whose one M, K or S slot changes it by `f`. -/
def issuedAfter (s : State) (c len w : Nat) (f : State → State) : State :=
  (f (passedNest s c len)).modCore c (countCore w)

/-- What a load of an agent finds: its bytes as they stand, or as it has read them ahead (R251). -/
def Core.found (k : Core) (ag : Agent) (h : Nat) (sp : Space) (a : Nat) (bs : List Byte) : List Byte :=
  (aheadOf k ag h sp a bs.length).getD bs

/-- The core once a load has taken its bytes: what was read ahead of it is used or read anew, and the issue is
counted. -/
def Core.took (ag : Agent) (h : Nat) (sp : Space) (a n : Nat) (k : Core) : Core :=
  countIssue ((k.loadPast ag h sp a n).useAhead ag h sp a n) ag h

/-- R63, R71: the opcode of a V, M or K slot is bound to its engine. -/
def EngineBound (k : Core) (i : Instr) : Prop := (k.prickAt ((encWords i).1.toNat % 128)).kind = 1

/-- R94: record mode is off, so a command leaves no entry in the unpick log. -/
def NotRecording (k : Core) : Prop := (k.cfgAt rLOGSTAT).getLsbD 63 = false

/-- R53, R54: a vector register names a row of a configured tile that can be used now. -/
def RowReady (k : Core) (n : VReg) (r : Row) : Prop := viewRow k n.toNat = some r ∧ tileReady k r.tile = true

/-- The bundle does not issue: it traps before any effect, with the frame of its slot (R65, R330). -/
def trapped (s : State) (c cls : Nat) (i : Instr) (cause : Cause) : State :=
  raiseTrap s c { cause := cause, slot := cls, baddr := (s.core c).bpc, w0 := (encWords i).1,
                  w1 := (encWords i).2 }

/-! ## A lane instruction -/

/-- Gang g of core c is in focus and may issue, and `pc` is where its batch stands (R138, R139). -/
def GangIssues (s : State) (c g pc : Nat) : Prop :=
  s.focus = .gang c g ∧ gangCanIssue s c g = true ∧ pickPc ((s.core c).gangAt g) = some pc

/-- The batch at `pc` for an instruction: its lanes, and those that its predicate makes active. -/
def batchOf (s : State) (c g pc : Nat) (i : Instr) : Batch :=
  let x := (s.core c).gangAt g
  { c := c, g := g, pc := pc, lanes := batchLanes x pc,
    act := (batchLanes x pc).filter (fun l => (x.fibre l).k.getLsbD (lanePred i).sel.toNat != (lanePred i).neg) }

/-- R152, R157: the registers of the instruction lie below the bound, and none is pending in an active lane. The
bound is REGM1 + 1 of the opcode's entry, whose REGM1 has 8 bits (R140, R152): 256 at most. -/
def RegsReady (s : State) (c g pc : Nat) (i : Instr) : Prop :=
  ((s.core c).gangAt g).bound ≤ 256 ∧
  (∀ u ∈ laneRegs i, u.top < ((s.core c).gangAt g).bound) ∧
  ∀ l ∈ (batchOf s c g pc i).act, ∀ u ∈ laneRegs i, ∀ r ∈ u.nums,
    regKey l r ∉ ((s.core c).gangAt g).pend

/-- What a lane instruction leaves where it takes effect: gang g of core c, and what `f` makes of the
core, are all that has changed. Each lane of the batch has become what `fib` makes of it and waits
anew, one lane cycle is counted; in the active lanes the registers `ds` hold `v`; every other
register of every lane is as it was. -/
def LaneEffect (s t : State) (c g pc : Nat) (i : Instr) (f : Core → Core) (fib : Nat → Fibre → Fibre)
    (ds : List Nat) (v : Nat → Nat → W32) : Prop :=
  let k := s.core c
  let x := k.gangAt g
  let b := batchOf s c g pc i
  ∃ y : Gang, t = s.setCore c ((f k).setGang g y) ∧
    y = { x with fibres := y.fibres, regs := y.regs, cycle := x.cycle + 1,
                 skid := if k.halt.isSome && decide (x.skid < 24) then x.skid + 1 else x.skid,
                 stepOver := x.stepOver.filter (fun l => !b.lanes.contains l) } ∧
    (∀ l ∈ b.lanes, y.fibre l = { fib l (x.fibre l) with stamp := x.cycle }) ∧
    (∀ l, l ∉ b.lanes → y.fibre l = x.fibre l) ∧
    (∀ l ∈ b.act, ∀ r ∈ ds, y.reg l r = v l r) ∧
    (∀ l r, r < 256 → (l ∉ b.act ∨ r ∉ ds) → y.reg l r = x.reg l r)

/-- A lane moves on to the next instruction. -/
def onward (pc : Nat) (f : Fibre) : Fibre := { f with pc := va57 (pc + 8) }

/-- The registers of a pair, and what they hold of a 64-bit value. -/
def pairOf (d : GReg) : List Nat := [d.toNat, d.toNat + 1]
def pairVal (d : GReg) (v : Nat → W64) (l r : Nat) : W32 :=
  if r = d.toNat then (v l).setWidth 32 else (v l >>> 32).setWidth 32

/-- R158: a lane predicate set to a value; bit 0 of the word stays 1. -/
def withK (n : Nat) (v : Bool) (f : Fibre) : Fibre :=
  { f with k := (if v then f.k ||| BitVec.ofNat 8 (2 ^ n) else f.k &&& ~~~ BitVec.ofNat 8 (2 ^ n)) ||| 1 }

/-- The frame of a trap of a lane instruction (R330): its lane, its batch, its word. -/
def laneTrapped (s : State) (c g pc : Nat) (i : Instr) (l : Nat) (cause : Cause) : State :=
  raiseTrap s c { laneTrap (s.core c) g l pc (encWords i).1 with cause := cause }

end Sys2Proof.Machine
end

