-- ==== Sys2Proof/Certificates/Slice0/Obligations.lean ====
section
/-! DEFINITION. The statements for the provers: what the instructions of each slot, the lanes, the engines
and the events do, what decoding, the step, traps and reset do, and what every step keeps. -/
open Sys2Proof Sys2Proof.Machine

/-! ## The C slot -/

/-- R76: SOP computes sd := sa FN sb; the FP32 functions work on bits [31:0], round to nearest even and OR their
flags into FSTAT; the four divisions trap DIVZ when sb = 0 and otherwise give quotient and remainder, toward
zero. Nothing else changes but BPC and what an issue counts. R77: SOPI computes sd := sa FN sext64(IMM8),
the shifts by IMM8[5:0]. -/
def Obligations.ScalarArithmetic : Prop :=
  (∀ (s : State) (c : Nat) (g : Guard) (d a b : SReg), CanIssue s c → Enabled (s.core c) g →
     let x := (s.core c).sAt a.toNat
     let y := (s.core c).sAt b.toNat
     let sh := y.toNat % 64
     let f32 := fun (w : W64) => w.toNat % 2 ^ 32
     let gives := fun (fn : SopFn) (v : W64) =>
       exec (.sop g fn d a b) s = .next (issued s c 6 0 (·.setS d.toNat v))
     let floats := fun (fn : SopFn) (r : FR) =>
       exec (.sop g fn d a b) s =
         .next (issued s c 6 0 (fun k => (k.orFlags r.flags).setS d.toNat (w64 r.bits)))
     (gives .add (x + y) ∧ gives .sub (x - y) ∧ gives .mul (x * y) ∧
      gives .mulhs (BitVec.ofInt 64 (x.toInt * y.toInt / 2 ^ 64)) ∧
      gives .mulhu (BitVec.ofNat 64 (x.toNat * y.toNat / 2 ^ 64)) ∧
      gives .and (x &&& y) ∧ gives .or (x ||| y) ∧ gives .xor (x ^^^ y) ∧
      gives .shl (x <<< sh) ∧ gives .shr (x >>> sh) ∧ gives .sra (x.sshiftRight sh) ∧
      gives .min (if x.slt y then x else y) ∧ gives .max (if x.slt y then y else x) ∧
      gives .minu (if x < y then x else y) ∧ gives .maxu (if x < y then y else x)) ∧
     (y ≠ 0 →
      gives .divs (BitVec.ofInt 64 (x.toInt.tdiv y.toInt)) ∧
      gives .rems (BitVec.ofInt 64 (x.toInt.tmod y.toInt)) ∧
      gives .divu (x / y) ∧ gives .remu (x % y)) ∧
     (floats .fadd (fadd .fp32 .rne 0 false (f32 x) (f32 y)) ∧
      floats .fsub (fsub .fp32 .rne 0 false (f32 x) (f32 y)) ∧
      floats .fmul (fmul .fp32 .rne 0 false (f32 x) (f32 y)) ∧
      gives .fmin (w64 (fmin .fp32 (f32 x) (f32 y))) ∧
      gives .fmax (w64 (fmax .fp32 (f32 x) (f32 y)))) ∧
     (y = 0 → ∀ fn ∈ [SopFn.divs, .divu, .rems, .remu],
       exec (.sop g fn d a b) s = .next (trapped s c 0 (.sop g fn d a b) .divz))) ∧
  (∀ (s : State) (c : Nat) (g : Guard) (d a : SReg) (imm : BitVec 8),
     CanIssue s c → Enabled (s.core c) g →
     let x := (s.core c).sAt a.toNat
     let y := imm.signExtend 64
     let sh := imm.toNat % 64
     let gives := fun (fn : SopiFn) (v : W64) =>
       exec (.sopi g fn d a imm) s = .next (issued s c 6 0 (·.setS d.toNat v))
     gives .add (x + y) ∧ gives .and (x &&& y) ∧ gives .or (x ||| y) ∧ gives .xor (x ^^^ y) ∧
     gives .shl (x <<< sh) ∧ gives .shr (x >>> sh) ∧ gives .sra (x.sshiftRight sh))

/-- R78: SMOVI sets sd := sext64(IMM16). NOP changes nothing but BPC. -/
def Obligations.SmoviSetsScalar : Prop :=
  ∀ (s : State) (c : Nat) (g : Guard), CanIssue s c → Enabled (s.core c) g →
    (∀ (d : SReg) (imm : BitVec 16),
      exec (.smovi g d imm) s = .next (issued s c 6 0 (·.setS d.toNat (imm.signExtend 64)))) ∧
    exec (.nop g) s = .next (issued s c 6 0 id)

/-- R79: SCMP writes stage predicate q(QD) with the comparison of sa with sb, or with sext64(IMM5). A code of CC
from 10 on, and an FP32 form with I = 1, is illegal at decode. -/
def Obligations.ScmpWritesPredicate : Prop :=
  ∀ (s : State) (c : Nat) (g : Guard) (imm : Bool) (qd : PReg) (a b : SReg),
    CanIssue s c → Enabled (s.core c) g →
    let x := (s.core c).sAt a.toNat
    let y := if imm then b.signExtend 64 else (s.core c).sAt b.toNat
    let fx := decodeF .fp32 (x.toNat % 2 ^ 32)
    let fy := decodeF .fp32 (y.toNat % 2 ^ 32)
    let sets := fun (cc : ScmpCc) (v : Bool) =>
      exec (.scmp g cc imm qd a b) s = .next (issued s c 6 0 (·.setQ qd.toNat v))
    sets .eq (x == y) ∧ sets .ne (x != y) ∧ sets .lt (x.slt y) ∧ sets .ge (!x.slt y) ∧
    sets .ltu (decide (x < y)) ∧ sets .geu (!decide (x < y)) ∧
    sets .feq (fcc .eq fx fy) ∧ sets .flt (fcc .lt fx fy) ∧ sets .fle (fcc .le fx fy) ∧
    sets .funord (fcc .un fx fy) ∧
    (∀ w : BitVec 32, w.toNat % 128 = 4 →
      10 ≤ w.toNat / 2 ^ 18 % 16 ∨ (6 ≤ w.toNat / 2 ^ 18 % 16 ∧ w.toNat / 2 ^ 17 % 2 = 1) →
      ∃ e, decode (.c w) = .error e)

/-- R60: a slot whose guard disables it takes no effect, checks nothing and waits for nothing. A bundle of one
such slot, of any slot class, passes BPC over itself and counts its issue; all else stays. The slot must be
legal: for V, M and K opcodes that holds while they are bound to their engine (R63). Where the model's own
choices or inferences enter: log entry 80. -/
def Obligations.DisabledSlotIsNop : Prop :=
  ∀ (s : State) (c : Nat) (i : Instr) (x : SlotSem), CanIssue s c → semOf i = some x →
    x.legal (s.core c) = true →
    (x.cls ∈ [1, 2, 3] → ((s.core c).prickAt ((encWords i).1.toNat % 128)).kind = 1 ∨
      ∃ g opc o hi, i = .stitchDispatch g opc o hi) →
    ¬ Enabled (s.core c) x.guard → exec i s = .next (issued s c (oneLen x.cls) 0 id)

/-- R81: SLD. From tile store: the bytes at sa + sext(OFF7) × size, with the sequencer's own buffered stores
laid over them (R250), zero- or sign-extended into sd. From global memory, the same at the translated address. Where
the load has been made ahead (R251, last row) it takes what it found then. Misaligned it traps DALIGN, beyond the share
TSRANGE, with sd unchanged. R81, R250: SST. The low SZ bits of sb
enter the write buffers for the bytes at sa + sext(OFF7) × size, under handle o0; no byte of memory or tile
store changes before the store lands. Where the model's own choices or inferences enter: log entries 53, 62, 83, 88. -/
def Obligations.ScalarMemory : Prop :=
  (∀ (s : State) (c : Nat) (g : Guard) (sz : Size) (sx : Bool) (off : BitVec 7) (a d : SReg),
     CanIssue s c → Enabled (s.core c) g →
     let k := s.core c
     let n := sizeBytes sz
     let at' := ((k.sAt a.toNat).toNat : Int) + off.toInt * n
     let ts := (at' % 2 ^ 64).toNat
     let gm := (at' % 2 ^ 57).toNat
     let ext := fun (bs : List Byte) => if sx then (BitVec.ofNat (8 * n) (leNat bs)).signExtend 64 else w64 (leNat bs)
     let landed := clearOf k (loadDeps k .seq 0) = true
     (ts % n = 0 → ts + n ≤ k.share → (k.cfgAt rDBGMEM).getLsbD 0 = false →
       tsPoisoned k ts n = false → landed →
       exec (.sld g sz true sx off a d) s = .next (issued s c 6 0 (fun k' => (k'.took .seq 0 .ts ts n).setS d.toNat
         (ext (k.found .seq 0 .ts ts (overlay ts (bytesAt k.ts ts n) (forwards k .seq .ts ts n))))))) ∧
     (∀ tr, gm % n = 0 → xlate s c gm .read = .ok tr → tr.loc ≠ 2 → violates s k.ctx (tr.pa gm) n = false →
       cxlDown s (tr.pa gm) = false → gmPoisoned s (tr.pa gm) n = false → dupOpen s tr = false → landed →
       exec (.sld g sz false sx off a d) s = .next (issued s c 6 0 (fun k' =>
         (((k'.keepTrans tr).dropReply (.load c (some .seq) gm n)).took .seq 0 .gm gm n).setS d.toNat
           (ext (k.found .seq 0 .gm gm (overlay gm (bytesAt s.mem (tr.pa gm) n) (forwards k .seq .gm gm n))))))) ∧
     (ts % n ≠ 0 → pendWait k .seq 0 ts n false = false → exec (.sld g sz true sx off a d) s = .next (raiseTrap s c
       { cause := .dalign, slot := 0, baddr := k.bpc, faddr := ts, w0 := (encWords (.sld g sz true sx off a d)).1 })) ∧
     (ts % n = 0 → k.share < ts + n → pendWait k .seq 0 ts n false = false → exec (.sld g sz true sx off a d) s = .next (raiseTrap s c
       { cause := .tsrange, slot := 0, baddr := k.bpc, faddr := ts, w0 := (encWords (.sld g sz true sx off a d)).1 }))) ∧
  (∀ (s : State) (c : Nat) (g : Guard) (sz : Size) (off : BitVec 7) (a b : SReg),
     CanIssue s c → Enabled (s.core c) g →
     let k := s.core c
     let n := sizeBytes sz
     let at' := ((k.sAt a.toNat).toNat : Int) + off.toInt * n
     let ts := (at' % 2 ^ 64).toNat
     let gm := (at' % 2 ^ 57).toNat
     let bytes := leBytes n (k.sAt b.toNat).toNat
     (ts % n = 0 → ts + n ≤ k.share → (k.cfgAt rDBGMEM).getLsbD 0 = false →
       exec (.sst g sz true off a b) s =
         .next (issued s c 6 0 (Core.putStore .seq 0 .ts ts Trans.none bytes))) ∧
     (∀ tr, gm % n = 0 → xlate s c gm .write = .ok tr →
       (tr.loc ≠ 2 → violates s k.ctx (tr.pa gm) n = false) →
       exec (.sst g sz false off a b) s =
         .next (issued s c 6 0 (fun k' => (k'.keepTrans tr).putStore .seq 0 .gm gm tr bytes))) ∧
     (gm % n ≠ 0 → exec (.sst g sz false off a b) s = .next (raiseTrap s c
       { cause := .dalign, slot := 0, baddr := k.bpc, faddr := gm, acc := 1,
         w0 := (encWords (.sst g sz false off a b)).1 })))

/-- R82, R287: BR, CALL and RET move BPC, CALL also writes the next bundle's address to s31; an odd target traps
IALIGN, and any of them in the body of a running nest LOOPCTL. Where the model's own choices or inferences
enter: log entries 41, 43. -/
def Obligations.ControlTransfer : Prop :=
  ∀ (s : State) (c : Nat) (g : Guard) (off : BitVec 20) (a : SReg), CanIssue s c → Enabled (s.core c) g →
    let k := s.core c
    let rel := (((k.bpc : Int) + off.toInt * 2) % 2 ^ 57).toNat
    let reg := (k.sAt a.toNat).toNat % 2 ^ 57
    let next := (k.bpc + 6) % 2 ^ 57
    (lsRun k.lstat = false →
      (rel % 2 = 0 →
        exec (.br g off) s = .next (issued s c 6 0 (·.setBpc rel)) ∧
        exec (.call g off) s = .next (issued s c 6 0 (fun k => (k.setS 31 (w64 next)).setBpc rel))) ∧
      (reg % 2 = 0 →
        exec (.brInd g a) s = .next (issued s c 6 0 (·.setBpc reg)) ∧
        exec (.callInd g a) s = .next (issued s c 6 0 (fun k => (k.setS 31 (w64 next)).setBpc reg)) ∧
        exec (.ret g a) s = .next (issued s c 6 0 (·.setBpc reg)))) ∧
    (reg % 2 ≠ 0 → ∀ i ∈ [Instr.brInd g a, .callInd g a, .ret g a],
      exec i s = .next (trapped s c 0 i .ialign)) ∧
    (lsRun k.lstat = true → rel % 2 = 0 → ∀ i ∈ [Instr.br g off, .call g off],
      exec i s = .next (trapped s c 0 i .loopctl)) ∧
    (lsRun k.lstat = true → reg % 2 = 0 → ∀ i ∈ [Instr.brInd g a, .callInd g a, .ret g a],
      exec i s = .next (trapped s c 0 i .loopctl))

/-- R83: ADVR and ADVW move the pointers of ring H by N = NM1 + 1, modulo the ring; a ring that is not VALID
traps CBUF; while N is more than the ring has filled, or has room for, the bundle waits and nothing changes.
Where the model's own choices or inferences enter: log entry 42. -/
def Obligations.RingPointersMove : Prop :=
  ∀ (s : State) (c : Nat) (g : Guard) (nm1 : BitVec 5) (h : RingReg), CanIssue s c → Enabled (s.core c) g →
    let k := s.core c
    let r := rCBDESC + h.toNat
    let w := k.cfgAt r
    let n := nm1.toNat + 1
    let ring := gf w 43 5 + 1
    let fill := gf w 58 6
    let free := marksFree k [] [h.toNat] = true
    (w.getLsbD 31 = true → free →
      (n ≤ fill → exec (.advr g nm1 h) s = .next (issued s c 6 0
        (·.modCfg r (fun w => sf (sf w 48 5 ((gf w 48 5 + n) % ring)) 58 6 (fill - n))))) ∧
      (fill < n → exec (.advr g nm1 h) s = .next s) ∧
      (n ≤ ring - fill → exec (.advw g nm1 h) s = .next (issued s c 6 0
        (·.modCfg r (fun w => sf (sf w 53 5 ((gf w 53 5 + n) % ring)) 58 6 (fill + n))))) ∧
      (ring - fill < n → exec (.advw g nm1 h) s = .next s)) ∧
    (w.getLsbD 31 = false → ∀ i ∈ [Instr.advr g nm1 h, .advw g nm1 h],
      exec i s = .next (raiseTrap s c { cause := .cbuf, slot := 0, baddr := k.bpc, w0 := (encWords i).1,
                                        w1 := (encWords i).2, tkind := 2, tnum := h.toNat }))

/-- R84, R85: CFGR sets sd to the register REG as it stood before the bundle; the views of the gang slots, the
lease, the claimed slots, the handles and the fabric are read from what they show, and HACC reads zero. Where
the model's own choices or inferences enter: log entry 88. -/
def Obligations.CfgrReads : Prop :=
  ∀ (s : State) (c : Nat) (g : Guard) (reg : BitVec 12) (d : SReg), CanIssue s c → Enabled (s.core c) g →
    let k := s.core c
    let reads := fun (v : W64) => exec (.cfgr g reg d) s = .next (issued s c 6 0 (·.setS d.toNat v))
    let n := reg.toNat
    (n ∉ [rDEVID, 0x070, 0x071, 0x072, 0x073, rMLST, rOPCLAIM, rOHSTAT, rFABID, rHACC, rBOOTWHY] →
      reads (k.cfgAt n)) ∧
    (n = rDEVID → reads (devid s)) ∧
    (∀ i < 4, n = 0x070 + i → reads (gwin k i)) ∧
    (n = rMLST → reads (mlst s c)) ∧ (n = rOPCLAIM → reads (opclaim s c)) ∧
    (n = rOHSTAT → reads (ohstat k)) ∧ (n = rFABID → reads (fabid s)) ∧ (n = rHACC → reads 0) ∧
    (n = rBOOTWHY → reads s.bootwhy)

/-- R84, R85, R281, R300: CFGW writes the writable fields of a register and discards the rest; FSTAT and MONSTAT
clear where sa holds ones; SVEC and SRET trap PRIV in user mode; a register of the loop nest traps LOOPCTL
while it runs, one of the log LOGCTL while recording. R52: a write to TSHAPEn that configures the tile sets
CONF, clears DIRTY and the guard plane, and keeps the tile's bytes; ROWS = 000 takes the configuration away;
any other value is discarded whole. -/
def Obligations.ConfigurationWrites : Prop :=
  (∀ (s : State) (c : Nat) (g : Guard) (reg : BitVec 12) (a : SReg), CanIssue s c → Enabled (s.core c) g →
     let k := s.core c
     let v := k.sAt a.toNat
     let n := reg.toNat
     let keeps := fun (m : W64) => exec (.cfgw g reg a) s =
       .next (issued s c 6 0 (·.modCfg n (fun w => (w &&& ~~~ m) ||| (v &&& m))))
     let clears := fun (m : W64) => exec (.cfgw g reg a) s =
       .next (issued s c 6 0 (·.modCfg n (fun w => w &&& ~~~ (v &&& m))))
     let idle := lsRun k.lstat = false
     let off := (k.cfgAt rLOGSTAT).getLsbD 63 = false
     (n = rFSTAT → clears 0x3F) ∧ (n = rMONSTAT → clears 0xFF) ∧
     (n = rVROT → keeps 0x7F) ∧ (n = rQPRED → keeps 0xFF) ∧ (n = rWTMO ∨ n = rOTH → keeps 0xFFFFFFFF) ∧
     (n = rDBGMEM → keeps 3) ∧
     (n = rSVEC → k.priv = true → keeps 0x01FFFFFFFFFFFFFF) ∧
     (n = rSRET → k.priv = true → keeps 0x01FFFFFFFFFFFFFE) ∧
     (n = rSVEC ∨ n = rSRET → k.priv = false →
       exec (.cfgw g reg a) s = .next (trapped s c 0 (.cfgw g reg a) .priv)) ∧
     (n = rLOGCFG → off → keeps 3) ∧ (n = rLOGB ∨ n = rLOGL → off → keeps 0x01FFFFFFFFFFFFC0) ∧
     (n = rGMAP → off → keeps 0xFFFFFFFFFFFFFFF8) ∧
     (n ∈ [rLOGCFG, rLOGB, rLOGL, rGMAP] → ¬ off →
       exec (.cfgw g reg a) s = .next (trapped s c 0 (.cfgw g reg a) .logctl)) ∧
     (0x0A0 ≤ n ∧ n ≤ 0x0A5 → idle → keeps 0x00000001FFFFFFFF) ∧
     (0x0B8 ≤ n ∧ n ≤ 0x0BF → idle → keeps 0x1E1F) ∧
     ((0x0B0 ≤ n ∧ n ≤ 0x0B7) ∨ (0x0C0 ≤ n ∧ n ≤ 0x0FF) → idle → keeps 0xFFFFFFFFFFFFFFFF) ∧
     ((0x0A0 ≤ n ∧ n ≤ 0x0A5) ∨ (0x0B0 ≤ n ∧ n ≤ 0x0FF) → ¬ idle →
       exec (.cfgw g reg a) s = .next (trapped s c 0 (.cfgw g reg a) .loopctl)) ∧
     (0x100 ≤ n ∧ n < 0x120 ∧ 3 ≤ n % 8 → keeps 0xFFFFFFFFFFFFFFFF) ∧ (n = rFRZCNT → keeps 0xFFFFFFFFFFFFFFFF) ∧
     (n ∈ [rDEVID, rSARG, rMSTAT, rMPOS, rMLST, rOPCLAIM, rPLIM, rLSTAT, rLPASS, rLBEG, rOHSTAT, rLOGSTAT,
           rFABID, rFERR, rFERRA, rMMCTL, rPOOLB, rBOOTWHY] → keeps 0)) ∧
  (∀ (s : State) (c : Nat) (g : Guard) (n : TileReg) (a : SReg), CanIssue s c → Enabled (s.core c) g →
     let k := s.core c
     let v := k.sAt a.toNat
     let r := rTSHAPE + n.toNat
     let rows := gf v 12 3
     let et := gf v 15 6
     let allowed := et = 0x00 ∨ et = 0x04 ∨ et = 0x0B
     tileReady k n.toNat = true →
     (1 ≤ rows ∧ rows ≤ 4 → allowed → exec (.tshapeWrite g n a) s = .next (issued s c 6 0 (fun k =>
       { k.setCfg r (sf (sf (sf (sf (sf (sf (k.cfgAt r) 23 1 1) 22 1 0) 12 3 rows) 10 2 (gf v 10 2)) 15 6 et)
           21 1 (gf v 21 1)) with
         guard := mclear k.guard (n.toNat * 16384 + 0) 16384, saved := k.saved.filter (· != n.toNat) }))) ∧
     (rows = 0 → exec (.tshapeWrite g n a) s = .next (issued s c 6 0 (fun k =>
       k.setCfg r (sf (sf (sf (sf (sf (sf (k.cfgAt r) 23 1 0) 22 1 0) 21 1 0) 12 3 0) 10 2 (gf v 10 2)) 15 6
         (if etypeOk et then et else gf (k.cfgAt r) 15 6))))) ∧
     (4 < rows ∨ (rows ≠ 0 ∧ ¬ allowed) → exec (.tshapeWrite g n a) s = .next (issued s c 6 0 id)))

/-- R67: a write to CBDESCk empties the ring, keeps COUNT, SLOTSZ and BASE, and sets VALID exactly where SLOTSZ
is 1 to 1,024 and the whole ring lies in the share. R37: a write of zero to SRSTATE stores 1. R292: an armed
monitor's configuration discards a write. R301: a write to LOGP empties the log, and traps LOGCTL while
recording. R241: MFMT traps DRAIN without MDRAIN in its bundle. R388: a write to HACC waits for its token
and consumes it. R241, R231: beside an MDRAIN in its bundle, a write to MFMT takes effect: with EN = 1 and a
format that MFMT does not accept the whole write is discarded, else a reserved code leaves its field as it was
(R22). The bundle issues as a whole. -/
def Obligations.SpecialWrites : Prop :=
  (∀ (s : State) (c : Nat) (g : Guard) (a : SReg), CanIssue s c → Enabled (s.core c) g →
     let k := s.core c
     let v := k.sAt a.toNat
     (∀ h : RingReg, ringQuiet k h.toNat = true → marksFree k [] [h.toNat] = true →
       let f := v &&& 0x0000FFFF000FFFC0
       let slot := gf f 32 11
       let valid := 1 ≤ slot ∧ slot ≤ 1024 ∧ gf f 6 14 * 64 + (gf f 43 5 + 1) * (slot * 64) ≤ k.share
       exec (.cbdescWrite g h a) s = .next (issued s c 6 0 (fun k =>
         { k.setCfg (rCBDESC + h.toNat) (sf f 31 1 (bitOf (decide valid))) with
           producers := k.producers.filter (fun p => p.1 != h.toNat) }))) ∧
     exec (.srstateWrite g a) s = .next (issued s c 6 0 (·.setCfg rSRSTATE (if v = 0 then 1 else v))) ∧
     (∀ (m : BitVec 2) (j : Nat), j ≤ 2 →
       let r := rMON + 8 * m.toNat
       ((k.cfgAt r).getLsbD 0 = true → exec (.moncfgWrite g m j a) s = .next (issued s c 6 0 id)) ∧
       ((k.cfgAt r).getLsbD 0 = false →
         (j = 1 → exec (.moncfgWrite g m j a) s =
           .next (issued s c 6 0 (·.setCfg (r + 1) (v &&& 0x01FFFFFFFFFFFFFF)))) ∧
         (j = 2 → exec (.moncfgWrite g m j a) s = .next (issued s c 6 0 (·.setCfg (r + 2) (v &&& 0xFFFFFFFF)))) ∧
         (j = 0 → (fmtOfCode (gf v 18 6)).isSome → exec (.moncfgWrite g m j a) s =
           .next (issued s c 6 0 (·.setCfg r (v &&& 0xFFFFFFFF00FFF800)))))) ∧
     ((k.cfgAt rLOGSTAT).getLsbD 63 = false → exec (.logpWrite g a) s = .next (issued s c 6 0 (fun k =>
       { (k.setCfg rLOGP (v &&& 0x01FFFFFFFFFFFFC0)).modCfg rLOGSTAT (fun w => sf (sf w 62 1 0) 6 51 0) with
         lastLen := 0 }))) ∧
     ((k.cfgAt rLOGSTAT).getLsbD 63 = true →
       exec (.logpWrite g a) s = .next (trapped s c 0 (.logpWrite g a) .logctl)) ∧
     exec (.mfmtWrite g a) s = .next (trapped s c 0 (.mfmtWrite g a) .drain) ∧
     (s.tokens.contains v = true → exec (.haccWrite g a) s =
       .next { issued s c 6 0 id with tokens := s.tokens.erase v }) ∧
     (s.tokens.contains v = false → exec (.haccWrite g a) s = .next s)) ∧
  (∀ (s : State) (c : Nat) (a : SReg) (len : Nat), CanIssue s c → (s.core c).mcmds = [] →
     (s.core c).mzeroAt = [] → recording (s.core c) [] = false → (s.core c).prick = [] →
     let v := (s.core c).sAt a.toNat
     let ok := fun (n : Nat) => ∃ f, fmtOfCode n = some f ∧ (f = .bf16 ∨ f = .fp16 ∨ fmtIsB8 f = true)
     let kept := fun (lo : Nat) => if (fmtOfCode (gf v lo 6)).isSome then gf v lo 6 else gf ((s.core c).cfgAt rMFMT) lo 6
     issueBundle c false len [semMfmtWrite ⟨false, 0⟩ a, semMdrain ⟨false, 0⟩] s =
       (if v.getLsbD 15 = true ∧ ¬ (ok (gf v 0 6) ∧ ok (gf v 6 6)) then issued s c len 0 id
        else issued s c len 0 (·.setCfg rMFMT (sf (sf (v &&& 0x8000) 6 6 (kept 6)) 0 6 (kept 0)))))

/-- R86: WAITS. Where the aligned word compares true with sb, or has at a re-read, the bundle issues with q(QD) := 1;
where its
timeout has elapsed first, with q(QD) := 0, and a reply still on its way serves nobody. A misaligned address
traps DALIGN. The timeout elapses WTMO.CYCLES cycles after the count began. Where the model's own choices or
inferences enter: log entries 3, 83, 88. -/
def Obligations.WaitsForMemory : Prop :=
  (∀ (s : State) (c : Nat) (g : Guard) (cc : WaitCc) (scope : Scope) (b a : SReg) (qd : PReg) (tr : Trans),
     CanIssue s c → Enabled (s.core c) g →
     let k := s.core c
     let ad := (k.sAt a.toNat).toNat % 2 ^ 57
     let y := k.sAt b.toNat
     let x := w64 (leNat (overlay ad (bytesAt s.mem (tr.pa ad) 8) (forwards k .seq .gm ad 8)))
     let true' := match cc with
       | .eq => x = y | .ne => x ≠ y | .geu => y ≤ x | .ltu => x < y
     let who := ReqFor.load c (some .seq) ad 8
     (ad % 8 = 0 → xlate s c ad .read = .ok tr → tr.loc ≠ 2 → violates s k.ctx (tr.pa ad) 8 = false →
       cxlDown s (tr.pa ad) = false → gmPoisoned s (tr.pa ad) 8 = false → dupOpen s tr = false →
       (true' ∨ k.waitsHeld = true → clearOf k (loadDeps k .seq 0) = true → k.failures = [] →
         exec (.waits g cc scope b a qd) s =
           .next (issued s c 6 0 (fun k => (((k.keepTrans tr).dropReply who).dropAhead .seq).setQ qd.toNat true))) ∧
       (¬ true' → k.waitsHeld = false → waitsElapsed k = true →
         exec (.waits g cc scope b a qd) s =
           .next (issuedBy s c 6 0 (fun t => (forgetReq t c who).modCore c (·.setQ qd.toNat false))))) ∧
     (ad % 8 ≠ 0 → exec (.waits g cc scope b a qd) s = .next (raiseTrap s c
       { cause := .dalign, slot := 0, baddr := k.bpc, faddr := ad,
         w0 := (encWords (.waits g cc scope b a qd)).1 }))) ∧
  (∀ (s : State) (c f : Nat), gf ((s.core c).cfgAt rWTMO) 0 32 ≠ 0 → (s.core c).waitsFrom = some f →
     gf ((s.core c).cfgAt rWTMO) 0 32 ≤ (s.core c).cycles - f →
     exec (.waitsTimeout c) s = .next (s.modCore c (fun k => { k with waitsDue := true })))

/-- R87, R88, R89: FENCE.REL and FENCE.AR issue once the sequencer's stores have landed as the scope sees them;
FENCE.ACQ holds nothing back, whatever stores are outstanding; ENG waits for the engines, and ISTR for the stores
themselves, and lets go of all code that the core holds or has asked for. FORK and JOIN order the later accesses of
handles and move nothing else; HPASS writes the token of R89 and leaves a notice for the device it names, or traps
HDEV. R88, R251: what FORK and JOIN order. After FORK every access outstanding under the parent counts as outstanding
under each handle of the mask; after JOIN, every access outstanding under the target or a handle of the mask counts
under each of them. Where the model's own choices or inferences enter: log entries 12, 83, 88. -/
def Obligations.OrderingInstructions : Prop :=
  (∀ (s : State) (c : Nat) (g : Guard), CanIssue s c → Enabled (s.core c) g →
     let k := s.core c
     (∀ scope istr eng kind, (eng = true → enginesQuiet k = true) →
       (kind ≠ .acq → fenceMet s c .seq (scopeCode scope) = true) → (istr = true → storesLanded k .seq = true) →
       k.failures = [] →
       exec (.fence g scope istr eng kind) s = .next (issuedBy s c 6 0 (fun t =>
         let t1 := if kind = .acq then t else (released t c (· == .seq)).modCore c (Core.veil .seq (scopeCode scope))
         let t2 := if kind = .rel then t1 else t1.modCore c (Core.dropAhead .seq)
         if istr then dropCode t2 c else t2))) ∧
     (∀ scope eng kind istr, (kind ≠ .acq ∧ fenceMet s c .seq (scopeCode scope) = false) ∨
         (istr = true ∧ storesLanded k .seq = false) →
       exec (.fence g scope istr eng kind) s = .next s) ∧
     (∀ sc, storesLanded k .seq = true → fenceMet s c .seq sc = true) ∧
     (∀ sc, 4 ≤ sc → storesLanded k .seq = false → fenceMet s c .seq sc = false) ∧
     (∀ mask parent, exec (.fork g mask parent) s =
       .next (issued s c 6 0 (fun k => forkHandles k c .seq mask parent.toNat))) ∧
     (∀ mask target, exec (.join g mask target) s =
       .next (issued s c 6 0 (fun k => joinHandles k c .seq mask target.toNat))) ∧
     (∀ (oh : Handle) (a d : SReg),
       let dev := (k.sAt a.toNat).toNat % 2 ^ 10
       let tok := w64 (s.dev * 2 ^ 54 + c * 2 ^ 46 + oh.toNat * 2 ^ 42 + mget noNat k.issued oh.toNat)
       (dev ≤ s.gszm1 ∧ (s.fabUp = true ∨ dev = s.dev) → exec (.hpass g oh a d) s =
         .next (issued s c 6 0 (fun k =>
           { k with nextId := k.nextId + 1,
                    notices := k.notices ++ [(tok, dev, k.nextId, outUnder k .seq oh.toNat)] }.setS d.toNat tok))) ∧
       (s.gszm1 < dev ∨ (s.fabUp = false ∧ dev ≠ s.dev) →
         exec (.hpass g oh a d) s = .next (trapped s c 0 (.hpass g oh a d) .hdev)))) ∧
  (∀ (s : State) (c : Nat),
     let t := dropCode s c
     (t.core c).bcache = [] ∧ (t.core c).lcache = [] ∧ (∀ r ∈ (t.core c).reply, forCode c r.1 = false) ∧
     (∀ r ∈ t.requests, forCode c r.who = false) ∧ SameMem s t ∧ ∀ o, o ≠ c → t.core o = s.core o) ∧
  (∀ (k : Core) (c : Nat) (mask : BitVec 16) (p h h' : Handle) (id : Nat), mask.getLsbD h.toNat = true →
     (id ∈ outUnder k .seq p.toNat →
       id ∈ outUnder (forkHandles k c .seq mask p.toNat) .seq h.toNat ∧
       id ∈ outUnder (joinHandles k c .seq mask p.toNat) .seq h.toNat) ∧
     (id ∈ outUnder k .seq h.toNat →
       id ∈ outUnder (joinHandles k c .seq mask p.toNat) .seq p.toNat ∧
       (mask.getLsbD h'.toNat = true → id ∈ outUnder (joinHandles k c .seq mask p.toNat) .seq h'.toNat)))

/-- R91: BAR arrives once every M, K and S command has, and every store of the sequencer has landed as its scope sees
it, at a scope
that the launch declares co-resident, else BARSCOPE; no later bundle issues until the barrier completes. It
completes once every participant has arrived, and one generation ends. R91: the completion of a barrier, where
no monitor of a participant is armed: with every participant arrived, those on other devices too, the core
goes on and the generation of the barrier is counted; with one missing, nothing happens. Where the model's own
choices or inferences enter: log entries 32, 45, 88. -/
def Obligations.BarrierRules : Prop :=
  (∀ (s : State) (c : Nat) (g : Guard) (scope : Scope) (id : BitVec 3), CanIssue s c → Enabled (s.core c) g →
     let k := s.core c
     let recd := (((s.motifOn c).bind (fun m => s.launch? m.launch)).map (·.recd)).getD []
     let arrived := issuedBy s c 6 0 (fun t => (released t c (· == .seq)).modCore c (fun k' =>
       { (k'.veil .seq (scopeCode scope)).dropAhead .seq with
         arrived := some (scopeCode scope, id.toNat, k.bpc, (encWords (.bar g scope id)).1) }))
     enginesQuiet k = true → fenceMet s c .seq (scopeCode scope) = true →
     (scopeCode scope ≤ coScope recd → k.failures = [] → (scope = .core → k.halt = none) →
       exec (.bar g scope id) s = .next (if scope = .core then barDone arrived c else arrived)) ∧
     (coScope recd < scopeCode scope →
       exec (.bar g scope id) s = .next (trapped s c 0 (.bar g scope id) .barscope))) ∧
  (∀ (s : State) (c sc id b : Nat) (w : W64) (m : Motif), (s.core c).arrived = some (sc, id, b, w) →
     s.motifOn c = some m →
     let here := fun (x : Motif) => ∃ b' w', (motifCore s x).arrived = some (sc, id, b', w')
     let gen := fun (t : State) => mget noNat t.gens (m.launch * 64 + sc * 8 + id)
     ((∀ x ∈ participants s c sc, here x) →
       (∀ x ∈ participants s c sc, ∀ i < 4, ((motifCore s x).mon i).armed = false) → farArrived s c sc id = true →
       ∃ t, exec (.barComplete c) s = .next t ∧ (t.core c).arrived = none ∧ gen t = gen s + 1 ∧ SameMem s t) ∧
     ((∃ x ∈ participants s c sc, ¬ here x) ∨ farArrived s c sc id = false → exec (.barComplete c) s = .next s))

/-- R92: LAUNCH enqueues the record at sa for the distributor, with the launch it depends on where DEP = 1,
and writes its queue token to sd; a misaligned address traps DALIGN. R93, R71, R141: BIND reads the image at
sa, writes the status to sd, and where it is 0 binds the opcode; an opcode that the mode may not bind is
refused with status 1 and nothing is read. Where the model's own choices or inferences enter: log entries 21,
45, 83, 88. -/
def Obligations.LaunchAndBind : Prop :=
  (∀ (s : State) (c : Nat) (g : Guard) (dep : Bool) (b a d : SReg), CanIssue s c → Enabled (s.core c) g →
     let k := s.core c
     let ad := (k.sAt a.toNat).toNat % 2 ^ 57
     let seq := (s.devSeq + 1) % 2 ^ 48
     let tok := w64 (s.dev * 2 ^ 54 + 63 * 2 ^ 48 + seq)
     s.devQueue.length < 256 → storesLanded k .seq = true →
     (ad % 64 = 0 →
       (∀ p ∈ [ad, (ad + 64) % 2 ^ 57], ∀ acc ∈ [Acc.read, Acc.write], ∃ tr, xlate s c p acc = .ok tr ∧
         (tr.loc ≠ 2 → violates s k.ctx (tr.pa p) 64 = false)) →
       exec (.launch g dep b a d) s = .next
         { issued s c 6 0 (·.setS d.toNat tok) with
           devSeq := seq,
           devQueue := s.devQueue ++ [{ addr := ad, ctx := k.ctx, token := tok, dep := if dep then k.sAt b.toNat else 0,
                                        priv := k.priv, motif := k.motif.getD 0, ids := outstandingOf k }] }) ∧
     (ad % 64 ≠ 0 → exec (.launch g dep b a d) s = .next (raiseTrap s c
       { cause := .dalign, slot := 0, baddr := k.bpc, faddr := ad,
         w0 := (encWords (.launch g dep b a d)).1 }))) ∧
  (∀ (s : State) (c : Nat) (g : Guard) (topc : BitVec 7) (a d : SReg) (tr : Trans),
     CanIssue s c → Enabled (s.core c) g →
     let k := s.core c
     let o := topc.toNat
     let ad := (k.sAt a.toNat).toNat % 2 ^ 57
     let bs := overlay ad (bytesAt s.mem (tr.pa ad) 32) (forwards k .seq .gm ad 32)
     let w := word8 bs
     let may := 0x70 ≤ o ∨ (k.priv = true ∧ 0x20 ≤ o ∧ o < 0x68)
     (¬ may → exec (.bind g topc a d) s = .next (issued s c 6 0 (·.setS d.toNat 1))) ∧
     (may → ad % 32 = 0 → xlate s c ad .read = .ok tr → tr.loc ≠ 2 →
       violates s k.ctx (tr.pa ad) 32 = false → cxlDown s (tr.pa ad) = false →
       gmPoisoned s (tr.pa ad) 32 = false → dupOpen s tr = false → clearOf k (loadDeps k .seq 0) = true →
       let read := fun (k : Core) => ((k.keepTrans tr).dropReply (.load c (some .seq) ad 32)).loadPast .seq 0 .gm ad 32
       (imageBad o (w 0) (w 1) (w 2) (w 3) = true →
         exec (.bind g topc a d) s = .next (issued s c 6 0 (fun k => (read k).setS d.toNat 2))) ∧
       (imageBad o (w 0) (w 1) (w 2) (w 3) = false →
         exec (.bind g topc a d) s = .next (issued s c 6 0 (fun k =>
           { read k with prick := mset k.prick o (boundEntry o (prickParse (w 0) (w 1) (w 2))) }.setS d.toNat 0)))))

/-- R94, R301, R95, R293, R297: RECON turns record mode on where the log registers are in order, else LOGPARAM;
RECOFF turns it off. MONSET.ARM zeroes the sum and arms; DISARM keeps the sum; CHECK judges the sum and
traps DRIFT where it fails. R317: UNPICK ends once no entry lies at or above its stop address: sd takes
LOGP, and what it held is let go. It traps LOGCTL while recording and LOOPCTL in the body of a running nest.
Where the model's own choices or inferences enter: log entry 40. -/
def Obligations.RecordMonitorUnpick : Prop :=
  (∀ (s : State) (c : Nat) (g : Guard) (m : BitVec 2), CanIssue s c → Enabled (s.core c) g →
     let k := s.core c
     let b := gf (k.cfgAt rLOGB) 6 51
     let p := gf (k.cfgAt rLOGP) 6 51
     let l := gf (k.cfgAt rLOGL) 6 51
     let on := (k.cfgAt rLOGSTAT).getLsbD 63 = true
     let fits := b ≤ p ∧ p ≤ l ∧ (l - b) * 64 ≤ 128 * 2 ^ 20
     let r := rMON + 8 * m.toNat
     let checked := issued s c 6 0 (fun k => monCheck k m.toNat (monSum k m.toNat))
     (¬ on → fits → exec (.recon g) s = .next (issued s c 6 0 (fun k =>
       { k.modCfg rLOGSTAT (fun w => sf w 63 1 1) with producers := [] }))) ∧
     (on → exec (.recon g) s = .next (issued s c 6 0 id)) ∧
     (¬ on → ¬ fits → exec (.recon g) s = .next (trapped s c 0 (.recon g) .logparam)) ∧
     exec (.recoff g) s = .next (issued s c 6 0 (·.modCfg rLOGSTAT (fun w => sf w 63 1 0))) ∧
     (storesLanded k .seq = true → monBad k m.toNat = false → exec (.monsetArm g m) s =
       .next (issued s c 6 0 (fun k => ((k.setCfg (r + 5) 0).modCfg rMONSTAT
         (fun w => sf w (4 + m.toNat) 1 0)).modCfg r (fun w => sf w 0 1 1)))) ∧
     (storesLanded k .seq = true → monBad k m.toNat = true →
       exec (.monsetArm g m) s = .next (trapped s c 0 (.monsetArm g m) .monparam)) ∧
     exec (.monsetDisarm g m) s = .next (issued s c 6 0 (·.modCfg r (fun w => sf w 0 1 0))) ∧
     (((checked.core c).cfgAt rMONSTAT).getLsbD m.toNat = false →
       exec (.monsetCheck g m) s = .next checked) ∧
     (((checked.core c).cfgAt rMONSTAT).getLsbD m.toNat = true → k.halt = none →
       exec (.monsetCheck g m) s = .next (raiseTrap checked c
         { cause := .drift, slot := 0, baddr := k.bpc, w0 := (encWords (.monsetCheck g m)).1,
           info := gf ((checked.core c).cfgAt rMONSTAT) 0 8 }))) ∧
  (∀ (s : State) (c : Nat) (g : Guard) (a d : SReg), CanIssue s c → Enabled (s.core c) g →
     let k := s.core c
     let stat := k.cfgAt rLOGSTAT
     let stop := (k.sAt a.toNat).toNat % 2 ^ 57
     (∀ u, stat.getLsbD 63 = false → lsRun k.lstat = false → enginesQuiet k = true → k.buf = [] →
       k.upk = some u → u.busy = false → u.stage = 0 → u.lease = none →
       (stat.getLsbD 62 = false ∨ gf stat 6 51 * 64 < stop) →
       exec (.unpick g a d) s = .next (issued s c 6 0 (fun k =>
         (countIssue { k.dropAhead .seq with upk := none } .seq 0).setS d.toNat (w64 (gf (k.cfgAt rLOGP) 6 51 * 64))))) ∧
     (stat.getLsbD 63 = true → exec (.unpick g a d) s = .next (trapped s c 0 (.unpick g a d) .logctl)) ∧
     (stat.getLsbD 63 = false → lsRun k.lstat = true →
       exec (.unpick g a d) s = .next (trapped s c 0 (.unpick g a d) .loopctl)))

/-- R285, R286: LOOP begins pass 0 of its nest at the end of its bundle; with no iterations BPC moves past the
body; it traps LOOPCTL in a body and LOOPPARAM where T is above 2^48 or two iterators share a scalar. R288:
ITER.IDX and ITER.PASS read the nest, 0 where none runs; ITER.EXIT ends it at the end of the pass. R286: the
end of the last body bundle of a pass. With an exit pending or after the last pass, RUN falls, the owned
predicates read 1 and BPC passes the body; else the next pass begins at LBEG. Where the model's own choices
or inferences enter: log entry 27. -/
def Obligations.LoopNest : Prop :=
  (∀ (s : State) (c : Nat) (g : Guard) (body : BitVec 6) (st lv : BitVec 3) (rall rot : Bool),
     CanIssue s c → Enabled (s.core c) g →
     let k := s.core c
     let i := Instr.loop g body st lv rall rot
     let t := tripCount k (lv.toNat + 1)
     let next := (k.bpc + 6) % 2 ^ 57
     let ls := w64 (2 ^ 63 + bitOf rall * 2 ^ 62 + bitOf rot * 2 ^ 61 + st.toNat * 2 ^ 58 + lv.toNat * 2 ^ 55 +
       body.toNat * 2 ^ 49)
     (lsRun k.lstat = false → dupIter k = false → t ≠ 0 → t ≤ 2 ^ 48 → exec i s = .next
       ((issued s c 6 0 id).modCore c (fun k =>
         startPass (((k.setCfg rLSTAT ls).setCfg rLPASS 0).setCfg rLBEG (w64 (next / 2 * 2))) 0))) ∧
     (∀ va, lsRun k.lstat = false → dupIter k = false → t = 0 →
       (∀ u : State, (∃ k', u = s.setCore c k' ∧ k'.trans = k.trans ∧ k'.ctx = k.ctx ∧ k'.bcache = k.bcache ∧
           k'.reply = k.reply) ∨ u = s →
         skipBundles u c (fetchTrap k.bpc) (body.toNat + 1) next = .ok va) →
       exec i s = .next ((issued s c 6 0 id).modCore c (·.setBpc va))) ∧
     (lsRun k.lstat = true → exec i s = .next (trapped s c 0 i .loopctl)) ∧
     (lsRun k.lstat = false → 2 ^ 48 < t ∨ dupIter k = true → exec i s = .next (trapped s c 0 i .loopparam))) ∧
  (∀ (s : State) (c : Nat) (g : Guard) (lv : BitVec 3) (d : SReg), CanIssue s c → Enabled (s.core c) g →
     let k := s.core c
     let pass := gf (k.cfgAt rLPASS) 0 49
     let l := gf k.lstat 55 3 + 1
     let t := tripCount k l
     let n := if t - 1 < pass then t - 1 else pass
     (lsRun k.lstat = false →
       exec (.iterIdx g lv d) s = .next (issued s c 6 0 (·.setS d.toNat 0)) ∧
       exec (.iterPass g d) s = .next (issued s c 6 0 (·.setS d.toNat 0)) ∧
       exec (.iterExit g) s = .next (issued s c 6 0 id)) ∧
     (lsRun k.lstat = true →
       exec (.iterPass g d) s = .next (issued s c 6 0 (·.setS d.toNat (w64 pass))) ∧
       exec (.iterExit g) s = .next (issued s c 6 0 (fun k => { k with exitPending := true })) ∧
       (lv.toNat < l → exec (.iterIdx g lv d) s = .next (issued s c 6 0 (·.setS d.toNat
         (w64 ((levelIdx k (k.lstat.getLsbD 62) n (List.range l)).getD lv.toNat 0))))) ∧
       (l ≤ lv.toNat → exec (.iterIdx g lv d) s = .next (issued s c 6 0 (·.setS d.toNat 0))))) ∧
  (∀ (k : Core) (next : Nat),
     let ls := k.lstat
     let pass := gf (k.cfgAt rLPASS) 0 49
     let stages := gf ls 58 3 + 1
     let passes := tripCount k (gf ls 55 3 + 1) + stages - 1
     ls.getLsbD 61 = false → gf ls 43 6 = gf ls 49 6 →
     (pass + 1 = passes ∨ k.exitPending = true →
       ((loopEnd k next).lstat.getLsbD 63 = false ∧ (loopEnd k next).bpc = next ∧
        (∀ i, i < stages → (loopEnd k next).q i = true) ∧ (loopEnd k next).exitPending = false)) ∧
     (¬ (pass + 1 = passes ∨ k.exitPending = true) → pass + 1 < 2 ^ 49 →
       ((loopEnd k next).cfgAt rLPASS = w64 (pass + 1) ∧ (loopEnd k next).bpc = gf (k.cfgAt rLBEG) 1 56 * 2 ∧
        gf (loopEnd k next).lstat 43 6 = 0)))

/-- R96: SYS 0 ends the motif once its stores have landed and its handle notices are answered (R386). A service call
in user mode enters the routine of SVEC in privileged mode, with the return address in SRET and the code in SARG; with
none installed its bundle takes effect and traps SYSCALL. In privileged mode it traps PRIV; in a nest's body LOOPCTL.
R97: TRET sets BPC := SRET.ADDR << 1 and MSTAT.PRIV := 0; in user mode it traps PRIV. R98: BRK traps BRK with its
IMM16 in the record, and stepped over (R335) acts once as NOP. R287: what a nest's body bars. Where the model's own
choices or inferences enter: log entries 16, 30, 41. -/
def Obligations.SystemCalls : Prop :=
  (∀ (s : State) (c : Nat) (g : Guard) (imm : BitVec 16), CanIssue s c → Enabled (s.core c) g →
     let k := s.core c
     let next := (k.bpc + 6) % 2 ^ 57
     let i := Instr.sysServiceCall g imm
     (lsRun k.lstat = false →
       (storesLanded k .seq = true → noticesOut s c = false → k.failures = [] →
         exec (.sys g) s = .next (issued s c 6 0 (fun k => { k with ended := true }))) ∧
       (k.priv = false → (k.cfgAt rSVEC).getLsbD 0 = true → exec i s = .next (issued s c 6 0 (fun k' =>
         (((k'.setCfg rSRET (w64 (next / 2 * 2))).setCfg rSARG (imm.setWidth 64)).setCfg rMSTAT 1).setBpc
           (gf (k.cfgAt rSVEC) 1 56 * 2)))) ∧
       (k.priv = false → (k.cfgAt rSVEC).getLsbD 0 = false → k.halt = none → exec i s = .next (raiseTrap (issued s c 6 0 id) c
         { cause := .syscall, slot := 0, baddr := k.bpc, w0 := (encWords i).1, info := imm.toNat }))) ∧
     (k.priv = true → exec i s = .next (trapped s c 0 i .priv)) ∧
     (lsRun k.lstat = true → k.priv = false → exec i s = .next (trapped s c 0 i .loopctl)) ∧
     (lsRun k.lstat = true → exec (.sys g) s = .next (trapped s c 0 (.sys g) .loopctl))) ∧
  (∀ (s : State) (c : Nat) (g : Guard) (imm : BitVec 16), CanIssue s c → Enabled (s.core c) g →
     let k := s.core c
     (k.priv = true → lsRun k.lstat = false → exec (.tret g) s = .next (issued s c 6 0 (fun k' =>
       (k'.setCfg rMSTAT 0).setBpc (gf (k.cfgAt rSRET) 1 56 * 2)))) ∧
     (k.priv = false → exec (.tret g) s = .next (trapped s c 0 (.tret g) .priv)) ∧
     (k.priv = true → lsRun k.lstat = true → exec (.tret g) s = .next (trapped s c 0 (.tret g) .loopctl)) ∧
     (k.stepOver = true → exec (.brk g imm) s = .next (issued s c 6 0 id)) ∧
     (k.stepOver = false → exec (.brk g imm) s = .next (raiseTrap s c
       { cause := .brk, slot := 0, baddr := k.bpc, w0 := (encWords (.brk g imm)).1, info := imm.toNat })))

/-! ## The V slot -/

/-- R106 to R111, R122: the elementwise instructions. Each computes the elements of its rows in ascending order, draws
for SR, ORs the flags and writes the row of vd, whose tile becomes dirty; VCMP also writes q(QD) where QW = 1. Nothing
else changes but BPC and what an issue counts. Where the model's own choices or inferences enter: log entries 9, 79.
-/
def Obligations.VectorElementwise : Prop :=
  ∀ (s : State) (c : Nat) (g : Guard) (vc vb va vd : VReg) (d a b e : Row) (bs : Bool) (f : Fmt),
    CanIssue s c → Enabled (s.core c) g → NotRecording (s.core c) →
    RowReady (s.core c) vd d → RowReady (s.core c) va a → RowReady (s.core c) (if bs then va else vb) b →
    RowReady (s.core c) vc e → a.rb = d.rb → b.rb = d.rb → e.rb = d.rb →
    let k := s.core c
    let z := fmtSize f
    let as := k.elems a z
    let ys := if bs then List.replicate as.length ((k.sAt (vb.setWidth 5).toNat).toNat % 2 ^ (8 * z)) else k.elems b z
    let cs := k.elems e z
    let sr := k.cfgAt rSRSTATE
    let wr := fun (n : Nat) (r : List Nat × Nat × W64) (k' : Core) =>
      ((k'.orFlags r.2.1).setSr r.2.2).putElems d n 0 r.1
    let writes := fun (i : Instr) (iv n : Nat) (r : List Nat × Nat × W64) =>
      EngineBound k i → exec i s = .next (issued s c 10 0 (fun k' => (wr n r k').vBusy iv))
    (∀ fn sat rm, writes (.vop2 g fn bs sat rm f vb va vd) 1 z (mapDraw rm (vop2El fn f rm sat) (as.zip ys) sr)) ∧
    (∀ fn sat rm, writes (.vfma g fn bs sat rm f vc vb va vd) 1 z
      (mapDraw rm (vfmaEl fn f rm sat) (as.zip (ys.zip cs)) sr)) ∧
    (∀ fn sat rm, writes (.vop1 g fn sat rm f va vd) 1 z (mapDraw .rne (fun _ x => vop1El fn f rm sat x) as sr)) ∧
    writes (.vsel g bs f vc vb va vd) 1 z
      ((as.zip (ys.zip cs)).map (fun x => if x.2.2 != 0 then x.1 else x.2.1), 0, sr) ∧
    (∀ fn, writes (.vint g fn bs f vb va vd) 1 z ((as.zip ys).map (fun x => vintEl fn z x.1 x.2), 0, sr)) ∧
    (∀ imm, writes (.vmovi g imm f vd) 1 z (List.replicate (d.rb / z) (imm.toNat % 2 ^ (8 * z)), 0, sr)) ∧
    (∀ fn, writes (.vsfu g fn va vd) 4 4 (mapDraw .rne (fun _ x => sfu fn x) (k.elems a 4) sr)) ∧
    (∀ qd qw cc,
      let rs := (as.zip ys).map (fun x => vcmpEl cc f x.1 x.2)
      let i := Instr.vcmp g qd qw cc bs f vb va vd
      EngineBound k i → exec i s = .next (issued s c 10 0 (fun k' =>
        let k2 := wr z (rs.map (fun t => if t then 2 ^ (8 * z) - 1 else 0), 0, sr) k'
        (if qw then k2.setQ qd.toNat (rs.any id) else k2).vBusy 1)))

/-- R101: a row written element by element reads back: an element inside the range has its new value, any other
element of the row, and every byte of every other row, is as before; the tile is dirty. -/
def Obligations.RowWriteReads : Prop :=
  ∀ (k : Core) (r : Row) (n j : Nat) (vs : List Nat), n ∈ [1, 2, 4, 8] → r.x = false →
    let k' := k.putElems r n j vs
    (∀ m, j ≤ m → m < j + vs.length → k'.elem r n m = vs.getD (m - j) 0 % 2 ^ (8 * n)) ∧
    (∀ m, m < j ∨ j + vs.length ≤ m → k'.elem r n m = k.elem r n m) ∧
    (∀ key, key < tileKey r.tile (r.row * r.rb + n * j) ∨ tileKey r.tile (r.row * r.rb + n * (j + vs.length)) ≤ key →
      byteAt k'.tiles key = byteAt k.tiles key) ∧
    (k'.shape r.tile).getLsbD 22 = true

/-- R112 to R115, R118, R121: VRED writes the reduction to sd; VROWS copies CNT elements from SOFF to DOFF;
VCOLS takes a column of a tile, or puts one; VCVT converts, into its part of the row where the format narrows;
VSCA adds the scaled partial to each element. A slice or a column that does not fit traps VSHAPE. R120: VCVTO.
The elements that are no outliers are converted into their part of the row of vd, zeros stand for the others,
the outliers go to the side list as BF16 and the mask to sd and sd + 1; nothing of the tile store beyond the
side list changes. A side-list slot below 2 × N bytes traps CBUF. Where the model's own choices or inferences
enter: log entry 56. Where the model's own choices or inferences enter: log entry 24. -/
def Obligations.VectorMovesAndConversions : Prop :=
  (∀ (s : State) (c : Nat) (g : Guard) (va vd : VReg) (d a : Row),
     CanIssue s c → Enabled (s.core c) g → NotRecording (s.core c) →
     RowReady (s.core c) vd d → RowReady (s.core c) va a →
     let k := s.core c
     let sr := k.cfgAt rSRSTATE
     let wr := fun (n j : Nat) (r : List Nat × Nat × W64) (k' : Core) =>
       ((k'.orFlags r.2.1).setSr r.2.2).putElems d n j r.1
     (∀ fn f sd, EngineBound k (.vred g fn f va sd) →
       let r := vredVal fn f (k.elems a (fmtSize f))
       exec (.vred g fn f va sd) s = .next (issued s c 10 0 (fun k' =>
         ((k'.orFlags r.2).setS sd.toNat r.1).vBusy 2))) ∧
     (∀ sz (cnt doff soff : BitVec 9), EngineBound k (.vrows g sz cnt doff soff va vd) →
       let n := sizeBytes sz
       let i := Instr.vrows g sz cnt doff soff va vd
       (doff.toNat + (cnt.toNat + 1) ≤ d.rb / n → soff.toNat + (cnt.toNat + 1) ≤ a.rb / n →
         exec i s = .next (issued s c 10 0 (fun k' => (wr n doff.toNat
           (((k.elems a n).drop soff.toNat).take (cnt.toNat + 1), 0, sr) k').vBusy 1))) ∧
       (d.rb / n < doff.toNat + (cnt.toNat + 1) → exec i s = .next (trapped s c 2 i .vshape))) ∧
     (∀ sz (col : BitVec 9) (t : TileReg), EngineBound k (.vcols g false sz col t va vd) →
       let n := sizeBytes sz
       let rows := shapeRows (k.shape t.toNat)
       let i := Instr.vcols g false sz col t va vd
       shapeConf (k.shape t.toNat) = true → tileReady k t.toNat = true →
       (rows ≤ d.rb / n → col.toNat < shapeRowB (k.shape t.toNat) / n →
         exec i s = .next (issued s c 10 0 (fun k' => (wr n 0
           ((List.range rows).map (fun r => k.elem (tileRow k t.toNat r) n col.toNat), 0, sr) k').vBusy (rows / 16)))) ∧
       (shapeRowB (k.shape t.toNat) / n ≤ col.toNat → exec i s = .next (trapped s c 2 i .vshape))) ∧
     (∀ sz (col : BitVec 9) (t : TileReg), EngineBound k (.vcols g true sz col t va vd) →
       let n := sizeBytes sz
       let rows := shapeRows (k.shape t.toNat)
       let i := Instr.vcols g true sz col t va vd
       shapeConf (k.shape t.toNat) = true → tileReady k t.toNat = true →
       rows ≤ a.rb / n → col.toNat < shapeRowB (k.shape t.toNat) / n →
         exec i s = .next (issued s c 10 0 (fun k' =>
           ((((k.elems a n).take rows).zipIdx.foldl
             (fun k2 x => k2.putElem (tileRow k t.toNat x.2) n col.toNat x.1) k').setDirty t.toNat).vBusy (rows / 16)))) ∧
     (∀ tgt part sat rm frm, EngineBound k (.vcvt g tgt part sat rm frm va vd) → a.rb = d.rb →
       let xs := k.elems a (fmtSize frm)
       let n := a.rb / (if fmtSize frm < fmtSize tgt then fmtSize tgt else fmtSize frm)
       let src := if fmtSize frm < fmtSize tgt then (xs.drop (part.toNat * n)).take n else xs
       exec (.vcvt g tgt part sat rm frm va vd) s = .next (issued s c 10 0 (fun k' => (wr (fmtSize tgt)
         (if fmtSize tgt < fmtSize frm then part.toNat * n else 0)
         (mapDraw rm (fun u x => convert frm tgt rm u sat x) src sr) k').vBusy 2))) ∧
     (∀ pint rm (vc vb : VReg) (sb sc : Row), EngineBound k (.vsca g pint rm vc vb va vd) →
       RowReady k vb sb → RowReady k vc sc → a.rb = d.rb → d.rb / 4 ≤ sb.rb → d.row < sc.rb →
       d.x = false →
       let xs := (List.range (d.rb / 4)).map (fun j =>
         let p := k.elem32 a j
         (k.elem32 d j,
          (if pint then FVal.fin (decide (2 ^ 31 ≤ p)) (sint32 p).natAbs 0 else decodeF .fp32 p),
          k.elem sc 1 d.row, k.elem sb 1 j))
       exec (.vsca g pint rm vc vb va vd) s = .next (issued s c 10 0 (fun k' => (wr 4 0
         (mapDraw rm (vscaEl .fp32 rm) xs sr) k').vBusy 1)))) ∧
  (∀ (s : State) (c : Nat) (g : Guard) (desc : Desc) (rm : Rm) (tgt : Fmt) (sat : Bool) (part : BitVec 2)
     (sd : SReg) (va vd : VReg) (d a : Row), CanIssue s c → Enabled (s.core c) g → NotRecording (s.core c) →
     RowReady (s.core c) vd d → RowReady (s.core c) va a → a.rb = d.rb →
     let k := s.core c
     let w := k.cb (descH desc)
     let i := Instr.vcvto g desc rm tgt sat part sd va vd
     let n := a.rb / 4
     let xs := k.elems a 4
     let out := isOutlier ((k.cfgAt rOTH).toNat % 2 ^ 32)
     let side := ((xs.filter out).map (fun x => (floatToFloat .fp32 .bf16 .rne 0 false x).bits)).flatMap (leBytes 2)
     let mask := maskOf ((List.range n).filter (fun j => out (xs.getD j 0)))
     let ad := slotAddr w (dstSlot w desc)
     EngineBound k i → cbValid w = true → dstReady w desc = true → marksFree k [] [descH desc] = true →
     (n * 2 ≤ cbSlotBytes w →
       (side ≠ [] → k.buf = [] ∧ clearOf k (loadDeps k .seq 0) = true ∧ (k.cfgAt rDBGMEM).getLsbD 0 = false) →
       ∃ t, exec i s = .next t ∧ SameMem s t ∧ (∀ o, o ≠ c → t.core o = s.core o) ∧
         (∀ x, byteAt (t.core c).ts x =
           if ad ≤ x ∧ x < ad + side.length then side.getD (x - ad) 0 else byteAt k.ts x) ∧
         (rm ≠ .sr → (t.core c).tiles = (k.putElems d 1 (part.toNat * n)
           (xs.map (fun x => if out x then 0 else (floatToFloat .fp32 tgt rm 0 sat x).bits))).tiles) ∧
         (lsRun k.lstat = false →
           (t.core c).sAt sd.toNat = w64 mask ∧ (t.core c).sAt (sd + 1).toNat = w64 (mask / 2 ^ 64))) ∧
     (cbSlotBytes w < n * 2 → ∃ x, exec i s = .next (raiseTrap s c x) ∧ x.cause = .cbuf))

/-- R116, R117: VLDT reads the row's bytes, from the ring slot or the offset that it names, with the
sequencer's own buffered stores laid over them, into the row of vd; VSTT writes the bytes of its row there and
moves nothing else, no byte of global memory and no byte of the tile store outside the row. A misaligned
offset traps DALIGN, a row beyond the share or the slot TSRANGE, a ring that is not VALID CBUF. In the peer
window the tile store is that of the core that it names, and TSRANGE is the answer where that core grants
nothing; a multicast writes the row in every member. Where the model's own choices or inferences enter: log
entry 88. -/
def Obligations.VectorRowAccess : Prop :=
  ∀ (s : State) (c : Nat) (g : Guard) (desc : Desc) (rowix : BitVec 10) (am : Bool) (oh : Handle) (sa : SReg)
    (vd : VReg) (d : Row), CanIssue s c → Enabled (s.core c) g → NotRecording (s.core c) →
    RowReady (s.core c) vd d →
    let k := s.core c
    let w := k.cb (descH desc)
    let ld := Instr.vldt g desc rowix .own 0 am oh sa vd
    let st := Instr.vstt g desc rowix .own 0 am oh sa vd
    let ring := fun (i : Instr) (slot : Nat) (ready : Prop) (ad : Nat) =>
      am = false ∧ cbValid w = true ∧ ready ∧ rowix.toNat * d.rb + d.rb ≤ cbSlotBytes w ∧
      ad = slotAddr w slot + rowix.toNat * d.rb ∧ EngineBound k i
    let abs := fun (i : Instr) (ad : Nat) =>
      am = true ∧ ad = ((k.sAt sa.toNat).toNat + rowix.toNat * 64) % 2 ^ 64 ∧ ad % 64 = 0 ∧ ad + d.rb ≤ k.share ∧
      EngineBound k i
    (k.cfgAt rDBGMEM).getLsbD 0 = false → clearOf k (loadDeps k .seq oh.toNat) = true →
    (∀ ad, (ring ld (srcSlot w desc) (srcReady w desc = true ∧ marksFree k [descH desc] [] = true) ad ∨ abs ld ad) →
      tsPoisoned k ad d.rb = false →
      let bs := overlay ad (bytesAt k.ts ad d.rb) (forwards k .seq .ts ad d.rb)
      exec ld s = .next (issued s c 10 0 (fun k' => (((countIssue (k'.loadPast .seq oh.toNat .ts ad d.rb) .seq oh.toNat).setSr (k.cfgAt rSRSTATE)).putElems d 4 0
        ((List.range (bs.length / 4)).map (fun j => leNat ((bs.drop (4 * j)).take 4)))).vBusy 1))) ∧
    (∀ ad, (ring st (dstSlot w desc) (dstReady w desc = true ∧ marksFree k [] [descH desc] = true) ad ∨ abs st ad) →
      forwards k .seq .ts (ad / 64 * 64) (d.rb + 64) = [] →
      (k.fstr = true → ∀ b ∈ k.buf, b.under .seq oh.toNat = false) →
      ∃ t, exec st s = .next t ∧
        (∀ j, j < d.rb / 4 * 4 → byteAt (t.core c).ts (ad + j) = (k.rowBytes d).getD j 0) ∧
        (∀ x, x < ad ∨ ad + d.rb / 4 * 4 ≤ x → byteAt (t.core c).ts x = byteAt k.ts x) ∧
        (t.core c).tiles = k.tiles ∧ SameMem s t ∧ (∀ o, o ≠ c → t.core o = s.core o)) ∧
    (am = true → ((k.sAt sa.toNat).toNat + rowix.toNat * 64) % 64 ≠ 0 → EngineBound k ld →
      ∃ x, exec ld s = .next (raiseTrap s c x) ∧ x.cause = .dalign) ∧
    (am = false → cbValid w = false → EngineBound k ld →
      ∃ x, exec ld s = .next (raiseTrap s c x) ∧ x.cause = .cbuf ∧ x.tnum = descH desc) ∧
    (am = false → cbValid w = true → srcReady w desc = true → marksFree k [descH desc] [] = true →
      cbSlotBytes w < rowix.toNat * d.rb + d.rb → EngineBound k ld →
      ∃ x, exec ld s = .next (raiseTrap s c x) ∧ x.cause = .tsrange) ∧
    (∀ peer : BitVec 2, am = true → EngineBound k ld → EngineBound k st →
      let o := 4 * clusterOf c + peer.toNat
      let sp := peerSpace c o
      let pl := Instr.vldt g desc rowix .peer peer true oh sa vd
      let ps := Instr.vstt g desc rowix .peer peer true oh sa vd
      let ms := Instr.vstt g desc rowix .mcast 0 true oh sa vd
      let ad := ((k.sAt sa.toNat).toNat + rowix.toNat * 64) % 2 ^ 64
      let inOrder := k.fstr = true → ∀ b ∈ k.buf, b.under .seq oh.toNat = false
      let written := fun (t : State) (q : Nat) =>
        (∀ j, j < d.rb / 4 * 4 → byteAt (t.core q).ts (ad + j) = (k.rowBytes d).getD j 0) ∧
        (∀ x, x < ad ∨ ad + d.rb / 4 * 4 ≤ x → byteAt (t.core q).ts x = byteAt (s.core q).ts x)
      ad % 64 = 0 →
      (k.share < ad + d.rb → ∀ i ∈ [ld, st, pl, ps, ms], ∃ x, exec i s = .next (raiseTrap s c x) ∧ x.cause = .tsrange) ∧
      (peerGrant s c o = false → ∀ i ∈ [pl, ps], ∃ x, exec i s = .next (raiseTrap s c x) ∧ x.cause = .tsrange) ∧
      (ad + d.rb ≤ k.share → peerGrant s c o = true → tsPoisoned (s.core o) ad d.rb = false →
        let bs := overlay ad (bytesAt (s.core o).ts ad d.rb) (forwards k .seq sp ad d.rb)
        exec pl s = .next (issued s c 10 0 (fun k' => (((countIssue (k'.loadPast .seq oh.toNat sp ad d.rb) .seq oh.toNat).setSr (k.cfgAt rSRSTATE)).putElems d 4 0
          ((List.range (bs.length / 4)).map (fun j => leNat ((bs.drop (4 * j)).take 4)))).vBusy 4))) ∧
      (ad + d.rb ≤ k.share → peerGrant s c o = true → forwards k .seq sp (ad / 64 * 64) (d.rb + 64) = [] → inOrder →
        ∃ t, exec ps s = .next t ∧ SameMem s t ∧ (t.core c).tiles = k.tiles ∧ written t o ∧
          (o ≠ c → (t.core c).ts = k.ts) ∧ (∀ q, q ≠ c → q ≠ o → t.core q = s.core q)) ∧
      (ad + d.rb ≤ k.share → forwards k .seq .mcast (ad / 64 * 64) (d.rb + 64) = [] → inOrder →
        ∃ t, exec ms s = .next t ∧ SameMem s t ∧ (t.core c).tiles = k.tiles ∧ (∀ q ∈ members s c, written t q) ∧
          (∀ q, q ∉ members s c → t.core q = s.core q)))

/-- R106, R108, R110: what the elementwise functions give for integer formats: the exact sum, difference, product,
fused product or distance wrapped or, with SAT, clamped; the lesser and the greater; the high half; and the
comparisons of the values. R165, R166, R168, R169, R170, R172: what the integer functions of lanes compute,
as numbers. -/
def Obligations.IntegerFunctions : Prop :=
  (∀ (f : Fmt) (rm : Rm) (u a b c : Nat), fmtIsInt f = true →
     let n := 8 * fmtSize f
     let x := intVal f a
     let y := intVal f b
     let lo : Int := if f = .uint8 then 0 else -(2 ^ (n - 1))
     let hi : Int := if f = .uint8 then 2 ^ 8 - 1 else 2 ^ (n - 1) - 1
     let wraps := fun (r : FR) (v : Int) => (r.bits : Int) = v % 2 ^ n
     let clamps := fun (r : FR) (v : Int) => (r.bits : Int) = (if v < lo then lo else if hi < v then hi else v) % 2 ^ n
     (∀ fn : Vop2Fn, ∀ v : Int, (fn, v) ∈ [(Vop2Fn.add, x + y), (.sub, x - y), (.mul, x * y), (.absd, ((x - y).natAbs : Int))] →
       wraps (vop2El fn f rm false u (a, b)) v ∧ clamps (vop2El fn f rm true u (a, b)) v) ∧
     (∀ fn : VfmaFn, ∀ v : Int, (fn, v) ∈ [(VfmaFn.fma, x * y + intVal f c), (.fms, x * y - intVal f c), (.fnma, -(x * y) + intVal f c)] →
       wraps (vfmaEl fn f rm false u (a, b, c)) v ∧ clamps (vfmaEl fn f rm true u (a, b, c)) v) ∧
     (∀ sat, wraps (vop2El .mulh f rm sat u (a, b)) (x * y / 2 ^ n)) ∧
     (∀ sat, (vop2El .min f rm sat u (a, b)).bits = (if y < x then b else a) ∧
       (vop2El .max f rm sat u (a, b)).bits = (if x < y then b else a)) ∧
     (vcmpEl .eq f a b = decide (x = y) ∧ vcmpEl .ne f a b = decide (x ≠ y) ∧ vcmpEl .lt f a b = decide (x < y) ∧
      vcmpEl .le f a b = decide (x ≤ y) ∧ vcmpEl .gt f a b = decide (y < x) ∧ vcmpEl .ge f a b = decide (y ≤ x) ∧
      vcmpEl .un f a b = false)) ∧
  (∀ (a b : W32) (len pos : Nat),
     (iopRes .mulhs a b).toInt = (a.toInt * b.toInt) / 2 ^ 32 ∧
     (iopRes .mulhu a b).toNat = a.toNat * b.toNat / 2 ^ 32 ∧
     (iopRes .shl a b).toNat = a.toNat * 2 ^ (b.toNat % 32) % 2 ^ 32 ∧
     (iopRes .shr a b).toNat = a.toNat / 2 ^ (b.toNat % 32) ∧
     (iopRes .sra a b).toInt = a.toInt / 2 ^ (b.toNat % 32) ∧
     (iopRes .min a b).toInt = min a.toInt b.toInt ∧ (iopRes .max a b).toInt = max a.toInt b.toInt ∧
     (iopRes .minu a b).toNat = min a.toNat b.toNat ∧ (iopRes .maxu a b).toNat = max a.toNat b.toNat ∧
     (b ≠ 0 →
       (a.toInt ≠ -(2 ^ 31) ∨ b.toInt ≠ -1 → (idivRes .divs a b).toInt = a.toInt.tdiv b.toInt) ∧
       (idivRes .rems a b).toInt = a.toInt.tmod b.toInt ∧
       (idivRes .divu a b).toNat = a.toNat / b.toNat ∧ (idivRes .remu a b).toNat = a.toNat % b.toNat) ∧
     (isatRes .adds a b).1.toInt = max (-(2 ^ 31)) (min (2 ^ 31 - 1) (a.toInt + b.toInt)) ∧
     (isatRes .subs a b).1.toInt = max (-(2 ^ 31)) (min (2 ^ 31 - 1) (a.toInt - b.toInt)) ∧
     (isatRes .addus a b).1.toNat = min (2 ^ 32 - 1) (a.toNat + b.toNat) ∧
     (isatRes .subus a b).1.toNat = a.toNat - b.toNat ∧
     ((isatRes .adds a b).2 = true ↔ (isatRes .adds a b).1.toInt ≠ a.toInt + b.toInt) ∧
     (∀ n, n < 32 → (ibitRes .brev a).getLsbD n = a.getLsbD (31 - n)) ∧
     (a ≠ 0 → (ibitRes .clz a).toNat < 32 ∧ a.getLsbD (31 - (ibitRes .clz a).toNat) = true ∧
       a.toNat < 2 ^ (32 - (ibitRes .clz a).toNat)) ∧
     (a = 0 → ibitRes .clz a = 32 ∧ ibitRes .ctz a = 32) ∧
     (1 ≤ len → len ≤ 32 → pos + len ≤ 32 →
       (bfxRes false a len pos).toNat = a.toNat / 2 ^ pos % 2 ^ len ∧
       (∀ n, n < 32 → (bfiRes a b len pos).getLsbD n =
         if pos ≤ n ∧ n < pos + len then b.getLsbD (n - pos) else a.getLsbD n)) ∧
     (∀ cc : ICc, ∀ v : Prop, (cc, v) ∈ [(ICc.lt, a.toInt < b.toInt), (.le, a.toInt ≤ b.toInt), (.gt, b.toInt < a.toInt),
       (.ge, b.toInt ≤ a.toInt), (.ltu, a.toNat < b.toNat), (.leu, a.toNat ≤ b.toNat), (.gtu, b.toNat < a.toNat),
       (.geu, b.toNat ≤ a.toNat), (.eq, a = b), (.ne, a ≠ b)] → (iccRes cc a b = true ↔ v)))

/-! ## The M slot and the cluster array -/

/-- R223 to R226, R235: MLEASE takes an IDLE lease to HOLDING where the array is free, else to WAITING, and does
nothing otherwise; MUNLEASE takes WAITING to IDLE and gives up a held lease with nothing left to accept; while one
stands already it changes nothing. A term ends after 64 commands or 4,096 cycles: with a core waiting the holder waits
again, with none a new term begins; the adjoint of an M entry holds the array on (R311). Where the model's own choices
or inferences enter: log entry 48. -/
def Obligations.LeaseChanges : Prop :=
  (∀ (s : State) (c : Nat) (g : Guard), CanIssue s c → Enabled (s.core c) g → NotRecording (s.core c) →
    let x := s.cluster (clusterOf c)
    x.lease.length = 4 →
    (EngineBound (s.core c) (.mlease g) →
      (leaseOf s c ≠ .idle → exec (.mlease g) s = .next (issuedAfter s c 10 0 id)) ∧
      (leaseOf s c = .idle → holder x = none → (∀ l ∈ x.lease, l ≠ .waiting) → (s.core c).mcmds = [] →
        giveUpOf s c = none →
        ∃ t, exec (.mlease g) s = .next t ∧ leaseOf t c = .holding ∧ (t.cluster (clusterOf c)).tcmd = 0 ∧
          (t.cluster (clusterOf c)).termAt = s.time ∧ (t.cluster (clusterOf c)).lastHolder = c % 4 ∧ SameMem s t) ∧
      (∀ i, leaseOf s c = .idle → holder x = some i → (s.core (4 * clusterOf c + i)).mcmds = [] →
        giveUpOf s (4 * clusterOf c + i) = none →
        exec (.mlease g) s = .next (issuedAfter s c 10 0 (fun t => setLease t c .waiting)))) ∧
    (EngineBound (s.core c) (.munlease g) →
      (leaseOf s c = .idle → exec (.munlease g) s = .next (issuedAfter s c 10 0 id)) ∧
      (leaseOf s c = .waiting →
        exec (.munlease g) s = .next (issuedAfter s c 10 0 (fun t => setGiveUp (setLease t c .idle) c none))) ∧
      (leaseOf s c = .holding → (giveUpOf s c).isSome → exec (.munlease g) s = .next (issuedAfter s c 10 0 id)) ∧
      (holder x = some (c % 4) → (s.core c).mcmds = [] → giveUpOf s c = none → (∀ j, j ≠ c % 4 → x.lease.getD j .idle = .idle) →
        x.giveUp.length = 4 →
        ∃ t, exec (.munlease g) s = .next t ∧ leaseOf t c = .idle ∧ giveUpOf t c = none ∧ SameMem s t))) ∧
    (∀ (s : State) (n i : Nat), holder (s.cluster n) = some i → (64 ≤ (s.cluster n).tcmd ∨ 4096 ≤ s.time - (s.cluster n).termAt) →
      let held := (s.core (4 * n + i)).upk.bind (·.lease)
      (held.isSome → exec (.leaseTermEnd n) s = .next s) ∧
      (held = none → (∃ l ∈ (s.cluster n).lease, l = .waiting) → exec (.leaseTermEnd n) s =
        .next (settle n 64 (setLease s (4 * n + i) .waiting))) ∧
      (held = none → (∀ l ∈ (s.cluster n).lease, l ≠ .waiting) → (s.core (4 * n + i)).mcmds = [] →
        giveUpOf s (4 * n + i) = none → i < 4 → exec (.leaseTermEnd n) s =
        .next (s.setCluster n { s.cluster n with tcmd := 0, termAt := s.time })))

/-- R227, R228, R236: MCLAIM adds the slots FIRST to FIRST + CNT − 1 to those the motif has claimed, a slot new
to it holding nothing; MRELS takes them away, and waits while an outstanding command names one. -/
def Obligations.OperandSlots : Prop :=
  ∀ (s : State) (c mid : Nat) (g : Guard) (cnt first : LSlot), CanIssue s c → Enabled (s.core c) g →
    NotRecording (s.core c) → (s.core c).motif = some mid →
    let x := s.cluster (clusterOf c)
    let inRange := fun (l : Nat) => first.toNat ≤ l ∧ l ≤ first.toNat + cnt.toNat
    (x.slots.map (·.motif)).Nodup → (∀ o ∈ x.slots, o.claimed ≠ []) →
    (EngineBound (s.core c) (.mclaim g cnt first) →
      (x.slots.map (fun o => o.claimed.length)).sum + (cnt.toNat + 1) ≤ 256 →
      ∃ t, exec (.mclaim g cnt first) s = .next t ∧ SameMem s t ∧ t.cores = (issuedAfter s c 10 0 id).cores ∧
        (∀ l, l ∈ claimedOf t c ↔ l ∈ claimedOf s c ∨ inRange l) ∧
        (∀ a, a < 2 ^ 20 → byteAt (opsOf t c).bytes a =
          if inRange (a / 16384) ∧ a / 16384 ∉ claimedOf s c then 0 else byteAt (opsOf s c).bytes a)) ∧
    (EngineBound (s.core c) (.mrels g cnt first) →
      let named := (s.core c).mcmds.flatMap mSlots ++ (s.core c).kcmds.flatMap kSlots
      ((∀ l ∈ named, ¬ inRange l) →
        ∃ t, exec (.mrels g cnt first) s = .next t ∧ SameMem s t ∧ t.cores = (issuedAfter s c 10 0 id).cores ∧
          (∀ l, l ∈ claimedOf t c ↔ l ∈ claimedOf s c ∧ ¬ inRange l)) ∧
      ((∃ l ∈ named, inRange l) → exec (.mrels g cnt first) s = .next s))

/-- R224, R232 to R242: MMA and MMAH issue while the lease is held, their operands lie in claimed slots and
their tile fits: the command stands before the array and its tile is busy; NOLEASE is the answer to an IDLE
lease, UNCONF to a tile that is not configured. A handle fetch that has landed frees its command. MDRAIN passes
once nothing is outstanding, else it waits. MZERO clears the tile and its guard plane, and its tile is free 16
cycles later. Where the model's own choices or inferences enter: log entry 48. -/
def Obligations.MatrixCommands : Prop :=
  (∀ (s : State) (c : Nat) (g : Guard), CanIssue s c → Enabled (s.core c) g → NotRecording (s.core c) →
    let k := s.core c
    let e := solo s c 1
    let stands := fun (t : State) (i : Instr) (o : MmaOp) =>
      (∃ m ∈ (t.core c).mcmds, m.id = k.nextId ∧ m.i = i ∧ m.agent = .seq ∧ m.baddr = k.bpc ∧ m.landed = []) ∧
      (o.ad.toNat, k.nextId) ∈ (t.core c).tileCmd ∧ tileBusy (t.core c) o.ad.toNat = true ∧ SameMem s t
    (∀ km1 o, EngineBound k (.mma g km1 o) →
      (mmaReady e s o = true → mmaStop e s (.mma g km1 o) = none →
        let t := issuedAfter s c 10 0 (fun t => startMma e t (.mma g km1 o) 0)
        exec (.mma g km1 o) s = .next t ∧ stands t (.mma g km1 o) o) ∧
      (mmaReady e s o = true → shapeConf (k.shape o.ad.toNat) = true → leaseOf s c = .idle →
        exec (.mma g km1 o) s = .next (trapped s c 1 (.mma g km1 o) .nolease))) ∧
    (∀ sh gA gB km1 o, EngineBound k (.mmah g sh gA gB km1 o) → mmaReady e s o = true →
      mmaStop e s (.mmah g sh gA gB km1 o) = none →
      let t := issuedAfter s c 10 0 (fun t => startMma e t (.mmah g sh gA gB km1 o) (k.sAt sh.toNat))
      exec (.mmah g sh gA gB km1 o) s = .next t ∧ stands t (.mmah g sh gA gB km1 o) o) ∧
    (EngineBound k (.mdrain g) →
      (k.mcmds = [] → k.mzeroAt = [] → exec (.mdrain g) s = .next (issuedAfter s c 10 0 id)) ∧
      (k.mcmds ≠ [] ∨ k.mzeroAt ≠ [] → exec (.mdrain g) s = .next s)) ∧
    (∀ ad : TileReg, EngineBound k (.mzero g ad) → tileReady k ad.toNat = true →
      (shapeConf (k.shape ad.toNat) = true → ∃ t, exec (.mzero g ad) s = .next t ∧ SameMem s t ∧
        (∀ off, off < 65536 → byteAt (t.core c).tiles (tileKey ad.toNat off) =
          if off < shapeRows (k.shape ad.toNat) * shapeRowB (k.shape ad.toNat) then 0
          else byteAt k.tiles (tileKey ad.toNat off)) ∧
        (∀ n, n < 16384 → byteAt (t.core c).guard (guardKey ad.toNat n) = 0) ∧
        (∀ u off, u ≠ ad.toNat → off < 65536 → byteAt (t.core c).tiles (tileKey u off) = byteAt k.tiles (tileKey u off)) ∧
        ((t.core c).shape ad.toNat).getLsbD 22 = true ∧ tileBusy (t.core c) ad.toNat = true) ∧
      (shapeConf (k.shape ad.toNat) = false → ∃ x, exec (.mzero g ad) s = .next (raiseTrap s c x) ∧ x.cause = .unconf))) ∧
  (∀ (s : State) (c : Nat) (m : MCmd), (s.core c).mcmds.find? (·.id == m.id) = some m → m.fetched = false → m.recs ≠ [] →
    (∀ p ∈ fetchPieces m, p ∈ m.landed) →
    exec (.mmahFetchComplete c m.id) s = .next (settleOf (s.modCore c (fun k =>
      modMcmd k m.id (fun m => { m with fetched := true }))) c)) ∧
  (∀ (s : State) (c tile : Nat),
    let k := s.core c
    (∀ x ∈ k.mzeroAt, x.1 = tile → x.2 + 16 ≤ k.cycles) → ∃ t, exec (.mzeroBusyEnd c tile) s = .next t ∧
      (∀ x ∈ (t.core c).mzeroAt, x.1 ≠ tile) ∧ (∀ x ∈ k.mzeroAt, x.1 ≠ tile → x ∈ (t.core c).mzeroAt))

/-- R237, R43: an MMA that has had its cycles completes; a tile that holds another motif's bytes is brought to
it first (R343). Element (i, j) of the tile, an FP32X one with its guard byte, becomes the sum of its blocks
of 32 products, in ascending order, onto the old element or, with ACC = 0, onto zero; the elements outside M ×
N, and every other tile, keep their values. Where the model's own choices or inferences enter: log entry 84. -/
def Obligations.ArrayCompletes : Prop :=
  ∀ (s : State) (n c id : Nat) (rest : List (Nat × Nat)) (m : MCmd) (g : Guard) (km1 : BitVec 10) (o : MmaOp),
    (s.cluster n).queue = (c, id) :: rest → clusterOf c = n → (s.core c).mcmds.find? (·.id == id) = some m →
    m.i = .mma g km1 o → m.logAt = none → m.parent = none → powered (s.core c) = true → mmaCycles m ≤ m.ran →
    let k := s.core c
    let ops := opsOf s c
    let w := k.shape o.ad.toNat
    operandPoison ops m = none →
    (tileAway k o.ad.toNat = true →
      exec (.arrayCommandComplete n) s = exec (.arrayCommandComplete n) (bringTiles s c [o.ad.toNat])) ∧
    let val := fun (k' : Core) (r j : Nat) =>
      if isX w then k'.elemX (tileRow k o.ad.toNat r) j else k'.main (tileRow k o.ad.toNat r) j
    (tileAway k o.ad.toNat = false → 4 * (o.nm1.toNat + 1) ≤ shapeRowB w →
    ∃ t, exec (.arrayCommandComplete n) s = .next t ∧ SameMem s t ∧
      (∀ r j, r ≤ o.mm1.toNat → j ≤ o.nm1.toNat →
        val (t.core c) r j =
          mmaElem (m.fa == .int8) (if isX w then .fp32x else .fp32) m.fa m.fb (opA ops m.i m.fa r)
            (fun q => opB ops m.i m.fb q j) (km1.toNat + 1) (if o.acc then val k r j else 0) %
              2 ^ (if isX w then 40 else 32)) ∧
      (∀ r j, 4 * j + 4 ≤ shapeRowB w → ¬ (r ≤ o.mm1.toNat ∧ j ≤ o.nm1.toNat) → val (t.core c) r j = val k r j) ∧
      (∀ u off, u ≠ o.ad.toNat → off < 65536 → o.mm1.toNat * shapeRowB w + 4 * (o.nm1.toNat + 1) ≤ 65536 →
        byteAt (t.core c).tiles (tileKey u off) = byteAt k.tiles (tileKey u off) ∧
        byteAt (t.core c).guard (guardKey u (off / 4)) = byteAt k.guard (guardKey u (off / 4))) ∧
      (∀ x ∈ (t.core c).tileCmd, x.2 ≠ id) ∧ (∀ x ∈ (t.core c).mcmds, x.id ≠ id))

/-! ## The K and S slots -/

/-- R259 to R264, R266, R269 to R272, R278: a transfer whose channel has room, whose rings are ready and that passes
its checks enters its channel with its bundle, with the scalars and the starts of its sides as they were read; no byte
moves. KGANG marks the registers it will write, KCGRAD takes its draws. A ring that is not VALID traps CBUF. Where the
model's own choices or inferences enter: log entries 26, 52, 88. -/
def Obligations.TransferIssues : Prop :=
  ∀ (s : State) (c : Nat) (g : Guard) (x : KXfer) (tgt : Fmt) (rm : Rm) (nb : BitVec 6) (peer : BitVec 2) (i : Instr),
    CanIssue s c → Enabled (s.core c) g → NotRecording (s.core c) →
    i ∈ [Instr.kcopy g x, .kfill g x, .kgang g x, .kmcast g x, .kcgrad g x tgt rm nb, .kpull g x peer] →
    EngineBound (s.core c) i →
    let k := s.core c
    let e := solo s c 3
    (kReady s c x = true → kStop e s i x = none →
      ∃ t y, exec i s = .next t ∧ (t.core c).kcmds = k.kcmds ++ [y] ∧ y.id = k.nextId ∧ y.agent = .seq ∧ y.i = i ∧
        y.scal = [k.sAt x.sd.toNat, k.sAt x.ss.toNat, k.sAt x.sn.toNat, k.sAt (x.sn + 1).toNat, k.sAt x.se.toNat,
          k.sAt (x.se + 1).toNat] ∧
        y.baddr = k.bpc ∧ y.src = kSrcAt e i x ∧ y.dst = kDstAt e i x ∧ y.landed = [] ∧
        (lsRun k.lstat = false → (t.core c).bpc = va57 (k.bpc + 14)) ∧
        (t.core c).ts = k.ts ∧ (t.core c).tiles = k.tiles ∧ SameMem s t ∧ (∀ o, o ≠ c → t.core o = s.core o) ∧
        (i = .kgang g x → ∀ r ∈ kgangKeys (k.sAt x.sd.toNat), r ∈ ((t.core c).gangAt (gf (k.sAt x.sd.toNat) 0 2)).pend) ∧
        (i = .kcgrad g x tgt rm nb → lsRun k.lstat = false →
          (t.core c).cfgAt rSRSTATE = srAdvance (32 * (nb.toNat + 1)) (k.cfgAt rSRSTATE))) ∧
    (kReady s c x = true → x.dst = .ring → cbValid (k.cb (descH x.ddesc)) = false →
      ∃ t, exec i s = .next (raiseTrap s c t) ∧ t.cause = .cbuf ∧ t.tnum = descH x.ddesc)

/-- R276: KEYE.INIT sets COUNT to 0 and TARGET to the low word of s(SA) and keeps GEN; KEYE.ADD counts an
arrival (R274); KEYE.WAIT passes once GEN differs from the low word of s(SA), else its bundle waits. COUNT and
GEN of an eyelet that nothing has initialised are undefined (R273): there ADD keeps TARGET and every byte outside.
An offset that is no multiple of 16 traps DALIGN, one beyond the share TSRANGE. Where the model's own choices
or inferences enter: log entries 22, 49, 75. -/
def Obligations.EyeletInstructions : Prop :=
  ∀ (s : State) (c : Nat) (g : Guard) (oh : Handle) (sa se : SReg), CanIssue s c → Enabled (s.core c) g →
    let k := s.core c
    let off := (k.sAt se.toNat).toNat
    let v := (k.sAt sa.toNat).toNat % 2 ^ 32
    let init := Instr.keyeInit g oh false sa se
    let add := Instr.keyeAdd g oh false sa se
    let wait := Instr.keyeWait g oh sa se
    let ok := off % 16 = 0 ∧ off + 16 ≤ k.share ∧ (k.cfgAt rDBGMEM).getLsbD 0 = false
    NotRecording k → EngineBound k init → EngineBound k add → EngineBound k wait →
    (ok → k.buf = [] → clearOf k (loadDeps k .seq oh.toNat) = true →
      ∃ t, exec init s = .next t ∧ SameMem s t ∧ eyeWord (t.core c) off 0 = 0 ∧ eyeWord (t.core c) off 1 = v ∧
        eyeWord (t.core c) off 2 = eyeWord k off 2 ∧
        (∀ x, x < off ∨ off + 16 ≤ x → byteAt (t.core c).ts x = byteAt k.ts x)) ∧
    (ok → k.buf = [] → clearOf k (outAll k .seq ++ hdepOf k .seq oh.toNat) = true → tsPoisoned k off 16 = false →
      ∃ t, exec add s = .next t ∧ SameMem s t ∧
        (let n := (eyeWord k off 0 + v) % 2 ^ 32
         let tg := eyeWord k off 1
         eyeWord (t.core c) off 1 = tg ∧
         (eyeKnown k off = true → tg ≠ 0 ∧ tg ≤ n →
           eyeWord (t.core c) off 0 = n - tg ∧ eyeWord (t.core c) off 2 = (eyeWord k off 2 + 1) % 2 ^ 32) ∧
         (eyeKnown k off = true → ¬ (tg ≠ 0 ∧ tg ≤ n) →
           eyeWord (t.core c) off 0 = n ∧ eyeWord (t.core c) off 2 = eyeWord k off 2)) ∧
        (∀ x, x < off ∨ off + 12 ≤ x → byteAt (t.core c).ts x = byteAt k.ts x)) ∧
    (ok → k.buf = [] → tsPoisoned k (off + 8) 4 = false → eyeKnown k off = true →
      (eyeWord k off 2 ≠ v → exec wait s = .next (issuedAfter s c 14 4 (fun t => t.modCore c (Core.dropAhead .seq)))) ∧
      (eyeWord k off 2 = v → exec wait s = .next s)) ∧
    (off % 16 ≠ 0 → ∃ x, exec wait s = .next (raiseTrap s c x) ∧ x.cause = .dalign) ∧
    (off % 16 = 0 → k.share < off + 16 → ∃ x, exec wait s = .next (raiseTrap s c x) ∧ x.cause = .tsrange)

/-- R265, R266: a piece of a KCOPY within the tile store that does not overlap its source lands whole: the
bytes of its destination are those of its source, where no V-slot store that nothing orders before the copy
has just overwritten them (R117, R323), no other byte of the tile store changes, and the piece is noted. R267:
a transfer whose pieces have all landed completes: it leaves its channel, and with ADV = 1 its rings advance
by one slot. Where the model's own choices or inferences enter: log entries 7, 50, 88. -/
def Obligations.TransferProgress : Prop :=
  (∀ (s : State) (c : Nat) (g : Guard) (o : KXfer) (x : KCmd) (p r off n : Nat),
     let k := s.core c
     k.kcmds.find? (·.id == x.id) = some x → x.i = .kcopy g o → o.src = .ts → o.dst = .ts → o.cmpl = .none →
     clearOf k x.deps = true → k.frozen = false → o.ch.toNat ∉ k.frozenCh → p ∉ x.landed →
     kPiece x p = some (r, off, n) →
     let geo := kGeo x.i x.scal
     let from' := (rowAt x.src r geo.ss + off).toNat
     let tgt := (rowAt x.dst r geo.ds + off).toNat
     0 ≤ rowAt x.src r geo.ss + off → rowAt x.src r geo.ss + off < 2 ^ 64 →
     tsPoisoned k from' n = false → (∀ j, j < n → kOverlaps c x (tgt + j) = false) →
     ∃ t, exec (.transferPiece c x.id p) s = .next t ∧ SameMem s t ∧
       ((∀ v ∈ k.vold, v.core = c ∧ v.agent = x.agent ∧ v.handles.contains o.oh.toNat = true) →
         ∀ j, j < n → byteAt (t.core c).ts (tgt + j) = byteAt k.ts (from' + j)) ∧
       (∀ a, a < tgt ∨ tgt + n ≤ a → byteAt (t.core c).ts a = byteAt k.ts a) ∧
       (∃ y ∈ (t.core c).kcmds, y.id = x.id ∧ p ∈ y.landed)) ∧
  (∀ (s : State) (c : Nat) (g : Guard) (o : KXfer) (x : KCmd),
     let k := s.core c
     k.kcmds.find? (·.id == x.id) = some x → x.i = .kcopy g o → o.cmpl ≠ .stamp → x.parent = none → x.quiet = false →
     x.finished = false → kAllLanded x = true → k.frozen = false → o.ch.toNat ∉ k.frozenCh →
     (o.adv = true → ∀ y ∈ k.kcmds, y.id < x.id → hasAdv y = false) →
     ∃ t, exec (.commandCompletion c x.id) s = .next t ∧ SameMem s t ∧ (∀ y ∈ (t.core c).kcmds, y.id ≠ x.id) ∧
       (o.adv = false → (t.core c).cfg = k.cfg) ∧
       (∀ h sl, o.adv = true → x.dring = some (h, sl) → x.sring = none →
         (t.core c).cb h = cbAdvw (k.cb h) 1) ∧
       (∀ h sl, o.adv = true → x.sring = some (h, sl) → x.dring = none →
         (t.core c).cb h = cbAdvr (k.cb h) 1))

/-- R142, R148: a command of the S slot whose descriptors are ready takes the lowest FREE gang: the gang runs at
depth 1 with the entry's fibres and registers, its ports are the ring slots that the descriptors select, and
the rings are marked. While no gang is free it waits (R64); descriptors that USE does not allow trap ILLEGAL. An
opcode without a binding traps UNBOUND, a parameter word that breaks its rules LIBPARAM. R136, R143, R148: a
routine whose gang has drained, with every access performed, completes: its gang is FREE and its rings are no longer
marked. A library command completes with its whole effect on its output ports, and changes nothing else of the tile
store: XPOSE the transposed rows; GATHER the rows that its indices name, or zeros; SCATTER each row to its index, the
last winning; SOFTMAX and LNORM each row under their formulas; SORT and TOPK each row in order; SEGSUM the sums by
segment, in ascending order of the elements. Where the model's own choices or inferences enter: log entries 14, 23, 88,
90. -/
def Obligations.StitchCommands : Prop :=
  (∀ (s : State) (c : Nat) (g : Guard) (o : SOp) (opc : BitVec 7) (hi : BitVec 32) (op : Nat) (i : Instr),
     CanIssue s c → Enabled (s.core c) g → NotRecording (s.core c) →
     (op, i) ∈ [(0x60, Instr.xpose g o), (0x61, .gather g o), (0x62, .scatter g o), (0x63, .softmax g o),
       (0x64, .lnorm g o), (0x65, .topk g o), (0x66, .sort g o), (0x67, .segsum g o),
       (opc.toNat, .stitchDispatch g opc o hi)] →
     let k := s.core c
     let p := k.prickAt op
     let ds := [o.d0, o.d1, o.d2]
     let sa := k.sAt o.sa.toNat
     (p.kind ≠ 0 → descsLegal p ds = true →
       (∀ n ∈ List.range 3, hasBit p.use n = true → cbValid (k.cb (descH (ds.getD n 0))) = true) →
       descsReady k p ds = true → marksFree k (inRings p ds) (outRings p ds) = true → nestedWait k = false →
       ∀ n, freeGang k = some n →
       (p.kind = 1 → libBad op sa ((portsOf k p ds).map (·.1.size)) = false →
         ∃ t, exec i s = .next t ∧ SameMem s t ∧ ((t.core c).gangAt n).st = .running ∧ ((t.core c).gangAt n).depth = 1 ∧
           ∃ x, ((t.core c).gangAt n).cmd = some x ∧ x.opc = op ∧ x.sa = sa ∧ x.lib = some i ∧
             x.outs = outRings p ds ∧ x.ins = inRings p ds) ∧
       (p.kind = 2 →
         ∃ t, exec i s = .next t ∧ SameMem s t ∧ ((t.core c).gangAt n).st = .running ∧ ((t.core c).gangAt n).depth = 1 ∧
           (∀ l, l < (if p.fibm1 + 1 < k.fcap then p.fibm1 + 1 else k.fcap) →
             ((t.core c).gangAt n).fibre l = { pc := p.entry, k := 0x7F, st := .ready, arrived := .no, stamp := 0,
                                               seeds := [(0, s.fresh)] }) ∧
           (∀ o', o' ≠ n → (t.core c).gangAt o' = k.gangAt o') ∧
           ∃ x, ((t.core c).gangAt n).cmd = some x ∧ x.opc = op ∧ x.sa = sa ∧ x.lib = none)) ∧
     let free := (freeGang k).isSome = true ∧ nestedWait k = false ∧ descsReady k p ds = true ∧
       marksFree k (inRings p ds) (outRings p ds) = true
     (p.kind = 0 → (opcClass op = .s → descsLegal p ds = true ∧ free) →
       exec i s = .next (trapped s c (slotCode (opcClass op)) i .unbound)) ∧
     (p.kind ≠ 0 ∨ opcClass op = .s → descsLegal p ds = true → freeGang k = none → exec i s = .next s) ∧
     (p.kind ≠ 0 ∨ opcClass op = .s → descsLegal p ds = false →
       ∃ x, exec i s = .next (raiseTrap s c x) ∧ x.cause = .illegal) ∧
     (p.kind = 1 → descsLegal p ds = true →
       (∀ n ∈ List.range 3, hasBit p.use n = true → cbValid (k.cb (descH (ds.getD n 0))) = true) →
       descsReady k p ds = true → marksFree k (inRings p ds) (outRings p ds) = true → nestedWait k = false →
       (freeGang k).isSome → libBad op sa ((portsOf k p ds).map (·.1.size)) = true →
       exec i s = .next (trapped s c (slotCode (opcClass op)) i .libparam))) ∧
  (∀ (s : State) (c n : Nat) (x : SCmd), ((s.core c).gangAt n).cmd = some x → (s.core c).frozen = false →
     ((s.core c).gangAt n).stopped = false → x.logAt = none → x.parent = none →
     let k := s.core c
     (x.lib = none → (k.gangAt n).st = .draining → gangQuiet k n = true →
       exec (.sCommandCompletion c n) s =
         .next ((released s c (ofGang n)).modCore c (fun k => (k.setGang n Gang.empty).dropAhead .seq))) ∧
     (x.lib.isSome → (k.gangAt n).st = .running → (k.gangAt n).pend = [] → libPoison k x = none →
       (∀ v ∈ k.vold, ¬ (v.core = c ∧ v.agent = .seq)) →
       let a := libPar x.sa
       let f := a.fmt.getD .fp32
       let z := fmtSize f
       let base := fun (p : Nat) => (sPort x p).base
       let el := fun (p j : Nat) => numAt k.ts (base p + 4 * j) 4
       let row := fun (p r : Nat) => (List.range a.cols).map (fun j => el p (r * a.cols + j))
       let names := fun (p i q : Nat) => el p i = q ∧ q < 2 ^ 31 ∧ q < a.n
       ∃ t, exec (.sCommandCompletion c n) s = .next t ∧ SameMem s t ∧ (t.core c).gangAt n = Gang.empty ∧
         let ts := (t.core c).ts
         let out := fun (p j : Nat) => numAt ts (base p + 4 * j) 4
         let within := fun (p len : Nat) => ∀ y, y < base p ∨ base p + len ≤ y → byteAt ts y = byteAt k.ts y
         let rows := fun (g : List Nat → List Nat) => within 0 (a.rows * a.cols * 4) ∧ ∀ r j, r < a.rows → j < a.cols →
           out 0 (r * a.cols + j) = (g (row 1 r)).getD j 0 % 2 ^ 32
         (x.opc = 0x60 → within 0 (a.rows * a.cols * z) ∧ ∀ r j, r < a.rows → j < a.cols →
           numAt ts (base 0 + (j * a.rows + r) * z) z = numAt k.ts (base 1 + (r * a.cols + j) * z) z) ∧
         (x.opc = 0x61 → within 0 (a.rows * (a.cols * z)) ∧ ∀ r j, r < a.rows → j < a.cols * z →
           byteAt ts (base 0 + r * (a.cols * z) + j) =
             if el 2 r < 2 ^ 31 ∧ el 2 r < a.n then byteAt k.ts (base 1 + el 2 r * (a.cols * z) + j) else 0) ∧
         (x.opc = 0x62 → within 0 (a.n * (a.cols * z)) ∧ ∀ q j, q < a.n → j < a.cols * z →
           (∀ i, i < a.rows → names 2 i q → (∀ i', i < i' → i' < a.rows → ¬ names 2 i' q) →
             byteAt ts (base 0 + q * (a.cols * z) + j) = byteAt k.ts (base 1 + i * (a.cols * z) + j)) ∧
           ((∀ i, i < a.rows → ¬ names 2 i q) →
             byteAt ts (base 0 + q * (a.cols * z) + j) = byteAt k.ts (base 0 + q * (a.cols * z) + j))) ∧
         (x.opc = 0x63 → rows (fun l => (softmaxRow l).1)) ∧
         (x.opc = 0x64 → rows (fun l => (lnormRow a.n l).1)) ∧
         (x.opc = 0x66 → rows (fun l => (ranked (smaller f) l).map (fun e => canonNan f e.1))) ∧
         (x.opc = 0x65 → a.n ≤ a.cols → ∀ r j, r < a.rows → j < a.n →
           let e := (ranked (larger f) (row 2 r)).getD j (0, 0)
           out 1 (r * a.n + j) = e.2 % 2 ^ 32 ∧
           (base 0 + a.rows * a.n * 4 ≤ base 1 ∨ base 1 + a.rows * a.n * 4 ≤ base 0 → out 0 (r * a.n + j) = e.1)) ∧
         (x.opc = 0x67 → within 0 (a.n * 4) ∧ ∀ i, i < a.n → out 0 i =
           ((List.range (a.rows * a.cols)).foldl
             (fun acc j => if names 2 j i then (add32 acc (el 1 j)).bits else acc) 0) % 2 ^ 32)))

/-! ## Lanes -/

/-- R164 to R173: the integer instructions of lanes. Each takes effect in the active lanes alone: it writes its
destination register, pair or predicate and nothing else, and every lane of the batch moves on. IDIV traps
DIVZ in the lowest active lane with a zero divisor, before any lane writes; a clamp of ISAT sets FSTAT.SAT. -/
def Obligations.LaneInteger : Prop :=
  ∀ (s : State) (c g pc : Nat) (p : Pred) (kd ka kb : PReg) (d a b e : GReg) (imm : BitVec 16) (len pos : BitVec 5),
    GangIssues s c g pc →
    let k := s.core c
    let x := k.gangAt g
    let act := (batchOf s c g pc (.lnop p)).act
    let r := fun (n : GReg) (l : Nat) => x.reg l n.toNat
    let q := fun (n : GReg) (l : Nat) => x.pair l n.toNat
    let sx := imm.signExtend 32
    let one := fun (i : Instr) (v : Nat → W32) => RegsReady s c g pc i →
      ∃ t, exec i s = .next t ∧ LaneEffect s t c g pc i id (fun _ => onward pc) [d.toNat] (fun l _ => v l)
    let two := fun (i : Instr) (v : Nat → W64) => RegsReady s c g pc i →
      ∃ t, exec i s = .next t ∧ LaneEffect s t c g pc i id (fun _ => onward pc) (pairOf d) (pairVal d v)
    let pred := fun (i : Instr) (v : Nat → Bool) => RegsReady s c g pc i →
      ∃ t, exec i s = .next t ∧ LaneEffect s t c g pc i id
        (fun l f => onward pc (if l ∈ act then withK kd.toNat (v l) f else f)) [] (fun _ _ => 0)
    let pr := fun (l : Nat) (n : PReg) => n = 0 ∨ (x.fibre l).k.getLsbD n.toNat = true
    (RegsReady s c g pc (.lnop p) → ∃ t, exec (.lnop p) s = .next t ∧
      LaneEffect s t c g pc (.lnop p) id (fun _ => onward pc) [] (fun _ _ => 0)) ∧
    one (.movi p d imm) (fun _ => sx) ∧ one (.movhi p d a imm) (fun l => imm ++ (r a l).extractLsb' 0 16) ∧
    one (.mov p d a) (r a) ∧ two (.movd p d a) (q a) ∧
    one (.sel p false kd d a b) (fun l => if kAt x l kd then r a l else r b l) ∧
    two (.sel p true kd d a b) (fun l => if kAt x l kd then q a l else q b l) ∧
    one (.lid p .lane d) (fun l => w32 l) ∧ one (.lid p .gang d) (fun _ => w32 g) ∧
    one (.lid p .depth d) (fun _ => w32 x.depth) ∧ one (.lid p .live d) (fun _ => w32 (liveLanes x).length) ∧
    one (.lid p .core d) (fun _ => w32 (gf (k.cfgAt rMPOS) 0 8)) ∧
    (∀ fn, one (.iop p fn d a b) (fun l => iopRes fn (r a l) (r b l))) ∧
    (∀ fn, one (.iopi p fn d a imm) (fun l => iopRes fn (r a l) sx)) ∧
    (∀ fn, ((∀ l ∈ act, r b l ≠ 0) → one (.idiv p fn d a b) (fun l => idivRes fn (r a l) (r b l))) ∧
      (∀ l, act.find? (fun l => r b l == 0) = some l → RegsReady s c g pc (.idiv p fn d a b) →
        exec (.idiv p fn d a b) s = .next (laneTrapped s c g pc (.idiv p fn d a b) l .divz))) ∧
    one (.imad p .mad d a b e) (fun l => r a l * r b l + r e l) ∧
    two (.imad p .madws d a b e) (fun l => (r a l).signExtend 64 * (r b l).signExtend 64 + q e l) ∧
    two (.imad p .madwu d a b e) (fun l => (r a l).setWidth 64 * (r b l).setWidth 64 + q e l) ∧
    (∀ fn, RegsReady s c g pc (.isat p fn d a b) → ∃ t, exec (.isat p fn d a b) s = .next t ∧
      LaneEffect s t c g pc (.isat p fn d a b)
        (fun k => if act.any (fun l => (isatRes fn (r a l) (r b l)).2) then k.orFlags fSAT else k)
        (fun _ => onward pc) [d.toNat] (fun l _ => (isatRes fn (r a l) (r b l)).1)) ∧
    (∀ fn, one (.ibit p fn d a) (fun l => ibitRes fn (r a l))) ∧
    (∀ sg, one (.bfx p sg d a len pos) (fun l => bfxRes sg (r a l) (len.toNat + 1) pos.toNat)) ∧
    one (.bfi p d a b len pos) (fun l => bfiRes (r a l) (r b l) (len.toNat + 1) pos.toNat) ∧
    (∀ fn, two (.iop64 p fn d a b) (fun l => iop64Res fn (q a l) (q b l))) ∧
    (∀ cc, pred (.icmp p cc kd a b) (fun l => iccRes cc (r a l) (r b l))) ∧
    (∀ cc, pred (.icmpi p cc kd a imm) (fun l => iccRes cc (r a l) sx)) ∧
    (∀ cc, pred (.icmp64 p cc kd a b) (fun l => iccRes cc (q a l) (q b l))) ∧
    (∀ fn v, pred (.plop p fn kd ka kb v) (fun l => match fn with
      | .and => decide (pr l ka ∧ pr l kb) | .or => decide (pr l ka ∨ pr l kb)
      | .xor => decide (¬ (pr l ka ↔ pr l kb)) | .andn => decide (pr l ka ∧ ¬ pr l kb)
      | .not => decide (¬ pr l ka) | .set => v)) ∧
    one (.pmov p .p2g d a) (fun l => ((x.fibre l).k ||| 1).setWidth 32) ∧
    (RegsReady s c g pc (.pmov p .g2p d a) → ∃ t, exec (.pmov p .g2p d a) s = .next t ∧
      LaneEffect s t c g pc (.pmov p .g2p d a) id
        (fun l f => onward pc (if l ∈ act then { f with k := (r a l).setWidth 8 ||| 1 } else f)) [] (fun _ _ => 0))

/-- R163, R174 to R180: the float instructions of lanes. The results of the active lanes, with the draws of SR
in ascending order of lanes and within a packed register of elements, go to the destination; their flags are
ORed into FSTAT; nothing else changes. Where the model's own choices or inferences enter: log entries 9, 24. -/
def Obligations.LaneFloat : Prop :=
  ∀ (s : State) (c g pc : Nat) (p : Pred) (kd : PReg) (d a b e : GReg) (m : FMod), GangIssues s c g pc →
    let k := s.core c
    let x := k.gangAt g
    let act := (batchOf s c g pc (.lnop p)).act
    let sr := k.cfgAt rSRSTATE
    let r := fun (n : GReg) (l : Nat) => (x.reg l n.toNat).toNat
    let q := fun (n : GReg) (l : Nat) => (x.pair l n.toNat).toNat
    let flags := fun (v : List Nat × Nat × W64) (k : Core) => (k.orFlags v.2.1).setSr v.2.2
    let single := fun (i : Instr) (rm : Rm) (f : Nat → Nat → FR) => RegsReady s c g pc i →
      let v := mapDraw rm (fun u l => f u l) act sr
      ∃ t, exec i s = .next t ∧ LaneEffect s t c g pc i (flags v) (fun _ => onward pc) [d.toNat]
        (fun l _ => w32 (v.1.getD (act.idxOf l) 0))
    let double := fun (i : Instr) (rm : Rm) (f : Nat → Nat → FR) => RegsReady s c g pc i →
      let v := mapDraw rm (fun u l => f u l) act sr
      ∃ t, exec i s = .next t ∧ LaneEffect s t c g pc i (flags v) (fun _ => onward pc) (pairOf d)
        (pairVal d (fun l => w64 (v.1.getD (act.idxOf l) 0)))
    let packed := fun (i : Instr) (f : Nat → Nat → Nat → FR) => RegsReady s c g pc i →
      let v := mapDraw m.rm (fun u (y : Nat × Nat) => f u y.1 y.2) (act.flatMap (fun l => [(l, 0), (l, 1)])) sr
      ∃ t, exec i s = .next t ∧ LaneEffect s t c g pc i (flags v) (fun _ => onward pc) [d.toNat]
        (fun l _ => w32 (v.1.getD (2 * act.idxOf l) 0 + v.1.getD (2 * act.idxOf l + 1) 0 * 2 ^ 16))
    let half := fun (n : GReg) (l h : Nat) => r n l / 2 ^ (16 * h) % 2 ^ 16
    let hf := fun (h16 : Bool) => if h16 then Fmt.fp16 else .bf16
    let pred := fun (i : Instr) (v : Nat → Bool) => RegsReady s c g pc i →
      ∃ t, exec i s = .next t ∧ LaneEffect s t c g pc i id
        (fun l f => onward pc (if l ∈ act then withK kd.toNat (v l) f else f)) [] (fun _ _ => 0)
    (∀ fn, single (.fop p fn m d a b) m.rm (fun u l => fopRes .fp32 fn m u (r a l) (r b l))) ∧
    (∀ fn, single (.ffma p fn m d a b e) m.rm (fun u l => ffmaRes .fp32 fn m u (r a l) (r b l) (r e l))) ∧
    (∀ fn, single (.funop p fn m d a) m.rm (fun u l => funRes .fp32 fn m u (r a l))) ∧
    (∀ fn, single (.sfu p fn d a) .rne (fun _ l => sfu fn (r a l))) ∧
    (∀ fn, double (.dop p fn m d a b) m.rm (fun u l => fopRes .fp64 (dopToFop fn) m u (q a l) (q b l))) ∧
    (∀ fn, double (.dfma p fn m d a b e) m.rm (fun u l => ffmaRes .fp64 fn m u (q a l) (q b l) (q e l))) ∧
    (∀ fn, double (.dun p fn m d a) m.rm (fun u l => funRes .fp64 (dunToFun fn) m u (q a l))) ∧
    (∀ fn h16, packed (.hop p fn h16 m d a b) (fun u l h =>
      fopRes (hf h16) (hopToFop fn) m u (half a l h) (half b l h))) ∧
    (∀ fn h16, packed (.hfma p fn h16 m d a b e) (fun u l h =>
      ffmaRes (hf h16) (vfmaToFfma fn) m u (half a l h) (half b l h) (half e l h))) ∧
    (∀ cc, pred (.fcmp p cc kd a b) (fun l => fcc cc (decodeF .fp32 (r a l)) (decodeF .fp32 (r b l)))) ∧
    (∀ cc, pred (.dcmp p cc kd a b) (fun l => fcc cc (decodeF .fp64 (q a l)) (decodeF .fp64 (q b l)))) ∧
    (∀ dp sp tgt frm, tgt ≠ .fp64 → RegsReady s c g pc (.cvt p dp sp m tgt frm d a) →
      let z := 8 * fmtSize tgt
      let w := 8 * fmtSize frm
      let src := fun (l : Nat) => if frm = .fp64 then q a l else r a l / 2 ^ (w * sp.toNat) % 2 ^ w
      let v := mapDraw m.rm (fun u l => convert frm tgt m.rm u m.sat (src l)) act sr
      ∃ t, exec (.cvt p dp sp m tgt frm d a) s = .next t ∧ LaneEffect s t c g pc (.cvt p dp sp m tgt frm d a) (flags v)
        (fun _ => onward pc) [d.toNat] (fun l _ => (sf ((x.reg l d.toNat).setWidth 64) (z * dp.toNat) z
          (v.1.getD (act.idxOf l) 0)).setWidth 32)) ∧
    (∀ dp sp frm, RegsReady s c g pc (.cvt p dp sp m .fp64 frm d a) →
      let w := 8 * fmtSize frm
      let src := fun (l : Nat) => if frm = .fp64 then q a l else r a l / 2 ^ (w * sp.toNat) % 2 ^ w
      let v := mapDraw m.rm (fun u l => convert frm .fp64 m.rm u m.sat (src l)) act sr
      ∃ t, exec (.cvt p dp sp m .fp64 frm d a) s = .next t ∧ LaneEffect s t c g pc (.cvt p dp sp m .fp64 frm d a)
        (flags v) (fun _ => onward pc) (pairOf d) (pairVal d (fun l => w64 (v.1.getD (act.idxOf l) 0))))

/-- R181 to R183, R335: active lanes go to the target, with the next instruction's address in the link pair
where one is named, the others fall through; a target that is no multiple of 8 traps IALIGN in the lowest such
lane. LBRK traps BRK, or, where the batch that hit it is the one stepped over, only moves on. R152, R157: a
lane instruction that names a register at or above the bound traps REGBOUND; one that names a register pending
in an active lane leaves its batch stalled, with no register changed. Where the model's own choices or
inferences enter: log entry 16. -/
def Obligations.LaneControl : Prop :=
  (∀ (s : State) (c g pc : Nat) (p : Pred) (d a : GReg) (off : BitVec 16), GangIssues s c g pc →
     let x := (s.core c).gangAt g
     let act := (batchOf s c g pc (.lnop p)).act
     let rel := fun (_ : Nat) => (((pc : Int) + off.toInt * 8) % 2 ^ 57).toNat
     let reg := fun (l : Nat) => (x.pair l a.toNat).toNat % 2 ^ 57
     let go := fun (tgt : Nat → Nat) (l : Nat) (f : Fibre) => if l ∈ act then { f with pc := tgt l } else onward pc f
     let plain := fun (i : Instr) (tgt : Nat → Nat) => RegsReady s c g pc i → (∀ l ∈ act, tgt l % 8 = 0) →
       ∃ t, exec i s = .next t ∧ LaneEffect s t c g pc i id (go tgt) [] (fun _ _ => 0)
     let link := fun (i : Instr) (tgt : Nat → Nat) => RegsReady s c g pc i → (∀ l ∈ act, tgt l % 8 = 0) →
       ∃ t, exec i s = .next t ∧ LaneEffect s t c g pc i id (go tgt) (pairOf d)
         (pairVal d (fun _ => w64 ((pc + 8) % 2 ^ 57)))
     plain (.bra p off) rel ∧ plain (.brx p a) reg ∧ plain (.laneRet p a) reg ∧
     link (.laneCall p d off) rel ∧ link (.callx p d a) reg ∧
     (∀ i ∈ [Instr.brx p a, .laneRet p a, .callx p d a], RegsReady s c g pc i → ∀ l,
       act.find? (fun l => reg l % 8 != 0) = some l → exec i s = .next (laneTrapped s c g pc i l .ialign)) ∧
     (∀ imm, ((∀ l ∈ (batchOf s c g pc (.lbrk imm)).lanes, l ∈ x.stepOver) → ∃ t, exec (.lbrk imm) s = .next t ∧
         LaneEffect s t c g pc (.lbrk imm) id (fun _ => onward pc) [] (fun _ _ => 0)) ∧
       (¬ (∀ l ∈ (batchOf s c g pc (.lbrk imm)).lanes, l ∈ x.stepOver) → ∃ u, exec (.lbrk imm) s = .next (raiseTrap s c u) ∧ u.cause = .brk ∧ u.info = imm.toNat ∧
         u.gang = g ∧ u.fpc = pc))) ∧
  (∀ (s : State) (c g pc : Nat) (p : Pred) (fn : IopFn) (d a b : GReg), GangIssues s c g pc →
     let x := (s.core c).gangAt g
     let i := Instr.iop p fn d a b
     let bt := batchOf s c g pc i
     ((∃ r ∈ [d, a, b], x.bound ≤ r.toNat) →
       exec i s = .next (laneTrapped s c g pc i (bt.lanes.headD 0) .regbound)) ∧
     ((∀ r ∈ [d, a, b], r.toNat < x.bound) → (∃ l ∈ bt.act, ∃ r ∈ [d, a, b], regKey l r.toNat ∈ x.pend) →
       ∃ t, exec i s = .next t ∧ SameMem s t ∧ (∀ l ∈ bt.lanes, ((t.core c).gangAt g).fibre l =
           { x.fibre l with st := .stalled }) ∧
         (∀ l r, ((t.core c).gangAt g).reg l r = x.reg l r)))

/-- R196 to R199: the collectives. The participants are the active lanes of the mask in the lowest active lane;
VOTE, SHFL, SCAN and LRED write their results in them, and in no other lane. -/
def Obligations.LaneCollectives : Prop :=
  ∀ (s : State) (c g pc : Nat) (p : Pred) (ka : PReg) (d a b e : GReg) (delta : BitVec 5), GangIssues s c g pc →
    let x := (s.core c).gangAt g
    let act := (batchOf s c g pc (.lnop p)).act
    let parts := fun (m : GReg) => act.filter (fun l => (x.reg (act.headD 0) m.toNat).getLsbD l)
    let keep := fun (ps : List Nat) (v : Nat → W32) (l r : Nat) => if l ∈ ps then v l else x.reg l r
    let yes := fun (ps : List Nat) => ps.filter (fun l => kAt x l ka)
    let votes := fun (fn : VoteFn) (v : Bool) => RegsReady s c g pc (.vote p fn d ka b) →
      ∃ t, exec (.vote p fn d ka b) s = .next t ∧ LaneEffect s t c g pc (.vote p fn d ka b) id
        (fun l f => onward pc (if l ∈ parts b then withK (d.toNat % 8) v f else f)) [] (fun _ _ => 0)
    let counts := fun (fn : VoteFn) (v : Nat) => RegsReady s c g pc (.vote p fn d ka b) →
      ∃ t, exec (.vote p fn d ka b) s = .next t ∧ LaneEffect s t c g pc (.vote p fn d ka b) id
        (fun _ => onward pc) [d.toNat] (keep (parts b) (fun _ => w32 v))
    votes .all (decide (∀ l ∈ parts b, kAt x l ka = true)) ∧ votes .any (decide (∃ l ∈ parts b, kAt x l ka = true)) ∧
    counts .ballot ((yes (parts b)).map (fun l => 2 ^ l)).sum ∧ counts .count (yes (parts b)).length ∧
    (∀ fn, RegsReady s c g pc (.shfl p fn d a b e delta) →
      let from' := fun (l : Nat) => match fn with
        | .idx => (x.reg l b.toNat).toNat % 32 | .up => if delta.toNat ≤ l then l - delta.toNat else 32
        | .down => l + delta.toNat | .xor => Nat.xor l delta.toNat
      let ok := fun (l : Nat) => decide (from' l < 32 ∧ from' l ∈ parts e)
      ∃ t, exec (.shfl p fn d a b e delta) s = .next t ∧ LaneEffect s t c g pc (.shfl p fn d a b e delta) id
        (fun l f => onward pc (if l ∈ parts e then withK 7 (!ok l) f else f)) [d.toNat]
        (keep (parts e) (fun l => if ok l then x.reg (from' l) a.toNat else x.reg l a.toNat))) ∧
    (∀ op,
      let val := fun (l : Nat) => x.reg l a.toNat
      let fold := fun (l : List Nat) => match l.map val with
        | [] => ((0 : W32), 0)
        | v :: vs => vs.foldl (fun (y : W32 × Nat) z => ((scanOp op y.1 z).1, Nat.lor y.2 (scanOp op y.1 z).2)) (v, 0)
      let upTo := fun (l : Nat) => (parts b).filter (· ≤ l)
      let below := fun (l : Nat) => (parts b).filter (· < l)
      let fl := fun (k : Core) => k.orFlags (fold (parts b)).2
      (RegsReady s c g pc (.scan p false op d a b) → ∃ t, exec (.scan p false op d a b) s = .next t ∧
        LaneEffect s t c g pc (.scan p false op d a b) fl (fun _ => onward pc) [d.toNat]
          (keep (parts b) (fun l => (fold (upTo l)).1))) ∧
      (RegsReady s c g pc (.scan p true op d a b) → ∃ t, exec (.scan p true op d a b) s = .next t ∧
        LaneEffect s t c g pc (.scan p true op d a b) fl (fun _ => onward pc) [d.toNat]
          (keep (parts b) (fun l => if below l = [] then scanIdent op else (fold (below l)).1))) ∧
      (RegsReady s c g pc (.lred p op d a b) → ∃ t, exec (.lred p op d a b) s = .next t ∧
        LaneEffect s t c g pc (.lred p op d a b) fl (fun _ => onward pc) [d.toNat]
          (keep (parts b) (fun _ => (fold (parts b)).1))))

/-- R186 to R188, R250: a store of lanes whose accesses pass their checks enters the write buffers, one entry for each
active lane in ascending order, under its handle, with the register's low bytes at the address that the form names,
and one for all the lanes that write the same bytes, with the highest one's value (R249); no byte of memory or tile
store changes before it lands, and the lanes move on. The lowest active lane whose access fails a check traps with
that check's cause. R187: the checks of a lane access, in their order: alignment, a port that the routine may only
read, its extent; and the addresses that the forms name. Where the model's own choices or inferences enter: log
entries 19, 53, 62. -/
def Obligations.LaneStoresAndChecks : Prop :=
  (∀ (s : State) (c g pc : Nat) (p : Pred) (sz : Size) (oh : Handle) (a b : GReg) (off : BitVec 16) (port : BitVec 2)
     (i : Instr) (m : LAcc), GangIssues s c g pc →
     (i, m) ∈ [(Instr.st p sz oh a b off, ⟨.gm, sizeBytes sz, oh, a, off.toInt, .write⟩),
       (.stts p sz oh a b off, ⟨.ts, sizeBytes sz, oh, a, off.toInt, .write⟩),
       (.sttp p port sz oh a b off, ⟨.port port.toNat, sizeBytes sz, oh, a, off.toInt, .write⟩),
       (.stpeer p port false sz oh a b off, ⟨.peer port, sizeBytes sz, oh, a, off.toInt, .write⟩),
       (.stpeer p port true sz oh a b off, ⟨.mcast, sizeBytes sz, oh, a, off.toInt, .write⟩)] →
     RegsReady s c g pc i →
     let k := s.core c
     let x := k.gangAt g
     let bt := batchOf s c g pc i
     (lFirstStop s bt i m = none → lPendWait s bt m = false →
       let what := fun (st : BufStore) => (st.agent, st.handle, st.space, st.addr, st.data)
       ∃ t, exec i s = .next t ∧ (t.core c).buf.map what = k.buf.map what ++
           (bt.act.filter (fun l => decide (∀ q ∈ bt.act, lAddr s bt m q = lAddr s bt m l → q ≤ l))).map (fun l =>
           (Agent.fibre g l, oh.toNat, lSpace c m, lAddr s bt m l,
            leBytes (sizeBytes sz) (if sz = .b64 then (x.pair l b.toNat).toNat else (x.reg l b.toNat).toNat))) ∧
         ((∀ st ∈ k.buf, st.id < k.nextId) → ∀ st ∈ (t.core c).buf, k.nextId ≤ st.id →
           ∀ q ∈ bt.act, lAddr s bt m q = st.addr → st.of (.fibre g q) = true) ∧
         SameMem s t ∧ (t.core c).ts = k.ts ∧ (∀ o, o ≠ c → t.core o = s.core o) ∧
         (∀ l ∈ bt.lanes, ((t.core c).gangAt g).fibre l = { onward pc (x.fibre l) with stamp := x.cycle }) ∧
         (∀ l r, ((t.core c).gangAt g).reg l r = x.reg l r)) ∧
     (∀ l st, lFirstStop s bt i m = some (l, st) → exec i s = .next (takeStop s c st))) ∧
  (∀ (s : State) (b : Batch) (i : Instr) (n : Nat) (oh : Handle) (a : GReg) (off : Int) (acc : Acc) (l : Nat),
     let x := b.gang s
     let r := ((x.reg l a.toNat).toNat : Int) + off
     let traps := fun (m : LAcc) (cause : Cause) => ∃ t, lStop s b i m l = some (.trap t) ∧ t.cause = cause ∧ t.lane = l
     lWhere x ⟨.ts, n, oh, a, off, acc⟩ l = r ∧
     (∀ p, lWhere x ⟨.port p, n, oh, a, off, acc⟩ l = (gangPort x p).base + r) ∧
     lWhere x ⟨.gm, n, oh, a, off, acc⟩ l = (((x.pair l a.toNat).toNat % 2 ^ 57 : Nat) + off) % 2 ^ 57 ∧
     (∀ sp ∈ [LSpace.ts, .mcast], r % n ≠ 0 → traps ⟨sp, n, oh, a, off, acc⟩ .dalign) ∧
     (∀ p, r % n ≠ 0 → traps ⟨.port p, n, oh, a, off, acc⟩ .dalign) ∧
     (∀ p, r % n = 0 → acc.writes = true → p < 3 → (gangPort x p).out = false →
       traps ⟨.port p, n, oh, a, off, acc⟩ .portro) ∧
     (∀ p, r % n = 0 → (acc.writes = false ∨ 3 ≤ p ∨ (gangPort x p).out = true) →
       (r < 0 ∨ ((gangPort x p).size : Int) < r + n) → traps ⟨.port p, n, oh, a, off, acc⟩ .tsrange) ∧
     (r % n = 0 → (r < 0 ∨ ((s.core b.c).share : Int) < r + n) → traps ⟨.ts, n, oh, a, off, acc⟩ .tsrange))

/-- R186, R192 to R195, R204: a load, an atomic or an LWAIT whose accesses pass their checks leaves its batch waiting
with what each active lane asks for: no register, no memory and no other lane changes until the values return. The
core keeps the translations of an atomic, and what an active lane had read ahead may be read anew (R251); nothing else
of the device changes. Where the model's own choices or inferences enter: log entry 83. -/
def Obligations.LaneLoadsStart : Prop :=
  ∀ (s : State) (c g pc : Nat) (p : Pred) (sz : Size) (sx nr w tp : Bool) (oh : Handle) (d a b e : GReg) (off : BitVec 16)
    (o12 : BitVec 12) (o15 : BitVec 15) (port : BitVec 2) (fn : AtomFn) (cc : WaitCc) (sc : Scope) (kd : PReg)
    (i : Instr) (m : LAcc), GangIssues s c g pc →
    (i, m) ∈ [(Instr.ld p sz sx oh d a off, ⟨.gm, sizeBytes sz, oh, a, off.toInt, .read⟩),
      (.ldts p sz sx oh d a off, ⟨.ts, sizeBytes sz, oh, a, off.toInt, .read⟩),
      (.ldtp p port sz sx oh d a off, ⟨.port port.toNat, sizeBytes sz, oh, a, off.toInt, .read⟩),
      (.ldpeer p port sz sx oh d a off, ⟨.peer port, sizeBytes sz, oh, a, off.toInt, .read⟩),
      (.atom p fn nr w oh d a b off, ⟨.gm, wBytes w, oh, a, off.toInt, .atomic⟩),
      (.atomts p fn nr w oh d a b tp port o12, tsAcc w tp port oh a o12),
      (.cas p w oh d a b e o15, ⟨.gm, wBytes w, oh, a, o15.toInt, .atomic⟩),
      (.casts p w oh d a b e tp port o12, tsAcc w tp port oh a o12),
      (.lwait p cc sc kd a b off, ⟨.gm, 8, 0, a, 0, .read⟩)] →
    RegsReady s c g pc i →
    let x := (s.core c).gangAt g
    let bt := batchOf s c g pc i
    (∀ l ∈ bt.lanes, (x.fibre l).arrived = .no) →
    (bt.act ≠ [] → lFirstStop s bt i m = none → lPendWait s bt m = false →
      ∃ t k y op, exec i s = .next t ∧ t = s.setCore c (Core.setGang k g y) ∧
        k = { s.core c with trans := k.trans, ahead := k.ahead } ∧ (m.acc ≠ .atomic → k.trans = (s.core c).trans) ∧
        (∀ r ∈ (s.core c).ahead, (∀ l ∈ bt.act, r.agent ≠ .fibre g l) → r ∈ k.ahead) ∧
        y.ops = x.ops ++ [op] ∧ op.i = i ∧ op.pc = pc ∧
        op.lanes = bt.lanes ∧ op.addrs = bt.act.map (fun l => (l, lSpace c m, lAddr s bt m l)) ∧ op.got = [] ∧
        op.since = x.cycle ∧ (∀ l ∈ bt.lanes, (y.fibre l).st = .waiting ∧ (y.fibre l).pc = pc) ∧
        (∀ l, l ∉ bt.lanes → y.fibre l = x.fibre l) ∧ (∀ l r, y.reg l r = x.reg l r)) ∧
    (∀ l st, lFirstStop s bt i m = some (l, st) → exec i s = .next (takeStop s c st)) ∧
    (bt.act = [] → ∃ t, exec i s = .next t ∧ LaneEffect s t c g pc i id (fun _ => onward pc) [] (fun _ _ => 0))

/-- R188, R192 to R195, R204: the value of the last lane that a batch waits for returns. A load from tile store, where
no V-slot store of the sequencer still stands unordered before it (R117), writes its extended bytes to the register,
or those that it found ahead (R251); an atomic on tile store returns the old word and leaves the new one; the batch is
READY at its next instruction. An LWAIT whose time has passed ends with its predicate false, unless a last read, once
what it must follow has landed, finds that its condition holds (R86, R192). Where the model's own choices or
inferences enter: log entries 59, 83, 88. -/
def Obligations.LaneValuesReturn : Prop :=
  (∀ (s : State) (c g n l ad : Nat) (op : LaneOp) (p : Pred) (oh : Handle) (d a b e : GReg),
    let k := s.core c
    let x := k.gangAt g
    x.ops[n]? = some op → l < 32 → op.addrs = [(l, .ts, ad)] → op.got = [] → k.frozen = false → clearOf k op.deps = true →
    op.lanes.Nodup → (∀ q ∈ op.lanes, (x.fibre q).st = .waiting) →
    let ends := fun (t : State) => (∀ q ∈ op.lanes, ((t.core c).gangAt g).fibre q =
        { x.fibre q with st := .ready, pc := (op.pc + 8) % 2 ^ 57 }) ∧
      ((t.core c).gangAt g).ops = x.ops.eraseIdx n ∧ SameMem s t
    (∀ sz sx off, op.i = .ldts p sz sx oh d a off → tsPoisoned k ad (sizeBytes sz) = false →
      (∀ v ∈ k.vold, ¬ (v.core = c ∧ v.agent = .seq)) →
      let bs := k.found (.fibre g l) oh.toNat .ts ad
        (overlay ad (bytesAt k.ts ad (sizeBytes sz)) (forwards k (.fibre g l) .ts ad (sizeBytes sz)))
      ∃ t, exec (.loadResult c g (32 * n + l)) s = .next t ∧ ends t ∧ (t.core c).ts = k.ts ∧
        (sz ≠ .b64 → ((t.core c).gangAt g).reg l d.toNat =
          if sx then (BitVec.ofNat (8 * sizeBytes sz) (leNat bs)).signExtend 32 else w32 (leNat bs)) ∧
        (sz = .b64 → ((t.core c).gangAt g).reg l d.toNat = w32 (leNat bs) ∧
          ((t.core c).gangAt g).reg l (d.toNat + 1) = w32 (leNat bs / 2 ^ 32))) ∧
    (∀ fn nr w tp port off, op.i = .atomts p fn nr w oh d a b tp port off → tsPoisoned k ad (wBytes w) = false →
      let old := w64 (leNat (bytesAt k.ts ad (wBytes w)))
      let v := if w then x.pair l b.toNat else (x.reg l b.toNat).setWidth 64
      ∃ t, exec (.loadResult c g (32 * n + l)) s = .next t ∧ ends t ∧
        leNat (bytesAt (t.core c).ts ad (wBytes w)) = (atomOpW fn w old v).toNat ∧
        (∀ y, y < ad ∨ ad + wBytes w ≤ y → byteAt (t.core c).ts y = byteAt k.ts y) ∧
        (nr = false → ((t.core c).gangAt g).reg l d.toNat = old.setWidth 32) ∧
        (nr = true → ∀ r, ((t.core c).gangAt g).reg l r = x.reg l r)) ∧
    (∀ w tp port off, op.i = .casts p w oh d a b e tp port off → tsPoisoned k ad (wBytes w) = false →
      let old := w64 (leNat (bytesAt k.ts ad (wBytes w)))
      let exp := if w then x.pair l b.toNat else (x.reg l b.toNat).setWidth 64
      let new := if w then x.pair l e.toNat else (x.reg l e.toNat).setWidth 64
      ∃ t, exec (.loadResult c g (32 * n + l)) s = .next t ∧ ends t ∧
        leNat (bytesAt (t.core c).ts ad (wBytes w)) = (if old = exp then new else old).toNat ∧
        ((t.core c).gangAt g).reg l d.toNat = old.setWidth 32)) ∧
  (∀ (s : State) (c g n l ad : Nat) (op : LaneOp) (p : Pred) (a b : GReg) cc sc (kd : PReg) (tmo : BitVec 16),
    let x := (s.core c).gangAt g
    x.ops[n]? = some op → l < 32 → op.addrs = [(l, .gm, ad)] → op.got = [] → op.lanes.Nodup → l ∈ op.lanes →
    (∀ q ∈ op.lanes, (x.fibre q).st = .waiting) → op.i = .lwait p cc sc kd a b tmo → tmo ≠ 0 →
    let holds := clearOf (s.core c) op.deps && match opRead s c g op l .gm ad 8 with
      | .bytes bs => waitCc cc (w64 (leNat bs)) (x.pair l b.toNat)
      | _ => false
    (op.since + 64 * tmo.toNat ≤ x.cycle → (holds = true → (s.core c).failures = []) →
      ∃ t, exec (.lwaitTimeout c g (32 * n + l)) s = .next t ∧ SameMem s t ∧
        (∀ q ∈ op.lanes, (((t.core c).gangAt g).fibre q).st = .ready ∧ (((t.core c).gangAt g).fibre q).pc = (op.pc + 8) % 2 ^ 57) ∧
        (kd ≠ 0 → (((t.core c).gangAt g).fibre l).k.getLsbD kd.toNat = holds)) ∧
    (x.cycle < op.since + 64 * tmo.toNat → exec (.lwaitTimeout c g (32 * n + l)) s = .next s))

/-- R190, R191, R253, R254: LFENCE moves its batch on where the stores of its active lanes have landed as its scope sees
them, and with ISTR indeed; KIND ACQ waits for none. Until then the batch is WAITING, and it goes on with the same
effect once they have: with ISTR the core lets go of all code that it holds or has asked for, but for KIND ACQ the
fence is a release of each active lane, and but for KIND REL an acquire. LFORK and LJOIN order the later accesses of the
active lanes' handles. Where the model's own choices or inferences enter: log entries 12, 88. -/
def Obligations.LaneFencesAndHandles : Prop :=
  ∀ (s : State) (c g pc : Nat) (p : Pred) (kind : FenceKind) (istr : Bool) (sc : Scope) (h : Handle) (mask : BitVec 16),
    GangIssues s c g pc →
    let k := s.core c
    let act := (batchOf s c g pc (.lnop p)).act
    let moves := fun (i : Instr) (f : Core → Core) =>
      ∃ t, exec i s = .next t ∧ LaneEffect s t c g pc i f (fun _ => onward pc) [] (fun _ _ => 0)
    let x := k.gangAt g
    let bt := batchOf s c g pc (.lnop p)
    let met := lfenceMet s c g kind istr sc act = true
    (met → k.failures = [] → ∃ t, exec (.lfence p kind istr sc) s = .next t ∧
      LaneEffect (lfenceDo s c g kind istr sc act) t c g pc (.lfence p kind istr sc) id (fun _ => onward pc) []
        (fun _ _ => 0)) ∧
    (¬ met → ∃ t op, exec (.lfence p kind istr sc) s = .next t ∧ SameMem s t ∧ (∀ o, o ≠ c → t.core o = s.core o) ∧
      ((t.core c).gangAt g).ops = x.ops ++ [op] ∧ op.i = .lfence p kind istr sc ∧ op.pc = pc ∧ op.lanes = bt.lanes ∧
      op.addrs.map (·.1) = act ∧ (∀ l ∈ bt.lanes, (((t.core c).gangAt g).fibre l).st = .waiting) ∧
      (∀ l r, ((t.core c).gangAt g).reg l r = x.reg l r)) ∧
    (∀ n l op, x.ops[n]? = some op → op.i = .lfence p kind istr sc → op.addrs.map (·.1) = act → k.frozen = false → l < 32 →
      (met → k.failures = [] → exec (.loadResult c g (32 * n + l)) s = .next ((lfenceDo s c g kind istr sc act).modCore c
        (fun k => k.setGang g (endOp (k.gangAt g) n ((op.pc + 8) % 2 ^ 57) op)))) ∧
      (¬ met → exec (.loadResult c g (32 * n + l)) s = .next s)) ∧
    ((∀ l ∈ act, storesLanded k (.fibre g l) = true) → met) ∧ (kind = .acq → istr = false → met) ∧
    ((kind ≠ .acq ∧ sc = .system) ∨ istr = true → (∃ l ∈ act, storesLanded k (.fibre g l) = false) → ¬ met) ∧
    moves (.lfork p h mask) (fun k => act.foldl (fun k l => forkHandles k c (.fibre g l) mask h.toNat) k) ∧
    moves (.ljoin p h mask) (fun k => act.foldl (fun k l => joinHandles k c (.fibre g l) mask h.toNat) k)

/-- R200 to R202, R147: SPAWN of one lane starts a fibre in the lowest free lane with its four registers, or writes
all ones where the gang is full; QUIT ends the active lanes, once the stores that they have made to other devices are
answered (R381), and the gang drains with the last; ROLE and LBAR leave their lanes waiting until every live fibre has
arrived, and then the new role begins, unless a copy has still registers of the gang to write (R270), or all go on.
Where the model's own choices or inferences enter: log entries 7, 60. -/
def Obligations.LaneFibres : Prop :=
  ∀ (s : State) (c g pc : Nat) (p : Pred), GangIssues s c g pc →
    let k := s.core c
    let x := k.gangAt g
    let bt := batchOf s c g pc (.lnop p)
    (∀ (d a : GReg) off l, bt.act = [l] → RegsReady s c g pc (.spawn p d a off) → 4 ≤ x.bound →
      (∀ n, freeSlot x = some n → (liveLanes x).length < k.fcap →
        ∃ t, exec (.spawn p d a off) s = .next t ∧ SameMem s t ∧
          (let y := (t.core c).gangAt g
           y.fibre n = { pc := (((pc : Int) + off.toInt * 8) % 2 ^ 57).toNat, k := 0x7F, st := .ready, arrived := .no,
                         stamp := x.cycle, seeds := [(0, s.fresh)] } ∧
           y.reg n 0 = x.reg l a.toNat ∧ y.reg n 1 = w32 l ∧ y.reg n 2 = w32 n ∧
           y.reg n 3 = w32 ((liveLanes x).length + 1) ∧ y.reg l d.toNat = w32 n ∧ y.fibre l = { onward pc (x.fibre l) with stamp := x.cycle })) ∧
      (freeSlot x = none ∨ k.fcap ≤ (liveLanes x).length →
        ∃ t, exec (.spawn p d a off) s = .next t ∧ SameMem s t ∧ ((t.core c).gangAt g).reg l d.toNat = 0xFFFFFFFF)) ∧
    ((∃ l ∈ bt.act, farStores k (.fibre g l) = true) → ∃ t, exec (.quit p) s = .next t ∧ SameMem s t ∧
      (∀ l ∈ bt.lanes, (((t.core c).gangAt g).fibre l).st = .stalled)) ∧
    (k.failures = [] → (∀ l ∈ bt.act, farStores k (.fibre g l) = false) →
      let last := ∀ l ∈ liveLanes x, l ∈ bt.act
      (last ∨ (∃ l ∈ liveLanes x, l ∉ bt.act ∧ arrivedAt (x.fibre l) = .no)) →
      ∃ t, exec (.quit p) s = .next t ∧ SameMem s t ∧ (∀ l ∈ bt.act, (((t.core c).gangAt g).fibre l).st = .ended) ∧
        (last → (∀ y, x.cmd = some y → y.lib = none) → ((t.core c).gangAt g).st = .draining)) ∧
    (∀ topc : BitVec 7,
      let b := batchOf s c g pc (.role topc)
      ((∃ l ∈ liveLanes x, l ∉ b.lanes ∧ arrivedAt (x.fibre l) = .no) →
        ∃ t, exec (.role topc) s = .next t ∧ SameMem s t ∧ (∀ l ∈ b.lanes, arrivedAt (((t.core c).gangAt g).fibre l) = .role topc.toNat)) ∧
      (b.lanes = liveLanes x → (∀ y, x.cmd = some y → y.lib = none) → x.pend ≠ [] → (k.prickAt topc.toNat).kind = 2 →
        ∃ t, exec (.role topc) s = .next t ∧ SameMem s t ∧ (∀ l ∈ b.lanes, arrivedAt (((t.core c).gangAt g).fibre l) = .role topc.toNat)) ∧
      (b.lanes = liveLanes x → (∀ y, x.cmd = some y → y.lib = none) → x.pend = [] → (k.prickAt topc.toNat).kind = 2 →
        let e := k.prickAt topc.toNat
        ∃ t, exec (.role topc) s = .next t ∧ SameMem s t ∧ ((t.core c).gangAt g).bound = e.regm1 + 1 ∧
          (∀ l, l < (if e.fibm1 + 1 < k.fcap then e.fibm1 + 1 else k.fcap) →
            (((t.core c).gangAt g).fibre l).st = .ready ∧ (((t.core c).gangAt g).fibre l).pc = e.entry ∧
            (((t.core c).gangAt g).fibre l).k = 0x7F))) ∧
    (let b := batchOf s c g pc .lbar;
      ((∃ l ∈ liveLanes x, l ∉ b.lanes ∧ arrivedAt (x.fibre l) = .no) →
        ∃ t, exec .lbar s = .next t ∧ SameMem s t ∧ (∀ l ∈ b.lanes, arrivedAt (((t.core c).gangAt g).fibre l) = .lbar)) ∧
      (b.lanes = liveLanes x → (∀ y, x.cmd = some y → y.lib = none) → k.failures = [] →
        (∀ l ∈ b.lanes, storesLanded k (.fibre g l) = true) →
        ∃ t, exec .lbar s = .next t ∧ SameMem s t ∧ (∀ l ∈ b.lanes, (((t.core c).gangAt g).fibre l).st = .ready ∧
          (((t.core c).gangAt g).fibre l).pc = (pc + 8) % 2 ^ 57)))

/-- R203, R144: TISSUE issues the tile command in the registers of its lowest active lane, at depth 1 for the lanes of
the batch: a command of the lane's engines takes its effect, one that is bound to a routine or to library code takes
the lowest free gang at depth 2, and the batch waits while it is outstanding; while what the command needs is not
ready the batch waits at its TISSUE. A C-slot word traps ILLEGAL, an opcode without a binding UNBOUND, a routine from
depth 2 NEST. Where the model's own choices or inferences enter: log entries 18, 61, 90. -/
def Obligations.TissueIssues : Prop :=
  ∀ (s : State) (c g pc : Nat) (p : Pred) (k96 : Bool) (a b : GReg) (l : Nat) (ls : List Nat),
    let i := Instr.tissue p k96 a b
    let k := s.core c
    let x := k.gangAt g
    let bt := batchOf s c g pc i
    let w := x.pair l a.toNat
    let hi : W32 := if k96 then x.reg l b.toNat else 0
    let opc := opcOf w
    let cls := opcClass opc
    let e : Env := { c := c, who := .fibre g l, pre := s, base := (x.cmd.map (·.baddr)).getD 0, next := 0, lanes := bt.lanes }
    let nw : NestWait := { lane := l, lanes := bt.lanes, lo := w, hi := hi, word := (encWords i).1, forGang := false }
    let fits := fun (y : SlotSem) => slotOf k cls w hi = some y ∧ cls ≠ .c ∧ (guardOf w).spe = false ∧
      (guardOf w).qsel = 0 ∧ (k96 = true → cls = .k) ∧ y.legal k = true ∧ nestBad y.i = false
    let regs := fun (y : SlotSem) => ∀ r ∈ nestScalars y.i, 2 * r.toNat + 1 < x.bound ∧
      regKey l (2 * r.toNat) ∉ x.pend ∧ regKey l (2 * r.toNat + 1) ∉ x.pend
    let pr := k.prickAt opc
    let ds : List Desc := [fld w 16 16, fld w 32 16, fld w 48 16]
    let rings := descsReady k pr ds = true ∧ marksFree k (inRings pr ds) (outRings pr ds) = true
    GangIssues s c g pc → RegsReady s c g pc i → bt.act = l :: ls →
    (∀ y, fits y → regs y → pr.kind = 1 → cls ≠ .s →
      (y.ready e s = true → y.check e s = none →
        exec i s = .next (countBatch (awaitChild bt (y.post e (charge c (y.weight e) (y.eff e s)))) bt)) ∧
      (y.ready e s = false → exec i s = .next (countBatch (nestWait bt nw (y.poll e s true)) bt))) ∧
    (∀ y, fits y → regs y → pr.kind = 2 ∨ (pr.kind = 1 ∧ cls = .s) →
      (x.depth = 2 → exec i s = .next (laneTrapped s c g pc i l .nest)) ∧
      (x.depth ≠ 2 →
        (¬ rings → exec i s = .next (countBatch (nestWait bt nw s) bt)) ∧
        (∀ n, rings → y.check e s = none → freeGang k = some n →
          exec i s = .next (countBatch (awaitChild bt (charge c (y.weight e) (startGang s c n 2
            (mkSCmd k n opc w hi (rdScal e (fld w 11 5)) e.base pr ds (if pr.kind = 1 then some y.i else none)
              (some (g, bt.lanes)) none)))) bt)))) ∧
    (cls = .c → exec i s = .next (laneTrapped s c g pc i l .illegal)) ∧
    (∀ y, fits y → pr.kind = 0 → exec i s = .next (laneTrapped s c g pc i l .unbound))

/-! ## Bundles, stores, launches and motifs -/

/-- R47, R62, R64, R65: a null bundle passes BPC over itself and counts its issue; at a selvedge point a motif
that is asked to leave stops there (R345). Of a bundle of several slots, all legal: where an enabled slot is
not ready, nothing takes effect; where all are and one's check stops it, only that is taken; else the bundle
has its effects. Bytes that hold no bundle trap ILLEGAL. Where the model's own choices or inferences enter:
log entry 78. -/
def Obligations.BundlesIssue : Prop :=
  ∀ (s : State) (c : Nat), CanIssue s c →
    let k := s.core c
    (∀ selv, ¬ (selv = true ∧ ∃ m, s.motifOn c = some m ∧ m.st = .preempting) →
      exec (.nullBundle selv) s = .next (issued s c 2 0 id)) ∧
    (∀ m, s.motifOn c = some m → m.st = .preempting → (lsRun k.lstat = false ∨ lsStages k.lstat = 1) → k.upk = none →
      exec (.nullBundle true) s = .next (s.modCore c (fun k => { k with selvedge := true }))) ∧
    (∀ b len xs, fetchBundle s c k.bpc (fetchTrap k.bpc) = .bundle b len → decodeSlots k b = .ok xs →
      b.hdr.selv = false →
      let s1 := cacheFetch s c k.bpc len
      let e : Env := marked { c := c, who := .seq, pre := s1, base := k.bpc, next := va57 (k.bpc + len) }
        (xs.filter (SlotSem.enabled (s1.core c)))
      let on := xs.filter (SlotSem.enabled (s1.core c))
      (∀ x ∈ xs, x.legal (s1.core c) = true) →
      ((∀ x ∈ on, x.ready e s1 = true ∧ x.check e s1 = none) → recording (s1.core c) on = false →
        exec .bundleIssue s = .next (effBundle e on s1)) ∧
      ((∃ x ∈ on, x.ready e s1 = false) → (∀ x ∈ on, ∀ t b, x.poll e t b = t) → exec .bundleIssue s = .next s1) ∧
      (∀ st, (∀ x ∈ on, x.ready e s1 = true) → firstSome (on.map (fun x => x.check e s1)) = some st →
        exec .bundleIssue s = .next (takeStop s1 c st))) ∧
    (∀ w, fetchBundle s c k.bpc (fetchTrap k.bpc) = .badHeader w →
      exec .bundleIssue s = .next (raiseTrap s c { fetchTrap k.bpc with w0 := w64 w, acc := 0 }))

/-- R248, R250, R251: a buffered store whose earlier accesses have landed lands: its bytes read at its address
in the space that it names, no other byte of that space changes, and it leaves the buffers. Where the model's
own choices or inferences enter: log entry 65. -/
def Obligations.StoresLand : Prop :=
  ∀ (s : State) (c id : Nat) (st : BufStore),
    let k := s.core c
    let n := st.data.length
    k.buf.find? (·.id == id) = some st → k.frozen = false → clearOf k (st.deps.filter (· != id)) = true →
    (st.space = .ts → exec (.storeLands c id) s =
      .next (settleAgent ((landStore s c st).modCore c (fun k => dropStore k id)) c st.agent)) ∧
    (st.space = .ts → st.agent = .seq → ∃ t, exec (.storeLands c id) s = .next t ∧ SameMem s t ∧
      (∀ j, j < n → byteAt (t.core c).ts (st.addr + j) = st.data.getD j 0) ∧
      (∀ a, a < st.addr ∨ st.addr + n ≤ a → byteAt (t.core c).ts a = byteAt k.ts a) ∧
      (t.core c).buf = k.buf.filter (·.id != id) ∧ ∀ o, o ≠ c → t.core o = s.core o) ∧
    (st.space = .gm → st.tr.loc ≠ 2 → heldByMove s (st.tr.pa st.addr) n = false →
      cxlDown s (st.tr.pa st.addr) = false → st.agent = .seq →
      let pa := st.tr.pa st.addr
      ∃ t, exec (.storeLands c id) s = .next t ∧ (∀ j, j < n → byteAt t.mem (pa + j) = st.data.getD j 0) ∧
        (∀ a, a < pa ∨ pa + n ≤ a → byteAt t.mem a = byteAt s.mem a) ∧
        (t.core c).buf = k.buf.filter (·.id != id) ∧ (t.core c).ts = k.ts ∧ ∀ o, o ≠ c → t.core o = s.core o)

/-- R126, R129 to R132, R363, R438: the distributor accepts the next record of a host queue, with a token in queue
order that it writes to the record, and refuses a record that breaks a rule with that rule's code; a captured queue's
record is accepted once all that goes with it is at hand, which is appended to the area. A launch whose tokens have
completed becomes eligible with its argument words, or fails with DEPFAIL; 2 ms more of eligibility raise its class by
one, no less do. An instance of another device's launch that falls to this device enters as eligible, with that
device's class and time. R133: what a launch that is blocked has requested only moves running motifs to PREEMPTING.
Where the model's own choices or inferences enter: log entries 20, 36, 37, 85. -/
def Obligations.LaunchesEnter : Prop :=
  (∀ (s : State) (q : Nat) (x : HostQueue), s.queues.find? (fun x => x.q == q && x.alive) = some x → q ≠ 63 →
    let addr := x.base + 128 * x.head
    let r := wordsOf (physRead s addr 128)
    let tok := w64 (s.dev % 1024 * 2 ^ 54 + x.q * 2 ^ 48 + (x.seq + 1) % 2 ^ 48)
    let entered := fun (t : State) (l : Launch) => l ∈ t.launches ∧ l.id = s.nextLaunch ∧
      t.nextLaunch = s.nextLaunch + 1 ∧ l.token = tok ∧ l.queue = q ∧ l.recd = r ∧
      (∃ y ∈ t.queues, y.q = q ∧ y.head = (x.head + 1) % 2 ^ (x.n + 4) ∧ y.seq = x.seq + 1) ∧
      numAt t.mem (addr + 0x38) 8 = tok.toNat
    (x.head = x.tail → exec (.launchRecordAccept q) s = .next s) ∧
    (x.head ≠ x.tail → x.fn ∉ s.frozenFns → cxlDown s (addr + 0x30) = false → cxlDown s (addr + 0x38) = false →
      (capOn s = false →
        ∃ t l, exec (.launchRecordAccept q) s = .next t ∧ entered t l ∧
          (∀ a, a < addr + 0x30 ∨ addr + 0x40 ≤ a → byteAt t.mem a = byteAt s.mem a) ∧
          (∀ code, recCode s x.fn (x.fn == 0) r = some code → l.st = .failed code ∧
            numAt t.mem (addr + 0x30) 8 = (statusWord (.failed code)).toNat) ∧
          (recCode s x.fn (x.fn == 0) r = none → r.getD 5 0 = 0 →
            l.st = .waiting ∧ numAt t.mem (addr + 0x30) 8 = 0)) ∧
      (capOn s = true → capQueue s = q →
        (∀ s1, capRecord s tok r = (none, s1) →
          exec (.capture q) s = .next s1 ∧ exec (.launchRecordAccept q) s = .next s1) ∧
        (∀ bs s1, capRecord s tok r = (some bs, s1) →
          ((r.set 6 0).set 7 tok).flatMap (fun w => le8 w.toNat) <+: bs ∧
          ∃ t l, exec (.capture q) s = .next t ∧ exec (.launchRecordAccept q) s = .next t ∧ entered t l ∧
            (gf t.capstat 16 48 = (gf s.capstat 16 48 + bs.length) % 2 ^ 48 ∨ gf t.capstat 0 16 = 1))))) ∧
  (∀ (s : State) (l : Launch), s.launch? l.id = some l → l.st = .waiting →
    (∀ bs, (∀ d ∈ l.deps, tokenState s d = some true) →
      distRead s l.ctx l.id 8 ((List.range (recNargs l.recd)).map (fun n => (va57 (recArgs l.recd + 8 * n), 8))) = .bytes bs →
      exec (.launchEligible l.id) s =
        .next (requestPreempt (s.setLaunch { l with st := .eligible, eligAt := s.time, args := wordsOf bs }))) ∧
    ((∀ d ∈ l.deps, (tokenState s d).isSome) → (∃ d ∈ l.deps, tokenState s d = some false) →
      exec (.launchEligible l.id) s = .next (setStatus s l (.failed 5))) ∧
    ((∃ d ∈ l.deps, tokenState s d = none) → exec (.launchEligible l.id) s = .next s)) ∧
  (∀ (s : State) (l : Launch), s.launch? l.id = some l → (l.st = .eligible ∨ l.st = .running) →
    let due := elapsed s l.eligAt (2000 * (l.boost + 1))
    (effClass l < 3 → due = true →
      exec (.classAging l.id) s = .next (requestPreempt (s.setLaunch { l with boost := l.boost + 1 }))) ∧
    (3 ≤ effClass l ∨ due = false → exec (.classAging l.id) s = .next s)) ∧
  (∀ s : State, ∃ ms, requestPreempt s = { s with motifs := ms } ∧ ∀ m ∈ ms,
    m ∈ s.motifs ∨ ∃ v ∈ s.motifs, v.st = .running ∧ m = { v with st := .preempting, preemptAt := s.time }) ∧
  (∀ (s : State) (dev tok inst cls since : Nat) (rec' args : List W64) (x : Context),
    let r := sf (rec'.getD 0 0) 59 2 cls :: rec'.drop 1
    s.fabUp = true → dev ≠ s.dev → dev ≤ s.gszm1 → (dev + inst) % (s.gszm1 + 1) = s.dev →
    levelsOk (levelsOf r) = true →
    (∃ d, devLvl (levelsOf r) = some d ∧ inst < ((levelsOf r).getD d default).extent) →
    s.context? (gf (r.getD 4 0) 0 16) = some x → x.dying = false →
    ∃ t l, exec (.remoteInstance dev tok inst cls since rec' args) s = .next t ∧ SameMem s t ∧
      t.launches = s.launches ++ [l] ∧ l.id = s.nextLaunch ∧ l.st = .eligible ∧ l.eligAt = since ∧ l.home = some dev ∧
      l.token = w64 tok ∧ l.args = args ∧ l.recd = r)

/-- R132, R134, R127, R210, R342, R450: the next motif of the launch whose turn it is goes to the lowest open
core within its bounds, at its entry, with its arguments, seed, indices, privilege and share, and the group
that is placed together goes as a whole, unless a motif of the launch with a lower linear index can come back
first; a group across devices first reserves its cores. A motif that comes back takes its place, scalars and
registers from its frame, and the group that was pre-empted with it comes back with it, in ascending linear
index (R128); the BPC word is taken whole, and one that is odd, wider than an address or moved in a nest traps
(R359). Where the model's own choices or inferences enter: log entries 28, 38, 39, 85, 92. -/
def Obligations.WorkPlaced : Prop :=
  (∀ (s : State) (l : Launch) (x : Context) (j : Nat) (cores : List Nat),
    s.launch? l.id = some l → open' l = true → nextIdx s l = some j → isTurn s l = true →
    returnsFirst s l j = false → (unitOf l j).length ≤ framesLeft s l.ctx → s.context? l.ctx = some x →
    cores ≠ [] →
    let lowest := placeTo s l j
    (l.replayOf = 0 → lowest = fillCores s l (unitIdx l j) (bounding s l)) ∧
    (spans l = false → lowest ≠ some cores → exec (.motifPlace l.id cores) s = .next s) ∧
    (spans l = false → lowest = some cores →
      exec (.motifPlace l.id cores) s = .next (requestPreempt (placeUnit s l j cores)) ∧
      (∀ c, unitOf l j = [j] → cores = [c] → ∃ t, exec (.motifPlace l.id cores) s = .next t ∧
        (let k := t.core c
         k.motif = some s.nextMotif ∧ k.ctx = x.num ∧ k.bpc = gf (recEntry l.recd) 0 57 ∧
         (∀ r, r < l.args.length → k.sAt r = l.args.getD r 0) ∧
         k.cfgAt rSRSTATE = (if l.recd.getD 3 0 = 0 then 1 else l.recd.getD 3 0) ∧
         k.cfgAt rMSTAT = (if (l.recd.getD 0 0).getLsbD 58 then 1 else 0) ∧
         (∀ n, n < 8 → k.cfgAt (rLIDX + n) = w64 ((lidxOf (coreExts (levelsOf l.recd)) j).getD n 0)) ∧
         k.share = ((recDomain (levelsOf l.recd) 4).map (·.size)).getD 0 * 64 ∧ k.prick = x.table) ∧
        (∀ o, o ≠ c → t.core o = s.core o))) ∧
    (spans l = true → lowest = some cores → (∀ y ∈ s.launches, y.reserved = []) →
      (l.home.isSome ∨ ∀ d ∈ groupDevices s l, d < s.dev → d ∈ l.devices) →
      exec (.crossDeviceReserve l.id cores false) s = .next (s.setLaunch { l with reserved := cores }))) ∧
  (∀ (s : State) (l : Launch) (j : Nat), s.launch? l.id = some l → open' l = true → nextIdx s l = some j → spans l = true →
    l.reserved ≠ [] → s.noPlace = false → (s.context? l.ctx).any (·.dying) = false →
    (l.home.isSome ∨ ∀ d ∈ groupDevices s l, d ≠ s.dev → d ∈ l.devices) →
    exec (.crossDeviceReserve l.id [] true) s = .next (placeUnit s l j l.reserved)) ∧
  (∀ (s : State) (m : Motif) (l : Launch) (x : Context) (own : Core) (fr c : Nat),
    s.motif? m.id = some m → s.launch? m.launch = some l → s.context? l.ctx = some x → m.saved = some own →
    frameOf s m = some fr → m.st = .swapped → open' l = true → isTurn s l = true →
    let g := swappedGroup s l m
    let first := g.head?.map (·.id) = some m.id ∧ returnsFirst s l m.index = false
    (l.replayOf = 0 → returnTo s l g = fillCores s l (g.map (·.lidx)) (bounding s l)) ∧
    (∀ cs, first → returnTo s l g = some cs → cs.head? = some c →
      exec (.motifReentry m.id c) s = .next ((g.zip cs).foldl (fun s p => reenter s p.1 p.2) s)) ∧
    (¬ first ∨ returnTo s l g = none → exec (.motifReentry m.id c) s = .next s) ∧
    reenter s m c = capPlace ((restoreMotif (powerOn s c) c m x l fr own).setLaunch
      { l with ranOn := if l.ranOn.contains c then l.ranOn else c :: l.ranOn }) l m c) ∧
  (∀ (s : State) (fr : Nat) (k : Core),
    let k' := loadRegs s fr k
    k'.bpc = numAt s.mem (fr + 0x80) 8 ∧
    (∀ r, r < 32 → k'.sAt r = w64 (numAt s.mem (fr + 0x100 + 8 * r) 8)) ∧
    (∀ n, n < 0x300 → notCtx n = false → n ≠ rSRSTATE →
      k'.cfgAt n = w64 (numAt s.mem (fr + 0x800 + 8 * n) 8) &&& ctxMask n) ∧
    (∀ own : Core, k'.bpc % 2 = 1 ∨ 2 ^ 57 ≤ k'.bpc → ∃ t, entryTrap own k' = some t ∧ t.cause = .ialign) ∧
    (∀ own : Core, k'.bpc % 2 = 0 → k'.bpc < 2 ^ 57 →
      (lsRun own.lstat = true → k'.bpc ≠ own.bpcRef.getD own.bpc →
        ∃ t, entryTrap own k' = some t ∧ t.cause = .loopctl) ∧
      (lsRun own.lstat = false ∨ k'.bpc = own.bpcRef.getD own.bpc → entryTrap own k' = none)))

/-- R135, R332, R336, R338, R340, R343, R346: a motif that has issued SYS 0 is DONE once all that it issued has
completed, and its launch with the last; one that reaches no selvedge point in 2 ms is KILLED. A halt stops every
agent of its core, and ends its lease term (R224). A motif whose accesses have landed goes to its frame, with its
place and scalars, and its core is free. A fault entry that was held goes to the ring when it has room. A tile that
was saved comes back from the frame, one that was not as zero. Where the model's own choices or inferences enter: log
entries 29, 31, 33, 38, 92. -/
def Obligations.MotifsLeave : Prop :=
  (∀ (s : State) (c : Nat) (m : Motif), s.motifOn c = some m →
    let k := s.core c
    (m.st = .running → m.core = some c → k.ended = true → k.frozen = false → enginesQuiet k = true → k.buf = [] → noticesOut s c = false →
      (∀ e ∈ k.gang, e.2.st = .free) → peersQuiet s c = true →
      ∃ t, exec (.motifDone c) s = .next t ∧ (t.core c).motif = none ∧
        (∃ x ∈ t.motifs, x.id = m.id ∧ x.st = .done ∧ x.core = none ∧ x.frame = none) ∧
        (∀ l, s.launch? m.launch = some l →
          ∃ l' ∈ t.launches, l'.id = l.id ∧ l'.ended = l.ended + 1 ∧ (l.ended + 1 = l.total → l'.st = .done))) ∧
    let late := m.st = .preempting ∧ m.pendingTrap = false ∧ s.time ≥ m.preemptAt + 2000 * 2250 ∧
      (k.selvedge = false ∨ ∃ e ∈ k.gang, e.2.st ≠ .free ∧ inPlace k e.1 = true)
    (late → m.core = some c → ∃ t, exec (.preemptTimeout c) s = .next t ∧ (t.core c).motif = none ∧
      ∃ x ∈ t.motifs, x.id = m.id ∧ x.st = .killed) ∧
    (¬ late → exec (.preemptTimeout c) s = .next s) ∧
    (∀ r, k.halt = some r → m.st = .halting → upkBetween k = true ∨ k.seqStopped = true →
      ∃ t, exec (.motifHalt c) s = .next t ∧ (t.core c).seqStopped = true ∧
        (∀ g, ((t.core c).gangAt g).st ≠ .running) ∧ SameMem s t ∧ (t.core c).ts = k.ts) ∧
    (m.core = some c → ∀ x, (haltLease s c m).motifOn c = some x →
      leaseOf (haltLease s c m) c = .idle ∧ (leaseOf s c ≠ .idle → x.lease = leaseOf s c ∧ x.giveUp = giveUpOf s c)) ∧
    (∀ fr, frameOf s m = some fr → maySwap s c m = true → m.st = .preempting → swapFailure s c m = none → ∃ t, exec (.swapOut c) s = .next t ∧
      (t.core c).motif = none ∧ numAt t.mem (fr + 0x80) 8 = k.bpc % 2 ^ 64 ∧
      (∀ r, r < 32 → numAt t.mem (fr + 0x100 + 8 * r) 8 = (k.sAt r).toNat) ∧
      (∃ x ∈ t.motifs, x.id = m.id ∧ x.st = .swapped ∧ x.core = none)) ∧
    (∀ fr tile, frameOf s m = some fr → tile < 8 → tile ∈ k.refill → (∀ p ∈ k.tags, p.1 ≠ tile) →
      let w := k.shape tile
      let n := shapeRows w * shapeRowB w
      ∃ t, exec (.tileRefill c tile) s = .next t ∧ SameMem s t ∧ tile ∉ (t.core c).refill ∧
        (tile ∈ k.saved → ∀ off, off < n → byteAt (t.core c).tiles (tileKey tile off) = byteAt s.mem (tileFrame fr tile + off)) ∧
        (tile ∉ k.saved → ∀ off, off < 65536 → byteAt (t.core c).tiles (tileKey tile off) = 0))) ∧
  (∀ (s : State) (x : Context) (e : W64), s.context? x.num = some x → x.held = [e] →
    let cons := numAt s.mem (x.fring + 8) 4
    let past := (cons + 2 ^ 32 - x.prod % 2 ^ 32) % 2 ^ 32
    let used := if 1 ≤ past ∧ past ≤ 2 ^ 31 - 1 then 0 else (x.prod + 2 ^ 32 - cons) % 2 ^ 32
    let q := (x.prod + 1) % 2 ^ 32
    (used < 2 ^ (x.fringN + 4) → ∃ t, exec (.faultRingRetry x.num) s = .next t ∧ t.cores = s.cores ∧
      numAt t.mem x.fring 8 = q ∧
      numAt t.mem (x.fring + 64 + 8 * (x.prod % 2 ^ 32 % 2 ^ (x.fringN + 4))) 8 = (e.toNat + q) % 2 ^ 64 ∧
      t.msix = s.msix ++ [(x.fn, 2)] ∧ (∃ y ∈ t.contexts, y.num = x.num ∧ y.prod = q ∧ y.held = [])) ∧
    (2 ^ (x.fringN + 4) ≤ used → exec (.faultRingRetry x.num) s = .next (s.setContext { x with held := [e] })))

/-! ## The fabric -/

/-- R362, R365, R369 to R372: the ports. A flit of another length, or at a port that is down, is ignored; one whose
CRC is wrong is asked for again; a data flit with the SEQ expected goes to its VC and the next SEQ is expected, one
with another SEQ is asked for again; a retrain flit closes every stream (R374). A port that was asked for one SEQ 16
times within 1 ms trains again and keeps its lanes, or goes down. The fabric manager sets the device's number, the
group and the routes. Where the model's own choices or inferences enter: log entries 64, 65. -/
def Obligations.FlitsAndLinks : Prop :=
  (∀ (s : State) (p : Nat) (flit : List Byte), p < 24 → (s.port p).up = true → flit.length = 256 →
    let x := s.port p
    let lk := leNat (flit.take 8)
    let good := leNat (flit.drop 248) = (crc64 (flit.take 248)).toNat
    let x1 := ackTo { x with stop := nf lk 48 16 } (nf lk 36 12)
    let s1 := passedOn (s.setPort p x1) p
    let next := fun (t : State) => Host.Outcome.next (pumpPort t p)
    (¬ good → exec (.flitReceive p flit) s = .next (askReplay s p) ∧
      (askReplay s p).wire = s.wire ++ [(p, flitOf x.stopTx (x.rxSeq + 4095) x.rxSeq 0 2 (List.replicate 240 0))]) ∧
    (good → nf lk 16 4 = 0 → nf lk 24 12 = x.rxSeq →
      exec (.flitReceive p flit) s = next (acceptFlit s1 p (nf lk 20 4) ((flit.drop 8).take 240))) ∧
    (good → nf lk 16 4 = 0 → nf lk 24 12 ≠ x.rxSeq → exec (.flitReceive p flit) s = next (askReplay s1 p)) ∧
    (good → nf lk 16 4 = 1 → exec (.flitReceive p flit) s = next s1) ∧
    (good → nf lk 16 4 = 2 → exec (.flitReceive p flit) s = next (resendFrom s1 p (nf lk 24 12))) ∧
    (good → nf lk 16 4 = 3 → exec (.flitReceive p flit) s = next (s1.setPort p { x1 with streams := [], txStreams := [] }))) ∧
  (∀ (s : State) (p n : Nat), p < 24 → (s.port p).up = true →
    let asks := (s.port p).asks
    let often := ∃ first last, asks[asks.length - 16]? = some first ∧ asks.getLast? = some last ∧ 16 ≤ asks.length ∧
      last ≤ first + 1000 * 2250
    let kept := fun (t : State) => (∀ r ∈ s.requests, r.port.isSome) → t.cores = s.cores
    (¬ often → ∀ ok, exec (.linkRetrain p n ok) s = .next s) ∧
    (often → n < (s.port p).lanes → ∃ t, exec (.linkRetrain p n true) s = .next t ∧ SameMem s t ∧ (t.port p).up = true ∧
      (t.port p).lanes = (s.port p).lanes - n ∧ (t.port p).asks = [] ∧ t.cores = s.cores) ∧
    (often → ∃ t, exec (.linkRetrain p n false) s = .next t ∧ SameMem s t ∧ (t.port p).up = false ∧ kept t)) ∧
  (∀ (s : State) (p : Nat), p < 24 →
    ((s.port p).up = false → s.minimal = false → s.started = true →
      ∃ t, exec (.linkPortStateChange p true) s = .next t ∧ SameMem s t ∧ (t.port p).up = true ∧ t.cores = s.cores) ∧
    ((s.port p).up = false → (s.minimal = true ∨ s.started = false) → exec (.linkPortStateChange p true) s = .next s) ∧
    ((s.port p).up = true → ∃ t, exec (.linkPortStateChange p false) s = .next t ∧ SameMem s t ∧
      (t.port p).up = false ∧ (t.port p).replay = [] ∧ ((∀ r ∈ s.requests, r.port.isSome) → t.cores = s.cores))) ∧
  (∀ (s : State) (dev gsz : Nat) (es : List W64), dev < 1024 → gsz < 1024 →
    (s.started = true → s.minimal = false → ∃ t, exec (.routeTableLoad dev gsz es) s = .next t ∧ SameMem s t ∧
      t.dev = dev ∧ t.gszm1 = gsz ∧ t.fabUp = true ∧ ((∀ r ∈ s.requests, r.port.isSome) → t.cores = s.cores) ∧
      ∀ n, n < es.length → n < 1024 → mget noW64 t.routes n = es.getD n 0 &&& 0xF0000000FFFFFFFF#64) ∧
    (s.minimal = true → exec (.routeTableLoad dev gsz es) s = .next s))

/-- R375 to R384: a request of another device is performed at its home: a read answers with the bytes, a write
leaves its bytes, in order with the earlier ones of its flow to its line; of a CAS group every packet must have
come (R376). One outside every export range, or
without the grant, is answered with a violation and its device is frozen (the record's address is a free value:
log entry 66); one of a frozen device is refused,
and one that would be forwarded twice as well. A response reaches what the request served; after 4 ms a
timeout does. Where the model's own choices or inferences enter: log entries 59, 63. -/
def Obligations.RemoteAccess : Prop :=
  (∀ (s : State) (idx : Nat) (r : InReq), s.incoming[idx]? = some r → r.more = false →
    firstOfFlow s idx r = true → r.op ≠ pkNotice →
    let s0 := restopAll { s with incoming := s.incoming.eraseIdx idx }
    let n := r.span
    let frozen := s.frozenPeers.contains r.sdev
    (∀ e, frozen = false → exportOf s r n = some e → e.fwd = none → granted e r.op = true →
      (inHbm s r.addr n || inCxl s r.addr n) = true → cxlDown s r.addr = false →
      (r.op = pkRead → gmPoisoned s r.addr n = false →
        ∃ t, exec (.remoteRequest idx) s = .next t ∧ t = answer s0 r pkData (physRead s r.addr n) ∧ SameMem s t) ∧
      (r.op = pkWrite → r.data.length = r.len → heldByMove s r.addr n = false →
        ∃ t, exec (.remoteRequest idx) s = .next t ∧ t = answer (physWrite s0 r.addr r.data) r pkDone [] ∧
          (∀ j, j < r.len → byteAt t.mem (r.addr + j) = r.data.getD j 0) ∧
          (∀ a, a < r.addr ∨ r.addr + r.len ≤ a → byteAt t.mem a = byteAt s.mem a)) ∧
      ((r.op = pkAtomic ∨ r.op = pkCas) → gmPoisoned s r.addr n = false → heldByMove s r.addr n = false →
        exec (.remoteRequest idx) s = .next (answer (physWrite s0 r.addr (remoteNew r (physRead s r.addr n))) r
          pkData (physRead s r.addr n)))) ∧
    (frozen = true → ∃ t, exec (.remoteRequest idx) s = .next t ∧ t = refuse s0 r 5 ∧ SameMem s t) ∧
    (frozen = false → (∀ e, exportOf s r n = some e → granted e r.op = false) →
      ∃ t, exec (.remoteRequest idx) s = .next t ∧ t = refuse (peerFreeze s0 r) r 2 ∧
        SameMem s t ∧ r.sdev ∈ t.frozenPeers) ∧
    (∀ e d, frozen = false → exportOf s r n = some e → granted e r.op = true → e.fwd = some d → r.forwarded = true →
      exec (.remoteRequest idx) s = .next (refuse s0 r 4))) ∧
  (∀ (s : State) (r : FabReq) (c st : Nat) (ag : Option Agent) (va n : Nat) (bs : List Byte),
    s.requests.find? (·.id == r.id) = some r → r.who = .load c ag va n →
    (fits r st bs = true → ∃ t, exec (.fabricResponse r.id st bs false) s = .next t ∧ SameMem s t ∧
      (r.who, st, bs) ∈ (t.core c).reply ∧ (∀ q ∈ t.requests, q.id ≠ r.id)) ∧
    (r.sentAt + 4000 * 2250 ≤ s.time → ∃ t, exec (.fabricTimeout r.id) s = .next t ∧ SameMem s t ∧
      (r.who, 3, []) ∈ (t.core c).reply ∧ ∀ q ∈ t.requests, q.id ≠ r.id) ∧
    (s.time < r.sentAt + 4000 * 2250 → exec (.fabricTimeout r.id) s = .next s))

/-- R386, R387, R354: a notice goes to its device once every access before it has been answered; one for this
device enters its token table, one from another that names its sender does too, and any other freezes that
peer. A notice that was refused for room is sent again after 1 µs. A master that the management path unfreezes may act
again; a core, only after its motif has been killed. Where the model's own choices or inferences enter: log
entries 66, 72. -/
def Obligations.NoticesAndUnfreeze : Prop :=
  (∀ (s : State) (c idx m : Nat) (tok : W64) (dev order : Nat) (ids : List Nat),
    (s.core c).notices[idx]? = some (tok, dev, order, ids) → (s.core c).motif = some m → dev = s.dev →
    (∀ r ∈ s.requests, r.who ≠ .notice c m tok order) →
    (clearOf (s.core c) ids = true → s.tokens.length < 1024 → exec (.handleNotice c idx) s = .next
      { s.modCore c (fun k => { k with notices := k.notices.eraseIdx idx }) with tokens := s.tokens ++ [tok] }) ∧
    (clearOf (s.core c) ids = true → 1024 ≤ s.tokens.length → exec (.handleNotice c idx) s = .next
      { s.modCore c (fun k => { k with notices := k.notices.eraseIdx idx }) with
        resend := s.resend ++ [(c, m, tok, order, dev, s.time)] }) ∧
    (clearOf (s.core c) ids = false → exec (.handleNotice c idx) s = .next s)) ∧
  (∀ (s : State) (peer : Nat) (tok : W64), peer ≠ s.dev → s.fabUp = true → peer ∉ s.frozenPeers →
    (gf tok 54 10 = peer → s.tokens.length < 1024 →
      exec (.handleNoticeArrival peer tok) s = .next { s with tokens := s.tokens ++ [tok] }) ∧
    (gf tok 54 10 = peer → 1024 ≤ s.tokens.length → exec (.handleNoticeArrival peer tok) s = .next s) ∧
    (gf tok 54 10 ≠ peer → ∃ t, exec (.handleNoticeArrival peer tok) s = .next t ∧ peer ∈ t.frozenPeers ∧
      t.tokens = s.tokens ∧ SameMem s t)) ∧
  (∀ (s : State) (idx c m dev order tm : Nat) (tok : W64), s.resend[idx]? = some (c, m, tok, order, dev, tm) →
    dev = s.dev → (∀ r ∈ s.requests, r.who ≠ .notice c m tok order) → s.tokens.length < 1024 →
    (tm + 2250 ≤ s.time →
      exec (.noticeResend idx) s = .next { s with resend := s.resend.eraseIdx idx, tokens := s.tokens ++ [tok] }) ∧
    (s.time < tm + 2250 → exec (.noticeResend idx) s = .next s)) ∧
  (∀ (s : State) (n : Nat),
    exec (.unfreeze 2 n) s = .next { s with frozenFns := s.frozenFns.filter (· != n) } ∧
    exec (.unfreeze 3 n) s = .next { s with frozenPeers := s.frozenPeers.filter (· != n) } ∧
    ((s.core n).frozen = true → ∃ t, exec (.unfreeze 0 n) s = .next t ∧ (t.core n).frozen = false ∧
      ∀ m, s.motifOn n = some m → ∃ x ∈ t.motifs, x.id = m.id ∧ x.st = .killed) ∧
    (n % 4 ∈ (s.core (n / 4)).frozenCh → ∃ t, exec (.unfreeze 1 n) s = .next t ∧ n % 4 ∉ (t.core (n / 4)).frozenCh ∧
      ∀ m, s.motifOn (n / 4) = some m → ∃ x ∈ t.motifs, x.id = m.id ∧ x.st = .killed))

/-! ## Memory tiers, power, start, errors, trust and the host -/

/-- R391 to R397, R403, R404: a back-invalidation changes nothing that is read; a CXL port that goes down leaves its
bit of TIERCAP, and running work on it fails. Heat is counted at every 2^SHIFT-th fill, saturating, and only the entry
changes, if the tables lie where they must not as well. The bases are written while counting is off, the queue while
it is empty. A sub-block of a migration and a chunk of a checkpoint are copied byte for byte, the image as HBM is at
its first chunk, and a chunk comes back only under its digest. Where the model's own choices or inferences enter: log
entries 68, 76, 93. -/
def Obligations.TierRules : Prop :=
  (∀ (s : State) (line : Nat), exec (.cxlBackInvalidate line) s = .next s) ∧
  (∀ (s : State) (p st : Nat), p < 2 →
    (s.tiercap.getLsbD p = true → ∃ t, exec (.cxlPortDown p st) s = .next t ∧ t.tiercap = sf s.tiercap p 1 0 ∧
      t.cores = s.cores ∧ (s.moving = [] → SameMem s t)) ∧
    (s.tiercap.getLsbD p = false → exec (.cxlPortDown p st) s = .next s)) ∧
  (∀ (s : State) (die pa a : Nat) (wr : Bool), die < 4 → heatEntry s pa = some a →
    let n := mget noNat s.heatCount (2 * die + bitOf wr)
    let away := heatMisplaced s a (decide (hbmSize ≤ pa))
    (s.heatcfg.getLsbD 8 = true → n % 2 ^ gf s.heatcfg 4 4 = 0 → away = true →
      ∃ t, exec (.heatIncrement die pa wr) s = .next t ∧
        (∀ x, x < a ∨ a + 4 ≤ x → byteAt t.mem x = byteAt s.mem x) ∧
        mget noNat t.heatCount (2 * die + bitOf wr) = n + 1) ∧
    (s.heatcfg.getLsbD 8 = true → n % 2 ^ gf s.heatcfg 4 4 = 0 → away = false →
      ∃ t, exec (.heatIncrement die pa wr) s = .next t ∧ numAt t.mem a 4 = heatUp (numAt s.mem a 4) wr ∧
        (∀ x, x < a ∨ a + 4 ≤ x → byteAt t.mem x = byteAt s.mem x) ∧
        mget noNat t.heatCount (2 * die + bitOf wr) = n + 1) ∧
    (s.heatcfg.getLsbD 8 = true → n % 2 ^ gf s.heatcfg 4 4 ≠ 0 →
      ∃ t, exec (.heatIncrement die pa wr) s = .next t ∧ SameMem s t ∧
        mget noNat t.heatCount (2 * die + bitOf wr) = n + 1) ∧
    (s.heatcfg.getLsbD 8 = false → exec (.heatIncrement die pa wr) s = .next s)) ∧
  (∀ (s : State) (v : W64),
    (s.heatcfg.getLsbD 8 = false →
      exec (.heatTableBaseWrite false v) s = .next { s with heathbm := v &&& 0x000FFFFFFFFF0000#64 } ∧
      exec (.heatTableBaseWrite true v) s = .next { s with heatcxl := v &&& 0x000FFFFFFFFF0000#64 }) ∧
    (s.heatcfg.getLsbD 8 = true → ∀ cxl, exec (.heatTableBaseWrite cxl v) s = .next s) ∧
    (s.migHead = s.migTail → gf v 0 4 < 11 → ∃ t, exec (.migqbWrite v) s = .next t ∧
      t.migqb = v &&& 0x000FFFFFFFFFF00F#64 ∧ t.migHead = t.migTail ∧ t.migHead < 2 ^ (gf v 0 4 + 6) ∧ t.mem = s.mem) ∧
    (s.migHead ≠ s.migTail ∨ 11 ≤ gf v 0 4 → exec (.migqbWrite v) s = .next s) ∧
    (gf v 0 16 < migSize s → exec (.migqpTailWrite v) s = .next { s with migTail := gf v 0 16 }) ∧
    (migSize s ≤ gf v 0 16 → exec (.migqpTailWrite v) s = .next s)) ∧
  (∀ (s : State) (m : Moving) (i : Nat) (rest : List Nat), s.Inv → s.moving.find? (fun x => x.slot == m.slot) = some m →
    m.todo = i :: rest →
    ∃ t, exec (if m.copyOp then .copy m.slot else .move m.slot) s = .next t ∧
      (∀ j, j < 4096 → byteAt t.mem (m.dst + 4096 * i + j) = byteAt s.mem (m.src + 4096 * i + j)) ∧
      (∀ a, a < m.dst + 4096 * i ∨ m.dst + 4096 * i + 4096 ≤ a → byteAt t.mem a = byteAt s.mem a) ∧
      t.cores = s.cores) ∧
  (∀ (s : State), s.Inv → ckptRunning s = true → ckptSpace s = none → ckptDone s < chunks →
    let i := ckptDone s
    let n := chunkLen i
    let img := ckptDst s + 65536 + i * chunkSize
    (gf s.ckptRun 61 2 = 1 → quiet s = true → i = 0 → ∃ t, exec .checkpointSave s = .next t ∧ ckptDone t = 1 ∧
      (∀ j, j < hbmSize → byteAt t.mem (img + j) = byteAt s.mem j) ∧
      (∀ a, a < img ∨ img + hbmSize ≤ a → byteAt t.mem a = byteAt s.mem a)) ∧
    (gf s.ckptRun 61 2 = 1 → quiet s = true → 0 < i → ∃ t, exec .checkpointSave s = .next t ∧ ckptDone t = i + 1 ∧
      SameMem s t) ∧
    (gf s.ckptRun 61 2 = 1 → quiet s = false → exec .checkpointSave s = .next s) ∧
    (gf s.ckptRun 61 2 = 2 → numAt s.mem (ckptDst s) 8 = ckptMagic → numAt s.mem (ckptDst s + 0x10) 8 = hbmSize →
      bytesAt s.mem (ckptDst s + 0x40 + 48 * i) 48 = digest (bytesAt s.mem img n) →
      ∃ t, exec .checkpointRestore s = .next t ∧ ckptDone t = i + 1 ∧
        (∀ j, j < n → byteAt t.mem (i * chunkSize + j) = byteAt s.mem (img + j)) ∧
        (∀ a, a < i * chunkSize ∨ i * chunkSize + n ≤ a → byteAt t.mem a = byteAt s.mem a)))

/-- R246, R429 to R431: at the first cycle of a window a core takes the PLIM that was written, and its credit
is the limit's share of the window with what it still owes; a core without credit spends a freeze cycle, which
FRZCNT and its island's ISLFRZ count and which is a cycle of the whole device, and any other cycle pays for
what arose in it. The management path sets the limit of every core of an island and its frequency, and both
show in the island's word. R421, R426 to R428, R20: a start whose stages all pass leaves a device that accepts
launches with every die, its memory as it was and nothing placed; one after three failures, or forced, is
minimal, on one die. Firmware whose signature does not verify, or whose SECVER is below the fuse counter, fails
its stage. The test carrier (FORM 2) always presents one die and minimal mode, and a start that
fails keeps what the part presents (R19). A stage that fails is shown in BOOTWHY, counted, and leaves the
device stopped; so is one that runs past its limit. The management path clears the count and forces the next
start to be minimal. Where the model's own choices or inferences enter: log entries 8, 69, 70, 87. -/
def Obligations.PowerAndStart : Prop :=
  ((∀ (s : State) (c : Nat),
     let k := s.core c
     let w := k.plimNext.getD (k.cfgAt rPLIM)
     let win := 64 * 2 ^ gf w 16 2
     (k.refilled = false → k.cycles % winCycles k = 0 → ∃ t, exec (.plimWindow c) s = .next t ∧ SameMem s t ∧
       (t.core c).cfgAt rPLIM = w ∧ (t.core c).plimNext = none ∧
       (t.core c).credit = ((gf w 0 16 * win / 16 : Nat) : Int) + min k.credit 0 ∧ (∀ o, o ≠ c → t.core o = s.core o)) ∧
     (k.refilled = true ∨ k.cycles % winCycles k ≠ 0 → ∃ t, exec (.plimWindow c) s = .next t ∧ SameMem s t ∧
       ∀ o, t.core o = s.core o) ∧
     let r := refill k
     let frozen := gf (r.cfgAt rPLIM) 0 16 ≠ 0 ∧ r.credit ≤ 0
     (frozen → exec (.freezeCycle c) s = .next (tickOnce s)) ∧ (¬ frozen → exec (.freezeCycle c) s = .next s) ∧
     ((∀ o g, ((s.core o).gangAt g).st ≠ .running) → tickOnce s = (s.cores.map (·.1)).foldl (fun t o =>
       coreCycle t o (((arrayJobs s).find? (·.1 == o)).map (·.2))) { s with time := s.time + 1 }) ∧
     (∀ job, let t := coreCycle s c job
       SameMem s t ∧ (∀ o, o ≠ c → t.core o = s.core o) ∧ (t.core c).cycles = k.cycles + 1 ∧
       (frozen → (k.motif.isSome → (t.core c).cfgAt rFRZCNT = k.cfgAt rFRZCNT + 1) ∧
         mget (fun _ => (0 : W64)) t.islFrz (islandOf c) = mget (fun _ => (0 : W64)) s.islFrz (islandOf c) + 1) ∧
       (¬ frozen → t.islFrz = s.islFrz ∧ (t.core c).cfgAt rFRZCNT = k.cfgAt rFRZCNT ∧
         ((k.cycles + 1) % winCycles r ≠ 0 → (t.core c).credit = r.credit - ((k.weight + (if 0 < k.vcyc then 6 else 0) +
           3 * (k.gang.filter (fun e => e.2.st == .running)).length + (job.map mmaWeight).getD 0 : Nat) : Int))))) ∧
   (∀ (s : State) (n : Nat) (win : BitVec 2) (limit mhz : BitVec 16), n < 24 →
     let w := islWord s n
     (∃ t, exec (.setPlim n win limit) s = .next t ∧ SameMem s t ∧
       (∀ c, c < 256 → islandOf c = n → (t.core c).plimNext = some (w64 (win.toNat * 65536 + limit.toNat))) ∧
       (∀ c, islandOf c ≠ n ∨ 256 ≤ c → t.core c = s.core c) ∧
       islWord t n = if gf w 62 2 = 0 then w else sf w 62 2 (if limit = 0 then 1 else 2)) ∧
     (∃ t, exec (.setFrequency n mhz) s = .next t ∧ SameMem s t ∧ t.cores = s.cores ∧
       islWord t n = sf w 16 16 mhz.toNat ∧ ∀ o, o ≠ n → islWord t o = islWord s o))) ∧
  ((∀ (s : State) (form step failDie : Nat) (cxl0 cxl1 : CxlPart) (stages : List Nat) (images : List Firmware),
     let loaded := ((List.range stages.length).flatMap stageClasses).map (fun c => digest (images.getD c default).bytes)
     let t := runStart s form step (bootReasons s (s.forced || s.failed == 3) stages images) loaded failDie cxl0 cxl1
     exec (.start form step ⟨stages, images⟩ failDie cxl0 cxl1) s = .next t ∧
     t.form = (if form < 3 then form else 0) ∧ t.stepping = step % 16 ∧
     (form = 2 → failDie = 0 → t.minimal = true ∧ t.dieMask = 1)) ∧
   (∀ (s : State) (form step : Nat) (loaded : List (List Byte)) (cxl0 cxl1 : CxlPart), form ≠ 2 →
     let run := fun (reasons : List Nat) => runStart s form step reasons loaded 0 cxl0 cxl1
     (s.forced = false → s.failed < 3 →
       let t := run (List.replicate 7 0)
       t.started = true ∧ t.stage = 7 ∧
         t.minimal = false ∧ t.dieMask = 0xF ∧ t.failed = 0 ∧ t.mem = s.mem ∧ t.cores = [] ∧ t.motifs = [] ∧
         t.launches = [] ∧ t.contexts = [] ∧ t.fabUp = false ∧ t.tiercap = tierWord cxl0 cxl1 ∧ t.stages = loaded) ∧
     (s.forced = true ∨ s.failed = 3 →
       let t := run (List.replicate 6 0)
       t.started = true ∧
         t.minimal = true ∧ t.dieMask = 1 ∧ t.failed = s.failed ∧ t.tiercap = 0 ∧ t.bootwhy.getLsbD 0 = true ∧
         t.forced = false ∧ t.mem = s.mem) ∧
     (∀ reasons n r, s.forced = false → s.failed < 3 → firstFail false reasons = some (n, r) → n < 16 → r < 256 →
       let t := run reasons
       t.started = false ∧ t.failed = s.failed + 1 ∧
         gf t.bootwhy 32 4 = n ∧ gf t.bootwhy 16 8 = r ∧ t.bootwhy.getLsbD 0 = false ∧ t.mem = s.mem)) ∧
   (∀ (s : State) (images : List Firmware) (cls : Nat),
     let f := images.getD cls default
     let ok := verifyMsg Config.romKey f.bytes f.sig
     fwReason s images cls = (if ok = false then 1 else if Config.imageSecver f.bytes < fuse s cls then 2 else 0) ∧
     (fwReason s images 0 ≠ 0 → ∃ rest,
       bootReasons s false (List.replicate 7 0) images = 0 :: fwReason s images 0 :: rest)) ∧
   (∀ (s : State) (n : Nat), s.started = false → s.starts ≠ 0 → s.stage = n → n < 7 → s.bootwhy.getLsbD 0 = false →
     (s.time < 1000 * stageLimit n * 2250 → exec (.stageTimeout n) s = .next s) ∧
     (1000 * stageLimit n * 2250 ≤ s.time → ∃ t, exec (.stageTimeout n) s = .next t ∧ t.started = false ∧
       t.failed = (if s.failed < 3 then s.failed + 1 else 3) ∧ gf t.bootwhy 16 8 = 6 ∧ gf t.bootwhy 32 4 = n ∧
       t.form = s.form ∧ t.stepping = s.stepping)) ∧
   (∀ s : State, exec .clearFailedStarts s = .next { s with failed := 0 } ∧
     exec .minimalModeForce s = .next { s with forced := true }))

/-- R350, R351, R401, R402: an error of a block reports itself and starts its self-test; an uncorrected one
poisons the 64-byte granule that holds it, and the test is of the block that holds it: the core, for its tile
store. A test that finds a lasting fault retires the block: a core, or the cores of a cluster, where the bank has no
spare, a row while its store has room, a lane; a test that finds none reports that. R421, R424, R425, R402: a fuse
counter only rises; a slot takes its key; entries of the retirement store are taken out, and the store is signed
anew. The security engine answers an attestation of a 48-byte nonce with its quote, signed with the attestation key
that the identity key certifies, and gives its certificate chain, a translation's
signature or a verdict; nothing else of the device changes. Where the model's own choices or inferences
enter: log entries 8, 73, 74. -/
def Obligations.ErrorsAndTrust : Prop :=
  ((∀ (s : State) (b ty : Nat), ∃ t, exec (.correctedError b ty) s = .next t ∧ t = startTest (putEvent s 1 b ty) b ty ∧
     t.tests = s.tests ++ [(b, ty, s.time)] ∧ SameMem s t ∧ t.poison = s.poison ∧ t.cores = s.cores) ∧
   (∀ (s : State) (u a ty : Nat),
     (∃ t, exec (.uncorrectedError 0 u a ty) s = .next t ∧ SameMem s t ∧ t.cores = s.cores ∧
       (∀ g, g ∈ t.poison ↔ g = a / 64 ∨ g ∈ s.poison) ∧ t.tests = s.tests ++ [(a / 64 * 64, ty, s.time)]) ∧
     (∃ t, exec (.uncorrectedError 1 u a ty) s = .next t ∧ SameMem s t ∧ t.poison = s.poison ∧
       (∀ g, g ∈ (t.core u).tsPoison ↔ g = a / 64 ∨ g ∈ (s.core u).tsPoison) ∧ (∀ o, o ≠ u → t.core o = s.core o) ∧
       t.tests = s.tests ++ [(u, ty, s.time)]) ∧
     (∃ t, exec (.uncorrectedError 2 u a ty) s = .next t ∧ SameMem s t ∧ t.poison = s.poison ∧ t.cores = s.cores) ∧
     (∀ sp, 3 ≤ sp → ∃ t, exec (.uncorrectedError sp u a ty) s = .next t ∧ SameMem s t ∧ t.poison = s.poison ∧
       t.cores = s.cores ∧ t.tests = s.tests ++ [(u, ty, s.time)])) ∧
   (∀ (s : State) (b ty d tm : Nat), s.tests.find? (fun t => t.1 == b && t.2.1 == ty) = some (b, ty, tm) →
     (∃ t, exec (.selfTest b ty false d) s = .next t ∧ t = putEvent { s with tests := s.tests.erase (b, ty, tm) } 3 b d) ∧
     (ty = 0 → ∃ t, exec (.selfTest b 0 true d) s = .next t ∧ SameMem s t ∧
       (d ≠ 0 → t.retired = s.retired) ∧
       (d = 0 → b < 256 → ∀ c, c ∈ t.retired ↔ c = b ∨ c ∈ s.retired) ∧
       (d = 0 → 256 ≤ b → b < 320 → ∀ c, c ∈ t.retired ↔ c / 4 = b - 256 ∨ c ∈ s.retired)) ∧
     (ty = 2 →
       let rows := (s.rowStore (stackOf b)).rows
       let s1 := { s with tests := s.tests.erase (b, ty, tm) }
       (s.minimal = false → rows.length < 1024 → ∃ t, exec (.selfTest b 2 true d) s = .next t ∧
         t.rowStore (stackOf b) = signRows (rows ++ [b]) ∧ ∀ o, o ≠ stackOf b → t.rowStore o = s.rowStore o) ∧
       (s.minimal = true → rows.length < 1024 → exec (.selfTest b 2 true d) s = .next (putEvent s1 4 b d)) ∧
       (1024 ≤ rows.length → exec (.selfTest b 2 true d) s = .next (putEvent s1 5 (b / 65536 * 65536) d))) ∧
     (ty = 3 → ∃ t, exec (.selfTest b 3 true d) s = .next t ∧ (t.port b).lanes = (s.port b).lanes - 1))) ∧
  (∀ (s : State),
     (∀ cls n, cls < 20 → n ≤ 128 →
       (mget noNat s.svfuse cls < n → ∃ t, exec (.fuseRaise cls n) s = .next t ∧ t = { s with svfuse := t.svfuse } ∧
         mget noNat t.svfuse cls = n ∧ ∀ o, o ≠ cls → mget noNat t.svfuse o = mget noNat s.svfuse o) ∧
       (n ≤ mget noNat s.svfuse cls → exec (.fuseRaise cls n) s = .next s)) ∧
     (∀ slot key, slot < 16 → ∃ t, exec (.codeSigningKeyInstall slot key) s = .next t ∧ t = { s with keys := t.keys } ∧
       mget (fun _ => []) t.keys slot = key ∧ ∀ o, o ≠ slot → mget (fun _ => []) t.keys o = mget (fun _ => []) s.keys o) ∧
     (∀ st n, st < 12 → ∃ t, exec (.rowRetirementRemove st n) s = .next t ∧ t = { s with rowret := t.rowret } ∧
       t.rowStore st = signRows ((s.rowStore st).rows.drop n) ∧ ∀ o, o ≠ st → t.rowStore o = s.rowStore o) ∧
     (∀ nonce ctx, nonce.length = 48 → ∃ q : Quote, q.nonce = nonce ∧ q.devid = devid s ∧ q.stages = s.stages ∧
       q.fuses = (List.range 20).map (mget noNat s.svfuse) ∧ q.objects = (s.context? ctx).map (·.objects) ∧
       q.signature = signMsg (attestationKey s) (Config.quoteForm nonce (devid s) s.stages q.fuses q.objects) ∧
       q.key = publicKey (attestationKey s) ∧ q.cert = signMsg Config.identityKey q.key ∧
       exec (.attestation nonce ctx) s = .next { s with mailbox := s.mailbox ++ [.quote q] }) ∧
     exec .certificateChainRead s = .next { s with mailbox := s.mailbox ++ [.chain Config.certificateChain] } ∧
     (∀ body sig,
       exec (.translationSignature false body sig) s =
         .next { s with mailbox := s.mailbox ++ [.signature (signMsg translationKey body)] } ∧
       exec (.translationSignature true body sig) s =
         .next { s with mailbox := s.mailbox ++ [.verdict (verifyMsg (publicKey translationKey) body sig)] }))

/-- R433 to R436: a command that heads its function's doorbell order runs once: its STATUS reads DONE, or its
error; vector 0 is raised, and the next may run. CTX_CREATE makes a context of its arguments with an empty
fault ring and the pricking table of its images, an entry that BIND would refuse as unbound (R140). CTX_DESTROY ends
every launch of its context and takes it away, once no access of it is still to be answered. QUEUE_CREATE makes an
empty queue, QUEUE_DESTROY ends one. INVALIDATE leaves no core a translation that it names, nor a core of the context
the code that it held (R219), and is done once every access that used one has landed. Where the model's own choices or
inferences enter: log entry 71. -/
def Obligations.HostCommands : Prop :=
  ∀ (s : State) (fn block : Nat), fn ≤ 16 → s.hcmd.find? (fun e => e.1 == fn) = some (fn, block) →
    let op := blockWord s block 0
    let a := arg s block
    let ends := fun (i : Instr) (status : Nat) (more : State → Prop) => ∃ t, exec i s = .next t ∧
      numAt t.hostMem (block + 0x38) 8 = status ∧ t.hcmd = s.hcmd.erase (fn, block) ∧ t.msix = s.msix ++ [(fn, 0)] ∧ more t
    let done := 2 * 2 ^ 62
    let failed := fun (code : Nat) => 3 * 2 ^ 62 + code
    let same := fun (t : State) => t.cores = s.cores ∧ SameMem s t ∧ t.contexts = s.contexts ∧ t.queues = s.queues
    (op = 1 → onlyBits (a 0) 0x3FFFF = true → onlyBits (a 1) 0xFFFFFFFFF0000 = true → a 2 < 2 ^ 52 →
      onlyBits (a 3) 0xFFFFFFFFFFFCF = true → a 3 % 16 ≤ 12 → onlyBits (a 4) 0xFFFFFFFFFF000 = true →
      onlyBits (a 5) 0xFFFFFFFFFF000 = true → a 0 % 65536 ≠ 0 →
      let n := a 0 % 65536
      let ring := a 3 / 64 * 64
      ((∃ x ∈ s.contexts, x.num = n) → ends (.ctxCreate fn block) (failed 2) same) ∧
      ((∀ x ∈ s.contexts, x.num ≠ n) → a 2 % (3 * 2 ^ 20) = 0 → placeOk s n (a 2) frameArray = true →
        placeOk s n (a 1) 65536 = true → placeOk s n ring (64 + 8 * 2 ^ (a 3 % 16 + 4)) = true →
        placeOk s n (a 4) 4096 = true → placeOk s n (a 5) 8192 = true →
        (s.contexts.length < 1024 → ends (.ctxCreate fn block) done (fun t =>
          numAt t.mem ring 8 = 0 ∧ (∀ x, x < ring ∨ ring + 8 ≤ x → byteAt t.mem x = byteAt s.mem x) ∧
          ∃ x, t.contexts = s.contexts ++ [x] ∧ x.num = n ∧ x.fn = fn ∧ x.root = a 1 ∧ x.frames = a 2 ∧ x.fring = ring ∧
            x.objtab = a 5 ∧ x.framesUsed = [] ∧ x.prod = 0 ∧
            ∀ o, o < 128 → mget prickReset x.table o = checkedEntry true o (prickWords s (a 4) o))) ∧
        (1024 ≤ s.contexts.length → ends (.ctxCreate fn block) (failed 5) same))) ∧
    (op = 2 → a 0 < 65536 → (∀ i, i < 5 → a (i + 1) = 0) →
      ((∀ x ∈ s.contexts, ¬ (x.num = a 0 ∧ x.fn = fn)) → ends (.ctxDestroy fn block) (failed 3) same) ∧
      (∀ x, s.contexts.find? (fun x => x.num == a 0 && x.fn == fn) = some x →
        let s1 := quell (s.setContext { x with dying := true }) (a 0) fn
        (ctxBusy s1 (a 0) = true → exec (.ctxDestroy fn block) s = .next s1) ∧
        (ctxBusy s1 (a 0) = false →
          ∃ t, exec (.ctxDestroy fn block) s = .next t ∧ numAt t.hostMem (block + 0x38) 8 = done ∧
            (∀ x ∈ t.contexts, x.num ≠ a 0) ∧ ∀ c, ∀ e ∈ (t.core c).trans, e.ctx ≠ a 0))) ∧
    (op = 3 → onlyBits (a 0) 0xF3F = true → a 0 % 64 ≠ 63 → a 0 / 256 % 16 ≤ 12 → onlyBits (a 1) 0xFFFFFFFFFF000 = true →
      (∀ i, i < 4 → a (i + 2) = 0) →
      let q := a 0 % 64
      let n := a 0 / 256 % 16
      ((∃ x ∈ s.queues, x.q = q ∧ x.alive = true) → ends (.queueCreate fn block) (failed 2) same) ∧
      ((∀ x ∈ s.queues, ¬ (x.q = q ∧ x.alive = true)) →
        (placeOk s 65536 (a 1) (128 * 2 ^ (n + 4)) = true → ends (.queueCreate fn block) done (fun t =>
          t.cores = s.cores ∧ SameMem s t ∧ t.queues.find? (fun x => x.q == q && x.alive) =
            some { q := q, fn := fn, base := a 1, n := n, head := 0, tail := 0, seq := 0, alive := true })) ∧
        (placeOk s 65536 (a 1) (128 * 2 ^ (n + 4)) = false → ends (.queueCreate fn block) (failed 4) same))) ∧
    (op = 4 → a 0 < 64 → (∀ i, i < 5 → a (i + 1) = 0) →
      ((∃ x ∈ s.queues, x.q = a 0 ∧ x.alive = true ∧ x.fn = fn) → ends (.queueDestroy fn block) done (fun t =>
        t.cores = s.cores ∧ SameMem s t ∧ ∀ x ∈ t.queues, ¬ (x.q = a 0 ∧ x.alive = true))) ∧
      ((∀ x ∈ s.queues, ¬ (x.q = a 0 ∧ x.alive = true ∧ x.fn = fn)) → ends (.queueDestroy fn block) (failed 3) same)) ∧
    (op = 5 → a 0 / 65536 < 3 → a 1 < 2 ^ 57 → (a 0 / 65536 = 1 ∨ a 2 = 0) → (a 0 / 65536 ≠ 2 ∨ a 1 = 0) →
      (∀ i, i < 3 → a (i + 3) = 0) →
      let f := named (a 0 % 65536) (a 0 / 65536) (a 1) (a 2)
      let now : Inval :=
        { fn := fn, block := block, req := s.nextReq, stores := s.cores.map (fun e => (e.1, e.2.nextId)) }
      let busy := invalBusy s (a 0 % 65536) (a 0 / 65536) (a 1) (a 2) now
      let dropped := fun (t : State) => SameMem s t ∧ ∀ c, (t.core c).trans = (s.core c).trans.filter (fun x => !f x) ∧
        ((s.core c).ctx = a 0 % 65536 → (t.core c).bcache = [] ∧ (t.core c).lcache = [])
      ((∃ x ∈ s.contexts, x.num = a 0 % 65536 ∧ x.fn = fn) → (∀ y ∈ s.invals, ¬ (y.fn = fn ∧ y.block = block)) →
        (busy = false → ends (.invalidate fn block) done dropped) ∧
        (busy = true → ∃ t, exec (.invalidate fn block) s = .next t ∧ dropped t ∧ t.hcmd = s.hcmd ∧ now ∈ t.invals)) ∧
      ((∀ x ∈ s.contexts, ¬ (x.num = a 0 % 65536 ∧ x.fn = fn)) → ends (.invalidate fn block) (failed 3) same)) ∧
    (op % 256 = 0 ∨ 5 < op % 256 → ∀ i ∈ [Instr.ctxCreate fn block, .ctxDestroy fn block, .queueCreate fn block,
      .queueDestroy fn block, .invalidate fn block], ends i (failed 1) same)

/-- R432, R334, R335, R433, R435, R439: the doorbells of the host. Functions are numbered up to 16 (R16). QTAIL moves
the tail of the function's own queue; one of another function's is a violation. RESUME, RESUME AND STEP OVER and KILL
act on a FAULTED motif whose frame asks for them, and clear what it asks. A HALT of a running motif traps HALTREQ at
its next bundle. A write of HCMD queues a command block, and what only the host may read is not written. A replay
submits the next captured launch of the area, once its inputs are back in their places. Where the model's own choices
or inferences enter: log entries 37, 71. -/
def Obligations.HostDoorbells : Prop :=
  (∀ (s : State) (fn q : Nat) (v : W64) (x : HostQueue), s.queues.find? (fun x => x.q == q && x.alive) = some x →
    fn ≤ 16 → fn ∉ s.frozenFns →
    (x.fn = fn → gf v 0 16 < 2 ^ (x.n + 4) → ∃ t, exec (.qtailWrite fn q v) s = .next t ∧ t = { s with queues := t.queues } ∧
      t.queues.find? (fun x => x.q == q && x.alive) = some { x with tail := gf v 0 16 }) ∧
    (x.fn = fn → 2 ^ (x.n + 4) ≤ gf v 0 16 → exec (.qtailWrite fn q v) s = .next s) ∧
    (x.fn ≠ fn → ∃ t, exec (.qtailWrite fn q v) s = .next t ∧ fn ∈ t.frozenFns ∧ t.queues = s.queues ∧ SameMem s t)) ∧
  (∀ (s : State) (fn : Nat) (v : W64) (x : Context) (m : Motif) (own : Core), fn ≤ 16 → fn ∉ s.frozenFns →
    s.contexts.find? (fun x => x.num == gf v 48 16 && x.fn == fn) = some x → x.held = [] →
    doorMotif (appendEntries s x []) fn v = some (x, m) → s.motif? m.id = some m → m.st = .faulted → m.saved = some own →
    let ad := x.frames + gf v 0 8 * (3 * 2 ^ 20) + 0x40
    let act := numAt s.mem ad 8 / 2 ^ 62
    (act = 1 → ∃ t, exec (.resume fn v) s = .next t ∧ numAt t.mem ad 8 = numAt s.mem ad 8 % 2 ^ 62 ∧
      (∃ y ∈ t.motifs, y.id = m.id ∧ y.st = .swapped ∧ y.fault = none ∧ y.saved = some own) ∧ t.cores = s.cores) ∧
    (act = 2 → ∀ r, m.fault = some r → r.trap.cause = .brk → r.trap.byLane = false →
      ∃ t, exec (.resumeAndStepOver fn v) s = .next t ∧ numAt t.mem ad 8 = numAt s.mem ad 8 % 2 ^ 62 ∧
        (∃ y ∈ t.motifs, y.id = m.id ∧ y.st = .swapped ∧ y.fault = none ∧ y.saved = some { own with stepOver := true })) ∧
    (act = 2 → ∀ r, m.fault = some r → r.trap.cause = .brk → r.trap.byLane = true →
      let x := own.gangAt r.trap.gang
      ∃ t, exec (.resumeAndStepOver fn v) s = .next t ∧ ∃ y ∈ t.motifs, y.id = m.id ∧ y.st = .swapped ∧ ∃ k,
        y.saved = some k ∧ ∀ l, l ∈ (k.gangAt r.trap.gang).stepOver ↔
          l < 32 ∧ (x.fibre l).st ≠ .ended ∧ (x.fibre l).pc = r.trap.fpc) ∧
    (act = 3 → ∃ t, exec (.kill fn v) s = .next t ∧ ∃ y ∈ t.motifs, y.id = m.id ∧ y.st = .killed) ∧
    (act ≠ 1 → exec (.resume fn v) s = .next (appendEntries s x []))) ∧
  (∀ (s : State) (fn c : Nat) (v : W64) (x : Context) (m : Motif), fn ≤ 16 → fn ∉ s.frozenFns → doorMotif s fn v = some (x, m) →
    m.core = some c →
    (m.st = .running → exec (.haltDoorbell fn v) s = .next (raiseTrap s c
      { cause := .haltreq, slot := 0, baddr := (s.core c).bpc })) ∧
    (m.st ≠ .running → m.st ≠ .halting → (s.core c).halt = none → exec (.haltDoorbell fn v) s = .next s)) ∧
  (∀ (s : State) (fn off : Nat) (v : W64), 16 < fn → exec (.hostRegisterWrite fn off v) s = .next s) ∧
  (∀ (s : State) (fn : Nat) (v : W64), fn ≤ 16 → fn ∉ s.frozenFns → s.started = true →
    let waiting := (s.hcmd.filter (fun e => e.1 == fn)).length
    let more := mput noNat s.hcmdDropped fn ((mget noNat s.hcmdDropped fn + 1) % 65536)
    (waiting < 64 → exec (.hostRegisterWrite fn 0x300 v) s = .next { s with hcmd := s.hcmd ++ [(fn, v.toNat / 64 * 64)] }) ∧
    (64 ≤ waiting → exec (.hostRegisterWrite fn 0x300 v) s = .next { s with hcmdDropped := more }) ∧
    exec (.hostRegisterWrite fn 0x110 v) s = exec (.haltDoorbell fn v) s ∧
    (∀ q, q < 64 → exec (.hostRegisterWrite fn (0x50000 + 8 * q) v) s = exec (.qtailWrite fn q v) s) ∧
    (∀ off ∈ [0x000, 0x200, 0x308, 0x10000, 0x10040, 0x10108, 0x20000, 0x30000, 0x40008, 0x40110, 0x50200],
      fn = 0 → exec (.hostRegisterWrite fn off v) s = .next s) ∧
    (∀ off ∈ [0x10008, 0x10020, 0x10028, 0x10100, 0x40000, 0x40100], fn ≠ 0 →
      ∃ t, exec (.hostRegisterWrite fn off v) s = .next t ∧ fn ∈ t.frozenFns ∧ SameMem s t)) ∧
  (∀ (s s1 : State) (x : HostQueue) (off : Nat) (old : W64) (here : Bool), replaying s = true →
    (capRecords s)[s.replayPos]? = some (off, old) → s.queues.find? (fun x => x.q == capQueue s && x.alive) = some x →
    let ad := capBase s + off
    let r := wordsOf (physRead s ad 128)
    let lines := (capParts s r).flatMap (fun y => linesOf y.1 y.2)
    putBack (gf (r.getD 4 0) 0 16) s.nextLaunch (2 ^ 22) (spread lines (physRead s (ad + 128) ((lines.map (·.2)).sum))) s =
      (here, s1) →
    (here = false → exec .replay s = .next s1) ∧
    (here = true → ∃ t l, exec .replay s = .next t ∧ t.replayPos = s.replayPos + 1 ∧ l ∈ t.launches ∧
      l.id = s.nextLaunch ∧ l.replayOf = old ∧ l.queue = x.q ∧ l.recd = r ∧
      ∃ y ∈ t.queues, y.q = x.q ∧ y.seq = x.seq + 1)) ∧
  (∀ s : State, replaying s = false → exec .replay s = .next s)

/-! ## The encoding, the step, traps and the state -/

/-- R56 to R63, R72, R104, R142, R150, R161, R185, R232, R260: decoding the word of a well-formed instruction
gives the instruction back, with every operand at every value that its field admits. -/
def Obligations.DecodeEncode : Prop :=
  ∀ (i : Instr) (w : CodeWord), i.WellFormed → encode i = some w → decode w = .ok i

/-- Words written out from the encodings of the spec decode to what they stand for: a null bundle with SELV
(R56), SOP and SMOVI (R72), VOP2 (R104), MMA (R232), KCOPY (R260), XPOSE (R142) and IOP (R150); a QSEL
without SPE (R59) and a header of all five slots (R63) do not. -/
def Obligations.DecodeWords : Prop :=
  decode (.header 0x8000#16) = .ok (.nullBundle true) ∧
  decode (.header 0x7C00#16) = .error .badHeader ∧
  decode (.c 0x00650901#32) = .error .illegalFields ∧
  decode (.c 0x00650981#32) = .ok (.sop ⟨true, 1⟩ .add 1 5 3) ∧
  decode (.c 0x08641801#32) = .ok (.sop ⟨false, 0⟩ .mul 3 4 3) ∧
  decode (.c 0xFFFB2803#32) = .ok (.smovi ⟨false, 0⟩ 5 0xFFFB) ∧
  decode (.v 0x0001000006081820#64) = .ok (.vop2 ⟨false, 0⟩ .add false true .rne .fp32 3 2 3) ∧
  decode (.m 0x007D87F040C1083C#64) = .ok (.mma ⟨false, 0⟩ 31
    { nm1 := 48, mm1 := 127, slb := 1, sla := 0, tb := true, ta := true, fmt := .bf16, cmp := false,
      acc := false, ad := 1 }) ∧
  decode (.k 0x000000000000000006421848#96) = .ok (.kcopy ⟨false, 0⟩
    { sdesc := 0, ddesc := 0, stsc := .core, se := 0, cmpl := .none, adv := false, ch := 0, oh := 0,
      src := .gm, dst := .ts, sn := 18, ss := 2, sd := 3 }) ∧
  decode (.s 0x0000000100001860#64) = .ok (.xpose ⟨false, 0⟩ ⟨3, 0, 1, 0⟩) ∧
  decode (.lane 0x0000100004030510#64) = .ok (.iop ⟨false, 0⟩ .sub 5 3 4)

/-- R47, R57, R63, R66, R138, R142, R151: where the bytes at BPC are a bundle of one slot that decodes, a step runs
that instruction, once the lines of the bundle are in the core's bundle cache; a V, M or K word of an opcode that is
not bound to its engine runs as a dispatch. Where the bytes at a batch's place are a lane word that decodes, a step of
its gang runs it, or, where it asks for the special-function or the load/store unit, the step runs that of the gang
that gets the unit: one of the highest class, round-robin among equals (R139). A listed event is run as it is (log
entry 2). Before a move, stores that a fence holds land where the mover may not find them in their buffers (R252), and
after it a wait re-reads its word (R86); where no store stands behind a fence and nothing waits for a word, there is
neither. Where the model's own choices or inferences enter: log entries 80, 83, 88, 90. -/
def Obligations.StepRunsDecoded : Prop :=
  (∀ (s0 : State) (c : Nat) (w : CodeWord) (i : Instr), s0.turns = [] →
    let s := before s0
    CanIssue s c → (s.core c).bpc % 2 = 0 →
    let k := s.core c
    let bs := soloBytes w
    fetchBytes s c k.bpc 2 (fetchTrap k.bpc) = .bytes (bs.take 2) →
    fetchBytes s c k.bpc bs.length (fetchTrap k.bpc) = .bytes bs →
    (∀ x, semOf i = some x → x.legal k = true) →
    let bound := fun (opc : Nat) => (k.prickAt opc).kind = 1
    let runs := step s0 = watched s0 (exec i (cacheFetch s c k.bpc bs.length))
    ((∃ h, w = .header h) ∨ (∃ u, w = .c u) ∨ (∃ u, w = .s u) ∨ (∃ u, w = .v u ∧ bound (opcOf u)) ∨
        (∃ u, w = .m u ∧ bound (opcOf u)) ∨ (∃ u, w = .k u ∧ bound (opcOf u)) → decode w = .ok i → runs) ∧
    (∀ u, ¬ bound (opcOf u) → guardOk (guardOf u) = true →
      (w = .v u ∧ opcClass (opcOf u) = .v) ∨ (w = .m u ∧ opcClass (opcOf u) = .m) → i = parseStitch u 0 → runs) ∧
    (∀ u, ¬ bound (opcOf u) → guardOk (guardOf u) = true → w = .k u → opcClass (opcOf u) = .k →
      i = parseStitch (fld u 0 64) (fld u 64 32) → runs)) ∧
  (∀ (s0 : State) (c g : Nat), s0.turns = [] →
    let s := before s0
    s.focus = .gang c g → gangCanIssue s c g = true →
    let here := fun (t : State) (w pc : Nat) (i : Instr) (bs : List Byte) => pickPc ((t.core c).gangAt w) = some pc ∧
      (∀ tr, laneLine t c (pc / 64) tr = .bytes bs) ∧
      decode (.lane (w64 (leNat ((bs.drop (pc % 64)).take 8)))) = .ok i
    (∀ pc i bs, here s g pc i bs → unitWanted s c g = unitOfLane i ∧
      (unitOfLane i = none → step s0 = watched s0 (exec i (keepLaneLine s c pc bs)))) ∧
    (∀ u w, unitWanted s c g = some u → servedGang s c u (lastServed (s.core c) u) = some w →
      let t := { s with focus := .gang c w }.modCore c (setServed u w)
      ∀ pc i bs, here t w pc i bs → step s0 = watched s0 (exec i (keepLaneLine t c pc bs))) ∧
    (∀ u last w, servedGang s c u last = some w →
      let place := fun (h : Nat) => (h + 3 - last % 4) % 4
      let pri := fun (h : Nat) => ((s.core c).gangAt h).gpri
      w < 4 ∧ unitWanted s c w = some u ∧ ∀ h, h < 4 → unitWanted s c h = some u →
        pri h < pri w ∨ (pri h = pri w ∧ place w ≤ place h))) ∧
  (∀ (s : State) (i : Instr) (rest : List Turn), s.turns = .event i :: rest → encode i = none →
    step s = watched s (exec i { before s with turns := rest })) ∧
  (∀ s : State, s.turns.head?.any mayStop = false → (∀ e ∈ s.cores, ∀ b ∈ e.2.buf, b.veil = none) → before s = s) ∧
  (∀ s t : State, (∀ e ∈ t.cores, e.2.waitsOn = none ∧ ∀ g ∈ e.2.gang, ∀ op ∈ g.2.ops, isLwait op.i = false) →
    watched s (.next t) = .next t)

/-- No instruction ends the machine: each leaves a next state in every state, for a violation of a rule is a
trap that is taken (R329), a code that is returned or an event without effect. Where the model's own choices
or inferences enter: log entry 2. -/
def Obligations.EveryInstructionGoesOn : Prop := ∀ (i : Instr) (s : State), ∃ t, exec i s = .next t

/-- R330 to R332, R334, R348, R380: taking a trap. The first of a halt is recorded with its time and MPOS, moves
the motif to HALTING and stops its own agent; nothing else that a program sees changes, but FERR and FERRA
for a trap of the fabric. A later trap sets MULTI, and takes the record's place only where R331 puts it before.
A motif that is being pre-empted keeps the record and
every agent of it stops. In the skid the sequencer issues at most two bundles, a gang at most 24
instructions, but that an entry's adjoint goes on to its end (R318). -/
def Obligations.TrapTaken : Prop :=
  ∀ (s : State) (c : Nat) (t : Trap) (m : Motif), s.motifOn c = some m →
    let k := s.core c
    let u := raiseTrap s c t
    let k' := u.core c
    let r : FaultRec :=
      { trap := { t with fatal := t.fatal || t.cause.fatal }, multi := false, time := s.time, mpos := k.cfgAt rMPOS }
    let fabric := t.cause = .fabric ∨ (t.cause = .memerr ∧ t.status = 16)
    (SameMem s u ∧ k'.ts = k.ts ∧ k'.tiles = k.tiles ∧ k'.s = k.s ∧ k'.bpc = k.bpc ∧
      (∀ n, n ≠ rFERR → n ≠ rFERRA → k'.cfgAt n = k.cfgAt n) ∧ (¬ fabric → k'.cfg = k.cfg) ∧
      (fabric → k'.cfgAt rFERR = sf (sf 0 60 4 t.status) 50 10 t.tdev ∧ k'.cfgAt rFERRA = w64 (va57 t.whole)) ∧
      (∀ g l n, (k'.gangAt g).reg l n = (k.gangAt g).reg l n ∧ (k'.gangAt g).fibre l = (k.gangAt g).fibre l) ∧
      (∀ g, (k'.gangAt g).skid = (k.gangAt g).skid) ∧ (∀ o, o ≠ c → u.core o = s.core o)) ∧
    (k.halt = none → m.st = .running →
      k'.halt = some r ∧ k'.skid = 0 ∧ k'.debug = t.cause.debug ∧
      (∃ x ∈ u.motifs, x.id = m.id ∧ x.st = .halting ∧ x.fault = some r)) ∧
    (k.halt = none → m.st = .preempting →
      k'.halt = some r ∧ k'.seqStopped = true ∧ (∀ e ∈ k'.gang, e.2.stopped = true) ∧
      (∃ x ∈ u.motifs, x.id = m.id ∧ x.st = .preempting ∧ x.fault = some r ∧ x.pendingTrap = true)) ∧
    (∀ r0, k.halt = some r0 → goesFirst s k r0 t = false → k'.halt = some { r0 with multi := true }) ∧
    (∀ r0, k.halt = some r0 → goesFirst s k r0 t = true → k'.halt = some { r0 with trap := r.trap, multi := true }) ∧
    (t.depth = 0 → t.async = false → k'.seqStopped = true) ∧
    (t.depth ≠ 0 → (k'.gangAt t.gang).stopped = true) ∧
    (m.st = .halting → 2 ≤ k.skid → seqLive s c = false) ∧
    (∀ g, m.st = .halting → 24 ≤ (k.gangAt g).skid → adjointRuns k = false → gangCanIssue s c g = false)

/-- R37, R50, R52, R55, R119, R134, R140, R221, R223, R426: what reset leaves, as far as the spec gives it. Log
entry 4: global memory is in its canonical form at reset. Where the model's own choices or inferences enter:
log entries 4, 5. -/
def Obligations.ResetValues : Prop :=
  (let s := State.reset
   s.started = false ∧ s.motifs = [] ∧ s.launches = [] ∧ s.contexts = [] ∧ s.queues = [] ∧ s.tokens = [] ∧
   s.fabUp = false ∧ s.failed = 0 ∧ s.tiercap = 0 ∧ s.poison = [] ∧ (∀ p, (s.port p).up = false) ∧
   (∀ c, (s.core c).cfgAt rSRSTATE = 1 ∧ (s.core c).cfgAt rQPRED = 0xFF ∧ (s.core c).cfgAt rOTH = 0x7F800000 ∧
     (s.core c).cfgAt rFSTAT = 0 ∧ (s.core c).cfgAt rVROT = 0 ∧ (s.core c).cfgAt rMSTAT = 0 ∧
     (∀ t, t < 8 → shapeConf ((s.core c).shape t) = false) ∧ (∀ h, h < 32 → cbValid ((s.core c).cb h) = false) ∧
     (∀ g, ((s.core c).gangAt g).st = .free) ∧ (∀ o, (s.core c).prickAt o = prickReset o) ∧
     (s.core c).halt = none ∧ leaseOf s c = .idle)) ∧
  (State.reset.Inv)

/-- The model's own invariant: every step keeps global memory in its canonical form. Where the model's own
choices or inferences enter: log entry 5. -/
def Obligations.InvariantKept : Prop := ∀ s t : State, s.Inv → step s = .next t → t.Inv
end

