-- ==== Sys2Proof/Laws/Map.lean ====
section
/-! SUPPORT. Sparse maps: what a write leaves to be read, and that writes keep the canonical form. -/
namespace Sys2Proof.Machine

variable {α : Type}

/-! ## Reading after a write -/

@[simp] theorem mget_mset_same (d : Nat → α) (m : Map α) (k : Nat) (v : α) :
    mget d (mset m k v) k = v := by
  induction m with
  | nil => simp [mset, mget]
  | cons e m ih =>
    obtain ⟨j, w⟩ := e
    simp only [mset]
    split
    · simp [mget]
    · split
      · simp [mget]
      · simp [mget, *]

theorem mget_mset_other (d : Nat → α) (m : Map α) {k k' : Nat} (v : α) (h : k' ≠ k) :
    mget d (mset m k v) k' = mget d m k' := by
  induction m with
  | nil => simp [mset, mget, h]
  | cons e m ih =>
    obtain ⟨j, w⟩ := e
    simp only [mset]
    split
    · simp [mget, h]
    · split
      · next hk => subst hk; simp [mget, h]
      · simp only [mget, ih]

@[simp] theorem mget_mdel_same (d : Nat → α) (m : Map α) (k : Nat) : mget d (mdel m k) k = d k := by
  induction m with
  | nil => rfl
  | cons e m ih =>
    obtain ⟨j, w⟩ := e
    simp only [mdel]
    split
    · exact ih
    · next h => simp [mget, ih, Ne.symm h]

theorem mget_mdel_other (d : Nat → α) (m : Map α) {k k' : Nat} (h : k' ≠ k) :
    mget d (mdel m k) k' = mget d m k' := by
  induction m with
  | nil => rfl
  | cons e m ih =>
    obtain ⟨j, w⟩ := e
    simp only [mdel]
    split
    · next hj => subst hj; simp [mget, ih, h]
    · simp only [mget, ih]

@[simp] theorem mget_mput_same [DecidableEq α] (d : Nat → α) (m : Map α) (k : Nat) (v : α) :
    mget d (mput d m k v) k = v := by
  unfold mput
  split
  · simp [*]
  · simp

theorem mget_mput_other [DecidableEq α] (d : Nat → α) (m : Map α) {k k' : Nat} (v : α) (h : k' ≠ k) :
    mget d (mput d m k v) k' = mget d m k' := by
  unfold mput
  split
  · exact mget_mdel_other d m h
  · exact mget_mset_other d m v h

@[simp] theorem mset_mset (m : Map α) (k : Nat) (v w : α) : mset (mset m k v) k w = mset m k w := by
  induction m with
  | nil => simp [mset]
  | cons e m ih =>
    obtain ⟨j, u⟩ := e
    simp only [mset]
    split
    · simp [mset]
    · split
      · simp [mset]
      · simp [mset, *]

/-! ## Bytes -/

theorem byteAt_putBytes_below (m : Map Byte) (a x : Nat) (bs : List Byte) (h : x < a) :
    byteAt (putBytes m a bs) x = byteAt m x := by
  induction bs generalizing m a with
  | nil => rfl
  | cons b bs ih =>
    rw [putBytes, ih _ _ (by omega)]
    exact mget_mput_other _ _ _ (by omega)

/-- A write of bytes leaves every other byte alone. -/
theorem byteAt_putBytes_other (m : Map Byte) (a x : Nat) (bs : List Byte)
    (h : x < a ∨ a + bs.length ≤ x) : byteAt (putBytes m a bs) x = byteAt m x := by
  induction bs generalizing m a with
  | nil => rfl
  | cons b bs ih =>
    have hl : (b :: bs).length = bs.length + 1 := rfl
    rw [putBytes, ih _ _ (by omega)]
    exact mget_mput_other _ _ _ (by omega)

/-- A read after a write of bytes gives the bytes written. -/
theorem byteAt_putBytes_in (m : Map Byte) (a i : Nat) (bs : List Byte) (h : i < bs.length) :
    byteAt (putBytes m a bs) (a + i) = bs[i] := by
  induction bs generalizing m a i with
  | nil => simp at h
  | cons b bs ih =>
    cases i with
    | zero =>
      rw [putBytes, Nat.add_zero, byteAt_putBytes_below _ _ _ _ (by omega)]
      simp [byteAt]
    | succ i =>
      have := ih (mput noByte m a b) (a + 1) i (by simpa using h)
      rw [putBytes, show a + (i + 1) = a + 1 + i by omega, this]
      rfl

/-! ## The canonical form -/

/-- Every key of a map is at least `lo`, strictly rising from there. -/
def risesFrom (lo : Nat) : Map α → Prop
  | [] => True
  | (j, _) :: m => lo ≤ j ∧ risesFrom (j + 1) m

theorem risesFrom_mono {lo lo' : Nat} {m : Map α} (h : lo' ≤ lo) (hm : risesFrom lo m) :
    risesFrom lo' m := by
  cases m with
  | nil => trivial
  | cons e m => exact ⟨Nat.le_trans h hm.1, hm.2⟩

theorem sorted_iff_rises (m : Map α) : sorted m = true ↔ risesFrom 0 m := by
  suffices h : ∀ (m : Map α) lo j w, lo ≤ j →
      (sorted ((j, w) :: m) = true ↔ risesFrom lo ((j, w) :: m)) by
    cases m with
    | nil => simp [sorted, risesFrom]
    | cons e m => exact h m 0 e.1 e.2 (Nat.zero_le _)
  intro m
  induction m with
  | nil => intro lo j w h; simp [sorted, risesFrom, h]
  | cons e m ih =>
    intro lo j w h
    obtain ⟨k, u⟩ := e
    simp only [sorted, Bool.and_eq_true, decide_eq_true_eq]
    constructor
    · rintro ⟨hjk, hs⟩
      exact ⟨h, (ih (j + 1) k u hjk).1 hs⟩
    · rintro ⟨_, hr⟩
      exact ⟨hr.1, (ih (j + 1) k u hr.1).2 hr⟩

theorem risesFrom_mdel {lo k : Nat} {m : Map α} (h : risesFrom lo m) : risesFrom lo (mdel m k) := by
  induction m generalizing lo with
  | nil => trivial
  | cons e m ih =>
    obtain ⟨j, w⟩ := e
    simp only [mdel]
    split
    · exact risesFrom_mono (by have := h.1; omega) (ih h.2)
    · exact ⟨h.1, ih h.2⟩

theorem risesFrom_mset {lo k : Nat} {v : α} {m : Map α} (hk : lo ≤ k) (h : risesFrom lo m) :
    risesFrom lo (mset m k v) := by
  induction m generalizing lo with
  | nil => exact ⟨hk, trivial⟩
  | cons e m ih =>
    obtain ⟨j, w⟩ := e
    simp only [mset]
    split
    · next hj => exact ⟨hk, ⟨hj, h.2⟩⟩
    · split
      · next _ he => subst he; exact ⟨hk, h.2⟩
      · exact ⟨h.1, ih (by omega) h.2⟩

theorem mem_mdel {k : Nat} {m : Map α} {e : Nat × α} (h : e ∈ mdel m k) : e ∈ m := by
  induction m with
  | nil => exact h
  | cons x m ih =>
    obtain ⟨j, w⟩ := x
    simp only [mdel] at h
    split at h
    · exact List.mem_cons_of_mem _ (ih h)
    · rcases List.mem_cons.1 h with h | h
      · exact h ▸ List.mem_cons_self
      · exact List.mem_cons_of_mem _ (ih h)

theorem mem_mset {k : Nat} {v : α} {m : Map α} {e : Nat × α} (h : e ∈ mset m k v) :
    e = (k, v) ∨ e ∈ m := by
  induction m with
  | nil => exact .inl (List.mem_singleton.1 h)
  | cons x m ih =>
    obtain ⟨j, w⟩ := x
    simp only [mset] at h
    split at h
    · rcases List.mem_cons.1 h with h | h
      · exact .inl h
      · exact .inr h
    · split at h
      · rcases List.mem_cons.1 h with h | h
        · exact .inl h
        · exact .inr (List.mem_cons_of_mem _ h)
      · rcases List.mem_cons.1 h with h | h
        · exact .inr (h ▸ List.mem_cons_self)
        · exact (ih h).imp id (List.mem_cons_of_mem _)

/-- A write keeps the canonical form. -/
theorem canon_mput [DecidableEq α] {d : Nat → α} {m : Map α} (k : Nat) (v : α) (h : canon d m = true) :
    canon d (mput d m k v) = true := by
  simp only [canon, Bool.and_eq_true, List.all_eq_true, bne_iff_ne, ne_eq] at h ⊢
  have hr := (sorted_iff_rises m).1 h.1
  unfold mput
  split
  · exact ⟨(sorted_iff_rises _).2 (risesFrom_mdel hr), fun e he => h.2 e (mem_mdel he)⟩
  · next hv =>
    refine ⟨(sorted_iff_rises _).2 (risesFrom_mset (Nat.zero_le _) hr), fun e he => ?_⟩
    rcases mem_mset he with rfl | he
    · exact hv
    · exact h.2 e he

theorem wf_putBytes {m : Map Byte} (a : Nat) (bs : List Byte) (h : Memory.wf m = true) :
    Memory.wf (putBytes m a bs) = true := by
  induction bs generalizing m a with
  | nil => exact h
  | cons b bs ih => exact ih _ (canon_mput a b h)

theorem sorted_filter {m : Map α} (p : Nat × α → Bool) (h : sorted m = true) :
    sorted (m.filter p) = true := by
  rw [sorted_iff_rises] at h ⊢
  suffices ∀ lo, risesFrom lo m → risesFrom lo (m.filter p) from this 0 h
  clear h
  induction m with
  | nil => intros; trivial
  | cons e m ih =>
    intro lo hm
    obtain ⟨j, w⟩ := e
    by_cases hp : p (j, w) = true
    · rw [List.filter_cons_of_pos hp]; exact ⟨hm.1, ih _ hm.2⟩
    · rw [List.filter_cons_of_neg hp]
      exact risesFrom_mono (by have := hm.1; omega) (ih _ hm.2)

/-- Clearing a range keeps the canonical form. -/
theorem wf_mclear {m : Map Byte} (lo n : Nat) (h : Memory.wf m = true) : Memory.wf (mclear m lo n) = true := by
  simp only [Memory.wf, canon, Bool.and_eq_true, List.all_eq_true] at h ⊢
  exact ⟨sorted_filter _ h.1, fun e he => h.2 e ((List.mem_filter.1 he).1)⟩

end Sys2Proof.Machine
end

