-- ==== Sys2Proof/Laws/State.lean ====
section
/-! SUPPORT. The fields of a state, a core and a gang after each named update, and the reading of units
after writing them. -/
namespace Sys2Proof.Machine

/-! ## Units of the device -/

@[simp] theorem State.core_setCore (s : State) (c : Nat) (k : Core) : (s.setCore c k).core c = k :=
  mget_mset_same _ _ _ _
theorem State.core_setCore_other (s : State) {c o : Nat} (k : Core) (h : o ≠ c) :
    (s.setCore c k).core o = s.core o := mget_mset_other _ _ _ h
@[simp] theorem State.setCore_setCore (s : State) (c : Nat) (k k' : Core) :
    (s.setCore c k).setCore c k' = s.setCore c k' := by
  simp [State.setCore]
theorem State.modCore_eq (s : State) (c : Nat) (f : Core → Core) :
    s.modCore c f = s.setCore c (f (s.core c)) := rfl
@[simp] theorem State.core_modCore (s : State) (c : Nat) (f : Core → Core) :
    (s.modCore c f).core c = f (s.core c) := State.core_setCore _ _ _
theorem State.core_modCore_other (s : State) {c o : Nat} (f : Core → Core) (h : o ≠ c) :
    (s.modCore c f).core o = s.core o := State.core_setCore_other _ _ h
@[simp] theorem State.modCore_setCore (s : State) (c : Nat) (k : Core) (f : Core → Core) :
    (s.setCore c k).modCore c f = s.setCore c (f k) := by
  simp [State.modCore]
@[simp] theorem State.setCore_modCore (s : State) (c : Nat) (k : Core) (f : Core → Core) :
    (s.modCore c f).setCore c k = s.setCore c k := by
  simp [State.modCore]
@[simp] theorem State.modCore_modCore (s : State) (c : Nat) (f g : Core → Core) :
    (s.modCore c f).modCore c g = s.modCore c (fun k => g (f k)) := by
  simp [State.modCore]

@[simp] theorem State.cluster_setCluster (s : State) (n : Nat) (x : Cluster) :
    (s.setCluster n x).cluster n = x := mget_mset_same _ _ _ _
theorem State.cluster_setCluster_other (s : State) {n o : Nat} (x : Cluster) (h : o ≠ n) :
    (s.setCluster n x).cluster o = s.cluster o := mget_mset_other _ _ _ h
@[simp] theorem State.setCluster_setCluster (s : State) (n : Nat) (x y : Cluster) :
    (s.setCluster n x).setCluster n y = s.setCluster n y := by
  simp [State.setCluster]
@[simp] theorem State.core_setCluster (s : State) (n o : Nat) (x : Cluster) :
    (s.setCluster n x).core o = s.core o := rfl
@[simp] theorem State.cluster_setCore (s : State) (c n : Nat) (k : Core) :
    (s.setCore c k).cluster n = s.cluster n := rfl
@[simp] theorem State.cluster_modCore (s : State) (c n : Nat) (f : Core → Core) :
    (s.modCore c f).cluster n = s.cluster n := rfl
@[simp] theorem State.core_setMotif (s : State) (m : Motif) (o : Nat) : (s.setMotif m).core o = s.core o := rfl
@[simp] theorem State.core_setLaunch (s : State) (l : Launch) (o : Nat) :
    (s.setLaunch l).core o = s.core o := rfl
@[simp] theorem State.core_setContext (s : State) (x : Context) (o : Nat) :
    (s.setContext x).core o = s.core o := rfl

/-! ## Registers of a core -/

@[simp] theorem Core.cfgAt_setCfg (k : Core) (n : Nat) (v : W64) : (k.setCfg n v).cfgAt n = v :=
  mget_mput_same _ _ _ _
theorem Core.cfgAt_setCfg_other (k : Core) {n m : Nat} (v : W64) (h : m ≠ n) :
    (k.setCfg n v).cfgAt m = k.cfgAt m := mget_mput_other _ _ _ h
@[simp] theorem Core.sAt_setS (k : Core) (r : Nat) (v : W64) : (k.setS r v).sAt r = v :=
  mget_mput_same _ _ _ _
theorem Core.sAt_setS_other (k : Core) {r q : Nat} (v : W64) (h : q ≠ r) :
    (k.setS r v).sAt q = k.sAt q := mget_mput_other _ _ _ h
@[simp] theorem Core.cfgAt_setS (k : Core) (r n : Nat) (v : W64) : (k.setS r v).cfgAt n = k.cfgAt n := rfl
@[simp] theorem Core.sAt_setCfg (k : Core) (r n : Nat) (v : W64) : (k.setCfg n v).sAt r = k.sAt r := rfl
@[simp] theorem Core.gangAt_setGang (k : Core) (g : Nat) (x : Gang) : (k.setGang g x).gangAt g = x :=
  mget_mset_same _ _ _ _
theorem Core.gangAt_setGang_other (k : Core) {g o : Nat} (x : Gang) (h : o ≠ g) :
    (k.setGang g x).gangAt o = k.gangAt o := mget_mset_other _ _ _ h
@[simp] theorem Core.setGang_setGang (k : Core) (g : Nat) (x y : Gang) :
    (k.setGang g x).setGang g y = k.setGang g y := by
  simp [Core.setGang]
@[simp] theorem Core.cfgAt_setGang (k : Core) (g n : Nat) (x : Gang) :
    (k.setGang g x).cfgAt n = k.cfgAt n := rfl
@[simp] theorem Core.gangAt_setCfg (k : Core) (g n : Nat) (v : W64) :
    (k.setCfg n v).gangAt g = k.gangAt g := rfl
@[simp] theorem Core.gangAt_setS (k : Core) (g r : Nat) (v : W64) : (k.setS r v).gangAt g = k.gangAt g := rfl

/-! ## Fibres of a gang -/

@[simp] theorem Gang.fibre_setFibre (x : Gang) (l : Nat) (f : Fibre) : (x.setFibre l f).fibre l = f :=
  mget_mset_same _ _ _ _
theorem Gang.fibre_setFibre_other (x : Gang) {l o : Nat} (f : Fibre) (h : o ≠ l) :
    (x.setFibre l f).fibre o = x.fibre o := mget_mset_other _ _ _ h

/-! ## Fields of the device -/

/-! ### State.setCore -/

@[simp] theorem State.setCore_time (x : State) (c : Nat) (k : Core) : (x.setCore c k).time = x.time := rfl
@[simp] theorem State.setCore_fresh (x : State) (c : Nat) (k : Core) : (x.setCore c k).fresh = x.fresh := rfl
@[simp] theorem State.setCore_turns (x : State) (c : Nat) (k : Core) : (x.setCore c k).turns = x.turns := rfl
@[simp] theorem State.setCore_focus (x : State) (c : Nat) (k : Core) : (x.setCore c k).focus = x.focus := rfl
@[simp] theorem State.setCore_mem (x : State) (c : Nat) (k : Core) : (x.setCore c k).mem = x.mem := rfl
@[simp] theorem State.setCore_poison (x : State) (c : Nat) (k : Core) : (x.setCore c k).poison = x.poison := rfl
@[simp] theorem State.setCore_clusters (x : State) (c : Nat) (k : Core) : (x.setCore c k).clusters = x.clusters := rfl
@[simp] theorem State.setCore_contexts (x : State) (c : Nat) (k : Core) : (x.setCore c k).contexts = x.contexts := rfl
@[simp] theorem State.setCore_motifs (x : State) (c : Nat) (k : Core) : (x.setCore c k).motifs = x.motifs := rfl
@[simp] theorem State.setCore_launches (x : State) (c : Nat) (k : Core) : (x.setCore c k).launches = x.launches := rfl
@[simp] theorem State.setCore_queues (x : State) (c : Nat) (k : Core) : (x.setCore c k).queues = x.queues := rfl
@[simp] theorem State.setCore_devQueue (x : State) (c : Nat) (k : Core) : (x.setCore c k).devQueue = x.devQueue := rfl
@[simp] theorem State.setCore_devSeq (x : State) (c : Nat) (k : Core) : (x.setCore c k).devSeq = x.devSeq := rfl
@[simp] theorem State.setCore_nextLaunch (x : State) (c : Nat) (k : Core) : (x.setCore c k).nextLaunch = x.nextLaunch := rfl
@[simp] theorem State.setCore_nextMotif (x : State) (c : Nat) (k : Core) : (x.setCore c k).nextMotif = x.nextMotif := rfl
@[simp] theorem State.setCore_gens (x : State) (c : Nat) (k : Core) : (x.setCore c k).gens = x.gens := rfl
@[simp] theorem State.setCore_started (x : State) (c : Nat) (k : Core) : (x.setCore c k).started = x.started := rfl
@[simp] theorem State.setCore_starts (x : State) (c : Nat) (k : Core) : (x.setCore c k).starts = x.starts := rfl
@[simp] theorem State.setCore_stage (x : State) (c : Nat) (k : Core) : (x.setCore c k).stage = x.stage := rfl
@[simp] theorem State.setCore_form (x : State) (c : Nat) (k : Core) : (x.setCore c k).form = x.form := rfl
@[simp] theorem State.setCore_dieMask (x : State) (c : Nat) (k : Core) : (x.setCore c k).dieMask = x.dieMask := rfl
@[simp] theorem State.setCore_stepping (x : State) (c : Nat) (k : Core) : (x.setCore c k).stepping = x.stepping := rfl
@[simp] theorem State.setCore_minimal (x : State) (c : Nat) (k : Core) : (x.setCore c k).minimal = x.minimal := rfl
@[simp] theorem State.setCore_forced (x : State) (c : Nat) (k : Core) : (x.setCore c k).forced = x.forced := rfl
@[simp] theorem State.setCore_failed (x : State) (c : Nat) (k : Core) : (x.setCore c k).failed = x.failed := rfl
@[simp] theorem State.setCore_bootwhy (x : State) (c : Nat) (k : Core) : (x.setCore c k).bootwhy = x.bootwhy := rfl
@[simp] theorem State.setCore_mailbox (x : State) (c : Nat) (k : Core) : (x.setCore c k).mailbox = x.mailbox := rfl
@[simp] theorem State.setCore_dev (x : State) (c : Nat) (k : Core) : (x.setCore c k).dev = x.dev := rfl
@[simp] theorem State.setCore_gszm1 (x : State) (c : Nat) (k : Core) : (x.setCore c k).gszm1 = x.gszm1 := rfl
@[simp] theorem State.setCore_fabUp (x : State) (c : Nat) (k : Core) : (x.setCore c k).fabUp = x.fabUp := rfl
@[simp] theorem State.setCore_routes (x : State) (c : Nat) (k : Core) : (x.setCore c k).routes = x.routes := rfl
@[simp] theorem State.setCore_ports (x : State) (c : Nat) (k : Core) : (x.setCore c k).ports = x.ports := rfl
@[simp] theorem State.setCore_exports (x : State) (c : Nat) (k : Core) : (x.setCore c k).exports = x.exports := rfl
@[simp] theorem State.setCore_requests (x : State) (c : Nat) (k : Core) : (x.setCore c k).requests = x.requests := rfl
@[simp] theorem State.setCore_nextReq (x : State) (c : Nat) (k : Core) : (x.setCore c k).nextReq = x.nextReq := rfl
@[simp] theorem State.setCore_distReply (x : State) (c : Nat) (k : Core) : (x.setCore c k).distReply = x.distReply := rfl
@[simp] theorem State.setCore_incoming (x : State) (c : Nat) (k : Core) : (x.setCore c k).incoming = x.incoming := rfl
@[simp] theorem State.setCore_transit (x : State) (c : Nat) (k : Core) : (x.setCore c k).transit = x.transit := rfl
@[simp] theorem State.setCore_wire (x : State) (c : Nat) (k : Core) : (x.setCore c k).wire = x.wire := rfl
@[simp] theorem State.setCore_tokens (x : State) (c : Nat) (k : Core) : (x.setCore c k).tokens = x.tokens := rfl
@[simp] theorem State.setCore_resend (x : State) (c : Nat) (k : Core) : (x.setCore c k).resend = x.resend := rfl
@[simp] theorem State.setCore_remoteDone (x : State) (c : Nat) (k : Core) : (x.setCore c k).remoteDone = x.remoteDone := rfl
@[simp] theorem State.setCore_tiercap (x : State) (c : Nat) (k : Core) : (x.setCore c k).tiercap = x.tiercap := rfl
@[simp] theorem State.setCore_heatcfg (x : State) (c : Nat) (k : Core) : (x.setCore c k).heatcfg = x.heatcfg := rfl
@[simp] theorem State.setCore_heathbm (x : State) (c : Nat) (k : Core) : (x.setCore c k).heathbm = x.heathbm := rfl
@[simp] theorem State.setCore_heatcxl (x : State) (c : Nat) (k : Core) : (x.setCore c k).heatcxl = x.heatcxl := rfl
@[simp] theorem State.setCore_heatCount (x : State) (c : Nat) (k : Core) : (x.setCore c k).heatCount = x.heatCount := rfl
@[simp] theorem State.setCore_migqb (x : State) (c : Nat) (k : Core) : (x.setCore c k).migqb = x.migqb := rfl
@[simp] theorem State.setCore_migHead (x : State) (c : Nat) (k : Core) : (x.setCore c k).migHead = x.migHead := rfl
@[simp] theorem State.setCore_migTail (x : State) (c : Nat) (k : Core) : (x.setCore c k).migTail = x.migTail := rfl
@[simp] theorem State.setCore_moving (x : State) (c : Nat) (k : Core) : (x.setCore c k).moving = x.moving := rfl
@[simp] theorem State.setCore_ckptctl (x : State) (c : Nat) (k : Core) : (x.setCore c k).ckptctl = x.ckptctl := rfl
@[simp] theorem State.setCore_ckptstat (x : State) (c : Nat) (k : Core) : (x.setCore c k).ckptstat = x.ckptstat := rfl
@[simp] theorem State.setCore_ckptRun (x : State) (c : Nat) (k : Core) : (x.setCore c k).ckptRun = x.ckptRun := rfl
@[simp] theorem State.setCore_retired (x : State) (c : Nat) (k : Core) : (x.setCore c k).retired = x.retired := rfl
@[simp] theorem State.setCore_noPlace (x : State) (c : Nat) (k : Core) : (x.setCore c k).noPlace = x.noPlace := rfl
@[simp] theorem State.setCore_rowret (x : State) (c : Nat) (k : Core) : (x.setCore c k).rowret = x.rowret := rfl
@[simp] theorem State.setCore_isl (x : State) (c : Nat) (k : Core) : (x.setCore c k).isl = x.isl := rfl
@[simp] theorem State.setCore_islFrz (x : State) (c : Nat) (k : Core) : (x.setCore c k).islFrz = x.islFrz := rfl
@[simp] theorem State.setCore_hostMem (x : State) (c : Nat) (k : Core) : (x.setCore c k).hostMem = x.hostMem := rfl
@[simp] theorem State.setCore_hcmd (x : State) (c : Nat) (k : Core) : (x.setCore c k).hcmd = x.hcmd := rfl
@[simp] theorem State.setCore_hcmdDropped (x : State) (c : Nat) (k : Core) : (x.setCore c k).hcmdDropped = x.hcmdDropped := rfl
@[simp] theorem State.setCore_msix (x : State) (c : Nat) (k : Core) : (x.setCore c k).msix = x.msix := rfl
@[simp] theorem State.setCore_capctl (x : State) (c : Nat) (k : Core) : (x.setCore c k).capctl = x.capctl := rfl
@[simp] theorem State.setCore_capstat (x : State) (c : Nat) (k : Core) : (x.setCore c k).capstat = x.capstat := rfl
@[simp] theorem State.setCore_replayPos (x : State) (c : Nat) (k : Core) : (x.setCore c k).replayPos = x.replayPos := rfl
@[simp] theorem State.setCore_evrb (x : State) (c : Nat) (k : Core) : (x.setCore c k).evrb = x.evrb := rfl
@[simp] theorem State.setCore_evsz (x : State) (c : Nat) (k : Core) : (x.setCore c k).evsz = x.evsz := rfl
@[simp] theorem State.setCore_evlost (x : State) (c : Nat) (k : Core) : (x.setCore c k).evlost = x.evlost := rfl
@[simp] theorem State.setCore_evProd (x : State) (c : Nat) (k : Core) : (x.setCore c k).evProd = x.evProd := rfl
@[simp] theorem State.setCore_freezeLog (x : State) (c : Nat) (k : Core) : (x.setCore c k).freezeLog = x.freezeLog := rfl
@[simp] theorem State.setCore_hostTouched (x : State) (c : Nat) (k : Core) : (x.setCore c k).hostTouched = x.hostTouched := rfl
@[simp] theorem State.setCore_hostReplies (x : State) (c : Nat) (k : Core) : (x.setCore c k).hostReplies = x.hostReplies := rfl
@[simp] theorem State.setCore_frozenFns (x : State) (c : Nat) (k : Core) : (x.setCore c k).frozenFns = x.frozenFns := rfl
@[simp] theorem State.setCore_frozenPeers (x : State) (c : Nat) (k : Core) : (x.setCore c k).frozenPeers = x.frozenPeers := rfl
@[simp] theorem State.setCore_svfuse (x : State) (c : Nat) (k : Core) : (x.setCore c k).svfuse = x.svfuse := rfl
@[simp] theorem State.setCore_keys (x : State) (c : Nat) (k : Core) : (x.setCore c k).keys = x.keys := rfl
@[simp] theorem State.setCore_tests (x : State) (c : Nat) (k : Core) : (x.setCore c k).tests = x.tests := rfl
@[simp] theorem State.setCore_stages (x : State) (c : Nat) (k : Core) : (x.setCore c k).stages = x.stages := rfl
@[simp] theorem State.setCore_passing (x : State) (c : Nat) (k : Core) : (x.setCore c k).passing = x.passing := rfl
@[simp] theorem State.setCore_cache (x : State) (c : Nat) (k : Core) : (x.setCore c k).cache = x.cache := rfl
@[simp] theorem State.setCore_invals (x : State) (c : Nat) (k : Core) : (x.setCore c k).invals = x.invals := rfl

/-! ### State.modCore -/

@[simp] theorem State.modCore_time (x : State) (c : Nat) (f : Core → Core) : (x.modCore c f).time = x.time := rfl
@[simp] theorem State.modCore_fresh (x : State) (c : Nat) (f : Core → Core) : (x.modCore c f).fresh = x.fresh := rfl
@[simp] theorem State.modCore_turns (x : State) (c : Nat) (f : Core → Core) : (x.modCore c f).turns = x.turns := rfl
@[simp] theorem State.modCore_focus (x : State) (c : Nat) (f : Core → Core) : (x.modCore c f).focus = x.focus := rfl
@[simp] theorem State.modCore_mem (x : State) (c : Nat) (f : Core → Core) : (x.modCore c f).mem = x.mem := rfl
@[simp] theorem State.modCore_poison (x : State) (c : Nat) (f : Core → Core) : (x.modCore c f).poison = x.poison := rfl
@[simp] theorem State.modCore_clusters (x : State) (c : Nat) (f : Core → Core) : (x.modCore c f).clusters = x.clusters := rfl
@[simp] theorem State.modCore_contexts (x : State) (c : Nat) (f : Core → Core) : (x.modCore c f).contexts = x.contexts := rfl
@[simp] theorem State.modCore_motifs (x : State) (c : Nat) (f : Core → Core) : (x.modCore c f).motifs = x.motifs := rfl
@[simp] theorem State.modCore_launches (x : State) (c : Nat) (f : Core → Core) : (x.modCore c f).launches = x.launches := rfl
@[simp] theorem State.modCore_queues (x : State) (c : Nat) (f : Core → Core) : (x.modCore c f).queues = x.queues := rfl
@[simp] theorem State.modCore_devQueue (x : State) (c : Nat) (f : Core → Core) : (x.modCore c f).devQueue = x.devQueue := rfl
@[simp] theorem State.modCore_devSeq (x : State) (c : Nat) (f : Core → Core) : (x.modCore c f).devSeq = x.devSeq := rfl
@[simp] theorem State.modCore_nextLaunch (x : State) (c : Nat) (f : Core → Core) : (x.modCore c f).nextLaunch = x.nextLaunch := rfl
@[simp] theorem State.modCore_nextMotif (x : State) (c : Nat) (f : Core → Core) : (x.modCore c f).nextMotif = x.nextMotif := rfl
@[simp] theorem State.modCore_gens (x : State) (c : Nat) (f : Core → Core) : (x.modCore c f).gens = x.gens := rfl
@[simp] theorem State.modCore_started (x : State) (c : Nat) (f : Core → Core) : (x.modCore c f).started = x.started := rfl
@[simp] theorem State.modCore_starts (x : State) (c : Nat) (f : Core → Core) : (x.modCore c f).starts = x.starts := rfl
@[simp] theorem State.modCore_stage (x : State) (c : Nat) (f : Core → Core) : (x.modCore c f).stage = x.stage := rfl
@[simp] theorem State.modCore_form (x : State) (c : Nat) (f : Core → Core) : (x.modCore c f).form = x.form := rfl
@[simp] theorem State.modCore_dieMask (x : State) (c : Nat) (f : Core → Core) : (x.modCore c f).dieMask = x.dieMask := rfl
@[simp] theorem State.modCore_stepping (x : State) (c : Nat) (f : Core → Core) : (x.modCore c f).stepping = x.stepping := rfl
@[simp] theorem State.modCore_minimal (x : State) (c : Nat) (f : Core → Core) : (x.modCore c f).minimal = x.minimal := rfl
@[simp] theorem State.modCore_forced (x : State) (c : Nat) (f : Core → Core) : (x.modCore c f).forced = x.forced := rfl
@[simp] theorem State.modCore_failed (x : State) (c : Nat) (f : Core → Core) : (x.modCore c f).failed = x.failed := rfl
@[simp] theorem State.modCore_bootwhy (x : State) (c : Nat) (f : Core → Core) : (x.modCore c f).bootwhy = x.bootwhy := rfl
@[simp] theorem State.modCore_mailbox (x : State) (c : Nat) (f : Core → Core) : (x.modCore c f).mailbox = x.mailbox := rfl
@[simp] theorem State.modCore_dev (x : State) (c : Nat) (f : Core → Core) : (x.modCore c f).dev = x.dev := rfl
@[simp] theorem State.modCore_gszm1 (x : State) (c : Nat) (f : Core → Core) : (x.modCore c f).gszm1 = x.gszm1 := rfl
@[simp] theorem State.modCore_fabUp (x : State) (c : Nat) (f : Core → Core) : (x.modCore c f).fabUp = x.fabUp := rfl
@[simp] theorem State.modCore_routes (x : State) (c : Nat) (f : Core → Core) : (x.modCore c f).routes = x.routes := rfl
@[simp] theorem State.modCore_ports (x : State) (c : Nat) (f : Core → Core) : (x.modCore c f).ports = x.ports := rfl
@[simp] theorem State.modCore_exports (x : State) (c : Nat) (f : Core → Core) : (x.modCore c f).exports = x.exports := rfl
@[simp] theorem State.modCore_requests (x : State) (c : Nat) (f : Core → Core) : (x.modCore c f).requests = x.requests := rfl
@[simp] theorem State.modCore_nextReq (x : State) (c : Nat) (f : Core → Core) : (x.modCore c f).nextReq = x.nextReq := rfl
@[simp] theorem State.modCore_distReply (x : State) (c : Nat) (f : Core → Core) : (x.modCore c f).distReply = x.distReply := rfl
@[simp] theorem State.modCore_incoming (x : State) (c : Nat) (f : Core → Core) : (x.modCore c f).incoming = x.incoming := rfl
@[simp] theorem State.modCore_transit (x : State) (c : Nat) (f : Core → Core) : (x.modCore c f).transit = x.transit := rfl
@[simp] theorem State.modCore_wire (x : State) (c : Nat) (f : Core → Core) : (x.modCore c f).wire = x.wire := rfl
@[simp] theorem State.modCore_tokens (x : State) (c : Nat) (f : Core → Core) : (x.modCore c f).tokens = x.tokens := rfl
@[simp] theorem State.modCore_resend (x : State) (c : Nat) (f : Core → Core) : (x.modCore c f).resend = x.resend := rfl
@[simp] theorem State.modCore_remoteDone (x : State) (c : Nat) (f : Core → Core) : (x.modCore c f).remoteDone = x.remoteDone := rfl
@[simp] theorem State.modCore_tiercap (x : State) (c : Nat) (f : Core → Core) : (x.modCore c f).tiercap = x.tiercap := rfl
@[simp] theorem State.modCore_heatcfg (x : State) (c : Nat) (f : Core → Core) : (x.modCore c f).heatcfg = x.heatcfg := rfl
@[simp] theorem State.modCore_heathbm (x : State) (c : Nat) (f : Core → Core) : (x.modCore c f).heathbm = x.heathbm := rfl
@[simp] theorem State.modCore_heatcxl (x : State) (c : Nat) (f : Core → Core) : (x.modCore c f).heatcxl = x.heatcxl := rfl
@[simp] theorem State.modCore_heatCount (x : State) (c : Nat) (f : Core → Core) : (x.modCore c f).heatCount = x.heatCount := rfl
@[simp] theorem State.modCore_migqb (x : State) (c : Nat) (f : Core → Core) : (x.modCore c f).migqb = x.migqb := rfl
@[simp] theorem State.modCore_migHead (x : State) (c : Nat) (f : Core → Core) : (x.modCore c f).migHead = x.migHead := rfl
@[simp] theorem State.modCore_migTail (x : State) (c : Nat) (f : Core → Core) : (x.modCore c f).migTail = x.migTail := rfl
@[simp] theorem State.modCore_moving (x : State) (c : Nat) (f : Core → Core) : (x.modCore c f).moving = x.moving := rfl
@[simp] theorem State.modCore_ckptctl (x : State) (c : Nat) (f : Core → Core) : (x.modCore c f).ckptctl = x.ckptctl := rfl
@[simp] theorem State.modCore_ckptstat (x : State) (c : Nat) (f : Core → Core) : (x.modCore c f).ckptstat = x.ckptstat := rfl
@[simp] theorem State.modCore_ckptRun (x : State) (c : Nat) (f : Core → Core) : (x.modCore c f).ckptRun = x.ckptRun := rfl
@[simp] theorem State.modCore_retired (x : State) (c : Nat) (f : Core → Core) : (x.modCore c f).retired = x.retired := rfl
@[simp] theorem State.modCore_noPlace (x : State) (c : Nat) (f : Core → Core) : (x.modCore c f).noPlace = x.noPlace := rfl
@[simp] theorem State.modCore_rowret (x : State) (c : Nat) (f : Core → Core) : (x.modCore c f).rowret = x.rowret := rfl
@[simp] theorem State.modCore_isl (x : State) (c : Nat) (f : Core → Core) : (x.modCore c f).isl = x.isl := rfl
@[simp] theorem State.modCore_islFrz (x : State) (c : Nat) (f : Core → Core) : (x.modCore c f).islFrz = x.islFrz := rfl
@[simp] theorem State.modCore_hostMem (x : State) (c : Nat) (f : Core → Core) : (x.modCore c f).hostMem = x.hostMem := rfl
@[simp] theorem State.modCore_hcmd (x : State) (c : Nat) (f : Core → Core) : (x.modCore c f).hcmd = x.hcmd := rfl
@[simp] theorem State.modCore_hcmdDropped (x : State) (c : Nat) (f : Core → Core) : (x.modCore c f).hcmdDropped = x.hcmdDropped := rfl
@[simp] theorem State.modCore_msix (x : State) (c : Nat) (f : Core → Core) : (x.modCore c f).msix = x.msix := rfl
@[simp] theorem State.modCore_capctl (x : State) (c : Nat) (f : Core → Core) : (x.modCore c f).capctl = x.capctl := rfl
@[simp] theorem State.modCore_capstat (x : State) (c : Nat) (f : Core → Core) : (x.modCore c f).capstat = x.capstat := rfl
@[simp] theorem State.modCore_replayPos (x : State) (c : Nat) (f : Core → Core) : (x.modCore c f).replayPos = x.replayPos := rfl
@[simp] theorem State.modCore_evrb (x : State) (c : Nat) (f : Core → Core) : (x.modCore c f).evrb = x.evrb := rfl
@[simp] theorem State.modCore_evsz (x : State) (c : Nat) (f : Core → Core) : (x.modCore c f).evsz = x.evsz := rfl
@[simp] theorem State.modCore_evlost (x : State) (c : Nat) (f : Core → Core) : (x.modCore c f).evlost = x.evlost := rfl
@[simp] theorem State.modCore_evProd (x : State) (c : Nat) (f : Core → Core) : (x.modCore c f).evProd = x.evProd := rfl
@[simp] theorem State.modCore_freezeLog (x : State) (c : Nat) (f : Core → Core) : (x.modCore c f).freezeLog = x.freezeLog := rfl
@[simp] theorem State.modCore_hostTouched (x : State) (c : Nat) (f : Core → Core) : (x.modCore c f).hostTouched = x.hostTouched := rfl
@[simp] theorem State.modCore_hostReplies (x : State) (c : Nat) (f : Core → Core) : (x.modCore c f).hostReplies = x.hostReplies := rfl
@[simp] theorem State.modCore_frozenFns (x : State) (c : Nat) (f : Core → Core) : (x.modCore c f).frozenFns = x.frozenFns := rfl
@[simp] theorem State.modCore_frozenPeers (x : State) (c : Nat) (f : Core → Core) : (x.modCore c f).frozenPeers = x.frozenPeers := rfl
@[simp] theorem State.modCore_svfuse (x : State) (c : Nat) (f : Core → Core) : (x.modCore c f).svfuse = x.svfuse := rfl
@[simp] theorem State.modCore_keys (x : State) (c : Nat) (f : Core → Core) : (x.modCore c f).keys = x.keys := rfl
@[simp] theorem State.modCore_tests (x : State) (c : Nat) (f : Core → Core) : (x.modCore c f).tests = x.tests := rfl
@[simp] theorem State.modCore_stages (x : State) (c : Nat) (f : Core → Core) : (x.modCore c f).stages = x.stages := rfl
@[simp] theorem State.modCore_passing (x : State) (c : Nat) (f : Core → Core) : (x.modCore c f).passing = x.passing := rfl
@[simp] theorem State.modCore_cache (x : State) (c : Nat) (f : Core → Core) : (x.modCore c f).cache = x.cache := rfl
@[simp] theorem State.modCore_invals (x : State) (c : Nat) (f : Core → Core) : (x.modCore c f).invals = x.invals := rfl

/-! ### State.setCluster -/

@[simp] theorem State.setCluster_time (x : State) (n : Nat) (k : Cluster) : (x.setCluster n k).time = x.time := rfl
@[simp] theorem State.setCluster_fresh (x : State) (n : Nat) (k : Cluster) : (x.setCluster n k).fresh = x.fresh := rfl
@[simp] theorem State.setCluster_turns (x : State) (n : Nat) (k : Cluster) : (x.setCluster n k).turns = x.turns := rfl
@[simp] theorem State.setCluster_focus (x : State) (n : Nat) (k : Cluster) : (x.setCluster n k).focus = x.focus := rfl
@[simp] theorem State.setCluster_mem (x : State) (n : Nat) (k : Cluster) : (x.setCluster n k).mem = x.mem := rfl
@[simp] theorem State.setCluster_poison (x : State) (n : Nat) (k : Cluster) : (x.setCluster n k).poison = x.poison := rfl
@[simp] theorem State.setCluster_cores (x : State) (n : Nat) (k : Cluster) : (x.setCluster n k).cores = x.cores := rfl
@[simp] theorem State.setCluster_contexts (x : State) (n : Nat) (k : Cluster) : (x.setCluster n k).contexts = x.contexts := rfl
@[simp] theorem State.setCluster_motifs (x : State) (n : Nat) (k : Cluster) : (x.setCluster n k).motifs = x.motifs := rfl
@[simp] theorem State.setCluster_launches (x : State) (n : Nat) (k : Cluster) : (x.setCluster n k).launches = x.launches := rfl
@[simp] theorem State.setCluster_queues (x : State) (n : Nat) (k : Cluster) : (x.setCluster n k).queues = x.queues := rfl
@[simp] theorem State.setCluster_devQueue (x : State) (n : Nat) (k : Cluster) : (x.setCluster n k).devQueue = x.devQueue := rfl
@[simp] theorem State.setCluster_devSeq (x : State) (n : Nat) (k : Cluster) : (x.setCluster n k).devSeq = x.devSeq := rfl
@[simp] theorem State.setCluster_nextLaunch (x : State) (n : Nat) (k : Cluster) : (x.setCluster n k).nextLaunch = x.nextLaunch := rfl
@[simp] theorem State.setCluster_nextMotif (x : State) (n : Nat) (k : Cluster) : (x.setCluster n k).nextMotif = x.nextMotif := rfl
@[simp] theorem State.setCluster_gens (x : State) (n : Nat) (k : Cluster) : (x.setCluster n k).gens = x.gens := rfl
@[simp] theorem State.setCluster_started (x : State) (n : Nat) (k : Cluster) : (x.setCluster n k).started = x.started := rfl
@[simp] theorem State.setCluster_starts (x : State) (n : Nat) (k : Cluster) : (x.setCluster n k).starts = x.starts := rfl
@[simp] theorem State.setCluster_stage (x : State) (n : Nat) (k : Cluster) : (x.setCluster n k).stage = x.stage := rfl
@[simp] theorem State.setCluster_form (x : State) (n : Nat) (k : Cluster) : (x.setCluster n k).form = x.form := rfl
@[simp] theorem State.setCluster_dieMask (x : State) (n : Nat) (k : Cluster) : (x.setCluster n k).dieMask = x.dieMask := rfl
@[simp] theorem State.setCluster_stepping (x : State) (n : Nat) (k : Cluster) : (x.setCluster n k).stepping = x.stepping := rfl
@[simp] theorem State.setCluster_minimal (x : State) (n : Nat) (k : Cluster) : (x.setCluster n k).minimal = x.minimal := rfl
@[simp] theorem State.setCluster_forced (x : State) (n : Nat) (k : Cluster) : (x.setCluster n k).forced = x.forced := rfl
@[simp] theorem State.setCluster_failed (x : State) (n : Nat) (k : Cluster) : (x.setCluster n k).failed = x.failed := rfl
@[simp] theorem State.setCluster_bootwhy (x : State) (n : Nat) (k : Cluster) : (x.setCluster n k).bootwhy = x.bootwhy := rfl
@[simp] theorem State.setCluster_mailbox (x : State) (n : Nat) (k : Cluster) : (x.setCluster n k).mailbox = x.mailbox := rfl
@[simp] theorem State.setCluster_dev (x : State) (n : Nat) (k : Cluster) : (x.setCluster n k).dev = x.dev := rfl
@[simp] theorem State.setCluster_gszm1 (x : State) (n : Nat) (k : Cluster) : (x.setCluster n k).gszm1 = x.gszm1 := rfl
@[simp] theorem State.setCluster_fabUp (x : State) (n : Nat) (k : Cluster) : (x.setCluster n k).fabUp = x.fabUp := rfl
@[simp] theorem State.setCluster_routes (x : State) (n : Nat) (k : Cluster) : (x.setCluster n k).routes = x.routes := rfl
@[simp] theorem State.setCluster_ports (x : State) (n : Nat) (k : Cluster) : (x.setCluster n k).ports = x.ports := rfl
@[simp] theorem State.setCluster_exports (x : State) (n : Nat) (k : Cluster) : (x.setCluster n k).exports = x.exports := rfl
@[simp] theorem State.setCluster_requests (x : State) (n : Nat) (k : Cluster) : (x.setCluster n k).requests = x.requests := rfl
@[simp] theorem State.setCluster_nextReq (x : State) (n : Nat) (k : Cluster) : (x.setCluster n k).nextReq = x.nextReq := rfl
@[simp] theorem State.setCluster_distReply (x : State) (n : Nat) (k : Cluster) : (x.setCluster n k).distReply = x.distReply := rfl
@[simp] theorem State.setCluster_incoming (x : State) (n : Nat) (k : Cluster) : (x.setCluster n k).incoming = x.incoming := rfl
@[simp] theorem State.setCluster_transit (x : State) (n : Nat) (k : Cluster) : (x.setCluster n k).transit = x.transit := rfl
@[simp] theorem State.setCluster_wire (x : State) (n : Nat) (k : Cluster) : (x.setCluster n k).wire = x.wire := rfl
@[simp] theorem State.setCluster_tokens (x : State) (n : Nat) (k : Cluster) : (x.setCluster n k).tokens = x.tokens := rfl
@[simp] theorem State.setCluster_resend (x : State) (n : Nat) (k : Cluster) : (x.setCluster n k).resend = x.resend := rfl
@[simp] theorem State.setCluster_remoteDone (x : State) (n : Nat) (k : Cluster) : (x.setCluster n k).remoteDone = x.remoteDone := rfl
@[simp] theorem State.setCluster_tiercap (x : State) (n : Nat) (k : Cluster) : (x.setCluster n k).tiercap = x.tiercap := rfl
@[simp] theorem State.setCluster_heatcfg (x : State) (n : Nat) (k : Cluster) : (x.setCluster n k).heatcfg = x.heatcfg := rfl
@[simp] theorem State.setCluster_heathbm (x : State) (n : Nat) (k : Cluster) : (x.setCluster n k).heathbm = x.heathbm := rfl
@[simp] theorem State.setCluster_heatcxl (x : State) (n : Nat) (k : Cluster) : (x.setCluster n k).heatcxl = x.heatcxl := rfl
@[simp] theorem State.setCluster_heatCount (x : State) (n : Nat) (k : Cluster) : (x.setCluster n k).heatCount = x.heatCount := rfl
@[simp] theorem State.setCluster_migqb (x : State) (n : Nat) (k : Cluster) : (x.setCluster n k).migqb = x.migqb := rfl
@[simp] theorem State.setCluster_migHead (x : State) (n : Nat) (k : Cluster) : (x.setCluster n k).migHead = x.migHead := rfl
@[simp] theorem State.setCluster_migTail (x : State) (n : Nat) (k : Cluster) : (x.setCluster n k).migTail = x.migTail := rfl
@[simp] theorem State.setCluster_moving (x : State) (n : Nat) (k : Cluster) : (x.setCluster n k).moving = x.moving := rfl
@[simp] theorem State.setCluster_ckptctl (x : State) (n : Nat) (k : Cluster) : (x.setCluster n k).ckptctl = x.ckptctl := rfl
@[simp] theorem State.setCluster_ckptstat (x : State) (n : Nat) (k : Cluster) : (x.setCluster n k).ckptstat = x.ckptstat := rfl
@[simp] theorem State.setCluster_ckptRun (x : State) (n : Nat) (k : Cluster) : (x.setCluster n k).ckptRun = x.ckptRun := rfl
@[simp] theorem State.setCluster_retired (x : State) (n : Nat) (k : Cluster) : (x.setCluster n k).retired = x.retired := rfl
@[simp] theorem State.setCluster_noPlace (x : State) (n : Nat) (k : Cluster) : (x.setCluster n k).noPlace = x.noPlace := rfl
@[simp] theorem State.setCluster_rowret (x : State) (n : Nat) (k : Cluster) : (x.setCluster n k).rowret = x.rowret := rfl
@[simp] theorem State.setCluster_isl (x : State) (n : Nat) (k : Cluster) : (x.setCluster n k).isl = x.isl := rfl
@[simp] theorem State.setCluster_islFrz (x : State) (n : Nat) (k : Cluster) : (x.setCluster n k).islFrz = x.islFrz := rfl
@[simp] theorem State.setCluster_hostMem (x : State) (n : Nat) (k : Cluster) : (x.setCluster n k).hostMem = x.hostMem := rfl
@[simp] theorem State.setCluster_hcmd (x : State) (n : Nat) (k : Cluster) : (x.setCluster n k).hcmd = x.hcmd := rfl
@[simp] theorem State.setCluster_hcmdDropped (x : State) (n : Nat) (k : Cluster) : (x.setCluster n k).hcmdDropped = x.hcmdDropped := rfl
@[simp] theorem State.setCluster_msix (x : State) (n : Nat) (k : Cluster) : (x.setCluster n k).msix = x.msix := rfl
@[simp] theorem State.setCluster_capctl (x : State) (n : Nat) (k : Cluster) : (x.setCluster n k).capctl = x.capctl := rfl
@[simp] theorem State.setCluster_capstat (x : State) (n : Nat) (k : Cluster) : (x.setCluster n k).capstat = x.capstat := rfl
@[simp] theorem State.setCluster_replayPos (x : State) (n : Nat) (k : Cluster) : (x.setCluster n k).replayPos = x.replayPos := rfl
@[simp] theorem State.setCluster_evrb (x : State) (n : Nat) (k : Cluster) : (x.setCluster n k).evrb = x.evrb := rfl
@[simp] theorem State.setCluster_evsz (x : State) (n : Nat) (k : Cluster) : (x.setCluster n k).evsz = x.evsz := rfl
@[simp] theorem State.setCluster_evlost (x : State) (n : Nat) (k : Cluster) : (x.setCluster n k).evlost = x.evlost := rfl
@[simp] theorem State.setCluster_evProd (x : State) (n : Nat) (k : Cluster) : (x.setCluster n k).evProd = x.evProd := rfl
@[simp] theorem State.setCluster_freezeLog (x : State) (n : Nat) (k : Cluster) : (x.setCluster n k).freezeLog = x.freezeLog := rfl
@[simp] theorem State.setCluster_hostTouched (x : State) (n : Nat) (k : Cluster) : (x.setCluster n k).hostTouched = x.hostTouched := rfl
@[simp] theorem State.setCluster_hostReplies (x : State) (n : Nat) (k : Cluster) : (x.setCluster n k).hostReplies = x.hostReplies := rfl
@[simp] theorem State.setCluster_frozenFns (x : State) (n : Nat) (k : Cluster) : (x.setCluster n k).frozenFns = x.frozenFns := rfl
@[simp] theorem State.setCluster_frozenPeers (x : State) (n : Nat) (k : Cluster) : (x.setCluster n k).frozenPeers = x.frozenPeers := rfl
@[simp] theorem State.setCluster_svfuse (x : State) (n : Nat) (k : Cluster) : (x.setCluster n k).svfuse = x.svfuse := rfl
@[simp] theorem State.setCluster_keys (x : State) (n : Nat) (k : Cluster) : (x.setCluster n k).keys = x.keys := rfl
@[simp] theorem State.setCluster_tests (x : State) (n : Nat) (k : Cluster) : (x.setCluster n k).tests = x.tests := rfl
@[simp] theorem State.setCluster_stages (x : State) (n : Nat) (k : Cluster) : (x.setCluster n k).stages = x.stages := rfl
@[simp] theorem State.setCluster_passing (x : State) (n : Nat) (k : Cluster) : (x.setCluster n k).passing = x.passing := rfl
@[simp] theorem State.setCluster_cache (x : State) (n : Nat) (k : Cluster) : (x.setCluster n k).cache = x.cache := rfl
@[simp] theorem State.setCluster_invals (x : State) (n : Nat) (k : Cluster) : (x.setCluster n k).invals = x.invals := rfl

/-! ### State.setMotif -/

@[simp] theorem State.setMotif_time (x : State) (m : Motif) : (x.setMotif m).time = x.time := rfl
@[simp] theorem State.setMotif_fresh (x : State) (m : Motif) : (x.setMotif m).fresh = x.fresh := rfl
@[simp] theorem State.setMotif_turns (x : State) (m : Motif) : (x.setMotif m).turns = x.turns := rfl
@[simp] theorem State.setMotif_focus (x : State) (m : Motif) : (x.setMotif m).focus = x.focus := rfl
@[simp] theorem State.setMotif_mem (x : State) (m : Motif) : (x.setMotif m).mem = x.mem := rfl
@[simp] theorem State.setMotif_poison (x : State) (m : Motif) : (x.setMotif m).poison = x.poison := rfl
@[simp] theorem State.setMotif_cores (x : State) (m : Motif) : (x.setMotif m).cores = x.cores := rfl
@[simp] theorem State.setMotif_clusters (x : State) (m : Motif) : (x.setMotif m).clusters = x.clusters := rfl
@[simp] theorem State.setMotif_contexts (x : State) (m : Motif) : (x.setMotif m).contexts = x.contexts := rfl
@[simp] theorem State.setMotif_launches (x : State) (m : Motif) : (x.setMotif m).launches = x.launches := rfl
@[simp] theorem State.setMotif_queues (x : State) (m : Motif) : (x.setMotif m).queues = x.queues := rfl
@[simp] theorem State.setMotif_devQueue (x : State) (m : Motif) : (x.setMotif m).devQueue = x.devQueue := rfl
@[simp] theorem State.setMotif_devSeq (x : State) (m : Motif) : (x.setMotif m).devSeq = x.devSeq := rfl
@[simp] theorem State.setMotif_nextLaunch (x : State) (m : Motif) : (x.setMotif m).nextLaunch = x.nextLaunch := rfl
@[simp] theorem State.setMotif_nextMotif (x : State) (m : Motif) : (x.setMotif m).nextMotif = x.nextMotif := rfl
@[simp] theorem State.setMotif_gens (x : State) (m : Motif) : (x.setMotif m).gens = x.gens := rfl
@[simp] theorem State.setMotif_started (x : State) (m : Motif) : (x.setMotif m).started = x.started := rfl
@[simp] theorem State.setMotif_starts (x : State) (m : Motif) : (x.setMotif m).starts = x.starts := rfl
@[simp] theorem State.setMotif_stage (x : State) (m : Motif) : (x.setMotif m).stage = x.stage := rfl
@[simp] theorem State.setMotif_form (x : State) (m : Motif) : (x.setMotif m).form = x.form := rfl
@[simp] theorem State.setMotif_dieMask (x : State) (m : Motif) : (x.setMotif m).dieMask = x.dieMask := rfl
@[simp] theorem State.setMotif_stepping (x : State) (m : Motif) : (x.setMotif m).stepping = x.stepping := rfl
@[simp] theorem State.setMotif_minimal (x : State) (m : Motif) : (x.setMotif m).minimal = x.minimal := rfl
@[simp] theorem State.setMotif_forced (x : State) (m : Motif) : (x.setMotif m).forced = x.forced := rfl
@[simp] theorem State.setMotif_failed (x : State) (m : Motif) : (x.setMotif m).failed = x.failed := rfl
@[simp] theorem State.setMotif_bootwhy (x : State) (m : Motif) : (x.setMotif m).bootwhy = x.bootwhy := rfl
@[simp] theorem State.setMotif_mailbox (x : State) (m : Motif) : (x.setMotif m).mailbox = x.mailbox := rfl
@[simp] theorem State.setMotif_dev (x : State) (m : Motif) : (x.setMotif m).dev = x.dev := rfl
@[simp] theorem State.setMotif_gszm1 (x : State) (m : Motif) : (x.setMotif m).gszm1 = x.gszm1 := rfl
@[simp] theorem State.setMotif_fabUp (x : State) (m : Motif) : (x.setMotif m).fabUp = x.fabUp := rfl
@[simp] theorem State.setMotif_routes (x : State) (m : Motif) : (x.setMotif m).routes = x.routes := rfl
@[simp] theorem State.setMotif_ports (x : State) (m : Motif) : (x.setMotif m).ports = x.ports := rfl
@[simp] theorem State.setMotif_exports (x : State) (m : Motif) : (x.setMotif m).exports = x.exports := rfl
@[simp] theorem State.setMotif_requests (x : State) (m : Motif) : (x.setMotif m).requests = x.requests := rfl
@[simp] theorem State.setMotif_nextReq (x : State) (m : Motif) : (x.setMotif m).nextReq = x.nextReq := rfl
@[simp] theorem State.setMotif_distReply (x : State) (m : Motif) : (x.setMotif m).distReply = x.distReply := rfl
@[simp] theorem State.setMotif_incoming (x : State) (m : Motif) : (x.setMotif m).incoming = x.incoming := rfl
@[simp] theorem State.setMotif_transit (x : State) (m : Motif) : (x.setMotif m).transit = x.transit := rfl
@[simp] theorem State.setMotif_wire (x : State) (m : Motif) : (x.setMotif m).wire = x.wire := rfl
@[simp] theorem State.setMotif_tokens (x : State) (m : Motif) : (x.setMotif m).tokens = x.tokens := rfl
@[simp] theorem State.setMotif_resend (x : State) (m : Motif) : (x.setMotif m).resend = x.resend := rfl
@[simp] theorem State.setMotif_remoteDone (x : State) (m : Motif) : (x.setMotif m).remoteDone = x.remoteDone := rfl
@[simp] theorem State.setMotif_tiercap (x : State) (m : Motif) : (x.setMotif m).tiercap = x.tiercap := rfl
@[simp] theorem State.setMotif_heatcfg (x : State) (m : Motif) : (x.setMotif m).heatcfg = x.heatcfg := rfl
@[simp] theorem State.setMotif_heathbm (x : State) (m : Motif) : (x.setMotif m).heathbm = x.heathbm := rfl
@[simp] theorem State.setMotif_heatcxl (x : State) (m : Motif) : (x.setMotif m).heatcxl = x.heatcxl := rfl
@[simp] theorem State.setMotif_heatCount (x : State) (m : Motif) : (x.setMotif m).heatCount = x.heatCount := rfl
@[simp] theorem State.setMotif_migqb (x : State) (m : Motif) : (x.setMotif m).migqb = x.migqb := rfl
@[simp] theorem State.setMotif_migHead (x : State) (m : Motif) : (x.setMotif m).migHead = x.migHead := rfl
@[simp] theorem State.setMotif_migTail (x : State) (m : Motif) : (x.setMotif m).migTail = x.migTail := rfl
@[simp] theorem State.setMotif_moving (x : State) (m : Motif) : (x.setMotif m).moving = x.moving := rfl
@[simp] theorem State.setMotif_ckptctl (x : State) (m : Motif) : (x.setMotif m).ckptctl = x.ckptctl := rfl
@[simp] theorem State.setMotif_ckptstat (x : State) (m : Motif) : (x.setMotif m).ckptstat = x.ckptstat := rfl
@[simp] theorem State.setMotif_ckptRun (x : State) (m : Motif) : (x.setMotif m).ckptRun = x.ckptRun := rfl
@[simp] theorem State.setMotif_retired (x : State) (m : Motif) : (x.setMotif m).retired = x.retired := rfl
@[simp] theorem State.setMotif_noPlace (x : State) (m : Motif) : (x.setMotif m).noPlace = x.noPlace := rfl
@[simp] theorem State.setMotif_rowret (x : State) (m : Motif) : (x.setMotif m).rowret = x.rowret := rfl
@[simp] theorem State.setMotif_isl (x : State) (m : Motif) : (x.setMotif m).isl = x.isl := rfl
@[simp] theorem State.setMotif_islFrz (x : State) (m : Motif) : (x.setMotif m).islFrz = x.islFrz := rfl
@[simp] theorem State.setMotif_hostMem (x : State) (m : Motif) : (x.setMotif m).hostMem = x.hostMem := rfl
@[simp] theorem State.setMotif_hcmd (x : State) (m : Motif) : (x.setMotif m).hcmd = x.hcmd := rfl
@[simp] theorem State.setMotif_hcmdDropped (x : State) (m : Motif) : (x.setMotif m).hcmdDropped = x.hcmdDropped := rfl
@[simp] theorem State.setMotif_msix (x : State) (m : Motif) : (x.setMotif m).msix = x.msix := rfl
@[simp] theorem State.setMotif_capctl (x : State) (m : Motif) : (x.setMotif m).capctl = x.capctl := rfl
@[simp] theorem State.setMotif_capstat (x : State) (m : Motif) : (x.setMotif m).capstat = x.capstat := rfl
@[simp] theorem State.setMotif_replayPos (x : State) (m : Motif) : (x.setMotif m).replayPos = x.replayPos := rfl
@[simp] theorem State.setMotif_evrb (x : State) (m : Motif) : (x.setMotif m).evrb = x.evrb := rfl
@[simp] theorem State.setMotif_evsz (x : State) (m : Motif) : (x.setMotif m).evsz = x.evsz := rfl
@[simp] theorem State.setMotif_evlost (x : State) (m : Motif) : (x.setMotif m).evlost = x.evlost := rfl
@[simp] theorem State.setMotif_evProd (x : State) (m : Motif) : (x.setMotif m).evProd = x.evProd := rfl
@[simp] theorem State.setMotif_freezeLog (x : State) (m : Motif) : (x.setMotif m).freezeLog = x.freezeLog := rfl
@[simp] theorem State.setMotif_hostTouched (x : State) (m : Motif) : (x.setMotif m).hostTouched = x.hostTouched := rfl
@[simp] theorem State.setMotif_hostReplies (x : State) (m : Motif) : (x.setMotif m).hostReplies = x.hostReplies := rfl
@[simp] theorem State.setMotif_frozenFns (x : State) (m : Motif) : (x.setMotif m).frozenFns = x.frozenFns := rfl
@[simp] theorem State.setMotif_frozenPeers (x : State) (m : Motif) : (x.setMotif m).frozenPeers = x.frozenPeers := rfl
@[simp] theorem State.setMotif_svfuse (x : State) (m : Motif) : (x.setMotif m).svfuse = x.svfuse := rfl
@[simp] theorem State.setMotif_keys (x : State) (m : Motif) : (x.setMotif m).keys = x.keys := rfl
@[simp] theorem State.setMotif_tests (x : State) (m : Motif) : (x.setMotif m).tests = x.tests := rfl
@[simp] theorem State.setMotif_stages (x : State) (m : Motif) : (x.setMotif m).stages = x.stages := rfl
@[simp] theorem State.setMotif_passing (x : State) (m : Motif) : (x.setMotif m).passing = x.passing := rfl
@[simp] theorem State.setMotif_cache (x : State) (m : Motif) : (x.setMotif m).cache = x.cache := rfl
@[simp] theorem State.setMotif_invals (x : State) (m : Motif) : (x.setMotif m).invals = x.invals := rfl

/-! ### State.setLaunch -/

@[simp] theorem State.setLaunch_time (x : State) (l : Launch) : (x.setLaunch l).time = x.time := rfl
@[simp] theorem State.setLaunch_fresh (x : State) (l : Launch) : (x.setLaunch l).fresh = x.fresh := rfl
@[simp] theorem State.setLaunch_turns (x : State) (l : Launch) : (x.setLaunch l).turns = x.turns := rfl
@[simp] theorem State.setLaunch_focus (x : State) (l : Launch) : (x.setLaunch l).focus = x.focus := rfl
@[simp] theorem State.setLaunch_mem (x : State) (l : Launch) : (x.setLaunch l).mem = x.mem := rfl
@[simp] theorem State.setLaunch_poison (x : State) (l : Launch) : (x.setLaunch l).poison = x.poison := rfl
@[simp] theorem State.setLaunch_cores (x : State) (l : Launch) : (x.setLaunch l).cores = x.cores := rfl
@[simp] theorem State.setLaunch_clusters (x : State) (l : Launch) : (x.setLaunch l).clusters = x.clusters := rfl
@[simp] theorem State.setLaunch_contexts (x : State) (l : Launch) : (x.setLaunch l).contexts = x.contexts := rfl
@[simp] theorem State.setLaunch_motifs (x : State) (l : Launch) : (x.setLaunch l).motifs = x.motifs := rfl
@[simp] theorem State.setLaunch_queues (x : State) (l : Launch) : (x.setLaunch l).queues = x.queues := rfl
@[simp] theorem State.setLaunch_devQueue (x : State) (l : Launch) : (x.setLaunch l).devQueue = x.devQueue := rfl
@[simp] theorem State.setLaunch_devSeq (x : State) (l : Launch) : (x.setLaunch l).devSeq = x.devSeq := rfl
@[simp] theorem State.setLaunch_nextLaunch (x : State) (l : Launch) : (x.setLaunch l).nextLaunch = x.nextLaunch := rfl
@[simp] theorem State.setLaunch_nextMotif (x : State) (l : Launch) : (x.setLaunch l).nextMotif = x.nextMotif := rfl
@[simp] theorem State.setLaunch_gens (x : State) (l : Launch) : (x.setLaunch l).gens = x.gens := rfl
@[simp] theorem State.setLaunch_started (x : State) (l : Launch) : (x.setLaunch l).started = x.started := rfl
@[simp] theorem State.setLaunch_starts (x : State) (l : Launch) : (x.setLaunch l).starts = x.starts := rfl
@[simp] theorem State.setLaunch_stage (x : State) (l : Launch) : (x.setLaunch l).stage = x.stage := rfl
@[simp] theorem State.setLaunch_form (x : State) (l : Launch) : (x.setLaunch l).form = x.form := rfl
@[simp] theorem State.setLaunch_dieMask (x : State) (l : Launch) : (x.setLaunch l).dieMask = x.dieMask := rfl
@[simp] theorem State.setLaunch_stepping (x : State) (l : Launch) : (x.setLaunch l).stepping = x.stepping := rfl
@[simp] theorem State.setLaunch_minimal (x : State) (l : Launch) : (x.setLaunch l).minimal = x.minimal := rfl
@[simp] theorem State.setLaunch_forced (x : State) (l : Launch) : (x.setLaunch l).forced = x.forced := rfl
@[simp] theorem State.setLaunch_failed (x : State) (l : Launch) : (x.setLaunch l).failed = x.failed := rfl
@[simp] theorem State.setLaunch_bootwhy (x : State) (l : Launch) : (x.setLaunch l).bootwhy = x.bootwhy := rfl
@[simp] theorem State.setLaunch_mailbox (x : State) (l : Launch) : (x.setLaunch l).mailbox = x.mailbox := rfl
@[simp] theorem State.setLaunch_dev (x : State) (l : Launch) : (x.setLaunch l).dev = x.dev := rfl
@[simp] theorem State.setLaunch_gszm1 (x : State) (l : Launch) : (x.setLaunch l).gszm1 = x.gszm1 := rfl
@[simp] theorem State.setLaunch_fabUp (x : State) (l : Launch) : (x.setLaunch l).fabUp = x.fabUp := rfl
@[simp] theorem State.setLaunch_routes (x : State) (l : Launch) : (x.setLaunch l).routes = x.routes := rfl
@[simp] theorem State.setLaunch_ports (x : State) (l : Launch) : (x.setLaunch l).ports = x.ports := rfl
@[simp] theorem State.setLaunch_exports (x : State) (l : Launch) : (x.setLaunch l).exports = x.exports := rfl
@[simp] theorem State.setLaunch_requests (x : State) (l : Launch) : (x.setLaunch l).requests = x.requests := rfl
@[simp] theorem State.setLaunch_nextReq (x : State) (l : Launch) : (x.setLaunch l).nextReq = x.nextReq := rfl
@[simp] theorem State.setLaunch_distReply (x : State) (l : Launch) : (x.setLaunch l).distReply = x.distReply := rfl
@[simp] theorem State.setLaunch_incoming (x : State) (l : Launch) : (x.setLaunch l).incoming = x.incoming := rfl
@[simp] theorem State.setLaunch_transit (x : State) (l : Launch) : (x.setLaunch l).transit = x.transit := rfl
@[simp] theorem State.setLaunch_wire (x : State) (l : Launch) : (x.setLaunch l).wire = x.wire := rfl
@[simp] theorem State.setLaunch_tokens (x : State) (l : Launch) : (x.setLaunch l).tokens = x.tokens := rfl
@[simp] theorem State.setLaunch_resend (x : State) (l : Launch) : (x.setLaunch l).resend = x.resend := rfl
@[simp] theorem State.setLaunch_remoteDone (x : State) (l : Launch) : (x.setLaunch l).remoteDone = x.remoteDone := rfl
@[simp] theorem State.setLaunch_tiercap (x : State) (l : Launch) : (x.setLaunch l).tiercap = x.tiercap := rfl
@[simp] theorem State.setLaunch_heatcfg (x : State) (l : Launch) : (x.setLaunch l).heatcfg = x.heatcfg := rfl
@[simp] theorem State.setLaunch_heathbm (x : State) (l : Launch) : (x.setLaunch l).heathbm = x.heathbm := rfl
@[simp] theorem State.setLaunch_heatcxl (x : State) (l : Launch) : (x.setLaunch l).heatcxl = x.heatcxl := rfl
@[simp] theorem State.setLaunch_heatCount (x : State) (l : Launch) : (x.setLaunch l).heatCount = x.heatCount := rfl
@[simp] theorem State.setLaunch_migqb (x : State) (l : Launch) : (x.setLaunch l).migqb = x.migqb := rfl
@[simp] theorem State.setLaunch_migHead (x : State) (l : Launch) : (x.setLaunch l).migHead = x.migHead := rfl
@[simp] theorem State.setLaunch_migTail (x : State) (l : Launch) : (x.setLaunch l).migTail = x.migTail := rfl
@[simp] theorem State.setLaunch_moving (x : State) (l : Launch) : (x.setLaunch l).moving = x.moving := rfl
@[simp] theorem State.setLaunch_ckptctl (x : State) (l : Launch) : (x.setLaunch l).ckptctl = x.ckptctl := rfl
@[simp] theorem State.setLaunch_ckptstat (x : State) (l : Launch) : (x.setLaunch l).ckptstat = x.ckptstat := rfl
@[simp] theorem State.setLaunch_ckptRun (x : State) (l : Launch) : (x.setLaunch l).ckptRun = x.ckptRun := rfl
@[simp] theorem State.setLaunch_retired (x : State) (l : Launch) : (x.setLaunch l).retired = x.retired := rfl
@[simp] theorem State.setLaunch_noPlace (x : State) (l : Launch) : (x.setLaunch l).noPlace = x.noPlace := rfl
@[simp] theorem State.setLaunch_rowret (x : State) (l : Launch) : (x.setLaunch l).rowret = x.rowret := rfl
@[simp] theorem State.setLaunch_isl (x : State) (l : Launch) : (x.setLaunch l).isl = x.isl := rfl
@[simp] theorem State.setLaunch_islFrz (x : State) (l : Launch) : (x.setLaunch l).islFrz = x.islFrz := rfl
@[simp] theorem State.setLaunch_hostMem (x : State) (l : Launch) : (x.setLaunch l).hostMem = x.hostMem := rfl
@[simp] theorem State.setLaunch_hcmd (x : State) (l : Launch) : (x.setLaunch l).hcmd = x.hcmd := rfl
@[simp] theorem State.setLaunch_hcmdDropped (x : State) (l : Launch) : (x.setLaunch l).hcmdDropped = x.hcmdDropped := rfl
@[simp] theorem State.setLaunch_msix (x : State) (l : Launch) : (x.setLaunch l).msix = x.msix := rfl
@[simp] theorem State.setLaunch_capctl (x : State) (l : Launch) : (x.setLaunch l).capctl = x.capctl := rfl
@[simp] theorem State.setLaunch_capstat (x : State) (l : Launch) : (x.setLaunch l).capstat = x.capstat := rfl
@[simp] theorem State.setLaunch_replayPos (x : State) (l : Launch) : (x.setLaunch l).replayPos = x.replayPos := rfl
@[simp] theorem State.setLaunch_evrb (x : State) (l : Launch) : (x.setLaunch l).evrb = x.evrb := rfl
@[simp] theorem State.setLaunch_evsz (x : State) (l : Launch) : (x.setLaunch l).evsz = x.evsz := rfl
@[simp] theorem State.setLaunch_evlost (x : State) (l : Launch) : (x.setLaunch l).evlost = x.evlost := rfl
@[simp] theorem State.setLaunch_evProd (x : State) (l : Launch) : (x.setLaunch l).evProd = x.evProd := rfl
@[simp] theorem State.setLaunch_freezeLog (x : State) (l : Launch) : (x.setLaunch l).freezeLog = x.freezeLog := rfl
@[simp] theorem State.setLaunch_hostTouched (x : State) (l : Launch) : (x.setLaunch l).hostTouched = x.hostTouched := rfl
@[simp] theorem State.setLaunch_hostReplies (x : State) (l : Launch) : (x.setLaunch l).hostReplies = x.hostReplies := rfl
@[simp] theorem State.setLaunch_frozenFns (x : State) (l : Launch) : (x.setLaunch l).frozenFns = x.frozenFns := rfl
@[simp] theorem State.setLaunch_frozenPeers (x : State) (l : Launch) : (x.setLaunch l).frozenPeers = x.frozenPeers := rfl
@[simp] theorem State.setLaunch_svfuse (x : State) (l : Launch) : (x.setLaunch l).svfuse = x.svfuse := rfl
@[simp] theorem State.setLaunch_keys (x : State) (l : Launch) : (x.setLaunch l).keys = x.keys := rfl
@[simp] theorem State.setLaunch_tests (x : State) (l : Launch) : (x.setLaunch l).tests = x.tests := rfl
@[simp] theorem State.setLaunch_stages (x : State) (l : Launch) : (x.setLaunch l).stages = x.stages := rfl
@[simp] theorem State.setLaunch_passing (x : State) (l : Launch) : (x.setLaunch l).passing = x.passing := rfl
@[simp] theorem State.setLaunch_cache (x : State) (l : Launch) : (x.setLaunch l).cache = x.cache := rfl
@[simp] theorem State.setLaunch_invals (x : State) (l : Launch) : (x.setLaunch l).invals = x.invals := rfl

/-! ### State.setContext -/

@[simp] theorem State.setContext_time (x : State) (y : Context) : (x.setContext y).time = x.time := rfl
@[simp] theorem State.setContext_fresh (x : State) (y : Context) : (x.setContext y).fresh = x.fresh := rfl
@[simp] theorem State.setContext_turns (x : State) (y : Context) : (x.setContext y).turns = x.turns := rfl
@[simp] theorem State.setContext_focus (x : State) (y : Context) : (x.setContext y).focus = x.focus := rfl
@[simp] theorem State.setContext_mem (x : State) (y : Context) : (x.setContext y).mem = x.mem := rfl
@[simp] theorem State.setContext_poison (x : State) (y : Context) : (x.setContext y).poison = x.poison := rfl
@[simp] theorem State.setContext_cores (x : State) (y : Context) : (x.setContext y).cores = x.cores := rfl
@[simp] theorem State.setContext_clusters (x : State) (y : Context) : (x.setContext y).clusters = x.clusters := rfl
@[simp] theorem State.setContext_motifs (x : State) (y : Context) : (x.setContext y).motifs = x.motifs := rfl
@[simp] theorem State.setContext_launches (x : State) (y : Context) : (x.setContext y).launches = x.launches := rfl
@[simp] theorem State.setContext_queues (x : State) (y : Context) : (x.setContext y).queues = x.queues := rfl
@[simp] theorem State.setContext_devQueue (x : State) (y : Context) : (x.setContext y).devQueue = x.devQueue := rfl
@[simp] theorem State.setContext_devSeq (x : State) (y : Context) : (x.setContext y).devSeq = x.devSeq := rfl
@[simp] theorem State.setContext_nextLaunch (x : State) (y : Context) : (x.setContext y).nextLaunch = x.nextLaunch := rfl
@[simp] theorem State.setContext_nextMotif (x : State) (y : Context) : (x.setContext y).nextMotif = x.nextMotif := rfl
@[simp] theorem State.setContext_gens (x : State) (y : Context) : (x.setContext y).gens = x.gens := rfl
@[simp] theorem State.setContext_started (x : State) (y : Context) : (x.setContext y).started = x.started := rfl
@[simp] theorem State.setContext_starts (x : State) (y : Context) : (x.setContext y).starts = x.starts := rfl
@[simp] theorem State.setContext_stage (x : State) (y : Context) : (x.setContext y).stage = x.stage := rfl
@[simp] theorem State.setContext_form (x : State) (y : Context) : (x.setContext y).form = x.form := rfl
@[simp] theorem State.setContext_dieMask (x : State) (y : Context) : (x.setContext y).dieMask = x.dieMask := rfl
@[simp] theorem State.setContext_stepping (x : State) (y : Context) : (x.setContext y).stepping = x.stepping := rfl
@[simp] theorem State.setContext_minimal (x : State) (y : Context) : (x.setContext y).minimal = x.minimal := rfl
@[simp] theorem State.setContext_forced (x : State) (y : Context) : (x.setContext y).forced = x.forced := rfl
@[simp] theorem State.setContext_failed (x : State) (y : Context) : (x.setContext y).failed = x.failed := rfl
@[simp] theorem State.setContext_bootwhy (x : State) (y : Context) : (x.setContext y).bootwhy = x.bootwhy := rfl
@[simp] theorem State.setContext_mailbox (x : State) (y : Context) : (x.setContext y).mailbox = x.mailbox := rfl
@[simp] theorem State.setContext_dev (x : State) (y : Context) : (x.setContext y).dev = x.dev := rfl
@[simp] theorem State.setContext_gszm1 (x : State) (y : Context) : (x.setContext y).gszm1 = x.gszm1 := rfl
@[simp] theorem State.setContext_fabUp (x : State) (y : Context) : (x.setContext y).fabUp = x.fabUp := rfl
@[simp] theorem State.setContext_routes (x : State) (y : Context) : (x.setContext y).routes = x.routes := rfl
@[simp] theorem State.setContext_ports (x : State) (y : Context) : (x.setContext y).ports = x.ports := rfl
@[simp] theorem State.setContext_exports (x : State) (y : Context) : (x.setContext y).exports = x.exports := rfl
@[simp] theorem State.setContext_requests (x : State) (y : Context) : (x.setContext y).requests = x.requests := rfl
@[simp] theorem State.setContext_nextReq (x : State) (y : Context) : (x.setContext y).nextReq = x.nextReq := rfl
@[simp] theorem State.setContext_distReply (x : State) (y : Context) : (x.setContext y).distReply = x.distReply := rfl
@[simp] theorem State.setContext_incoming (x : State) (y : Context) : (x.setContext y).incoming = x.incoming := rfl
@[simp] theorem State.setContext_transit (x : State) (y : Context) : (x.setContext y).transit = x.transit := rfl
@[simp] theorem State.setContext_wire (x : State) (y : Context) : (x.setContext y).wire = x.wire := rfl
@[simp] theorem State.setContext_tokens (x : State) (y : Context) : (x.setContext y).tokens = x.tokens := rfl
@[simp] theorem State.setContext_resend (x : State) (y : Context) : (x.setContext y).resend = x.resend := rfl
@[simp] theorem State.setContext_remoteDone (x : State) (y : Context) : (x.setContext y).remoteDone = x.remoteDone := rfl
@[simp] theorem State.setContext_tiercap (x : State) (y : Context) : (x.setContext y).tiercap = x.tiercap := rfl
@[simp] theorem State.setContext_heatcfg (x : State) (y : Context) : (x.setContext y).heatcfg = x.heatcfg := rfl
@[simp] theorem State.setContext_heathbm (x : State) (y : Context) : (x.setContext y).heathbm = x.heathbm := rfl
@[simp] theorem State.setContext_heatcxl (x : State) (y : Context) : (x.setContext y).heatcxl = x.heatcxl := rfl
@[simp] theorem State.setContext_heatCount (x : State) (y : Context) : (x.setContext y).heatCount = x.heatCount := rfl
@[simp] theorem State.setContext_migqb (x : State) (y : Context) : (x.setContext y).migqb = x.migqb := rfl
@[simp] theorem State.setContext_migHead (x : State) (y : Context) : (x.setContext y).migHead = x.migHead := rfl
@[simp] theorem State.setContext_migTail (x : State) (y : Context) : (x.setContext y).migTail = x.migTail := rfl
@[simp] theorem State.setContext_moving (x : State) (y : Context) : (x.setContext y).moving = x.moving := rfl
@[simp] theorem State.setContext_ckptctl (x : State) (y : Context) : (x.setContext y).ckptctl = x.ckptctl := rfl
@[simp] theorem State.setContext_ckptstat (x : State) (y : Context) : (x.setContext y).ckptstat = x.ckptstat := rfl
@[simp] theorem State.setContext_ckptRun (x : State) (y : Context) : (x.setContext y).ckptRun = x.ckptRun := rfl
@[simp] theorem State.setContext_retired (x : State) (y : Context) : (x.setContext y).retired = x.retired := rfl
@[simp] theorem State.setContext_noPlace (x : State) (y : Context) : (x.setContext y).noPlace = x.noPlace := rfl
@[simp] theorem State.setContext_rowret (x : State) (y : Context) : (x.setContext y).rowret = x.rowret := rfl
@[simp] theorem State.setContext_isl (x : State) (y : Context) : (x.setContext y).isl = x.isl := rfl
@[simp] theorem State.setContext_islFrz (x : State) (y : Context) : (x.setContext y).islFrz = x.islFrz := rfl
@[simp] theorem State.setContext_hostMem (x : State) (y : Context) : (x.setContext y).hostMem = x.hostMem := rfl
@[simp] theorem State.setContext_hcmd (x : State) (y : Context) : (x.setContext y).hcmd = x.hcmd := rfl
@[simp] theorem State.setContext_hcmdDropped (x : State) (y : Context) : (x.setContext y).hcmdDropped = x.hcmdDropped := rfl
@[simp] theorem State.setContext_msix (x : State) (y : Context) : (x.setContext y).msix = x.msix := rfl
@[simp] theorem State.setContext_capctl (x : State) (y : Context) : (x.setContext y).capctl = x.capctl := rfl
@[simp] theorem State.setContext_capstat (x : State) (y : Context) : (x.setContext y).capstat = x.capstat := rfl
@[simp] theorem State.setContext_replayPos (x : State) (y : Context) : (x.setContext y).replayPos = x.replayPos := rfl
@[simp] theorem State.setContext_evrb (x : State) (y : Context) : (x.setContext y).evrb = x.evrb := rfl
@[simp] theorem State.setContext_evsz (x : State) (y : Context) : (x.setContext y).evsz = x.evsz := rfl
@[simp] theorem State.setContext_evlost (x : State) (y : Context) : (x.setContext y).evlost = x.evlost := rfl
@[simp] theorem State.setContext_evProd (x : State) (y : Context) : (x.setContext y).evProd = x.evProd := rfl
@[simp] theorem State.setContext_freezeLog (x : State) (y : Context) : (x.setContext y).freezeLog = x.freezeLog := rfl
@[simp] theorem State.setContext_hostTouched (x : State) (y : Context) : (x.setContext y).hostTouched = x.hostTouched := rfl
@[simp] theorem State.setContext_hostReplies (x : State) (y : Context) : (x.setContext y).hostReplies = x.hostReplies := rfl
@[simp] theorem State.setContext_frozenFns (x : State) (y : Context) : (x.setContext y).frozenFns = x.frozenFns := rfl
@[simp] theorem State.setContext_frozenPeers (x : State) (y : Context) : (x.setContext y).frozenPeers = x.frozenPeers := rfl
@[simp] theorem State.setContext_svfuse (x : State) (y : Context) : (x.setContext y).svfuse = x.svfuse := rfl
@[simp] theorem State.setContext_keys (x : State) (y : Context) : (x.setContext y).keys = x.keys := rfl
@[simp] theorem State.setContext_tests (x : State) (y : Context) : (x.setContext y).tests = x.tests := rfl
@[simp] theorem State.setContext_stages (x : State) (y : Context) : (x.setContext y).stages = x.stages := rfl
@[simp] theorem State.setContext_passing (x : State) (y : Context) : (x.setContext y).passing = x.passing := rfl
@[simp] theorem State.setContext_cache (x : State) (y : Context) : (x.setContext y).cache = x.cache := rfl
@[simp] theorem State.setContext_invals (x : State) (y : Context) : (x.setContext y).invals = x.invals := rfl

/-! ## Fields of a core -/

/-! ### Core.setCfg -/

@[simp] theorem Core.setCfg_motif (x : Core) (n : Nat) (v : W64) : (x.setCfg n v).motif = x.motif := rfl
@[simp] theorem Core.setCfg_ctx (x : Core) (n : Nat) (v : W64) : (x.setCfg n v).ctx = x.ctx := rfl
@[simp] theorem Core.setCfg_share (x : Core) (n : Nat) (v : W64) : (x.setCfg n v).share = x.share := rfl
@[simp] theorem Core.setCfg_scratch (x : Core) (n : Nat) (v : W64) : (x.setCfg n v).scratch = x.scratch := rfl
@[simp] theorem Core.setCfg_gangs (x : Core) (n : Nat) (v : W64) : (x.setCfg n v).gangs = x.gangs := rfl
@[simp] theorem Core.setCfg_fcap (x : Core) (n : Nat) (v : W64) : (x.setCfg n v).fcap = x.fcap := rfl
@[simp] theorem Core.setCfg_ended (x : Core) (n : Nat) (v : W64) : (x.setCfg n v).ended = x.ended := rfl
@[simp] theorem Core.setCfg_bpc (x : Core) (n : Nat) (v : W64) : (x.setCfg n v).bpc = x.bpc := rfl
@[simp] theorem Core.setCfg_s (x : Core) (n : Nat) (v : W64) : (x.setCfg n v).s = x.s := rfl
@[simp] theorem Core.setCfg_exitPending (x : Core) (n : Nat) (v : W64) : (x.setCfg n v).exitPending = x.exitPending := rfl
@[simp] theorem Core.setCfg_stepOver (x : Core) (n : Nat) (v : W64) : (x.setCfg n v).stepOver = x.stepOver := rfl
@[simp] theorem Core.setCfg_waitsFrom (x : Core) (n : Nat) (v : W64) : (x.setCfg n v).waitsFrom = x.waitsFrom := rfl
@[simp] theorem Core.setCfg_waitsDue (x : Core) (n : Nat) (v : W64) : (x.setCfg n v).waitsDue = x.waitsDue := rfl
@[simp] theorem Core.setCfg_arrived (x : Core) (n : Nat) (v : W64) : (x.setCfg n v).arrived = x.arrived := rfl
@[simp] theorem Core.setCfg_prick (x : Core) (n : Nat) (v : W64) : (x.setCfg n v).prick = x.prick := rfl
@[simp] theorem Core.setCfg_tiles (x : Core) (n : Nat) (v : W64) : (x.setCfg n v).tiles = x.tiles := rfl
@[simp] theorem Core.setCfg_guard (x : Core) (n : Nat) (v : W64) : (x.setCfg n v).guard = x.guard := rfl
@[simp] theorem Core.setCfg_tileCmd (x : Core) (n : Nat) (v : W64) : (x.setCfg n v).tileCmd = x.tileCmd := rfl
@[simp] theorem Core.setCfg_mzeroAt (x : Core) (n : Nat) (v : W64) : (x.setCfg n v).mzeroAt = x.mzeroAt := rfl
@[simp] theorem Core.setCfg_mzeroFor (x : Core) (n : Nat) (v : W64) : (x.setCfg n v).mzeroFor = x.mzeroFor := rfl
@[simp] theorem Core.setCfg_refill (x : Core) (n : Nat) (v : W64) : (x.setCfg n v).refill = x.refill := rfl
@[simp] theorem Core.setCfg_saved (x : Core) (n : Nat) (v : W64) : (x.setCfg n v).saved = x.saved := rfl
@[simp] theorem Core.setCfg_tags (x : Core) (n : Nat) (v : W64) : (x.setCfg n v).tags = x.tags := rfl
@[simp] theorem Core.setCfg_ts (x : Core) (n : Nat) (v : W64) : (x.setCfg n v).ts = x.ts := rfl
@[simp] theorem Core.setCfg_tsPoison (x : Core) (n : Nat) (v : W64) : (x.setCfg n v).tsPoison = x.tsPoison := rfl
@[simp] theorem Core.setCfg_vold (x : Core) (n : Nat) (v : W64) : (x.setCfg n v).vold = x.vold := rfl
@[simp] theorem Core.setCfg_eyes (x : Core) (n : Nat) (v : W64) : (x.setCfg n v).eyes = x.eyes := rfl
@[simp] theorem Core.setCfg_gang (x : Core) (n : Nat) (v : W64) : (x.setCfg n v).gang = x.gang := rfl
@[simp] theorem Core.setCfg_nextId (x : Core) (n : Nat) (v : W64) : (x.setCfg n v).nextId = x.nextId := rfl
@[simp] theorem Core.setCfg_buf (x : Core) (n : Nat) (v : W64) : (x.setCfg n v).buf = x.buf := rfl
@[simp] theorem Core.setCfg_hdeps (x : Core) (n : Nat) (v : W64) : (x.setCfg n v).hdeps = x.hdeps := rfl
@[simp] theorem Core.setCfg_issued (x : Core) (n : Nat) (v : W64) : (x.setCfg n v).issued = x.issued := rfl
@[simp] theorem Core.setCfg_kcmds (x : Core) (n : Nat) (v : W64) : (x.setCfg n v).kcmds = x.kcmds := rfl
@[simp] theorem Core.setCfg_mcmds (x : Core) (n : Nat) (v : W64) : (x.setCfg n v).mcmds = x.mcmds := rfl
@[simp] theorem Core.setCfg_failures (x : Core) (n : Nat) (v : W64) : (x.setCfg n v).failures = x.failures := rfl
@[simp] theorem Core.setCfg_notices (x : Core) (n : Nat) (v : W64) : (x.setCfg n v).notices = x.notices := rfl
@[simp] theorem Core.setCfg_reply (x : Core) (n : Nat) (v : W64) : (x.setCfg n v).reply = x.reply := rfl
@[simp] theorem Core.setCfg_lastLen (x : Core) (n : Nat) (v : W64) : (x.setCfg n v).lastLen = x.lastLen := rfl
@[simp] theorem Core.setCfg_producers (x : Core) (n : Nat) (v : W64) : (x.setCfg n v).producers = x.producers := rfl
@[simp] theorem Core.setCfg_upk (x : Core) (n : Nat) (v : W64) : (x.setCfg n v).upk = x.upk := rfl
@[simp] theorem Core.setCfg_first (x : Core) (n : Nat) (v : W64) : (x.setCfg n v).first = x.first := rfl
@[simp] theorem Core.setCfg_trans (x : Core) (n : Nat) (v : W64) : (x.setCfg n v).trans = x.trans := rfl
@[simp] theorem Core.setCfg_bcache (x : Core) (n : Nat) (v : W64) : (x.setCfg n v).bcache = x.bcache := rfl
@[simp] theorem Core.setCfg_lcache (x : Core) (n : Nat) (v : W64) : (x.setCfg n v).lcache = x.lcache := rfl
@[simp] theorem Core.setCfg_halt (x : Core) (n : Nat) (v : W64) : (x.setCfg n v).halt = x.halt := rfl
@[simp] theorem Core.setCfg_skid (x : Core) (n : Nat) (v : W64) : (x.setCfg n v).skid = x.skid := rfl
@[simp] theorem Core.setCfg_seqStopped (x : Core) (n : Nat) (v : W64) : (x.setCfg n v).seqStopped = x.seqStopped := rfl
@[simp] theorem Core.setCfg_debug (x : Core) (n : Nat) (v : W64) : (x.setCfg n v).debug = x.debug := rfl
@[simp] theorem Core.setCfg_selvedge (x : Core) (n : Nat) (v : W64) : (x.setCfg n v).selvedge = x.selvedge := rfl
@[simp] theorem Core.setCfg_frozen (x : Core) (n : Nat) (v : W64) : (x.setCfg n v).frozen = x.frozen := rfl
@[simp] theorem Core.setCfg_frozenCh (x : Core) (n : Nat) (v : W64) : (x.setCfg n v).frozenCh = x.frozenCh := rfl
@[simp] theorem Core.setCfg_credit (x : Core) (n : Nat) (v : W64) : (x.setCfg n v).credit = x.credit := rfl
@[simp] theorem Core.setCfg_cycles (x : Core) (n : Nat) (v : W64) : (x.setCfg n v).cycles = x.cycles := rfl
@[simp] theorem Core.setCfg_weight (x : Core) (n : Nat) (v : W64) : (x.setCfg n v).weight = x.weight := rfl
@[simp] theorem Core.setCfg_vcyc (x : Core) (n : Nat) (v : W64) : (x.setCfg n v).vcyc = x.vcyc := rfl
@[simp] theorem Core.setCfg_sfuLast (x : Core) (n : Nat) (v : W64) : (x.setCfg n v).sfuLast = x.sfuLast := rfl
@[simp] theorem Core.setCfg_lsuLast (x : Core) (n : Nat) (v : W64) : (x.setCfg n v).lsuLast = x.lsuLast := rfl
@[simp] theorem Core.setCfg_plimNext (x : Core) (n : Nat) (v : W64) : (x.setCfg n v).plimNext = x.plimNext := rfl
@[simp] theorem Core.setCfg_refilled (x : Core) (n : Nat) (v : W64) : (x.setCfg n v).refilled = x.refilled := rfl
@[simp] theorem Core.setCfg_bpcRef (x : Core) (n : Nat) (v : W64) : (x.setCfg n v).bpcRef = x.bpcRef := rfl
@[simp] theorem Core.setCfg_waitsOn (x : Core) (n : Nat) (v : W64) : (x.setCfg n v).waitsOn = x.waitsOn := rfl
@[simp] theorem Core.setCfg_waitsHeld (x : Core) (n : Nat) (v : W64) : (x.setCfg n v).waitsHeld = x.waitsHeld := rfl
@[simp] theorem Core.setCfg_ahead (x : Core) (n : Nat) (v : W64) : (x.setCfg n v).ahead = x.ahead := rfl

/-! ### Core.setS -/

@[simp] theorem Core.setS_motif (x : Core) (n : Nat) (v : W64) : (x.setS n v).motif = x.motif := rfl
@[simp] theorem Core.setS_ctx (x : Core) (n : Nat) (v : W64) : (x.setS n v).ctx = x.ctx := rfl
@[simp] theorem Core.setS_share (x : Core) (n : Nat) (v : W64) : (x.setS n v).share = x.share := rfl
@[simp] theorem Core.setS_scratch (x : Core) (n : Nat) (v : W64) : (x.setS n v).scratch = x.scratch := rfl
@[simp] theorem Core.setS_gangs (x : Core) (n : Nat) (v : W64) : (x.setS n v).gangs = x.gangs := rfl
@[simp] theorem Core.setS_fcap (x : Core) (n : Nat) (v : W64) : (x.setS n v).fcap = x.fcap := rfl
@[simp] theorem Core.setS_ended (x : Core) (n : Nat) (v : W64) : (x.setS n v).ended = x.ended := rfl
@[simp] theorem Core.setS_bpc (x : Core) (n : Nat) (v : W64) : (x.setS n v).bpc = x.bpc := rfl
@[simp] theorem Core.setS_cfg (x : Core) (n : Nat) (v : W64) : (x.setS n v).cfg = x.cfg := rfl
@[simp] theorem Core.setS_exitPending (x : Core) (n : Nat) (v : W64) : (x.setS n v).exitPending = x.exitPending := rfl
@[simp] theorem Core.setS_stepOver (x : Core) (n : Nat) (v : W64) : (x.setS n v).stepOver = x.stepOver := rfl
@[simp] theorem Core.setS_waitsFrom (x : Core) (n : Nat) (v : W64) : (x.setS n v).waitsFrom = x.waitsFrom := rfl
@[simp] theorem Core.setS_waitsDue (x : Core) (n : Nat) (v : W64) : (x.setS n v).waitsDue = x.waitsDue := rfl
@[simp] theorem Core.setS_arrived (x : Core) (n : Nat) (v : W64) : (x.setS n v).arrived = x.arrived := rfl
@[simp] theorem Core.setS_prick (x : Core) (n : Nat) (v : W64) : (x.setS n v).prick = x.prick := rfl
@[simp] theorem Core.setS_tiles (x : Core) (n : Nat) (v : W64) : (x.setS n v).tiles = x.tiles := rfl
@[simp] theorem Core.setS_guard (x : Core) (n : Nat) (v : W64) : (x.setS n v).guard = x.guard := rfl
@[simp] theorem Core.setS_tileCmd (x : Core) (n : Nat) (v : W64) : (x.setS n v).tileCmd = x.tileCmd := rfl
@[simp] theorem Core.setS_mzeroAt (x : Core) (n : Nat) (v : W64) : (x.setS n v).mzeroAt = x.mzeroAt := rfl
@[simp] theorem Core.setS_mzeroFor (x : Core) (n : Nat) (v : W64) : (x.setS n v).mzeroFor = x.mzeroFor := rfl
@[simp] theorem Core.setS_refill (x : Core) (n : Nat) (v : W64) : (x.setS n v).refill = x.refill := rfl
@[simp] theorem Core.setS_saved (x : Core) (n : Nat) (v : W64) : (x.setS n v).saved = x.saved := rfl
@[simp] theorem Core.setS_tags (x : Core) (n : Nat) (v : W64) : (x.setS n v).tags = x.tags := rfl
@[simp] theorem Core.setS_ts (x : Core) (n : Nat) (v : W64) : (x.setS n v).ts = x.ts := rfl
@[simp] theorem Core.setS_tsPoison (x : Core) (n : Nat) (v : W64) : (x.setS n v).tsPoison = x.tsPoison := rfl
@[simp] theorem Core.setS_vold (x : Core) (n : Nat) (v : W64) : (x.setS n v).vold = x.vold := rfl
@[simp] theorem Core.setS_eyes (x : Core) (n : Nat) (v : W64) : (x.setS n v).eyes = x.eyes := rfl
@[simp] theorem Core.setS_gang (x : Core) (n : Nat) (v : W64) : (x.setS n v).gang = x.gang := rfl
@[simp] theorem Core.setS_nextId (x : Core) (n : Nat) (v : W64) : (x.setS n v).nextId = x.nextId := rfl
@[simp] theorem Core.setS_buf (x : Core) (n : Nat) (v : W64) : (x.setS n v).buf = x.buf := rfl
@[simp] theorem Core.setS_hdeps (x : Core) (n : Nat) (v : W64) : (x.setS n v).hdeps = x.hdeps := rfl
@[simp] theorem Core.setS_issued (x : Core) (n : Nat) (v : W64) : (x.setS n v).issued = x.issued := rfl
@[simp] theorem Core.setS_kcmds (x : Core) (n : Nat) (v : W64) : (x.setS n v).kcmds = x.kcmds := rfl
@[simp] theorem Core.setS_mcmds (x : Core) (n : Nat) (v : W64) : (x.setS n v).mcmds = x.mcmds := rfl
@[simp] theorem Core.setS_failures (x : Core) (n : Nat) (v : W64) : (x.setS n v).failures = x.failures := rfl
@[simp] theorem Core.setS_notices (x : Core) (n : Nat) (v : W64) : (x.setS n v).notices = x.notices := rfl
@[simp] theorem Core.setS_reply (x : Core) (n : Nat) (v : W64) : (x.setS n v).reply = x.reply := rfl
@[simp] theorem Core.setS_lastLen (x : Core) (n : Nat) (v : W64) : (x.setS n v).lastLen = x.lastLen := rfl
@[simp] theorem Core.setS_producers (x : Core) (n : Nat) (v : W64) : (x.setS n v).producers = x.producers := rfl
@[simp] theorem Core.setS_upk (x : Core) (n : Nat) (v : W64) : (x.setS n v).upk = x.upk := rfl
@[simp] theorem Core.setS_first (x : Core) (n : Nat) (v : W64) : (x.setS n v).first = x.first := rfl
@[simp] theorem Core.setS_trans (x : Core) (n : Nat) (v : W64) : (x.setS n v).trans = x.trans := rfl
@[simp] theorem Core.setS_bcache (x : Core) (n : Nat) (v : W64) : (x.setS n v).bcache = x.bcache := rfl
@[simp] theorem Core.setS_lcache (x : Core) (n : Nat) (v : W64) : (x.setS n v).lcache = x.lcache := rfl
@[simp] theorem Core.setS_halt (x : Core) (n : Nat) (v : W64) : (x.setS n v).halt = x.halt := rfl
@[simp] theorem Core.setS_skid (x : Core) (n : Nat) (v : W64) : (x.setS n v).skid = x.skid := rfl
@[simp] theorem Core.setS_seqStopped (x : Core) (n : Nat) (v : W64) : (x.setS n v).seqStopped = x.seqStopped := rfl
@[simp] theorem Core.setS_debug (x : Core) (n : Nat) (v : W64) : (x.setS n v).debug = x.debug := rfl
@[simp] theorem Core.setS_selvedge (x : Core) (n : Nat) (v : W64) : (x.setS n v).selvedge = x.selvedge := rfl
@[simp] theorem Core.setS_frozen (x : Core) (n : Nat) (v : W64) : (x.setS n v).frozen = x.frozen := rfl
@[simp] theorem Core.setS_frozenCh (x : Core) (n : Nat) (v : W64) : (x.setS n v).frozenCh = x.frozenCh := rfl
@[simp] theorem Core.setS_credit (x : Core) (n : Nat) (v : W64) : (x.setS n v).credit = x.credit := rfl
@[simp] theorem Core.setS_cycles (x : Core) (n : Nat) (v : W64) : (x.setS n v).cycles = x.cycles := rfl
@[simp] theorem Core.setS_weight (x : Core) (n : Nat) (v : W64) : (x.setS n v).weight = x.weight := rfl
@[simp] theorem Core.setS_vcyc (x : Core) (n : Nat) (v : W64) : (x.setS n v).vcyc = x.vcyc := rfl
@[simp] theorem Core.setS_sfuLast (x : Core) (n : Nat) (v : W64) : (x.setS n v).sfuLast = x.sfuLast := rfl
@[simp] theorem Core.setS_lsuLast (x : Core) (n : Nat) (v : W64) : (x.setS n v).lsuLast = x.lsuLast := rfl
@[simp] theorem Core.setS_plimNext (x : Core) (n : Nat) (v : W64) : (x.setS n v).plimNext = x.plimNext := rfl
@[simp] theorem Core.setS_refilled (x : Core) (n : Nat) (v : W64) : (x.setS n v).refilled = x.refilled := rfl
@[simp] theorem Core.setS_bpcRef (x : Core) (n : Nat) (v : W64) : (x.setS n v).bpcRef = x.bpcRef := rfl
@[simp] theorem Core.setS_waitsOn (x : Core) (n : Nat) (v : W64) : (x.setS n v).waitsOn = x.waitsOn := rfl
@[simp] theorem Core.setS_waitsHeld (x : Core) (n : Nat) (v : W64) : (x.setS n v).waitsHeld = x.waitsHeld := rfl
@[simp] theorem Core.setS_ahead (x : Core) (n : Nat) (v : W64) : (x.setS n v).ahead = x.ahead := rfl

/-! ### Core.setGang -/

@[simp] theorem Core.setGang_motif (x : Core) (g : Nat) (y : Gang) : (x.setGang g y).motif = x.motif := rfl
@[simp] theorem Core.setGang_ctx (x : Core) (g : Nat) (y : Gang) : (x.setGang g y).ctx = x.ctx := rfl
@[simp] theorem Core.setGang_share (x : Core) (g : Nat) (y : Gang) : (x.setGang g y).share = x.share := rfl
@[simp] theorem Core.setGang_scratch (x : Core) (g : Nat) (y : Gang) : (x.setGang g y).scratch = x.scratch := rfl
@[simp] theorem Core.setGang_gangs (x : Core) (g : Nat) (y : Gang) : (x.setGang g y).gangs = x.gangs := rfl
@[simp] theorem Core.setGang_fcap (x : Core) (g : Nat) (y : Gang) : (x.setGang g y).fcap = x.fcap := rfl
@[simp] theorem Core.setGang_ended (x : Core) (g : Nat) (y : Gang) : (x.setGang g y).ended = x.ended := rfl
@[simp] theorem Core.setGang_bpc (x : Core) (g : Nat) (y : Gang) : (x.setGang g y).bpc = x.bpc := rfl
@[simp] theorem Core.setGang_s (x : Core) (g : Nat) (y : Gang) : (x.setGang g y).s = x.s := rfl
@[simp] theorem Core.setGang_cfg (x : Core) (g : Nat) (y : Gang) : (x.setGang g y).cfg = x.cfg := rfl
@[simp] theorem Core.setGang_exitPending (x : Core) (g : Nat) (y : Gang) : (x.setGang g y).exitPending = x.exitPending := rfl
@[simp] theorem Core.setGang_stepOver (x : Core) (g : Nat) (y : Gang) : (x.setGang g y).stepOver = x.stepOver := rfl
@[simp] theorem Core.setGang_waitsFrom (x : Core) (g : Nat) (y : Gang) : (x.setGang g y).waitsFrom = x.waitsFrom := rfl
@[simp] theorem Core.setGang_waitsDue (x : Core) (g : Nat) (y : Gang) : (x.setGang g y).waitsDue = x.waitsDue := rfl
@[simp] theorem Core.setGang_arrived (x : Core) (g : Nat) (y : Gang) : (x.setGang g y).arrived = x.arrived := rfl
@[simp] theorem Core.setGang_prick (x : Core) (g : Nat) (y : Gang) : (x.setGang g y).prick = x.prick := rfl
@[simp] theorem Core.setGang_tiles (x : Core) (g : Nat) (y : Gang) : (x.setGang g y).tiles = x.tiles := rfl
@[simp] theorem Core.setGang_guard (x : Core) (g : Nat) (y : Gang) : (x.setGang g y).guard = x.guard := rfl
@[simp] theorem Core.setGang_tileCmd (x : Core) (g : Nat) (y : Gang) : (x.setGang g y).tileCmd = x.tileCmd := rfl
@[simp] theorem Core.setGang_mzeroAt (x : Core) (g : Nat) (y : Gang) : (x.setGang g y).mzeroAt = x.mzeroAt := rfl
@[simp] theorem Core.setGang_mzeroFor (x : Core) (g : Nat) (y : Gang) : (x.setGang g y).mzeroFor = x.mzeroFor := rfl
@[simp] theorem Core.setGang_refill (x : Core) (g : Nat) (y : Gang) : (x.setGang g y).refill = x.refill := rfl
@[simp] theorem Core.setGang_saved (x : Core) (g : Nat) (y : Gang) : (x.setGang g y).saved = x.saved := rfl
@[simp] theorem Core.setGang_tags (x : Core) (g : Nat) (y : Gang) : (x.setGang g y).tags = x.tags := rfl
@[simp] theorem Core.setGang_ts (x : Core) (g : Nat) (y : Gang) : (x.setGang g y).ts = x.ts := rfl
@[simp] theorem Core.setGang_tsPoison (x : Core) (g : Nat) (y : Gang) : (x.setGang g y).tsPoison = x.tsPoison := rfl
@[simp] theorem Core.setGang_vold (x : Core) (g : Nat) (y : Gang) : (x.setGang g y).vold = x.vold := rfl
@[simp] theorem Core.setGang_eyes (x : Core) (g : Nat) (y : Gang) : (x.setGang g y).eyes = x.eyes := rfl
@[simp] theorem Core.setGang_nextId (x : Core) (g : Nat) (y : Gang) : (x.setGang g y).nextId = x.nextId := rfl
@[simp] theorem Core.setGang_buf (x : Core) (g : Nat) (y : Gang) : (x.setGang g y).buf = x.buf := rfl
@[simp] theorem Core.setGang_hdeps (x : Core) (g : Nat) (y : Gang) : (x.setGang g y).hdeps = x.hdeps := rfl
@[simp] theorem Core.setGang_issued (x : Core) (g : Nat) (y : Gang) : (x.setGang g y).issued = x.issued := rfl
@[simp] theorem Core.setGang_kcmds (x : Core) (g : Nat) (y : Gang) : (x.setGang g y).kcmds = x.kcmds := rfl
@[simp] theorem Core.setGang_mcmds (x : Core) (g : Nat) (y : Gang) : (x.setGang g y).mcmds = x.mcmds := rfl
@[simp] theorem Core.setGang_failures (x : Core) (g : Nat) (y : Gang) : (x.setGang g y).failures = x.failures := rfl
@[simp] theorem Core.setGang_notices (x : Core) (g : Nat) (y : Gang) : (x.setGang g y).notices = x.notices := rfl
@[simp] theorem Core.setGang_reply (x : Core) (g : Nat) (y : Gang) : (x.setGang g y).reply = x.reply := rfl
@[simp] theorem Core.setGang_lastLen (x : Core) (g : Nat) (y : Gang) : (x.setGang g y).lastLen = x.lastLen := rfl
@[simp] theorem Core.setGang_producers (x : Core) (g : Nat) (y : Gang) : (x.setGang g y).producers = x.producers := rfl
@[simp] theorem Core.setGang_upk (x : Core) (g : Nat) (y : Gang) : (x.setGang g y).upk = x.upk := rfl
@[simp] theorem Core.setGang_first (x : Core) (g : Nat) (y : Gang) : (x.setGang g y).first = x.first := rfl
@[simp] theorem Core.setGang_trans (x : Core) (g : Nat) (y : Gang) : (x.setGang g y).trans = x.trans := rfl
@[simp] theorem Core.setGang_bcache (x : Core) (g : Nat) (y : Gang) : (x.setGang g y).bcache = x.bcache := rfl
@[simp] theorem Core.setGang_lcache (x : Core) (g : Nat) (y : Gang) : (x.setGang g y).lcache = x.lcache := rfl
@[simp] theorem Core.setGang_halt (x : Core) (g : Nat) (y : Gang) : (x.setGang g y).halt = x.halt := rfl
@[simp] theorem Core.setGang_skid (x : Core) (g : Nat) (y : Gang) : (x.setGang g y).skid = x.skid := rfl
@[simp] theorem Core.setGang_seqStopped (x : Core) (g : Nat) (y : Gang) : (x.setGang g y).seqStopped = x.seqStopped := rfl
@[simp] theorem Core.setGang_debug (x : Core) (g : Nat) (y : Gang) : (x.setGang g y).debug = x.debug := rfl
@[simp] theorem Core.setGang_selvedge (x : Core) (g : Nat) (y : Gang) : (x.setGang g y).selvedge = x.selvedge := rfl
@[simp] theorem Core.setGang_frozen (x : Core) (g : Nat) (y : Gang) : (x.setGang g y).frozen = x.frozen := rfl
@[simp] theorem Core.setGang_frozenCh (x : Core) (g : Nat) (y : Gang) : (x.setGang g y).frozenCh = x.frozenCh := rfl
@[simp] theorem Core.setGang_credit (x : Core) (g : Nat) (y : Gang) : (x.setGang g y).credit = x.credit := rfl
@[simp] theorem Core.setGang_cycles (x : Core) (g : Nat) (y : Gang) : (x.setGang g y).cycles = x.cycles := rfl
@[simp] theorem Core.setGang_weight (x : Core) (g : Nat) (y : Gang) : (x.setGang g y).weight = x.weight := rfl
@[simp] theorem Core.setGang_vcyc (x : Core) (g : Nat) (y : Gang) : (x.setGang g y).vcyc = x.vcyc := rfl
@[simp] theorem Core.setGang_sfuLast (x : Core) (g : Nat) (y : Gang) : (x.setGang g y).sfuLast = x.sfuLast := rfl
@[simp] theorem Core.setGang_lsuLast (x : Core) (g : Nat) (y : Gang) : (x.setGang g y).lsuLast = x.lsuLast := rfl
@[simp] theorem Core.setGang_plimNext (x : Core) (g : Nat) (y : Gang) : (x.setGang g y).plimNext = x.plimNext := rfl
@[simp] theorem Core.setGang_refilled (x : Core) (g : Nat) (y : Gang) : (x.setGang g y).refilled = x.refilled := rfl
@[simp] theorem Core.setGang_bpcRef (x : Core) (g : Nat) (y : Gang) : (x.setGang g y).bpcRef = x.bpcRef := rfl
@[simp] theorem Core.setGang_waitsOn (x : Core) (g : Nat) (y : Gang) : (x.setGang g y).waitsOn = x.waitsOn := rfl
@[simp] theorem Core.setGang_waitsHeld (x : Core) (g : Nat) (y : Gang) : (x.setGang g y).waitsHeld = x.waitsHeld := rfl
@[simp] theorem Core.setGang_ahead (x : Core) (g : Nat) (y : Gang) : (x.setGang g y).ahead = x.ahead := rfl

/-! ### Core.setBpc -/

@[simp] theorem Core.setBpc_motif (x : Core) (a : Nat) : (x.setBpc a).motif = x.motif := rfl
@[simp] theorem Core.setBpc_ctx (x : Core) (a : Nat) : (x.setBpc a).ctx = x.ctx := rfl
@[simp] theorem Core.setBpc_share (x : Core) (a : Nat) : (x.setBpc a).share = x.share := rfl
@[simp] theorem Core.setBpc_scratch (x : Core) (a : Nat) : (x.setBpc a).scratch = x.scratch := rfl
@[simp] theorem Core.setBpc_gangs (x : Core) (a : Nat) : (x.setBpc a).gangs = x.gangs := rfl
@[simp] theorem Core.setBpc_fcap (x : Core) (a : Nat) : (x.setBpc a).fcap = x.fcap := rfl
@[simp] theorem Core.setBpc_ended (x : Core) (a : Nat) : (x.setBpc a).ended = x.ended := rfl
@[simp] theorem Core.setBpc_bpc (x : Core) (a : Nat) : (x.setBpc a).bpc = a := rfl
@[simp] theorem Core.setBpc_s (x : Core) (a : Nat) : (x.setBpc a).s = x.s := rfl
@[simp] theorem Core.setBpc_cfg (x : Core) (a : Nat) : (x.setBpc a).cfg = x.cfg := rfl
@[simp] theorem Core.setBpc_exitPending (x : Core) (a : Nat) : (x.setBpc a).exitPending = x.exitPending := rfl
@[simp] theorem Core.setBpc_stepOver (x : Core) (a : Nat) : (x.setBpc a).stepOver = x.stepOver := rfl
@[simp] theorem Core.setBpc_waitsFrom (x : Core) (a : Nat) : (x.setBpc a).waitsFrom = x.waitsFrom := rfl
@[simp] theorem Core.setBpc_waitsDue (x : Core) (a : Nat) : (x.setBpc a).waitsDue = x.waitsDue := rfl
@[simp] theorem Core.setBpc_arrived (x : Core) (a : Nat) : (x.setBpc a).arrived = x.arrived := rfl
@[simp] theorem Core.setBpc_prick (x : Core) (a : Nat) : (x.setBpc a).prick = x.prick := rfl
@[simp] theorem Core.setBpc_tiles (x : Core) (a : Nat) : (x.setBpc a).tiles = x.tiles := rfl
@[simp] theorem Core.setBpc_guard (x : Core) (a : Nat) : (x.setBpc a).guard = x.guard := rfl
@[simp] theorem Core.setBpc_tileCmd (x : Core) (a : Nat) : (x.setBpc a).tileCmd = x.tileCmd := rfl
@[simp] theorem Core.setBpc_mzeroAt (x : Core) (a : Nat) : (x.setBpc a).mzeroAt = x.mzeroAt := rfl
@[simp] theorem Core.setBpc_mzeroFor (x : Core) (a : Nat) : (x.setBpc a).mzeroFor = x.mzeroFor := rfl
@[simp] theorem Core.setBpc_refill (x : Core) (a : Nat) : (x.setBpc a).refill = x.refill := rfl
@[simp] theorem Core.setBpc_saved (x : Core) (a : Nat) : (x.setBpc a).saved = x.saved := rfl
@[simp] theorem Core.setBpc_tags (x : Core) (a : Nat) : (x.setBpc a).tags = x.tags := rfl
@[simp] theorem Core.setBpc_ts (x : Core) (a : Nat) : (x.setBpc a).ts = x.ts := rfl
@[simp] theorem Core.setBpc_tsPoison (x : Core) (a : Nat) : (x.setBpc a).tsPoison = x.tsPoison := rfl
@[simp] theorem Core.setBpc_vold (x : Core) (a : Nat) : (x.setBpc a).vold = x.vold := rfl
@[simp] theorem Core.setBpc_eyes (x : Core) (a : Nat) : (x.setBpc a).eyes = x.eyes := rfl
@[simp] theorem Core.setBpc_gang (x : Core) (a : Nat) : (x.setBpc a).gang = x.gang := rfl
@[simp] theorem Core.setBpc_nextId (x : Core) (a : Nat) : (x.setBpc a).nextId = x.nextId := rfl
@[simp] theorem Core.setBpc_buf (x : Core) (a : Nat) : (x.setBpc a).buf = x.buf := rfl
@[simp] theorem Core.setBpc_hdeps (x : Core) (a : Nat) : (x.setBpc a).hdeps = x.hdeps := rfl
@[simp] theorem Core.setBpc_issued (x : Core) (a : Nat) : (x.setBpc a).issued = x.issued := rfl
@[simp] theorem Core.setBpc_kcmds (x : Core) (a : Nat) : (x.setBpc a).kcmds = x.kcmds := rfl
@[simp] theorem Core.setBpc_mcmds (x : Core) (a : Nat) : (x.setBpc a).mcmds = x.mcmds := rfl
@[simp] theorem Core.setBpc_failures (x : Core) (a : Nat) : (x.setBpc a).failures = x.failures := rfl
@[simp] theorem Core.setBpc_notices (x : Core) (a : Nat) : (x.setBpc a).notices = x.notices := rfl
@[simp] theorem Core.setBpc_reply (x : Core) (a : Nat) : (x.setBpc a).reply = x.reply := rfl
@[simp] theorem Core.setBpc_lastLen (x : Core) (a : Nat) : (x.setBpc a).lastLen = x.lastLen := rfl
@[simp] theorem Core.setBpc_producers (x : Core) (a : Nat) : (x.setBpc a).producers = x.producers := rfl
@[simp] theorem Core.setBpc_upk (x : Core) (a : Nat) : (x.setBpc a).upk = x.upk := rfl
@[simp] theorem Core.setBpc_first (x : Core) (a : Nat) : (x.setBpc a).first = x.first := rfl
@[simp] theorem Core.setBpc_trans (x : Core) (a : Nat) : (x.setBpc a).trans = x.trans := rfl
@[simp] theorem Core.setBpc_bcache (x : Core) (a : Nat) : (x.setBpc a).bcache = x.bcache := rfl
@[simp] theorem Core.setBpc_lcache (x : Core) (a : Nat) : (x.setBpc a).lcache = x.lcache := rfl
@[simp] theorem Core.setBpc_halt (x : Core) (a : Nat) : (x.setBpc a).halt = x.halt := rfl
@[simp] theorem Core.setBpc_skid (x : Core) (a : Nat) : (x.setBpc a).skid = x.skid := rfl
@[simp] theorem Core.setBpc_seqStopped (x : Core) (a : Nat) : (x.setBpc a).seqStopped = x.seqStopped := rfl
@[simp] theorem Core.setBpc_debug (x : Core) (a : Nat) : (x.setBpc a).debug = x.debug := rfl
@[simp] theorem Core.setBpc_selvedge (x : Core) (a : Nat) : (x.setBpc a).selvedge = x.selvedge := rfl
@[simp] theorem Core.setBpc_frozen (x : Core) (a : Nat) : (x.setBpc a).frozen = x.frozen := rfl
@[simp] theorem Core.setBpc_frozenCh (x : Core) (a : Nat) : (x.setBpc a).frozenCh = x.frozenCh := rfl
@[simp] theorem Core.setBpc_credit (x : Core) (a : Nat) : (x.setBpc a).credit = x.credit := rfl
@[simp] theorem Core.setBpc_cycles (x : Core) (a : Nat) : (x.setBpc a).cycles = x.cycles := rfl
@[simp] theorem Core.setBpc_weight (x : Core) (a : Nat) : (x.setBpc a).weight = x.weight := rfl
@[simp] theorem Core.setBpc_vcyc (x : Core) (a : Nat) : (x.setBpc a).vcyc = x.vcyc := rfl
@[simp] theorem Core.setBpc_sfuLast (x : Core) (a : Nat) : (x.setBpc a).sfuLast = x.sfuLast := rfl
@[simp] theorem Core.setBpc_lsuLast (x : Core) (a : Nat) : (x.setBpc a).lsuLast = x.lsuLast := rfl
@[simp] theorem Core.setBpc_plimNext (x : Core) (a : Nat) : (x.setBpc a).plimNext = x.plimNext := rfl
@[simp] theorem Core.setBpc_refilled (x : Core) (a : Nat) : (x.setBpc a).refilled = x.refilled := rfl
@[simp] theorem Core.setBpc_bpcRef (x : Core) (a : Nat) : (x.setBpc a).bpcRef = x.bpcRef := rfl
@[simp] theorem Core.setBpc_waitsOn (x : Core) (a : Nat) : (x.setBpc a).waitsOn = x.waitsOn := rfl
@[simp] theorem Core.setBpc_waitsHeld (x : Core) (a : Nat) : (x.setBpc a).waitsHeld = x.waitsHeld := rfl
@[simp] theorem Core.setBpc_ahead (x : Core) (a : Nat) : (x.setBpc a).ahead = x.ahead := rfl
@[simp] theorem Core.sAt_setBpc (k : Core) (a r : Nat) : (k.setBpc a).sAt r = k.sAt r := rfl
@[simp] theorem Core.cfgAt_setBpc (k : Core) (a n : Nat) : (k.setBpc a).cfgAt n = k.cfgAt n := rfl
@[simp] theorem Core.gangAt_setBpc (k : Core) (a g : Nat) : (k.setBpc a).gangAt g = k.gangAt g := rfl

/-! ## Fields of a gang -/

/-! ### Gang.setFibre -/

@[simp] theorem Gang.setFibre_st (x : Gang) (l : Nat) (f : Fibre) : (x.setFibre l f).st = x.st := rfl
@[simp] theorem Gang.setFibre_depth (x : Gang) (l : Nat) (f : Fibre) : (x.setFibre l f).depth = x.depth := rfl
@[simp] theorem Gang.setFibre_gpri (x : Gang) (l : Nat) (f : Fibre) : (x.setFibre l f).gpri = x.gpri := rfl
@[simp] theorem Gang.setFibre_bound (x : Gang) (l : Nat) (f : Fibre) : (x.setFibre l f).bound = x.bound := rfl
@[simp] theorem Gang.setFibre_res (x : Gang) (l : Nat) (f : Fibre) : (x.setFibre l f).res = x.res := rfl
@[simp] theorem Gang.setFibre_base (x : Gang) (l : Nat) (f : Fibre) : (x.setFibre l f).base = x.base := rfl
@[simp] theorem Gang.setFibre_regs (x : Gang) (l : Nat) (f : Fibre) : (x.setFibre l f).regs = x.regs := rfl
@[simp] theorem Gang.setFibre_pend (x : Gang) (l : Nat) (f : Fibre) : (x.setFibre l f).pend = x.pend := rfl
@[simp] theorem Gang.setFibre_cycle (x : Gang) (l : Nat) (f : Fibre) : (x.setFibre l f).cycle = x.cycle := rfl
@[simp] theorem Gang.setFibre_cmd (x : Gang) (l : Nat) (f : Fibre) : (x.setFibre l f).cmd = x.cmd := rfl
@[simp] theorem Gang.setFibre_ops (x : Gang) (l : Nat) (f : Fibre) : (x.setFibre l f).ops = x.ops := rfl
@[simp] theorem Gang.setFibre_nested (x : Gang) (l : Nat) (f : Fibre) : (x.setFibre l f).nested = x.nested := rfl
@[simp] theorem Gang.setFibre_skid (x : Gang) (l : Nat) (f : Fibre) : (x.setFibre l f).skid = x.skid := rfl
@[simp] theorem Gang.setFibre_stopped (x : Gang) (l : Nat) (f : Fibre) : (x.setFibre l f).stopped = x.stopped := rfl
@[simp] theorem Gang.setFibre_restart (x : Gang) (l : Nat) (f : Fibre) : (x.setFibre l f).restart = x.restart := rfl
@[simp] theorem Gang.setFibre_stepOver (x : Gang) (l : Nat) (f : Fibre) : (x.setFibre l f).stepOver = x.stepOver := rfl

/-! ### Gang.setReg -/

@[simp] theorem Gang.setReg_st (x : Gang) (l r : Nat) (v : W32) : (x.setReg l r v).st = x.st := rfl
@[simp] theorem Gang.setReg_depth (x : Gang) (l r : Nat) (v : W32) : (x.setReg l r v).depth = x.depth := rfl
@[simp] theorem Gang.setReg_gpri (x : Gang) (l r : Nat) (v : W32) : (x.setReg l r v).gpri = x.gpri := rfl
@[simp] theorem Gang.setReg_bound (x : Gang) (l r : Nat) (v : W32) : (x.setReg l r v).bound = x.bound := rfl
@[simp] theorem Gang.setReg_res (x : Gang) (l r : Nat) (v : W32) : (x.setReg l r v).res = x.res := rfl
@[simp] theorem Gang.setReg_base (x : Gang) (l r : Nat) (v : W32) : (x.setReg l r v).base = x.base := rfl
@[simp] theorem Gang.setReg_fibres (x : Gang) (l r : Nat) (v : W32) : (x.setReg l r v).fibres = x.fibres := rfl
@[simp] theorem Gang.setReg_pend (x : Gang) (l r : Nat) (v : W32) : (x.setReg l r v).pend = x.pend := rfl
@[simp] theorem Gang.setReg_cycle (x : Gang) (l r : Nat) (v : W32) : (x.setReg l r v).cycle = x.cycle := rfl
@[simp] theorem Gang.setReg_cmd (x : Gang) (l r : Nat) (v : W32) : (x.setReg l r v).cmd = x.cmd := rfl
@[simp] theorem Gang.setReg_ops (x : Gang) (l r : Nat) (v : W32) : (x.setReg l r v).ops = x.ops := rfl
@[simp] theorem Gang.setReg_nested (x : Gang) (l r : Nat) (v : W32) : (x.setReg l r v).nested = x.nested := rfl
@[simp] theorem Gang.setReg_skid (x : Gang) (l r : Nat) (v : W32) : (x.setReg l r v).skid = x.skid := rfl
@[simp] theorem Gang.setReg_stopped (x : Gang) (l r : Nat) (v : W32) : (x.setReg l r v).stopped = x.stopped := rfl
@[simp] theorem Gang.setReg_restart (x : Gang) (l r : Nat) (v : W32) : (x.setReg l r v).restart = x.restart := rfl
@[simp] theorem Gang.setReg_stepOver (x : Gang) (l r : Nat) (v : W32) : (x.setReg l r v).stepOver = x.stepOver := rfl

end Sys2Proof.Machine
end

