-- ==== Sys2Proof/Laws/Issue.lean ====
section
/-! SUPPORT. The issue of a bundle of one slot: when it waits, when it traps, and what it leaves. -/
namespace Sys2Proof.Machine

variable {s : State} {c : Nat} {x : SlotSem}

/-- The bundle of one slot, with what the slot sees of itself. -/
abbrev soloMarks (s : State) (c : Nat) (x : SlotSem) : Env := marked (solo s c x.cls) [x]

@[simp] theorem marked_k (e : Env) (l : List SlotSem) : (marked e l).k = e.k := rfl
@[simp] theorem marked_c (e : Env) (l : List SlotSem) : (marked e l).c = e.c := rfl
@[simp] theorem marked_who (e : Env) (l : List SlotSem) : (marked e l).who = e.who := rfl
@[simp] theorem marked_pre (e : Env) (l : List SlotSem) : (marked e l).pre = e.pre := rfl
@[simp] theorem marked_base (e : Env) (l : List SlotSem) : (marked e l).base = e.base := rfl
@[simp] theorem marked_next (e : Env) (l : List SlotSem) : (marked e l).next = e.next := rfl
@[simp] theorem marked_drain (e : Env) (x : SlotSem) : (marked e [x]).drain = isDrain x.i := by
  simp [marked]
@[simp] theorem marked_cStore (e : Env) (x : SlotSem) : (marked e [x]).cStore = isSst x.i := by
  simp [marked]
@[simp] theorem solo_who (n : Nat) : (solo s c n).who = .seq := rfl
@[simp] theorem solo_pre (n : Nat) : (solo s c n).pre = s := rfl
@[simp] theorem solo_base (n : Nat) : (solo s c n).base = (s.core c).bpc := rfl

@[simp] theorem solo_k (n : Nat) : (solo s c n).k = s.core c := rfl
@[simp] theorem solo_c (n : Nat) : (solo s c n).c = c := rfl
@[simp] theorem solo_next (n : Nat) : (solo s c n).next = va57 ((s.core c).bpc + oneLen n) := rfl

theorem seqLive_of_canIssue (h : seqCanIssue s c = true) : seqLive s c = true := by
  simp only [seqCanIssue, Bool.and_eq_true] at h
  exact h.1.1

/-- A sequencer that may issue puts the slot through the bundle's checks. -/
theorem issueOne_eq (h : CanIssue s c) : issueOne x s = .next (issueSlots (solo s c x.cls) [x] s) := by
  obtain ⟨hf, hc⟩ := h
  have hl := seqLive_of_canIssue hc
  simp [issueOne, issueBundle, hf, Focus.core, hl, hc, selvHere]
  rfl

/-- A disabled slot is no operation (R60): the bundle issues and changes nothing else. -/
theorem issueOne_disabled (h : CanIssue s c) (hl : x.legal (s.core c) = true)
    (he : x.enabled (s.core c) = false) :
    issueOne x s = .next (issued s c (oneLen x.cls) 0 id) := by
  rw [issueOne_eq h]
  simp [issueSlots, hl, he, firstSome, ofClass, effBundle, runEff, logSlots, logNeed,
    countBundle, issued, issuedCore, State.modCore_eq]

/-- A slot that is legal, enabled and ready and whose checks stop it traps, or freezes its core. -/
theorem issueOne_stops {st : Stop} (h : CanIssue s c) (hl : x.legal (s.core c) = true)
    (he : x.enabled (s.core c) = true) (hr : x.ready (soloMarks s c x) s = true)
    (hc : x.check (soloMarks s c x) s = some st) : issueOne x s = .next (takeStop s c st) := by
  rw [issueOne_eq h]
  have hl' : x.legal (solo s c x.cls).k = true := hl
  have he' : SlotSem.enabled (solo s c x.cls).k x = true := he
  simp only [issueSlots, List.find?_cons, hl', Bool.not_true, List.find?_nil, List.filter_cons, he',
    if_true, List.filter_nil, List.all_cons, List.all_nil, Bool.and_true, List.map_cons, List.map_nil]
  rw [hr, hc]
  rfl

/-- A slot that is legal, enabled, ready and passes its checks takes effect with its bundle, unless its
log entry does not fit. -/
theorem issueOne_goes (h : CanIssue s c) (hl : x.legal (s.core c) = true)
    (he : x.enabled (s.core c) = true) (hr : x.ready (soloMarks s c x) s = true)
    (hc : x.check (soloMarks s c x) s = none)
    (hlog : x.cls = 0 ∨ recording (s.core c) [x] = false) :
    issueOne x s = .next (effBundle (soloMarks s c x) [x] s) := by
  rw [issueOne_eq h]
  have hl' : x.legal (solo s c x.cls).k = true := hl
  have he' : SlotSem.enabled (solo s c x.cls).k x = true := he
  simp only [issueSlots, List.find?_cons, hl', Bool.not_true, List.find?_nil, List.filter_cons, he',
    if_true, List.filter_nil, List.all_cons, List.all_nil, Bool.and_true, List.map_cons, List.map_nil]
  rw [hr, hc]
  rcases hlog with h0 | h0
  · have : ∀ n, n ≠ 0 → ofClass [x] n = [] := fun n hn => by simp [ofClass, h0, Ne.symm hn]
    simp [firstSome, this, logNeed]
  · simp [firstSome, h0]

/-- A C slot takes effect before the nest moves on. -/
theorem effBundle_c (h : x.cls = 0) (e : Env) (s : State) :
    effBundle e [x] s = x.post e (countBundle ((x.eff { e with logAt := none }
      (s.modCore e.c (·.setBpc e.next))).modCore e.c (nestEnd (lsRun e.k.lstat) e.next))
      e.c (x.weight e)) := by
  simp [effBundle, ofClass, h, runEff, logSlots]

/-- A V slot takes effect before the nest moves on. -/
theorem effBundle_v (h : x.cls = 2) (e : Env) (s : State) (hr : recording e.k [x] = false) :
    effBundle e [x] s = x.post e (countBundle ((x.eff { e with logAt := none }
      (s.modCore e.c (·.setBpc e.next))).modCore e.c (nestEnd (lsRun e.k.lstat) e.next))
      e.c (x.weight e)) := by
  simp [effBundle, ofClass, h, runEff, hr]

/-- An M, K or S slot takes effect after the nest has moved on. -/
theorem effBundle_mks (h : x.cls = 1 ∨ x.cls = 3 ∨ x.cls = 4) (e : Env) (s : State)
    (hr : recording e.k [x] = false) :
    effBundle e [x] s = x.post e (countBundle (x.eff { e with logAt := none }
      ((s.modCore e.c (·.setBpc e.next)).modCore e.c (nestEnd (lsRun e.k.lstat) e.next)))
      e.c (x.weight e)) := by
  rcases h with h | h | h <;> simp [effBundle, ofClass, h, runEff, hr]

/-- A C slot whose effect changes only its core leaves that change, BPC past it and the issue counted. -/
theorem issueOne_core {f : Core → Core} (h : CanIssue s c) (h0 : x.cls = 0)
    (hl : x.legal (s.core c) = true) (he : x.enabled (s.core c) = true)
    (hr : x.ready (soloMarks s c x) s = true) (hc : x.check (soloMarks s c x) s = none)
    (hp : ∀ t, x.post (soloMarks s c x) t = t)
    (hf : ∀ t, x.eff { soloMarks s c x with logAt := none } t = t.modCore c f) :
    issueOne x s = .next (issued s c 6 (x.weight (soloMarks s c x)) f) := by
  rw [issueOne_goes h hl he hr hc (.inl h0), effBundle_c h0, hp, hf]
  simp [countBundle, issued, issuedCore, h0, oneLen, State.modCore_eq]

/-- A C slot without an effect leaves BPC past it and the issue counted. -/
theorem issueOne_id (h : CanIssue s c) (h0 : x.cls = 0)
    (hl : x.legal (s.core c) = true) (he : x.enabled (s.core c) = true)
    (hr : x.ready (soloMarks s c x) s = true) (hc : x.check (soloMarks s c x) s = none)
    (hp : ∀ t, x.post (soloMarks s c x) t = t)
    (hf : ∀ t, x.eff { soloMarks s c x with logAt := none } t = t) :
    issueOne x s = .next (issued s c 6 (x.weight (soloMarks s c x)) id) := by
  rw [issueOne_goes h hl he hr hc (.inl h0), effBundle_c h0, hp, hf]
  simp [countBundle, issued, issuedCore, h0, oneLen, State.modCore_eq]

/-- A slot that is not ready waits: nothing has happened but what it polls. -/
theorem issueOne_waits (h : CanIssue s c) (hl : x.legal (s.core c) = true)
    (he : x.enabled (s.core c) = true) (hr : x.ready (soloMarks s c x) s = false) :
    issueOne x s = .next (x.poll (soloMarks s c x) s true) := by
  rw [issueOne_eq h]
  have hl' : x.legal (solo s c x.cls).k = true := hl
  have he' : SlotSem.enabled (solo s c x.cls).k x = true := he
  simp only [issueSlots, List.find?_cons, hl', Bool.not_true, List.find?_nil, List.filter_cons, he',
    if_true, List.filter_nil, List.all_cons, List.all_nil, Bool.and_true]
  simp [hr]

theorem enabled_of {g : Guard} (hg : x.guard = g) {k : Core} (h : Enabled k g) : x.enabled k = true := by
  subst hg
  rcases h with h | h <;> simp [SlotSem.enabled, h]

@[simp] theorem wrScal_seq (e : Env) (h : e.who = .seq) (t : State) (d : SReg) (v : W64) :
    wrScal e t d v = t.modCore e.c (·.setS d.toNat v) := by
  simp [wrScal, h]

@[simp] theorem rdScal_seq (e : Env) (h : e.who = .seq) (a : SReg) : rdScal e a = e.k.sAt a.toNat := by
  simp [rdScal, h]

@[simp] theorem wrPred_seq (e : Env) (h : e.who = .seq) (t : State) (n : PReg) (b : Bool) :
    wrPred e t n b = t.modCore e.c (·.setQ n.toNat b) := by
  simp [wrPred, h]

@[simp] theorem rdScal_marked (n : Nat) (l : List SlotSem) (a : SReg) :
    rdScal (marked (solo s c n) l) a = (s.core c).sAt a.toNat := rfl

@[simp] theorem rdScal1_marked (n : Nat) (l : List SlotSem) (a : SReg) :
    rdScal1 (marked (solo s c n) l) a = (s.core c).sAt (a + 1).toNat := rfl

/-- The trap frame of a slot of the bundle (R330). -/
theorem trap_marked (n : Nat) (l : List SlotSem) (i : Instr) (slot : Nat) :
    (marked (solo s c n) l).trap i slot =
      { cause := .illegal, slot := slot, baddr := (s.core c).bpc, w0 := (encWords i).1,
        w1 := (encWords i).2 } := rfl

/-- A check of one condition traps where it holds. -/
theorem issueOne_traps {i : Instr} {cause : Cause} (h : CanIssue s c) (hl : x.legal (s.core c) = true)
    (he : x.enabled (s.core c) = true) (hr : x.ready (soloMarks s c x) s = true)
    (hc : x.check (soloMarks s c x) s = some (.trap { (soloMarks s c x).trap i x.cls with cause := cause })) :
    issueOne x s = .next (trapped s c x.cls i cause) :=
  issueOne_stops h hl he hr hc

/-- A V, M or K slot bound to its engine is carried out by it. -/
theorem issueHard_bound (h : CanIssue s c)
    (hb : ((s.core c).prickAt ((encWords x.i).1.toNat % 128)).kind = 1) : issueHard x s = issueOne x s := by
  have : s.focus.core = c := by rw [h.1]; rfl
  simp only [issueHard, hardSlot, this, hb, if_true]

/-- A C or V slot takes effect on the device as it stands past the bundle. -/
theorem issueOne_by (h : CanIssue s c) (hcls : x.cls = 0 ∨ x.cls = 2) (hl : x.legal (s.core c) = true)
    (he : x.enabled (s.core c) = true) (hr : x.ready (soloMarks s c x) s = true)
    (hc : x.check (soloMarks s c x) s = none) (hlog : x.cls = 0 ∨ recording (s.core c) [x] = false)
    (hp : ∀ t, x.post (soloMarks s c x) t = t) :
    issueOne x s = .next (issuedBy s c (oneLen x.cls) (x.weight (soloMarks s c x))
      (x.eff { soloMarks s c x with logAt := none })) := by
  rw [issueOne_goes h hl he hr hc hlog]
  rcases hcls with h0 | h2
  · rw [effBundle_c h0, hp]; rfl
  · rw [effBundle_v h2 _ _ (by simpa [h2] using hlog), hp]; rfl

/-- An M, K or S slot takes effect once the nest, too, has moved on. -/
theorem issueOne_after (h : CanIssue s c) (hcls : x.cls = 1 ∨ x.cls = 3 ∨ x.cls = 4)
    (hl : x.legal (s.core c) = true) (he : x.enabled (s.core c) = true)
    (hr : x.ready (soloMarks s c x) s = true) (hc : x.check (soloMarks s c x) s = none)
    (hlog : recording (s.core c) [x] = false) (hp : ∀ t, x.post (soloMarks s c x) t = t) :
    issueOne x s = .next (issuedAfter s c (oneLen x.cls) (x.weight (soloMarks s c x))
      (x.eff { soloMarks s c x with logAt := none })) := by
  rw [issueOne_goes h hl he hr hc (.inr hlog), effBundle_mks hcls (soloMarks s c x) s hlog, hp]
  simp only [issuedAfter, passedNest, passed, countBundle, marked_k, marked_c, marked_next, solo_k, solo_c,
    solo_next]

/-- A change of one core, past its bundle. -/
theorem issuedBy_core (len w : Nat) (f : Core → Core) :
    issuedBy s c len w (fun t => t.modCore c f) = issued s c len w f := by
  simp [issuedBy, passed, issued, issuedCore, State.modCore_eq]

/-- A C or V slot that changes only its core. -/
theorem issueOne_mod {f : Core → Core} (h : CanIssue s c) (hcls : x.cls = 0 ∨ x.cls = 2)
    (hl : x.legal (s.core c) = true) (he : x.enabled (s.core c) = true)
    (hr : x.ready (soloMarks s c x) s = true) (hc : x.check (soloMarks s c x) s = none)
    (hlog : x.cls = 0 ∨ recording (s.core c) [x] = false) (hp : ∀ t, x.post (soloMarks s c x) t = t)
    (hf : x.eff { soloMarks s c x with logAt := none } (passed s c (oneLen x.cls)) =
      (passed s c (oneLen x.cls)).modCore c f) :
    issueOne x s = .next (issued s c (oneLen x.cls) (x.weight (soloMarks s c x)) f) := by
  rw [issueOne_by h hcls hl he hr hc hlog hp, ← issuedBy_core]
  simp only [issuedBy, hf]

end Sys2Proof.Machine
end

