-- ==== Sys2Proof/Laws/Lane.lean ====
section
/-! SUPPORT. The issue of a lane instruction: when it takes effect, and what the gang looks like after. -/
namespace Sys2Proof.Machine

/-! ## Fibres changed in turn -/

theorem modFibres_eq (x : Gang) (ls : List Nat) (f : Fibre → Fibre) :
    modFibres x ls f = { x with fibres := (modFibres x ls f).fibres } := by
  induction ls generalizing x with
  | nil => rfl
  | cons a as ih =>
    simp only [modFibres, List.foldl_cons] at ih ⊢
    rw [ih]
    rfl

theorem modFibres_fibre_out {x : Gang} {ls : List Nat} {f : Fibre → Fibre} {l : Nat} (h : l ∉ ls) :
    (modFibres x ls f).fibre l = x.fibre l := by
  induction ls generalizing x with
  | nil => rfl
  | cons a as ih =>
    simp only [List.mem_cons, not_or] at h
    simp only [modFibres, List.foldl_cons] at ih ⊢
    rw [ih h.2, modFibre, Gang.fibre_setFibre_other _ _ h.1]

theorem modFibres_fibre_in {x : Gang} {ls : List Nat} {f : Fibre → Fibre} {l : Nat} (hn : ls.Nodup) (h : l ∈ ls) :
    (modFibres x ls f).fibre l = f (x.fibre l) := by
  induction ls generalizing x with
  | nil => simp at h
  | cons a as ih =>
    simp only [List.nodup_cons] at hn
    simp only [List.mem_cons] at h
    rcases h with rfl | h
    · have := modFibres_fibre_out (x := modFibre x l f) (f := f) hn.1
      simp only [modFibres, List.foldl_cons] at this ⊢
      rw [this, modFibre, Gang.fibre_setFibre]
    · have hne : l ≠ a := fun e => hn.1 (e ▸ h)
      have := ih (x := modFibre x a f) hn.2 h
      simp only [modFibres, List.foldl_cons] at this ⊢
      rw [this, modFibre, Gang.fibre_setFibre_other _ _ hne]

theorem Gang.reg_congr {x y : Gang} {l : Nat} (r : Nat) (hr : y.regs = x.regs) (hf : (y.fibre l).seeds = (x.fibre l).seeds) :
    y.reg l r = x.reg l r := by
  simp only [Gang.reg, hr, Fibre.undef, hf]

theorem modFibres_seeds {x : Gang} {ls : List Nat} {f : Fibre → Fibre} (hf : ∀ b, (f b).seeds = b.seeds) (l : Nat) :
    ((modFibres x ls f).fibre l).seeds = (x.fibre l).seeds := by
  induction ls generalizing x with
  | nil => rfl
  | cons a as ih =>
    simp only [modFibres, List.foldl_cons] at ih ⊢
    rw [ih]
    by_cases h : l = a
    · subst h; rw [modFibre, Gang.fibre_setFibre, hf]
    · rw [modFibre, Gang.fibre_setFibre_other _ _ h]

/-- Changing fibres leaves every register, where the change keeps what makes them up. -/
theorem modFibres_reg {x : Gang} {ls : List Nat} {f : Fibre → Fibre} (hf : ∀ b, (f b).seeds = b.seeds) (l r : Nat) :
    (modFibres x ls f).reg l r = x.reg l r := by
  refine Gang.reg_congr r ?_ (modFibres_seeds hf l)
  rw [modFibres_eq]

/-! ## Registers -/

theorem regKey_inj {l r l' r' : Nat} (h : r < 256) (h' : r' < 256) : regKey l r = regKey l' r' ↔ l = l' ∧ r = r' := by
  simp only [regKey]; omega

@[simp] theorem Gang.reg_setReg (x : Gang) (l r : Nat) (v : W32) : (x.setReg l r v).reg l r = v := by
  simp [Gang.reg, Gang.setReg]

theorem Gang.reg_setReg_other (x : Gang) {l r l' r' : Nat} (v : W32) (h : r < 256) (h' : r' < 256)
    (hne : l' ≠ l ∨ r' ≠ r) : (x.setReg l r v).reg l' r' = x.reg l' r' := by
  have : regKey l' r' ≠ regKey l r := by
    rw [Ne, regKey_inj h' h]; omega
  simp only [Gang.reg, Gang.setReg]
  rw [mget_mset_other _ _ _ this]
  rfl

@[simp] theorem Gang.fibre_setReg (x : Gang) (l r l' : Nat) (v : W32) : (x.setReg l r v).fibre l' = x.fibre l' := rfl

/-! ## Batches -/

theorem batchLanes_nodup (x : Gang) (pc : Nat) : (batchLanes x pc).Nodup :=
  List.Pairwise.filter _ List.nodup_range

theorem mem_batchLanes {x : Gang} {pc l : Nat} :
    l ∈ batchLanes x pc ↔ l < 32 ∧ (x.fibre l).st = .ready ∧ (x.fibre l).pc = pc := by
  simp [batchLanes, allLanes]

theorem foldl_pick_mem (r : Nat × Nat) (rs : List (Nat × Nat)) :
    rs.foldl (fun b e => if waitsLonger e b then e else b) r ∈ r :: rs := by
  induction rs generalizing r with
  | nil => simp
  | cons e es ih =>
    simp only [List.foldl_cons]
    have hq : (if waitsLonger e r then e else r) = r ∨ (if waitsLonger e r then e else r) = e := by
      split
      · exact .inr rfl
      · exact .inl rfl
    have := ih (if waitsLonger e r then e else r)
    rcases hq with hq | hq <;> rw [hq] at this ⊢ <;> simp only [List.mem_cons] at this ⊢
    · exact this.imp_right .inr
    · exact .inr this

/-- The selected batch holds a fibre. -/
theorem batchLanes_of_pick {x : Gang} {pc : Nat} (h : pickPc x = some pc) : batchLanes x pc ≠ [] := by
  unfold pickPc at h
  split at h
  · simp at h
  · rename_i r rs hr
    have hm := foldl_pick_mem r rs
    rw [← hr] at hm
    simp only [List.mem_map] at hm
    obtain ⟨l, hl, he⟩ := hm
    simp only [Option.some.injEq] at h
    have : l ∈ batchLanes x pc := by
      rw [mem_batchLanes]
      simp [readyLanes, allLanes] at hl
      exact ⟨hl.1, hl.2, by rw [← h, ← he]⟩
    exact List.ne_nil_of_mem this

/-- A gang with a live fibre that has not arrived has nothing to settle. -/
theorem gangSettle_of_running {s : State} {c g l : Nat} (hl : l < 32) (h1 : (((s.core c).gangAt g).fibre l).st ≠ .ended)
    (h2 : arrivedAt (((s.core c).gangAt g).fibre l) = .no) : gangSettle s c g = s := by
  have hm : l ∈ liveLanes ((s.core c).gangAt g) := by simp [liveLanes, allLanes, hl, h1]
  unfold gangSettle
  simp only
  split
  · rfl
  · split
    · rename_i h
      rw [List.isEmpty_iff] at h
      rw [h] at hm; simp at hm
    · split
      · rfl
      · rename_i h
        simp only [Bool.not_eq_true', Bool.not_eq_false, List.all_eq_true] at h
        have := h l hm
        simp [h2] at this

/-! ## Issue -/

/-- Where its registers are ready, a lane instruction comes to what its own effect comes to. -/
theorem issueLane_ready {s : State} {c g pc : Nat} {i : Instr} (h : GangIssues s c g pc) (hr : RegsReady s c g pc i)
    (f : Batch → State → LaneRes) :
    issueLane i f s = match f (batchOf s c g pc i) s with
      | .go s1 => countBatch s1 (batchOf s c g pc i)
      | .stall s1 => stallBatch s1 (batchOf s c g pc i)
      | .stop _ st => takeStop s c st := by
  obtain ⟨hf, hc, hp⟩ := h
  obtain ⟨_, h1, h2⟩ := hr
  have e1 : (laneRegs i).any (fun u => decide (((s.core c).gangAt g).bound ≤ u.top)) = false := by
    simp only [List.any_eq_false, decide_eq_true_eq, Nat.not_le]
    exact h1
  have e2 : (batchOf s c g pc i).act.any (fun l => (laneRegs i).any (fun u => u.nums.any (fun r =>
      ((s.core c).gangAt g).pend.contains (regKey l r)))) = false := by
    simp only [List.any_eq_false, Bool.not_eq_true, List.contains_eq_mem, decide_eq_false_iff_not]
    exact h2
  simp only [issueLane, hf, hc, hp, e1, Bool.not_true, if_false, Bool.false_eq_true]
  simp only [batchOf] at e2 ⊢
  rw [e2]
  rfl

/-- A batch of READY fibres is counted: they wait anew. -/
theorem countBatch_go {s : State} {b : Batch} {k : Core} {x z : Gang} (hn : b.lanes.Nodup) (hne : b.lanes ≠ [])
    (hl : ∀ l ∈ b.lanes, l < 32) (hz : ∀ l ∈ b.lanes, (z.fibre l).st = .ready) (hh : k.halt = (s.core b.c).halt)
    (hx : z.cycle = x.cycle ∧ z.skid = x.skid ∧ z.stepOver = x.stepOver) :
    countBatch (s.setCore b.c (k.setGang b.g z)) b = s.setCore b.c (k.setGang b.g
      { modFibres z b.lanes (fun f => { f with stamp := x.cycle }) with
        cycle := x.cycle + 1, skid := if (s.core b.c).halt.isSome && decide (x.skid < 24) then x.skid + 1 else x.skid,
        stepOver := x.stepOver.filter (fun l => !b.lanes.contains l) }) := by
  have hfilt : b.lanes.filter (fun l => (z.fibre l).st != .ended) = b.lanes := by
    rw [List.filter_eq_self]; intro l h; simp [hz l h]
  obtain ⟨l, hl0⟩ := List.exists_mem_of_ne_nil _ hne
  unfold countBatch
  simp only [modGang, State.modCore_eq, State.core_setCore, Core.gangAt_setGang, hfilt, Core.setGang_halt, hh,
    hx.1, hx.2.1, hx.2.2, Core.setGang_setGang]
  rw [State.setCore_setCore]
  apply gangSettle_of_running (l := l) (hl l hl0)
  · rw [State.core_setCore, Core.gangAt_setGang]
    simp only [Gang.fibre]
    have := modFibres_fibre_in (x := z) (f := fun f => { f with stamp := x.cycle }) hn hl0
    simp only [Gang.fibre] at this
    rw [this]
    have := hz l hl0
    simp only [Gang.fibre] at this
    simp [this]
  · rw [State.core_setCore, Core.gangAt_setGang]
    simp only [Gang.fibre]
    have := modFibres_fibre_in (x := z) (f := fun f => { f with stamp := x.cycle }) hn hl0
    simp only [Gang.fibre] at this
    rw [this]
    have := hz l hl0
    simp only [Gang.fibre] at this
    simp [arrivedAt, this]

/-- A lane instruction whose effect is `f` on the core and a new gang `z`, with the batch still READY. -/
theorem issueLane_effect {s : State} {c g pc : Nat} {i : Instr} {F : Core → Core} {fib : Nat → Fibre → Fibre}
    {ds : List Nat} {v : Nat → Nat → W32} {z : Gang} {f : Batch → State → LaneRes}
    (h : GangIssues s c g pc) (hr : RegsReady s c g pc i)
    (hf : f (batchOf s c g pc i) s = .go (s.setCore c ((F (s.core c)).setGang g z)))
    (hF : (F (s.core c)).halt = (s.core c).halt)
    (hz : z = { (s.core c).gangAt g with fibres := z.fibres, regs := z.regs })
    (hfib : ∀ l, z.fibre l = if l ∈ (batchOf s c g pc i).lanes then fib l (((s.core c).gangAt g).fibre l)
      else ((s.core c).gangAt g).fibre l)
    (hst : ∀ l ∈ (batchOf s c g pc i).lanes, (z.fibre l).st = .ready)
    (hin : ∀ l ∈ (batchOf s c g pc i).act, ∀ r ∈ ds, z.reg l r = v l r)
    (hout : ∀ l r, r < 256 → (l ∉ (batchOf s c g pc i).act ∨ r ∉ ds) → z.reg l r = ((s.core c).gangAt g).reg l r) :
    ∃ t, issueLane i f s = t ∧ LaneEffect s t c g pc i F fib ds v := by
  have hne := batchLanes_of_pick h.2.2
  have hnd := batchLanes_nodup ((s.core c).gangAt g) pc
  have hl : ∀ l ∈ batchLanes ((s.core c).gangAt g) pc, l < 32 := fun l hl => (mem_batchLanes.mp hl).1
  have hcs : z.cycle = ((s.core c).gangAt g).cycle ∧ z.skid = ((s.core c).gangAt g).skid ∧
      z.stepOver = ((s.core c).gangAt g).stepOver := by
    rw [hz]; exact ⟨rfl, rfl, rfl⟩
  have key := countBatch_go (s := s) (b := batchOf s c g pc i) (k := F (s.core c)) (x := (s.core c).gangAt g) (z := z)
    hnd hne hl hst hF hcs
  refine ⟨_, (issueLane_ready h hr f).trans (by rw [hf]), ?_⟩
  refine ⟨_, key, ?_, ?_, ?_, ?_, ?_⟩
  · rw [modFibres_eq]; rw [hz]; rfl
  · intro l hm
    have e := modFibres_fibre_in (x := z) (f := fun f => { f with stamp := ((s.core c).gangAt g).cycle }) hnd hm
    have e2 := hfib l
    rw [if_pos hm] at e2
    rw [e2] at e
    exact e
  · intro l hm
    have e := modFibres_fibre_out (x := z) (f := fun f => { f with stamp := ((s.core c).gangAt g).cycle }) hm
    have e2 := hfib l
    rw [if_neg hm] at e2
    rw [e2] at e
    exact e
  · intro l hm r hd
    rw [← hin l hm r hd]
    exact modFibres_reg (f := fun f => { f with stamp := ((s.core c).gangAt g).cycle }) (fun _ => rfl) l r
  · intro l r h1 h2
    rw [← hout l r h1 h2]
    exact modFibres_reg (f := fun f => { f with stamp := ((s.core c).gangAt g).cycle }) (fun _ => rfl) l r

end Sys2Proof.Machine
end

