-- ==== Sys2Proof/Laws/Ops.lean ====
section
/-! SUPPORT. What the shared operations can do: ranges of memory that are pasted or cleared, writes of physical
memory, taking a trap, what leaves the device, landing, and order. -/
namespace Sys2Proof.Machine

/-! ## Ranges pasted from a slice -/

theorem mget_congr {α : Type} {d d' : Nat → α} {m : Map α} {k : Nat} (h : d k = d' k) : mget d m k = mget d' m k := by
  induction m with
  | nil => exact h
  | cons e m ih =>
    obtain ⟨j, v⟩ := e
    simp only [mget, ih]

/-- A cleared range reads as the default, and every other key as before. -/
theorem mget_mclear {α : Type} (d : Nat → α) (m : Map α) (lo n x : Nat) :
    mget d (mclear m lo n) x = if lo ≤ x ∧ x < lo + n then d x else mget d m x := by
  induction m with
  | nil => simp [mclear, mget]
  | cons e m ih =>
    obtain ⟨j, v⟩ := e
    simp only [mclear, List.filter_cons] at ih ⊢
    by_cases hj : j < lo ∨ lo + n ≤ j
    · rw [if_pos (by simpa using hj), mget, ih]
      by_cases hx : x = j
      · subst hx; rw [if_pos rfl, if_neg (by omega)]; simp [mget]
      · simp [hx, mget]
    · rw [if_neg (by simpa using hj), ih]
      by_cases hx : x = j
      · subst hx; rw [if_pos (by omega), if_pos (by omega)]
      · simp [hx, mget]

/-- Entries put one after the other, with rising keys: each key reads as its entry, the others as before. -/
theorem mget_foldl_mput {α : Type} [DecidableEq α] (d : Nat → α) (lo : Nat) (sl : Map α) (m : Map α) (k j : Nat)
    (h : risesFrom k sl) : mget d (sl.foldl (fun m e => mput d m (lo + e.1) e.2) m) (lo + j) =
      mget (fun j => mget d m (lo + j)) sl j := by
  induction sl generalizing m k with
  | nil => rfl
  | cons e sl ih =>
    obtain ⟨i, v⟩ := e
    rw [List.foldl_cons, ih _ _ h.2, mget]
    by_cases hj : j = i
    · subst hj
      rw [if_pos rfl]
      have : ∀ (sl : Map α) (k : Nat), risesFrom k sl → j < k → ∀ f : Nat → α, mget f sl j = f j := by
        intro sl
        induction sl with
        | nil => intros; rfl
        | cons e sl ih =>
          intro k h hk f
          have h1 : k ≤ e.1 := h.1
          rw [mget, if_neg (by omega), ih _ h.2 (by omega)]
      rw [this sl _ h.2 (Nat.lt_succ_self _)]
      exact mget_mput_same _ _ _ _
    · rw [if_neg hj]
      exact mget_congr (mget_mput_other _ _ _ (by omega))

theorem mslice_rises {α : Type} {m : Map α} {lo n k : Nat} (h : risesFrom k m) : risesFrom (k - lo) (mslice m lo n) := by
  induction m generalizing k with
  | nil => trivial
  | cons e m ih =>
    obtain ⟨j, v⟩ := e
    have h1 : k ≤ j := h.1
    simp only [mslice, List.filter_cons] at ih ⊢
    split
    · next hj =>
      simp only [decide_eq_true_eq] at hj
      refine ⟨by simp only; omega, ?_⟩
      exact risesFrom_mono (by simp only; omega) (ih h.2)
    · exact risesFrom_mono (by omega) (ih h.2)

theorem mget_mslice {α : Type} (d : Nat → α) (m : Map α) {lo n j : Nat} (h : j < n) :
    mget (fun j => d (lo + j)) (mslice m lo n) j = mget d m (lo + j) := by
  induction m with
  | nil => rfl
  | cons e m ih =>
    obtain ⟨i, v⟩ := e
    simp only [mslice, List.filter_cons] at ih ⊢
    by_cases hi : lo ≤ i ∧ i < lo + n
    · rw [if_pos (by simpa using hi), List.map_cons, mget, mget, ih]
      by_cases hj : lo + j = i
      · rw [if_pos hj, if_pos (by simp only; omega)]
      · rw [if_neg hj, if_neg (by simp only; omega)]
    · rw [if_neg (by simpa using hi), ih, mget, if_neg (by omega)]

/-- A range pasted from a slice of a memory in canonical form reads as the slice's range does. -/
theorem byteAt_mpaste_in {m m' : Map Byte} {lo src n j : Nat} (hw : Memory.wf m' = true) (h : j < n) :
    byteAt (mpaste m lo n (mslice m' src n)) (lo + j) = byteAt m' (src + j) := by
  have hr : risesFrom 0 (mslice m' src n) := by
    simp only [Memory.wf, canon, Bool.and_eq_true] at hw
    exact risesFrom_mono (by omega) (mslice_rises ((sorted_iff_rises _).1 hw.1))
  rw [byteAt, mpaste, mget_foldl_mput noByte lo _ _ 0 j hr]
  rw [mget_congr (d' := fun j => noByte (src + j)), mget_mslice noByte m' h]
  · rfl
  · rw [mget_mclear, if_pos (by omega)]; rfl

theorem mem_mslice {α : Type} {m : Map α} {lo n : Nat} {e : Nat × α} (h : e ∈ mslice m lo n) : e.1 < n := by
  simp only [mslice, List.mem_map, List.mem_filter, decide_eq_true_eq] at h
  obtain ⟨x, hx, rfl⟩ := h
  simp only; omega

/-- A paste leaves every byte outside its range alone. -/
theorem byteAt_mpaste_out {m sl : Map Byte} {lo n x : Nat} (hs : ∀ e ∈ sl, e.1 < n) (h : x < lo ∨ lo + n ≤ x) :
    byteAt (mpaste m lo n sl) x = byteAt m x := by
  have key : ∀ (sl m : Map Byte), (∀ e ∈ sl, e.1 < n) →
      byteAt (sl.foldl (fun m e => mput noByte m (lo + e.1) e.2) m) x = byteAt m x := by
    intro sl
    induction sl with
    | nil => intros; rfl
    | cons e sl ih =>
      intro m hs
      rw [List.foldl_cons, ih _ fun e he => hs e (List.mem_cons_of_mem _ he)]
      have := hs e List.mem_cons_self
      exact mget_mput_other _ _ _ (by omega)
  rw [mpaste, key _ _ hs, byteAt, mget_mclear, if_neg (by omega)]
  rfl

theorem wf_mpaste {m : Map Byte} (lo n : Nat) (sl : Map Byte) (h : Memory.wf m = true) :
    Memory.wf (mpaste m lo n sl) = true := by
  have key : ∀ (sl m : Map Byte), Memory.wf m = true →
      Memory.wf (sl.foldl (fun m e => mput noByte m (lo + e.1) e.2) m) = true := by
    intro sl
    induction sl with
    | nil => intro m h; exact h
    | cons e sl ih => intro m h; exact ih _ (canon_mput _ _ h)
  exact key _ _ (wf_mclear _ _ h)

theorem mem_sliceOf {bs : List Byte} {e : Nat × Byte} (h : e ∈ sliceOf bs) : e.1 < bs.length := by
  simp only [sliceOf, List.mem_filterMap] at h
  obtain ⟨⟨b, i⟩, hx, he⟩ := h
  split at he
  · simp at he
  · cases he
    have := List.mem_zipIdx hx
    simpa using this.2.1

/-! ## Physical memory -/

@[simp] theorem physWrite_mem (s : State) (pa : Nat) (bs : List Byte) : (physWrite s pa bs).mem = putBytes s.mem pa bs := rfl
@[simp] theorem physPaste_mem (s : State) (pa n : Nat) (sl : Map Byte) (bad : List Nat) :
    (physPaste s pa n sl bad).mem = mpaste s.mem pa n sl := rfl
/-- A write of physical memory changes its bytes, poison and the marks of moves. -/
theorem physWrite_frame (s : State) (pa : Nat) (bs : List Byte) : physWrite s pa bs =
    { s with mem := putBytes s.mem pa bs, poison := (physWrite s pa bs).poison, moving := (physWrite s pa bs).moving } := rfl
theorem physPaste_frame (s : State) (pa n : Nat) (sl : Map Byte) (bad : List Nat) : physPaste s pa n sl bad =
    { s with mem := mpaste s.mem pa n sl, poison := (physPaste s pa n sl bad).poison,
             moving := (physPaste s pa n sl bad).moving } := rfl
theorem openMem_frame (s : State) (pa n : Nat) : openMem s pa n =
    { s with mem := (openMem s pa n).mem, poison := (openMem s pa n).poison, moving := (openMem s pa n).moving,
             fresh := s.fresh + n } := rfl
@[simp] theorem physWrite_core (s : State) (pa c : Nat) (bs : List Byte) : (physWrite s pa bs).core c = s.core c := rfl
@[simp] theorem physPaste_core (s : State) (pa n c : Nat) (sl : Map Byte) (bad : List Nat) :
    (physPaste s pa n sl bad).core c = s.core c := rfl
@[simp] theorem openMem_core (s : State) (pa n c : Nat) : (openMem s pa n).core c = s.core c := rfl

theorem inv_physWrite {s : State} (pa : Nat) (bs : List Byte) (h : s.Inv) : (physWrite s pa bs).Inv := wf_putBytes _ _ h
theorem inv_physPaste {s : State} (pa n : Nat) (sl : Map Byte) (bad : List Nat) (h : s.Inv) :
    (physPaste s pa n sl bad).Inv := wf_mpaste _ _ _ h
theorem inv_openMem {s : State} (pa n : Nat) (h : s.Inv) : (openMem s pa n).Inv := wf_mpaste _ _ _ h
theorem inv_landGm {s : State} (c src va pa : Nat) (bs : List Byte) (h : s.Inv) : (landGm s c src va pa bs).Inv :=
  wf_putBytes _ _ h

/-- What lies at a range after a write of bytes to it. -/
theorem byteAt_physWrite_in (s : State) (pa i : Nat) (bs : List Byte) (h : i < bs.length) :
    byteAt (physWrite s pa bs).mem (pa + i) = bs[i] := byteAt_putBytes_in _ _ _ _ h
theorem byteAt_physWrite_other (s : State) (pa x : Nat) (bs : List Byte) (h : x < pa ∨ pa + bs.length ≤ x) :
    byteAt (physWrite s pa bs).mem x = byteAt s.mem x := byteAt_putBytes_other _ _ _ _ h
theorem byteAt_openMem_other (s : State) (pa n x : Nat) (h : x < pa ∨ pa + n ≤ x) :
    byteAt (openMem s pa n).mem x = byteAt s.mem x :=
  byteAt_mpaste_out (fun e he => by have := mem_sliceOf he; simpa using this) h

/-! ## Taking a trap -/

/-- A trap changes its core and its motif. -/
theorem raiseTrap_frame (s : State) (c : Nat) (t : Trap) : raiseTrap s c t =
    { s with cores := (raiseTrap s c t).cores, motifs := (raiseTrap s c t).motifs } := by
  unfold raiseTrap
  simp only
  split
  · split <;> rfl
  · split
    · rfl
    · split <;> rfl
@[simp] theorem raiseTrap_mem (s : State) (c : Nat) (t : Trap) : (raiseTrap s c t).mem = s.mem := by rw [raiseTrap_frame]
theorem inv_raiseTrap {s : State} (c : Nat) (t : Trap) (h : s.Inv) : (raiseTrap s c t).Inv := by
  rw [State.Inv, raiseTrap_mem]; exact h
theorem raiseTrap_core_other (s : State) {c o : Nat} (t : Trap) (h : o ≠ c) : (raiseTrap s c t).core o = s.core o := by
  unfold raiseTrap
  simp only
  split
  · split <;> exact State.core_setCore_other _ _ h
  · split
    · exact State.core_setCore_other _ _ h
    · split <;> exact State.core_setCore_other _ _ h
/-- What a trap leaves of its core: all but the record of the halt, who stopped, and what reports a failed access. -/
def TrapKeeps (k k' : Core) : Prop :=
  k' = { k with halt := k'.halt, skid := k'.skid, debug := k'.debug, seqStopped := k'.seqStopped, gang := k'.gang,
                cfg := k'.cfg, failures := k'.failures }
theorem TrapKeeps.trans {k k' k'' : Core} (h : TrapKeeps k k') (h' : TrapKeeps k' k'') : TrapKeeps k k'' := by
  cases k; cases k'; cases k''
  simp only [TrapKeeps, Core.mk.injEq] at *
  simp_all
theorem raiseTrap_core (s : State) (c : Nat) (t : Trap) : TrapKeeps (s.core c) ((raiseTrap s c t).core c) := by
  unfold raiseTrap
  simp only
  generalize hk : (if t.cause = .fabric ∨ (t.cause = .memerr ∧ t.status = 16) then _ else _ : Core) = k2
  have h0 : ∀ a, TrapKeeps (s.core c) (dropFailure (s.core c) a) := by
    intro a; unfold dropFailure; split <;> rfl
  have h1 : ∀ (k : Core) (t : Trap), TrapKeeps k (stopAgent k t) := by
    intro k t; unfold stopAgent; split
    · rfl
    · split <;> rfl
  have h2 : TrapKeeps (s.core c) k2 := by
    subst hk
    split
    · refine TrapKeeps.trans ?_ (TrapKeeps.trans (h1 _ _) (by rfl))
      split
      · exact h0 _
      · rfl
    · refine TrapKeeps.trans ?_ (h1 _ _)
      split
      · exact h0 _
      · rfl
  split
  · split <;> (rw [State.core_setCore]; exact h2.trans rfl)
  · split
    · rw [State.core_setCore]; exact h2.trans rfl
    · split <;> (rw [State.core_setMotif, State.core_setCore]; exact h2.trans rfl)

/-! ## What leaves the device -/

/-- An event changes the ring in host memory, or the count of those lost. -/
theorem putEvent_frame (s : State) (kind addr detail : Nat) : putEvent s kind addr detail =
    { s with hostMem := (putEvent s kind addr detail).hostMem, evProd := (putEvent s kind addr detail).evProd,
             msix := (putEvent s kind addr detail).msix, evlost := (putEvent s kind addr detail).evlost } := by
  unfold putEvent; simp only; split <;> rfl
@[simp] theorem putEvent_mem (s : State) (k a d : Nat) : (putEvent s k a d).mem = s.mem := by rw [putEvent_frame]
@[simp] theorem putEvent_core (s : State) (k a d c : Nat) : (putEvent s k a d).core c = s.core c := by rw [putEvent_frame]; rfl

/-- What leaves through a port, or is held for it, changes the ports, the wire, what is held or has passed, and the
counter of free values. -/
def LinkOnly (s t : State) : Prop :=
  t = { s with ports := t.ports, wire := t.wire, fresh := t.fresh, transit := t.transit, passing := t.passing }
theorem LinkOnly.trans {s t u : State} (h : LinkOnly s t) (h' : LinkOnly t u) : LinkOnly s u := by
  cases s; cases t; cases u
  simp only [LinkOnly, State.mk.injEq] at *
  simp_all
theorem pump_links (p : Nat) (l : List Packet) (s : State) : LinkOnly s (pump p l s) := by
  induction l generalizing s with
  | nil => rfl
  | cons e l ih =>
    rw [pump]
    simp only
    split
    · exact ih s
    · exact LinkOnly.trans (by rfl) (ih _)
theorem sendPacket_links (s : State) (p : Packet) : LinkOnly s (sendPacket s p).1 := by
  unfold sendPacket
  split
  · rfl
  · split
    · rfl
    · exact LinkOnly.trans (by rfl) (pump_links _ _ _)

theorem sendPackets_links (f : State → List Byte → Packet) (l : List (List Byte)) (s : State) :
    LinkOnly s (l.foldl (fun s bs => (sendPacket s (f s bs)).1) s) := by
  induction l generalizing s with
  | nil => rfl
  | cons b l ih => exact (sendPacket_links s _).trans (ih _)

/-- A request that goes out changes the links and the list of requests. -/
def RequestOnly (s t : State) : Prop :=
  t = { s with ports := t.ports, wire := t.wire, fresh := t.fresh, transit := t.transit, passing := t.passing,
               requests := t.requests, nextReq := t.nextReq }
theorem RequestOnly.trans {s t u : State} (h : RequestOnly s t) (h' : RequestOnly t u) : RequestOnly s u := by
  cases s; cases t; cases u
  simp only [RequestOnly, State.mk.injEq] at *
  simp_all
theorem LinkOnly.request {s t : State} (h : LinkOnly s t) : RequestOnly s t := by
  cases s; cases t
  simp only [RequestOnly, LinkOnly, State.mk.injEq] at *
  simp_all
theorem sendReq_requests (s : State) (r : FabReq) : RequestOnly s (sendReq s r) := by
  unfold sendReq
  split
  · simp only
    split
    · rfl
    · split
      · rfl
      · refine RequestOnly.trans ?_ (sendPackets_links (fun s bs =>
          { op := r.op, hop := 0, sdev := s.dev, tdev := r.dev, score := r.score, handle := r.handle % 16, tag := _,
            addr := r.addr, len := if bs.isEmpty then r.len else bs.length, data := bs, fwd := false, via := none })
          _ _).request
        rfl
  · rfl
theorem sendHeld_requests (s : State) : RequestOnly s (sendHeld s) := by
  unfold sendHeld
  have key : ∀ (l : List FabReq) (u : State), RequestOnly s u → RequestOnly s (l.foldl sendReq u) := by
    intro l
    induction l with
    | nil => exact fun _ h => h
    | cons r l ih => exact fun u h => ih _ (h.trans (sendReq_requests _ _))
  exact key _ s rfl
theorem postReq_requests (s : State) (who : ReqFor) (op dev addr va len : Nat) (data : List Byte) (fn h : Nat) :
    RequestOnly s (postReq s who op dev addr va len data fn h).1 := by
  unfold postReq
  split
  · rfl
  · split
    · rfl
    · exact RequestOnly.trans (by rfl) (sendReq_requests _ _)
theorem RequestOnly.mem {s t : State} (h : RequestOnly s t) : t.mem = s.mem := by rw [h]
theorem RequestOnly.core {s t : State} (h : RequestOnly s t) (c : Nat) : t.core c = s.core c := by rw [h]; rfl

@[simp] theorem putReply_mem (s : State) (c : Nat) (who : ReqFor) (st : Nat) (bs : List Byte) :
    (putReply s c who st bs).mem = s.mem := rfl
@[simp] theorem askLoad_mem (s : State) (c : Nat) (ag : Option Agent) (t : Trans) (va n h : Nat) :
    (askLoad s c ag t va n h).mem = s.mem := by
  unfold askLoad
  simp only
  split
  · exact (postReq_requests _ _ _ _ _ _ _ _ _ _).mem
  · rw [putReply_mem]; exact (postReq_requests _ _ _ _ _ _ _ _ _ _).mem

@[simp] theorem dropReqs_mem (s : State) (c : Nat) : (dropReqs s c).mem = s.mem := rfl
@[simp] theorem freezeMaster_mem (s : State) (kind master addr acc ctx : Nat) (mpos : W64) :
    (freezeMaster s kind master addr acc ctx mpos).mem = s.mem := by
  unfold freezeMaster
  simp only
  split <;> simp
theorem takeStop_mem (s : State) (c : Nat) (st : Stop) : (takeStop s c st).mem = s.mem := by
  cases st <;> simp [takeStop]

/-! ## Stores -/

/-- A store that enters the write buffers changes its core only. -/
@[simp] theorem bufferStore_mem (s : State) (c : Nat) (ag : Agent) (h : Nat) (sp : Space) (a : Nat) (tr : Trans)
    (bs : List Byte) : (bufferStore s c ag h sp a tr bs).mem = s.mem := rfl
@[simp] theorem bufferStore_core (s : State) (c : Nat) (ag : Agent) (h : Nat) (sp : Space) (a : Nat) (tr : Trans)
    (bs : List Byte) : (bufferStore s c ag h sp a tr bs).core c = (s.core c).putStore ag h sp a tr bs := by
  simp [bufferStore]
@[simp] theorem landGm_mem (s : State) (c src va pa : Nat) (bs : List Byte) :
    (landGm s c src va pa bs).mem = putBytes s.mem pa bs := rfl
@[simp] theorem landTs_mem (s : State) (o src off : Nat) (bs : List Byte) : (landTs s o src off bs).mem = s.mem := rfl
theorem landTs_core_other (s : State) {o x : Nat} (src off : Nat) (bs : List Byte) (h : x ≠ o) :
    (landTs s o src off bs).core x = s.core x := State.core_modCore_other _ _ h
@[simp] theorem landMc_mem (s : State) (c src off : Nat) (bs : List Byte) : (landMc s c src off bs).mem = s.mem := by
  unfold landMc
  have key : ∀ (l : List Nat) (u : State), (l.foldl (fun s o => landTs s o (if o = c then src else 3) off bs) u).mem = u.mem := by
    intro l
    induction l with
    | nil => intro u; rfl
    | cons o l ih => intro u; rw [List.foldl_cons, ih]; rfl
  exact key _ s
/-- A store that lands writes global memory where it is one of global memory, at its translated address. -/
theorem landStore_mem (s : State) (c : Nat) (st : BufStore) : (landStore s c st).mem =
    if st.space = .gm then putBytes s.mem (st.tr.pa st.addr) st.data else s.mem := by
  unfold landStore
  cases h : st.space <;> simp
theorem inv_landStore {s : State} (c : Nat) (st : BufStore) (h : s.Inv) : (landStore s c st).Inv := by
  rw [State.Inv, landStore_mem]
  split
  · exact wf_putBytes _ _ h
  · exact h

/-- Stores that land in program order keep the form of memory. -/
theorem inv_landThese (c : Nat) (sts : List BufStore) {s : State} (h : s.Inv) : (landThese s c sts).Inv := by
  unfold landThese
  induction sts generalizing s with
  | nil => exact h
  | cons st l ih =>
    rw [List.foldl_cons]
    split
    · exact ih (inv_landStore c st h)
    · exact ih h
theorem inv_landOverlapping {s : State} (c : Nat) (ag : Agent) (sp : Space) (a n : Nat) (h : s.Inv) :
    (landOverlapping s c ag sp a n).Inv := inv_landThese c _ h

/-! ## Order: what fences, joins and reads ahead change -/

/-- A release changes nothing but which old granules may still be read. -/
theorem released_frame (s : State) (c : Nat) (p : Agent → Bool) :
    released s c p = { s with cores := (released s c p).cores } := by
  unfold released
  generalize mates c = l
  induction l generalizing s with
  | nil => rfl
  | cons o l ih =>
    rw [List.foldl_cons, ih]
    split <;> rfl
@[simp] theorem released_mem (s : State) (c : Nat) (p : Agent → Bool) : (released s c p).mem = s.mem := by
  rw [released_frame]
theorem released_core (s : State) (c : Nat) (p : Agent → Bool) (x : Nat) :
    (released s c p).core x = { s.core x with vold := ((released s c p).core x).vold } := by
  unfold released
  generalize mates c = l
  induction l generalizing s with
  | nil => rfl
  | cons o l ih =>
    rw [List.foldl_cons, ih]
    split
    · by_cases h : x = o
      · subst h; rw [State.core_modCore]
      · rw [State.core_modCore_other _ _ h]
    · rfl
theorem inv_released {s : State} (c : Nat) (p : Agent → Bool) (h : s.Inv) : (released s c p).Inv := by
  rw [State.Inv, released_mem]; exact h

theorem Core.dropAhead_frame (ag : Agent) (k : Core) : k.dropAhead ag = { k with ahead := (k.dropAhead ag).ahead } := rfl
theorem Core.loadPast_frame (ag : Agent) (h : Nat) (sp : Space) (a n : Nat) (k : Core) :
    k.loadPast ag h sp a n = { k with ahead := (k.loadPast ag h sp a n).ahead } := rfl
theorem Core.storePast_frame (ag : Agent) (sp : Space) (a n : Nat) (k : Core) :
    k.storePast ag sp a n = { k with ahead := (k.storePast ag sp a n).ahead } := rfl
theorem Core.useAhead_frame (ag : Agent) (h : Nat) (sp : Space) (a n : Nat) (k : Core) :
    k.useAhead ag h sp a n = { k with ahead := (k.useAhead ag h sp a n).ahead } := rfl
/-- A fence of a narrow scope marks buffered stores and nothing else. -/
theorem Core.veil_frame (ag : Agent) (sc : Nat) (k : Core) : k.veil ag sc = { k with buf := (k.veil ag sc).buf } := rfl
/-- FORK and JOIN add handles to what is outstanding and change nothing else. -/
theorem Core.alsoUnder_frame (c : Nat) (ag : Agent) (hs new : List Nat) (k : Core) : k.alsoUnder c ag hs new =
    { k with buf := (k.alsoUnder c ag hs new).buf, kcmds := (k.alsoUnder c ag hs new).kcmds,
             mcmds := (k.alsoUnder c ag hs new).mcmds, vold := (k.alsoUnder c ag hs new).vold } := rfl
/-- A load of tile store that may find old granules draws free values, and changes no memory. -/
@[simp] theorem staleLoad_mem (s : State) (o c : Nat) (ag : Agent) (off n : Nat) (bs : List Byte) :
    (staleLoad s o c ag off n bs).2.mem = s.mem := by
  unfold staleLoad
  simp only
  split <;> rfl

end Sys2Proof.Machine
end

