-- ==== Sys2Proof/Laws/Rows.lean ====
section
/-! SUPPORT. The V slot on its engine: when an instruction over tile rows takes effect, and what it reads. -/
namespace Sys2Proof.Machine

/-- A bundle that does not turn recording on or off records nothing where recording is off. -/
theorem notRec {k : Core} {x : SlotSem} (h : NotRecording k) (h1 : ∀ g, x.i ≠ .recon g) (h2 : ∀ g, x.i ≠ .recoff g) :
    recording k [x] = false := by
  unfold recording
  cases hx : x.i <;> simp_all [NotRecording]

/-- An instruction over rows that are all ready takes effect as its own function of the core. -/
theorem semV_goes {s : State} {c : Nat} {g : Guard} {i : Instr} {names own scals saved iv eff} {f : Core → Core}
    (h : CanIssue s c) (hg : Enabled (s.core c) g) (hn : NotRecording (s.core c)) (hb : EngineBound (s.core c) i)
    (hr : ∀ n ∈ names, ∃ r, RowReady (s.core c) n r) (h1 : ∀ g, i ≠ .recon g) (h2 : ∀ g, i ≠ .recoff g)
    (ho : own (soloMarks s c (semV g i names own scals saved iv eff)) s = none)
    (hf : ∀ E : Env, E.k = s.core c → E.c = c → E.who = .seq → eff E (passed s c 10) = (passed s c 10).modCore c f) :
    issueHard (semV g i names own scals saved iv eff) s = .next (issued s c 10 0 (fun k => (f k).vBusy iv)) := by
  rw [issueHard_bound (x := semV g i names own scals saved iv eff) h hb]
  refine issueOne_mod h (.inr rfl) rfl (enabled_of rfl hg) ?_ ?_ (.inr (notRec hn h1 h2)) (fun _ => rfl) ?_
  rotate_left 2
  · have e := hf { soloMarks s c (semV g i names own scals saved iv eff) with logAt := none } rfl rfl rfl
    exact (congrArg (fun t : State => t.modCore c (Core.vBusy iv)) e).trans (State.modCore_modCore _ _ _ _)
  · simp only [semV, marked_c, solo_c, marked_k, solo_k, tilesReady, List.all_eq_true, vTiles, List.mem_filterMap]
    rintro t ⟨n, hn, hm⟩
    obtain ⟨r, hv, ht⟩ := hr n hn
    simp [hv] at hm
    subst hm; exact ht
  · have : unresolved (s.core c) names = none := by
      simp only [unresolved, List.find?_eq_none]
      intro n hn
      obtain ⟨r, hv, ht⟩ := hr n hn
      simp [hv]
    simp only [semV, unconfStop, marked_k, solo_k, this, List.find?_nil, Option.map_none]
    exact ho

theorem rowOf_ready {s : State} {c : Nat} {n : VReg} {r : Row} (h : RowReady (s.core c) n r) {e : Env} (he : e.k = s.core c) :
    rowOf e n = r := by simp [rowOf, he, h.1]

theorem elems_passed (s : State) (c l : Nat) (r : Row) (z : Nat) : ((passed s c l).core c).elems r z = (s.core c).elems r z := by
  simp [passed]; rfl

theorem sr_passed (s : State) (c l : Nat)  : ((passed s c l).core c).cfgAt rSRSTATE = (s.core c).cfgAt rSRSTATE := by
  simp [passed]

end Sys2Proof.Machine
end

