-- ==== Sys2Proof/Tests/Slice0.lean ====
section
/-! SUPPORT. Tests: ill-formed terms, words written out from the encodings, single steps on small states with
results taken from the spec, and for each statement with hypotheses a state and operands that meet them. -/
open Sys2Proof Sys2Proof.Machine
namespace Sys2Proof.Tests

set_option Elab.async false
set_option maxRecDepth 20000
set_option synthInstance.maxSize 2000
set_option synthInstance.maxHeartbeats 400000
/-! ## Ill-formed terms: one for each check of decode -/

abbrev gd : Guard := ⟨false, 0⟩
abbrev pd : Pred := ⟨false, 0⟩
abbrev kx : KXfer :=
  { sdesc := 0, ddesc := 0, stsc := .core, se := 0, cmpl := .none, adv := false, ch := 0, oh := 0, src := .gm,
    dst := .ts, sn := 0, ss := 0, sd := 0 }
abbrev fm : FMod := ⟨false, .rne⟩
abbrev fsat : FMod := ⟨true, .rne⟩
abbrev mo : MmaOp :=
  { nm1 := 0, mm1 := 0, slb := 0, sla := 0, tb := false, ta := false, fmt := .bf16, cmp := false, acc := false, ad := 0 }
abbrev so : SOp := ⟨0, 0, 0, 0⟩

/-- R59, R77, R79, R81, R84, R88, R96, R283: the C slot. -/
theorem test_illformed_c :
    Instr.wf (.nop ⟨false, 1⟩) = false ∧ Instr.wf (.sopi gd .shl 0 0 0x40) = false ∧
    Instr.wf (.scmp gd .feq true 0 0 0) = false ∧ Instr.wf (.sld gd .b64 true true 0 0 0) = false ∧
    Instr.wf (.cfgr gd 0x003 0) = false ∧ Instr.wf (.cfgw gd 0x010 0) = false ∧
    Instr.wf (.moncfgWrite gd 0 3 0) = false ∧ Instr.wf (.fork gd 0 0) = false ∧ Instr.wf (.fork gd 1 0) = false ∧
    Instr.wf (.loop gd 0 0 6 false false) = false ∧ Instr.wf (.iterIdx gd 6 0) = false ∧
    Instr.wf (.sysServiceCall gd 0xFF) = false := by decide

/-- R102 to R120: the V slot. -/
theorem test_illformed_v :
    Instr.wf (.vop2 gd .add false false .rne .fp64 0 0 0) = false ∧
    Instr.wf (.vop2 gd .add false false .rtz .int8 0 0 0) = false ∧
    Instr.wf (.vop2 gd .min false true .rne .fp32 0 0 0) = false ∧
    Instr.wf (.vop2 gd .mulh false false .rne .fp32 0 0 0) = false ∧
    Instr.wf (.vop2 gd .add true false .rne .fp32 32 0 0) = false ∧
    Instr.wf (.vfma gd .fma false false .rne .fp64 0 0 0 0) = false ∧
    Instr.wf (.vop1 gd .relud false .rne .int8 0 0) = false ∧
    Instr.wf (.vop1 gd .rint false .sr .fp32 0 0) = false ∧
    Instr.wf (.vop1 gd .neg true .rne .fp32 0 0) = false ∧
    Instr.wf (.vcmp gd 1 false .eq false .fp32 0 0 0) = false ∧
    Instr.wf (.vcmp gd 0 false .un false .int8 0 0 0) = false ∧
    Instr.wf (.vsel gd false .fp32x 0 0 0 0) = false ∧ Instr.wf (.vred gd .sum .fp64 0 0) = false ∧
    Instr.wf (.vrows gd .b64 0 0 0 0 0) = false ∧ Instr.wf (.vcols gd false .b8 0 0 1 0) = false ∧
    Instr.wf (.vcols gd true .b8 0 0 0 1) = false ∧
    Instr.wf (.vcvt gd .fp32 0 false .rne .fp32 0 0) = false ∧
    Instr.wf (.vcvt gd .fp32 2 false .rne .bf16 0 0) = false ∧
    Instr.wf (.vcvt gd .fp32 0 false .rtz .bf16 0 0) = false ∧
    Instr.wf (.vcvt gd .fp32 0 true .rne .bf16 0 0) = false ∧
    Instr.wf (.vcvto gd 0 .rne .bf16 false 0 0 0 0) = false ∧
    Instr.wf (.vcvto gd 0 .rne (.b8 4 false true) false 0 1 0 0) = false ∧
    Instr.wf (.vint gd .shl false .fp32 0 0 0) = false ∧ Instr.wf (.vmovi gd 0x100 .int8 0) = false ∧
    Instr.wf (.vldt gd 0 0 .mcast 0 true 0 0 0) = false ∧ Instr.wf (.vldt gd 1 0 .own 0 true 0 0 0) = false ∧
    Instr.wf (.vstt gd 0 0 .own 1 true 0 0 0) = false ∧ Instr.wf (.vstt gd 0x300 0 .own 0 false 0 0 0) = false := by
  decide

/-- R233, R239, R260 to R263, R68, R142: the M, K and S slots. -/
theorem test_illformed_mks :
    Instr.wf (.mclaim gd 1 63) = false ∧ Instr.wf (.mma gd 0 { mo with fmt := .fp32 }) = false ∧
    Instr.wf (.mma gd 0 { mo with cmp := true }) = false ∧ Instr.wf (.mmah gd 0 false false 0 mo) = false ∧
    Instr.wf (.kcopy gd { kx with stsc := .device }) = false ∧ Instr.wf (.kcopy gd { kx with se := 2 }) = false ∧
    Instr.wf (.kcopy gd { kx with cmpl := .eyelet, se := 1 }) = false ∧
    Instr.wf (.kcopy gd { kx with sdesc := 1 }) = false ∧ Instr.wf (.kcopy gd { kx with src := .ring, ss := 1 }) = false ∧
    Instr.wf (.kcopy gd { kx with adv := true }) = false ∧ Instr.wf (.kcopy gd { kx with sn := 1 }) = false ∧
    Instr.wf (.kcopy gd { kx with dst := .gm, cmpl := .eyelet }) = false ∧
    Instr.wf (.kcopy gd { kx with cmpl := .stamp }) = false ∧ Instr.wf (.kfill gd kx) = false ∧
    Instr.wf (.kgang gd { kx with dst := .gm, sn := 2 }) = false ∧ Instr.wf (.kmcast gd { kx with dst := .gm }) = false ∧
    Instr.wf (.kcgrad gd { kx with dst := .gm } (.b8 4 false true) .rne 0) = false ∧
    Instr.wf (.kcgrad gd { kx with src := .ts, dst := .gm } .bf16 .rne 0) = false ∧
    Instr.wf (.kpull gd { kx with src := .ts } 0) = false ∧ Instr.wf (.keyeWait ⟨false, 2⟩ 0 0 0) = false ∧
    Instr.wf (.xpose gd { so with d1 := 0x400 }) = false ∧ Instr.wf (.stitchDispatch gd 0x20 so 0) = false ∧
    Instr.wf (.stitchDispatch gd 0x70 so 1) = false := by decide

/-- R152, R161 to R179, R185 to R203: lanes. -/
theorem test_illformed_lane :
    Instr.wf (.movd pd 1 0) = false ∧ Instr.wf (.sel pd true 0 0 1 0) = false ∧
    Instr.wf (.iopi pd .shl 0 0 0x20) = false ∧ Instr.wf (.imad pd .madws 1 0 0 0) = false ∧
    Instr.wf (.bfx pd false 0 0 31 1) = false ∧ Instr.wf (.icmp pd .eq 0 0 0) = false ∧
    Instr.wf (.plop pd .and 1 0 0 true) = false ∧ Instr.wf (.plop pd .not 1 0 1 false) = false ∧
    Instr.wf (.pmov pd .p2g 0 1) = false ∧ Instr.wf (.iop64 pd .add 0 0 1) = false ∧
    Instr.wf (.fop pd .min fsat 0 0 0) = false ∧ Instr.wf (.funop pd .sqrt fsat 0 0) = false ∧
    Instr.wf (.hop pd .max false fsat 0 0 0) = false ∧ Instr.wf (.dop pd .min fsat 0 0 0) = false ∧
    Instr.wf (.dfma pd .fma fm 0 0 0 1) = false ∧ Instr.wf (.dun pd .neg fsat 0 0) = false ∧
    Instr.wf (.dcmp pd .eq 1 1 0) = false ∧ Instr.wf (.cvt pd 1 0 fm .fp32 .bf16 0 0) = false ∧
    Instr.wf (.brx pd 1) = false ∧ Instr.wf (.laneCall pd 1 0) = false ∧ Instr.wf (.callx pd 0 1) = false ∧
    Instr.wf (.ld pd .b32 true 0 0 0 0) = false ∧ Instr.wf (.ld pd .b64 false 0 1 0 0) = false ∧
    Instr.wf (.st pd .b8 0 1 0 0) = false ∧ Instr.wf (.stpeer pd 1 true .b8 0 0 0 0) = false ∧
    Instr.wf (.lfork pd 0 1) = false ∧ Instr.wf (.lwait pd .eq .core 0 0 0 0) = false ∧
    Instr.wf (.atom pd .add true false 0 1 0 0 0) = false ∧ Instr.wf (.atomts pd .add false false 0 0 0 0 false 1 0) = false ∧
    Instr.wf (.cas pd true 0 1 0 0 0 0) = false ∧ Instr.wf (.vote pd .all 0 0 0) = false ∧
    Instr.wf (.shfl pd .idx 0 0 0 0 1) = false ∧ Instr.wf (.tissue pd false 0 1) = false := by decide

/-! ## Words that the spec works out, with the fields that it gives them -/

/-- The programs of 04, 14, 20, 22, 23 and 26, and R288: C slots. -/
theorem test_words_c :
    decode (.c 0x80003805) = .ok (.sld gd .b32 false false 0 0 7) ∧
    decode (.c 0x55073801) = .ok (.sop gd .fmul 7 7 8) ∧
    decode (.c 0x1FE42002) = .ok (.sopi gd .add 4 4 0xFF) ∧
    decode (.c 0x602A7002) = .ok (.sopi gd .xor 14 10 1) ∧
    decode (.c 0x01060004) = .ok (.scmp gd .ne true 0 4 0) ∧
    decode (.c 0x7FFF4087) = .ok (.br ⟨true, 0⟩ 0xFFFE8) ∧
    decode (.c 0x0009B287) = .ok (.br ⟨true, 2⟩ 310) ∧
    decode (.c 0xC1012806) = .ok (.sst gd .b64 false 8 1 5) ∧
    decode (.c 0x8200000F) = .ok (.fence gd .system false false .rel) ∧
    decode (.c 0x0800000F) = .ok (.fence gd .core false true .full) ∧
    decode (.c 0x8A00000F) = .ok (.fence gd .system false true .rel) ∧
    decode (.c 0x509A228E) = .ok (.waits ⟨true, 2⟩ .geu .system 4 26 1) ∧
    decode (.c 0xE0043015) = .ok (.bind gd 0x70 4 6) ∧
    decode (.c 0x00000016) = .ok (.recon gd) ∧
    decode (.c 0x0800001A) = .ok (.loop gd 2 0 0 false false) ∧
    decode (.c 0x0400381B) = .ok (.iterIdx gd 1 7) := by
  repeat' apply And.intro
  all_goals rfl

/-- The programs of 11, 14, 19, 23 and 26, and R120: M and V slots. -/
theorem test_words_mv :
    decode (.m 0x0000000000000038) = .ok (.mlease gd) ∧
    decode (.m 0x000000000040003A) = .ok (.mclaim gd 1 0) ∧
    decode (.m 0x000000000040003B) = .ok (.mrels gd 1 0) ∧
    decode (.m 0x000000000000003F) = .ok (.mzero gd 0) ∧
    decode (.m 0x2E0800104001003D) = .ok (.mmah gd 5 true true 2 { mo with mm1 := 1, slb := 1 }) ∧
    decode (.m 0x2A0808004081003D) = .ok (.mmah gd 5 true false 2 { mo with nm1 := 1, slb := 1, tb := true }) ∧
    decode (.v 0x002316400C008029) = .ok (.vcvto gd 0x23 .rne (.b8 4 false false) true 0 6 0 16) ∧
    decode (.v 0x81803000007C1826) = .ok (.vrows gd .b32 12 3 0 31 3) ∧
    decode (.v 0x8040300000850026) = .ok (.vrows gd .b32 2 3 0 33 32) ∧
    decode (.v 0x0100C00000009827) = .ok (.vcols gd false .b32 3 0 0 19) ∧
    decode (.v 0x01001000000001A7) = .ok (.vcols ⟨true, 1⟩ false .b32 0 2 0 0) ∧
    decode (.v 0x000000420500882F) = .ok (.vstt gd 0 1 .own 0 true 0 5 17) ∧
    decode (.v 0x000000024400002F) = .ok (.vstt gd 0 0 .own 0 true 2 4 0) ∧
    decode (.v 0x0002000028000820) = .ok (.vop2 gd .add true false .rne .fp32 20 0 1) ∧
    decode (.v 0x000800000004082B) = .ok (.vsfu gd .exp2 1 1) ∧
    decode (.v 0x000400000004A825) = .ok (.vred gd .max .fp32 1 21) := by
  repeat' apply And.intro
  all_goals rfl

/-- The programs of 14, 18, 20, 23, 26 and 09: K and S slots, and a nested library command (R203). -/
theorem test_words_ks :
    decode (.k 0x000000000000042041815049) =
      .ok (.kfill gd { kx with se := 8, cmpl := .eyelet, oh := 1, dst := .gm, sn := 12, ss := 1, sd := 10 }) ∧
    decode (.k 0x000000000001001009800048) = .ok (.kcopy gd
      { kx with ddesc := 1, adv := true, dst := .ring, sn := 12 }) ∧
    decode (.k 0x000000020000000021801048) = .ok (.kcopy gd
      { kx with sdesc := 2, src := .ring, dst := .gm, sn := 12, sd := 2 }) ∧
    decode (.k 0x000000000000484000CD7048) = .ok (.kcopy gd
      { kx with stsc := .system, se := 16, cmpl := .stamp, dst := .gm, sn := 6, ss := 13, sd := 14 }) ∧
    decode (.k 0x000000000000494050CF8AC8) = .ok (.kcopy ⟨true, 2⟩
      { kx with stsc := .system, se := 18, cmpl := .stamp, oh := 1, src := .ts, dst := .gm, sn := 6, ss := 15, sd := 17 }) ∧
    decode (.k 0x000000000000042014C5384B) = .ok (.kmcast gd
      { kx with se := 8, cmpl := .eyelet, src := .ts, sn := 6, ss := 5, sd := 7 }) ∧
    decode (.k 0x00000000000000000044404D) = .ok (.keyeWait gd 0 4 8) ∧
    decode (.s 0x0000000000001870) = .ok (.stitchDispatch gd 0x70 { so with sa := 3 } 0) ∧
    decode (.s 0x0024002100221870) = .ok (.stitchDispatch gd 0x70 ⟨3, 0x22, 0x21, 0x24⟩ 0) ∧
    decode (.s 0x0000002100222860) = .ok (.xpose gd ⟨5, 0x22, 0x21, 0⟩) ∧
    decode (.s 0x0000000100033060) = .ok (.xpose gd ⟨6, 3, 1, 0⟩) := by
  repeat' apply And.intro
  all_goals rfl

/-- The worked words of 07, 08, 09, 18 and 26: lanes. -/
theorem test_words_lane :
    decode (.lane 0x0000020007060510) = .ok (.iop ⟨false, 2⟩ .add 5 6 7) ∧
    decode (.lane 0x000920000C090920) = .ok (.fop pd .mul ⟨true, .rtz⟩ 9 9 12) ∧
    decode (.lane 0xFFFB0B0000000040) = .ok (.bra ⟨true, 3⟩ 0xFFFB) ∧
    decode (.lane 0x8B00800000010330) = .ok (.cvt pd 2 0 fsat (.b8 4 false false) .fp32 3 1) ∧
    decode (.lane 0x0010300800020450) = .ok (.ld pd .b8 true 3 4 2 16) ∧
    decode (.lane 0x0000100007020460) = .ok (.atom pd .add false false 1 4 2 7 0) ∧
    decode (.lane 0x00000005190E1C71) = .ok (.shfl pd .idx 28 14 25 5 0) ∧
    decode (.lane 0x000B0000001E1E30) = .ok (.cvt pd 0 0 fm .fp32 .int32 30 30) ∧
    decode (.lane 0x00005000001E1F38) = .ok (.sfu pd .cospi 31 30) ∧
    decode (.lane 0x000020171E1C1721) = .ok (.ffma pd .fnma fm 23 28 30 23) ∧
    decode (.lane 0xFFF1020000000040) = .ok (.bra ⟨false, 2⟩ 0xFFF1) ∧
    decode (.lane 0x000000C30E150055) = .ok (.sttp pd 3 .b64 0 21 14 0) ∧
    decode (.lane 0x000050000000031A) = .ok (.plop pd .set 3 0 0 false) ∧
    decode (.lane 0x00000000000A0083) = .ok (.tissue pd false 10 0) ∧
    decode (.lane 0x0000008800020754) = .ok (.ldtp pd 2 .b8 true 0 7 2 0) ∧
    decode (.lane 0x00000A0007090912) = .ok (.idiv ⟨true, 2⟩ .divs 9 9 7) ∧
    decode (.lane 0x00000000090E0055) = .ok (.sttp pd 0 .b8 0 14 9 0) ∧
    decode (.lane 0x0006900000020511) = .ok (.iopi pd .shl 5 2 6) ∧
    decode (.lane 0x0080000200070852) = .ok (.ldts pd .b32 false 0 8 7 128) ∧
    decode (.lane 0x0000400009060223) = .ok (.fcmp pd .gt 2 6 9) ∧
    decode (.lane 0x00000A0000090604) = .ok (.mov ⟨true, 2⟩ 6 9) ∧
    decode (.lane 0x00C8000208070053) = .ok (.stts pd .b32 0 7 8 200) := by
  repeat' apply And.intro
  all_goals rfl

/-! ## Small states -/

/-- A core whose sequencer is about to issue, with something done to it. -/
def w0 : State := State.reset.withFetchWord 16 0
def wk (f : Core → Core) : State := w0.modCore 0 f
def after (i : Instr) (s : State) : State := match exec i s with
  | .next t => t
  | .fault _ => s
  | .refused _ => s
def ran (i : Instr) (f : Core → Core) : Core := (after i (wk f)).core 0

/-- Tiles 0 and 1 of 16 rows of 64 bytes in FP32. -/
def tiled (k : Core) : Core := (k.setCfg rTSHAPE 0x801000).setCfg (rTSHAPE + 1) 0x801000
def rowA : Row := ⟨0, 0, 64, false⟩
def rowB : Row := ⟨1, 0, 64, false⟩

/-- A gang of 32 registers with lanes 0 and 1 ready, about to issue. -/
def fibre1 : Fibre := { pc := 0x1000, k := 0x7F, st := .ready, arrived := .no, stamp := 0, seeds := [] }
def gang1 : Gang :=
  { Gang.empty with st := .running, depth := 1, bound := 32, res := 32, fibres := [(0, fibre1), (1, fibre1)] }
def lw (f : Gang → Gang) : State := { wk (·.setGang 0 (f gang1)) with focus := .gang 0 0 }
def ranLane (i : Instr) (f : Gang → Gang) : Gang := ((after i (lw f)).core 0).gangAt 0

/-! ## The C slot -/

/-- R76: the sum wraps, the high product is signed, division goes toward zero. -/
theorem test_sop :
    (ran (.sop gd .add 3 1 2) (fun k => (k.setS 1 0xFFFFFFFFFFFFFFFF).setS 2 2)).sAt 3 = 1 ∧
    (ran (.sop gd .mulhs 3 1 2) (fun k => (k.setS 1 0xFFFFFFFFFFFFFFFF).setS 2 2)).sAt 3 = 0xFFFFFFFFFFFFFFFF ∧
    (ran (.sop gd .divs 1 1 2) (fun k => (k.setS 1 (-7)).setS 2 2)).sAt 1 = -3 ∧
    (ran (.sop gd .rems 1 1 2) (fun k => (k.setS 1 (-7)).setS 2 2)).sAt 1 = -1 := by decide

/-- R76, R98: a division by zero and BRK leave a record of their cause, with the place of the bundle. -/
theorem test_sop_traps :
    ((ran (.sop gd .divu 1 1 2) id).halt.map (·.trap.cause)) = some .divz ∧
    ((ran (.brk gd 7) (·.setBpc 0x200)).halt.map (fun r => (r.trap.cause, r.trap.baddr, r.trap.info))) =
      some (.brk, 0x200, 7) := by decide

/-- R77, R78, R79: the immediates are sign-extended; an unsigned comparison. -/
theorem test_immediates :
    (ran (.sopi gd .add 4 4 0xFF) (·.setS 4 3)).sAt 4 = 2 ∧
    (ran (.smovi gd 5 0xFFFB) id).sAt 5 = -5 ∧
    (ran (.scmp gd .ltu false 2 1 3) (·.setS 1 0xFFFFFFFFFFFFFFFF)).q 2 = false := by decide

/-- R82, the program of 04: BR of line 16 goes 24 units back from bundle 14 to bundle 6; CALL links. -/
theorem test_branches :
    (ran (.br ⟨true, 0⟩ 0xFFFE8) (·.setBpc (14 * 6))).bpc = 6 * 6 ∧
    (ran (.call gd 310) (·.setBpc 0x3E)).bpc = 0x2AA ∧ (ran (.call gd 310) (·.setBpc 0x3E)).sAt 31 = 0x44 := by decide

/-- R83: ADVW wraps in a ring of two slots and the fill counts up to it. -/
theorem test_advw :
    let w : W64 := 2 ^ 53 + 2 ^ 43 + 2 ^ 32 + 2 ^ 31
    let k := ran (.advw gd 0 3) (·.setCfg (rCBDESC + 3) w)
    cbWptr (k.cb 3) = 0 ∧ cbFill (k.cb 3) = 1 ∧ cbRptr (k.cb 3) = 0 := by decide

/-- R85, R42, R37: ones clear FSTAT; SRSTATE never holds zero. -/
theorem test_cfgw :
    (ran (.cfgw gd 0x001 1) (fun k => (k.setCfg rFSTAT 0x31).setS 1 0x11)).cfgAt rFSTAT = 0x20 ∧
    (ran (.srstateWrite gd 1) (·.setCfg rSRSTATE 9)).cfgAt rSRSTATE = 1 := by decide

/-- R81, R250: a store enters the buffers and no byte changes before it lands. -/
theorem test_sst :
    let k := ran (.sst gd .b16 true 1 1 2) (fun k => { (k.setS 1 0x10).setS 2 0xABCD with share := 64 })
    k.buf.map (fun x => (x.space, x.addr, x.data)) = [(Space.ts, 0x12, [0xCD, 0xAB])] ∧ k.ts = [] := by decide

/-- R96, R97: a service call enters the routine of SVEC in privileged mode; TRET leaves it. -/
theorem test_service :
    let k := ran (.sysServiceCall gd 0x105) (fun k => (k.setBpc 0x100).setCfg rSVEC 0x81)
    k.bpc = 0x80 ∧ k.cfgAt rSRET = 0x106 ∧ k.cfgAt rSARG = 0x105 ∧ k.priv = true ∧
    (ran (.tret gd) (fun k => (k.setCfg rMSTAT 1).setCfg rSRET 0x106)).bpc = 0x106 ∧
    (ran (.tret gd) (fun k => (k.setCfg rMSTAT 1).setCfg rSRET 0x106)).priv = false := by decide

/-! ## Numbers and the V slot -/

/-- The table of 02: conversions from FP32 to B8P4SE and B8P4SF. -/
theorem test_to_binary8 :
    (floatToFloat .fp32 (.b8 4 false false) .rne 0 false 0x40500000 = ⟨0x4D, 0⟩) ∧
    (floatToFloat .fp32 (.b8 4 false false) .rne 0 false 0x40580000 = ⟨0x4E, fNX⟩) ∧
    (floatToFloat .fp32 (.b8 4 false false) .rne 0 false 0x43680000 = ⟨0x7E, fNX⟩) ∧
    (floatToFloat .fp32 (.b8 4 false false) .rne 0 false 0x43690000 = ⟨0x7F, fOF + fNX⟩) ∧
    (floatToFloat .fp32 (.b8 4 false false) .rne 0 true 0x43960000).bits = 0x7E ∧
    (floatToFloat .fp32 (.b8 4 false true) .rne 0 false 0x43690000).bits = 0x7F ∧
    (floatToFloat .fp32 (.b8 4 false true) .rne 0 false 0x43960000).bits = 0x80 := by decide

/-- The run sheet of 09: COSPI and SINPI of 1.5 are +0 and -1, of 3 are -1 and +0. -/
theorem test_sfu :
    (sfu .cospi 0x3FC00000).bits = 0 ∧ (sfu .sinpi 0x3FC00000).bits = 0xBF800000 ∧
    (sfu .cospi 0x40400000).bits = 0xBF800000 ∧ (sfu .sinpi 0x40400000).bits = 0 := by decide

/-- The run sheet of 11: A0[0][0] = 3.0 and A0[1][0] = -10.5, from W and x in BF16. -/
theorem test_matrix_element :
    let a := fun (r : List Nat) (q : Nat) => r.getD q 0
    let x := [0x4000, 0x3F80, 0x4080]
    mmaElem false .fp32 .bf16 .bf16 (a [0x3FC0, 0xC000, 0x3F00]) (a x) 3 0 = 0x40400000 ∧
    mmaElem false .fp32 .bf16 .bf16 (a [0x3E80, 0x3F80, 0xC040]) (a x) 3 0 = 0xC1280000 := by decide

/-- R106, R101: VOP2.ADD of two rows writes the sums and makes the tile dirty. -/
theorem test_vop2 :
    let k := ran (.vop2 gd .add false false .rne .fp32 0 0 16)
      (fun k => (tiled k).putElems rowA 4 0 [0x3F800000, 0x40200000])
    (k.elems rowB 4).take 3 = [0x40000000, 0x40A00000, 0] ∧ (k.shape 1).getLsbD 22 = true := by decide

/-- R112, the program of 23: VRED.MAX to a scalar. -/
theorem test_vred :
    (ran (.vred gd .max .fp32 0 21) (fun k => (tiled k).putElems rowA 4 0 [0x3F800000, 0x40A00000])).sAt 21 =
      0x40A00000 := by decide

/-! ## The M, K and S slots -/

/-- R223, R235: MLEASE of the only core that asks holds the array. -/
theorem test_mlease : leaseOf (after (.mlease gd) (wk id)) 0 = .holding := by decide

/-- R276: KEYE.INIT sets COUNT and TARGET and keeps GEN. -/
theorem test_keye_init :
    let k := ran (.keyeInit gd 0 false 9 8)
      (fun k => { (k.setS 8 0x20).setS 9 24 with share := 64, ts := [(0x20, 5), (0x28, 2)] })
    eyeWord k 0x20 0 = 0 ∧ eyeWord k 0x20 1 = 24 ∧ eyeWord k 0x20 2 = 2 := by decide

/-- The worked block of 13: codes 7A D2 and zeros, scale 7B, and the new residuals. -/
theorem test_kcgrad_block :
    kcgradBlock (.b8 4 false false) .rne ([(0x41280000, 0), (0xBE99999A, 0)] ++ List.replicate 30 (0, 0)) =
      ([0x7A, 0xD2] ++ List.replicate 30 0, 0x7B, [0x3F000000, 0x3C4CCCC0] ++ List.replicate 30 0) := by decide

/-- R142, R149: XPOSE c2:w1, c1:w1 takes gang 0 at depth 1, with c2 as its output and c1 as its input. -/
theorem test_xpose :
    let ring : W64 := 2 ^ 32 + 2 ^ 31
    let k := ran (.xpose gd ⟨5, 0x22, 0x21, 0⟩) (fun k =>
      { (((k.setCfg (rCBDESC + 2) ring).setCfg (rCBDESC + 1) (ring + 2 ^ 58)).setS 5 0x200020000) with share := 64 })
    ((k.gangAt 0).st, (k.gangAt 0).depth) = (.running, 1) ∧
    (k.gangAt 0).cmd.map (fun x => (x.outs, x.ins)) = some ([2], [1]) := by decide

/-! ## Lanes -/

/-- R164, R165: MOVI then MOVHI give a constant of 32 bits (07), and IOP works on every active lane. -/
theorem test_lane_moves :
    (ranLane (.movhi pd 4 4 0x1234) (fun g => { g with regs := [(4, 0x5678)] })).reg 0 4 = 0x12345678 ∧
    (ranLane (.iop pd .add 5 6 7) (fun g => { g with regs := [(6, 0xFFFFFFFF), (7, 2), (262, 5)] })).reg 0 5 = 1 ∧
    (ranLane (.iop pd .add 5 6 7) (fun g => { g with regs := [(6, 0xFFFFFFFF), (7, 2), (262, 5)] })).reg 1 5 = 5 ∧
    ((ranLane (.lnop pd) id).fibre 1).pc = 0x1008 := by decide

/-- The worked CVT of 07: byte 2 of g3 takes the clamped code 0x7E, and SAT is set. -/
theorem test_lane_cvt :
    let t := (after (.cvt pd 2 0 fsat (.b8 4 false false) .fp32 3 1)
      (lw (fun g => { g with regs := [(1, 0x43960000), (3, 0x11223344), (257, 0), (259, 0)] }))).core 0
    (t.gangAt 0).reg 0 3 = 0x117E3344 ∧ (t.cfgAt rFSTAT).toNat / 32 = 1 := by decide

/-- R166, the program of 18: IDIV traps DIVZ in the lowest lane with a zero divisor. -/
theorem test_lane_divz :
    (((after (.idiv pd .divs 9 9 7) (lw (fun g => { g with regs := [(7, 1)] }))).core 0).halt.map
      (fun r => (r.trap.cause, r.trap.depth, r.trap.lane, r.trap.fpc))) = some (.divz, 1, 1, 0x1000) := by decide

/-- R196, R198: a ballot, and SHFL with the source lane in g25; k7 says that no lane gave a value. -/
theorem test_lane_collectives :
    (ranLane (.vote pd .ballot 3 0 2) (fun g => { g with regs := [(2, 3), (258, 3)] })).reg 1 3 = 3 ∧
    (ranLane (.shfl pd .idx 28 14 25 5 0)
      (fun g => { g with regs := [(5, 3), (14, 7), (25, 1), (270, 9)] })).reg 0 28 = 9 ∧
    ((ranLane (.shfl pd .idx 28 14 25 5 0)
      (fun g => { g with regs := [(5, 3), (14, 7), (25, 9), (270, 9)] })).fibre 0).k.getLsbD 7 = true := by decide

/-- R181: the branch of line 70 of 09 goes 15 instructions back in the lanes where k2 holds. -/
theorem test_lane_bra :
    ((ranLane (.bra ⟨false, 2⟩ 0xFFF1) id).fibre 0).pc = 0x1000 - 15 * 8 ∧
    ((ranLane (.bra ⟨true, 2⟩ 0xFFF1) id).fibre 0).pc = 0x1008 := by decide

/-- R201: the gang drains with its last fibre. -/
theorem test_lane_quit : (ranLane (.quit pd) id).st = .draining := by decide

/-! ## Traps, start and links -/

/-- The run of 18: CTL of a fault record of lane 5, cause DIVZ, slot S, depth 1. -/
theorem test_fault_ctl :
    faultCtl { trap := { cause := .divz, slot := 5, depth := 1, lane := 5, gang := 0 }, multi := false, time := 0, mpos := 0 } =
      0x000000214000500A := by decide

/-- The attempts of 25: three failures of die 1's bridge in stage 2, then a minimal start. -/
theorem test_bootwhy :
    let failed := fun s => runStart s 1 0 [0, 0, 3, 0, 0, 0, 0] [] 2 .none .none
    let s := runStart (failed (failed (failed State.reset))) 1 0 (List.replicate 6 0) [] 2 .none .none
    s.bootwhy = 0x0000001200030301 ∧ s.dieMask = 1 ∧ s.failed = 3 := by decide

/-- R369: CRC-64/XZ of the nine digits, its catalogued check value. -/
theorem test_crc : crc64 [0x31, 0x32, 0x33, 0x34, 0x35, 0x36, 0x37, 0x38, 0x39] = 0x995DC9BBDF1939FA := by decide

/-- R414, the record of its example: the BASE field of pool record 2 gets the address of DATA + 0x120. -/
theorem test_patch_record :
    let p := patchAt (leBytes 8 0x0104000000000040 ++ leBytes 8 0x0500000000000120) 0
    (p.kind, p.sect, p.off, p.tsect, p.addend) = (1, 4, 0x40, 5, 0x120) ∧
    patchWord (fun n => if n = 5 then 0x00200000 else 0) (fun _ => 0) p 0 = 0x0000000000200120 := by decide

/-- R411, R412, R418, R419: an unsigned object of MM1 with one section of names. -/
theorem test_load_status :
    let obj := fun (n : Nat) => leBytes 8 0x000031524F4E594C ++ leBytes 8 0x0000040100000001 ++ leBytes 8 0 ++ leBytes 8 n ++
      leBytes 8 128 ++ leBytes 8 128 ++ List.replicate 80 0 ++ leBytes 8 0x000000060000000A ++ leBytes 8 160 ++ leBytes 8 1 ++
      leBytes 8 0 ++ [0]
    let x : Context := { (default : Context) with fstr := true }
    loadStatus State.reset x (List.replicate 128 0) default = 1 ∧ loadStatus State.reset x (obj 0) default = 2 ∧
    loadStatus State.reset { x with sigreq := true } (obj 1) default = 3 ∧
    loadStatus State.reset { x with fstr := false } (obj 1) default = 5 ∧
    loadStatus State.reset x (obj 1) default = 0 := by decide +kernel

/-- R347: a bundle that branches to itself is a path without end; with SELV it is a selvedge point each time. -/
theorem test_selv_path :
    let code := fun (h : Nat) => leBytes 2 h ++ ((encode (.br gd 0)).map (fun w => match w with
      | .c u => leBytes 4 u.toNat
      | _ => [])).getD []
    let long := fun (h : Nat) => PathEnv.long ⟨code h, 1, default⟩ 20 [⟨0, [], none⟩]
    long 0x4000 = true ∧ long 0xC000 = false := by decide +kernel


/-! ## For each statement with hypotheses, states and operands that meet them

A theorem witness_X belongs to Obligations.X. Where a statement has several cases, each is met, at the boundary
of its range where it has one. -/

def pageT : Trans :=
  { ctx := 0, vbase := 0, size := 131072, pbase := 0, loc := 0, tdev := 0, r := true, w := true, xb := true, xl := true }
/-- Hypotheses that are common to the slots. -/
abbrev Runs (s : State) : Prop := CanIssue s 0 ∧ Enabled (s.core 0) gd

theorem witness_ScalarArithmetic :
    (∀ n ∈ [0, 1], Runs (wk (·.setS 2 (w64 n))) ∧ ((wk (·.setS 2 (w64 n))).core 0).sAt 2 = w64 n) ∧
    Enabled (w0.core 0) ⟨true, 1⟩ := by
  unfold Runs CanIssue Enabled; decide +kernel

theorem witness_SmoviSetsScalar : Runs w0 := by unfold Runs CanIssue Enabled; decide +kernel

theorem witness_ScmpWritesPredicate :
    Runs w0 ∧ (let w : BitVec 32 := 0x00280004; w.toNat % 128 = 4 ∧ 10 ≤ w.toNat / 2 ^ 18 % 16) ∧
    (let w : BitVec 32 := 0x001A0004
     w.toNat % 128 = 4 ∧ 6 ≤ w.toNat / 2 ^ 18 % 16 ∧ w.toNat / 2 ^ 17 % 2 = 1) := by
  unfold Runs CanIssue Enabled; decide +kernel

def offQ : State := wk (·.setQ 1 false)
theorem witness_DisabledSlotIsNop :
    (∃ x, semOf (.smovi ⟨true, 1⟩ 0 0) = some x ∧ CanIssue offQ 0 ∧ x.legal (offQ.core 0) = true ∧
      x.cls ∉ [1, 2, 3] ∧ ¬ Enabled (offQ.core 0) x.guard) ∧
    (∃ x, semOf (.mlease ⟨true, 1⟩) = some x ∧ x.legal (offQ.core 0) = true ∧
      ((offQ.core 0).prickAt ((encWords (.mlease ⟨true, 1⟩)).1.toNat % 128)).kind = 1 ∧
      ¬ Enabled (offQ.core 0) x.guard) := by
  unfold CanIssue Enabled
  exact ⟨⟨_, rfl, by decide +kernel⟩, ⟨_, rfl, by decide +kernel⟩⟩

/-- Scalar s1, a tile-store share of 64 bytes. -/
def at1 (n : Nat) : State := wk (fun k => { k.setS 1 (w64 n) with share := 64 })
theorem witness_ScalarMemory :
    (∀ v ∈ [56, 57, 64], Runs (at1 v)) ∧
    (let k := (at1 56).core 0; k.share = 56 + 8 ∧ (k.cfgAt rDBGMEM).getLsbD 0 = false ∧ tsPoisoned k 56 8 = false ∧
      clearOf k (loadDeps k .seq 0) = true) ∧
    xlate (at1 56) 0 56 .read = .ok pageT ∧ xlate (at1 56) 0 56 .write = .ok pageT ∧
    (pageT.loc ≠ 2 ∧ violates (at1 56) 0 (pageT.pa 56) 8 = false ∧ cxlDown (at1 56) (pageT.pa 56) = false ∧
      gmPoisoned (at1 56) (pageT.pa 56) 8 = false ∧ dupOpen (at1 56) pageT = false) ∧
    (∀ p ∈ [57, 64], pendWait ((at1 p).core 0) .seq 0 p 8 false = false) ∧ ((57 : Nat) % 8 ≠ 0 ∧ ((at1 64).core 0).share < 64 + 8) := by
  unfold Runs CanIssue Enabled
  exact ⟨by decide +kernel, by decide +kernel, rfl, rfl, by decide +kernel, by decide +kernel, by decide +kernel⟩

def nestRun : State := wk (fun k => (k.setS 1 4).setCfg rLSTAT (2 ^ 63))
theorem witness_ControlTransfer :
    Runs (at1 4) ∧ Runs (at1 5) ∧ Runs nestRun ∧ lsRun ((at1 4).core 0).lstat = false ∧
    lsRun (nestRun.core 0).lstat = true ∧ (∀ v ∈ [4, 5], ((at1 v).core 0).sAt 1 = w64 v) := by
  unfold Runs CanIssue Enabled; decide +kernel

/-- Ring c3 of two slots, with a fill. -/
def ringK (fill : Nat) (k : Core) : Core :=
  k.setCfg (rCBDESC + 3) (w64 (fill * 2 ^ 58 + 2 ^ 43 + 2 ^ 32 + 2 ^ 31))
theorem witness_RingPointersMove :
    (∀ n ∈ [0, 1, 2], let s := wk (ringK n)
      Runs s ∧ ((s.core 0).cfgAt (rCBDESC + 3)).getLsbD 31 = true ∧ gf ((s.core 0).cfgAt (rCBDESC + 3)) 58 6 = n ∧
      gf ((s.core 0).cfgAt (rCBDESC + 3)) 43 5 + 1 = 2 ∧ marksFree (s.core 0) [] [3] = true) ∧
    ((w0.core 0).cfgAt (rCBDESC + 3)).getLsbD 31 = false := by
  unfold Runs CanIssue Enabled; decide +kernel

theorem witness_CfgrReads : Runs w0 := by unfold Runs CanIssue Enabled; decide +kernel

theorem witness_ConfigurationWrites :
    Runs w0 ∧ (w0.core 0).priv = false ∧ lsRun (w0.core 0).lstat = false ∧
    ((w0.core 0).cfgAt rLOGSTAT).getLsbD 63 = false ∧ (∀ t, t < 8 → tileReady (w0.core 0) t = true) ∧
    (let s := wk (fun k => ((k.setCfg rMSTAT 1).setCfg rLSTAT (2 ^ 63)).setCfg rLOGSTAT (2 ^ 63))
     Runs s ∧ (s.core 0).priv = true ∧ lsRun (s.core 0).lstat = true ∧ ((s.core 0).cfgAt rLOGSTAT).getLsbD 63 = true) ∧
    (∀ v ∈ [0x00000000, 0x00001000, 0x00004000, 0x00025000, 0x00005000, 0x00009000], (gf (w64 v) 12 3, gf (w64 v) 15 6) ∈
      [(0, 0x00), (1, 0x00), (4, 0x00), (5, 0x04), (5, 0x00), (1, 0x01)]) := by
  unfold Runs CanIssue Enabled; decide +kernel

theorem witness_SpecialWrites :
    Runs w0 ∧ ringQuiet (w0.core 0) 3 = true ∧ marksFree (w0.core 0) [] [3] = true ∧
    ((w0.core 0).cfgAt rMON).getLsbD 0 = false ∧ (fmtOfCode (gf (0 : W64) 18 6)).isSome ∧
    (let s := wk (fun k => (k.setCfg rMON 1).setCfg rLOGSTAT (2 ^ 63))
     Runs s ∧ ((s.core 0).cfgAt rMON).getLsbD 0 = true ∧ ((s.core 0).cfgAt rLOGSTAT).getLsbD 63 = true) ∧
    (let s := { w0 with tokens := [0] }; CanIssue s 0 ∧ s.tokens.contains ((s.core 0).sAt 1) = true) ∧
    w0.tokens.contains ((w0.core 0).sAt 1) = false ∧
    ((w0.core 0).mcmds = [] ∧ (w0.core 0).mzeroAt = [] ∧ recording (w0.core 0) [] = false ∧ (w0.core 0).prick = []) := by
  unfold Runs CanIssue Enabled; decide +kernel

theorem witness_WaitsForMemory :
    (∀ v ∈ [8, 9], Runs (at1 v) ∧ ((at1 v).core 0).sAt 1 = w64 v) ∧ xlate (at1 8) 0 8 .read = .ok pageT ∧
    (pageT.loc ≠ 2 ∧ violates (at1 8) 0 (pageT.pa 8) 8 = false ∧ cxlDown (at1 8) (pageT.pa 8) = false ∧
      gmPoisoned (at1 8) (pageT.pa 8) 8 = false ∧ dupOpen (at1 8) pageT = false ∧ clearOf ((at1 8).core 0) (loadDeps ((at1 8).core 0) .seq 0) = true ∧
      ((at1 8).core 0).failures = [] ∧
      w64 (leNat (overlay 8 (bytesAt (at1 8).mem (pageT.pa 8) 8) (forwards ((at1 8).core 0) .seq .gm 8 8))) =
        ((at1 8).core 0).sAt 2) ∧
    (let s := wk (fun k => { (k.setS 1 8).setS 2 1 with waitsDue := true })
     CanIssue s 0 ∧ (s.core 0).waitsDue = true ∧ (s.core 0).waitsHeld = false ∧ (s.core 0).sAt 2 = 1) ∧
    (let s := wk (fun k => { (k.setS 1 8).setS 2 1 with waitsHeld := true })
     CanIssue s 0 ∧ (s.core 0).waitsHeld = true ∧ (s.core 0).sAt 2 = 1) ∧
    (let s := wk (fun k => { k.setCfg rWTMO 5 with waitsFrom := some 3, cycles := 8 })
     gf ((s.core 0).cfgAt rWTMO) 0 32 = (s.core 0).cycles - 3) := by
  unfold Runs CanIssue Enabled
  exact ⟨by decide +kernel, rfl, by decide +kernel, by decide +kernel, by decide +kernel, by decide +kernel⟩

/-- A store of the sequencer that has not landed. -/
def aStore : BufStore :=
  { id := 1, agent := .seq, handle := 0, space := .ts, addr := 0, data := [7], tr := Trans.none, deps := [], sent := false }
def holds : State := wk (fun k => { k with buf := [aStore], nextId := 2 })
theorem witness_OrderingInstructions :
    Runs w0 ∧ enginesQuiet (w0.core 0) = true ∧ storesLanded (w0.core 0) .seq = true ∧ (w0.core 0).failures = [] ∧
    Runs holds ∧ storesLanded (holds.core 0) .seq = false ∧ fenceMet holds 0 .seq (scopeCode .core) = true ∧
    4 ≤ scopeCode .system ∧ fenceMet holds 0 .seq (scopeCode .system) = false ∧
    (0 ≤ w0.gszm1 ∧ ((w0.core 0).sAt 1).toNat % 2 ^ 10 = w0.dev) ∧
    (let s := wk (·.setS 1 1); CanIssue s 0 ∧ s.gszm1 < ((s.core 0).sAt 1).toNat % 2 ^ 10) ∧
    (∀ up ∈ [true, false], let s := { wk (·.setS 1 1) with gszm1 := 1, fabUp := up }
      Runs s ∧ ((s.core 0).sAt 1).toNat % 2 ^ 10 ≤ s.gszm1 ∧ ((s.core 0).sAt 1).toNat % 2 ^ 10 ≠ s.dev) ∧
    ((3 : BitVec 16).getLsbD 0 = true ∧ (3 : BitVec 16).getLsbD 1 = true ∧ 1 ∈ outUnder (holds.core 0) .seq 0 ∧ outstanding (holds.core 0) 1 = true) := by
  unfold Runs CanIssue Enabled; decide +kernel

def arrivedAt0 : State := wk (fun k => { k with arrived := some (0, 3, 0, 0) })
theorem witness_BarrierRules :
    Runs w0 ∧ enginesQuiet (w0.core 0) = true ∧ fenceMet w0 0 .seq (scopeCode .core) = true ∧ (w0.core 0).failures = [] ∧
    (w0.core 0).halt = none ∧
    (let recd := (((w0.motifOn 0).bind (fun m => w0.launch? m.launch)).map (·.recd)).getD []
     scopeCode .core ≤ coScope recd ∧ coScope recd < scopeCode .cluster) ∧
    (∃ m, arrivedAt0.motifOn 0 = some m ∧ (arrivedAt0.core 0).arrived = some (0, 3, 0, 0) ∧
      (∀ x ∈ participants arrivedAt0 0 0, (motifCore arrivedAt0 x).arrived = some (0, 3, 0, 0) ∧
        ∀ i < 4, ((motifCore arrivedAt0 x).mon i).armed = false) ∧ farArrived arrivedAt0 0 0 3 = true) := by
  unfold Runs CanIssue Enabled
  exact ⟨by decide +kernel, by decide +kernel, by decide +kernel, by decide +kernel, by decide +kernel, by decide +kernel, ⟨_, rfl, by decide +kernel⟩⟩

/-- Core 0 has arrived at a barrier of its cluster, core 1 of the same launch has not. -/
def oneMissing : State :=
  { wk (fun k => { k with arrived := some (1, 3, 0, 0) }) with
    motifs := w0.motifs ++ w0.motifs.map (fun m => { m with id := 2, core := some 1, ranOn := [1] }) }
theorem witness_BarrierRules_missing :
    (oneMissing.core 0).arrived = some (1, 3, 0, 0) ∧ (oneMissing.motifOn 0).isSome ∧
    ∃ x ∈ participants oneMissing 0 1, (motifCore oneMissing x).arrived = none := by
  decide +kernel

theorem witness_LaunchAndBind :
    (∀ v ∈ [64, 65], Runs (at1 v) ∧ ((at1 v).core 0).sAt 1 = w64 v ∧ (at1 v).devQueue.length < 256 ∧
      storesLanded ((at1 v).core 0) .seq = true) ∧
    (∀ p ∈ [64, 128], ∀ acc ∈ [Acc.read, Acc.write], xlate (at1 64) 0 p acc = .ok pageT ∧
      violates (at1 64) 0 (pageT.pa p) 64 = false) ∧
    (let k := (at1 64).core 0
     ((0x70 : Nat) ≤ 0x70 ∧ ¬ (0x70 ≤ 0x6F ∨ (k.priv = true ∧ 0x20 ≤ 0x6F ∧ 0x6F < 0x68))) ∧
     cxlDown (at1 64) (pageT.pa 64) = false ∧ gmPoisoned (at1 64) (pageT.pa 64) 32 = false ∧ dupOpen (at1 64) pageT = false ∧
     clearOf k (loadDeps k .seq 0) = true ∧
     imageBad 0x70 0 0 0 0 = false ∧ imageBad 0x70 1 0 0 0 = true) := by
  unfold Runs CanIssue Enabled
  refine ⟨by decide +kernel, ?_, by decide +kernel⟩
  intro p hp acc ha
  fin_cases hp <;> fin_cases ha <;> exact ⟨rfl, by decide +kernel⟩

def logOn : State := wk (·.setCfg rLOGSTAT (2 ^ 63))
def unpicks : State :=
  wk (fun k => { k.setS 1 64 with upk := some { entry := 0, stage := 0, busy := false, lease := none, map := [], reread := false, w0 := 0 } })
theorem witness_RecordMonitorUnpick :
    Runs w0 ∧ ((w0.core 0).cfgAt rLOGSTAT).getLsbD 63 = false ∧ (∀ r ∈ [rLOGB, rLOGP, rLOGL], gf ((w0.core 0).cfgAt r) 6 51 = 0) ∧
    Runs logOn ∧ ((logOn.core 0).cfgAt rLOGSTAT).getLsbD 63 = true ∧
    (let s := wk (·.setCfg rLOGB 64); Runs s ∧ gf ((s.core 0).cfgAt rLOGP) 6 51 < gf ((s.core 0).cfgAt rLOGB) 6 51) ∧
    storesLanded (w0.core 0) .seq = true ∧ monBad (w0.core 0) 0 = true ∧
    (let s := wk (fun k => { (k.setCfg rMON 0xCA000).setCfg (rMON + 2) 24 with share := 24 })
     Runs s ∧ monBad (s.core 0) 0 = false) ∧
    (((issued w0 0 6 0 (fun k => monCheck k 0 (monSum k 0))).core 0).cfgAt rMONSTAT).getLsbD 0 = false ∧
    (let s := wk (·.setCfg (rMON + 3) 0x3FF0000000000000)
     Runs s ∧ (((issued s 0 6 0 (fun k => monCheck k 0 (monSum k 0))).core 0).cfgAt rMONSTAT).getLsbD 0 = true ∧
     (s.core 0).halt = none) ∧
    Runs unpicks ∧ enginesQuiet (unpicks.core 0) = true ∧ (unpicks.core 0).buf = [] ∧
    gf ((unpicks.core 0).cfgAt rLOGSTAT) 6 51 * 64 < ((unpicks.core 0).sAt 1).toNat ∧
    lsRun (unpicks.core 0).lstat = false ∧ lsRun (nestRun.core 0).lstat = true := by
  unfold Runs CanIssue Enabled; decide +kernel

def nestOf (n : Nat) : State := wk (·.setCfg rLDIM (w64 n))
theorem witness_LoopNest :
    (∀ n ∈ [0, 1], Runs (nestOf n) ∧ dupIter ((nestOf n).core 0) = false ∧ lsRun ((nestOf n).core 0).lstat = false ∧
      tripCount ((nestOf n).core 0) 1 = n) ∧
    tripCount ((wk (fun k => (k.setCfg rLDIM 0xFFFFFFFF).setCfg (rLDIM + 1) 0x10001)).core 0) 2 = 2 ^ 48 + 2 ^ 32 - 2 ^ 16 - 1 ∧
    skipBundles w0 0 (fetchTrap 0) 1 6 = .ok 8 ∧
    Runs nestRun ∧ lsRun (nestRun.core 0).lstat = true ∧
    (let k := (wk (fun k => (k.setCfg rLSTAT (2 ^ 63)).setCfg rLDIM 2)).core 0
     let passes := tripCount k (gf k.lstat 55 3 + 1) + (gf k.lstat 58 3 + 1) - 1
     k.lstat.getLsbD 61 = false ∧ gf k.lstat 43 6 = gf k.lstat 49 6 ∧ gf (k.cfgAt rLPASS) 0 49 + 1 < passes ∧
     gf ((k.setCfg rLPASS 1).cfgAt rLPASS) 0 49 + 1 = passes) := by
  unfold Runs CanIssue Enabled
  exact ⟨by decide +kernel, by decide +kernel, rfl, by decide +kernel⟩

theorem witness_SystemCalls :
    Runs w0 ∧ lsRun (w0.core 0).lstat = false ∧ storesLanded (w0.core 0) .seq = true ∧ noticesOut w0 0 = false ∧
    (w0.core 0).failures = [] ∧ (w0.core 0).priv = false ∧ ((w0.core 0).cfgAt rSVEC).getLsbD 0 = false ∧ (w0.core 0).stepOver = false ∧
    (w0.core 0).halt = none ∧
    (let s := wk (fun k => { k.setCfg rSVEC 1 with stepOver := true })
     Runs s ∧ ((s.core 0).cfgAt rSVEC).getLsbD 0 = true ∧ (s.core 0).stepOver = true) ∧
    (let s := wk (·.setCfg rMSTAT 1); Runs s ∧ (s.core 0).priv = true ∧ lsRun (s.core 0).lstat = false) ∧
    (let s := wk (fun k => (k.setCfg rMSTAT 1).setCfg rLSTAT (2 ^ 63)); Runs s ∧ (s.core 0).priv = true ∧
      lsRun (s.core 0).lstat = true) ∧
    Runs nestRun ∧ (nestRun.core 0).priv = false := by
  unfold Runs CanIssue Enabled; decide +kernel

theorem witness_VectorElementwise :
    Runs (wk tiled) ∧ NotRecording ((wk tiled).core 0) ∧ RowReady ((wk tiled).core 0) 0 rowA ∧
    RowReady ((wk tiled).core 0) 16 rowB ∧ EngineBound ((wk tiled).core 0) (.vop2 gd .add false false .rne .fp32 0 0 16) ∧
    EngineBound ((wk tiled).core 0) (.vfma gd .fma false false .rne .fp32 0 0 0 16) ∧
    EngineBound ((wk tiled).core 0) (.vop1 gd .mov false .rne .fp32 0 16) ∧
    EngineBound ((wk tiled).core 0) (.vsel gd false .fp32 0 0 0 16) ∧
    EngineBound ((wk tiled).core 0) (.vint gd .and false .fp32 0 0 16) ∧
    EngineBound ((wk tiled).core 0) (.vmovi gd 0 .fp32 16) ∧ EngineBound ((wk tiled).core 0) (.vsfu gd .rcp 0 16) ∧
    EngineBound ((wk tiled).core 0) (.vcmp gd 1 true .lt false .fp32 0 0 16) := by
  unfold Runs CanIssue Enabled NotRecording RowReady EngineBound; decide +kernel

theorem witness_RowWriteReads : 4 ∈ [1, 2, 4, 8] ∧ rowA.x = false := by decide

/-- The tiles with rows of 512 bytes, and ring c3 of one slot of 64 bytes. -/
def wide (k : Core) : Core := ((k.setCfg rTSHAPE 0x801C00).setCfg (rTSHAPE + 1) 0x801C00).setCfg (rCBDESC + 3) 0x180000000
def narrow (k : Core) : Core := { (tiled k).setCfg (rCBDESC + 3) 0x180000000 with share := 64 }
theorem witness_VectorMovesAndConversions :
    (let k := (wk narrow).core 0
     Runs (wk narrow) ∧ NotRecording k ∧ RowReady k 0 rowA ∧ RowReady k 16 rowB ∧
     EngineBound k (.vred gd .max .fp32 0 3) ∧ EngineBound k (.vrows gd .b32 15 0 0 0 16) ∧
     (0 + (15 + 1) = rowB.rb / 4 ∧ rowB.rb / 4 < 1 + (15 + 1)) ∧
     EngineBound k (.vcols gd false .b32 15 0 0 16) ∧ EngineBound k (.vcols gd true .b32 15 0 0 16) ∧
     shapeConf (k.shape 0) = true ∧ tileReady k 0 = true ∧ shapeRows (k.shape 0) = rowB.rb / 4 ∧
     shapeRowB (k.shape 0) / 4 = 15 + 1 ∧ EngineBound k (.vcvt gd .bf16 1 false .rne .fp32 0 16) ∧
     EngineBound k (.vsca gd false .rne 0 0 0 16) ∧ rowB.rb / 4 ≤ rowA.rb ∧ rowB.row < rowA.rb ∧ rowB.x = false ∧
     EngineBound k (.vcvto gd 0x23 .rne (.b8 4 false false) true 0 6 0 16) ∧ cbValid (k.cb 3) = true ∧
     dstReady (k.cb 3) 0x23 = true ∧ marksFree k [] [3] = true ∧ 16 * 2 ≤ cbSlotBytes (k.cb 3) ∧ k.buf = [] ∧
     clearOf k (loadDeps k .seq 0) = true ∧ (k.cfgAt rDBGMEM).getLsbD 0 = false ∧ lsRun k.lstat = false) ∧
    (let k := (wk wide).core 0
     Runs (wk wide) ∧ RowReady k 0 ⟨0, 0, 512, false⟩ ∧ RowReady k 16 ⟨1, 0, 512, false⟩ ∧
     cbSlotBytes (k.cb 3) < 512 / 4 * 2) := by
  unfold Runs CanIssue Enabled NotRecording RowReady EngineBound; decide +kernel

/-- As narrow, with a filled slot in ring c3. -/
def filled (k : Core) : Core := (narrow k).modCfg (rCBDESC + 3) (fun w => sf w 58 6 1)
theorem witness_VectorRowAccess :
    (let k := (wk narrow).core 0
     Runs (wk narrow) ∧ NotRecording k ∧ RowReady k 0 rowA ∧ (k.cfgAt rDBGMEM).getLsbD 0 = false ∧
     clearOf k (loadDeps k .seq 0) = true ∧ EngineBound k (.vldt gd 0 0 .own 0 true 0 5 0) ∧
     EngineBound k (.vstt gd 0 0 .own 0 true 0 5 0) ∧ EngineBound k (.vldt gd 0x23 0 .own 0 false 0 5 0) ∧
     EngineBound k (.vstt gd 0x23 0 .own 0 false 0 5 0) ∧ (k.sAt 5).toNat + 64 = k.share ∧ tsPoisoned k 0 64 = false ∧
     cbValid (k.cb 3) = true ∧ dstReady (k.cb 3) 0x23 = true ∧ marksFree k [] [3] = true ∧
     0 * rowA.rb + rowA.rb = cbSlotBytes (k.cb 3) ∧ forwards k .seq .ts 0 128 = [] ∧ k.fstr = false ∧
     cbValid (k.cb 4) = false) ∧
    (let k := (wk filled).core 0
     Runs (wk filled) ∧ srcReady (k.cb 3) 3 = true ∧ marksFree k [3] [] = true) ∧
    (let s := wk (fun k => (narrow k).setS 5 1); Runs s ∧ (((s.core 0).sAt 5).toNat + 0 * 64) % 64 ≠ 0) ∧
    (let s := wk (fun k => (narrow k).setS 5 64)
     Runs s ∧ (s.core 0).share < ((s.core 0).sAt 5).toNat + rowA.rb) ∧
    (let k := (wk filled).core 0
     cbSlotBytes (k.cb 3) < 1 * rowA.rb + rowA.rb) := by
  unfold Runs CanIssue Enabled NotRecording RowReady EngineBound; decide +kernel

/-- Motif 2 of the same launch on core 1, and a V-slot row at 0 of every share. -/
def paired : State :=
  { (wk narrow).modCore 1 (fun k => { k with share := 64, motif := some 2 }) with
    motifs := w0.motifs ++ w0.motifs.map (fun m => { m with id := 2, core := some 1, ranOn := [1] }) }
theorem witness_VectorRowAccess_peer :
    (Runs paired ∧ NotRecording (paired.core 0) ∧ RowReady (paired.core 0) 0 rowA ∧
     ((paired.core 0).sAt 5).toNat + 64 = (paired.core 0).share ∧
     peerGrant paired 0 1 = true ∧ peerGrant paired 0 0 = true ∧ peerGrant paired 0 2 = false ∧
     tsPoisoned (paired.core 1) 0 64 = false ∧ 1 ∈ members paired 0 ∧ 2 ∉ members paired 0 ∧
     (∀ sp ∈ [peerSpace 0 0, peerSpace 0 1, .mcast], forwards (paired.core 0) .seq sp 0 128 = []) ∧
     (∀ b ∈ (paired.core 0).buf, b.under .seq 0 = false)) := by
  unfold Runs CanIssue Enabled NotRecording RowReady; decide +kernel

theorem witness_IntegerFunctions :
    fmtIsInt .uint8 = true ∧ fmtIsInt .int32 = true ∧ (1 : W32) ≠ 0 ∧ (1 ≤ 32 ∧ 0 + 32 ≤ 32) ∧ (31 : Nat) < 32 := by decide

/-- A cluster in which core 0 has a lease and core 1 another. -/
def leases (a b : Lease) : State := { w0 with clusters := [(0, { Cluster.empty with lease := [a, b, .idle, .idle] })] }
def termEnds (b : Lease) : State :=
  { w0 with clusters := [(0, { Cluster.empty with lease := [.holding, b, .idle, .idle], tcmd := 64 })] }
theorem witness_LeaseChanges :
    (∀ s ∈ [leases .idle .idle, leases .idle .holding, leases .waiting .holding, leases .holding .idle],
      CanIssue s 0 ∧ Enabled (s.core 0) gd ∧ NotRecording (s.core 0) ∧ (s.cluster 0).lease.length = 4 ∧
      (s.cluster 0).giveUp.length = 4 ∧ EngineBound (s.core 0) (.mlease gd) ∧ EngineBound (s.core 0) (.munlease gd) ∧
      (s.core 0).mcmds = [] ∧ (s.core 1).mcmds = [] ∧ giveUpOf s 0 = none ∧ giveUpOf s 1 = none) ∧
    leaseOf (leases .holding .idle) 0 ≠ .idle ∧
    (let s := setGiveUp (leases .holding .idle) 0 (some 1)
     CanIssue s 0 ∧ leaseOf s 0 = .holding ∧ (giveUpOf s 0).isSome ∧ EngineBound (s.core 0) (.munlease gd)) ∧
    (let s := (termEnds .waiting).modCore 0 (fun k => { k with upk := some { (default : Upk) with lease := some 2 } })
     ((s.core 0).upk.bind (·.lease)).isSome ∧ ((termEnds .waiting).core 0).upk = none) ∧
    (leaseOf (leases .idle .idle) 0 = .idle ∧ holder ((leases .idle .idle).cluster 0) = none ∧
      ∀ l ∈ ((leases .idle .idle).cluster 0).lease, l ≠ .waiting) ∧
    holder ((leases .idle .holding).cluster 0) = some 1 ∧ leaseOf (leases .waiting .holding) 0 = .waiting ∧
    (holder ((leases .holding .idle).cluster 0) = some 0 ∧
      ∀ j < 4, j ≠ 0 → ((leases .holding .idle).cluster 0).lease.getD j .idle = .idle) ∧
    (∀ b ∈ [Lease.idle, .waiting], holder ((termEnds b).cluster 0) = some 0 ∧ ((termEnds b).cluster 0).tcmd = 64 ∧
      4096 ≤ ({ termEnds b with time := 4096 } : State).time - ((termEnds b).cluster 0).termAt ∧
      ((termEnds b).core 0).mcmds = [] ∧ giveUpOf (termEnds b) 0 = none) := by
  unfold CanIssue Enabled NotRecording EngineBound; decide +kernel

/-- An outstanding MMA of 1 × 1 × 1 on slots l0 and l1 into tile 0. -/
def mmaI : Instr := .mma gd 0 { mo with slb := 1 }
def mcmd1 : MCmd :=
  { id := 1, agent := .seq, i := mmaI, h := 0, baddr := 0, fa := .bf16, fb := .bf16, landed := [], recs := [],
    fetched := true, accepted := true, reissue := false, leaseBefore := 2, deps := [], fmtrec := 0, logAt := none, ran := 1,
    parent := none }
/-- Core 0 holds the array and slots l0 and l1; `ms` are outstanding. -/
def array (ms : List MCmd) (st : Lease) : State :=
  { wk (fun k => { tiled k with mcmds := ms, nextId := 2 }) with
    clusters := [(0, { Cluster.empty with
      lease := [st, .idle, .idle, .idle], queue := ms.map (fun m => (0, m.id)),
      slots := [{ motif := 1, claimed := [0, 1], bytes := [], poison := [] }] })] }
theorem witness_OperandSlots :
    (∀ s ∈ [array [] .holding, array [mcmd1] .holding], CanIssue s 0 ∧ Enabled (s.core 0) gd ∧ NotRecording (s.core 0) ∧
      (s.core 0).motif = some 1 ∧ ((s.cluster 0).slots.map (·.motif)).Nodup ∧ (∀ o ∈ (s.cluster 0).slots, o.claimed ≠ []) ∧
      EngineBound (s.core 0) (.mclaim gd 63 0) ∧ EngineBound (s.core 0) (.mrels gd 0 1) ∧
      ((s.cluster 0).slots.map (fun o => o.claimed.length)).sum + (63 + 1) ≤ 256) ∧
    (∀ l ∈ ((array [] .holding).core 0).mcmds.flatMap mSlots ++ ((array [] .holding).core 0).kcmds.flatMap kSlots, False) ∧
    1 ∈ ((array [mcmd1] .holding).core 0).mcmds.flatMap mSlots := by
  unfold CanIssue Enabled NotRecording EngineBound; decide +kernel

def fetchCmd : MCmd :=
  { mcmd1 with i := .mmah gd 5 true false 0 { mo with slb := 1 }, recs := [0, 2, 0x200000001, 0], fetched := false,
               accepted := false }
theorem witness_MatrixCommands :
    (let s := array [] .holding
     CanIssue s 0 ∧ Enabled (s.core 0) gd ∧ NotRecording (s.core 0) ∧ EngineBound (s.core 0) mmaI ∧
     mmaReady (solo s 0 1) s { mo with slb := 1 } = true ∧ mmaStop (solo s 0 1) s mmaI = none ∧
     EngineBound (s.core 0) fetchCmd.i ∧ mmaStop (solo s 0 1) s fetchCmd.i = none ∧
     EngineBound (s.core 0) (.mdrain gd) ∧ (s.core 0).mcmds = [] ∧ (s.core 0).mzeroAt = [] ∧
     EngineBound (s.core 0) (.mzero gd 0) ∧ tileReady (s.core 0) 0 = true ∧ shapeConf ((s.core 0).shape 0) = true ∧
     tileReady (s.core 0) 2 = true ∧ shapeConf ((s.core 0).shape 2) = false) ∧
    (let s := array [] .idle
     CanIssue s 0 ∧ mmaReady (solo s 0 1) s { mo with slb := 1 } = true ∧ shapeConf ((s.core 0).shape 0) = true ∧
     leaseOf s 0 = .idle) ∧
    (let s := array [mcmd1] .holding; CanIssue s 0 ∧ (s.core 0).mcmds ≠ []) ∧
    (let m := { fetchCmd with landed := fetchPieces fetchCmd }
     let s := array [m] .holding
     (s.core 0).mcmds.find? (·.id == m.id) = some m ∧ m.fetched = false ∧ m.recs ≠ [] ∧ fetchPieces m ≠ [] ∧
     ∀ p ∈ fetchPieces m, p ∈ m.landed) ∧
    (let k := (wk (fun k => { k with mzeroAt := [(0, 4), (1, 5)], cycles := 20 })).core 0
     ∀ x ∈ k.mzeroAt, x.1 = 0 → x.2 + 16 ≤ k.cycles) := by
  unfold CanIssue Enabled NotRecording EngineBound; decide +kernel

theorem witness_ArrayCompletes :
    let s := array [mcmd1] .holding
    (s.cluster 0).queue = (0, 1) :: [] ∧ (s.core 0).mcmds.find? (·.id == 1) = some mcmd1 ∧ mcmd1.i = mmaI ∧
    mcmd1.logAt = none ∧ mcmd1.parent = none ∧ powered (s.core 0) = true ∧
    mmaCycles mcmd1 = mcmd1.ran ∧ operandPoison (opsOf s 0) mcmd1 = none ∧ tileAway (s.core 0) 0 = false ∧
    isX ((s.core 0).shape 0) = false ∧ 4 * (0 + 1) ≤ shapeRowB ((s.core 0).shape 0) ∧
    (let x := s.modCore 0 (·.setCfg rTSHAPE 0x821000)
     isX ((x.core 0).shape 0) = true ∧ 4 * (0 + 1) ≤ shapeRowB ((x.core 0).shape 0)) ∧
    tileAway ((s.modCore 0 (fun k => { k with refill := [0] })).core 0) 0 = true := by decide +kernel

/-- Scalars of a transfer of one row of 64 bytes: from 64 to 0 in a share of 128, into registers g0 of gang 0's lanes,
into the operand slots, or with a pair for the packet. -/
def xf (k : Core) : Core :=
  { ((((tiled k).setS 1 64).setS 2 0).setS 3 64).setCfg (rCBDESC + 3) 0x180000000 with share := 128 }
def xo : KXfer := { kx with src := .ts, dst := .ts, sd := 2, ss := 1, sn := 3 }
def xferRuns (s : State) (i : Instr) (x : KXfer) : Prop :=
  Runs s ∧ NotRecording (s.core 0) ∧ EngineBound (s.core 0) i ∧ kReady s 0 x = true ∧ kStop (solo s 0 3) s i x = none
def xg (k : Core) : Core := { (xf k).setS 2 0x100000000 with share := 1024, gang := [(0, { gang1 with bound := 64 })] }
def xfArr : State := (array [] .holding).modCore 0 (fun k => { xf k with mcmds := [] })
theorem witness_TransferIssues :
    xferRuns (wk xf) (.kcopy gd xo) xo ∧ xferRuns (wk xf) (.kmcast gd xo) xo ∧ xferRuns (wk xf) (.kpull gd xo 1) xo ∧
    (let x := { xo with dst := .gm, src := .gm }; xferRuns xfArr (.kfill gd x) x) ∧
    xferRuns (wk xg) (.kgang gd xo) xo ∧
    (let x := { xo with dst := .gm }; xferRuns (wk xg) (.kcgrad gd x (.b8 4 false false) .rne 0) x ∧
      lsRun ((wk xg).core 0).lstat = false) ∧
    (let x := { xo with dst := .ring, ddesc := 4 }
     Runs (wk xf) ∧ kReady (wk xf) 0 x = true ∧ cbValid (((wk xf).core 0).cb (descH x.ddesc)) = false) := by
  unfold xferRuns Runs CanIssue Enabled NotRecording EngineBound; decide +kernel

/-- An eyelet at off, which has been written. -/
def eyes (off share : Nat) : State :=
  wk (fun k => { k.setS 8 (w64 off) with share := share, ts := [(8, 1)], eyes := [off / 4, off / 4 + 1, off / 4 + 2, off / 4 + 3] })
theorem witness_EyeletInstructions :
    (∀ p ∈ [(0, 16), (8, 16), (16, 31)], let s := eyes p.1 p.2
      Runs s ∧ NotRecording (s.core 0) ∧ EngineBound (s.core 0) (.keyeInit gd 0 false 9 8) ∧
      EngineBound (s.core 0) (.keyeAdd gd 0 false 9 8) ∧ EngineBound (s.core 0) (.keyeWait gd 0 9 8)) ∧
    (let k := (eyes 0 16).core 0
     (k.sAt 8).toNat % 16 = 0 ∧ (k.sAt 8).toNat + 16 = k.share ∧ (k.cfgAt rDBGMEM).getLsbD 0 = false ∧ k.buf = [] ∧
     clearOf k (loadDeps k .seq 0) = true ∧ clearOf k (outAll k .seq ++ hdepOf k .seq 0) = true ∧ tsPoisoned k 0 16 = false ∧
     tsPoisoned k 8 4 = false ∧ eyeKnown k 0 = true ∧ eyeWord k 0 2 ≠ (k.sAt 9).toNat % 2 ^ 32) ∧
    (let s := (eyes 0 16).modCore 0 (·.setS 9 1); Runs s ∧ eyeWord (s.core 0) 0 2 = ((s.core 0).sAt 9).toNat % 2 ^ 32) ∧
    ((8 : Nat) % 16 ≠ 0 ∧ 31 < 16 + 16) ∧
    (let k := (wk (fun k => { (k.setS 8 0).setS 9 1 with share := 16, ts := [(0, 1), (4, 2)], eyes := [0, 1, 2, 3] })).core 0
     eyeKnown k 0 = true ∧
     eyeWord k 0 1 ≠ 0 ∧ eyeWord k 0 1 ≤ (eyeWord k 0 0 + (k.sAt 9).toNat) % 2 ^ 32 ∧
     ¬ eyeWord k 0 1 ≤ (eyeWord k 0 0 + (k.sAt 5).toNat) % 2 ^ 32) := by
  unfold Runs CanIssue Enabled NotRecording EngineBound; decide +kernel

/-- An outstanding KCOPY of one row from 64 to 0 of the tile store. -/
def kcmd1 : KCmd :=
  { id := 1, agent := .seq, i := .kcopy gd xo, scal := [0, 64, 64, 0, 0, 0], baddr := 0, src := 64, dst := 0, sring := none,
    dring := none, landed := [], packet := [], draws := 1, finished := false, deps := [], quiet := false, parent := none }
def moves (x : KCmd) : State := wk (fun k => { xf k with kcmds := [x], nextId := 2 })
theorem witness_TransferProgress :
    (let k := (moves kcmd1).core 0
     k.kcmds.find? (·.id == 1) = some kcmd1 ∧ kcmd1.i = .kcopy gd xo ∧ xo.src = .ts ∧ xo.dst = .ts ∧ xo.cmpl = .none ∧
     clearOf k kcmd1.deps = true ∧ k.frozen = false ∧ xo.ch.toNat ∉ k.frozenCh ∧ 0 ∉ kcmd1.landed ∧
     kPiece kcmd1 0 = some (0, 0, 64) ∧ tsPoisoned k 64 64 = false ∧ (∀ j, j < 64 → kOverlaps 0 kcmd1 (0 + j) = false) ∧
     0 ≤ rowAt kcmd1.src 0 0 + 0 ∧ rowAt kcmd1.src 0 0 + 0 < 2 ^ 64 ∧
     ∀ v ∈ [{ (default : OldGran) with core := 0, agent := .seq, handles := [0] }], v.core = 0 ∧ v.agent = kcmd1.agent ∧
       v.handles.contains xo.oh.toNat = true) ∧
    (let x := { kcmd1 with landed := [0] }
     let k := (moves x).core 0
     k.kcmds.find? (·.id == 1) = some x ∧ x.parent = none ∧ x.quiet = false ∧ x.finished = false ∧ kAllLanded x = true) ∧
    (let o := { xo with adv := true, dst := .ring, ddesc := 3 }
     let x := { kcmd1 with i := .kcopy gd o, landed := [0], dring := some (3, 0) }
     let k := (moves x).core 0
     o.adv = true ∧ kAllLanded x = true ∧ (∀ y ∈ k.kcmds, y.id < x.id → hasAdv y = false) ∧ x.sring = none) := by
  decide +kernel

/-- Rings c1, filled, and c2, with room; opcode 0x70 bound to a routine of two fibres. -/
def ringed (p : W64) (k : Core) : Core :=
  { ((k.setCfg (rCBDESC + 2) 0x180000000).setCfg (rCBDESC + 1) 0x400000180000000).setS 5 p with
    share := 64, prick := [(0x70, { kind := 2, inpl := false, fibm1 := 1, regm1 := 7, gpri := 0, use := 0, outp := 0, eng := 0,
                                    entry := 0x2000, adj := 0 })] }
def stitches (s : State) (op : Nat) (ds : List Desc) : Prop :=
  Runs s ∧ NotRecording (s.core 0) ∧ descsLegal ((s.core 0).prickAt op) ds = true ∧
  (∀ n ∈ List.range 3, hasBit ((s.core 0).prickAt op).use n = true → cbValid ((s.core 0).cb (descH (ds.getD n 0))) = true) ∧
  descsReady (s.core 0) ((s.core 0).prickAt op) ds = true ∧
  marksFree (s.core 0) (inRings ((s.core 0).prickAt op) ds) (outRings ((s.core 0).prickAt op) ds) = true ∧
  nestedWait (s.core 0) = false ∧ freeGang (s.core 0) = some 0
def bad (s : State) (op : Nat) (ds : List Desc) : Bool :=
  libBad op ((s.core 0).sAt 5) ((portsOf (s.core 0) ((s.core 0).prickAt op) ds).map (·.1.size))
def scmd1 (lib : Option Instr) (op : Nat) : SCmd :=
  { opc := op, w0 := 0, w1 := 0, sa := 0x200020000, baddr := 0, entry := prickReset op, outs := [2], ins := [1],
    ports := [⟨0, 64, true⟩, ⟨64, 64, false⟩], slots := [none, none], lib := lib, parent := none, unpick := false,
    g45 := 0, logAt := none }
def drains : State := wk (·.setGang 0 { Gang.empty with st := .draining, depth := 1, cmd := some (scmd1 none 0x70) })
def libs (x : SCmd) : State := wk (·.setGang 0 { Gang.empty with st := .running, depth := 1, cmd := some x })
theorem witness_StitchCommands :
    (let s := wk (fun k => (ringed 0x1000200020000 k).setCfg (rCBDESC + 3) 0x180000000)
     (∀ x ∈ [(0x60, [0x22, 0x21, 0]), (0x61, [0x22, 0x21, 0x21]), (0x62, [0x22, 0x21, 0x21]), (0x63, [0x22, 0x21, 0]),
         (0x64, [0x22, 0x21, 0]), (0x65, [0x22, 0x23, 0x21]), (0x66, [0x22, 0x21, 0]), (0x67, [0x22, 0x21, 0x21])],
       stitches s x.1 x.2 ∧ ((s.core 0).prickAt x.1).kind = 1 ∧ bad s x.1 x.2 = false) ∧
     stitches s 0x70 [0, 0, 0] ∧ ((s.core 0).prickAt 0x70).kind = 2 ∧ ((s.core 0).prickAt 0x71).kind = 0) ∧
    (let s := wk (ringed 0x20000); stitches s 0x60 [0x22, 0x21, 0] ∧ bad s 0x60 [0x22, 0x21, 0] = true) ∧
    (let s := wk (fun k => { ringed 0 k with gang := (List.range 4).map (fun g => (g, gang1)) })
     Runs s ∧ freeGang (s.core 0) = none ∧ descsLegal ((s.core 0).prickAt 0x70) [0, 0, 0] = true ∧
     descsLegal ((s.core 0).prickAt 0x70) [0x20, 0, 0] = false ∧ opcClass 0x70 = .s ∧ opcClass 0x20 ≠ .s) := by
  unfold stitches Runs CanIssue Enabled NotRecording; decide +kernel

theorem witness_StitchCommands_complete :
    (let k := drains.core 0
     (k.gangAt 0).cmd = some (scmd1 none 0x70) ∧ k.frozen = false ∧ (k.gangAt 0).stopped = false ∧
     (k.gangAt 0).st = .draining ∧ gangQuiet k 0 = true) ∧
    (∀ x ∈ [(Instr.xpose gd, 0x60), (.gather gd, 0x61), (.scatter gd, 0x62), (.softmax gd, 0x63), (.lnorm gd, 0x64),
         (.topk gd, 0x65), (.sort gd, 0x66), (.segsum gd, 0x67)],
       let cmd := { scmd1 (some (x.1 ⟨5, 0x22, 0x21, 0x21⟩)) x.2 with ports := [⟨0, 64, true⟩, ⟨64, 64, false⟩, ⟨128, 64, false⟩] }
       let k := (libs cmd).core 0
       (k.gangAt 0).cmd = some cmd ∧ k.frozen = false ∧ (k.gangAt 0).st = .running ∧ (k.gangAt 0).stopped = false ∧
       (k.gangAt 0).pend = [] ∧ libPoison k cmd = none ∧ cmd.lib.isSome ∧ (∀ v ∈ k.vold, False) ∧
       (let a := libPar cmd.sa; a.n ≤ a.cols ∧ a.rows = 2 ∧ a.cols = 2)) := by
  decide +kernel

/-! ## Lanes -/

def isActive : Prop := GangIssues (lw id) 0 0 0x1000
/-- Where no register is pending, only the bound of the gang counts. -/
theorem ready_of {s : State} {c g pc : Nat} {i : Instr} (hp : ((s.core c).gangAt g).pend = [])
    (hm : ((s.core c).gangAt g).bound ≤ 256)
    (hb : ∀ u ∈ laneRegs i, u.top < ((s.core c).gangAt g).bound) : RegsReady s c g pc i :=
  ⟨hm, hb, fun _ _ _ _ _ _ => by simp [hp]⟩
/-- A form of each integer, float and collective instruction that names its registers below the bound. -/
def laneForms : List Instr :=
  [.lnop pd, .movi pd 2 1, .movhi pd 2 3 1, .mov pd 2 3, .movd pd 2 4, .sel pd false 1 2 3 4, .sel pd true 1 2 4 6,
   .lid pd .lane 2, .iop pd .add 2 3 4, .iopi pd .add 2 3 1, .idiv pd .divs 2 3 4, .imad pd .mad 2 3 4 5,
   .imad pd .madws 2 3 4 6, .isat pd .adds 2 3 4, .ibit pd .clz 2 3, .bfx pd false 2 3 31 0, .bfi pd 2 3 4 31 0,
   .iop64 pd .add 2 4 6, .icmp pd .eq 1 2 3, .icmpi pd .eq 1 2 0, .icmp64 pd .eq 1 2 4, .plop pd .and 1 2 3 false,
   .pmov pd .p2g 2 0, .pmov pd .g2p 0 2, .fop pd .add fm 2 3 4, .ffma pd .fma fm 2 3 4 5, .funop pd .neg fm 2 3,
   .sfu pd .rcp 2 3, .dop pd .add fm 2 4 6, .dfma pd .fma fm 2 4 6 8, .dun pd .neg fm 2 4, .hop pd .add true fm 2 3 4,
   .hfma pd .fma false fm 2 3 4 5, .fcmp pd .lt 1 2 3, .dcmp pd .lt 1 2 4, .cvt pd 0 0 fm .int32 .fp64 2 4,
   .cvt pd 0 0 fm .fp64 .fp32 2 4] ++
  [.vote pd .all 1 2 3, .vote pd .ballot 4 2 3, .shfl pd .idx 2 3 4 5 0, .shfl pd .up 2 3 0 5 1,
   .scan pd false .add 2 3 4, .scan pd true .add 2 3 4, .lred pd .add 2 3 4, .bra pd 1, .brx pd 2, .laneRet pd 2,
   .laneCall pd 4 1, .callx pd 4 2]
theorem laneForms_ready : ∀ i ∈ laneForms, RegsReady (lw id) 0 0 0x1000 i := fun i hi =>
  ready_of (by decide +kernel) (by decide +kernel)
    ((by decide +kernel : ∀ i ∈ laneForms, ∀ u ∈ laneRegs i, u.top < (((lw id).core 0).gangAt 0).bound) i hi)

theorem witness_LaneInteger :
    isActive ∧ (batchOf (lw id) 0 0 0x1000 (.lnop pd)).act = [0, 1] ∧
    (let s := lw (fun g => { g with regs := [(4, 1), (260, 1)] })
     GangIssues s 0 0 0x1000 ∧ ∀ l ∈ (batchOf s 0 0 0x1000 (.lnop pd)).act, ((s.core 0).gangAt 0).reg l 4 ≠ 0) ∧
    [0, 1].find? (fun l => (((lw id).core 0).gangAt 0).reg l 4 == 0) = some 0 := by
  unfold isActive GangIssues; decide +kernel

theorem witness_LaneFloat : isActive ∧ ∀ i ∈ laneForms, RegsReady (lw id) 0 0 0x1000 i := by
  refine ⟨?_, laneForms_ready⟩
  unfold isActive GangIssues; decide +kernel

theorem witness_LaneControl :
    isActive ∧ (∀ l ∈ [0, 1], ((((lw id).core 0).gangAt 0).pair l 2).toNat % 2 ^ 57 % 8 = 0) ∧
    (let s := lw (fun g => { g with regs := [(258, 4)] })
     GangIssues s 0 0 0x1000 ∧ RegsReady s 0 0 0x1000 (.brx pd 2) ∧
     [0, 1].find? (fun l => (((s.core 0).gangAt 0).pair l 2).toNat % 2 ^ 57 % 8 != 0) = some 1) ∧
    (∀ p ∈ [([0, 1], true), ([1], false), ([], false)], let s := lw (fun g => { g with stepOver := p.1 })
      GangIssues s 0 0 0x1000 ∧
      decide (∀ l ∈ (batchOf s 0 0 0x1000 (.lbrk 7)).lanes, l ∈ ((s.core 0).gangAt 0).stepOver) = p.2) ∧
    ((((lw id).core 0).gangAt 0).bound ≤ 32 ∧ 31 < (((lw id).core 0).gangAt 0).bound) ∧
    (let s := lw (fun g => { g with pend := [regKey 1 3] })
     GangIssues s 0 0 0x1000 ∧ 1 ∈ (batchOf s 0 0 0x1000 (.iop pd .add 2 3 4)).act ∧
     regKey 1 3 ∈ ((s.core 0).gangAt 0).pend) := by
  unfold isActive GangIssues RegsReady; decide +kernel

theorem witness_LaneCollectives : isActive ∧ ∀ i ∈ laneForms, RegsReady (lw id) 0 0 0x1000 i := witness_LaneFloat

/-- A gang whose routine has an output port of 64 bytes, in a share of 64 bytes; g2 is what `v` gives each lane. -/
def ported (v : Nat → W32) : State :=
  (lw (fun g => { g with regs := [(2, v 0), (258, v 1)], cmd := some { scmd1 none 0x70 with ports := [⟨0, 64, true⟩, ⟨0, 64, false⟩] } })).modCore 0
    (fun k => { k with share := 64 })
def laneStores : List (Instr × LAcc) :=
  [(.st pd .b32 0 2 4 0, ⟨.gm, 4, 0, 2, 0, .write⟩), (.stts pd .b32 0 2 4 0, ⟨.ts, 4, 0, 2, 0, .write⟩),
   (.sttp pd 0 .b32 0 2 4 0, ⟨.port 0, 4, 0, 2, 0, .write⟩), (.stpeer pd 0 false .b32 0 2 4 0, ⟨.peer 0, 4, 0, 2, 0, .write⟩),
   (.stpeer pd 0 true .b32 0 2 4 0, ⟨.mcast, 4, 0, 2, 0, .write⟩)]
theorem witness_LaneStoresAndChecks :
    (let s := ported (fun _ => 60)
     GangIssues s 0 0 0x1000 ∧ ∀ x ∈ laneStores, RegsReady s 0 0 0x1000 x.1 ∧
       (lFirstStop s (batchOf s 0 0 0x1000 x.1) x.1 x.2).isNone = true ∧ lPendWait s (batchOf s 0 0 0x1000 x.1) x.2 = false) ∧
    (let s := ported (fun l => if l = 0 then 60 else 2)
     GangIssues s 0 0 0x1000 ∧ ∀ x ∈ laneStores, (lFirstStop s (batchOf s 0 0 0x1000 x.1) x.1 x.2).map (·.1) = some 1) ∧
    (let s := ported (fun _ => 64)
     let x := (s.core 0).gangAt 0
     let r := ((x.reg 0 2).toNat : Int) + 0
     r % 4 = 0 ∧ ((gangPort x 0).size : Int) < r + 4 ∧ ((s.core 0).share : Int) < r + 4 ∧
     (gangPort x 0).out = true ∧ (gangPort x 1).out = false) ∧
    ((61 : Int) % 4 ≠ 0 ∧ (-4 : Int) % 4 = 0 ∧ (-4 : Int) < 0) := by
  unfold GangIssues RegsReady; decide +kernel

def laneLoads : List (Instr × LAcc) :=
  [(.ld pd .b32 false 0 3 2 0, ⟨.gm, 4, 0, 2, 0, .read⟩), (.ldts pd .b32 false 0 3 2 0, ⟨.ts, 4, 0, 2, 0, .read⟩),
   (.ldtp pd 1 .b32 false 0 3 2 0, ⟨.port 1, 4, 0, 2, 0, .read⟩),
   (.ldpeer pd 0 .b32 false 0 3 2 0, ⟨.peer 0, 4, 0, 2, 0, .read⟩),
   (.atom pd .add false false 0 3 2 4 0, ⟨.gm, 4, 0, 2, 0, .atomic⟩),
   (.atomts pd .add false false 0 3 2 4 false 0 0, tsAcc false false 0 0 2 0),
   (.cas pd false 0 3 2 4 5 0, ⟨.gm, 4, 0, 2, 0, .atomic⟩), (.casts pd false 0 3 2 4 5 false 0 0, tsAcc false false 0 0 2 0),
   (.lwait pd .eq .core 1 2 4 1, ⟨.gm, 8, 0, 2, 0, .read⟩)]
theorem witness_LaneLoadsStart :
    (let s := ported (fun _ => 56)
     GangIssues s 0 0 0x1000 ∧ ∀ x ∈ laneLoads, RegsReady s 0 0 0x1000 x.1 ∧
       (∀ l ∈ (batchOf s 0 0 0x1000 x.1).lanes, (((s.core 0).gangAt 0).fibre l).arrived = .no) ∧
       (batchOf s 0 0 0x1000 x.1).act ≠ [] ∧ (lFirstStop s (batchOf s 0 0 0x1000 x.1) x.1 x.2).isNone = true ∧
       lPendWait s (batchOf s 0 0 0x1000 x.1) x.2 = false) ∧
    (let s := ported (fun l => if l = 0 then 56 else 2)
     GangIssues s 0 0 0x1000 ∧ ∀ x ∈ laneLoads, (lFirstStop s (batchOf s 0 0 0x1000 x.1) x.1 x.2).map (·.1) = some 1) ∧
    (batchOf (lw id) 0 0 0x1000 (.ld ⟨true, 0⟩ .b32 false 0 3 2 0)).act = [] := by
  unfold GangIssues RegsReady; decide +kernel

/-- A batch of lane 0 that waits for a word of the tile store, or of global memory. -/
def laneOp (i : Instr) (sp : Space) : LaneOp :=
  { i := i, pc := 0x1000, lanes := [0], addrs := [(0, sp, 8)], deps := [], got := [], bad := [], since := 0 }
def awaits (i : Instr) (sp : Space) (t : Nat) : State :=
  lw (fun g => { g with fibres := [(0, { fibre1 with st := .waiting }), (1, fibre1)], ops := [laneOp i sp], cycle := t })
theorem witness_LaneValuesReturn :
    (∀ i ∈ [Instr.ldts pd .b32 true 0 2 3 0, .ldts pd .b64 false 0 2 3 0, .atomts pd .add false true 0 2 3 4 false 0 0,
        .atomts pd .add true false 0 2 3 4 false 0 0, .casts pd false 0 2 3 4 5 false 0 0],
      let s := awaits i .ts 0
      let k := s.core 0
      (k.gangAt 0).ops[0]? = some (laneOp i .ts) ∧ (laneOp i .ts).addrs = [(0, .ts, 8)] ∧ (laneOp i .ts).got = [] ∧
      k.frozen = false ∧ clearOf k (laneOp i .ts).deps = true ∧ (laneOp i .ts).lanes.Nodup ∧
      (∀ q ∈ (laneOp i .ts).lanes, ((k.gangAt 0).fibre q).st = .waiting) ∧ tsPoisoned k 8 8 = false ∧
      (∀ v ∈ k.vold, False)) ∧
    (∀ t ∈ [127, 128], let i := Instr.lwait pd .eq .core 1 2 4 2
      let x := ((awaits i .gm t).core 0).gangAt 0
      x.ops[0]? = some (laneOp i .gm) ∧ (laneOp i .gm).addrs = [(0, .gm, 8)] ∧ (laneOp i .gm).lanes.Nodup ∧
      0 ∈ (laneOp i .gm).lanes ∧ (∀ q ∈ (laneOp i .gm).lanes, (x.fibre q).st = .waiting) ∧
      ((awaits i .gm t).core 0).failures = [] ∧
      (2 : BitVec 16) ≠ 0 ∧ x.cycle = t ∧ (laneOp i .gm).since + 64 * 2 = 128) := by
  decide +kernel

theorem witness_LaneFencesAndHandles :
    isActive ∧ ((lw id).core 0).failures = [] ∧
    (∀ l ∈ (batchOf (lw id) 0 0 0x1000 (.lnop pd)).act, storesLanded ((lw id).core 0) (.fibre 0 l) = true) ∧
    (let s := (lw id).modCore 0 (fun k => { k with buf := [{ aStore with agent := .fibre 0 1 }] })
     GangIssues s 0 0 0x1000 ∧ 1 ∈ (batchOf s 0 0 0x1000 (.lnop pd)).act ∧
     storesLanded (s.core 0) (.fibre 0 1) = false ∧ lfenceMet s 0 0 .rel false .core [0, 1] = true ∧
     lfenceMet s 0 0 .rel false .system [0, 1] = false ∧ lfenceMet s 0 0 .acq true .core [0, 1] = false) ∧
    (∀ b ∈ [[], [{ aStore with agent := .fibre 0 1 }]],
      let s := ((lw id).modCore 0 (fun k => { k with buf := b })).modCore 0 (fun k => k.setGang 0 { k.gangAt 0 with ops :=
        [{ laneOp (.lfence pd .rel true .core) .gm with addrs := [(0, .gm, 0), (1, .gm, 0)] }] })
      (∃ op, ((s.core 0).gangAt 0).ops[0]? = some op ∧ op.i = .lfence pd .rel true .core ∧ op.addrs.map (·.1) = [0, 1]) ∧
      (s.core 0).frozen = false ∧ (s.core 0).failures = [] ∧ (batchOf s 0 0 0x1000 (.lnop pd)).act = [0, 1] ∧
      lfenceMet s 0 0 .rel true .core [0, 1] = b.isEmpty) := by
  unfold isActive GangIssues
  refine ⟨by decide +kernel, by decide +kernel, by decide +kernel, by decide +kernel, ?_⟩
  intro b hb
  fin_cases hb <;> exact ⟨⟨_, rfl, rfl, rfl⟩, by decide +kernel⟩

/-- A gang of one fibre, and one whose second fibre stands elsewhere. -/
def alone : State := lw (fun g => { g with fibres := [(0, fibre1)] })
def apart : State := lw (fun g => { g with fibres := [(0, fibre1), (1, { fibre1 with pc := 0x2000, stamp := 1 })] })
theorem witness_LaneFibres :
    (let x := (alone.core 0).gangAt 0
     GangIssues alone 0 0 0x1000 ∧ (batchOf alone 0 0 0x1000 (.lnop pd)).act = [0] ∧
     RegsReady alone 0 0 0x1000 (.spawn pd 4 2 1) ∧ 4 ≤ x.bound ∧ freeSlot x = some 1 ∧
     (liveLanes x).length < (alone.core 0).fcap ∧ (alone.core 0).failures = [] ∧
     (∀ l ∈ liveLanes x, l ∈ (batchOf alone 0 0 0x1000 (.lnop pd)).act) ∧ x.cmd = none ∧
     farStores (alone.core 0) (.fibre 0 0) = false ∧
     (let s := alone.modCore 0 (fun k => { k with buf :=
        [{ aStore with agent := .fibre 0 0, space := .gm, tr := { pageT with loc := 2 } }] })
      GangIssues s 0 0 0x1000 ∧ farStores (s.core 0) (.fibre 0 0) = true) ∧
     (batchOf alone 0 0 0x1000 .lbar).lanes = liveLanes x ∧ storesLanded (alone.core 0) (.fibre 0 0) = true) ∧
    (let s := alone.modCore 0 (fun k => { k with fcap := 1 }); (s.core 0).fcap ≤ (liveLanes ((s.core 0).gangAt 0)).length) ∧
    (let s := alone.modCore 0 (ringed 0)
     GangIssues s 0 0 0x1000 ∧ ((s.core 0).prickAt 0x70).kind = 2 ∧
     (batchOf s 0 0 0x1000 (.role 0x70)).lanes = liveLanes ((s.core 0).gangAt 0) ∧ ((s.core 0).gangAt 0).pend = [] ∧
     (let k := (s.modCore 0 (fun k => k.setGang 0 { k.gangAt 0 with pend := [regKey 1 3] })).core 0
      (k.gangAt 0).pend ≠ [] ∧ (k.prickAt 0x70).kind = 2)) ∧
    (GangIssues apart 0 0 0x1000 ∧ 1 ∈ liveLanes ((apart.core 0).gangAt 0) ∧
     1 ∉ (batchOf apart 0 0 0x1000 .lbar).lanes ∧ arrivedAt (((apart.core 0).gangAt 0).fibre 1) = .no) := by
  unfold GangIssues RegsReady; decide +kernel

/-- Core 0 with a command word in pair g10 of its only fibre. -/
def tissues (w : Nat) : State :=
  (lw (fun g => { g with fibres := [(0, fibre1)], regs := [(10, w32 w), (11, w32 (w / 2 ^ 32))] })).modCore 0 tiled
theorem witness_TissueIssues :
    (let s := tissues 0x0001000006081820
     let i := Instr.tissue pd false 10 0
     let x := (s.core 0).gangAt 0
     let w := x.pair 0 10
     let e : Env := { c := 0, who := .fibre 0 0, pre := s, base := (x.cmd.map (·.baddr)).getD 0, next := 0, lanes := [0] }
     GangIssues s 0 0 0x1000 ∧ RegsReady s 0 0 0x1000 i ∧ (batchOf s 0 0 0x1000 i).act = 0 :: [] ∧
     opcClass (opcOf w) = .v ∧ (guardOf w).spe = false ∧ (guardOf w).qsel = 0 ∧ ((s.core 0).prickAt (opcOf w)).kind = 1 ∧
     (slotOf (s.core 0) .v w 0).any (fun y => y.legal (s.core 0) && !nestBad y.i && (nestScalars y.i).isEmpty &&
       y.ready e s && (y.check e s).isNone) = true) ∧
    (∀ p ∈ [(0x70, 1, true), (0x70, 2, true), (0x2200210060, 1, false)],
      let s := (tissues p.1).modCore 0 (fun k => ({ ringed 0 k with gangs := 2 } : Core).setGang 0 { k.gangAt 0 with depth := p.2.1 })
      let i := Instr.tissue pd false 10 0
      let w := ((s.core 0).gangAt 0).pair 0 10
      let e : Env := { c := 0, who := .fibre 0 0, pre := s, base := 0, next := 0, lanes := [0] }
      let pr := (s.core 0).prickAt (opcOf w)
      let ds : List Desc := [fld w 16 16, fld w 32 16, fld w 48 16]
      GangIssues s 0 0 0x1000 ∧ RegsReady s 0 0 0x1000 i ∧ (pr.kind = 2 ∨ pr.kind = 1) ∧ freeGang (s.core 0) = some 1 ∧
      (slotOf (s.core 0) .s w 0).any (fun y => y.legal (s.core 0) && !nestBad y.i && (!p.2.2 || (y.check e s).isNone)) = true ∧
      decide (descsReady (s.core 0) pr ds = true ∧ marksFree (s.core 0) (inRings pr ds) (outRings pr ds) = true) = p.2.2) ∧
    opcClass (opcOf (((((tissues 0x08641801).core 0).gangAt 0).pair 0 10))) = .c ∧
    (let s := tissues 0x70
     let w := (((s.core 0).gangAt 0).pair 0 10)
     GangIssues s 0 0 0x1000 ∧ ((s.core 0).prickAt (opcOf w)).kind = 0 ∧
     (slotOf (s.core 0) .s w 0).any (fun y => y.legal (s.core 0) && !nestBad y.i) = true) := by
  unfold GangIssues RegsReady; decide +kernel

/-! ## Bundles, stores, launches and motifs -/

/-- A bundle of one C slot where core 0 fetches. -/
def wc (w : Nat) (f : Core → Core) : State := (State.reset.withFetchWord 32 w).modCore 0 f
theorem witness_BundlesIssue :
    (CanIssue w0 0 ∧ ∃ m, w0.motifOn 0 = some m ∧ m.st ≠ .preempting) ∧
    (let s := w0.setMotif { (w0.motifOn 0).getD default with st := .preempting }
     CanIssue s 0 ∧ ∃ m, s.motifOn 0 = some m ∧ m.st = .preempting ∧ lsRun (s.core 0).lstat = false) ∧
    (let s := State.reset.withFetchWord 16 0x0200
     CanIssue s 0 ∧ fetchBundle s 0 0 (fetchTrap 0) = .badHeader 0x0200) := by
  unfold CanIssue
  exact ⟨⟨by decide +kernel, _, rfl, by decide +kernel⟩, ⟨by decide +kernel, _, rfl, by decide +kernel⟩,
    by decide +kernel, rfl⟩

/-- A bundle whose slot decodes, and what its checks answer. -/
def bundleOf (s : State) (ready stopped : Bool) : Prop :=
  CanIssue s 0 ∧ ∃ b len x, fetchBundle s 0 0 (fetchTrap 0) = .bundle b len ∧ decodeSlots (s.core 0) b = .ok [x] ∧
    b.hdr.selv = false ∧ x.legal (s.core 0) = true ∧ SlotSem.enabled (s.core 0) x = true ∧
    (let s1 := cacheFetch s 0 0 len
     let e : Env := marked { c := 0, who := .seq, pre := s1, base := 0, next := va57 len } [x]
     recording (s1.core 0) [x] = false ∧ x.ready e s1 = ready ∧ (x.check e s1).isSome = stopped) ∧
    ∀ e t b, x.poll e t b = t
/-- SMOVI s5, -5 issues; ADVR c0, 1 of an empty ring waits; SOP.DIVU by zero stops. -/
theorem witness_BundlesIssue_slots :
    bundleOf (wc 0xFFFB2803 id) true false ∧
    bundleOf (wc 0x0000000A (·.setCfg rCBDESC 0x180000000)) false false ∧ bundleOf (wc 0x18000801 id) true true := by
  unfold bundleOf CanIssue
  refine ⟨⟨by decide +kernel, _, _, _, rfl, rfl, ?_⟩, ⟨by decide +kernel, _, _, _, rfl, rfl, ?_⟩,
    by decide +kernel, _, _, _, rfl, rfl, ?_⟩ <;>
  exact ⟨by decide +kernel, by decide +kernel, by decide +kernel, by decide +kernel, fun _ _ _ => rfl⟩

theorem witness_StoresLand :
    ((holds.core 0).buf.find? (·.id == 1) = some aStore ∧ (holds.core 0).frozen = false ∧
      clearOf (holds.core 0) (aStore.deps.filter (· != 1)) = true ∧ aStore.space = .ts ∧ aStore.agent = .seq) ∧
    (let st := { aStore with space := .gm, addr := 64, tr := pageT }
     let s := wk (fun k => { k with buf := [st], nextId := 2 })
     (s.core 0).buf.find? (·.id == 1) = some st ∧ st.tr.loc ≠ 2 ∧ heldByMove s (st.tr.pa 64) 1 = false ∧
     cxlDown s (st.tr.pa 64) = false) := by decide +kernel

/-- A launch record of one level of cores, or two levels of which the outer spans two devices. -/
def rec0 : List W64 := [0, 0x4000, 0, 1, 0, 0, 0, 0, 0x190000010] ++ List.replicate 7 0
def recSpan : List W64 := [0x2000000000000000, 0x4000, 0, 1, 0, 0, 0, 0, 0x222000000, 0x290000010] ++ List.replicate 6 0
def ctx0 : Context := { (default : Context) with num := 0, fn := 0, frames := 0x10000000, fring := 0x20000, fringN := 0 }
def queue1 : HostQueue := { q := 1, fn := 0, base := 0x8000, n := 0, head := 0, tail := 1, seq := 0, alive := true }
def hostS (r : List W64) (cs : List Context) : State :=
  { State.reset with started := true, queues := [queue1], contexts := cs,
                     mem := putBytes [] 0x8000 (r.flatMap (fun w => leBytes 8 w.toNat)) }
/-- A context whose lowest GiB is at device 1, and a device with a link to it. -/
def farCtx : Context := { ctx0 with root := 0x40000 }
def farS (r : List W64) : State :=
  { hostS r [farCtx] with
    mem := putBytes (putBytes (hostS r []).mem 0x40000 (leBytes 8 0x60001)) 0x60000 (leBytes 8 0x1000000000008F),
    fabUp := true, gszm1 := 1, routes := [(1, 0x1000000000000020)], ports := [(0, { FPort.empty with up := true })] }
/-- A record with one argument word at 0. -/
def rec1 : List W64 := rec0.set 0 0x0010000000000000
def launch1 : Launch := { (default : Launch) with id := 1, recd := rec0, st := .waiting, total := 1 }
def withLaunch (l : Launch) : State := { hostS rec0 [ctx0] with launches := [l], nextLaunch := 2 }
theorem witness_LaunchesEnter :
    (∀ cs ∈ [[ctx0], []], let s := hostS rec0 cs
      s.queues.find? (fun x => x.q == 1 && x.alive) = some queue1 ∧ queue1.head ≠ queue1.tail ∧
      queue1.fn ∉ s.frozenFns ∧ cxlDown s 0x8030 = false ∧ cxlDown s 0x8038 = false ∧ capOn s = false ∧ wordsOf (physRead s 0x8000 128) = rec0) ∧
    recCode (hostS rec0 [ctx0]) 0 true rec0 = none ∧ rec0.getD 5 0 = 0 ∧ recCode (hostS rec0 []) 0 true rec0 = some 8 ∧
    (let s := { hostS rec0 [ctx0] with capctl := 0x8100000000000000 }
     capOn s = true ∧ capQueue s = 1 ∧ (capRecord s 1 rec0).1.isSome) ∧
    (let s := { farS rec1 with capctl := 0x8100000000000000 }
     capOn s = true ∧ capQueue s = 1 ∧ wordsOf (physRead s 0x8000 128) = rec1 ∧ (capRecord s 1 rec1).1 = none) := by
  decide +kernel

theorem witness_LaunchesEnter_eligible :
    distRead (withLaunch launch1) 0 1 8 ((List.range (recNargs rec0)).map (fun n => (va57 (recArgs rec0 + 8 * n), 8))) =
      .bytes [] ∧
    (let s := withLaunch launch1; s.launch? 1 = some launch1 ∧ launch1.st = .waiting ∧ launch1.deps = []) ∧
    (let s := { hostS rec0 [ctx0] with
       launches := [{ launch1 with deps := [7, 9] }, { launch1 with id := 2, token := 7, st := .failed 1 },
                    { launch1 with id := 3, token := 9 }] }
     tokenState s 7 = some false ∧ tokenState s 9 = none) ∧
    (∀ b ∈ [2, 3], let l := { launch1 with st := .eligible, boost := b }
      (withLaunch l).launch? 1 = some l ∧ effClass l = b ∧
      ∀ p ∈ [(2000 * (b + 1) * 2250, true), (2000 * (b + 1) * 2250 - 1, false)],
        elapsed { withLaunch l with time := p.1 } l.eligAt (2000 * (b + 1)) = p.2) ∧
    (let s := { hostS rec0 [ctx0] with fabUp := true, gszm1 := 1 }
     1 ≠ s.dev ∧ 1 ≤ s.gszm1 ∧ (1 + 1) % (s.gszm1 + 1) = s.dev ∧ levelsOk (levelsOf recSpan) = true ∧
     devLvl (levelsOf recSpan) = some 0 ∧ 1 < ((levelsOf recSpan).getD 0 default).extent ∧
     (s.context? (gf (recSpan.getD 4 0) 0 16)).map (·.dying) = some false) := ⟨rfl, by decide +kernel⟩

def placed : Launch := { launch1 with st := .eligible, total := 1 }
def spanL : Launch := { launch1 with recd := recSpan, st := .eligible, total := 4 }
def spanS (l : Launch) : State := { withLaunch l with fabUp := true, gszm1 := 1 }
/-- A motif of launch 1 that is off its core, with frame 0. -/
def away : Motif :=
  { (default : Motif) with id := 1, launch := 1, lidx := [0], st := .swapped, frame := some 0, saved := some Core.empty }
theorem witness_WorkPlaced :
    (let s := withLaunch placed
     s.launch? 1 = some placed ∧ open' placed = true ∧ nextIdx s placed = some 0 ∧ isTurn s placed = true ∧
     returnsFirst s placed 0 = false ∧ (unitOf placed 0) = [0] ∧ 1 ≤ framesLeft s 0 ∧ s.context? 0 = some ctx0 ∧
     placeTo s placed 0 = some [0] ∧ spans placed = false ∧ placed.replayOf = 0 ∧
     some [0] ≠ some [1]) ∧
    (let s := spanS spanL
     s.launch? 1 = some spanL ∧ open' spanL = true ∧ nextIdx s spanL = some 0 ∧ isTurn s spanL = true ∧
     returnsFirst s spanL 0 = false ∧ (unitOf spanL 0).length ≤ framesLeft s 0 ∧ placeTo s spanL 0 = some [0, 1] ∧
     spans spanL = true ∧ spanL.reserved = [] ∧ (∀ y ∈ s.launches, y.reserved = []) ∧
     ∀ d ∈ groupDevices s spanL, d < s.dev → d ∈ spanL.devices) ∧
    (let l := { spanL with reserved := [0, 1], devices := [1] }
     nextIdx (spanS l) l = some 0 ∧ (spanS l).launch? 1 = some l ∧ (spanS l).noPlace = false ∧
     ((spanS l).context? l.ctx).any (·.dying) = false ∧
     ∀ d ∈ groupDevices (spanS l) l, d ≠ (spanS l).dev → d ∈ l.devices) ∧
    (let l := { placed with placed := 1 }
     let s := { withLaunch l with motifs := [away] }
     s.motif? 1 = some away ∧ s.launch? away.launch = some l ∧ s.context? l.ctx = some ctx0 ∧
     frameOf s away = some 0x10000000 ∧ open' l = true ∧ isTurn s l = true ∧ l.replayOf = 0 ∧
     swappedGroup s l away = [away] ∧ returnsFirst s l away.index = false ∧ returnTo s l [away] = some [0] ∧
     (let full := { s with retired := List.range 256 }; returnTo full l (swappedGroup full l away) = none)) ∧
    (∀ p ∈ [(1, 1), (2 ^ 57, 1), (4, 0)], let s := { withLaunch placed with mem := putBytes [] 0x10000080 (leBytes 8 p.1) }
      (loadRegs s 0x10000000 Core.empty).bpc = p.1 ∧ decide (p.1 % 2 = 1 ∨ 2 ^ 57 ≤ p.1) = decide (p.2 = 1)) := by
  decide +kernel

/-- Core 0 holds motif 1 of launch 1, in a state and with frame 0. -/
def onCore (st : MotifSt) (f : Core → Core) : State :=
  { (withLaunch { placed with st := .running, placed := 1 }).modCore 0 (fun k => f { k with motif := some 1 }) with
    motifs := [{ away with st := st, core := some 0, saved := none, ranOn := [0] }] }
theorem witness_MotifsLeave :
    (let s := onCore .running (fun k => { k with ended := true })
     let k := s.core 0
     (s.motifOn 0).map (fun m => (m.st, m.core)) = some (.running, some 0) ∧ k.ended = true ∧ k.frozen = false ∧
     enginesQuiet k = true ∧ k.buf = [] ∧ noticesOut s 0 = false ∧ (∀ e ∈ k.gang, e.2.st = .free) ∧ (s.launch? 1).isSome ∧
     peersQuiet s 0 = true) ∧
    (∀ n ∈ [4499999, 4500000], let s := { onCore .preempting id with time := n }
      (s.motifOn 0).map (fun m => (m.st, m.pendingTrap, decide (s.time ≥ m.preemptAt + 2000 * 2250))) =
        some (.preempting, false, decide (n = 4500000)) ∧ (s.core 0).selvedge = false) ∧
    (let s := { onCore .halting id with clusters := [(0, { Cluster.empty with lease := [.holding, .idle, .idle, .idle] })] }
     leaseOf s 0 ≠ .idle ∧ (s.motifOn 0).map (·.core) = some (some 0) ∧
     (s.motifOn 0).any (fun m => ((haltLease s 0 m).motifOn 0).isSome) = true) ∧
    ((onCore .preempting id).motifOn 0).map (fun m => (m.st, m.core)) = some (.preempting, some 0) ∧
    (let s := onCore .halting (fun k => { k with halt := some default, seqStopped := true })
     (s.motifOn 0).map (·.st) = some .halting ∧ (s.core 0).halt = some default ∧ (s.core 0).seqStopped = true ∧ upkBetween (s.core 0) = true) ∧
    (let s := onCore .preempting (fun k => { k with selvedge := true })
     ∃ m, s.motifOn 0 = some m ∧ frameOf s m = some 0x10000000 ∧ maySwap s 0 m = true ∧ m.st = .preempting ∧
       swapFailure s 0 m = none) ∧
    (∀ sv ∈ [[], [2]], let s := onCore .running (fun k => { tiled k with refill := [2], saved := sv })
      (∀ m, s.motifOn 0 = some m → frameOf s m = some 0x10000000) ∧ (s.motifOn 0).isSome ∧ 2 ∈ (s.core 0).refill ∧
      ∀ p ∈ (s.core 0).tags, p.1 ≠ 2) ∧
    (∀ u ∈ [15, 16], let x := { ctx0 with prod := u, held := [5] }
      let s := hostS rec0 [x]
      let cons := numAt s.mem (x.fring + 8) 4
      let past := (cons + 2 ^ 32 - x.prod % 2 ^ 32) % 2 ^ 32
      s.context? 0 = some x ∧ x.held = [5] ∧ past > 2 ^ 31 - 1 ∧ (x.prod + 2 ^ 32 - cons) % 2 ^ 32 = u) ∧
    2 ^ (ctx0.fringN + 4) = 16 := by
  refine ⟨by decide +kernel, by decide +kernel, by decide +kernel, by decide +kernel, by decide +kernel, ⟨_, rfl, by decide +kernel⟩, ?_, by decide +kernel,
    by decide +kernel⟩
  intro sv hs
  fin_cases hs <;> exact ⟨fun m hm => by cases hm; rfl, by decide +kernel⟩

/-! ## The fabric -/

def upPort : FPort := { FPort.empty with up := true, asks := List.replicate 16 0 }
def linked (f : FPort → FPort) : State := { State.reset with started := true, ports := [(0, f upPort)] }
/-- A flit of zeros with its SEQ and KIND. -/
def flit0 (seq kind : Nat) : List Byte := flitOf 0 0 seq 0 kind (List.replicate 240 0)
theorem witness_FlitsAndLinks :
    (∀ p ∈ [(0, 0), (1, 0), (0, 1), (0, 2), (0, 3)], let f := flit0 p.1 p.2
      f.length = 256 ∧ leNat (f.drop 248) = (crc64 (f.take 248)).toNat ∧ nf (leNat (f.take 8)) 16 4 = p.2 ∧
      nf (leNat (f.take 8)) 24 12 = p.1) ∧
    (let f := flit0 0 0 |>.set 8 1; f.length = 256 ∧ leNat (f.drop 248) ≠ (crc64 (f.take 248)).toNat) ∧
    (∀ p ∈ [(0, true), (2250000, true), (2250001, false)],
      let x := (linked fun x => { x with asks := List.replicate 15 0 ++ [p.1] }).port 0
      x.up = true ∧ x.rxSeq = 0 ∧ x.asks.length = 16 ∧ 7 < x.lanes ∧ x.asks[x.asks.length - 16]? = some 0 ∧
      x.asks.getLast? = some p.1 ∧ decide (p.1 ≤ 0 + 1000 * 2250) = p.2) ∧
    (∀ r ∈ (linked id).requests, r.port.isSome) ∧
    (let s := linked fun x => { x with up := false }
     (s.port 0).up = false ∧ s.minimal = false ∧ s.started = true ∧
     (let m := { s with minimal := true }; (m.port 0).up = false ∧ m.minimal = true)) := by
  decide +kernel

def reqOf (op n : Nat) : InReq :=
  { (default : InReq) with sdev := 1, op := op, addr := 0x100, len := n, data := List.replicate n 0 }
def exportTo (fwd : Option Nat) : Export := { dev := 1, base := 0, size := 4096, r := true, w := true, a := true, fwd := fwd }
def asked (r : InReq) (es : List Export) : State := { State.reset with started := true, incoming := [r], exports := es }
def loadReq : FabReq :=
  { (default : FabReq) with id := 1, who := .load 0 (some .seq) 0x100 8, op := pkRead, len := 8, port := some 0 }
theorem witness_RemoteAccess :
    (∀ op ∈ [pkRead, pkWrite, pkAtomic, pkCas],
      let r := reqOf op (if op = pkCas then 16 else 8)
      let s := asked r [exportTo none]
      s.incoming[0]? = some r ∧ r.more = false ∧ firstOfFlow s 0 r = true ∧ r.op ≠ pkNotice ∧ s.frozenPeers.contains r.sdev = false ∧
      exportOf s r r.span = some (exportTo none) ∧ granted (exportTo none) r.op = true ∧
      (inHbm s r.addr r.span || inCxl s r.addr r.span) = true ∧ cxlDown s r.addr = false ∧
      gmPoisoned s r.addr r.span = false ∧ heldByMove s r.addr r.span = false ∧ r.data.length = r.len) ∧
    (let r := reqOf pkRead 8
     let s := { asked r [] with frozenPeers := [1] }
     s.incoming[0]? = some r ∧ r.more = false ∧ firstOfFlow s 0 r = true ∧ s.frozenPeers.contains r.sdev = true) ∧
    (let r := reqOf pkRead 8
     let s := asked r [{ exportTo none with r := false }]
     s.frozenPeers.contains r.sdev = false ∧ exportOf s r r.span = some { exportTo none with r := false } ∧
     granted { exportTo none with r := false } r.op = false ∧ exportOf (asked r []) r r.span = none) ∧
    (let r := { reqOf pkRead 8 with forwarded := true }
     let s := asked r [exportTo (some 2)]
     s.incoming[0]? = some r ∧ s.frozenPeers.contains r.sdev = false ∧ exportOf s r r.span = some (exportTo (some 2)) ∧
     granted (exportTo (some 2)) r.op = true ∧ r.forwarded = true) ∧
    (let s := { State.reset with requests := [loadReq] }
     s.requests.find? (·.id == loadReq.id) = some loadReq ∧
     loadReq.who = .load 0 (some .seq) 0x100 8 ∧ fits loadReq 0 (List.replicate 8 0) = true ∧ fits loadReq 6 [] = true ∧
     loadReq.sentAt + 4000 * 2250 = 9000000) := by
  decide +kernel

/-- A notice of motif 1 that awaits the accesses listed; a token table of n entries. -/
def noticed (ids : List Nat) (n : Nat) : State :=
  { onCore .running (fun k => { k with notices := [(5, 0, 7, ids)], buf := [{ aStore with id := 3 }] }) with
    tokens := List.replicate n 0, fabUp := true, resend := [(0, 1, 5, 7, 0, 0)], frozenFns := [4], frozenPeers := [4] }
theorem witness_NoticesAndUnfreeze :
    (∀ p ∈ [([], 1023), ([], 1024), ([3], 0)], let s := noticed p.1 p.2
      (s.core 0).notices[0]? = some (5, 0, 7, p.1) ∧ (s.core 0).motif = some 1 ∧ s.dev = 0 ∧
      (∀ r ∈ s.requests, r.who ≠ .notice 0 1 5 7) ∧ clearOf (s.core 0) p.1 = p.1.isEmpty ∧ s.tokens.length = p.2 ∧
      s.fabUp = true ∧ s.resend[0]? = some (0, 1, 5, 7, 0, 0) ∧ 7 ∉ s.frozenPeers ∧ 7 ≠ s.dev ∧
      gf (0x01C0000000000000#64) 54 10 = 7 ∧ gf (0x0200000000000000#64) 54 10 ≠ 7) ∧
    (let s := onCore .running (fun k => { k with frozen := true, frozenCh := [2] })
     (s.core 0).frozen = true ∧ (s.motifOn 0).isSome ∧ (∀ t ∈ [2249, 2250], decide (0 + 2250 ≤ t) = decide (t = 2250)) ∧ 2 % 4 ∈ (s.core (2 / 4)).frozenCh) := by
  decide +kernel

/-! ## Memory tiers, power, start, errors, trust and the host -/

def tiered : State := { State.reset with started := true, tiercap := tierWord (.memory 4096) .none }
def moving1 (copy : Bool) : Moving :=
  { (default : Moving) with slot := 0, copyOp := copy, src := 0x20000, dst := 0x40000, size := 65536, todo := [15] }
theorem witness_TierRules :
    (tiered.tiercap.getLsbD 0 = true ∧ tiered.tiercap.getLsbD 1 = false ∧ tiered.moving = []) ∧
    (∀ n ∈ [0, 1], ∀ on ∈ [true, false],
      let s := { tiered with heatcfg := if on then 0x110 else 0x10, heatCount := [(3, n)], heathbm := 0x10000000 }
      heatEntry s 0x20000 = some 0x10000008 ∧ heatMisplaced s 0x10000008 false = false ∧
      heatMisplaced { s with heathbm := 0 } 8 false = true ∧ heatEntry { s with heathbm := 0 } 0x20000 = some 8 ∧
      s.heatcfg.getLsbD 8 = on ∧ mget noNat s.heatCount (2 * 1 + bitOf true) = n ∧
      2 ^ gf s.heatcfg 4 4 = 2) ∧
    (let s := { tiered with migHead := 3, migTail := 3 }
     s.migHead = s.migTail ∧ tiered.migHead ≠ ({ tiered with migTail := 1 } : State).migTail ∧ migSize s = 64 ∧
     gf (63#64) 0 16 < 64 ∧ 64 ≤ gf (64#64) 0 16 ∧ gf (10#64) 0 4 < 11 ∧ 11 ≤ gf (11#64) 0 4) ∧
    (∀ c ∈ [true, false], let s := { tiered with moving := [moving1 c] }
      s.moving.find? (fun x => x.slot == (moving1 c).slot) = some (moving1 c) ∧ (moving1 c).todo = 15 :: []) ∧
    Memory.wf tiered.mem = true := by
  decide +kernel

/-- A checkpoint of an operation runs, with its image at the bottom of the first window. -/
def ckptS (op : Nat) (m : List Host.Cell) : State :=
  { tiered with ckptstat := w64 (2 ^ 62), ckptRun := w64 (op * 2 ^ 61 + cxlBase), mem := m }
theorem witness_TierRules_save :
    ∀ i ∈ [0, 1], let s := { ckptS 1 [] with ckptstat := w64 (2 ^ 62 + i * 65536) }
    Memory.wf s.mem = true ∧ ckptRunning s = true ∧ ckptSpace s = none ∧ ckptDone s = i ∧ ckptDone s < chunks ∧
    gf s.ckptRun 61 2 = 1 ∧ quiet s = true ∧ quiet { s with migTail := 1 } = false := by decide +kernel

/-- A digest has 48 bytes. -/
theorem sha384_length (bs : List Byte) : (sha384 bs).length = 48 := by
  have round : ∀ (v : List W64) x, v.length = 8 → (shaRound v x).length = 8 := by
    intro v x h
    unfold shaRound
    split <;> simp_all
  have fold : ∀ (l : List (W64 × W64)) (v : List W64), v.length = 8 → (l.foldl shaRound v).length = 8 := by
    intro l
    induction l with
    | nil => exact fun v h => h
    | cons x l ih => exact fun v h => ih _ (round v x h)
  have blocks : ∀ (l : List (List W64)) (v : List W64), v.length = 8 → (l.foldl shaBlock v).length = 8 := by
    intro l
    induction l with
    | nil => exact fun v h => h
    | cons x l ih => exact fun v h => ih _ (by simp [shaBlock, fold _ _ h, h])
  have h := blocks (shaBlocks bs) shaInit (by decide +kernel)
  rw [sha384]
  generalize (shaBlocks bs).foldl shaBlock shaInit = l at h
  match l, h with
  | [a, b, c, d, e, f, g, i], _ => simp [beBytes, leBytes]
def ckptHead : List Byte := leBytes 8 ckptMagic ++ leBytes 8 0 ++ leBytes 8 hbmSize
/-- The bytes of a digest, where they stand in an image. -/
def withDigest (d : List Byte) : List Host.Cell := putBytes (putBytes [] cxlBase ckptHead) (cxlBase + 0x40) d
theorem bytesAt_putBytes (m : Map Byte) (a : Nat) (bs : List Byte) : bytesAt (putBytes m a bs) a bs.length = bs := by
  induction bs generalizing m a with
  | nil => rfl
  | cons b bs ih =>
    rw [List.length_cons, bytesAt, putBytes, ih, byteAt_putBytes_other _ _ _ _ (.inl (Nat.lt_succ_self a))]
    simp [byteAt]
theorem bytesAt_congr {m m' : Map Byte} {a n : Nat} (h : ∀ x, a ≤ x → x < a + n → byteAt m x = byteAt m' x) :
    bytesAt m a n = bytesAt m' a n := by
  induction n generalizing a with
  | zero => rfl
  | succ n ih =>
    rw [bytesAt, bytesAt, h a (Nat.le_refl a) (by omega), ih fun x h1 h2 => h x (by omega) (by omega)]
theorem witness_TierRules_restore : ∃ s : State, Memory.wf s.mem = true ∧ ckptRunning s = true ∧ ckptSpace s = none ∧
    ckptDone s < chunks ∧ gf s.ckptRun 61 2 = 2 ∧ numAt s.mem (ckptDst s) 8 = ckptMagic ∧
    numAt s.mem (ckptDst s + 0x10) 8 = hbmSize ∧
    bytesAt s.mem (ckptDst s + 0x40 + 48 * ckptDone s) 48 =
      digest (bytesAt s.mem (ckptDst s + 65536 + ckptDone s * chunkSize) (chunkLen (ckptDone s))) := by
  let h : List Host.Cell := putBytes [] cxlBase ckptHead
  obtain ⟨d, hdig, hd⟩ : ∃ d, d = digest (bytesAt h (cxlBase + 65536) chunkSize) ∧ d.length = 48 :=
    ⟨_, rfl, sha384_length _⟩
  have hdst : ckptDst (ckptS 2 (withDigest d)) = cxlBase := by
    show ckptDst (ckptS 2 []) = cxlBase
    decide +kernel
  have hdone : ckptDone (ckptS 2 (withDigest d)) = 0 := by
    show ckptDone (ckptS 2 []) = 0
    decide +kernel
  have hw : Memory.wf (withDigest d) = true := wf_putBytes _ _ (wf_putBytes _ _ rfl)
  refine ⟨ckptS 2 (withDigest d), hw, ?_, ?_, ?_, ?_, ?_, ?_, ?_⟩
  · show ckptRunning (ckptS 2 []) = true
    decide +kernel
  · show ckptSpace (ckptS 2 []) = none
    decide +kernel
  · rw [hdone]; decide +kernel
  · show gf (ckptS 2 []).ckptRun 61 2 = 2
    decide +kernel
  · rw [hdst]
    show leNat (bytesAt (putBytes h (cxlBase + 0x40) d) cxlBase 8) = ckptMagic
    rw [bytesAt_congr (m' := h) fun x h1 h2 => byteAt_putBytes_other _ _ _ _ (.inl (by omega))]
    decide +kernel
  · rw [hdst]
    show leNat (bytesAt (putBytes h (cxlBase + 0x40) d) (cxlBase + 0x10) 8) = hbmSize
    rw [bytesAt_congr (m' := h) fun x h1 h2 => byteAt_putBytes_other _ _ _ _ (.inl (by omega))]
    decide +kernel
  · rw [hdst, hdone]
    show bytesAt (putBytes h (cxlBase + 0x40) d) (cxlBase + 0x40) 48 =
      digest (bytesAt (putBytes h (cxlBase + 0x40) d) (cxlBase + 65536) chunkSize)
    rw [bytesAt_congr (m' := h) (a := cxlBase + 65536) fun x h1 h2 =>
      byteAt_putBytes_other _ _ _ _ (.inr (by rw [hd]; omega))]
    have := bytesAt_putBytes h (cxlBase + 0x40) d
    rw [hd] at this
    rw [this, hdig]

theorem witness_PowerAndStart :
    (∀ n ∈ [0, 1], let k := (wk fun k => { k with cycles := n, plimNext := some 0x10010 }).core 0
      k.refilled = false ∧ k.cycles % winCycles k = n) ∧
    (∀ p ∈ [(1, (0 : Int)), (1, 1), (0, 0)], let k := (wk fun k => { k.setCfg rPLIM (w64 p.1) with credit := p.2 }).core 0
      gf (k.cfgAt rPLIM) 0 16 = p.1 ∧ k.credit = p.2 ∧ k.motif.isSome) ∧
    ((1 : Nat) % 4 ≠ 2 ∧ State.reset.forced = false ∧ State.reset.failed < 3 ∧
     ({ State.reset with failed := 3 } : State).failed = 3 ∧ ({ State.reset with forced := true } : State).forced = true ∧
     firstFail false [0, 0, 5] = some (2, 5)) ∧
    (∀ p ∈ [(6, 3), (0, 0)], let s := { State.reset with starts := 1, stage := p.1, failed := p.2 }
      s.started = false ∧ s.starts ≠ 0 ∧ s.stage = p.1 ∧ s.bootwhy.getLsbD 0 = false ∧ 0 < 1000 * stageLimit p.1 * 2250) ∧
    (let r := refill ((wk id).core 0); (0 + 1) % winCycles r ≠ 0) ∧
    (fwReason State.reset [⟨[], []⟩] 0 ≠ 0) ∧
    (∀ g, ((State.reset.core 0).gangAt g).st ≠ .running) := by
  refine ⟨by decide +kernel, by decide +kernel, by decide +kernel, by decide +kernel, by decide +kernel,
    by simp [fwReason, verifyMsg, ecdsaOk], ?_⟩
  intro g h
  simp [State.reset, State.core, Core.gangAt, mget, Core.empty, Gang.empty] at h

theorem witness_ErrorsAndTrust :
    (∀ ty ∈ [0, 2, 3], let s := { State.reset with tests := [(9, ty, 4)] }
      s.tests.find? (fun t => t.1 == 9 && t.2.1 == ty) = some (9, ty, 4) ∧ s.minimal = false) ∧
    (∀ n ∈ [1023, 1024], ({ State.reset with rowret := [(stackOf 9, ⟨List.replicate n 0, []⟩)] } : State).rowStore
      (stackOf 9) = ⟨List.replicate n 0, []⟩ ∧ (List.replicate n 0).length = n) ∧
    (let s := { State.reset with svfuse := [(19, 127)] }; mget noNat s.svfuse 19 < 128 ∧ 127 ≤ mget noNat s.svfuse 19) ∧
    (List.replicate 48 (0 : Byte)).length = 48 := by
  decide +kernel

/-- A command block of function 0 at 0x1000, with its words, which heads the order. -/
def cmdS (ws : List Nat) (cs : List Context) (qs : List HostQueue) : State :=
  { State.reset with started := true, hcmd := [(0, 0x1000)], contexts := cs, queues := qs,
                     hostMem := putBytes [] 0x1000 (ws.flatMap (leBytes 8)) }
/-- CTX_CREATE of context 1: root, frames, ring with its size code 12, images and objects. -/
def mk1 : List Nat := [1, 0x10001, 0x100000, 0x3000000, 0x20000C, 0x300000, 0x400000]
theorem witness_HostCommands_create :
    (∀ n ∈ [0, 1, 1024], let s := cmdS mk1 ((List.range n).map fun i =>
        { ctx0 with num := if n = 1 then 1 else i + 2, frames := 0x40000000 }) []
      s.hcmd.find? (fun e => e.1 == 0) = some (0, 0x1000) ∧ blockWord s 0x1000 0 = 1 ∧
      (let a := arg s 0x1000
       onlyBits (a 0) 0x3FFFF = true ∧ onlyBits (a 1) 0xFFFFFFFFF0000 = true ∧ a 2 < 2 ^ 52 ∧
       onlyBits (a 3) 0xFFFFFFFFFFFCF = true ∧ a 3 % 16 = 12 ∧ onlyBits (a 4) 0xFFFFFFFFFF000 = true ∧
       onlyBits (a 5) 0xFFFFFFFFFF000 = true ∧ a 0 % 65536 = 1 ∧ a 2 % (3 * 2 ^ 20) = 0 ∧
       placeOk s 1 (a 2) frameArray = true ∧ placeOk s 1 (a 1) 65536 = true ∧
       placeOk s 1 (a 3 / 64 * 64) (64 + 8 * 2 ^ (a 3 % 16 + 4)) = true ∧ placeOk s 1 (a 4) 4096 = true ∧
       placeOk s 1 (a 5) 8192 = true) ∧ 0 ≤ 16 ∧
      s.contexts.length = n ∧ (s.contexts.any (fun x => x.num == 1)) = decide (n = 1)) := by
  decide +kernel

/-- A request of context 0 that serves nobody any more. -/
def goneReq : FabReq := { loadReq with who := .gone 0 0 }
theorem witness_HostCommands :
    (∀ cs ∈ [[ctx0], []], let s := cmdS [2, 0] cs []
      s.hcmd.find? (fun e => e.1 == 0) = some (0, 0x1000) ∧ blockWord s 0x1000 0 = 2 ∧ arg s 0x1000 0 = 0 ∧
      (∀ i, i < 5 → arg s 0x1000 (i + 1) = 0) ∧ s.contexts.find? (fun x => x.num == 0 && x.fn == 0) = cs.head? ∧
      (∀ q ∈ [[], [goneReq]], let s := { s with requests := q }
        ctxBusy (quell (s.setContext { ctx0 with dying := true }) 0 0) 0 = !q.isEmpty)) ∧
    (∀ p ∈ [(0x100000, 0), (0x100000, 1), (0x10000000, 0)], let s := cmdS [3, 0xC01, p.1] [ctx0] (List.replicate p.2 queue1)
      blockWord s 0x1000 0 = 3 ∧ onlyBits (arg s 0x1000 0) 0xF3F = true ∧ arg s 0x1000 0 % 64 ≠ 63 ∧
      arg s 0x1000 0 / 256 % 16 = 12 ∧ onlyBits (arg s 0x1000 1) 0xFFFFFFFFFF000 = true ∧
      (∀ i, i < 4 → arg s 0x1000 (i + 2) = 0) ∧
      placeOk s 65536 (arg s 0x1000 1) (128 * 2 ^ (12 + 4)) = decide (p.1 = 0x100000) ∧
      (s.queues.any fun x => x.q == 1 && x.alive) = decide (p.2 = 1)) ∧
    (∀ fn ∈ [0, 1], let s := cmdS [4, 1] [] [{ queue1 with fn := fn }]
      blockWord s 0x1000 0 = 4 ∧ arg s 0x1000 0 < 64 ∧ (∀ i, i < 5 → arg s 0x1000 (i + 1) = 0) ∧
      (s.queues.any fun x => x.q == 1 && x.alive && x.fn == 0) = decide (fn = 0)) ∧
    (∀ p ∈ [(0, 8, 0), (1, 8, 4), (2, 0, 0)], ∀ cs ∈ [[ctx0], []], let s := cmdS [5, p.1 * 65536, p.2.1, p.2.2] cs []
      let a := arg s 0x1000
      blockWord s 0x1000 0 = 5 ∧ a 0 / 65536 < 3 ∧ a 1 < 2 ^ 57 ∧ (a 0 / 65536 = 1 ∨ a 2 = 0) ∧
      (a 0 / 65536 ≠ 2 ∨ a 1 = 0) ∧ (∀ i, i < 3 → a (i + 3) = 0) ∧ s.invals = [] ∧
      (∀ q ∈ [[], [goneReq]], let s := { s with requests := q, nextReq := 2 }
        invalBusy s (a 0 % 65536) (a 0 / 65536) (a 1) (a 2)
          { fn := 0, block := 0x1000, req := s.nextReq, stores := s.cores.map (fun e => (e.1, e.2.nextId)) } = !q.isEmpty)) ∧
    (∀ n ∈ [0, 6], let s := cmdS [n] [] []
      s.hcmd.find? (fun e => e.1 == 0) = some (0, 0x1000) ∧ blockWord s 0x1000 0 % 256 = n) := by
  decide +kernel

/-- Motif 1 is FAULTED with BRK, and its frame 0 asks for an action. -/
def faultR : FaultRec := { (default : FaultRec) with trap := { (default : Trap) with cause := .brk } }
/-- A BRK of gang 0 at its place. -/
def laneBrk : FaultRec :=
  { (default : FaultRec) with trap := { (default : Trap) with cause := .brk, depth := 1, gang := 0, fpc := 0x1000 } }
def faulted (act : Nat) : State :=
  { withLaunch { placed with st := .running, placed := 1 } with
    motifs := [{ away with st := .faulted, fault := some faultR }],
    mem := putBytes [] 0x10000040 (leBytes 8 (act * 2 ^ 62)) }
theorem witness_HostDoorbells :
    (∀ fn ∈ [0, 1], let x := { queue1 with fn := fn }
      let s := { State.reset with queues := [x] }
      s.queues.find? (fun x => x.q == 1 && x.alive) = some x ∧ 0 ∉ s.frozenFns ∧ gf (15#64) 0 16 < 2 ^ (x.n + 4) ∧
      2 ^ (x.n + 4) ≤ gf (16#64) 0 16) ∧
    (∀ act ∈ [0, 1, 2, 3], let s := faulted act
      0 ∉ s.frozenFns ∧ s.contexts.find? (fun x => x.num == gf (0#64) 48 16 && x.fn == 0) = some ctx0 ∧ ctx0.held = [] ∧
      (∃ m ∈ s.motifs, doorMotif (appendEntries s ctx0 []) 0 0 = some (ctx0, m) ∧ s.motif? m.id = some m ∧
        m.st = .faulted ∧ m.saved = some Core.empty ∧ m.fault = some faultR) ∧
      faultR.trap.cause = .brk ∧ faultR.trap.byLane = false ∧ numAt s.mem (ctx0.frames + 0x40) 8 / 2 ^ 62 = act) ∧
    (let m := { away with st := .faulted, fault := some laneBrk, saved := some (Core.empty.setGang 0 gang1) }
     let s := { faulted 2 with motifs := [m] }
     laneBrk.trap.cause = .brk ∧ laneBrk.trap.byLane = true ∧ (s.motif? 1).isSome ∧
     (doorMotif (appendEntries s ctx0 []) 0 0).isSome ∧
     (let x := (Core.empty.setGang 0 gang1).gangAt 0
      (x.fibre 1).st ≠ .ended ∧ (x.fibre 1).pc = laneBrk.trap.fpc ∧ (x.fibre 2).st = .ended)) ∧
    (16 ≤ 16 ∧ 16 < 17) ∧
    (∀ st ∈ [MotifSt.running, .preempting], let s := onCore st id
      0 ∉ s.frozenFns ∧ (s.core 0).halt = none ∧
      ∃ m ∈ s.motifs, doorMotif s 0 0 = some (ctx0, m) ∧ m.core = some 0 ∧ m.st = st) ∧
    (∀ n ∈ [63, 64], let s := { State.reset with started := true, hcmd := List.replicate n (0, 0) }
      0 ∉ s.frozenFns ∧ s.started = true ∧ (s.hcmd.filter (fun e => e.1 == 0)).length = n) ∧
    (∀ p ∈ [(hostS rec0 [ctx0], rec0, 128), (farS rec1, rec1, 136)],
     let s := { p.1 with tiercap := tierWord (.memory 4096) .none, capctl := w64 (2 ^ 62 + 2 ^ 56 + cxlBase),
                         capstat := w64 (p.2.2 * 65536),
                         mem := putBytes p.1.mem cxlBase ((p.2.1.set 7 5).flatMap (fun w => leBytes 8 w.toNat)) }
     replaying s = true ∧ (capRecords s)[s.replayPos]? = some (0, 5) ∧
     s.queues.find? (fun x => x.q == capQueue s && x.alive) = some queue1 ∧ replaying State.reset = false ∧
     (let r := wordsOf (physRead s cxlBase 128)
      let lines := (capParts s r).flatMap (fun y => linesOf y.1 y.2)
      (putBack 0 s.nextLaunch (2 ^ 22) (spread lines (physRead s (cxlBase + 128) ((lines.map (·.2)).sum))) s).1 =
        decide (p.2.2 = 128))) := by
  decide +kernel

/-! ## The encoding, the step, traps and the state -/

theorem witness_DecodeEncode : (∃ w, encode (.smovi gd 31 0xFFFF) = some w) ∧ Instr.WellFormed (.smovi gd 31 0xFFFF) ∧
    (∃ w, encode (.iop pd .sub 5 3 4) = some w) ∧ Instr.WellFormed (.iop pd .sub 5 3 4) :=
  ⟨⟨_, rfl⟩, by decide +kernel, ⟨_, rfl⟩, by decide +kernel⟩

/-- A word that core 0 fetches and its instruction, whose checks of the core's configuration pass. -/
abbrev stepsTo (s0 : State) (w : CodeWord) (i : Instr) : Prop :=
  s0.turns = [] ∧ let s := before s0; (s.focus = .seq 0 ∧ seqCanIssue s 0 = true) ∧ (s.core 0).bpc % 2 = 0 ∧
  fetchBytes s 0 (s.core 0).bpc 2 (fetchTrap (s.core 0).bpc) = .bytes ((soloBytes w).take 2) ∧
  fetchBytes s 0 (s.core 0).bpc (soloBytes w).length (fetchTrap (s.core 0).bpc) = .bytes (soloBytes w) ∧
  ((semOf i).map (·.legal (s.core 0))).getD true = true
/-- Core 0 with a word where it fetches, and an opcode whose table entry has a kind. -/
def fed (w : CodeWord) (opc kind : Nat) : State :=
  (placeCode State.reset (soloBytes w)).modCore 0 (fun k => { tiled k with prick := [(opc, { k.prickAt opc with kind := kind })] })
abbrev vWord : BitVec 64 := 0x0001000006081820
abbrev mWord : BitVec 64 := 0x007D87F040C1083C
abbrev kWord : BitVec 96 := 0x000000000000000006421848
abbrev sWord : BitVec 64 := 0x0000000100001860
abbrev mOp : MmaOp :=
  { nm1 := 48, mm1 := 127, slb := 1, sla := 0, tb := true, ta := true, fmt := .bf16, cmp := false, acc := false, ad := 1 }
/-- Words that run as what they decode to. -/
theorem witness_StepRunsDecoded :
    stepsTo (fed (.c 0xFFFB2803) 1 1) (.c 0xFFFB2803) (.smovi gd 5 0xFFFB) ∧
    stepsTo (fed (.header 0x8000) 1 1) (.header 0x8000) (.nullBundle true) ∧
    stepsTo (fed (.v vWord) 0x20 1) (.v vWord) (.vop2 gd .add false true .rne .fp32 3 2 3) ∧
    stepsTo (fed (.m mWord) 0x3C 1) (.m mWord) (.mma gd 31 mOp) ∧
    stepsTo (fed (.k kWord) 0x48 1) (.k kWord) (.kcopy gd { kx with sn := 18, ss := 2, sd := 3 }) ∧
    stepsTo (fed (.s sWord) 0x60 1) (.s sWord) (.xpose gd ⟨3, 0, 1, 0⟩) ∧
    (opcOf vWord = 0x20 ∧ opcOf mWord = 0x3C ∧ opcOf kWord = 0x48) ∧
    (∀ o ∈ [0x20, 0x3C, 0x48], ∀ kd ∈ [0, 1, 2], (((fed (.header 0) o kd).core 0).prickAt o).kind = kd) := by
  decide +kernel
/-- Words of opcodes that are not bound to their engine run as dispatches. -/
theorem witness_StepRunsDecoded_dispatch :
    stepsTo (fed (.v vWord) 0x20 0) (.v vWord) (parseStitch vWord 0) ∧
    stepsTo (fed (.v 0x20) 0x20 2) (.v 0x20) (parseStitch 0x20 0) ∧
    stepsTo (fed (.m mWord) 0x3C 0) (.m mWord) (parseStitch mWord 0) ∧
    stepsTo (fed (.k kWord) 0x48 0) (.k kWord) (parseStitch (fld kWord 0 64) (fld kWord 64 32)) ∧
    guardOk (guardOf vWord) = true ∧ guardOk (guardOf mWord) = true ∧ guardOk (guardOf kWord) = true ∧
    opcClass 0x20 = .v ∧ opcClass 0x3C = .m ∧ opcClass 0x48 = .k := by
  decide +kernel
/-- Gangs 0 to w have a batch at 0x1000, where the line in the cache holds a word. -/
def atLine (w word : Nat) : State :=
  (lw id).modCore 0 (fun k => { k with lcache := [(0x40, leBytes 8 word ++ List.replicate 56 0)],
                                       gang := (List.range (w + 1)).map (fun g => (g, gang1)) })
/-- An IOP runs where it stands; of two gangs that load, the one behind the last served gets the unit; a listed event. -/
theorem witness_StepRunsDecoded_lane :
    (let s := before (atLine 0 0x0000100004030510)
     let bs := leBytes 8 0x0000100004030510 ++ List.replicate 56 0
     s.turns = [] ∧ (s.focus = .gang 0 0 ∧ gangCanIssue s 0 0 = true ∧ pickPc ((s.core 0).gangAt 0) = some 0x1000) ∧
     laneLine s 0 (0x1000 / 64) default = .bytes bs ∧ w64 (leNat ((bs.drop (0x1000 % 64)).take 8)) = 0x0000100004030510 ∧
     okInstr (decode (.lane 0x0000100004030510)) = some (.iop pd .sub 5 3 4) ∧ unitOfLane (.iop pd .sub 5 3 4) = none) ∧
    (let w := (encode (.ldts pd .b32 false 0 3 2 0)).map (fun w => match w with | .lane u => u.toNat | _ => 0)
     let s := before (atLine 1 (w.getD 0))
     w.isSome ∧ (s.focus = .gang 0 0 ∧ gangCanIssue s 0 0 = true) ∧ unitWanted s 0 0 = some .lsu ∧
     servedGang s 0 .lsu (lastServed (s.core 0) .lsu) = some 0 ∧ servedGang s 0 .lsu 0 = some 1) ∧
    (let s := { State.reset with turns := [.event (.plimWindow 0)] }
     s.turns = .event (.plimWindow 0) :: [] ∧ encode (.plimWindow 0) = none ∧ s.turns.head?.any mayStop = false ∧
     (∀ e ∈ (onCore .running id).cores, (∀ b ∈ e.2.buf, b.veil = none) ∧ e.2.waitsOn = none ∧
       ∀ g ∈ e.2.gang, ∀ op ∈ g.2.ops, isLwait op.i = false)) := by
  decide +kernel

def fatal0 : Trap := { (default : Trap) with cause := .divz }
theorem witness_TrapTaken :
    (∀ st ∈ [MotifSt.running, .preempting], let s := onCore st id
      (s.motifOn 0).map (·.st) = some st ∧ (s.core 0).halt = none) ∧
    (let s := onCore .halting (fun k => { (k.setGang 0 { gang1 with skid := 24 }) with halt := some faultR, skid := 2 })
     (s.motifOn 0).map (·.st) = some .halting ∧ (s.core 0).halt = some faultR ∧
     goesFirst s (s.core 0) faultR fatal0 = false ∧ adjointRuns (s.core 0) = false ∧ 2 ≤ (s.core 0).skid ∧ 24 ≤ ((s.core 0).gangAt 0).skid) ∧
    (let s := onCore .halting (fun k => { k with halt := some laneBrk })
     (s.core 0).halt = some laneBrk ∧ goesFirst s (s.core 0) laneBrk fatal0 = true) ∧
    (fatal0.depth = 0 ∧ fatal0.async = false ∧ ({ fatal0 with depth := 1 } : Trap).depth ≠ 0) := by
  decide +kernel

theorem witness_InvariantKept : Memory.wf w0.mem = true ∧ ∃ t, step w0 = .next t := ⟨by decide +kernel, _, rfl⟩

/-! ## The security engine -/

/-- FIPS 180-4, by Python's hashlib: the SHA-384 of the byte 1. FIPS 186-5, on the affine curve: the signature of that
digest under the private key 12345 with the nonce 777, and one that verifies under its public key with the multipliers
2 and 3. -/
theorem test_sha384 : beNat (sha384 [1]) = 0x8D2CE87D86F55FCFAB770A047B090DA23270FA206832DFEA7E0C946FFF451F819ADD242374BE551B0D6318ED6C7D41D8 := by decide +kernel
theorem test_ecdsa_sign :
    ecdsaSign 12345 777 0x8D2CE87D86F55FCFAB770A047B090DA23270FA206832DFEA7E0C946FFF451F819ADD242374BE551B0D6318ED6C7D41D8 =
      leBytes 48 0x572C77284C06125140282034D3C7530D1627B131A7FC852418A79CF5A7B7861F637702DB11DA4E8D44FC208560E035FD ++
      leBytes 48 0x67E1D385037D71E4F5F1A5C3356088125A226E49B24BE80C2B4D2DD79B1B5B43F2B6E4953610F3D38C856AD2A5D1AA5A := by
  decide +kernel
theorem test_ecdsa_verify :
    ecdsaOk (leBytes 48 0xE86B995E350E4D312A95A6B7D5D8CDCDB4682F588800A1CD6C972E1DCB2A5AC38D90046951B03CCB3B179A89FDA88B1B ++
      leBytes 48 0x485B9F2C1F44B0DD41CE6E3C3A690BBFAABEC1E1FF4AEFB2461FDDA6629BECBD43CF74C13D8C1A1625612243F0046148)
      0xA45744F93BA69B61ECC881D062706BD0AF36A72A1614478CAC01795810D8C2B9C11D5A23607D2B269ACB09DCEE3FA10C
      (leBytes 48 0xF682E775D979E912E32CC2B893A8A1B906D1FABF211E6B530202360419452416A1AC073510BBC0B9E8308ECB655F7192 ++
      leBytes 48 0x522BA27C9DD34DB0F66440E8313835E8579B53950B0A23C65600BCAC086C615CE08EAD11B03E95934D6584EE771FD086) = true := by
  decide +kernel

end Sys2Proof.Tests
end

section
/-! What reset leaves. The units of the reset state are the empty ones, so what a core reads at reset is a value of
`cfgReset`, of `prickReset` or of an empty unit. -/
namespace Sys2Proof.Machine

/-! ## The units of the reset state -/

@[simp] theorem State.core_reset (c : Nat) : State.reset.core c = Core.empty := rfl
@[simp] theorem State.cluster_reset (n : Nat) : State.reset.cluster n = Cluster.empty := rfl
@[simp] theorem State.port_reset (p : Nat) : State.reset.port p = FPort.empty := rfl
theorem State.inv_reset : State.reset.Inv := rfl

/-! ## An empty core -/

@[simp] theorem Core.cfgAt_empty (n : Nat) : Core.empty.cfgAt n = cfgReset n := rfl
@[simp] theorem Core.prickAt_empty (opc : Nat) : Core.empty.prickAt opc = prickReset opc := rfl
@[simp] theorem Core.gangAt_empty (g : Nat) : Core.empty.gangAt g = Gang.empty := rfl

/-- No register between the stage predicates (R55) and OTH (R119) has a reset value other than zero. -/
theorem cfgReset_between {n : Nat} (hq : 0x009 < n) (hoth : n < 0x050) : cfgReset n = 0 := by
  have hne : n ≠ 0x002 ∧ n ≠ 0x009 ∧ n ≠ 0x050 := by omega
  simp [cfgReset, hne]

/-- R52: at reset no tile has a shape. -/
theorem Core.shapeConf_empty {t : Nat} (ht : t < 8) : shapeConf (Core.empty.shape t) = false := by
  have hzero : Core.empty.shape t = 0 := cfgReset_between (n := 0x010 + t) (by omega) (by omega)
  rw [hzero]
  rfl

/-- R134: at reset no ring is VALID. -/
theorem Core.cbValid_empty {h : Nat} (hh : h < 32) : cbValid (Core.empty.cb h) = false := by
  have hzero : Core.empty.cb h = 0 := cfgReset_between (n := 0x020 + h) (by omega) (by omega)
  rw [hzero]
  rfl

/-- R223: in an empty cluster the lease of each of the four cores is IDLE. -/
theorem leaseOf_of_cluster_empty {s : State} {c : Nat} (h : s.cluster (clusterOf c) = Cluster.empty) :
    leaseOf s c = .idle := by
  have hlt : c % 4 < 4 := Nat.mod_lt c (by decide)
  rw [leaseOf, h]
  exact List.getD_replicate Lease.idle hlt

end Sys2Proof.Machine

namespace Sys2Proof
open Machine

/-- Settles O59: the fields of the device and of its ports, then of each core the registers, tiles, rings, gangs,
pricking entries and lease, then the invariant. -/
theorem resetValues : Obligations.ResetValues := by
  unfold Obligations.ResetValues
  refine ⟨⟨rfl, rfl, rfl, rfl, rfl, rfl, rfl, rfl, rfl, rfl, fun p => ?port, fun c => ?core⟩, State.inv_reset⟩
  case port => rw [State.port_reset]; rfl
  case core =>
    have hlease : leaseOf State.reset c = .idle := leaseOf_of_cluster_empty (State.cluster_reset _)
    simp only [State.core_reset, Core.cfgAt_empty, Core.gangAt_empty]
    exact ⟨rfl, rfl, rfl, rfl, rfl, rfl, fun _ => Core.shapeConf_empty, fun _ => Core.cbValid_empty,
      fun _ => rfl, Core.prickAt_empty, rfl, hlease⟩

end Sys2Proof
end

section
/-! The fields of a code word: what a field of a concatenation is, and that each part that the encoder writes is
read back (R56 to R63, R72, R104, R142, R150, R161, R185, R232, R260). -/
namespace Sys2Proof
open Machine

variable {n m : Nat}

/-! ## Fields of a concatenation -/

@[simp] theorem fld_append_low (a : BitVec n) (b : BitVec m) {lo len : Nat} (h : lo + len ≤ m) :
    fld (a ++ b) lo len = fld b lo len := BitVec.extractLsb'_append_eq_of_add_le h
@[simp] theorem fld_append_high (a : BitVec n) (b : BitVec m) {lo len : Nat} (h : m ≤ lo) :
    fld (a ++ b) lo len = fld a (lo - m) len := BitVec.extractLsb'_append_eq_of_le h
@[simp] theorem fld_full (a : BitVec n) : fld a 0 n = a := BitVec.extractLsb'_eq_self
@[simp] theorem fld_z (lo len : Nat) : fld (z n) lo len = 0 := BitVec.extractLsb'_zero

@[simp] theorem bit_append_low (a : BitVec n) (b : BitVec m) {i : Nat} (h : i < m) :
    bit (a ++ b) i = bit b i := by simp [bit, BitVec.getLsbD_append, h]
@[simp] theorem bit_append_high (a : BitVec n) (b : BitVec m) {i : Nat} (h : m ≤ i) :
    bit (a ++ b) i = bit a (i - m) := by simp [bit, BitVec.getLsbD_append, Nat.not_lt.mpr h]
@[simp] theorem bit_eb (b : Bool) : bit (eb b) 0 = b := by simp [bit, eb]
@[simp] theorem bit_z (i : Nat) : bit (z n) i = false := by simp [bit, z]
@[simp] theorem bit_one : bit (1#1) 0 = true := rfl

@[simp] theorem zero_append_low (a : BitVec n) (b : BitVec m) {lo len : Nat} (h : lo + len ≤ m) :
    zero (a ++ b) lo len = zero b lo len := by simp only [zero, fld_append_low a b h]
@[simp] theorem zero_append_high (a : BitVec n) (b : BitVec m) {lo len : Nat} (h : m ≤ lo) :
    zero (a ++ b) lo len = zero a (lo - m) len := by simp only [zero, fld_append_high a b h]
@[simp] theorem zero_z (lo len : Nat) : zero (z n) lo len = .ok () := if_pos BitVec.extractLsb'_zero
@[simp] theorem zero_zero (lo len : Nat) : zero (0#n) lo len = .ok () := if_pos BitVec.extractLsb'_zero
@[simp] theorem zero_eb_false : zero (eb false) 0 1 = .ok () := rfl

@[simp] theorem Dec.ok_bind {α β : Type} (x : α) (f : α → Dec β) : (Except.ok x >>= f : Dec β) = f x := rfl

/-! ## Codes and formats -/

/-- A code of a table's value is read as the value, where the field can hold every code of the table. -/
theorem code_ec {α : Type} [DecidableEq α] {tbl : List α} {x : α} (hx : x ∈ tbl) (hn : tbl.length ≤ 2 ^ n) :
    code tbl (ec n tbl x).toNat = .ok x := by
  have hlt : tbl.idxOf x < 2 ^ n := (List.idxOf_lt_length_iff.mpr hx).trans_le hn
  simp [code, ec, codeOf, Nat.mod_eq_of_lt hlt, List.getElem?_idxOf hx]

@[simp] theorem code_sopFns (x : SopFn) (hn : sopFns.length ≤ 2 ^ n) : code sopFns (ec n sopFns x).toNat = .ok x :=
  code_ec (by cases x <;> decide) hn
@[simp] theorem code_sopiFns (x : SopiFn) (hn : sopiFns.length ≤ 2 ^ n) : code sopiFns (ec n sopiFns x).toNat = .ok x :=
  code_ec (by cases x <;> decide) hn
@[simp] theorem code_scmpCcs (x : ScmpCc) (hn : scmpCcs.length ≤ 2 ^ n) : code scmpCcs (ec n scmpCcs x).toNat = .ok x :=
  code_ec (by cases x <;> decide) hn
@[simp] theorem code_sizes (x : Size) (hn : sizes.length ≤ 2 ^ n) : code sizes (ec n sizes x).toNat = .ok x :=
  code_ec (by cases x <;> decide) hn
@[simp] theorem code_scopes (x : Scope) (hn : scopes.length ≤ 2 ^ n) : code scopes (ec n scopes x).toNat = .ok x :=
  code_ec (by cases x <;> decide) hn
@[simp] theorem code_waitCcs (x : WaitCc) (hn : waitCcs.length ≤ 2 ^ n) : code waitCcs (ec n waitCcs x).toNat = .ok x :=
  code_ec (by cases x <;> decide) hn
@[simp] theorem code_fenceKinds (x : FenceKind) (hn : fenceKinds.length ≤ 2 ^ n) : code fenceKinds (ec n fenceKinds x).toNat = .ok x :=
  code_ec (by cases x <;> decide) hn
@[simp] theorem code_rms (x : Rm) (hn : rms.length ≤ 2 ^ n) : code rms (ec n rms x).toNat = .ok x :=
  code_ec (by cases x <;> decide) hn
@[simp] theorem code_vop2Fns (x : Vop2Fn) (hn : vop2Fns.length ≤ 2 ^ n) : code vop2Fns (ec n vop2Fns x).toNat = .ok x :=
  code_ec (by cases x <;> decide) hn
@[simp] theorem code_vfmaFns (x : VfmaFn) (hn : vfmaFns.length ≤ 2 ^ n) : code vfmaFns (ec n vfmaFns x).toNat = .ok x :=
  code_ec (by cases x <;> decide) hn
@[simp] theorem code_vop1Fns (x : Vop1Fn) (hn : vop1Fns.length ≤ 2 ^ n) : code vop1Fns (ec n vop1Fns x).toNat = .ok x :=
  code_ec (by cases x <;> decide) hn
@[simp] theorem code_fCcs (x : FCc) (hn : fCcs.length ≤ 2 ^ n) : code fCcs (ec n fCcs x).toNat = .ok x :=
  code_ec (by cases x <;> decide) hn
@[simp] theorem code_vredFns (x : VredFn) (hn : vredFns.length ≤ 2 ^ n) : code vredFns (ec n vredFns x).toNat = .ok x :=
  code_ec (by cases x <;> decide) hn
@[simp] theorem code_vintFns (x : VintFn) (hn : vintFns.length ≤ 2 ^ n) : code vintFns (ec n vintFns x).toNat = .ok x :=
  code_ec (by cases x <;> decide) hn
@[simp] theorem code_sfuFns (x : SfuFn) (hn : sfuFns.length ≤ 2 ^ n) : code sfuFns (ec n sfuFns x).toNat = .ok x :=
  code_ec (by cases x <;> decide) hn
@[simp] theorem code_wins (x : Win) (hn : wins.length ≤ 2 ^ n) : code wins (ec n wins x).toNat = .ok x :=
  code_ec (by cases x <;> decide) hn
@[simp] theorem code_sides (x : Side) (hn : sides.length ≤ 2 ^ n) : code sides (ec n sides x).toNat = .ok x :=
  code_ec (by cases x <;> decide) hn
@[simp] theorem code_cmpls (x : Cmpl) (hn : cmpls.length ≤ 2 ^ n) : code cmpls (ec n cmpls x).toNat = .ok x :=
  code_ec (by cases x <;> decide) hn
@[simp] theorem code_lidFns (x : LidFn) (hn : lidFns.length ≤ 2 ^ n) : code lidFns (ec n lidFns x).toNat = .ok x :=
  code_ec (by cases x <;> decide) hn
@[simp] theorem code_iopFns (x : IopFn) (hn : iopFns.length ≤ 2 ^ n) : code iopFns (ec n iopFns x).toNat = .ok x :=
  code_ec (by cases x <;> decide) hn
@[simp] theorem code_idivFns (x : IdivFn) (hn : idivFns.length ≤ 2 ^ n) : code idivFns (ec n idivFns x).toNat = .ok x :=
  code_ec (by cases x <;> decide) hn
@[simp] theorem code_imadFns (x : ImadFn) (hn : imadFns.length ≤ 2 ^ n) : code imadFns (ec n imadFns x).toNat = .ok x :=
  code_ec (by cases x <;> decide) hn
@[simp] theorem code_isatFns (x : IsatFn) (hn : isatFns.length ≤ 2 ^ n) : code isatFns (ec n isatFns x).toNat = .ok x :=
  code_ec (by cases x <;> decide) hn
@[simp] theorem code_ibitFns (x : IbitFn) (hn : ibitFns.length ≤ 2 ^ n) : code ibitFns (ec n ibitFns x).toNat = .ok x :=
  code_ec (by cases x <;> decide) hn
@[simp] theorem code_iCcs (x : ICc) (hn : iCcs.length ≤ 2 ^ n) : code iCcs (ec n iCcs x).toNat = .ok x :=
  code_ec (by cases x <;> decide) hn
@[simp] theorem code_plopFns (x : PlopFn) (hn : plopFns.length ≤ 2 ^ n) : code plopFns (ec n plopFns x).toNat = .ok x :=
  code_ec (by cases x <;> decide) hn
@[simp] theorem code_pmovFns (x : PmovFn) (hn : pmovFns.length ≤ 2 ^ n) : code pmovFns (ec n pmovFns x).toNat = .ok x :=
  code_ec (by cases x <;> decide) hn
@[simp] theorem code_iop64Fns (x : Iop64Fn) (hn : iop64Fns.length ≤ 2 ^ n) : code iop64Fns (ec n iop64Fns x).toNat = .ok x :=
  code_ec (by cases x <;> decide) hn
@[simp] theorem code_fopFns (x : FopFn) (hn : fopFns.length ≤ 2 ^ n) : code fopFns (ec n fopFns x).toNat = .ok x :=
  code_ec (by cases x <;> decide) hn
@[simp] theorem code_ffmaFns (x : FfmaFn) (hn : ffmaFns.length ≤ 2 ^ n) : code ffmaFns (ec n ffmaFns x).toNat = .ok x :=
  code_ec (by cases x <;> decide) hn
@[simp] theorem code_funFns (x : FunFn) (hn : funFns.length ≤ 2 ^ n) : code funFns (ec n funFns x).toNat = .ok x :=
  code_ec (by cases x <;> decide) hn
@[simp] theorem code_hopFns (x : HopFn) (hn : hopFns.length ≤ 2 ^ n) : code hopFns (ec n hopFns x).toNat = .ok x :=
  code_ec (by cases x <;> decide) hn
@[simp] theorem code_dopFns (x : DopFn) (hn : dopFns.length ≤ 2 ^ n) : code dopFns (ec n dopFns x).toNat = .ok x :=
  code_ec (by cases x <;> decide) hn
@[simp] theorem code_dunFns (x : DunFn) (hn : dunFns.length ≤ 2 ^ n) : code dunFns (ec n dunFns x).toNat = .ok x :=
  code_ec (by cases x <;> decide) hn
@[simp] theorem code_atomFns (x : AtomFn) (hn : atomFns.length ≤ 2 ^ n) : code atomFns (ec n atomFns x).toNat = .ok x :=
  code_ec (by cases x <;> decide) hn
@[simp] theorem code_voteFns (x : VoteFn) (hn : voteFns.length ≤ 2 ^ n) : code voteFns (ec n voteFns x).toNat = .ok x :=
  code_ec (by cases x <;> decide) hn
@[simp] theorem code_shflFns (x : ShflFn) (hn : shflFns.length ≤ 2 ^ n) : code shflFns (ec n shflFns x).toNat = .ok x :=
  code_ec (by cases x <;> decide) hn
@[simp] theorem code_scanOps (x : ScanOp) (hn : scanOps.length ≤ 2 ^ n) : code scanOps (ec n scanOps x).toNat = .ok x :=
  code_ec (by cases x <;> decide) hn
@[simp] theorem code_falseTrue (x : Bool) (hn : [false, true].length ≤ 2 ^ n) :
    code [false, true] (ec n [false, true] x).toNat = .ok x := code_ec (by cases x <;> decide) hn

/-- R21: the code of a format fits its field and stands for the format. -/
theorem fmtCode_spec {f : Fmt} (h : fmtValid f = true) : fmtCode f < 2 ^ 6 ∧ fmtOfCode (fmtCode f) = some f := by
  cases f with
  | b8 p u f =>
    obtain ⟨hlo, hhi⟩ : 1 ≤ p ∧ p ≤ 7 := of_decide_eq_true h
    interval_cases p <;> cases u <;> cases f <;> decide
  | _ => decide

theorem fmtD_ef {f : Fmt} (h : fmtValid f = true) : fmtD (ef f).toNat = .ok f := by
  obtain ⟨hlt, hcode⟩ := fmtCode_spec h
  simp [-Nat.reducePow, fmtD, ef, Nat.mod_eq_of_lt hlt, hcode]

theorem fmtValid_of_float {f : Fmt} (h : fmtIsFloat f = true) : fmtValid f = true := by
  cases f with
  | b8 => cases h
  | _ => rfl

theorem fmtValid_of_int {f : Fmt} (h : fmtIsInt f = true) : fmtValid f = true := by
  cases f with
  | b8 => cases h
  | _ => rfl

theorem fmtValid_of_b8 {f : Fmt} (h : fmtIsB8 f = true) : fmtValid f = true := by
  cases f with
  | b8 => exact h
  | _ => rfl

theorem fmtValid_of_vec {f : Fmt} (h : fmtIsVec f = true) : fmtValid f = true := by
  simp only [fmtIsVec, Bool.or_eq_true] at h
  exact h.elim (·.elim fmtValid_of_float fmtValid_of_int) fmtValid_of_b8

theorem fmtValid_of_floatInt {f : Fmt} (h : (fmtIsFloat f || fmtIsInt f) = true) : fmtValid f = true :=
  (Bool.or_eq_true _ _ ▸ h).elim fmtValid_of_float fmtValid_of_int

theorem fmtValid_of_matrix {f : Fmt} (h : fmtIsMatrix f = true) : fmtValid f = true := by
  simp only [fmtIsMatrix, Bool.or_eq_true, beq_iff_eq] at h
  obtain ((rfl | rfl) | rfl) | h := h
  exacts [rfl, rfl, rfl, fmtValid_of_b8 h]

theorem fmtIsVec_of_vop2Ok {fn : Vop2Fn} {sat : Bool} {rm : Rm} {f : Fmt} (h : vop2Ok fn sat rm f = true) :
    fmtIsVec f = true := by
  simp only [vop2Ok, Bool.and_eq_true] at h
  simp [fmtIsVec, h.1.1]

theorem fmtIsVec_of_vop1Ok {fn : Vop1Fn} {sat : Bool} {rm : Rm} {f : Fmt} (h : vop1Ok fn sat rm f = true) :
    fmtIsVec f = true := by
  simp only [vop1Ok, Bool.and_eq_true] at h
  obtain ⟨⟨hfn, -⟩, -⟩ := h
  cases fn <;> simp_all [fmtIsVec]

/-- The formats whose codes stand in the word of an instruction. -/
def Instr.fmts : Instr → List Fmt
  | .vop2 _ _ _ _ _ f _ _ _ | .vfma _ _ _ _ _ f _ _ _ _ | .vop1 _ _ _ _ f _ _ | .vcmp _ _ _ _ _ f _ _ _
  | .vsel _ _ f _ _ _ _ | .vred _ _ f _ _ | .vcvto _ _ _ f _ _ _ _ _ | .vint _ _ _ f _ _ _ | .vmovi _ _ f _
  | .kcgrad _ _ f _ _ => [f]
  | .mma _ _ o | .mmah _ _ _ _ _ o => [o.fmt]
  | .vcvt _ t _ _ _ f _ _ | .cvt _ _ _ _ t f _ _ => [t, f]
  | _ => []

theorem fmtIsVec_of_vcvtOk {frm tgt : Fmt} {part : BitVec 2} {sat : Bool} {rm : Rm}
    (h : vcvtOk frm tgt part sat rm = true) : fmtIsVec tgt = true ∧ fmtIsVec frm = true := by
  simp only [vcvtOk, Bool.and_eq_true] at h
  obtain ⟨⟨⟨⟨⟨hfrm, htgt⟩, -⟩, -⟩, -⟩, -⟩ := h
  exact ⟨htgt, hfrm⟩

theorem laneFmtOk_of_cvtOk {dp sp : BitVec 2} {m : FMod} {tgt frm : Fmt} {d a : GReg}
    (h : cvtOk dp sp m tgt frm d a = true) : laneFmtOk tgt = true ∧ laneFmtOk frm = true := by
  simp only [cvtOk, Bool.and_eq_true] at h
  obtain ⟨⟨⟨⟨⟨⟨⟨⟨htgt, hfrm⟩, -⟩, -⟩, -⟩, -⟩, -⟩, -⟩, -⟩ := h
  exact ⟨htgt, hfrm⟩

theorem fmtValid_of_mmaOpOk {o : MmaOp} (h : mmaOpOk o = true) : fmtValid o.fmt = true := by
  simp only [mmaOpOk] at h
  split at h
  · rw [beq_iff_eq.mp h]; rfl
  · exact fmtValid_of_matrix h

theorem fmtValid_of_kcgradOk {x : KXfer} {tgt : Fmt} (h : kcgradOk x tgt = true) : fmtValid tgt = true := by
  have htgt := Bool.and_elim_right h
  cases tgt with
  | b8 => exact Bool.and_elim_left htgt
  | _ => rfl

/-- R63: decode rejects a reserved format, so a well-formed instruction names none. -/
theorem Instr.fmtValid_of_wf {i : Instr} (h : i.WellFormed) {f : Fmt} (hf : f ∈ i.fmts) : fmtValid f = true := by
  have left {a b : Bool} : (a && b) = true → a = true := Bool.and_elim_left
  have right {a b : Bool} : (a && b) = true → b = true := Bool.and_elim_right
  cases i
  case vcvt =>
    obtain ⟨htgt, hfrm⟩ := fmtIsVec_of_vcvtOk (right h)
    obtain rfl | rfl := List.mem_pair.mp hf
    exacts [fmtValid_of_vec htgt, fmtValid_of_vec hfrm]
  case cvt =>
    obtain ⟨htgt, hfrm⟩ := laneFmtOk_of_cvtOk h
    obtain rfl | rfl := List.mem_pair.mp hf
    exacts [right htgt, right hfrm]
  case vop2 => exact List.mem_singleton.mp hf ▸ fmtValid_of_vec (fmtIsVec_of_vop2Ok (right (left h)))
  case vop1 => exact List.mem_singleton.mp hf ▸ fmtValid_of_vec (fmtIsVec_of_vop1Ok (right h))
  case vfma => exact List.mem_singleton.mp hf ▸ fmtValid_of_floatInt (right (left (left h)))
  case vcmp => exact List.mem_singleton.mp hf ▸ fmtValid_of_floatInt (right (left (left (left h))))
  case vred => exact List.mem_singleton.mp hf ▸ fmtValid_of_floatInt (right h)
  case vsel | vint | vmovi => exact List.mem_singleton.mp hf ▸ fmtValid_of_vec (right (left h))
  case vcvto => exact List.mem_singleton.mp hf ▸ fmtValid_of_b8 (right (left h))
  case mma => exact List.mem_singleton.mp hf ▸ fmtValid_of_mmaOpOk (right h)
  case mmah => exact List.mem_singleton.mp hf ▸ fmtValid_of_mmaOpOk (right (left h))
  case kcgrad => exact List.mem_singleton.mp hf ▸ fmtValid_of_kcgradOk (right h)
  all_goals cases hf

/-! ## Slots and their guards -/

@[simp] theorem guardOf_append (hi : BitVec n) (g : Guard) (opc : Nat) : guardOf (hi ++ gbits g opc) = g := by
  have hspe : bit (gbits g opc) 7 = g.spe := by
    simp (disch := decide) only [gbits, bit_append_low, bit_append_high]
    exact bit_eb g.spe
  have hsel : fld (gbits g opc) 8 3 = g.qsel := by
    simp (disch := decide) only [gbits, fld_append_high, Nat.reduceSub, fld_full]
  simp [guardOf, hspe, hsel]

@[simp] theorem opcOf_append (hi : BitVec n) (g : Guard) (opc : Nat) : opcOf (hi ++ gbits g opc) = opc % 128 := by
  simp (disch := decide) [-Nat.reduceAdd, opcOf, gbits]

theorem checked_ok {i : Instr} {r : Dec Instr} (hr : r = .ok i) (hwf : i.WellFormed) : checked r = .ok i := by
  subst hr
  exact if_pos hwf

/-- R142: a slot of a free opcode, written with the layout of the gang slots. -/
theorem parseStitch_sopBits (o : SOp) (g : Guard) (opc : BitVec 7) (hi : BitVec 32) :
    parseStitch (sopBits o ++ gbits g opc.toNat) hi = .stitchDispatch g opc o hi := by
  have hopc : fld (sopBits o ++ gbits g opc.toNat : BitVec 64) 0 7 = opc := by
    simp (disch := decide) [-Nat.reduceAdd, gbits]
  simp (disch := decide) [-Nat.reduceAdd, parseStitch, hopc]
  simp (disch := decide) [-Nat.reduceAdd, sopBits]

theorem opcClass_v {opc : Nat} (h : 0x20 ≤ opc ∧ opc < 0x38) : opcClass opc = .v := by
  rw [opcClass, if_neg (by omega), if_pos h.2]
theorem opcClass_m {opc : Nat} (h : 0x38 ≤ opc ∧ opc < 0x48) : opcClass opc = .m := by
  rw [opcClass, if_neg (by omega), if_neg (by omega), if_pos h.2]
theorem opcClass_k {opc : Nat} (h : 0x48 ≤ opc ∧ opc < 0x60) : opcClass opc = .k := by
  rw [opcClass, if_neg (by omega), if_neg (by omega), if_neg (by omega), if_pos h.2]
theorem opcClass_s {opc : Nat} (h : 0x60 ≤ opc) : opcClass opc = .s := by
  rw [opcClass, if_neg (by omega), if_neg (by omega), if_neg (by omega), if_neg (by omega)]

theorem parseV_free {w : BitVec 64} (h : 0x30 ≤ opcOf w ∧ opcOf w < 0x38) : parseV w = .ok (parseStitch w 0) := by
  unfold parseV
  split
  case h_17 => exact if_pos (opcClass_v (by omega))
  all_goals omega

theorem parseM_free {w : BitVec 64} (h : 0x40 ≤ opcOf w ∧ opcOf w < 0x48) : parseM w = .ok (parseStitch w 0) := by
  unfold parseM
  split
  case h_9 => exact if_pos (opcClass_m (by omega))
  all_goals omega

theorem parseK_free {w : BitVec 96} (h : 0x4F ≤ opcOf w ∧ opcOf w < 0x60) :
    parseK w = .ok (parseStitch (fld w 0 64) (fld w 64 32)) := by
  unfold parseK
  split
  case h_8 => exact if_pos (opcClass_k (by omega))
  all_goals omega

theorem parseS_free {w : BitVec 64} (h : 0x68 ≤ opcOf w) : parseS w = .ok (parseStitch w 0) := by
  unfold parseS
  split
  case h_9 => exact if_pos (opcClass_s (by omega))
  all_goals omega

end Sys2Proof
end

section
/-! The decoder undoes the encoder, class by class (R56 to R63, R72, R104, R142, R150, R161, R185, R232, R260). -/
namespace Sys2Proof
open Machine

/-! ## The C slot -/

theorem parseC_cfgw (g : Guard) (reg : BitVec 12) (a : SReg) :
    parseC ((reg ++ z 4 ++ a : BitVec 21) ++ gbits g 0x0D : BitVec 32) = .ok (cfgwOf g reg a) := by
  simp (disch := decide) [-Nat.reduceAdd, parseC]

theorem decode_cW {i : Instr} {hi : BitVec 21} {g : Guard} {opc : Nat} {w : CodeWord} (h : cW hi g opc = some w)
    (hwf : i.WellFormed) (hp : parseC (hi ++ gbits g opc) = .ok i) : decode w = .ok i := by
  cases h
  exact checked_ok hp hwf

theorem decode_cfgwW {i : Instr} {g : Guard} {reg : BitVec 12} {a : SReg} {w : CodeWord} (h : cfgwW g reg a = some w)
    (hwf : i.WellFormed) (hi : cfgwOf g reg a = i) : decode w = .ok i :=
  decode_cW h hwf (hi ▸ parseC_cfgw g reg a)

theorem cfgwOf_plain {g : Guard} {reg : BitVec 12} {a : SReg} (h : cfgwSpecial reg.toNat = false) :
    cfgwOf g reg a = .cfgw g reg a := by
  simp only [cfgwSpecial, decide_eq_false_iff_not, not_or] at h
  obtain ⟨hshape, hring, hsr, hfmt, hmon, hlog, hacc⟩ := h
  simp only [cfgwOf, hshape, hring, hsr, hfmt, hmon, hlog, hacc, if_false]

theorem toNat_append_add {n m : Nat} (a : BitVec n) (b : BitVec m) :
    (a ++ b).toNat = a.toNat * 2 ^ m + b.toNat := by
  rw [BitVec.toNat_append, ← Nat.shiftLeft_add_eq_or_of_lt b.isLt, Nat.shiftLeft_eq]

theorem cfgwOf_tshape (g : Guard) (n : TileReg) (a : SReg) :
    cfgwOf g (2#9 ++ n : BitVec 12) a = .tshapeWrite g n a := by
  have hreg : (2#9 ++ n : BitVec 12).toNat = 0x010 + n.toNat := toNat_append_add _ _
  have hn : (2#9 ++ n : BitVec 12).extractLsb' 0 3 = n := BitVec.extractLsb'_append_eq_right
  rw [cfgwOf, hreg, if_pos (by omega), hn]

theorem cfgwOf_cbdesc (g : Guard) (k : RingReg) (a : SReg) :
    cfgwOf g (1#7 ++ k : BitVec 12) a = .cbdescWrite g k a := by
  have hreg : (1#7 ++ k : BitVec 12).toNat = 0x020 + k.toNat := toNat_append_add _ _
  have hk : (1#7 ++ k : BitVec 12).extractLsb' 0 5 = k := BitVec.extractLsb'_append_eq_right
  rw [cfgwOf, hreg, if_neg (by omega), if_pos (by omega), hk]

theorem cfgwOf_moncfg (g : Guard) (m : BitVec 2) {j : Nat} (hj : j ≤ 2) (a : SReg) :
    cfgwOf g (8#7 ++ m ++ BitVec.ofNat 3 j : BitVec 12) a = .moncfgWrite g m j a := by
  have hreg : (8#7 ++ m ++ BitVec.ofNat 3 j : BitVec 12).toNat = 0x100 + 8 * m.toNat + j := by
    have hlo : (BitVec.ofNat 3 j).toNat = j := Nat.mod_eq_of_lt (by omega)
    rw [toNat_append_add, toNat_append_add, hlo]
    simp only [BitVec.reduceToNat]
    omega
  have hm : (8#7 ++ m ++ BitVec.ofNat 3 j : BitVec 12).extractLsb' 3 2 = m := by
    rw [BitVec.extractLsb'_append_eq_of_le (le_refl 3)]
    exact BitVec.extractLsb'_append_eq_right
  have hj8 : (0x100 + 8 * m.toNat + j) % 8 = j := by omega
  rw [cfgwOf, hreg, if_neg (by omega), if_neg (by omega), if_neg (by omega), if_neg (by omega), if_pos (by omega), hm, hj8]

/-- The C slot (R72). -/
theorem decode_encode_c {i : Instr} {w : BitVec 32} (hwf : i.WellFormed) (h : encode i = some (.c w))
    (hs : ∀ g opc o hi, i ≠ .stitchDispatch g opc o hi) : decode (.c w) = .ok i := by
  cases i
  case cfgw => exact decode_cfgwW h hwf (cfgwOf_plain (by simpa using Bool.and_elim_right hwf))
  case tshapeWrite => exact decode_cfgwW h hwf (cfgwOf_tshape ..)
  case cbdescWrite => exact decode_cfgwW h hwf (cfgwOf_cbdesc ..)
  case moncfgWrite => exact decode_cfgwW h hwf (cfgwOf_moncfg _ _ (of_decide_eq_true (Bool.and_elim_right hwf)) _)
  case srstateWrite | mfmtWrite | logpWrite | haccWrite => exact decode_cfgwW h hwf rfl
  case sysServiceCall g imm =>
    have hcall : 0x100 ≤ imm.toNat := of_decide_eq_true (Bool.and_elim_right hwf)
    have himm : imm ≠ 0#16 := by
      rintro rfl
      exact absurd hcall (by decide)
    refine decode_cW h hwf ?_
    simp (disch := decide) [-Nat.reduceAdd, parseC, himm]
  case nop | sop | sopi | smovi | scmp | sld | sst | br | brInd | call | callInd | ret | advr | advw | cfgr | waits
      | fence | fork | join | hpass | bar | launch | bind | recon | recoff | monsetArm | monsetDisarm | monsetCheck
      | unpick | loop | iterIdx | iterPass | iterExit | sys | tret | brk =>
    refine decode_cW h hwf ?_
    simp (disch := decide) [-Nat.reduceAdd, parseC]
  case stitchDispatch => exact (hs _ _ _ _ rfl).elim
  all_goals cases h

/-! ## The V, M and S slots -/

theorem decode_vW {i : Instr} {hi : BitVec 53} {g : Guard} {opc : Nat} {w : CodeWord} (h : vW hi g opc = some w)
    (hwf : i.WellFormed) (hp : parseV (hi ++ gbits g opc) = .ok i) : decode w = .ok i := by
  cases h
  exact checked_ok hp hwf

theorem decode_mW {i : Instr} {hi : BitVec 53} {g : Guard} {opc : Nat} {w : CodeWord} (h : mW hi g opc = some w)
    (hwf : i.WellFormed) (hp : parseM (hi ++ gbits g opc) = .ok i) : decode w = .ok i := by
  cases h
  exact checked_ok hp hwf

theorem decode_sW {i : Instr} {o : SOp} {g : Guard} {opc : Nat} {w : CodeWord} (h : sW o g opc = some w)
    (hwf : i.WellFormed) (hp : parseS (sopBits o ++ gbits g opc) = .ok i) : decode w = .ok i := by
  cases h
  exact checked_ok hp hwf

/-- The V slot (R104). -/
theorem decode_encode_v {i : Instr} {w : BitVec 64} (hwf : i.WellFormed) (h : encode i = some (.v w))
    (hs : ∀ g opc o hi, i ≠ .stitchDispatch g opc o hi) : decode (.v w) = .ok i := by
  have hf {f : Fmt} : f ∈ i.fmts → fmtD (ef f).toNat = .ok f := fun hf => fmtD_ef (Instr.fmtValid_of_wf hwf hf)
  cases i
  case vrows | vcols | vsca | vsfu | vldt | vstt =>
    refine decode_vW h hwf ?_
    simp (disch := decide) [-Nat.reduceAdd, parseV]
  case vop2 | vfma | vop1 | vcmp | vsel | vred | vcvto | vint | vmovi =>
    refine decode_vW h hwf ?_
    simp (disch := decide) [-Nat.reduceAdd, parseV, hf (List.mem_singleton_self _)]
  case vcvt =>
    refine decode_vW h hwf ?_
    simp (disch := decide) [-Nat.reduceAdd, parseV, hf List.mem_cons_self,
      hf (List.mem_cons_of_mem _ List.mem_cons_self)]
  case stitchDispatch => exact (hs _ _ _ _ rfl).elim
  all_goals cases h

/-- The M slot (R232). -/
theorem decode_encode_m {i : Instr} {w : BitVec 64} (hwf : i.WellFormed) (h : encode i = some (.m w))
    (hs : ∀ g opc o hi, i ≠ .stitchDispatch g opc o hi) : decode (.m w) = .ok i := by
  have hf {f : Fmt} : f ∈ i.fmts → fmtD (ef f).toNat = .ok f := fun hf => fmtD_ef (Instr.fmtValid_of_wf hwf hf)
  cases i
  case mlease | munlease | mclaim | mrels | mdrain | mzero =>
    refine decode_mW h hwf ?_
    simp (disch := decide) [-Nat.reduceAdd, parseM]
  case mma | mmah =>
    refine decode_mW h hwf ?_
    simp (disch := decide) [-Nat.reduceAdd, parseM, mmaBits, mmaOpOf, hf (List.mem_singleton_self _)]
  case stitchDispatch => exact (hs _ _ _ _ rfl).elim
  all_goals cases h

/-- The S slot (R142). -/
theorem decode_encode_s {i : Instr} {w : BitVec 64} (hwf : i.WellFormed) (h : encode i = some (.s w))
    (hs : ∀ g opc o hi, i ≠ .stitchDispatch g opc o hi) : decode (.s w) = .ok i := by
  cases i
  case xpose | gather | scatter | softmax | lnorm | topk | sort | segsum =>
    refine decode_sW h hwf ?_
    simp (disch := decide) [-Nat.reduceAdd, parseS, sopBits]
  case stitchDispatch => exact (hs _ _ _ _ rfl).elim
  all_goals cases h

/-! ## The K slot -/

theorem decode_kW {i : Instr} {x : KXfer} {dd : BitVec 16} {ssp : BitVec 2} {g : Guard} {opc : Nat} {w : CodeWord}
    (h : kW x dd ssp g opc = some w) (hwf : i.WellFormed)
    (hp : parseK (z 16 ++ x.sdesc ++ dd ++ z 1 ++ ec 3 scopes x.stsc ++ x.se ++ ec 2 cmpls x.cmpl ++ eb x.adv ++ x.ch ++
      x.oh ++ ssp ++ ec 2 sides x.dst ++ x.sn ++ x.ss ++ x.sd ++ gbits g opc : BitVec 96) = .ok i) :
    decode w = .ok i := by
  cases h
  exact checked_ok hp hwf

theorem decode_keyeW {i : Instr} {oh : Handle} {mc : Bool} {fn : BitVec 2} {sa se : SReg} {g : Guard} {w : CodeWord}
    (h : keyeW oh mc fn sa se g = some w) (hwf : i.WellFormed)
    (hp : parseK (z 65 ++ oh ++ z 3 ++ eb mc ++ fn ++ sa ++ se ++ gbits g 0x4D : BitVec 96) = .ok i) :
    decode w = .ok i := by
  cases h
  exact checked_ok hp hwf

/-- R263: the DDESC of KCGRAD holds other fields, and is 0 in the layout of its row. -/
theorem ddesc_of_kcgradOk {x : KXfer} {tgt : Fmt} (h : kcgradOk x tgt = true) : x.ddesc = 0#16 := by
  simp only [kcgradOk, Bool.and_eq_true, beq_iff_eq] at h
  obtain ⟨⟨⟨⟨⟨-, hdd⟩, -⟩, -⟩, -⟩, -⟩ := h
  exact hdd

/-- R261: the source of KPULL is global memory. -/
theorem src_of_kpullOk {x : KXfer} (h : kpullOk x = true) : x.src = .gm := by
  simp only [kpullOk, Bool.and_eq_true, beq_iff_eq] at h
  obtain ⟨⟨⟨⟨⟨-, hsrc⟩, -⟩, -⟩, -⟩, -⟩ := h
  exact hsrc

/-- The K slot (R260, R276). -/
theorem decode_encode_k {i : Instr} {w : BitVec 96} (hwf : i.WellFormed) (h : encode i = some (.k w))
    (hs : ∀ g opc o hi, i ≠ .stitchDispatch g opc o hi) : decode (.k w) = .ok i := by
  cases i
  case kcopy | kfill | kgang | kmcast =>
    refine decode_kW h hwf ?_
    simp (disch := decide) [-Nat.reduceAdd, parseK, kxferOf]
  case kcgrad g x tgt rm nb =>
    have hf : fmtD (ef tgt).toNat = .ok tgt := fmtD_ef (Instr.fmtValid_of_wf hwf (List.mem_singleton_self _))
    have hdd : x.ddesc = 0#16 := ddesc_of_kcgradOk (Bool.and_elim_right hwf)
    refine decode_kW h hwf ?_
    simp (disch := decide) [-Nat.reduceAdd, parseK, kxferOf, hf, ← hdd]
  case kpull g x peer =>
    have hsrc : x.src = .gm := src_of_kpullOk (Bool.and_elim_right hwf)
    refine decode_kW h hwf ?_
    simp (disch := decide) [-Nat.reduceAdd, parseK, kxferOf, ← hsrc]
  case keyeInit | keyeAdd | keyeWait =>
    refine decode_keyeW h hwf ?_
    simp (disch := decide) [-Nat.reduceAdd, parseK]
  case stitchDispatch => exact (hs _ _ _ _ rfl).elim
  all_goals cases h

/-! ## Lane words -/

/-- A lane word from its fields (R150). -/
theorem decode_laneW {i : Instr} {imm : BitVec 16} {sub : BitVec 4} {p : Pred} {c b a d : BitVec 8} {op : Nat}
    {w : CodeWord} (h : laneW imm sub p c b a d op = some w) (hwf : i.WellFormed)
    (hp : parseLane (imm ++ sub ++ eb p.neg ++ p.sel ++ c ++ b ++ a ++ d ++ BitVec.ofNat 8 op : BitVec 64) = .ok i) :
    decode w = .ok i := by
  cases h
  exact checked_ok hp hwf

/-- The word of an instruction without a predicate has zeros in the predicate's place (R159). -/
theorem zero_noPred {n : Nat} (hi : BitVec n) : zero (hi ++ eb noPred.neg ++ noPred.sel) 0 4 = .ok () := by
  have hpred : (hi ++ eb noPred.neg ++ noPred.sel).extractLsb' 0 4 = 0#4 := by
    rw [BitVec.append_assoc, BitVec.extractLsb'_cast, BitVec.extractLsb'_append_eq_right]
    decide
  exact if_pos hpred

/-- The lane instructions of R185: memory, order, collectives and fibres. -/
def Instr.isLaneAccess : Instr → Bool
  | .ld _ _ _ _ _ _ _ | .st _ _ _ _ _ _ | .ldts _ _ _ _ _ _ _ | .stts _ _ _ _ _ _ | .ldtp _ _ _ _ _ _ _ _
  | .sttp _ _ _ _ _ _ _ | .ldpeer _ _ _ _ _ _ _ _ | .stpeer _ _ _ _ _ _ _ _ | .lfence _ _ _ _ | .lfork _ _ _
  | .ljoin _ _ _ | .lwait _ _ _ _ _ _ _ | .atom _ _ _ _ _ _ _ _ _ | .atomts _ _ _ _ _ _ _ _ _ _ _
  | .cas _ _ _ _ _ _ _ _ | .casts _ _ _ _ _ _ _ _ _ _ | .vote _ _ _ _ _ | .shfl _ _ _ _ _ _ _ | .scan _ _ _ _ _ _
  | .lred _ _ _ _ _ | .spawn _ _ _ _ | .quit _ | .role _ | .lbar | .tissue _ _ _ _ => true
  | _ => false

theorem decode_encode_laneAccess {i : Instr} {w : CodeWord} (hwf : i.WellFormed) (h : encode i = some w)
    (hacc : i.isLaneAccess = true) : decode w = .ok i := by
  cases i
  case ld | st | ldts | stts | ldtp | sttp | ldpeer | stpeer =>
    refine decode_laneW h hwf ?_
    simp (disch := decide) [-Nat.reduceAdd, parseLane, zB, zD, memmOf, memmBits]
  case lfence | lfork | ljoin | lwait | atom | atomts | cas | casts | vote | shfl | scan | lred | spawn | quit
      | tissue =>
    refine decode_laneW h hwf ?_
    simp (disch := decide) [-Nat.reduceAdd, parseLane, zA, zB, zC, zD, zSub, zImm, kfld, kreg]
  case role | lbar =>
    refine decode_laneW h hwf ?_
    simp (disch := decide) [-Nat.reduceAdd, parseLane, zA, zB, zC, zD, zSub, zImm, zero_noPred]
  all_goals cases hacc

/-- Lane words (R161, R185). -/
theorem decode_encode_lane {i : Instr} {w : BitVec 64} (hwf : i.WellFormed) (h : encode i = some (.lane w))
    (hs : ∀ g opc o hi, i ≠ .stitchDispatch g opc o hi) : decode (.lane w) = .ok i := by
  by_cases hacc : i.isLaneAccess = true
  · exact decode_encode_laneAccess hwf h hacc
  cases i
  case lnop | movi | movhi | mov | movd | sel | lid | iop | iopi | idiv | imad | isat | ibit | bfx | bfi | icmp | icmpi
      | plop | pmov | iop64 | icmp64 | fcmp | dcmp | sfu | bra | brx | laneCall | callx | laneRet =>
    refine decode_laneW h hwf ?_
    simp (disch := decide) [-Nat.reduceAdd, parseLane, zA, zB, zC, zD, zSub, zImm, bfBits, kfld, kreg]
  case lbrk =>
    refine decode_laneW h hwf ?_
    simp (disch := decide) [-Nat.reduceAdd, parseLane, zA, zB, zC, zD, zSub, zero_noPred]
  case fop | ffma | funop | hop | hfma | dop | dfma | dun =>
    refine decode_laneW h hwf ?_
    simp (disch := decide) [-Nat.reduceAdd, parseLane, zB, zC, fmodOf, modBits]
  case cvt p dp sp m tgt frm d a =>
    have htgt : fmtD (ef tgt).toNat = .ok tgt := fmtD_ef (Instr.fmtValid_of_wf hwf List.mem_cons_self)
    have hfrm : fmtD (ef frm).toNat = .ok frm :=
      fmtD_ef (Instr.fmtValid_of_wf hwf (List.mem_cons_of_mem _ List.mem_cons_self))
    refine decode_laneW h hwf ?_
    simp (disch := decide) [-Nat.reduceAdd, parseLane, zB, zC, htgt, hfrm]
  case stitchDispatch => exact (hs _ _ _ _ rfl).elim
  case ld | st | ldts | stts | ldtp | sttp | ldpeer | stpeer | lfence | lfork | ljoin | lwait | atom | atomts | cas
      | casts | vote | shfl | scan | lred | spawn | quit | role | lbar | tissue => exact absurd rfl hacc
  all_goals cases h

/-! ## Words of free opcodes, and the null bundle -/

theorem encode_stitch (g : Guard) (opc : BitVec 7) (o : SOp) (hi : BitVec 32) :
    encode (.stitchDispatch g opc o hi) =
      match opcClass opc.toNat with
      | .v => vW (sopBits o) g opc.toNat
      | .m => mW (sopBits o) g opc.toNat
      | .k => some (.k (hi ++ (sopBits o ++ gbits g opc.toNat : BitVec 64) : BitVec 96))
      | _ => sW o g opc.toNat := rfl

theorem kWord_parts (hi : BitVec 32) (lo : BitVec 64) : opcOf (hi ++ lo : BitVec 96) = opcOf lo ∧
    fld (hi ++ lo : BitVec 96) 0 64 = lo ∧ fld (hi ++ lo : BitVec 96) 64 32 = hi := by
  refine ⟨congrArg BitVec.toNat (fld_append_low hi lo ?_), ?_, ?_⟩
  · decide
  · exact (fld_append_low hi lo (le_refl 64)).trans (fld_full lo)
  · exact (fld_append_high hi lo (le_refl 64)).trans (fld_full hi)

/-- A slot of a free opcode is read with the layout of R142. -/
theorem decode_encode_stitch {g : Guard} {opc : BitVec 7} {o : SOp} {hi : BitVec 32} {w : CodeWord}
    (hwf : (Instr.stitchDispatch g opc o hi).WellFormed) (h : encode (.stitchDispatch g opc o hi) = some w) :
    decode w = .ok (.stitchDispatch g opc o hi) := by
  have hfree : opcFree opc.toNat = true := Bool.and_elim_right (Bool.and_elim_left hwf)
  have hhi : (decide (0x48 ≤ opc.toNat ∧ opc.toNat ≤ 0x5F) || hi == 0) = true := Bool.and_elim_right hwf
  simp only [opcFree, decide_eq_true_eq] at hfree
  simp only [Bool.or_eq_true, decide_eq_true_eq, beq_iff_eq] at hhi
  have hopc {n : Nat} (a : BitVec n) : opcOf (a ++ gbits g opc.toNat) = opc.toNat := by
    rw [opcOf_append, Nat.mod_eq_of_lt opc.isLt]
  have hword (hz : hi = 0) : parseStitch (sopBits o ++ gbits g opc.toNat) 0 = .stitchDispatch g opc o hi :=
    hz ▸ parseStitch_sopBits o g opc 0
  rw [encode_stitch] at h
  obtain hv | hm | hk | hl := hfree
  · rw [opcClass_v (by omega)] at h
    exact decode_vW h hwf ((parseV_free (by rw [hopc]; exact ⟨hv.1, by omega⟩)).trans
      (congrArg _ (hword (hhi.resolve_left (by omega)))))
  · rw [opcClass_m (by omega)] at h
    exact decode_mW h hwf ((parseM_free (by rw [hopc]; omega)).trans
      (congrArg _ (hword (hhi.resolve_left (by omega)))))
  · rw [opcClass_k (by omega)] at h
    cases h
    obtain ⟨hop, hlo, hhi'⟩ := kWord_parts hi (sopBits o ++ gbits g opc.toNat)
    refine checked_ok ((parseK_free (by rw [hop, hopc]; omega)).trans ?_) hwf
    rw [hlo, hhi', parseStitch_sopBits]
  · rw [opcClass_s (by omega)] at h
    exact decode_sW h hwf ((parseS_free (by rw [hopc]; omega)).trans
      (congrArg _ (hword (hhi.resolve_left (by omega)))))

/-- The null bundle (R56, R58). -/
theorem decode_encode_header {i : Instr} {w : BitVec 16} (h : encode i = some (.header w))
    (hs : ∀ g opc o hi, i ≠ .stitchDispatch g opc o hi) : decode (.header w) = .ok i := by
  cases i
  case nullBundle selv =>
    cases h
    cases selv <;> decide
  case stitchDispatch => exact (hs _ _ _ _ rfl).elim
  all_goals cases h

end Sys2Proof

namespace Sys2Proof
open Machine

/-- Settles O54: by the class of the word, each field of which the decoder reads as the encoder wrote it. -/
theorem decodeEncode : Obligations.DecodeEncode := by
  unfold Obligations.DecodeEncode
  intro i w hwf h
  by_cases hs : ∃ g opc o hi, i = .stitchDispatch g opc o hi
  · obtain ⟨g, opc, o, hi, rfl⟩ := hs
    exact decode_encode_stitch hwf h
  have hs' : ∀ g opc o hi, i ≠ .stitchDispatch g opc o hi := fun g opc o hi he => hs ⟨g, opc, o, hi, he⟩
  cases w with
  | header w => exact decode_encode_header h hs'
  | c w => exact decode_encode_c hwf h hs'
  | v w => exact decode_encode_v hwf h hs'
  | m w => exact decode_encode_m hwf h hs'
  | k w => exact decode_encode_k hwf h hs'
  | s w => exact decode_encode_s hwf h hs'
  | lane w => exact decode_encode_lane hwf h hs'

/-- Settles O55: the words are read field by field. -/
theorem decodeWords : Obligations.DecodeWords := by
  unfold Obligations.DecodeWords
  exact ⟨rfl, rfl, rfl, rfl, rfl, rfl, rfl, rfl, rfl, rfl, rfl⟩

end Sys2Proof
end

section
/-! A slot instruction alone in its bundle: its meaning is that of its slot (R62, R63), and a slot that its guard
disables is no operation (R60). -/
namespace Sys2Proof.Machine

/-- A slot instruction runs as the bundle of its slot, where a V, M or K opcode is bound to its engine. -/
theorem exec_eq_issueOne {s : State} {c : Nat} {i : Instr} {x : SlotSem} (hc : CanIssue s c) (hx : semOf i = some x)
    (hb : x.cls ∈ [1, 2, 3] → ((s.core c).prickAt ((encWords i).1.toNat % 128)).kind = 1 ∨
      ∃ g opc o hi, i = .stitchDispatch g opc o hi) : exec i s = issueOne x s := by
  cases i
  case vop2 | vfma | vop1 | vcmp | vsel | vred | vrows | vcols | vcvt | vcvto | vsca | vsfu | vint | vmovi | vldt
      | vstt =>
    cases hx
    exact issueHard_bound hc ((hb (show 2 ∈ [1, 2, 3] by decide)).resolve_right nofun)
  case mlease | munlease | mclaim | mrels | mma | mmah | mdrain | mzero =>
    cases hx
    exact issueHard_bound hc ((hb (show 1 ∈ [1, 2, 3] by decide)).resolve_right nofun)
  case kcopy | kfill | kgang | kmcast | kcgrad | keyeInit | keyeAdd | keyeWait | kpull =>
    cases hx
    exact issueHard_bound hc ((hb (show 3 ∈ [1, 2, 3] by decide)).resolve_right nofun)
  case nop | sop | sopi | smovi | scmp | sld | sst | br | brInd | call | callInd | ret | advr | advw | cfgr | cfgw
      | tshapeWrite | cbdescWrite | srstateWrite | mfmtWrite | moncfgWrite | logpWrite | haccWrite | waits | fence | fork
      | join | hpass | bar | launch | bind | recon | recoff | monsetArm | monsetDisarm | monsetCheck | unpick | loop
      | iterIdx | iterPass | iterExit | sys | sysServiceCall | tret | brk
      | xpose | gather | scatter | softmax | lnorm | topk | sort | segsum | stitchDispatch =>
    cases hx
    rfl
  all_goals cases hx

theorem enabled_eq_false {x : SlotSem} {k : Core} (h : ¬ Enabled k x.guard) : x.enabled k = false := by
  simpa [SlotSem.enabled, Enabled] using h

/-- Settles O4: the bundle is that of the slot, and a disabled slot leaves nothing of it but its issue. -/
theorem disabledSlotIsNop : Obligations.DisabledSlotIsNop := by
  unfold Obligations.DisabledSlotIsNop
  intro s c i x hc hx hl hb hg
  rw [exec_eq_issueOne hc hx hb]
  exact issueOne_disabled hc hl (enabled_eq_false hg)

end Sys2Proof.Machine
end

section
/-! A bundle of any number of slots: what its fetch leaves, and when it waits, stops or has its effects (R47, R62,
R64, R65, R345). -/
namespace Sys2Proof.Machine

/-! ## What a fetch leaves -/

/-- Nothing of the device has changed but the cached lines and translations of core c (R216, R219). -/
def FetchOnly (s t : State) (c : Nat) : Prop :=
  t = { s with cores := t.cores } ∧ ∃ bc tr, t.core c = { s.core c with bcache := bc, trans := tr }

theorem FetchOnly.refl (s : State) (c : Nat) : FetchOnly s s c := ⟨rfl, _, _, rfl⟩

theorem FetchOnly.trans {s t u : State} {c : Nat} (h : FetchOnly s t c) (h' : FetchOnly t u c) : FetchOnly s u c := by
  obtain ⟨hst, bc, tr, hk⟩ := h
  obtain ⟨htu, bc', tr', hk'⟩ := h'
  refine ⟨?_, bc', tr', by rw [hk', hk]⟩
  rw [htu, hst]

theorem fetchOnly_modCore {s : State} {c : Nat} {f : Core → Core}
    (hf : ∃ bc tr, f (s.core c) = { s.core c with bcache := bc, trans := tr }) : FetchOnly s (s.modCore c f) c := by
  refine ⟨rfl, ?_⟩
  rw [State.core_modCore]
  exact hf

theorem fetchOnly_cacheLine (s : State) (c line : Nat) : FetchOnly s (cacheLine s c line) c := by
  unfold cacheLine
  split
  · exact fetchOnly_modCore ⟨_, _, rfl⟩
  · exact .refl s c

theorem fetchOnly_keepVa (s : State) (c va : Nat) (a : Acc) : FetchOnly s (keepVa s c va a) c := by
  unfold keepVa
  split
  · refine fetchOnly_modCore ?_
    unfold Core.keepTrans
    split
    · exact ⟨_, _, rfl⟩
    · exact ⟨_, _, rfl⟩
  · exact .refl s c

theorem fetchOnly_cacheFetch (s : State) (c va n : Nat) : FetchOnly s (cacheFetch s c va n) c :=
  ((fetchOnly_cacheLine s c _).trans (fetchOnly_keepVa _ c _ _)).trans
    ((fetchOnly_cacheLine _ c _).trans (fetchOnly_keepVa _ c _ _))

theorem FetchOnly.bpc {s t : State} {c : Nat} (h : FetchOnly s t c) : (t.core c).bpc = (s.core c).bpc := by
  obtain ⟨-, bc, tr, hk⟩ := h
  rw [hk]

theorem FetchOnly.motifOn {s t : State} {c : Nat} (h : FetchOnly s t c) : t.motifOn c = s.motifOn c := by
  obtain ⟨hst, bc, tr, hk⟩ := h
  have hm (id : Nat) : t.motif? id = s.motif? id := by rw [hst]; rfl
  simp only [State.motifOn, hk, hm]

theorem FetchOnly.seqCanIssue {s t : State} {c : Nat} (h : FetchOnly s t c) : seqCanIssue t c = seqCanIssue s c := by
  have hm := h.motifOn
  obtain ⟨-, bc, tr, hk⟩ := h
  simp only [Machine.seqCanIssue, seqLive, hm, hk]
  rfl

theorem FetchOnly.canIssue {s t : State} {c : Nat} (h : FetchOnly s t c) (hc : CanIssue s c) : CanIssue t c := by
  refine ⟨?_, h.seqCanIssue.trans hc.2⟩
  rw [h.1]
  exact hc.1

/-! ## The issue of a bundle -/

theorem seqHeld_of_canIssue {s : State} {c : Nat} (h : seqCanIssue s c = true) : seqHeld (s.core c) = false := by
  simp only [seqCanIssue, Bool.and_eq_true, Bool.not_eq_true'] at h
  exact h.1.2

/-- The bundle of core c at BPC, of `len` bytes, as its slots see it. -/
abbrev bundleEnv (s : State) (c len : Nat) : Env :=
  { c := c, who := .seq, pre := s, base := (s.core c).bpc, next := va57 ((s.core c).bpc + len) }

/-- Where the sequencer may issue and no selvedge point stops it, the slots go through the bundle's checks. -/
theorem issueBundle_eq {s : State} {c : Nat} {selv : Bool} (hc : seqCanIssue s c = true) (len : Nat)
    (xs : List SlotSem) (hselv : ¬ (selv = true ∧ ∃ m, s.motifOn c = some m ∧ m.st = .preempting)) :
    issueBundle c selv len xs s = issueSlots (bundleEnv s c len) xs s := by
  have hstop : (selvHere (s.core c) selv && (s.core c).upk.isNone &&
      ((s.motifOn c).map (·.st)) == some .preempting) = false := by
    rw [Bool.eq_false_iff]
    intro h
    simp only [selvHere, Bool.and_eq_true, beq_iff_eq, Option.map_eq_some_iff] at h
    obtain ⟨⟨⟨hs, -⟩, -⟩, hm⟩ := h
    exact hselv ⟨hs, hm⟩
  simp only [issueBundle, seqLive_of_canIssue hc, hc, hstop, Bool.not_true, Bool.false_eq_true, if_false]

/-- R345: a motif that is asked to leave stops at a selvedge point. -/
theorem issueBundle_selvedge {s : State} {c : Nat} (hc : seqCanIssue s c = true) (len : Nat) (xs : List SlotSem)
    {m : Motif} (hm : s.motifOn c = some m) (hst : m.st = .preempting)
    (hnest : lsRun (s.core c).lstat = false ∨ lsStages (s.core c).lstat = 1) (hupk : (s.core c).upk = none) :
    issueBundle c true len xs s = s.modCore c (fun k => { k with selvedge := true }) := by
  have hstop : (selvHere (s.core c) true && (s.core c).upk.isNone &&
      ((s.motifOn c).map (·.st)) == some .preempting) = true := by
    simp [selvHere, hm, hst, hupk, hnest]
  simp only [issueBundle, seqLive_of_canIssue hc, hstop, Bool.not_true, Bool.false_eq_true, if_false, if_true]

theorem firstSome_eq_none {α : Type} {l : List (Option α)} (h : ∀ a ∈ l, a = none) : firstSome l = none := by
  induction l with
  | nil => rfl
  | cons a l ih =>
    obtain rfl := h a List.mem_cons_self
    exact ih fun b hb => h b (List.mem_cons_of_mem _ hb)

theorem foldl_eq_of_fixed {α β : Type} {f : α → β → α} {a : α} {l : List β} (h : ∀ b ∈ l, f a b = a) :
    l.foldl f a = a := by
  induction l with
  | nil => rfl
  | cons b l ih =>
    rw [List.foldl_cons, h b List.mem_cons_self]
    exact ih fun b' hb => h b' (List.mem_cons_of_mem _ hb)

section
variable {e : Env} {xs on : List SlotSem} {s : State}

theorem find_illegal_eq_none (hl : ∀ x ∈ xs, x.legal e.k = true) : xs.find? (fun x => !x.legal e.k) = none := by
  simpa using hl

/-- R64: while an enabled slot is not ready, the bundle only polls. -/
theorem issueSlots_waits (hl : ∀ x ∈ xs, x.legal e.k = true) (hon : xs.filter (SlotSem.enabled e.k) = on)
    (hr : ∃ x ∈ on, x.ready (marked e on) s = false) (hp : ∀ x ∈ on, ∀ t b, x.poll (marked e on) t b = t) :
    issueSlots e xs s = s := by
  have hall : on.all (fun x => x.ready (marked e on) s) = false := by
    simpa using hr
  simp only [issueSlots, find_illegal_eq_none hl, hon, hall, Bool.not_false, if_true]
  exact foldl_eq_of_fixed fun x hx => hp x hx _ _

/-- R65: where all enabled slots are ready, the first that its checks stop decides, and nothing takes effect. -/
theorem issueSlots_stops {st : Stop} (hl : ∀ x ∈ xs, x.legal e.k = true)
    (hon : xs.filter (SlotSem.enabled e.k) = on) (hr : ∀ x ∈ on, x.ready (marked e on) s = true)
    (hst : firstSome (on.map (fun x => x.check (marked e on) s)) = some st) :
    issueSlots e xs s = takeStop s e.c st := by
  have hall : on.all (fun x => x.ready (marked e on) s) = true := List.all_eq_true.mpr hr
  simp only [issueSlots, find_illegal_eq_none hl, hon, hall, Bool.not_true, Bool.false_eq_true, if_false, hst, marked_c]

/-- R47: where all enabled slots are ready and pass their checks, the bundle has its effects. -/
theorem issueSlots_goes (hl : ∀ x ∈ xs, x.legal e.k = true) (hon : xs.filter (SlotSem.enabled e.k) = on)
    (hr : ∀ x ∈ on, x.ready (marked e on) s = true ∧ x.check (marked e on) s = none)
    (hlog : recording e.k on = false) : issueSlots e xs s = effBundle (marked e on) on s := by
  have hall : on.all (fun x => x.ready (marked e on) s) = true := List.all_eq_true.mpr fun x hx => (hr x hx).1
  have hnone : firstSome (on.map (fun x => x.check (marked e on) s)) = none :=
    firstSome_eq_none (List.forall_mem_map.mpr fun x hx => (hr x hx).2)
  simp only [issueSlots, find_illegal_eq_none hl, hon, hall, Bool.not_true, Bool.false_eq_true, if_false, hnone,
    marked_k, hlog]

end

/-- R58: a bundle without slots has no effect but its issue. -/
theorem issueSlots_nil (s : State) (c len : Nat) : issueSlots (bundleEnv s c len) [] s = issued s c len 0 id := by
  simp [issueSlots, firstSome, ofClass, effBundle, runEff, logSlots, logNeed, countBundle, issued, issuedCore,
    State.modCore_eq, bundleEnv, Env.k]

/-! ## The bundle at BPC -/

/-- A bundle that is fetched and whose slots decode issues them on the device that its fetch leaves. -/
theorem bundleAt_slots {s : State} {c : Nat} (hc : seqCanIssue s c = true) {b : RawBundle} {len : Nat}
    {xs : List SlotSem} (hb : fetchBundle s c (s.core c).bpc (fetchTrap (s.core c).bpc) = .bundle b len)
    (hxs : decodeSlots (s.core c) b = .ok xs) :
    bundleAt c s = issueBundle c b.hdr.selv len xs (cacheFetch s c (s.core c).bpc len) := by
  simp only [bundleAt, seqLive_of_canIssue hc, seqHeld_of_canIssue hc, hc, hb, hxs, Bool.not_true, Bool.false_eq_true,
    if_false]

/-- R57, R63: bytes that hold no bundle trap ILLEGAL. -/
theorem bundleAt_badHeader {s : State} {c : Nat} (hc : seqCanIssue s c = true) {w : Nat}
    (hw : fetchBundle s c (s.core c).bpc (fetchTrap (s.core c).bpc) = .badHeader w) :
    bundleAt c s = raiseTrap s c { fetchTrap (s.core c).bpc with w0 := w64 w, acc := 0 } := by
  simp only [bundleAt, seqLive_of_canIssue hc, seqHeld_of_canIssue hc, hc, hw, Bool.not_true, Bool.false_eq_true,
    if_false]

/-- Settles O41: a null bundle by its own issue, a bundle of slots by what its slots answer on the device that the
fetch leaves, where the sequencer may issue as before. -/
theorem bundlesIssue : Obligations.BundlesIssue := by
  unfold Obligations.BundlesIssue
  intro s c hc
  have hfocus : s.focus.core = c := by rw [hc.1]; rfl
  have hexec : exec .bundleIssue s = .next (bundleAt c s) := by rw [← hfocus]; rfl
  have hnull (selv : Bool) : exec (.nullBundle selv) s = .next (issueBundle c selv 2 [] s) := by rw [← hfocus]; rfl
  refine ⟨fun selv hselv => ?null, fun m hm hst hnest hupk => ?selvedge,
    fun b len xs hb hxs hselv => ?slots, fun w hw => ?header⟩
  case null => rw [hnull, issueBundle_eq hc.2 2 [] hselv, issueSlots_nil]
  case selvedge => rw [hnull, issueBundle_selvedge hc.2 2 [] hm hst hnest hupk]
  case slots =>
    have hfetch : FetchOnly s (cacheFetch s c (s.core c).bpc len) c := fetchOnly_cacheFetch s c _ len
    have hgo : exec .bundleIssue s = .next (issueSlots (bundleEnv (cacheFetch s c (s.core c).bpc len) c len) xs
        (cacheFetch s c (s.core c).bpc len)) := by
      rw [hexec, bundleAt_slots hc.2 hb hxs, hselv,
        issueBundle_eq (hfetch.canIssue hc).2 len xs (fun h => absurd h.1 (by decide))]
    rw [bundleEnv, hfetch.bpc] at hgo
    intro s1 e on hl
    refine ⟨fun hr hlog => ?goes, fun hr hp => ?waits, fun st hr hst => ?stops⟩
    case goes => rw [hgo]; exact congrArg _ (issueSlots_goes hl rfl hr hlog)
    case waits => rw [hgo]; exact congrArg _ (issueSlots_waits hl rfl hr hp)
    case stops => rw [hgo]; exact congrArg _ (issueSlots_stops hl rfl hr hst)
  case header => rw [hexec, bundleAt_badHeader hc.2 hw]

end Sys2Proof.Machine
end

section
/-! What decode finds where the sequencer fetches a bundle of one slot (R56, R57, R63, R142). -/
namespace Sys2Proof
open Machine

/-! ## Bytes of a word (R4) -/

theorem length_leBytes (k v : Nat) : (leBytes k v).length = k := by
  induction k generalizing v with
  | zero => rfl
  | succ k ih => rw [leBytes, List.length_cons, ih]

theorem leNat_leBytes (k v : Nat) : leNat (leBytes k v) = v % 256 ^ k := by
  induction k generalizing v with
  | zero => simp [leBytes, leNat, Nat.mod_one]
  | succ k ih =>
    rw [leBytes, leNat, ih, pow_succ', Nat.mod_mul]
    rfl

/-- A word is read back from its bytes. -/
theorem ofNat_leNat_leBytes {n k : Nat} (w : BitVec n) (hn : 256 ^ k = 2 ^ n) :
    BitVec.ofNat n (leNat ((leBytes k w.toNat).take k)) = w := by
  rw [List.take_of_length_le (length_leBytes k _).le, leNat_leBytes, hn, Nat.mod_eq_of_lt w.isLt, BitVec.ofNat_toNat,
    BitVec.setWidth_eq]

/-! ## Slots that decode -/

/-- What decode answers is the instruction of a slot, or no instruction. -/
def slotDec (r : Dec Instr) : Bool :=
  match r with
  | .ok i => (semOf i).isSome
  | .error _ => true

theorem slotDec_bind {α : Type} {r : Dec α} {f : α → Dec Instr} (h : ∀ a, slotDec (f a) = true) :
    slotDec (r >>= f) = true := by
  cases r with
  | ok a => exact h a
  | error e => rfl

theorem slotDec_cfgwOf (g : Guard) (reg : BitVec 12) (a : SReg) : slotDec (.ok (cfgwOf g reg a)) = true := by
  unfold cfgwOf
  dsimp only
  split_ifs <;> rfl

theorem slotDec_parseC (w : BitVec 32) : slotDec (parseC w) = true := by
  unfold parseC
  split
  all_goals repeat' refine slotDec_bind fun _ => ?_
  case h_14 => exact slotDec_cfgwOf ..
  case h_29 => dsimp only; split <;> rfl
  case h_8 | h_9 | h_25 | h_28 =>
    split
    all_goals repeat' refine slotDec_bind fun _ => ?_
    all_goals rfl
  all_goals rfl

theorem slotDec_parseV (w : BitVec 64) : slotDec (parseV w) = true := by
  unfold parseV
  split
  all_goals repeat' refine slotDec_bind fun _ => ?_
  case h_17 => split <;> rfl
  all_goals rfl

theorem slotDec_parseM (w : BitVec 64) : slotDec (parseM w) = true := by
  unfold parseM
  split
  all_goals repeat' refine slotDec_bind fun _ => ?_
  case h_9 => split <;> rfl
  all_goals rfl

theorem slotDec_parseK (w : BitVec 96) : slotDec (parseK w) = true := by
  unfold parseK
  split
  all_goals repeat' refine slotDec_bind fun _ => ?_
  case h_6 =>
    split
    case h_3 => dsimp only; split <;> rfl
    all_goals rfl
  case h_8 => split <;> rfl
  all_goals rfl

theorem slotDec_parseS (w : BitVec 64) : slotDec (parseS w) = true := by
  unfold parseS
  split
  case h_9 => split <;> rfl
  all_goals rfl

theorem parse_of_checked {r : Dec Instr} {i : Instr} (h : checked r = .ok i) : r = .ok i ∧ i.WellFormed := by
  unfold checked at h
  split at h
  · split at h
    next hwf =>
      cases h
      exact ⟨rfl, hwf⟩
    · cases h
  · cases h

/-- A word of a slot class that decodes is the instruction of a slot. -/
theorem semOf_of_checked {r : Dec Instr} {i : Instr} (hr : slotDec r = true) (h : checked r = .ok i) :
    ∃ x, semOf i = some x := by
  obtain ⟨rfl, -⟩ := parse_of_checked h
  exact Option.isSome_iff_exists.mp hr

theorem i_of_semOf {i : Instr} {x : SlotSem} (h : semOf i = some x) : x.i = i := by
  cases i <;> cases h <;> rfl

/-- R63: an S word that decodes is of the class of its slot, and its guard is legal. -/
theorem sClass_of_decode {w : BitVec 64} {i : Instr} (h : decode (.s w) = .ok i) :
    parseS w = .ok i ∧ opcClass (opcOf w) = .s ∧ guardOk (guardOf w) = true := by
  obtain ⟨hp, hwf⟩ := parse_of_checked h
  refine ⟨hp, ?_⟩
  unfold parseS at hp
  split at hp
  case h_9 =>
    split at hp
    next hs =>
      cases hp
      exact ⟨hs, Bool.and_elim_left (Bool.and_elim_left hwf)⟩
    · cases hp
  all_goals
    rename_i hopc
    cases hp
    exact ⟨by rw [hopc]; rfl, Bool.and_elim_left hwf⟩

/-! ## The bundle of one slot -/

theorem decodeSlots_single {k : Core} {b : RawBundle} {cls : SlotClass} {w0 : W64} {w1 : W32} {x : SlotSem}
    (hraw : rawSlots b = [(cls, w0, w1)]) (hx : slotOf k cls w0 w1 = some x) (hl : x.legal k = true) :
    decodeSlots k b = .ok [x] := by
  simp [decodeSlots, hraw, hx, hl]

theorem fetchBundle_eq {s : State} {c va : Nat} {t : Trap} {h : Header} {bs : List Byte} (hva : va % 2 = 0)
    (h2 : fetchBytes s c va 2 t = .bytes (bs.take 2)) (hh : headerOf (BitVec.ofNat 16 (leNat (bs.take 2))) = .ok h)
    (hlen : h.length = bs.length) (hall : fetchBytes s c va bs.length t = .bytes bs) :
    fetchBundle s c va t = .bundle (cutBundle h (bs.drop 2)) bs.length := by
  have hodd : ¬ va % 2 = 1 := by omega
  simp only [fetchBundle, fetchHeader, hodd, if_false, h2, hh, hlen, hall]

/-- R56, R57: the core fetches the bundle of one code word at BPC. -/
structure Fetches (s : State) (c : Nat) (w : CodeWord) : Prop where
  even : (s.core c).bpc % 2 = 0
  header : fetchBytes s c (s.core c).bpc 2 (fetchTrap (s.core c).bpc) = .bytes ((soloBytes w).take 2)
  all : fetchBytes s c (s.core c).bpc (soloBytes w).length (fetchTrap (s.core c).bpc) = .bytes (soloBytes w)

/-- The class and the words of the slot that a code word stands for, as decode has them. -/
def wordSlot : CodeWord → Option (SlotClass × W64 × W32)
  | .c u => some (.c, u.setWidth 64, 0)
  | .m u => some (.m, u, 0)
  | .v u => some (.v, u, 0)
  | .k u => some (.k, fld u 0 64, fld u 64 32)
  | .s u => some (.s, u, 0)
  | _ => none

/-- R56: the bundle of one code word has a header that declares its slot alone, and holds that slot. -/
theorem cutBundle_solo {w : CodeWord} {r : SlotClass × W64 × W32} (hw : wordSlot w = some r) :
    ∃ h : Header, headerOf (BitVec.ofNat 16 (leNat ((soloBytes w).take 2))) = .ok h ∧
      h.length = (soloBytes w).length ∧ h.selv = false ∧ rawSlots (cutBundle h ((soloBytes w).drop 2)) = [r] := by
  cases w with
  | c u =>
    cases hw
    have hu : BitVec.ofNat 32 (leNat ((leBytes 4 u.toNat).take 4)) = u := ofNat_leNat_leBytes u rfl
    have hh : headerOf (BitVec.ofNat 16 (leNat (leBytes 2 0x4000))) =
        .ok ⟨false, true, false, false, false, false⟩ := by decide
    exact ⟨_, hh, rfl, rfl,
      congrArg (fun u : BitVec 32 => [(SlotClass.c, u.setWidth 64, (0 : W32))]) hu⟩
  | m u =>
    cases hw
    have hu : BitVec.ofNat 64 (leNat ((leBytes 8 u.toNat).take 8)) = u := ofNat_leNat_leBytes u rfl
    have hh : headerOf (BitVec.ofNat 16 (leNat (leBytes 2 0x2000))) =
        .ok ⟨false, false, true, false, false, false⟩ := by decide
    exact ⟨_, hh, rfl, rfl,
      congrArg (fun u : W64 => [(SlotClass.m, u, (0 : W32))]) hu⟩
  | v u =>
    cases hw
    have hu : BitVec.ofNat 64 (leNat ((leBytes 8 u.toNat).take 8)) = u := ofNat_leNat_leBytes u rfl
    have hh : headerOf (BitVec.ofNat 16 (leNat (leBytes 2 0x1000))) =
        .ok ⟨false, false, false, true, false, false⟩ := by decide
    exact ⟨_, hh, rfl, rfl,
      congrArg (fun u : W64 => [(SlotClass.v, u, (0 : W32))]) hu⟩
  | k u =>
    cases hw
    have hu : BitVec.ofNat 96 (leNat ((leBytes 12 u.toNat).take 12)) = u := ofNat_leNat_leBytes u rfl
    have hh : headerOf (BitVec.ofNat 16 (leNat (leBytes 2 0x0800))) =
        .ok ⟨false, false, false, false, true, false⟩ := by decide
    exact ⟨_, hh, rfl, rfl,
      congrArg (fun u : W96 => [(SlotClass.k, fld u 0 64, fld u 64 32)]) hu⟩
  | s u =>
    cases hw
    have hu : BitVec.ofNat 64 (leNat ((leBytes 8 u.toNat).take 8)) = u := ofNat_leNat_leBytes u rfl
    have hh : headerOf (BitVec.ofNat 16 (leNat (leBytes 2 0x0400))) =
        .ok ⟨false, false, false, false, false, true⟩ := by decide
    exact ⟨_, hh, rfl, rfl,
      congrArg (fun u : W64 => [(SlotClass.s, u, (0 : W32))]) hu⟩
  | header u => cases hw
  | lane u => cases hw

theorem soloAt_slot {s : State} {c : Nat} {w : CodeWord} (hf : Fetches s c w) {cls : SlotClass} {w0 : W64} {w1 : W32}
    (hw : wordSlot w = some (cls, w0, w1)) {x : SlotSem} (hx : slotOf (s.core c) cls w0 w1 = some x)
    (hl : x.legal (s.core c) = true) : soloAt s c = some (x.i, (soloBytes w).length) := by
  obtain ⟨h, hh, hlen, hselv, hraw⟩ := cutBundle_solo hw
  have hb := fetchBundle_eq hf.even hf.header hh hlen hf.all
  have hd := decodeSlots_single hraw hx hl
  have hhdr : (cutBundle h ((soloBytes w).drop 2)).hdr = h := rfl
  simp only [soloAt, hb, hd, hhdr, hselv, Bool.false_eq_true, if_false]

/-- R58: the null bundle. -/
theorem soloAt_header {s : State} {c : Nat} {u : BitVec 16} {i : Instr} (hf : Fetches s c (.header u))
    (h : decode (.header u) = .ok i) : soloAt s c = some (i, (soloBytes (.header u)).length) := by
  have hu : BitVec.ofNat 16 (leNat ((leBytes 2 u.toNat).take 2)) = u := ofNat_leNat_leBytes u rfl
  have hbytes : (soloBytes (.header u)).take 2 = (leBytes 2 u.toNat).take 2 := rfl
  simp only [decode] at h
  split at h
  · cases h
  next hdr hh =>
    split at h
    · cases h
    next hnone =>
      cases h
      obtain ⟨selv, pc, pm, pv, pk, ps⟩ := hdr
      simp only [Bool.or_eq_true, not_or, Bool.not_eq_true] at hnone
      obtain ⟨⟨⟨⟨rfl, rfl⟩, rfl⟩, rfl⟩, rfl⟩ := hnone
      have hb := fetchBundle_eq hf.even hf.header ((congrArg headerOf hu).trans hh) rfl hf.all
      simp only [soloAt, hb]
      rfl

/-! ## The slot of a word that decodes -/

theorem slotOf_c (k : Core) (u : BitVec 32) :
    slotOf k .c (u.setWidth 64) 0 = (okInstr (decode (.c u))).bind semOf := by
  have hu : (u.setWidth 64).setWidth 32 = u := by simp
  simp only [slotOf, decide_true, Bool.true_or, if_true, slotWord, hu]

/-- R63: a V, M or K word is decoded in full while its opcode is bound to its engine. -/
theorem slotOf_bound {k : Core} {cls : SlotClass} {w0 : W64} {w1 : W32} (hcls : cls ≠ .s)
    (hb : (k.prickAt (opcOf w0)).kind = 1) :
    slotOf k cls w0 w1 = (okInstr (decode (slotWord cls w0 w1))).bind semOf := by
  rw [slotOf, if_pos]
  simp [hb, hcls]

/-- R63, R142: while it is not, only the common fields and the layout of the gang slots are read. -/
theorem slotOf_unbound {k : Core} {cls : SlotClass} {w0 : W64} {w1 : W32} (hc : cls ≠ .c) (hs : cls ≠ .s)
    (hb : (k.prickAt (opcOf w0)).kind ≠ 1) (hcls : opcClass (opcOf w0) = cls) (hg : guardOk (guardOf w0) = true) :
    slotOf k cls w0 w1 = semOf (parseStitch w0 w1) := by
  simp [slotOf, hb, hcls, hg, hc, hs]

theorem slotOf_s {k : Core} {w : BitVec 64} {i : Instr} (h : decode (.s w) = .ok i) : slotOf k .s w 0 = semOf i := by
  obtain ⟨hp, hcls, hg⟩ := sClass_of_decode h
  simp [slotOf, hcls, hg, hp, okInstr]

theorem kWord_append (w : BitVec 96) : (fld w 64 32 ++ fld w 0 64 : BitVec 96) = w := by
  have h := BitVec.extractLsb'_append_extractLsb'_eq_extractLsb' (x := w) (start₁ := 0) (len₁ := 64) (start₂ := 64)
    (len₂ := 32) rfl
  simpa [fld] using h

theorem opcOf_kWord (w : BitVec 96) : opcOf (fld w 0 64) = opcOf w := by
  simp [opcOf, fld, BitVec.extractLsb'_toNat]

theorem guardOf_kWord (w : BitVec 96) : guardOf (fld w 0 64) = guardOf w := by
  simp [guardOf, fld, bit]

/-- The slot of a word that decodes, where its class is read in full. -/
theorem slotOf_decode {k : Core} {w : CodeWord} {i : Instr}
    (hw : (∃ u, w = .c u) ∨ (∃ u, w = .s u) ∨ (∃ u, w = .v u ∧ (k.prickAt (opcOf u)).kind = 1) ∨
      (∃ u, w = .m u ∧ (k.prickAt (opcOf u)).kind = 1) ∨ (∃ u, w = .k u ∧ (k.prickAt (opcOf u)).kind = 1))
    (h : decode w = .ok i) :
    ∃ cls w0 w1 x, wordSlot w = some (cls, w0, w1) ∧ slotOf k cls w0 w1 = some x ∧ semOf i = some x := by
  obtain ⟨u, rfl⟩ | ⟨u, rfl⟩ | ⟨u, rfl, hb⟩ | ⟨u, rfl, hb⟩ | ⟨u, rfl, hb⟩ := hw
  · obtain ⟨x, hx⟩ := semOf_of_checked (slotDec_parseC u) h
    exact ⟨_, _, _, x, rfl, by rw [slotOf_c, h]; exact hx, hx⟩
  · obtain ⟨x, hx⟩ := semOf_of_checked (slotDec_parseS u) h
    exact ⟨_, _, _, x, rfl, by rw [slotOf_s h, hx], hx⟩
  · obtain ⟨x, hx⟩ := semOf_of_checked (slotDec_parseV u) h
    exact ⟨_, _, _, x, rfl, by rw [slotOf_bound (cls := .v) (by decide) hb, slotWord, h]; exact hx, hx⟩
  · obtain ⟨x, hx⟩ := semOf_of_checked (slotDec_parseM u) h
    exact ⟨_, _, _, x, rfl, by rw [slotOf_bound (cls := .m) (by decide) hb, slotWord, h]; exact hx, hx⟩
  · obtain ⟨x, hx⟩ := semOf_of_checked (slotDec_parseK u) h
    rw [← opcOf_kWord] at hb
    exact ⟨_, _, _, x, rfl, by rw [slotOf_bound (cls := .k) (by decide) hb, slotWord, kWord_append, h]; exact hx, hx⟩

end Sys2Proof
end

section
/-! A step, from what stands at the place of the agent that moves (R47, R138, R139, R252, R86). -/
namespace Sys2Proof
open Machine

theorem step_nil {s : State} (h : s.turns = []) : step s = watched s (moveFocus (before s)) := by
  simp only [step, move, h]

/-! ## The sequencer's move -/

theorem step_of_soloAt {s : State} {c : Nat} {i : Instr} {len : Nat} (ht : s.turns = [])
    (hc : CanIssue (before s) c) (hi : soloAt (before s) c = some (i, len)) :
    step s = watched s (exec i (cacheFetch (before s) c ((before s).core c).bpc len)) := by
  rw [step_nil ht]
  simp only [moveFocus, hc.1, seqLive_of_canIssue hc.2, seqMove, hc.2, hi, Bool.not_true, Bool.false_eq_true, if_false,
    if_true]

/-- R47, R63: a word whose opcode is read in full is the instruction that it decodes to. -/
theorem soloAt_decode {s : State} {c : Nat} {w : CodeWord} {i : Instr} (hf : Fetches s c w)
    (hl : ∀ x, semOf i = some x → x.legal (s.core c) = true)
    (hw : (∃ h, w = .header h) ∨ (∃ u, w = .c u) ∨ (∃ u, w = .s u) ∨
      (∃ u, w = .v u ∧ ((s.core c).prickAt (opcOf u)).kind = 1) ∨
      (∃ u, w = .m u ∧ ((s.core c).prickAt (opcOf u)).kind = 1) ∨
      (∃ u, w = .k u ∧ ((s.core c).prickAt (opcOf u)).kind = 1))
    (h : decode w = .ok i) : soloAt s c = some (i, (soloBytes w).length) := by
  obtain ⟨u, rfl⟩ | hw := hw
  · exact soloAt_header hf h
  · obtain ⟨cls, w0, w1, x, hslot, hx, hsem⟩ := slotOf_decode hw h
    rw [← i_of_semOf hsem]
    exact soloAt_slot hf hslot hx (hl x hsem)

/-- R63, R142: while its opcode is not bound to its engine, a word of the class of its slot is a dispatch. -/
theorem soloAt_stitch {s : State} {c : Nat} {w : CodeWord} {cls : SlotClass} {w0 : W64} {w1 : W32} {i : Instr}
    (hf : Fetches s c w) (hl : ∀ x, semOf i = some x → x.legal (s.core c) = true)
    (hw : wordSlot w = some (cls, w0, w1)) (hc : cls ≠ .c) (hs : cls ≠ .s)
    (hb : ((s.core c).prickAt (opcOf w0)).kind ≠ 1) (hcls : opcClass (opcOf w0) = cls)
    (hg : guardOk (guardOf w0) = true) (hi : i = parseStitch w0 w1) :
    soloAt s c = some (i, (soloBytes w).length) := by
  have hx : ∃ x, semOf i = some x := by subst hi; exact ⟨_, rfl⟩
  obtain ⟨x, hx⟩ := hx
  rw [← i_of_semOf hx]
  refine soloAt_slot hf hw ?_ (hl x hx)
  rw [slotOf_unbound hc hs hb hcls hg, ← hi, hx]

/-! ## The gangs' moves -/

/-- R138: the batch that gang g selects is at pc, where the lane code holds the word of i. -/
def LaneAt (s : State) (c g pc : Nat) (i : Instr) (bs : List Byte) : Prop :=
  pickPc ((s.core c).gangAt g) = some pc ∧ (∀ tr, laneLine s c (pc / 64) tr = .bytes bs) ∧
    decode (.lane (w64 (leNat ((bs.drop (pc % 64)).take 8)))) = .ok i

section
variable {s : State} {c g pc : Nat} {i : Instr} {bs : List Byte}

theorem gangMove_of_laneAt (h : LaneAt s c g pc i bs) : gangMove s c g = exec i (keepLaneLine s c pc bs) := by
  obtain ⟨hp, hl, hd⟩ := h
  simp only [gangMove, hp, hl, hd]

theorem unitWanted_of_laneAt (hc : gangCanIssue s c g = true) (h : LaneAt s c g pc i bs) :
    unitWanted s c g = unitOfLane i := by
  obtain ⟨hp, hl, hd⟩ := h
  simp only [unitWanted, hc, hp, hl, hd, Bool.not_true, Bool.false_eq_true, if_false, Option.bind_some, okInstr]

end

theorem step_of_gangTurn {s : State} {c g : Nat} (ht : s.turns = []) (hf : (before s).focus = .gang c g)
    (hc : gangCanIssue (before s) c g = true) : step s = watched s (gangTurn (before s) c g) := by
  rw [step_nil ht]
  simp only [moveFocus, hf, hc, if_true]

/-- Where gang h comes after gang `last` in the round (R139). -/
def roundPlace (last h : Nat) : Nat := (h + 3 - last % 4) % 4

theorem pairwise_roundPlace (last : Nat) :
    ((List.range 4).map (fun n => (last + 1 + n) % 4)).Pairwise (fun g h => roundPlace last g ≤ roundPlace last h) := by
  rw [List.pairwise_map]
  refine List.pairwise_lt_range.imp_of_mem fun {m n} hm hn hmn => ?_
  rw [List.mem_range] at hm hn
  unfold roundPlace
  omega

theorem mem_round {last h : Nat} (hh : h < 4) : h ∈ (List.range 4).map (fun n => (last + 1 + n) % 4) := by
  refine List.mem_map.mpr ⟨roundPlace last h, List.mem_range.mpr (Nat.mod_lt _ (by decide)), ?_⟩
  unfold roundPlace
  omega

/-- The first of a list that no other exceeds: what stands before it is exceeded, and what stands after it comes
later in any order that the list keeps. -/
theorem find?_max_spec {pri place : Nat → Nat} {gs : List Nat} {w : Nat}
    (hgs : gs.Pairwise (fun g h => place g ≤ place h))
    (hw : gs.find? (fun g => gs.all (fun h => decide (pri h ≤ pri g))) = some w) {h : Nat} (hh : h ∈ gs) :
    pri h < pri w ∨ (pri h = pri w ∧ place w ≤ place h) := by
  obtain ⟨hmax, as, bs, hsplit, hbefore⟩ := List.find?_eq_some_iff_append.mp hw
  have hle : ∀ g ∈ gs, pri g ≤ pri w := by simpa using hmax
  have hplace : h ∈ as ∨ place w ≤ place h := by
    rw [hsplit] at hh hgs
    obtain ⟨hafter, -⟩ := List.pairwise_cons.mp (List.pairwise_append.mp hgs).2.1
    obtain has | hbs := List.mem_append.mp hh
    · exact .inl has
    · obtain rfl | hbs := List.mem_cons.mp hbs
      · exact .inr le_rfl
      · exact .inr (hafter h hbs)
  obtain has | hplace := hplace
  · have hexceeded : ∃ g ∈ gs, pri h < pri g := by simpa using hbefore h has
    obtain ⟨g, hg, hlt⟩ := hexceeded
    exact .inl (hlt.trans_le (hle g hg))
  · exact (hle h hh).lt_or_eq.imp_right fun heq => ⟨heq, hplace⟩

/-- R139: the gang that is served is one of the highest class of those that ask, and the first of these in the
round. -/
theorem servedGang_spec {s : State} {c : Nat} {u : LaneUnit} {last w : Nat} (h : servedGang s c u last = some w) :
    w < 4 ∧ unitWanted s c w = some u ∧ ∀ h, h < 4 → unitWanted s c h = some u →
      ((s.core c).gangAt h).gpri < ((s.core c).gangAt w).gpri ∨
        (((s.core c).gangAt h).gpri = ((s.core c).gangAt w).gpri ∧ roundPlace last w ≤ roundPlace last h) := by
  obtain ⟨hround, hwants⟩ := List.mem_filter.mp (List.mem_of_find?_eq_some h)
  refine ⟨?lt, by simpa using hwants, fun g hg hu => ?first⟩
  case lt =>
    obtain ⟨n, -, rfl⟩ := List.mem_map.mp hround
    exact Nat.mod_lt _ (by decide)
  case first =>
    have hasks := (List.mem_filter (p := fun g => unitWanted s c g == some u)).mpr
      ⟨mem_round (last := last) hg, beq_iff_eq.mpr hu⟩
    exact find?_max_spec (pri := fun g => ((s.core c).gangAt g).gpri) ((pairwise_roundPlace last).filter _) h hasks

/-! ## What stands around a move -/

theorem mget_eq_or_mem {α : Type} (d : Nat → α) (m : Map α) (k : Nat) :
    mget d m k = d k ∨ ∃ e ∈ m, mget d m k = e.2 := by
  induction m with
  | nil => exact .inl rfl
  | cons e m ih =>
    obtain ⟨j, v⟩ := e
    rw [mget]
    split
    · exact .inr ⟨(j, v), List.mem_cons_self, rfl⟩
    · exact ih.imp_right fun ⟨e, he, hm⟩ => ⟨e, List.mem_cons_of_mem _ he, hm⟩

/-- What holds of the empty entry and of all entries of a map holds of each that is read. -/
theorem mget_of_forall {α : Type} {d : Nat → α} {m : Map α} {P : α → Prop} (k : Nat) (hd : P (d k))
    (hm : ∀ e ∈ m, P e.2) : P (mget d m k) := by
  obtain h | ⟨e, he, h⟩ := mget_eq_or_mem d m k
  · rwa [h]
  · rw [h]
    exact hm e he

theorem unveil_eq_self {s : State} (h : ∀ e ∈ s.cores, ∀ b ∈ e.2.buf, b.veil = none) : unveil s = s := by
  refine foldl_eq_of_fixed fun c _ => ?_
  have hc : ∀ b ∈ (s.core c).buf, b.veil = none :=
    mget_of_forall (P := fun k : Core => ∀ b ∈ k.buf, b.veil = none) c (fun _ hb => absurd hb List.not_mem_nil) h
  have hany : (s.core c).buf.any (fun b => b.veil.any (fun sc => !mayStand s c b sc)) = false := by
    rw [List.any_eq_false]
    intro b hb
    simp [hc b hb]
  simp only [hany, Bool.false_eq_true, if_false]

theorem before_eq_self {s : State} (ht : s.turns.head?.any mayStop = false)
    (h : ∀ e ∈ s.cores, ∀ b ∈ e.2.buf, b.veil = none) : before s = s := by
  simp only [before, moverOf, ht, Bool.false_eq_true, if_false, unveil_eq_self h]

theorem waitsWatch_eq_self {s t : State} (h : ∀ e ∈ t.cores, e.2.waitsOn = none) : waitsWatch s t = t := by
  have hnone : t.cores.filter (fun e => e.2.waitsOn.isSome) = [] :=
    List.filter_eq_nil_iff.mpr fun e he => by simp [h e he]
  rw [waitsWatch, hnone, List.foldl_nil]

theorem pushOps_eq_self {p : State → Nat → LaneOp → List Nat} {s : State} {c g : Nat}
    (h : ∀ op ∈ ((s.core c).gangAt g).ops, ∀ n, p s n op = []) : pushOps p s c g = s := by
  refine foldl_eq_of_fixed fun n _ => ?_
  split
  · rfl
  next op hop => rw [h op (List.mem_of_getElem? hop), List.foldl_nil]

/-- No batch of the core waits at an LWAIT. -/
def NoLwait (k : Core) : Prop := ∀ g ∈ k.gang, ∀ op ∈ g.2.ops, isLwait op.i = false

theorem noLwait_empty : NoLwait Core.empty := fun _ hg => absurd hg List.not_mem_nil

theorem NoLwait.gangAt {k : Core} (h : NoLwait k) (g : Nat) : ∀ op ∈ (k.gangAt g).ops, isLwait op.i = false :=
  mget_of_forall (P := fun x : Gang => ∀ op ∈ x.ops, isLwait op.i = false) g
    (fun _ hop => absurd hop List.not_mem_nil) h

theorem lwaitWatch_eq_self {s t : State} (h : ∀ e ∈ t.cores, NoLwait e.2) : lwaitWatch s t = t := by
  unfold lwaitWatch
  refine foldl_eq_of_fixed fun e _ => pushOps_eq_self ?_
  intro op hop n
  have hcore : NoLwait (t.core e.1) := mget_of_forall (P := NoLwait) e.1 noLwait_empty h
  rw [hcore.gangAt e.2 op hop]
  rfl

theorem watched_eq_self {s t : State}
    (h : ∀ e ∈ t.cores, e.2.waitsOn = none ∧ ∀ g ∈ e.2.gang, ∀ op ∈ g.2.ops, isLwait op.i = false) :
    watched s (.next t) = .next t := by
  simp only [watched, waitsWatch_eq_self fun e he => (h e he).1, lwaitWatch_eq_self fun e he => (h e he).2]

theorem step_of_event {s : State} {i : Instr} {rest : List Turn} (ht : s.turns = .event i :: rest)
    (hi : encode i = none) : step s = watched s (exec i { before s with turns := rest }) := by
  simp only [step, move, ht, runTurn, hi, Option.isSome_none, Bool.false_eq_true, if_false]

/-- Settles O56: the bundle at BPC and the lane word at a batch's place, read through the caches, and what stands
around a move. -/
theorem stepRunsDecoded : Obligations.StepRunsDecoded := by
  unfold Obligations.StepRunsDecoded
  refine ⟨?bundle, ?lanes, fun s i rest ht hi => step_of_event ht hi, fun s ht h => before_eq_self ht h,
    fun s t h => watched_eq_self h⟩
  case bundle =>
    intro s0 c w i ht s hc heven k bs h2 hall hl bound runs
    have hfetch : Fetches s c w := ⟨heven, h2, hall⟩
    have hruns (hi : soloAt s c = some (i, (soloBytes w).length)) : runs := step_of_soloAt ht hc hi
    refine ⟨?decoded, ?vm, ?k⟩
    case decoded => exact fun hw h => hruns (soloAt_decode hfetch hl hw h)
    case vm =>
      intro u hb hg hw hi
      obtain ⟨rfl, hcls⟩ | ⟨rfl, hcls⟩ := hw
      · exact hruns (soloAt_stitch hfetch hl rfl (by decide) (by decide) hb hcls hg hi)
      · exact hruns (soloAt_stitch hfetch hl rfl (by decide) (by decide) hb hcls hg hi)
    case k =>
      intro u hb hg hw hcls hi
      subst hw
      rw [← opcOf_kWord] at hcls
      rw [← guardOf_kWord] at hg
      exact hruns (soloAt_stitch hfetch hl rfl (by decide) (by decide) (by rwa [opcOf_kWord]) hcls hg hi)
  case lanes =>
    intro s0 c g ht s hf hc here
    have hstep := step_of_gangTurn ht hf hc
    refine ⟨?own, ?shared, fun u last w h => servedGang_spec h⟩
    case own =>
      intro pc i bs h
      have hunit : unitWanted s c g = unitOfLane i := unitWanted_of_laneAt hc h
      refine ⟨hunit, fun hi => ?_⟩
      rw [hstep, gangTurn, hunit, hi]
      exact congrArg _ (gangMove_of_laneAt h)
    case shared =>
      intro u w hu hw t pc i bs h
      rw [hstep, gangTurn, hu]
      dsimp only
      rw [hw, Option.getD_some]
      have hmove : gangMove t c w = exec i (keepLaneLine t c pc bs) := gangMove_of_laneAt h
      exact congrArg (watched s0) hmove

end Sys2Proof
end

section
/-! Writes to the registers that have an effect of their own: rings, monitors, the log, SRSTATE, MFMT and HACC (R67,
R37, R292, R301, R231, R241, R388). -/
namespace Sys2Proof.Machine

/-- A bundle leaves the same device under any two changes that agree on the core as its slot finds it. -/
theorem issued_congr {s : State} {c len w : Nat} {f f' : Core → Core}
    (h : ∀ n, f ((s.core c).setBpc n) = f' ((s.core c).setBpc n)) : issued s c len w f = issued s c len w f' := by
  unfold issued issuedCore
  rw [h]

/-- A change of no core leaves the issue of the bundle alone. -/
theorem issuedBy_id (s : State) (c len w : Nat) : issuedBy s c len w id = issued s c len w id := by
  simp [issuedBy, passed, issued, issuedCore, State.modCore_eq]

/-- A check that does not fail stops nothing. -/
theorem checks_single_false {e : Env} {i : Instr} {n : Nat} {b : Bool} {cause : Cause} (h : b = false) :
    e.checks i n [(b, cause)] = none := by
  subst h
  rfl

/-- A check that fails is a trap by its cause. -/
theorem checks_single_true {e : Env} {i : Instr} {n : Nat} {b : Bool} {cause : Cause} (h : b = true) :
    e.checks i n [(b, cause)] = some (.trap { e.trap i n with cause := cause }) := by
  subst h
  rfl

section
variable {s : State} {c : Nat} {g : Guard} {a : SReg}

/-- R67: a write of CBDESCk, once no command names the ring. -/
theorem exec_cbdescWrite (hc : CanIssue s c) (hg : Enabled (s.core c) g) {h : RingReg}
    (hq : ringQuiet (s.core c) h.toNat = true) (hm : marksFree (s.core c) [] [h.toNat] = true) :
    exec (.cbdescWrite g h a) s =
      .next (issued s c 6 0 (fun k => cbdescWr k h.toNat ((s.core c).sAt a.toNat))) :=
  issueOne_core (x := semCbdescWrite g h a) hc rfl rfl (enabled_of rfl hg) (Bool.and_eq_true _ _ ▸ ⟨hq, hm⟩) rfl
    (fun _ => rfl) (fun _ => rfl)

theorem exec_srstateWrite (hc : CanIssue s c) (hg : Enabled (s.core c) g) :
    exec (.srstateWrite g a) s = .next (issued s c 6 0
      (·.setCfg rSRSTATE (if (s.core c).sAt a.toNat = 0 then 1 else (s.core c).sAt a.toNat))) :=
  issueOne_core (x := semSrstateWrite g a) hc rfl rfl (enabled_of rfl hg) rfl rfl (fun _ => rfl) (fun _ => rfl)

theorem exec_moncfgWrite (hc : CanIssue s c) (hg : Enabled (s.core c) g) (m : BitVec 2) (j : Nat) :
    exec (.moncfgWrite g m j a) s =
      .next (issued s c 6 0 (fun k => moncfgWr k m.toNat j ((s.core c).sAt a.toNat))) :=
  issueOne_core (x := semMoncfgWrite g m j a) hc rfl rfl (enabled_of rfl hg) rfl rfl (fun _ => rfl) (fun _ => rfl)

/-- R301: outside record mode the write empties the log. -/
theorem exec_logpWrite (hc : CanIssue s c) (hg : Enabled (s.core c) g)
    (hrec : ((s.core c).cfgAt rLOGSTAT).getLsbD 63 = false) :
    exec (.logpWrite g a) s = .next (issued s c 6 0 (fun k => logpWr k ((s.core c).sAt a.toNat))) :=
  issueOne_core (x := semLogpWrite g a) hc rfl rfl (enabled_of rfl hg) rfl (checks_single_false hrec) (fun _ => rfl)
    (fun _ => rfl)

/-- R301: in record mode it traps. -/
theorem exec_logpWrite_recording (hc : CanIssue s c) (hg : Enabled (s.core c) g)
    (hrec : ((s.core c).cfgAt rLOGSTAT).getLsbD 63 = true) :
    exec (.logpWrite g a) s = .next (trapped s c 0 (.logpWrite g a) .logctl) :=
  issueOne_traps (x := semLogpWrite g a) hc rfl (enabled_of rfl hg) rfl (checks_single_true hrec)

/-- R241: alone in its bundle, no MDRAIN stands beside the write. -/
theorem exec_mfmtWrite (hc : CanIssue s c) (hg : Enabled (s.core c) g) :
    exec (.mfmtWrite g a) s = .next (trapped s c 0 (.mfmtWrite g a) .drain) :=
  issueOne_traps (x := semMfmtWrite g a) hc rfl (enabled_of rfl hg) rfl (checks_single_true rfl)

/-- R388: a write of HACC takes its token. -/
theorem exec_haccWrite (hc : CanIssue s c) (hg : Enabled (s.core c) g)
    (ht : s.tokens.contains ((s.core c).sAt a.toNat) = true) :
    exec (.haccWrite g a) s =
      .next { issued s c 6 0 id with tokens := s.tokens.erase ((s.core c).sAt a.toNat) } := by
  rw [← issuedBy_id]
  exact issueOne_by (x := semHaccWrite g a) hc (.inl rfl) rfl (enabled_of rfl hg) ht rfl (.inl rfl) (fun _ => rfl)

/-- R388: while the token is not there, the write waits. -/
theorem exec_haccWrite_waits (hc : CanIssue s c) (hg : Enabled (s.core c) g)
    (ht : s.tokens.contains ((s.core c).sAt a.toNat) = false) : exec (.haccWrite g a) s = .next s :=
  issueOne_waits (x := semHaccWrite g a) hc rfl (enabled_of rfl hg) ht

end

/-! ## MFMT beside MDRAIN (R241) -/

/-- The bundle of a write of MFMT and an MDRAIN. -/
def mfmtDrain (a : SReg) : List SlotSem := [semMfmtWrite ⟨false, 0⟩ a, semMdrain ⟨false, 0⟩]

theorem marked_mfmtDrain (e : Env) (a : SReg) : (marked e (mfmtDrain a)).drain = true := rfl

theorem recording_mfmtDrain (k : Core) (a : SReg) : recording k (mfmtDrain a) = recording k [] := rfl

theorem effBundle_mfmtDrain {e : Env} {s : State} {a : SReg} (hwho : e.who = .seq)
    (hrec : recording e.k [] = false) :
    effBundle e (mfmtDrain a) s = countBundle (((s.modCore e.c (·.setBpc e.next)).modCore e.c
      (fun k => mfmtWr k (e.k.sAt a.toNat))).modCore e.c (nestEnd (lsRun e.k.lstat) e.next)) e.c 0 := by
  rw [← recording_mfmtDrain e.k a] at hrec
  rw [← rdScal_seq e hwho]
  unfold effBundle
  rw [hrec]
  rfl

theorem mem_mfmtDrain {x : SlotSem} {a : SReg} (h : x ∈ mfmtDrain a) :
    x = semMfmtWrite ⟨false, 0⟩ a ∨ x = semMdrain ⟨false, 0⟩ := List.mem_pair.mp h

theorem filter_enabled_mfmtDrain (k : Core) (a : SReg) :
    (mfmtDrain a).filter (SlotSem.enabled k) = mfmtDrain a := rfl

theorem legal_of_mem_mfmtDrain {x : SlotSem} {a : SReg} (h : x ∈ mfmtDrain a) (k : Core) : x.legal k = true := by
  obtain h | h := mem_mfmtDrain h
  · rw [h]; rfl
  · rw [h]; rfl

theorem check_mfmtWrite {e : Env} (h : e.drain = true) (g : Guard) (a : SReg) (s : State) :
    (semMfmtWrite g a).check e s = none := checks_single_false (congrArg not h)

theorem ready_mdrain {e : Env} {s : State} (hcmds : (s.core e.c).mcmds = []) (hzero : (s.core e.c).mzeroAt = [])
    (g : Guard) : (semMdrain g).ready e s = true := by
  change ((s.core e.c).mcmds.isEmpty && (s.core e.c).mzeroAt.isEmpty) = true
  rw [hcmds, hzero]
  rfl

theorem passes_mfmtDrain {e : Env} {s : State} (hcmds : (s.core e.c).mcmds = []) (hzero : (s.core e.c).mzeroAt = [])
    {x : SlotSem} {a : SReg} (hx : x ∈ mfmtDrain a) :
    x.ready (marked e (mfmtDrain a)) s = true ∧ x.check (marked e (mfmtDrain a)) s = none := by
  obtain h | h := mem_mfmtDrain hx
  · rw [h]
    exact ⟨rfl, check_mfmtWrite (marked_mfmtDrain e a) _ a s⟩
  · rw [h]
    have hready : (semMdrain ⟨false, 0⟩).ready (marked e (mfmtDrain a)) s = true :=
      ready_mdrain (by rw [marked_c]; exact hcmds) (by rw [marked_c]; exact hzero) _
    exact ⟨hready, rfl⟩

/-- R241: beside an MDRAIN that has nothing to wait for, the write takes effect. -/
theorem issueBundle_mfmtDrain {s : State} {c : Nat} (hc : CanIssue s c) (a : SReg) (len : Nat)
    (hcmds : (s.core c).mcmds = []) (hzero : (s.core c).mzeroAt = []) (hrec : recording (s.core c) [] = false) :
    issueBundle c false len (mfmtDrain a) s = issued s c len 0 (fun k => mfmtWr k ((s.core c).sAt a.toNat)) := by
  have hselv : ¬ (false = true ∧ ∃ m, s.motifOn c = some m ∧ m.st = .preempting) := fun h => Bool.false_ne_true h.1
  have hgoes := issueSlots_goes (e := bundleEnv s c len) (s := s) (fun x hx => legal_of_mem_mfmtDrain hx _)
    (filter_enabled_mfmtDrain _ a) (fun x hx => passes_mfmtDrain hcmds hzero hx)
    ((recording_mfmtDrain _ a).trans hrec)
  have heff := effBundle_mfmtDrain (e := marked (bundleEnv s c len) (mfmtDrain a)) (s := s) (a := a) rfl hrec
  rw [issueBundle_eq hc.2 len _ hselv, hgoes, heff]
  exact issuedBy_core len 0 _

/-! ## Descriptors of rings (R67) -/

theorem ringLegal_eq (share : Nat) (w : W64) :
    ringLegal share w = decide (1 ≤ gf w 32 11 ∧ gf w 32 11 ≤ 1024 ∧
      gf w 6 14 * 64 + (gf w 43 5 + 1) * (gf w 32 11 * 64) ≤ share) := rfl

/-- The core with another descriptor of ring h, whose slots no log entry has produced (R305). -/
def setRing (k : Core) (h : Nat) (w : W64) : Core :=
  { k.setCfg (rCBDESC + h) w with producers := k.producers.filter (fun p => p.1 != h) }

theorem cbdescWr_eq (k : Core) (h : Nat) (v : W64) :
    cbdescWr k h v = setRing k h (sf (v &&& 0x0000FFFF000FFFC0) 31 1
      (bitOf (ringLegal k.share (v &&& 0x0000FFFF000FFFC0)))) := rfl

/-! ## What a monitor's configuration keeps (R292) -/

section
variable {k : Core} {m : Nat} {v : W64} {n : Nat}

theorem moncfgWr_armed {j : Nat} (h : (k.cfgAt (rMON + 8 * m)).getLsbD 0 = true) :
    moncfgWr (k.setBpc n) m j v = k.setBpc n := if_pos h

theorem moncfgWr_0 (h : (k.cfgAt (rMON + 8 * m)).getLsbD 0 = false) (hfmt : (fmtOfCode (gf v 18 6)).isSome) :
    moncfgWr (k.setBpc n) m 0 v = (k.setBpc n).setCfg (rMON + 8 * m) (v &&& 0xFFFFFFFF00FFF800) := by
  simp only [moncfgWr, Core.cfgAt_setBpc, h, hfmt, Bool.false_eq_true, if_false, if_true, Nat.add_zero]

theorem moncfgWr_1 (h : (k.cfgAt (rMON + 8 * m)).getLsbD 0 = false) :
    moncfgWr (k.setBpc n) m 1 v = (k.setBpc n).setCfg (rMON + 8 * m + 1) (v &&& 0x01FFFFFFFFFFFFFF) := by
  simp only [moncfgWr, Core.cfgAt_setBpc, h, Bool.false_eq_true, if_false, if_true, one_ne_zero]

theorem moncfgWr_2 (h : (k.cfgAt (rMON + 8 * m)).getLsbD 0 = false) :
    moncfgWr (k.setBpc n) m 2 v = (k.setBpc n).setCfg (rMON + 8 * m + 2) (v &&& 0xFFFFFFFF) := by
  simp only [moncfgWr, Core.cfgAt_setBpc, h, Bool.false_eq_true, if_false, OfNat.ofNat_ne_zero, OfNat.ofNat_ne_one]

end

/-! ## What a write of MFMT keeps (R22, R231) -/

theorem mfmtFmtOk_iff (n : Nat) :
    mfmtFmtOk n = true ↔ ∃ f, fmtOfCode n = some f ∧ (f = .bf16 ∨ f = .fp16 ∨ fmtIsB8 f = true) := by
  unfold mfmtFmtOk
  split
  next h => simp [h]
  next h => simp [h]
  next f hbf hfp h => simp_all
  next h => simp [h]

/-- The write enables the register with a format that it does not accept. -/
abbrev MfmtBad (v : W64) : Prop :=
  v.getLsbD 15 = true ∧ ¬ (mfmtFmtOk (gf v 0 6) = true ∧ mfmtFmtOk (gf v 6 6) = true)

theorem mfmtBad_iff (v : W64) :
    (v.getLsbD 15 && !(mfmtFmtOk (gf v 0 6) && mfmtFmtOk (gf v 6 6))) = true ↔ MfmtBad v := by
  rw [Bool.and_eq_true, Bool.not_eq_true', ← Bool.not_eq_true, Bool.and_eq_true]

theorem mfmtWr_discarded {k : Core} {v : W64} (h : MfmtBad v) (n : Nat) : mfmtWr (k.setBpc n) v = k.setBpc n :=
  if_pos ((mfmtBad_iff v).mpr h)

theorem mfmtWr_set {k : Core} {v : W64} (h : ¬ MfmtBad v) (n : Nat) :
    mfmtWr (k.setBpc n) v = (k.setBpc n).setCfg rMFMT (sf (sf (v &&& 0x8000) 6 6
      (if (fmtOfCode (gf v 6 6)).isSome then gf v 6 6 else gf (k.cfgAt rMFMT) 6 6)) 0 6
      (if (fmtOfCode (gf v 0 6)).isSome then gf v 0 6 else gf (k.cfgAt rMFMT) 0 6)) :=
  if_neg (fun hbad => h ((mfmtBad_iff v).mp hbad))

/-- Settles O10: each write by its own slot, and MFMT's also beside an MDRAIN. -/
theorem specialWrites : Obligations.SpecialWrites := by
  unfold Obligations.SpecialWrites
  refine ⟨?single, ?drain⟩
  case single =>
    intro s c g a hc hg k v
    refine ⟨?ring, exec_srstateWrite hc hg, ?monitor, exec_logpWrite hc hg, exec_logpWrite_recording hc hg,
      exec_mfmtWrite hc hg, exec_haccWrite hc hg, exec_haccWrite_waits hc hg⟩
    case ring =>
      intro h hq hm f slot valid
      have hlegal : ringLegal k.share f = decide valid := ringLegal_eq k.share f
      rw [exec_cbdescWrite hc hg hq hm]
      refine congrArg _ (issued_congr fun n => (cbdescWr_eq _ _ _).trans ?_)
      exact congrArg (fun b => setRing ((s.core c).setBpc n) h.toNat (sf f 31 1 (bitOf b))) hlegal
    case monitor =>
      intro m j hj r
      rw [exec_moncfgWrite hc hg]
      refine ⟨fun hon => congrArg _ (issued_congr fun n => moncfgWr_armed hon), fun hoff => ⟨?_, ?_, ?_⟩⟩
      · rintro rfl
        exact congrArg _ (issued_congr fun n => moncfgWr_1 hoff)
      · rintro rfl
        exact congrArg _ (issued_congr fun n => moncfgWr_2 hoff)
      · rintro rfl hfmt
        exact congrArg _ (issued_congr fun n => moncfgWr_0 hoff hfmt)
  case drain =>
    intro s c a len hc hcmds hzero hrec _ v ok kept
    rw [show [semMfmtWrite ⟨false, 0⟩ a, semMdrain ⟨false, 0⟩] = mfmtDrain a from rfl,
      issueBundle_mfmtDrain hc a len hcmds hzero hrec]
    have hok (n : Nat) : mfmtFmtOk n = true ↔ ok n := mfmtFmtOk_iff n
    have hbad : MfmtBad v ↔ v.getLsbD 15 = true ∧ ¬ (ok (gf v 0 6) ∧ ok (gf v 6 6)) := by rw [MfmtBad, hok, hok]
    split
    next h => exact issued_congr fun n => mfmtWr_discarded (hbad.mpr h) n
    next h => exact issued_congr fun n => mfmtWr_set (fun hb => h (hbad.mp hb)) n

end Sys2Proof.Machine
end

section
/-! The words of SCMP that decode refuses (R79). -/
namespace Sys2Proof
open Machine

/-- What a word of opcode 4 parses to. -/
theorem parseC_scmp {w : BitVec 32} {i : Instr} (hopc : opcOf w = 4) (h : parseC w = .ok i) :
    ∃ cc, code scmpCcs (fld w 18 4).toNat = .ok cc ∧
      i = .scmp (guardOf w) cc (bit w 17) (fld w 14 3) (fld w 22 5) (fld w 27 5) := by
  unfold parseC at h
  rw [hopc] at h
  simp only [] at h
  cases hz : zero w 11 3 with
  | error e => rw [hz] at h; cases h
  | ok _ =>
    cases hcc : code scmpCcs (fld w 18 4).toNat with
    | error e => rw [hz, hcc] at h; cases h
    | ok cc =>
      rw [hz, hcc] at h
      cases h
      exact ⟨cc, rfl, rfl⟩

theorem fld_toNat {n : Nat} (w : BitVec n) (lo len : Nat) : (fld w lo len).toNat = w.toNat / 2 ^ lo % 2 ^ len := by
  simp [fld, Nat.shiftRight_eq_div_pow]

theorem lt_of_code_ok {α : Type} {tbl : List α} {n : Nat} {x : α} (h : code tbl n = .ok x) : n < tbl.length := by
  unfold code at h
  split at h
  next y hy => exact (List.getElem?_eq_some_iff.mp hy).1
  next => cases h

/-- R79: the FP32 comparisons take no immediate. -/
theorem imm_of_wf_scmp {g : Guard} {cc : ScmpCc} {imm : Bool} {qd : PReg} {a b : SReg}
    (h : (Instr.scmp g cc imm qd a b).WellFormed) (hcc : cc ∈ [ScmpCc.feq, .flt, .fle, .funord]) : imm = false := by
  have hf := Bool.and_elim_right h
  fin_cases hcc <;> exact Bool.not_eq_true' _ ▸ hf

theorem mem_float_of_code {n : Nat} {cc : ScmpCc} (h : code scmpCcs n = .ok cc) (hn : 6 ≤ n) :
    cc ∈ [ScmpCc.feq, .flt, .fle, .funord] := by
  have hlt : n < 10 := lt_of_code_ok h
  interval_cases n <;> cases h <;> decide

/-- R79: the words of opcode 4 that decode refuses. -/
theorem decode_scmp_illegal {w : BitVec 32} (hopc : w.toNat % 128 = 4)
    (h : 10 ≤ w.toNat / 2 ^ 18 % 16 ∨ (6 ≤ w.toNat / 2 ^ 18 % 16 ∧ w.toNat / 2 ^ 17 % 2 = 1)) :
    ∃ e, decode (.c w) = .error e := by
  cases hd : decode (.c w) with
  | error e => exact ⟨e, rfl⟩
  | ok i =>
    exfalso
    obtain ⟨hp, hwf⟩ := parse_of_checked hd
    obtain ⟨cc, hcc, rfl⟩ := parseC_scmp ((fld_toNat w 0 7).trans (by simpa using hopc)) hp
    rw [fld_toNat] at hcc
    obtain hge | ⟨hge, himm⟩ := h
    · exact absurd (lt_of_code_ok hcc) (Nat.not_lt.mpr hge)
    · have hbit : bit w 17 = false := imm_of_wf_scmp hwf (mem_float_of_code hcc hge)
      rw [bit, BitVec.getLsbD, Nat.testBit_eq_decide_div_mod_eq] at hbit
      exact of_decide_eq_false hbit himm

end Sys2Proof
end

section
/-! Scalar arithmetic, comparison and immediates: each is a function of the scalars as they stood before the bundle
(R47, R61, R76 to R79). -/
namespace Sys2Proof.Machine

/-! ## Checks of a slot, one after the other (R65) -/

/-- A check that does not fail leaves the next ones. -/
theorem checks_cons_false {e : Env} {i : Instr} {n : Nat} {b : Bool} {cause : Cause} {l : List (Bool × Cause)}
    (h : b = false) : e.checks i n ((b, cause) :: l) = e.checks i n l := by
  subst h
  rfl

/-- The first check that fails is the trap. -/
theorem checks_cons_true {e : Env} {i : Instr} {n : Nat} {b : Bool} {cause : Cause} {l : List (Bool × Cause)}
    (h : b = true) : e.checks i n ((b, cause) :: l) = some (.trap { e.trap i n with cause := cause }) := by
  subst h
  rfl

/-! ## Fields of a word -/

@[simp] theorem gf_zero {n : Nat} (w : BitVec n) (len : Nat) : gf w 0 len = w.toNat % 2 ^ len := rfl

theorem lo32_eq (w : W64) : lo32 w = w.toNat % 2 ^ 32 := BitVec.toNat_setWidth 32 w

@[simp] theorem Core.orFlags_zero (k : Core) : k.orFlags 0 = k := rfl

section
variable {s : State} {c : Nat} {g : Guard}

/-- R76: the result goes to sd, the flags to FSTAT. -/
theorem exec_sop (hc : CanIssue s c) (hg : Enabled (s.core c) g) (fn : SopFn) (d a b : SReg)
    (hdiv : sopDivides fn = true → (s.core c).sAt b.toNat ≠ 0) :
    exec (.sop g fn d a b) s =
      let r := sopResult fn ((s.core c).sAt a.toNat) ((s.core c).sAt b.toNat)
      .next (issued s c 6 0 (fun k => (k.orFlags r.2).setS d.toNat r.1)) := by
  have hpass : (sopDivides fn && (s.core c).sAt b.toNat == 0) = false := by
    cases h : sopDivides fn
    case false => rfl
    case true => simpa using hdiv h
  refine issueOne_core (x := semSop g fn d a b) hc rfl rfl (enabled_of rfl hg) rfl (checks_single_false hpass)
    (fun _ => rfl) (fun t => ?_)
  exact State.modCore_modCore t c (·.orFlags (sopResult fn ((s.core c).sAt a.toNat) ((s.core c).sAt b.toNat)).2)
    (·.setS d.toNat (sopResult fn ((s.core c).sAt a.toNat) ((s.core c).sAt b.toNat)).1)

/-- R76: a division by zero traps. -/
theorem exec_sop_divz (hc : CanIssue s c) (hg : Enabled (s.core c) g) {fn : SopFn} {d a b : SReg}
    (hdiv : sopDivides fn = true) (hb : (s.core c).sAt b.toNat = 0) :
    exec (.sop g fn d a b) s = .next (trapped s c 0 (.sop g fn d a b) .divz) := by
  have hfail : (sopDivides fn && (s.core c).sAt b.toNat == 0) = true := by rw [hdiv, hb]; rfl
  exact issueOne_traps (x := semSop g fn d a b) hc rfl (enabled_of rfl hg) rfl (checks_single_true hfail)

/-- R77. -/
theorem exec_sopi (hc : CanIssue s c) (hg : Enabled (s.core c) g) (fn : SopiFn) (d a : SReg) (imm : BitVec 8) :
    exec (.sopi g fn d a imm) s =
      .next (issued s c 6 0 (·.setS d.toNat (sopiResult fn ((s.core c).sAt a.toNat) imm))) :=
  issueOne_core (x := semSopi g fn d a imm) hc rfl rfl (enabled_of rfl hg) rfl rfl (fun _ => rfl) (fun _ => rfl)

/-- R78. -/
theorem exec_smovi (hc : CanIssue s c) (hg : Enabled (s.core c) g) (d : SReg) (imm : BitVec 16) :
    exec (.smovi g d imm) s = .next (issued s c 6 0 (·.setS d.toNat (imm.signExtend 64))) :=
  issueOne_core (x := semSmovi g d imm) hc rfl rfl (enabled_of rfl hg) rfl rfl (fun _ => rfl) (fun _ => rfl)

/-- R61. -/
theorem exec_nop (hc : CanIssue s c) (hg : Enabled (s.core c) g) : exec (.nop g) s = .next (issued s c 6 0 id) :=
  issueOne_id (x := semNop g) hc rfl rfl (enabled_of rfl hg) rfl rfl (fun _ => rfl) (fun _ => rfl)

/-- R79. -/
theorem exec_scmp (hc : CanIssue s c) (hg : Enabled (s.core c) g) (cc : ScmpCc) (imm : Bool) (qd : PReg) (a b : SReg) :
    exec (.scmp g cc imm qd a b) s = .next (issued s c 6 0 (·.setQ qd.toNat (scmpResult cc ((s.core c).sAt a.toNat)
      (if imm then b.signExtend 64 else (s.core c).sAt b.toNat)))) :=
  issueOne_core (x := semScmp g cc imm qd a b) hc rfl rfl (enabled_of rfl hg) rfl rfl (fun _ => rfl) (fun _ => rfl)

end

/-- Settles O2: neither has a check, and NOP has no effect. -/
theorem smoviSetsScalar : Obligations.SmoviSetsScalar := by
  unfold Obligations.SmoviSetsScalar
  intro s c g hc hg
  exact ⟨exec_smovi hc hg, exec_nop hc hg⟩

/-- Settles O1: the function of SOP decides its result; only a division checks its divisor. -/
theorem scalarArithmetic : Obligations.ScalarArithmetic := by
  unfold Obligations.ScalarArithmetic
  refine ⟨?sop, ?sopi⟩
  case sop =>
    intro s c g d a b hc hg x y sh f32 gives floats
    have total (fn : SopFn) (h : sopDivides fn = false) :=
      exec_sop hc hg fn d a b (fun hdiv => absurd (h.symm.trans hdiv) Bool.false_ne_true)
    have hx : lo32 x = f32 x := lo32_eq x
    have hy : lo32 y = f32 y := lo32_eq y
    refine ⟨?integer, fun hy0 => ?quotient, ?float, fun hy0 fn hfn => ?divz⟩
    case integer =>
      exact ⟨total .add rfl, total .sub rfl, total .mul rfl, total .mulhs rfl, total .mulhu rfl, total .and rfl,
        total .or rfl, total .xor rfl, total .shl rfl, total .shr rfl, total .sra rfl, total .min rfl, total .max rfl,
        total .minu rfl, total .maxu rfl⟩
    case quotient =>
      have quotient (fn : SopFn) := exec_sop hc hg fn d a b (fun _ => hy0)
      exact ⟨quotient .divs, quotient .rems, quotient .divu, quotient .remu⟩
    case float =>
      rw [← hx, ← hy]
      exact ⟨total .fadd rfl, total .fsub rfl, total .fmul rfl, total .fmin rfl, total .fmax rfl⟩
    case divz => exact exec_sop_divz hc hg (by fin_cases hfn <;> rfl) hy0
  case sopi =>
    intro s c g d a imm hc hg x y sh gives
    have h (fn : SopiFn) := exec_sopi hc hg fn d a imm
    exact ⟨h .add, h .and, h .or, h .xor, h .shl, h .shr, h .sra⟩

/-- Settles O3: the code of CC decides the comparison; the codes that decode refuses have none. -/
theorem scmpWritesPredicate : Obligations.ScmpWritesPredicate := by
  unfold Obligations.ScmpWritesPredicate
  intro s c g imm qd a b hc hg x y fx fy sets
  have h (cc : ScmpCc) := exec_scmp hc hg cc imm qd a b
  have hx : decodeF .fp32 (lo32 x) = fx := congrArg _ (lo32_eq x)
  have hy : decodeF .fp32 (lo32 y) = fy := congrArg _ (lo32_eq y)
  rw [← hx, ← hy]
  exact ⟨h .eq, h .ne, h .lt, h .ge, h .ltu, h .geu, h .feq, h .flt, h .fle, h .funord,
    fun w => decode_scmp_illegal⟩

end Sys2Proof.Machine
end

section
/-! Memory as a slot of the C class finds it: BPC has passed the bundle, and translation, loads and the checks of
stores are as before (R47, R81, R216, R250, R251). -/
namespace Sys2Proof.Machine

/-! ## A slot of the C class, from the device past its bundle -/

section
variable {s : State} {c : Nat} {x : SlotSem}

/-- Its effect on the device past the bundle, and then what follows the bundle, are all that the bundle leaves. -/
theorem issueC_post (h : CanIssue s c) (h0 : x.cls = 0) (hl : x.legal (s.core c) = true)
    (he : x.enabled (s.core c) = true) (hr : x.ready (soloMarks s c x) s = true)
    (hc : x.check (soloMarks s c x) s = none) : issueOne x s =
      .next (x.post (soloMarks s c x) (issuedBy s c 6 (x.weight (soloMarks s c x)) (x.eff (soloMarks s c x)))) := by
  have hlen : oneLen x.cls = 6 := by rw [h0]; rfl
  rw [issueOne_goes h hl he hr hc (.inl h0), effBundle_c h0, ← hlen]
  rfl

/-- A slot that nothing follows. -/
theorem issueC_by (h : CanIssue s c) (h0 : x.cls = 0) (hl : x.legal (s.core c) = true)
    (he : x.enabled (s.core c) = true) (hr : x.ready (soloMarks s c x) s = true)
    (hc : x.check (soloMarks s c x) s = none) (hp : ∀ t, x.post (soloMarks s c x) t = t) :
    issueOne x s = .next (issuedBy s c 6 (x.weight (soloMarks s c x)) (x.eff (soloMarks s c x))) := by
  rw [issueC_post h h0 hl he hr hc, hp]

theorem issuedBy_congr {len w : Nat} {f f' : State → State} (h : f (passed s c len) = f' (passed s c len)) :
    issuedBy s c len w f = issuedBy s c len w f' := by
  unfold issuedBy
  rw [h]

/-- Where that effect changes only its core, the bundle leaves the change. -/
theorem issueC_mod {f : Core → Core} (h : CanIssue s c) (h0 : x.cls = 0) (hl : x.legal (s.core c) = true)
    (he : x.enabled (s.core c) = true) (hr : x.ready (soloMarks s c x) s = true)
    (hc : x.check (soloMarks s c x) s = none) (hp : ∀ t, x.post (soloMarks s c x) t = t)
    (hf : x.eff (soloMarks s c x) (passed s c 6) = (passed s c 6).modCore c f) :
    issueOne x s = .next (issued s c 6 (x.weight (soloMarks s c x)) f) := by
  rw [issueC_by h h0 hl he hr hc hp, ← issuedBy_core]
  simp only [issuedBy, hf]

end

/-- The trap frame of a slot that one word encodes (R330). -/
theorem trap_oneWord {s : State} {c n slot : Nat} {l : List SlotSem} {i : Instr} (h : (encWords i).2 = 0) :
    (marked (solo s c n) l).trap i slot =
      { cause := .illegal, slot := slot, baddr := (s.core c).bpc, w0 := (encWords i).1 } := by
  rw [trap_marked, h]

/-! ## Lengths of what is read -/

@[simp] theorem length_bytesAt (m : Map Byte) (a n : Nat) : (bytesAt m a n).length = n := by
  induction n generalizing a with
  | zero => rfl
  | succ n ih => simp [bytesAt, ih]

@[simp] theorem length_overlay (a : Nat) (bs : List Byte) (sts : List BufStore) :
    (overlay a bs sts).length = bs.length := by
  induction sts generalizing bs with
  | nil => rfl
  | cons st sts ih => simp [overlay, ih]

/-- A read that was made ahead gives what it found then (R251). -/
theorem ahead_bytes {k : Core} {ag : Agent} {h : Nat} {sp : Space} {a n : Nat} {bs : List Byte} (hn : bs.length = n) :
    (Rd.bytes bs).ahead k ag h sp a n = .bytes (k.found ag h sp a bs) := by
  subst hn
  unfold Rd.ahead Core.found
  cases aheadOf k ag h sp a bs.length <;> rfl

/-! ## The device past a bundle -/

section
variable (s : State) (c len : Nat)

@[simp] theorem core_passed : (passed s c len).core c = (s.core c).setBpc (va57 ((s.core c).bpc + len)) :=
  State.core_modCore _ _ _

@[simp] theorem modCore_id_passed : (passed s c len).modCore c id = passed s c len := by
  simp [passed, State.modCore_eq]

theorem walkFrom_passed (ctx va : Nat) (ls : List Level) (table : Nat) :
    walkFrom (passed s c len) ctx va ls table = walkFrom s ctx va ls table := by
  induction ls generalizing table with
  | nil => rfl
  | cons lv ls ih =>
    simp only [walkFrom, ih]
    rfl

@[simp] theorem findTrans_passed (va : Nat) : findTrans (passed s c len) c va = findTrans s c va := by
  unfold findTrans
  simp only [core_passed, walkFrom_passed]
  rfl

@[simp] theorem xlate_passed (va : Nat) (a : Acc) : xlate (passed s c len) c va a = xlate s c va a := by
  unfold xlate
  rw [findTrans_passed]

@[simp] theorem gmLoad_passed (ag : Option Agent) (va n : Nat) (a : Acc) (t : Trap) :
    gmLoad (passed s c len) c ag va n a t = gmLoad s c ag va n a t := by
  unfold gmLoad gmRead
  simp only [xlate_passed, core_passed]
  rfl

@[simp] theorem tsLoad_passed (ag : Option Agent) (sp : Space) (off n : Nat) (t : Trap) :
    tsLoad (passed s c len) c c ag sp off n t = tsLoad s c c ag sp off n t := by
  unfold tsLoad
  simp only [core_passed]
  rfl

end

/-! ## What may be read now -/

/-- The bytes at an address lie in memory of this device, and nothing keeps a read from them. -/
def GmReadable (s : State) (c : Nat) (tr : Trans) (va n : Nat) : Prop :=
  xlate s c va .read = .ok tr ∧ tr.loc ≠ 2 ∧ violates s (s.core c).ctx (tr.pa va) n = false ∧
    cxlDown s (tr.pa va) = false ∧ gmPoisoned s (tr.pa va) n = false ∧ dupOpen s tr = false

/-- What the sequencer's load finds there, its own buffered stores laid over it (R250). -/
def gmFound (s : State) (c : Nat) (tr : Trans) (va n : Nat) : List Byte :=
  overlay va (bytesAt s.mem (tr.pa va) n) (forwards (s.core c) .seq .gm va n)

section
variable {s : State} {c : Nat} {tr : Trans} {va n : Nat}

theorem gmLoad_readable (h : GmReadable s c tr va n) (t : Trap) :
    gmLoad s c (some .seq) va n .read t = .bytes (gmFound s c tr va n) := by
  obtain ⟨hx, hloc, hviol, hcxl, hpois, hdup⟩ := h
  simp only [gmLoad, gmRead, hx, hloc, hviol, hcxl, hpois, mappedRead, hdup, if_false, Bool.or_self, Bool.false_eq_true]
  rfl

theorem tsLoad_clean {off : Nat} (h : tsPoisoned (s.core c) off n = false) (t : Trap) :
    tsLoad s c c (some .seq) .ts off n t =
      .bytes (overlay off (bytesAt (s.core c).ts off n) (forwards (s.core c) .seq .ts off n)) := by
  simp only [tsLoad, h, Bool.false_eq_true, if_false]

theorem keepVa_passed {a : Acc} (hx : xlate s c va a = .ok tr) (len : Nat) :
    keepVa (passed s c len) c va a = (passed s c len).modCore c (Core.keepTrans tr) := by
  rw [keepVa, xlate_passed, hx]
  rfl

/-- A read of global memory leaves its translation, and has used its reply. -/
theorem afterRead_passed (hx : xlate s c va .read = .ok tr) (len : Nat) (ag : Agent) :
    afterRead (passed s c len) c ag va n false .read =
      (passed s c len).modCore c (fun k => (k.keepTrans tr).dropReply (.load c (some ag) va n)) := by
  rw [afterRead, if_neg Bool.false_ne_true, keepVa_passed hx, dropReply, State.modCore_modCore]

/-- A store of global memory that translates, and violates no protection, has nothing to stop it. -/
theorem gmStoreStop_ok {a : Acc} (hx : xlate s c va a = .ok tr)
    (hv : tr.loc ≠ 2 → violates s (s.core c).ctx (tr.pa va) n = false) (t : Trap) : gmStoreStop s c va n a t = none := by
  have hpass : (tr.loc != 2 && violates s (s.core c).ctx (tr.pa va) n) = false := by
    by_cases hloc : tr.loc = 2
    case pos => simp [hloc]
    case neg => simp [hv hloc]
  simp only [gmStoreStop, hx, hpass, Bool.false_eq_true, if_false]

end

/-! ## Pending bits (R222) -/

section
variable {k : Core} (h : (k.cfgAt rDBGMEM).getLsbD 0 = false)
include h

theorem pendWait_off (ag : Agent) (handle off len : Nat) (store : Bool) :
    pendWait k ag handle off len store = false := by
  simp only [pendWait, h, Bool.false_and]

theorem pendingStop_off (e : Env) (t : Trap) (handle off len : Nat) (store : Bool) :
    pendingStop e k t handle off len store = none := by
  simp only [pendingStop, pendingHit, h, Bool.not_false, if_true, Option.map_none]

end

end Sys2Proof.Machine
end

section
/-! Scalar loads and stores (R81, R250, R251). -/
namespace Sys2Proof.Machine

theorem sldRead_passed (e : Env) (s : State) (len : Nat) (i : Instr) (sz : Size) (ts : Bool) (off : BitVec 7)
    (a : SReg) : sldRead e (passed s e.c len) i sz ts off a = sldRead e s i sz ts off a := by
  simp only [sldRead, core_passed, tsLoad_passed, gmLoad_passed]
  rfl

section
variable {s : State} {c : Nat} {sz : Size} {off : BitVec 7} {a : SReg} {ad : Nat} {l : List SlotSem} (i : Instr)

/-- A load of the share finds the bytes there, or what it found ahead. -/
theorem sldRead_ts (had : sAddr (marked (solo s c 0) l) sz true off a = ad) (hal : ad % sizeBytes sz = 0)
    (hshare : ad + sizeBytes sz ≤ (s.core c).share) (hdbg : ((s.core c).cfgAt rDBGMEM).getLsbD 0 = false)
    (hpois : tsPoisoned (s.core c) ad (sizeBytes sz) = false) :
    sldRead (marked (solo s c 0) l) s i sz true off a = .bytes ((s.core c).found .seq 0 .ts ad
      (overlay ad (bytesAt (s.core c).ts ad (sizeBytes sz)) (forwards (s.core c) .seq .ts ad (sizeBytes sz)))) := by
  simp only [sldRead, had, hal, ne_eq, not_true_eq_false, if_false, if_true, marked_c, solo_c, Nat.not_lt.mpr hshare,
    pendingStop_off hdbg, marked_who, solo_who, tsLoad_clean hpois]
  exact ahead_bytes (by simp)

/-- A load of global memory finds the bytes there, or what it found ahead. -/
theorem sldRead_gm {tr : Trans} (had : sAddr (marked (solo s c 0) l) sz false off a = ad)
    (hal : ad % sizeBytes sz = 0) (hread : GmReadable s c tr ad (sizeBytes sz)) :
    sldRead (marked (solo s c 0) l) s i sz false off a =
      .bytes ((s.core c).found .seq 0 .gm ad (gmFound s c tr ad (sizeBytes sz))) := by
  simp only [sldRead, had, hal, ne_eq, not_true_eq_false, if_false, Bool.false_eq_true, marked_c, solo_c, marked_who,
    solo_who, gmLoad_readable hread]
  exact ahead_bytes (by simp [gmFound])

theorem sldRead_misaligned {ts : Bool} (hw : (encWords i).2 = 0)
    (had : sAddr (marked (solo s c 0) l) sz ts off a = ad)
    (hal : ad % sizeBytes sz ≠ 0) : sldRead (marked (solo s c 0) l) s i sz ts off a =
      .stop (.trap { cause := .dalign, slot := 0, baddr := (s.core c).bpc, faddr := ad, w0 := (encWords i).1 }) := by
  simp only [sldRead, had, ne_eq, hal, not_false_eq_true, if_true, trap_oneWord hw]

theorem sldRead_beyond (hw : (encWords i).2 = 0)
    (had : sAddr (marked (solo s c 0) l) sz true off a = ad) (hal : ad % sizeBytes sz = 0)
    (hshare : (s.core c).share < ad + sizeBytes sz) : sldRead (marked (solo s c 0) l) s i sz true off a =
      .stop (.trap { cause := .tsrange, slot := 0, baddr := (s.core c).bpc, faddr := ad, w0 := (encWords i).1 }) := by
  simp only [sldRead, had, hal, ne_eq, not_true_eq_false, if_false, if_true, marked_c, solo_c, hshare, trap_oneWord hw]

end

/-- Only an access of the share can be pending (R222). -/
theorem notPending_eq {ts pend : Bool} (h : ts = true → pend = false) : (!ts || !pend) = true := by
  cases ts
  case false => rfl
  case true => rw [h rfl]; rfl

section
variable {s : State} {c : Nat} {sz : Size} {off : BitVec 7} {a : SReg} {ad : Nat} {l : List SlotSem} (i : Instr)

theorem sstStop_ts (had : sAddr (marked (solo s c 0) l) sz true off a = ad) (hal : ad % sizeBytes sz = 0)
    (hshare : ad + sizeBytes sz ≤ (s.core c).share) (hdbg : ((s.core c).cfgAt rDBGMEM).getLsbD 0 = false) :
    sstStop (marked (solo s c 0) l) s i sz true off a = none := by
  simp only [sstStop, had, hal, ne_eq, not_true_eq_false, if_false, if_true, marked_c, solo_c, Nat.not_lt.mpr hshare,
    pendingStop_off hdbg]

theorem sstStop_gm {tr : Trans} (had : sAddr (marked (solo s c 0) l) sz false off a = ad) (hal : ad % sizeBytes sz = 0)
    (hx : xlate s c ad .write = .ok tr)
    (hviol : tr.loc ≠ 2 → violates s (s.core c).ctx (tr.pa ad) (sizeBytes sz) = false) :
    sstStop (marked (solo s c 0) l) s i sz false off a = none := by
  simp only [sstStop, had, hal, ne_eq, not_true_eq_false, if_false, Bool.false_eq_true, marked_c, solo_c,
    gmStoreStop_ok hx hviol]

theorem sstStop_misaligned {ts : Bool} (hw : (encWords i).2 = 0)
    (had : sAddr (marked (solo s c 0) l) sz ts off a = ad)
    (hal : ad % sizeBytes sz ≠ 0) : sstStop (marked (solo s c 0) l) s i sz ts off a =
      some (.trap { cause := .dalign, slot := 0, baddr := (s.core c).bpc, faddr := ad, acc := 1,
                    w0 := (encWords i).1 }) := by
  simp only [sstStop, had, ne_eq, hal, not_false_eq_true, if_true, trap_oneWord hw]

/-- What a store of global memory leaves of its core. -/
theorem bufferStore_passed {tr : Trans} (hx : xlate s c ad .write = .ok tr) (bs : List Byte) :
    bufferStore (keepVa (passed s c 6) c ad .write) c .seq 0 .gm ad (trOf (passed s c 6) c ad .write) bs =
      (passed s c 6).modCore c (fun k => (k.keepTrans tr).putStore .seq 0 .gm ad tr bs) := by
  rw [keepVa_passed hx, trOf, xlate_passed, hx, bufferStore, State.modCore_modCore]

end

/-- The core after a load of the sequencer has taken its bytes into sd. -/
def sldDone (sz : Size) (sx : Bool) (d : SReg) (sp : Space) (ad : Nat) (bs : List Byte) (k : Core) : Core :=
  (k.took .seq 0 sp ad (sizeBytes sz)).setS d.toNat (extend (sizeBytes sz) sx (leNat bs))

section
variable {s : State} {c : Nat} {g : Guard} {sz : Size} {ts sx : Bool} {off : BitVec 7} {a b d : SReg} {ad : Nat}

/-- A load that finds bytes, with nothing outstanding before it, takes them. -/
theorem exec_sld_takes {f : Core → Core} {bs : List Byte} (hc : CanIssue s c) (hg : Enabled (s.core c) g)
    (had : sAddr (soloMarks s c (semSld g sz ts sx off a d)) sz ts off a = ad)
    (hpend : ts = true → pendWait (s.core c) .seq 0 ad (sizeBytes sz) false = false)
    (hclear : clearOf (s.core c) (loadDeps (s.core c) .seq 0) = true)
    (hread : sldRead (soloMarks s c (semSld g sz ts sx off a d)) s (.sld g sz ts sx off a d) sz ts off a = .bytes bs)
    (hafter : afterRead (passed s c 6) c .seq ad (sizeBytes sz) ts .read = (passed s c 6).modCore c f) :
    exec (.sld g sz ts sx off a d) s =
      .next (issued s c 6 0 (fun k => sldDone sz sx d (if ts then .ts else .gm) ad bs (f k))) := by
  subst had
  have hready : (semSld g sz ts sx off a d).ready (soloMarks s c (semSld g sz ts sx off a d)) s = true := by
    refine Bool.and_eq_true _ _ ▸ ⟨notPending_eq hpend, ?_⟩
    rw [hread]
    exact hclear
  refine issueC_mod (x := semSld g sz ts sx off a d) hc rfl rfl (enabled_of rfl hg) hready (congrArg rdStop hread)
    (fun _ => rfl) ?_
  have hread' : sldRead _ (passed s c 6) _ sz ts off a = _ := (sldRead_passed _ s 6 _ sz ts off a).trans hread
  change ((afterRead (passed s c 6) c .seq _ (sizeBytes sz) ts .read).modCore c
    (Core.took .seq 0 (if ts then .ts else .gm) _ (sizeBytes sz))).modCore c
      (·.setS d.toNat (extend (sizeBytes sz) sx (rdVal (sldRead _ (passed s c 6) _ sz ts off a)))) = _
  rw [hread', hafter, State.modCore_modCore, State.modCore_modCore]
  rfl

/-- A load that is stopped traps with the record of its stop. -/
theorem exec_sld_traps {t : Trap} (hc : CanIssue s c) (hg : Enabled (s.core c) g)
    (had : sAddr (soloMarks s c (semSld g sz ts sx off a d)) sz ts off a = ad)
    (hpend : ts = true → pendWait (s.core c) .seq 0 ad (sizeBytes sz) false = false)
    (hread : sldRead (soloMarks s c (semSld g sz ts sx off a d)) s (.sld g sz ts sx off a d) sz ts off a = .stop (.trap t)) :
    exec (.sld g sz ts sx off a d) s = .next (raiseTrap s c t) := by
  subst had
  have hready : (semSld g sz ts sx off a d).ready (soloMarks s c (semSld g sz ts sx off a d)) s = true := by
    refine Bool.and_eq_true _ _ ▸ ⟨notPending_eq hpend, ?_⟩
    rw [hread]
    rfl
  exact issueOne_stops (x := semSld g sz ts sx off a d) hc rfl (enabled_of rfl hg) hready (congrArg rdStop hread)

/-- A store without a stop enters the write buffers. -/
theorem exec_sst_enters {f : Core → Core} (hc : CanIssue s c) (hg : Enabled (s.core c) g)
    (had : sAddr (soloMarks s c (semSst g sz ts off a b)) sz ts off a = ad)
    (hpend : ts = true → pendWait (s.core c) .seq 0 ad (sizeBytes sz) true = false)
    (hstop : sstStop (soloMarks s c (semSst g sz ts off a b)) s (.sst g sz ts off a b) sz ts off a = none)
    (heff : (semSst g sz ts off a b).eff (soloMarks s c (semSst g sz ts off a b)) (passed s c 6) =
      (passed s c 6).modCore c f) :
    exec (.sst g sz ts off a b) s = .next (issued s c 6 0 f) := by
  subst had
  exact issueC_mod (x := semSst g sz ts off a b) hc rfl rfl (enabled_of rfl hg) (notPending_eq hpend) hstop
    (fun _ => rfl) heff

/-- A store that is stopped traps with the record of its stop. -/
theorem exec_sst_traps {t : Trap} (hc : CanIssue s c) (hg : Enabled (s.core c) g)
    (had : sAddr (soloMarks s c (semSst g sz ts off a b)) sz ts off a = ad)
    (hpend : ts = true → pendWait (s.core c) .seq 0 ad (sizeBytes sz) true = false)
    (hstop : sstStop (soloMarks s c (semSst g sz ts off a b)) s (.sst g sz ts off a b) sz ts off a = some (.trap t)) :
    exec (.sst g sz ts off a b) s = .next (raiseTrap s c t) := by
  subst had
  exact issueOne_stops (x := semSst g sz ts off a b) hc rfl (enabled_of rfl hg) (notPending_eq hpend) hstop

end

/-- Settles O5: a load is what its read finds, a store what its checks let into the buffers. -/
theorem scalarMemory : Obligations.ScalarMemory := by
  unfold Obligations.ScalarMemory
  refine ⟨?load, ?store⟩
  case load =>
    intro s c g sz sx off a d hc hg k n at' ts gm ext landed
    refine ⟨?own, ?global, ?misaligned, ?beyond⟩
    case own =>
      intro hal hshare hdbg hpois hclear
      exact exec_sld_takes hc hg rfl (fun _ => pendWait_off hdbg ..) hclear (sldRead_ts _ rfl hal hshare hdbg hpois)
        (modCore_id_passed s c 6).symm
    case global =>
      intro tr hal hx hloc hviol hcxl hpois hdup hclear
      exact exec_sld_takes hc hg rfl nofun hclear (sldRead_gm _ rfl hal ⟨hx, hloc, hviol, hcxl, hpois, hdup⟩)
        (afterRead_passed hx 6 .seq)
    case misaligned =>
      intro hal hpend
      exact exec_sld_traps (ts := true) hc hg rfl (fun _ => hpend) (sldRead_misaligned (ad := ts) _ rfl rfl hal)
    case beyond =>
      intro hal hshare hpend
      exact exec_sld_traps hc hg rfl (fun _ => hpend) (sldRead_beyond (ad := ts) _ rfl rfl hal hshare)
  case store =>
    intro s c g sz off a b hc hg k n at' ts gm bytes
    refine ⟨?own, ?global, ?misaligned⟩
    case own =>
      intro hal hshare hdbg
      exact exec_sst_enters hc hg rfl (fun _ => pendWait_off hdbg ..) (sstStop_ts _ rfl hal hshare hdbg) rfl
    case global =>
      intro tr hal hx hviol
      exact exec_sst_enters hc hg rfl nofun (sstStop_gm _ rfl hal hx hviol) (bufferStore_passed hx bytes)
    case misaligned =>
      intro hal
      exact exec_sst_traps (ts := false) hc hg rfl nofun (sstStop_misaligned (ad := gm) _ rfl rfl hal)

end Sys2Proof.Machine
end

section
/-! Control transfer, ring pointers and reads of registers (R82 to R85, R287). -/
namespace Sys2Proof.Machine

/-! ## Control transfer (R82, R287) -/

section
variable {s : State} {c : Nat} {g : Guard} {i : Instr} {target : Env → Nat} {link : Bool} {t : Nat}

/-- Outside a body, to an even target, BPC takes the target. -/
theorem semJump_goes (hc : CanIssue s c) (hg : Enabled (s.core c) g)
    (ht : target (soloMarks s c (semJump g i target false)) = t) (hrun : lsRun (s.core c).lstat = false)
    (heven : t % 2 = 0) : issueOne (semJump g i target false) s = .next (issued s c 6 0 (·.setBpc t)) := by
  subst ht
  refine issueOne_core (x := semJump g i target false) hc rfl rfl (enabled_of rfl hg) rfl ?_ (fun _ => rfl)
    (fun _ => rfl)
  exact (checks_cons_false (by simp [heven])).trans (checks_single_false hrun)

/-- A call also leaves the address of the next bundle in s31. -/
theorem semJump_links (hc : CanIssue s c) (hg : Enabled (s.core c) g)
    (ht : target (soloMarks s c (semJump g i target true)) = t) (hrun : lsRun (s.core c).lstat = false)
    (heven : t % 2 = 0) : issueOne (semJump g i target true) s =
      .next (issued s c 6 0 (fun k => (k.setS 31 (w64 (va57 ((s.core c).bpc + 6)))).setBpc t)) := by
  subst ht
  refine issueOne_core (x := semJump g i target true) hc rfl rfl (enabled_of rfl hg) rfl ?_ (fun _ => rfl) (fun u => ?_)
  · exact (checks_cons_false (by simp [heven])).trans (checks_single_false hrun)
  · exact State.modCore_modCore u c (·.setS 31 _) (·.setBpc _)

/-- R66: an odd target. -/
theorem semJump_odd (hc : CanIssue s c) (hg : Enabled (s.core c) g)
    (ht : target (soloMarks s c (semJump g i target link)) = t) (hodd : t % 2 ≠ 0) :
    issueOne (semJump g i target link) s = .next (trapped s c 0 i .ialign) := by
  subst ht
  exact issueOne_traps (x := semJump g i target link) hc rfl (enabled_of rfl hg) rfl
    (checks_cons_true (by simpa using hodd))

/-- R287: the body of a running nest bars it. -/
theorem semJump_body (hc : CanIssue s c) (hg : Enabled (s.core c) g)
    (ht : target (soloMarks s c (semJump g i target link)) = t) (heven : t % 2 = 0)
    (hrun : lsRun (s.core c).lstat = true) :
    issueOne (semJump g i target link) s = .next (trapped s c 0 i .loopctl) := by
  subst ht
  exact issueOne_traps (x := semJump g i target link) hc rfl (enabled_of rfl hg) rfl
    ((checks_cons_false (by simp [heven])).trans (checks_single_true hrun))

end

/-- Settles O6: the five are one jump, with the target of their form, and with a link or without. -/
theorem controlTransfer : Obligations.ControlTransfer := by
  unfold Obligations.ControlTransfer
  intro s c g off a hc hg k rel reg next
  refine ⟨fun hrun => ⟨fun heven => ?_, fun heven => ?_⟩, fun hodd => ?_, fun hrun heven => ?_, fun hrun heven => ?_⟩
  · exact ⟨semJump_goes hc hg rfl hrun heven, semJump_links hc hg rfl hrun heven⟩
  · exact ⟨semJump_goes hc hg rfl hrun heven, semJump_links hc hg rfl hrun heven, semJump_goes hc hg rfl hrun heven⟩
  · simp only [List.forall_mem_cons]
    exact ⟨semJump_odd hc hg (t := reg) rfl hodd, semJump_odd hc hg (t := reg) rfl hodd,
      semJump_odd hc hg (t := reg) rfl hodd, List.forall_mem_nil _⟩
  · simp only [List.forall_mem_cons]
    exact ⟨semJump_body hc hg (t := rel) rfl heven hrun, semJump_body hc hg (t := rel) rfl heven hrun, List.forall_mem_nil _⟩
  · simp only [List.forall_mem_cons]
    exact ⟨semJump_body hc hg (t := reg) rfl heven hrun, semJump_body hc hg (t := reg) rfl heven hrun,
      semJump_body hc hg (t := reg) rfl heven hrun, List.forall_mem_nil _⟩

/-! ## Ring pointers (R83) -/

section
variable {s : State} {c : Nat} {g : Guard} {i : Instr} {h : RingReg} {ok : W64 → Bool} {f : W64 → W64}

/-- A pointer of a valid ring moves once the ring has what it asks for. -/
theorem semAdv_goes (hc : CanIssue s c) (hg : Enabled (s.core c) g) (hvalid : cbValid ((s.core c).cb h.toNat) = true)
    (hok : ok ((s.core c).cb h.toNat) = true) (hfree : marksFree (s.core c) [] [h.toNat] = true) :
    issueOne (semAdv g i h ok f) s = .next (issued s c 6 0 (·.modCfg (rCBDESC + h.toNat) f)) := by
  refine issueOne_core (x := semAdv g i h ok f) hc rfl rfl (enabled_of rfl hg) ?_ (if_pos hvalid) (fun _ => rfl)
    (fun _ => rfl)
  simp [semAdv, hok, hfree]

/-- Until then its bundle waits. -/
theorem semAdv_waits (hc : CanIssue s c) (hg : Enabled (s.core c) g) (hvalid : cbValid ((s.core c).cb h.toNat) = true)
    (hok : ok ((s.core c).cb h.toNat) = false) : issueOne (semAdv g i h ok f) s = .next s := by
  refine issueOne_waits (x := semAdv g i h ok f) hc rfl (enabled_of rfl hg) ?_
  simp [semAdv, hok, hvalid]

/-- A ring that is not valid traps. -/
theorem semAdv_invalid (hc : CanIssue s c) (hg : Enabled (s.core c) g)
    (hvalid : cbValid ((s.core c).cb h.toNat) = false) : issueOne (semAdv g i h ok f) s =
      .next (raiseTrap s c { cause := .cbuf, slot := 0, baddr := (s.core c).bpc, w0 := (encWords i).1,
                             w1 := (encWords i).2, tkind := 2, tnum := h.toNat }) := by
  refine issueOne_stops (x := semAdv g i h ok f) hc rfl (enabled_of rfl hg) ?_ (if_neg (by simpa using hvalid))
  simp [semAdv, hvalid]

end

/-- The pointer of the ring as it stands moves; what else of the word the change reads is of that ring. -/
theorem issued_modCfg {s : State} {c len w r : Nat} {f f' : W64 → W64}
    (h : f ((s.core c).cfgAt r) = f' ((s.core c).cfgAt r)) :
    issued s c len w (·.modCfg r f) = issued s c len w (·.modCfg r f') :=
  issued_congr fun n => congrArg (((s.core c).setBpc n).setCfg r) h

/-- Settles O7: the two differ in what they ask of the ring, and in the pointer that they move. -/
theorem ringPointersMove : Obligations.RingPointersMove := by
  unfold Obligations.RingPointersMove
  intro s c g nm1 h hc hg k r w n ring fill free
  refine ⟨fun hvalid hfree => ⟨fun hn => ?_, fun hn => ?_, fun hn => ?_, fun hn => ?_⟩, fun hvalid => ?_⟩
  · exact (semAdv_goes hc hg hvalid (decide_eq_true hn) hfree).trans (congrArg _ (issued_modCfg rfl))
  · exact semAdv_waits hc hg hvalid (decide_eq_false (Nat.not_le.mpr hn))
  · exact (semAdv_goes hc hg hvalid (decide_eq_true hn) hfree).trans (congrArg _ (issued_modCfg rfl))
  · exact semAdv_waits hc hg hvalid (decide_eq_false (Nat.not_le.mpr hn))
  · simp only [List.forall_mem_cons]
    exact ⟨semAdv_invalid hc hg hvalid, semAdv_invalid hc hg hvalid, List.forall_mem_nil _⟩

/-! ## Reads of registers (R84) -/

/-- Settles O8: CFGR takes what the register shows before the bundle. -/
theorem cfgrReads : Obligations.CfgrReads := by
  unfold Obligations.CfgrReads
  intro s c g reg d hc hg k reads n
  have hread {v : W64} (hv : cfgRead s c n = v) : reads v := hv ▸ issueOne_core (x := semCfgr g reg d) hc rfl rfl
    (enabled_of rfl hg) rfl rfl (fun _ => rfl) (fun _ => rfl)
  refine ⟨fun hn => hread ?plain, fun hn => hread ?_, fun i hi hn => hread ?window, fun hn => hread ?_,
    fun hn => hread ?_, fun hn => hread ?_, fun hn => hread ?_, fun hn => hread ?_, fun hn => hread ?_⟩
  case plain =>
    simp only [List.mem_cons, List.not_mem_nil, not_or, or_false] at hn
    obtain ⟨hdev, h0, h1, h2, h3, hmlst, hclaim, hoh, hfab, hacc, hboot⟩ := hn
    have hwin : ¬ (0x070 ≤ n ∧ n ≤ 0x073) := by omega
    simp only [cfgRead, hdev, hwin, hmlst, hclaim, hoh, hfab, hacc, hboot, if_false]
    rfl
  case window =>
    rw [hn]
    have hwin : 0x070 ≤ 0x070 + i ∧ 0x070 + i ≤ 0x073 := by omega
    have hdev : 0x070 + i ≠ 0x000 := by omega
    rw [cfgRead, if_neg hdev, if_pos hwin, Nat.add_sub_cancel_left]
  all_goals
    simp [hn, cfgRead, k, rDEVID, rMLST, rOPCLAIM, rOHSTAT, rFABID, rHACC, rBOOTWHY]

end Sys2Proof.Machine
end

section
/-! Writes of registers and of the shapes of tiles (R52, R84, R85, R281, R300). -/
namespace Sys2Proof.Machine

/-! ## The fields that a write sets (R84) -/

/-- Register n keeps of a write the bits of m. -/
abbrev Keeps (n : Nat) (m : W64) : Prop := n ≠ rFSTAT ∧ n ≠ rMONSTAT ∧ cfgMask n = m

/-- Any bundle may write register n. -/
abbrev FreeReg (n : Nat) : Prop := n ≠ rSVEC ∧ n ≠ rSRET ∧ isLoopReg n = false ∧ isLogReg n = false

theorem cfgWrite_keeps {n : Nat} {m : W64} (h : Keeps n m) (k : Core) (v : W64) :
    cfgWrite k n v = k.modCfg n (fun w => (w &&& ~~~ m) ||| (v &&& m)) := by
  obtain ⟨hf, hmon, rfl⟩ := h
  rw [cfgWrite, if_neg hf, if_neg hmon]

theorem isLoopReg_iff {n : Nat} : isLoopReg n = true ↔ (0x0A0 ≤ n ∧ n ≤ 0x0A5) ∨ (0x0B0 ≤ n ∧ n ≤ 0x0FF) :=
  decide_eq_true_iff

/-- The registers of a nest stand apart from those of service calls and of the log. -/
theorem separate_of_isLoopReg {n : Nat} (h : isLoopReg n = true) :
    n ≠ rSVEC ∧ n ≠ rSRET ∧ isLogReg n = false ∧ n ≠ rFSTAT ∧ n ≠ rMONSTAT := by
  rw [isLoopReg_iff] at h
  simp only [isLogReg, rSVEC, rSRET, rLOGB, rLOGL, rLOGCFG, rGMAP, rFSTAT, rMONSTAT, decide_eq_false_iff_not]
  omega

/-- From 0x0A0 to 0x11F lie the registers of the nest and of the monitors. -/
theorem separate_of_isLogReg {n : Nat} (h : isLogReg n = true) : n ≠ rSVEC ∧ n ≠ rSRET ∧ isLoopReg n = false := by
  simp only [isLogReg, rLOGB, rLOGL, rLOGCFG, rGMAP, decide_eq_true_eq] at h
  simp only [isLoopReg, rSVEC, rSRET, decide_eq_false_iff_not]
  omega

theorem cfgMask_nest {n : Nat} (h : 0x0A0 ≤ n) (h' : n < 0x120) : cfgMask n =
    if n = rFRZCNT ∨ (0x0B0 ≤ n ∧ n ≤ 0x0B7) ∨ (0x0C0 ≤ n ∧ n ≤ 0x0FF) then 0xFFFFFFFFFFFFFFFF
    else if 0x100 ≤ n ∧ n < 0x120 ∧ 3 ≤ n % 8 then 0xFFFFFFFFFFFFFFFF
    else if 0x0A0 ≤ n ∧ n ≤ 0x0A5 then 0x00000001FFFFFFFF
    else if 0x0B8 ≤ n ∧ n ≤ 0x0BF then 0x1E1F
    else 0 := by
  have hne (r : Nat) (hr : r < 0x0A0 ∨ 0x120 ≤ r) : n ≠ r := by omega
  rw [cfgMask, if_neg (hne rVROT (by decide)), if_neg (hne rQPRED (by decide)), if_neg (hne rSVEC (by decide)),
    if_neg (hne rSRET (by decide)), if_neg (not_or.mpr ⟨hne rWTMO (by decide), hne rOTH (by decide)⟩),
    if_neg (hne rDBGMEM (by decide)), if_neg (hne rLOGCFG (by decide)),
    if_neg (not_or.mpr ⟨hne rLOGB (by decide), hne rLOGL (by decide)⟩), if_neg (hne rGMAP (by decide))]

theorem cfgMask_iter {n : Nat} (h : (0x0B0 ≤ n ∧ n ≤ 0x0B7) ∨ (0x0C0 ≤ n ∧ n ≤ 0x0FF)) :
    cfgMask n = 0xFFFFFFFFFFFFFFFF := by
  rw [cfgMask_nest (by omega) (by omega), if_pos (Or.inr h)]

theorem cfgMask_mon {n : Nat} (h : 0x100 ≤ n ∧ n < 0x120 ∧ 3 ≤ n % 8) : cfgMask n = 0xFFFFFFFFFFFFFFFF := by
  rw [cfgMask_nest (by omega) (by omega), if_pos h, ite_self]

theorem cfgMask_ldim {n : Nat} (h : 0x0A0 ≤ n ∧ n ≤ 0x0A5) : cfgMask n = 0x00000001FFFFFFFF := by
  have hiter : ¬ (n = 0x094 ∨ (0x0B0 ≤ n ∧ n ≤ 0x0B7) ∨ (0x0C0 ≤ n ∧ n ≤ 0x0FF)) := by omega
  rw [cfgMask_nest (by omega) (by omega), if_neg hiter, if_neg (by omega), if_pos h]

theorem cfgMask_itcfg {n : Nat} (h : 0x0B8 ≤ n ∧ n ≤ 0x0BF) : cfgMask n = 0x1E1F := by
  have hiter : ¬ (n = 0x094 ∨ (0x0B0 ≤ n ∧ n ≤ 0x0B7) ∨ (0x0C0 ≤ n ∧ n ≤ 0x0FF)) := by omega
  rw [cfgMask_nest (by omega) (by omega), if_neg hiter, if_neg (by omega), if_neg (by omega), if_pos h]

section
variable {s : State} {c : Nat} {g : Guard} {reg : BitVec 12} {a : SReg}

/-- R84: a write that its mode, the loop nest and the log allow. -/
theorem exec_cfgw (hc : CanIssue s c) (hg : Enabled (s.core c) g)
    (hpriv : reg.toNat = rSVEC ∨ reg.toNat = rSRET → (s.core c).priv = true)
    (hloop : isLoopReg reg.toNat = true → lsRun (s.core c).lstat = false)
    (hlog : isLogReg reg.toNat = true → ((s.core c).cfgAt rLOGSTAT).getLsbD 63 = false) :
    exec (.cfgw g reg a) s =
      .next (issued s c 6 0 (fun k => cfgWrite k reg.toNat ((s.core c).sAt a.toNat))) := by
  have h1 : ((reg.toNat == rSVEC || reg.toNat == rSRET) && !(s.core c).priv) = false := by
    rw [Bool.and_eq_false_imp]
    intro h
    simpa using hpriv (by simpa using h)
  have h2 : (isLoopReg reg.toNat && lsRun (s.core c).lstat) = false := by
    rwa [Bool.and_eq_false_imp]
  have h3 : (isLogReg reg.toNat && ((s.core c).cfgAt rLOGSTAT).getLsbD 63) = false := by
    rwa [Bool.and_eq_false_imp]
  exact issueOne_core (x := semCfgw g reg a) hc rfl rfl (enabled_of rfl hg) rfl
    ((checks_cons_false h1).trans ((checks_cons_false h2).trans (checks_single_false h3))) (fun _ => rfl) (fun _ => rfl)

theorem exec_cfgw_free (hc : CanIssue s c) (hg : Enabled (s.core c) g) (h : FreeReg reg.toNat) :
    exec (.cfgw g reg a) s =
      .next (issued s c 6 0 (fun k => cfgWrite k reg.toNat ((s.core c).sAt a.toNat))) := by
  obtain ⟨hsvec, hsret, hloop, hlog⟩ := h
  exact exec_cfgw hc hg (fun h => absurd h (not_or.mpr ⟨hsvec, hsret⟩))
    (fun h => absurd (hloop.symm.trans h) Bool.false_ne_true) (fun h => absurd (hlog.symm.trans h) Bool.false_ne_true)

/-- R85: user mode may not write SVEC or SRET. -/
theorem exec_cfgw_priv (hc : CanIssue s c) (hg : Enabled (s.core c) g) (h : reg.toNat = rSVEC ∨ reg.toNat = rSRET)
    (hpriv : (s.core c).priv = false) :
    exec (.cfgw g reg a) s = .next (trapped s c 0 (.cfgw g reg a) .priv) := by
  have h1 : ((reg.toNat == rSVEC || reg.toNat == rSRET) && !(s.core c).priv) = true := by simpa [hpriv] using h
  exact issueOne_traps (x := semCfgw g reg a) hc rfl (enabled_of rfl hg) rfl (checks_cons_true h1)

/-- R281: a running nest keeps its registers. -/
theorem exec_cfgw_loopctl (hc : CanIssue s c) (hg : Enabled (s.core c) g) (h : isLoopReg reg.toNat = true)
    (hrun : lsRun (s.core c).lstat = true) :
    exec (.cfgw g reg a) s = .next (trapped s c 0 (.cfgw g reg a) .loopctl) := by
  obtain ⟨hsvec, hsret, -⟩ := separate_of_isLoopReg h
  have h1 : ((reg.toNat == rSVEC || reg.toNat == rSRET) && !(s.core c).priv) = false := by simp [hsvec, hsret]
  have h2 : (isLoopReg reg.toNat && lsRun (s.core c).lstat) = true := by rw [h, hrun]; rfl
  exact issueOne_traps (x := semCfgw g reg a) hc rfl (enabled_of rfl hg) rfl
    ((checks_cons_false h1).trans (checks_cons_true h2))

/-- R300: so does the log while recording. -/
theorem exec_cfgw_logctl (hc : CanIssue s c) (hg : Enabled (s.core c) g) (h : isLogReg reg.toNat = true)
    (hrec : ((s.core c).cfgAt rLOGSTAT).getLsbD 63 = true) :
    exec (.cfgw g reg a) s = .next (trapped s c 0 (.cfgw g reg a) .logctl) := by
  obtain ⟨hsvec, hsret, hloop⟩ := separate_of_isLogReg h
  have h1 : ((reg.toNat == rSVEC || reg.toNat == rSRET) && !(s.core c).priv) = false := by simp [hsvec, hsret]
  have h2 : (isLoopReg reg.toNat && lsRun (s.core c).lstat) = false := by rw [hloop]; rfl
  have h3 : (isLogReg reg.toNat && ((s.core c).cfgAt rLOGSTAT).getLsbD 63) = true := by rw [h, hrec]; rfl
  exact issueOne_traps (x := semCfgw g reg a) hc rfl (enabled_of rfl hg) rfl
    ((checks_cons_false h1).trans ((checks_cons_false h2).trans (checks_single_true h3)))

end

/-- R85: the registers that CFGW does not set. -/
def fixedRegs : List Nat :=
  [rDEVID, rSARG, rMSTAT, rMPOS, rMLST, rOPCLAIM, rPLIM, rLSTAT, rLPASS, rLBEG, rOHSTAT, rLOGSTAT, rFABID, rFERR,
    rFERRA, rMMCTL, rPOOLB, rBOOTWHY]

theorem keeps_fixedRegs : ∀ n ∈ fixedRegs, FreeReg n ∧ Keeps n 0 := by decide

theorem freeReg_mon {n : Nat} (h : 0x100 ≤ n ∧ n < 0x120 ∧ 3 ≤ n % 8) : FreeReg n ∧ Keeps n 0xFFFFFFFFFFFFFFFF := by
  have hne (r : Nat) (hr : r < 0x100 ∨ 0x120 ≤ r) : n ≠ r := by omega
  have hloop : isLoopReg n = false := decide_eq_false (by omega)
  have hlog : isLogReg n = false := decide_eq_false (not_or.mpr ⟨hne rLOGB (by decide), not_or.mpr
    ⟨hne rLOGL (by decide), not_or.mpr ⟨hne rLOGCFG (by decide), hne rGMAP (by decide)⟩⟩⟩)
  exact ⟨⟨hne rSVEC (by decide), hne rSRET (by decide), hloop, hlog⟩, hne rFSTAT (by decide), hne rMONSTAT (by decide),
    cfgMask_mon h⟩

section
variable {s : State} {c : Nat} {g : Guard} {reg : BitVec 12} {a : SReg} {m : W64}

/-- The core after a write of register n that keeps the bits of m. -/
def keepBits (n : Nat) (m v : W64) (k : Core) : Core := k.modCfg n (fun w => (w &&& ~~~ m) ||| (v &&& m))

theorem cfgw_keeps_free (hc : CanIssue s c) (hg : Enabled (s.core c) g) (h : FreeReg reg.toNat)
    (hm : Keeps reg.toNat m) :
    exec (.cfgw g reg a) s = .next (issued s c 6 0 (keepBits reg.toNat m ((s.core c).sAt a.toNat))) :=
  (exec_cfgw_free hc hg h).trans (congrArg _ (issued_congr fun _ => cfgWrite_keeps hm _ _))

theorem cfgw_keeps_service (hc : CanIssue s c) (hg : Enabled (s.core c) g) (h : reg.toNat = rSVEC ∨ reg.toNat = rSRET)
    (hm : Keeps reg.toNat m) (hpriv : (s.core c).priv = true) :
    exec (.cfgw g reg a) s = .next (issued s c 6 0 (keepBits reg.toNat m ((s.core c).sAt a.toNat))) := by
  have hsep : isLoopReg reg.toNat = false ∧ isLogReg reg.toNat = false := by
    obtain h | h := h <;> rw [h] <;> decide
  refine (exec_cfgw hc hg (fun _ => hpriv) (fun h => ?_) (fun h => ?_)).trans
    (congrArg _ (issued_congr fun _ => cfgWrite_keeps hm _ _))
  · exact absurd (hsep.1.symm.trans h) Bool.false_ne_true
  · exact absurd (hsep.2.symm.trans h) Bool.false_ne_true

theorem cfgw_keeps_log (hc : CanIssue s c) (hg : Enabled (s.core c) g) (h : isLogReg reg.toNat = true)
    (hm : Keeps reg.toNat m) (hoff : ((s.core c).cfgAt rLOGSTAT).getLsbD 63 = false) :
    exec (.cfgw g reg a) s = .next (issued s c 6 0 (keepBits reg.toNat m ((s.core c).sAt a.toNat))) := by
  obtain ⟨hsvec, hsret, hloop⟩ := separate_of_isLogReg h
  exact (exec_cfgw hc hg (fun h => absurd h (not_or.mpr ⟨hsvec, hsret⟩))
    (fun h => absurd (hloop.symm.trans h) Bool.false_ne_true) (fun _ => hoff)).trans
      (congrArg _ (issued_congr fun _ => cfgWrite_keeps hm _ _))

theorem cfgw_keeps_loop (hc : CanIssue s c) (hg : Enabled (s.core c) g) (h : isLoopReg reg.toNat = true)
    (hm : cfgMask reg.toNat = m) (hidle : lsRun (s.core c).lstat = false) :
    exec (.cfgw g reg a) s = .next (issued s c 6 0 (keepBits reg.toNat m ((s.core c).sAt a.toNat))) := by
  obtain ⟨hsvec, hsret, hlog, hf, hmon⟩ := separate_of_isLoopReg h
  exact (exec_cfgw hc hg (fun h => absurd h (not_or.mpr ⟨hsvec, hsret⟩)) (fun _ => hidle)
    (fun h => absurd (hlog.symm.trans h) Bool.false_ne_true)).trans
      (congrArg _ (issued_congr fun _ => cfgWrite_keeps ⟨hf, hmon, hm⟩ _ _))

end

/-! ## Shapes of tiles (R52) -/

theorem etypeOk_iff (et : Nat) : etypeOk et = true ↔ et = 0x00 ∨ et = 0x04 ∨ et = 0x0B := by
  simp [etypeOk, or_assoc]

/-- R52: a write of TSHAPEn, once nothing uses the tile. -/
theorem exec_tshapeWrite {s : State} {c : Nat} {g : Guard} {n : TileReg} {a : SReg} (hc : CanIssue s c)
    (hg : Enabled (s.core c) g) (hready : tileReady (s.core c) n.toNat = true) :
    exec (.tshapeWrite g n a) s = .next (issued s c 6 0 (fun k => tshapeWr k n.toNat ((s.core c).sAt a.toNat))) :=
  issueOne_core (x := semTshapeWrite g n a) hc rfl rfl (enabled_of rfl hg) hready rfl (fun _ => rfl) (fun _ => rfl)

section
variable {k : Core} {n : Nat} {v : W64}

theorem tshapeWr_unconf (h : gf v 12 3 = 0) : tshapeWr k n v = k.setCfg (rTSHAPE + n)
    (sf (sf (sf (sf (sf (sf (k.shape n) 23 1 0) 22 1 0) 21 1 0) 12 3 0) 10 2 (gf v 10 2)) 15 6
      (if etypeOk (gf v 15 6) then gf v 15 6 else shapeEtype (k.shape n))) :=
  if_pos h

/-- A configuration clears the guard plane, and the tile's bytes stay. -/
theorem tshapeWr_conf (h : 1 ≤ gf v 12 3 ∧ gf v 12 3 ≤ 4) (het : etypeOk (gf v 15 6) = true) : tshapeWr k n v =
    { k.setCfg (rTSHAPE + n) (sf (sf (sf (sf (sf (sf (k.shape n) 23 1 1) 22 1 0) 12 3 (gf v 12 3)) 10 2 (gf v 10 2))
        15 6 (gf v 15 6)) 21 1 (gf v 21 1)) with
      guard := mclear k.guard (guardKey n 0) 16384, saved := k.saved.filter (· != n) } :=
  (if_neg (Nat.one_le_iff_ne_zero.mp h.1)).trans (if_pos ⟨h.2, het⟩)

theorem tshapeWr_discarded (h : 4 < gf v 12 3 ∨ (gf v 12 3 ≠ 0 ∧ ¬ etypeOk (gf v 15 6) = true)) :
    tshapeWr k n v = k := by
  have hrows : gf v 12 3 ≠ 0 := by omega
  have hbad : ¬ (gf v 12 3 ≤ 4 ∧ etypeOk (gf v 15 6) = true) := fun hok =>
    h.elim (Nat.not_lt.mpr hok.1) (fun h => h.2 hok.2)
  exact (if_neg hrows).trans (if_neg hbad)

end

/-- Settles O9: a write is judged by the kind of its register, and keeps the bits of the register's mask; a write of
TSHAPE is one of three. -/
theorem configurationWrites : Obligations.ConfigurationWrites := by
  unfold Obligations.ConfigurationWrites
  refine ⟨?plain, ?tshape⟩
  case plain =>
    intro s c g reg a hc hg k v n keeps clears idle off
    have free {m : W64} (h : FreeReg n ∧ Keeps n m) : keeps m := cfgw_keeps_free hc hg h.1 h.2
    have log {m : W64} (h : isLogReg n = true ∧ Keeps n m) (ho : off) : keeps m := cfgw_keeps_log hc hg h.1 h.2 ho
    have service {m : W64} (h : (n = rSVEC ∨ n = rSRET) ∧ Keeps n m) (hp : k.priv = true) : keeps m :=
      cfgw_keeps_service hc hg h.1 h.2 hp
    refine ⟨fun hn => ?fstat, fun hn => ?monstat, fun hn => ?vrot, fun hn => ?qpred, fun hn => ?wtmo, fun hn => ?dbgmem,
      fun hn hp => ?svec, fun hn hp => ?sret, exec_cfgw_priv hc hg, fun hn ho => ?logcfg, fun hn ho => ?logb,
      fun hn ho => ?gmap, fun hn ho => ?logctl, fun hn hi => ?ldim, fun hn hi => ?itcfg, fun hn hi => ?iter,
      fun hn hi => ?loopctl, fun hn => free (freeReg_mon hn), fun hn => ?frzcnt, fun hn => free (keeps_fixedRegs n hn)⟩
    case fstat | monstat =>
      have hfree : FreeReg n := by rw [hn]; decide
      refine (exec_cfgw_free hc hg hfree).trans (congrArg _ (issued_congr fun _ => ?_))
      rw [show reg.toNat = _ from hn, hn]
      rfl
    case vrot | qpred | dbgmem | frzcnt => exact free (by rw [hn]; decide)
    case wtmo => exact free (by obtain hn | hn := hn <;> rw [hn] <;> decide)
    case svec | sret => exact service (by rw [hn]; decide) hp
    case logcfg | gmap => exact log (by rw [hn]; decide) ho
    case logb => exact log (by obtain hn | hn := hn <;> rw [hn] <;> decide) ho
    case logctl =>
      have hkind : ∀ r ∈ [rLOGCFG, rLOGB, rLOGL, rGMAP], isLogReg r = true := by decide
      exact exec_cfgw_logctl hc hg (hkind n hn) (Bool.not_eq_false _ ▸ ho)
    case ldim => exact cfgw_keeps_loop hc hg (isLoopReg_iff.mpr (.inl hn)) (cfgMask_ldim hn) hi
    case itcfg => exact cfgw_keeps_loop hc hg (isLoopReg_iff.mpr (.inr (by omega))) (cfgMask_itcfg hn) hi
    case iter => exact cfgw_keeps_loop hc hg (isLoopReg_iff.mpr (.inr (by omega))) (cfgMask_iter hn) hi
    case loopctl => exact exec_cfgw_loopctl hc hg (isLoopReg_iff.mpr hn) (Bool.not_eq_false _ ▸ hi)
  case tshape =>
    intro s c g n a hc hg k v r rows et allowed hready
    have hwrite := exec_tshapeWrite hc hg (a := a) hready
    have hallowed : etypeOk et = true ↔ allowed := etypeOk_iff et
    refine ⟨fun hrows hok => ?conf, fun hrows => ?unconf, fun hbad => ?discarded⟩
    case conf => exact hwrite.trans (congrArg _ (issued_congr fun _ => tshapeWr_conf hrows (hallowed.mpr hok)))
    case unconf => exact hwrite.trans (congrArg _ (issued_congr fun _ => tshapeWr_unconf hrows))
    case discarded =>
      refine hwrite.trans (congrArg _ (issued_congr fun _ => tshapeWr_discarded ?_))
      rwa [hallowed]

end Sys2Proof.Machine
end

section
/-! System entry, return and breakpoints (R96 to R98, R287, R335, R386). -/
namespace Sys2Proof.Machine

/-- A trap that follows its bundle's effect waits for nothing where no halt is in progress (R331). -/
theorem lateTrap_running {e : Env} {s : State} (h : (s.core e.c).halt = none) (t : Trap) : lateTrap e s t = none := by
  rw [lateTrap, h]

/-- Without a failed store a synchronising point does not stop (R381). -/
theorem failStop_none {e : Env} {s : State} (h : (s.core e.c).failures = []) (i : Instr) (slot : Nat) :
    failStop e s i slot = none := by
  simp [failStop, failureTrap, firstFailure, h]

section
variable {s : State} {c : Nat} {g : Guard} {imm : BitVec 16}

/-- R96, R386: SYS 0 ends the motif, with nothing out and nothing failed. -/
theorem exec_sys_ends (hc : CanIssue s c) (hg : Enabled (s.core c) g) (hrun : lsRun (s.core c).lstat = false)
    (hland : storesLanded (s.core c) .seq = true) (hnot : noticesOut s c = false) (hfail : (s.core c).failures = []) :
    exec (.sys g) s = .next (issued s c 6 0 (fun k => { k with ended := true })) := by
  have hready : (semSys g).ready (soloMarks s c (semSys g)) s = true := by
    change (lsRun (s.core c).lstat || (storesLanded (s.core c) .seq && !noticesOut s c)) = true
    rw [hrun, hland, hnot]
    rfl
  have hcheck : (semSys g).check (soloMarks s c (semSys g)) s = none := by
    change (if lsRun (s.core c).lstat then _ else _) = none
    rw [hrun]
    exact failStop_none hfail _ _
  exact issueOne_core (x := semSys g) hc rfl rfl (enabled_of rfl hg) hready hcheck (fun _ => rfl) (fun _ => rfl)

/-- R287. -/
theorem exec_sys_body (hc : CanIssue s c) (hg : Enabled (s.core c) g) (hrun : lsRun (s.core c).lstat = true) :
    exec (.sys g) s = .next (trapped s c 0 (.sys g) .loopctl) := by
  have hready : (semSys g).ready (soloMarks s c (semSys g)) s = true := by
    change (lsRun (s.core c).lstat || _) = true
    rw [hrun]
    rfl
  exact issueOne_traps (x := semSys g) hc rfl (enabled_of rfl hg) hready (if_pos hrun)

/-- The checks of a service call, in user mode and outside a body. -/
theorem checks_modes_pass {e : Env} {i : Instr} {b : Bool} (hb : b = false) (hrun : lsRun e.k.lstat = false) :
    e.checks i 0 [(b, .priv), (inBody e, .loopctl)] = none :=
  (checks_cons_false hb).trans (checks_single_false hrun)

theorem checks_modes_body {e : Env} {i : Instr} {b : Bool} (hb : b = false) (hrun : lsRun e.k.lstat = true) :
    e.checks i 0 [(b, .priv), (inBody e, .loopctl)] = some (.trap { e.trap i 0 with cause := .loopctl }) :=
  (checks_cons_false hb).trans (checks_single_true hrun)

theorem check_service (e : Env) : (semSysServiceCall g imm).check e s =
    firstSome [e.checks (.sysServiceCall g imm) 0 [(e.k.priv, .priv), (inBody e, .loopctl)],
      if svecEn e.k then none
      else lateTrap e s { e.trap (.sysServiceCall g imm) 0 with cause := .syscall, info := imm.toNat }] := rfl

theorem checks_service (hpriv : (s.core c).priv = false) (hrun : lsRun (s.core c).lstat = false) :
    (soloMarks s c (semSysServiceCall g imm)).checks (.sysServiceCall g imm) 0
      [((soloMarks s c (semSysServiceCall g imm)).k.priv, .priv),
       (inBody (soloMarks s c (semSysServiceCall g imm)), .loopctl)] = none :=
  checks_modes_pass hpriv hrun

/-- R96: a service call enters the routine of SVEC. -/
theorem exec_service_enters (hc : CanIssue s c) (hg : Enabled (s.core c) g) (hrun : lsRun (s.core c).lstat = false)
    (hpriv : (s.core c).priv = false) (hen : svecEn (s.core c) = true) :
    exec (.sysServiceCall g imm) s = .next (issued s c 6 0 (fun k =>
      (((k.setCfg rSRET (w64 (va57 ((s.core c).bpc + 6) / 2 * 2))).setCfg rSARG (imm.setWidth 64)).setCfg rMSTAT
        1).setBpc (gf ((s.core c).cfgAt rSVEC) 1 56 * 2))) := by
  refine issueOne_core (x := semSysServiceCall g imm) hc rfl rfl (enabled_of rfl hg) rfl ?check (fun _ => if_pos hen)
    (fun t => (if_pos hen).trans ?effect)
  case check =>
    rw [check_service, checks_service hpriv hrun, marked_k, solo_k, if_pos hen]
    rfl
  case effect =>
    exact State.modCore_modCore t c (fun k => ((k.setCfg rSRET _).setCfg rSARG _).setCfg rMSTAT 1) (·.setBpc _)

/-- R96: with no routine installed the bundle takes effect, and traps. -/
theorem exec_service_traps (hc : CanIssue s c) (hg : Enabled (s.core c) g) (hrun : lsRun (s.core c).lstat = false)
    (hpriv : (s.core c).priv = false) (hen : svecEn (s.core c) = false) (hhalt : (s.core c).halt = none) :
    exec (.sysServiceCall g imm) s = .next (raiseTrap (issued s c 6 0 id) c
      { cause := .syscall, slot := 0, baddr := (s.core c).bpc, w0 := (encWords (.sysServiceCall g imm)).1,
        info := imm.toNat }) := by
  have hoff : ¬ svecEn (s.core c) = true := by rw [hen]; exact Bool.false_ne_true
  have hcheck : (semSysServiceCall g imm).check (soloMarks s c (semSysServiceCall g imm)) s = none := by
    rw [check_service, checks_service hpriv hrun, marked_k, solo_k, if_neg hoff, lateTrap_running hhalt]
    rfl
  have heff : (semSysServiceCall g imm).eff (soloMarks s c (semSysServiceCall g imm)) = id := funext fun _ => if_neg hoff
  have h := issueC_post (x := semSysServiceCall g imm) hc rfl rfl (enabled_of rfl hg) rfl hcheck
  rw [heff, issuedBy_id] at h
  exact h.trans (congrArg _ (if_neg hoff))

theorem exec_service_checked {cause : Cause} (hc : CanIssue s c) (hg : Enabled (s.core c) g)
    (hstop : ∀ e : Env, e.k = s.core c → e.checks (.sysServiceCall g imm) 0 [(e.k.priv, .priv), (inBody e, .loopctl)] =
      some (.trap { e.trap (.sysServiceCall g imm) 0 with cause := cause })) :
    exec (.sysServiceCall g imm) s = .next (trapped s c 0 (.sysServiceCall g imm) cause) := by
  refine issueOne_traps (x := semSysServiceCall g imm) hc rfl (enabled_of rfl hg) rfl ?_
  rw [check_service, hstop _ rfl]
  rfl

/-- R97. -/
theorem exec_tret_returns (hc : CanIssue s c) (hg : Enabled (s.core c) g) (hpriv : (s.core c).priv = true)
    (hrun : lsRun (s.core c).lstat = false) : exec (.tret g) s = .next (issued s c 6 0 (fun k =>
      (k.setCfg rMSTAT 0).setBpc (gf ((s.core c).cfgAt rSRET) 1 56 * 2))) :=
  issueOne_core (x := semTret g) hc rfl rfl (enabled_of rfl hg) rfl (checks_modes_pass (congrArg not hpriv) hrun)
    (fun _ => rfl) (fun t => State.modCore_modCore t c (·.setCfg rMSTAT 0) (·.setBpc _))

theorem exec_tret_user (hc : CanIssue s c) (hg : Enabled (s.core c) g) (hpriv : (s.core c).priv = false) :
    exec (.tret g) s = .next (trapped s c 0 (.tret g) .priv) :=
  issueOne_traps (x := semTret g) hc rfl (enabled_of rfl hg) rfl (checks_cons_true (congrArg not hpriv))

theorem exec_tret_body (hc : CanIssue s c) (hg : Enabled (s.core c) g) (hpriv : (s.core c).priv = true)
    (hrun : lsRun (s.core c).lstat = true) : exec (.tret g) s = .next (trapped s c 0 (.tret g) .loopctl) :=
  issueOne_traps (x := semTret g) hc rfl (enabled_of rfl hg) rfl (checks_modes_body (congrArg not hpriv) hrun)

/-- R335: stepped over, BRK is a NOP. -/
theorem exec_brk_stepped (hc : CanIssue s c) (hg : Enabled (s.core c) g) (hstep : (s.core c).stepOver = true) :
    exec (.brk g imm) s = .next (issued s c 6 0 id) :=
  issueOne_id (x := semBrk g imm) hc rfl rfl (enabled_of rfl hg) rfl (if_pos hstep) (fun _ => rfl) (fun _ => rfl)

/-- R98: the record holds its number. -/
theorem exec_brk_traps (hc : CanIssue s c) (hg : Enabled (s.core c) g) (hstep : (s.core c).stepOver = false) :
    exec (.brk g imm) s = .next (raiseTrap s c { cause := .brk, slot := 0, baddr := (s.core c).bpc,
                                                 w0 := (encWords (.brk g imm)).1, info := imm.toNat }) :=
  issueOne_stops (x := semBrk g imm) hc rfl (enabled_of rfl hg) rfl (if_neg (Bool.not_eq_true _ ▸ hstep))

end

/-- Settles O17: entry and return are barred by their mode and by the body of a nest; BRK acts unless stepped over. -/
theorem systemCalls : Obligations.SystemCalls := by
  unfold Obligations.SystemCalls
  refine ⟨fun s c g imm hc hg => ?entry, fun s c g imm hc hg => ?back⟩
  case entry =>
    intro k next i
    refine ⟨fun hrun => ⟨exec_sys_ends hc hg hrun, exec_service_enters hc hg hrun, exec_service_traps hc hg hrun⟩,
      fun hpriv => exec_service_checked hc hg fun e he => ?priv,
      fun hrun hpriv => exec_service_checked hc hg fun e he => ?body, exec_sys_body hc hg⟩
    case priv => exact checks_cons_true (by rw [he]; exact hpriv)
    case body => exact checks_modes_body (by rw [he]; exact hpriv) (by rw [he]; exact hrun)
  case back =>
    exact ⟨exec_tret_returns hc hg, exec_tret_user hc hg, exec_tret_body hc hg, exec_brk_stepped hc hg,
      exec_brk_traps hc hg⟩

end Sys2Proof.Machine
end

section
/-! WAITS: its watched word, its timeout and its record (R86). -/
namespace Sys2Proof.Machine

/-- What the condition of WAITS says of the word and of sb. -/
theorem waitCc_iff (cc : WaitCc) (x y : W64) : waitCc cc x y = true ↔
    match cc with
    | .eq => x = y | .ne => x ≠ y | .geu => y ≤ x | .ltu => x < y := by
  cases cc
  case eq => exact beq_iff_eq
  case ne => exact bne_iff_ne
  case geu => simp [waitCc]
  case ltu => exact decide_eq_true_iff

section
variable {s : State} {c : Nat} {g : Guard} {cc : WaitCc} {scope : Scope} {b a : SReg} {qd : PReg} {tr : Trans} {ad : Nat}
  {n : Nat} {l : List SlotSem} {i : Instr}

theorem waitsRead_readable (had : ((s.core c).sAt a.toNat).toNat % 2 ^ 57 = ad) (hal : ad % 8 = 0)
    (hread : GmReadable s c tr ad 8) :
    waitsRead (marked (solo s c n) l) s i a = .bytes (gmFound s c tr ad 8) := by
  simp only [waitsRead, rdScal_marked, gf_zero, had, hal, ne_eq, not_true_eq_false, if_false, marked_c, solo_c,
    marked_who, solo_who, gmLoad_readable hread]

theorem waitsRead_misaligned (hw : (encWords i).2 = 0) (had : ((s.core c).sAt a.toNat).toNat % 2 ^ 57 = ad)
    (hal : ad % 8 ≠ 0) : waitsRead (marked (solo s c n) l) s i a =
      .stop (.trap { cause := .dalign, slot := 0, baddr := (s.core c).bpc, faddr := ad, w0 := (encWords i).1 }) := by
  simp only [waitsRead, rdScal_marked, gf_zero, had, ne_eq, hal, not_false_eq_true, if_true, trap_oneWord hw]

theorem waitsRead_passed (len : Nat) :
    waitsRead (marked (solo s c n) l) (passed s c len) i a = waitsRead (marked (solo s c n) l) s i a := by
  simp only [waitsRead, marked_c, solo_c, gmLoad_passed]

theorem waitsHolds_passed (len : Nat) :
    waitsHolds (marked (solo s c n) l) (passed s c len) i cc b a = waitsHolds (marked (solo s c n) l) s i cc b a := by
  simp only [waitsHolds, waitsRead_passed, marked_c, solo_c, core_passed]
  rfl

/-- The wait is over with its condition once nothing that the read must follow is out. -/
theorem waitsHolds_bytes {bs : List Byte} (h : waitsRead (marked (solo s c n) l) s i a = .bytes bs) :
    waitsHolds (marked (solo s c n) l) s i cc b a = (clearOf (s.core c) (loadDeps (s.core c) .seq 0) &&
      ((s.core c).waitsHeld || waitCc cc (w64 (leNat bs)) ((s.core c).sAt b.toNat))) := by
  rw [waitsHolds, h]
  rfl

theorem ready_waits (e : Env) (s : State) : (semWaits g cc scope b a qd).ready e s =
    ((rdStop (waitsRead e s (.waits g cc scope b a qd) a)).isSome || waitsHolds e s (.waits g cc scope b a qd) cc b a ||
      waitsElapsed (s.core e.c)) := rfl

theorem check_waits (e : Env) (s : State) : (semWaits g cc scope b a qd).check e s =
    match rdStop (waitsRead e s (.waits g cc scope b a qd) a) with
    | some st => some st
    | none =>
      if waitsHolds e s (.waits g cc scope b a qd) cc b a then failStop e s (.waits g cc scope b a qd) 0 else none := rfl

theorem eff_waits {t : State} {held : Bool} (had : ((s.core c).sAt a.toNat).toNat % 2 ^ 57 = ad)
    (h : waitsHolds (soloMarks s c (semWaits g cc scope b a qd)) t (.waits g cc scope b a qd) cc b a = held) :
    (semWaits g cc scope b a qd).eff (soloMarks s c (semWaits g cc scope b a qd)) t =
      (if held then (afterRead t c .seq ad 8 false .read).modCore c (Core.dropAhead .seq)
        else forgetReq t c (.load c (some .seq) ad 8)).modCore c (·.setQ qd.toNat held) := by
  subst had h
  rfl

/-- R86: with its condition the bundle issues. -/
theorem exec_waits_holds (hc : CanIssue s c) (hg : Enabled (s.core c) g)
    (had : ((s.core c).sAt a.toNat).toNat % 2 ^ 57 = ad) (hal : ad % 8 = 0) (hread : GmReadable s c tr ad 8)
    (hcond : waitCc cc (w64 (leNat (gmFound s c tr ad 8))) ((s.core c).sAt b.toNat) = true ∨ (s.core c).waitsHeld = true)
    (hclear : clearOf (s.core c) (loadDeps (s.core c) .seq 0) = true) (hfail : (s.core c).failures = []) :
    exec (.waits g cc scope b a qd) s = .next (issued s c 6 0 (fun k =>
      (((k.keepTrans tr).dropReply (.load c (some .seq) ad 8)).dropAhead .seq).setQ qd.toNat true)) := by
  have hword : waitsRead (soloMarks s c (semWaits g cc scope b a qd)) s (.waits g cc scope b a qd) a = _ :=
    waitsRead_readable had hal hread
  have hholds : waitsHolds (soloMarks s c (semWaits g cc scope b a qd)) s (.waits g cc scope b a qd) cc b a = true := by
    rw [waitsHolds_bytes hword, hclear, Bool.true_and, Bool.or_eq_true]
    exact hcond.symm
  refine issueC_mod (x := semWaits g cc scope b a qd) hc rfl rfl (enabled_of rfl hg) ?ready ?check (fun _ => rfl) ?effect
  case ready => rw [ready_waits, hholds, Bool.or_true, Bool.true_or]
  case check =>
    rw [check_waits, hword, hholds]
    exact failStop_none hfail _ _
  case effect =>
    rw [eff_waits had ((waitsHolds_passed 6).trans hholds), if_pos rfl, afterRead_passed hread.1,
      State.modCore_modCore, State.modCore_modCore]

/-- R86: once its time is over the bundle issues without its condition. -/
theorem exec_waits_elapsed (hc : CanIssue s c) (hg : Enabled (s.core c) g)
    (had : ((s.core c).sAt a.toNat).toNat % 2 ^ 57 = ad) (hal : ad % 8 = 0) (hread : GmReadable s c tr ad 8)
    (hcond : waitCc cc (w64 (leNat (gmFound s c tr ad 8))) ((s.core c).sAt b.toNat) = false)
    (hheld : (s.core c).waitsHeld = false) (hdue : waitsElapsed (s.core c) = true) :
    exec (.waits g cc scope b a qd) s = .next (issuedBy s c 6 0 (fun t =>
      (forgetReq t c (.load c (some .seq) ad 8)).modCore c (·.setQ qd.toNat false))) := by
  have hword : waitsRead (soloMarks s c (semWaits g cc scope b a qd)) s (.waits g cc scope b a qd) a = _ :=
    waitsRead_readable had hal hread
  have hholds : waitsHolds (soloMarks s c (semWaits g cc scope b a qd)) s (.waits g cc scope b a qd) cc b a = false := by
    rw [waitsHolds_bytes hword, hheld, hcond, Bool.or_self, Bool.and_false]
  refine (issueC_by (x := semWaits g cc scope b a qd) hc rfl rfl (enabled_of rfl hg) ?ready ?check (fun _ => rfl)).trans ?_
  case ready => rw [ready_waits, marked_c, solo_c, hdue, Bool.or_true]
  case check =>
    rw [check_waits, hword, hholds]
    rfl
  refine congrArg _ (issuedBy_congr ?_)
  rw [eff_waits had ((waitsHolds_passed 6).trans hholds), if_neg Bool.false_ne_true]

theorem exec_waits_misaligned (hc : CanIssue s c) (hg : Enabled (s.core c) g)
    (had : ((s.core c).sAt a.toNat).toNat % 2 ^ 57 = ad) (hal : ad % 8 ≠ 0) :
    exec (.waits g cc scope b a qd) s = .next (raiseTrap s c
      { cause := .dalign, slot := 0, baddr := (s.core c).bpc, faddr := ad,
        w0 := (encWords (.waits g cc scope b a qd)).1 }) := by
  have hword : waitsRead (soloMarks s c (semWaits g cc scope b a qd)) s (.waits g cc scope b a qd) a = _ :=
    waitsRead_misaligned rfl had hal
  refine issueOne_stops (st := .trap _) (x := semWaits g cc scope b a qd) hc rfl (enabled_of rfl hg) ?ready ?check
  case ready =>
    rw [ready_waits, hword]
    rfl
  case check => rw [check_waits, hword]; rfl

end

/-- The time of a WAITS is over WTMO.CYCLES cycles after its count began. -/
theorem waitsElapsed_of_cycles {k : Core} {f : Nat} (hwtmo : gf (k.cfgAt rWTMO) 0 32 ≠ 0) (hfrom : k.waitsFrom = some f)
    (hcycles : gf (k.cfgAt rWTMO) 0 32 ≤ k.cycles - f) : waitsElapsed k = true := by
  have hn : (gf (k.cfgAt rWTMO) 0 32 != 0) = true := bne_iff_ne.mpr hwtmo
  simp only [waitsElapsed, hfrom, hn, decide_eq_true hcycles, Bool.and_self, Bool.or_true]

/-- Settles O11: the word decides, and then the time. -/
theorem waitsForMemory : Obligations.WaitsForMemory := by
  unfold Obligations.WaitsForMemory
  refine ⟨?word, ?timeout⟩
  case word =>
    intro s c g cc scope b a qd tr hc hg k ad y x true' who
    refine ⟨fun hal hx hloc hviol hcxl hpois hdup => ⟨fun hcond hclear hfail => ?holds, fun hcond hheld hdue => ?elapsed⟩,
      exec_waits_misaligned hc hg rfl⟩
    case holds =>
      have hcc : true' ↔ waitCc cc x y = true := (waitCc_iff cc x y).symm
      rw [hcc] at hcond
      exact exec_waits_holds hc hg rfl hal ⟨hx, hloc, hviol, hcxl, hpois, hdup⟩ hcond hclear hfail
    case elapsed =>
      have hcc : true' ↔ waitCc cc x y = true := (waitCc_iff cc x y).symm
      rw [hcc, Bool.not_eq_true] at hcond
      exact exec_waits_elapsed hc hg rfl hal ⟨hx, hloc, hviol, hcxl, hpois, hdup⟩ hcond hheld hdue
  case timeout =>
    intro s c f hwtmo hfrom hcycles
    exact congrArg _ (if_pos (waitsElapsed_of_cycles hwtmo hfrom hcycles))

end Sys2Proof.Machine
end

section
/-! LAUNCH enqueues a record, and BIND binds an opcode to an image (R71, R92, R93, R141). -/
namespace Sys2Proof.Machine

/-! ## LAUNCH (R92) -/

/-- A record that joins the device's queue, beside a change of one core. -/
theorem issuedBy_enqueue {s : State} {c len w seq : Nat} {q : List DevRec} {f : Core → Core} :
    issuedBy s c len w (fun t => { t with devSeq := seq, devQueue := q }.modCore c f) =
      { issued s c len w f with devSeq := seq, devQueue := q } := by
  rw [← issuedBy_core]
  rfl

/-- A range that may be read and written by its core has no stop for a store. -/
theorem gmStoreStop_of_exists {s : State} {c va n : Nat} {a : Acc}
    (h : ∃ tr, xlate s c va a = .ok tr ∧ (tr.loc ≠ 2 → violates s (s.core c).ctx (tr.pa va) n = false)) (t : Trap) :
    gmStoreStop s c va n a t = none := by
  obtain ⟨tr, hx, hviol⟩ := h
  exact gmStoreStop_ok hx hviol t

section
variable {s : State} {c : Nat} {g : Guard} {dep : Bool} {b a d : SReg} {ad : Nat}

theorem check_launch (had : ((s.core c).sAt a.toNat).toNat % 2 ^ 57 = ad) :
    (semLaunch g dep b a d).check (soloMarks s c (semLaunch g dep b a d)) s =
      if ad % 64 ≠ 0 then some (.trap { cause := .dalign, slot := 0, baddr := (s.core c).bpc, faddr := ad,
                                        w0 := (encWords (.launch g dep b a d)).1 })
      else firstSome
        [gmStoreStop s c ad 64 .read ((soloMarks s c (semLaunch g dep b a d)).trap (.launch g dep b a d) 0),
         gmStoreStop s c ad 64 .write ((soloMarks s c (semLaunch g dep b a d)).trap (.launch g dep b a d) 0),
         gmStoreStop s c (va57 (ad + 64)) 64 .read ((soloMarks s c (semLaunch g dep b a d)).trap (.launch g dep b a d) 0),
         gmStoreStop s c (va57 (ad + 64)) 64 .write
           ((soloMarks s c (semLaunch g dep b a d)).trap (.launch g dep b a d) 0)] := by
  subst had
  rfl

/-- R92: the token of the next launch from the device. -/
def launchToken (s : State) : W64 := w64 (s.dev * 2 ^ 54 + 63 * 2 ^ 48 + (s.devSeq + 1) % 2 ^ 48)

theorem exec_launch_enqueues (hc : CanIssue s c) (hg : Enabled (s.core c) g) (hroom : s.devQueue.length < 256)
    (hland : storesLanded (s.core c) .seq = true) (had : ((s.core c).sAt a.toNat).toNat % 2 ^ 57 = ad)
    (hal : ad % 64 = 0)
    (hpages : ∀ p ∈ [ad, (ad + 64) % 2 ^ 57], ∀ acc ∈ [Acc.read, Acc.write], ∃ tr, xlate s c p acc = .ok tr ∧
      (tr.loc ≠ 2 → violates s (s.core c).ctx (tr.pa p) 64 = false)) :
    exec (.launch g dep b a d) s = .next
      { issued s c 6 0 (·.setS d.toNat (launchToken s)) with
        devSeq := (s.devSeq + 1) % 2 ^ 48,
        devQueue := s.devQueue ++ [{ addr := ad, ctx := (s.core c).ctx, token := launchToken s,
                                     dep := if dep then (s.core c).sAt b.toNat else 0, priv := (s.core c).priv,
                                     motif := (s.core c).motif.getD 0, ids := outstandingOf (s.core c) }] } := by
  have hstop (p : Nat) (hp : p ∈ [ad, (ad + 64) % 2 ^ 57]) (acc : Acc) (ha : acc ∈ [Acc.read, Acc.write]) (t : Trap) :
      gmStoreStop s c p 64 acc t = none := gmStoreStop_of_exists (hpages p hp acc ha) t
  have hcheck : (semLaunch g dep b a d).check (soloMarks s c (semLaunch g dep b a d)) s = none := by
    have hnext : va57 (ad + 64) ∈ [ad, (ad + 64) % 2 ^ 57] := List.mem_pair.mpr (.inr rfl)
    rw [check_launch had, if_neg (by simp [hal]), hstop ad (by simp) .read (by simp), hstop ad (by simp) .write (by simp),
      hstop _ hnext .read (by simp), hstop _ hnext .write (by simp)]
    rfl
  have hready : (semLaunch g dep b a d).ready (soloMarks s c (semLaunch g dep b a d)) s = true :=
    Bool.and_eq_true _ _ ▸ ⟨decide_eq_true hroom, hland⟩
  subst had
  rw [← issuedBy_enqueue]
  refine (issueC_by (x := semLaunch g dep b a d) hc rfl rfl (enabled_of rfl hg) hready hcheck (fun _ => rfl)).trans ?_
  refine congrArg _ (issuedBy_congr ?_)
  have hids : outstandingOf ((passed s c 6).core c) = outstandingOf (s.core c) := by
    rw [core_passed]
    rfl
  rw [← hids]
  rfl

theorem exec_launch_misaligned (hc : CanIssue s c) (hg : Enabled (s.core c) g) (hroom : s.devQueue.length < 256)
    (hland : storesLanded (s.core c) .seq = true) (had : ((s.core c).sAt a.toNat).toNat % 2 ^ 57 = ad)
    (hal : ad % 64 ≠ 0) :
    exec (.launch g dep b a d) s = .next (raiseTrap s c
      { cause := .dalign, slot := 0, baddr := (s.core c).bpc, faddr := ad,
        w0 := (encWords (.launch g dep b a d)).1 }) := by
  have hready : (semLaunch g dep b a d).ready (soloMarks s c (semLaunch g dep b a d)) s = true :=
    Bool.and_eq_true _ _ ▸ ⟨decide_eq_true hroom, hland⟩
  exact issueOne_stops (st := .trap _) (x := semLaunch g dep b a d) hc rfl (enabled_of rfl hg) hready
    ((check_launch had).trans (if_pos hal))

end

/-! ## BIND (R71, R93, R141) -/

theorem mayBind_iff {priv : Bool} {o : Nat} :
    mayBind priv o = true ↔ 0x70 ≤ o ∨ (priv = true ∧ 0x20 ≤ o ∧ o < 0x68) := by
  simp [mayBind]

section
variable {s : State} {c : Nat} {g : Guard} {topc : BitVec 7} {a d : SReg} {ad : Nat} {tr : Trans} {l : List SlotSem}
  {i : Instr} {n : Nat} {t : State} {bs : List Byte}

theorem bindRead_refused (h : mayBind (s.core c).priv topc.toNat = false) :
    bindRead (marked (solo s c n) l) t i topc a = none := by
  simp only [bindRead, marked_k, solo_k, h, Bool.not_false, Bool.true_or, if_true]

theorem bindRead_readable (hmay : mayBind (s.core c).priv topc.toNat = true)
    (had : ((s.core c).sAt a.toNat).toNat % 2 ^ 57 = ad) (hal : ad % 32 = 0) (hread : GmReadable s c tr ad 32) :
    bindRead (marked (solo s c n) l) s i topc a = some (.bytes (gmFound s c tr ad 32)) := by
  simp only [bindRead, marked_k, solo_k, hmay, rdScal_marked, gf_zero, had, hal, ne_eq, not_true_eq_false,
    Bool.not_true, decide_false, Bool.or_self, Bool.false_eq_true, if_false, marked_c, solo_c, marked_who, solo_who,
    gmLoad_readable hread]

theorem bindRead_passed (len : Nat) : bindRead (marked (solo s c n) l) (passed s c len) i topc a =
    bindRead (marked (solo s c n) l) s i topc a := by
  simp only [bindRead, marked_c, solo_c, gmLoad_passed]

/-- The core after the read of an image. -/
def imageRead (c : Nat) (tr : Trans) (ad : Nat) (k : Core) : Core :=
  ((k.keepTrans tr).dropReply (.load c (some .seq) ad 32)).loadPast .seq 0 .gm ad 32

/-- The core with an opcode bound to the image of some bytes. -/
def bindOpcode (o : Nat) (bs : List Byte) (k : Core) : Core :=
  { k with prick := mset k.prick o (boundEntry o (prickParse (word8 bs 0) (word8 bs 1) (word8 bs 2))) }

theorem prick_imageRead (k : Core) : (imageRead c tr ad k).prick = k.prick := by
  unfold imageRead Core.keepTrans
  split <;> rfl

/-- The read of an image leaves the bindings for it to change. -/
theorem bindOpcode_imageRead (o : Nat) (k : Core) : bindOpcode o bs (imageRead c tr ad k) =
    { imageRead c tr ad k with
      prick := mset k.prick o (boundEntry o (prickParse (word8 bs 0) (word8 bs 1) (word8 bs 2))) } := by
  rw [bindOpcode, prick_imageRead]

section
variable {e : Env} {r : Option Rd} (h : bindRead e t (.bind g topc a d) topc a = r)
include h

theorem ready_bind : (semBind g topc a d).ready e t = (r.map (rdReady (t.core e.c) e.who 0)).getD true := by
  subst h
  simp only [semBind]
  cases bindRead e t (.bind g topc a d) topc a <;> rfl

theorem check_bind : (semBind g topc a d).check e t = r.bind rdStop := by
  subst h
  rfl

end

/-- What BIND leaves where there is no image to read. -/
theorem eff_bind_none {e : Env} (h : bindRead e t (.bind g topc a d) topc a = none) :
    (semBind g topc a d).eff e t = wrScal e t d (if mayBind e.k.priv topc.toNat then 3 else 1) := by
  simp only [semBind, h]

/-- What BIND leaves where it has read an image. -/
theorem eff_bind_bytes {e : Env} (h : bindRead e t (.bind g topc a d) topc a = some (.bytes bs)) :
    (semBind g topc a d).eff e t =
      let st := bindStatus e.k.priv topc.toNat (word8 bs 0) (word8 bs 1) (word8 bs 2) (word8 bs 3)
      let s1 := (afterRead t e.c e.who (gf (rdScal e a) 0 57) 32 false .read).modCore e.c
        (Core.loadPast e.who 0 .gm (gf (rdScal e a) 0 57) 32)
      wrScal e (if st = 0 then s1.modCore e.c (bindOpcode topc.toNat bs) else s1) d (w64 st) := by
  simp only [semBind, h]
  rfl

/-- The same, past its bundle, on the core alone. -/
theorem eff_bind_passed {st : Nat} (had : ((s.core c).sAt a.toNat).toNat % 2 ^ 57 = ad) (hx : xlate s c ad .read = .ok tr)
    (h : bindRead (soloMarks s c (semBind g topc a d)) s (.bind g topc a d) topc a = some (.bytes bs))
    (hst : bindStatus (s.core c).priv topc.toNat (word8 bs 0) (word8 bs 1) (word8 bs 2) (word8 bs 3) = st) :
    (semBind g topc a d).eff (soloMarks s c (semBind g topc a d)) (passed s c 6) = (passed s c 6).modCore c (fun k =>
      (if st = 0 then bindOpcode topc.toNat bs (imageRead c tr ad k) else imageRead c tr ad k).setS d.toNat (w64 st)) := by
  rw [eff_bind_bytes ((bindRead_passed 6).trans h), marked_k, solo_k, hst, rdScal_marked, gf_zero, had, marked_c,
    solo_c, marked_who, solo_who, afterRead_passed hx]
  dsimp only
  rw [wrScal_seq _ rfl, marked_c, solo_c]
  by_cases h0 : st = 0
  case pos => simp only [h0, if_true, State.modCore_modCore, imageRead]
  case neg => simp only [h0, if_false, State.modCore_modCore, imageRead]

/-- R71: a refused opcode gives status 1, and nothing is read. -/
theorem exec_bind_refused (hc : CanIssue s c) (hg : Enabled (s.core c) g)
    (hmay : mayBind (s.core c).priv topc.toNat = false) :
    exec (.bind g topc a d) s = .next (issued s c 6 0 (·.setS d.toNat 1)) := by
  have hnone (t : State) : bindRead (soloMarks s c (semBind g topc a d)) t (.bind g topc a d) topc a = none :=
    bindRead_refused hmay
  refine issueOne_core (x := semBind g topc a d) hc rfl rfl (enabled_of rfl hg) (ready_bind (hnone s))
    (check_bind (hnone s)) (fun _ => rfl) (fun t => (eff_bind_none (hnone t)).trans ?_)
  rw [marked_k, solo_k, hmay]
  rfl

/-- The image of an opcode that may be bound is read, and its status decides what the bundle leaves. -/
theorem exec_bind_reads {st : Nat} (hc : CanIssue s c) (hg : Enabled (s.core c) g)
    (hmay : mayBind (s.core c).priv topc.toNat = true) (had : ((s.core c).sAt a.toNat).toNat % 2 ^ 57 = ad)
    (hal : ad % 32 = 0) (hread : GmReadable s c tr ad 32)
    (hclear : clearOf (s.core c) (loadDeps (s.core c) .seq 0) = true) (hbs : gmFound s c tr ad 32 = bs)
    (hst : (if imageBad topc.toNat (word8 bs 0) (word8 bs 1) (word8 bs 2) (word8 bs 3) then 2 else 0) = st) :
    exec (.bind g topc a d) s = .next (issued s c 6 0 (fun k =>
      (if st = 0 then bindOpcode topc.toNat bs (imageRead c tr ad k) else imageRead c tr ad k).setS d.toNat
        (w64 st))) := by
  have himage : bindRead (soloMarks s c (semBind g topc a d)) s (.bind g topc a d) topc a = some (.bytes bs) :=
    hbs ▸ bindRead_readable hmay had hal hread
  have hstatus : bindStatus (s.core c).priv topc.toNat (word8 bs 0) (word8 bs 1) (word8 bs 2) (word8 bs 3) = st := by
    rw [bindStatus, hmay, ← hst]
    rfl
  exact issueC_mod (x := semBind g topc a d) hc rfl rfl (enabled_of rfl hg) ((ready_bind himage).trans hclear)
    (check_bind himage) (fun _ => rfl) (eff_bind_passed had hread.1 himage hstatus)

end

/-- Settles O14: the record and its token are those of the device's queue; the mode, and then the image, decide the
status of BIND. -/
theorem launchAndBind : Obligations.LaunchAndBind := by
  unfold Obligations.LaunchAndBind
  refine ⟨?launch, ?bind⟩
  case launch =>
    intro s c g dep b a d hc hg k ad seq tok hroom hland
    exact ⟨exec_launch_enqueues hc hg hroom hland rfl, exec_launch_misaligned hc hg hroom hland rfl⟩
  case bind =>
    intro s c g topc a d tr hc hg k o ad bs w may
    have hmay : mayBind k.priv o = true ↔ may := mayBind_iff
    refine ⟨fun hno => exec_bind_refused hc hg (Bool.not_eq_true _ ▸ mt hmay.mp hno), ?allowed⟩
    intro hyes hal hx hloc hviol hcxl hpois hdup hclear read
    have status (st : Nat) := exec_bind_reads (st := st) (d := d) hc hg (hmay.mpr hyes) rfl hal
      ⟨hx, hloc, hviol, hcxl, hpois, hdup⟩ hclear rfl
    refine ⟨fun hbad => status 2 (if_pos hbad), fun hok => ?_⟩
    refine (status 0 (if_neg (Bool.not_eq_true _ ▸ hok))).trans (congrArg _ (issued_congr fun _ => ?_))
    exact congrArg (Core.setS · d.toNat 0) (bindOpcode_imageRead _ _)

end Sys2Proof.Machine
end

section
/-! Recording, monitors and UNPICK (R94, R95, R287, R293, R296, R297, R301, R317). -/
namespace Sys2Proof.Machine

/-! ## Recording (R94, R301) -/

/-- R301: the log registers are in order. -/
abbrev LogFits (k : Core) : Prop :=
  gf (k.cfgAt rLOGB) 6 51 ≤ gf (k.cfgAt rLOGP) 6 51 ∧ gf (k.cfgAt rLOGP) 6 51 ≤ gf (k.cfgAt rLOGL) 6 51 ∧
    (gf (k.cfgAt rLOGL) 6 51 - gf (k.cfgAt rLOGB) 6 51) * 64 ≤ 128 * 2 ^ 20

section
variable {s : State} {c : Nat} {g : Guard}

theorem check_recon_iff :
    (semRecon g).check (soloMarks s c (semRecon g)) s = (soloMarks s c (semRecon g)).checks (.recon g) 0
      [(!((s.core c).cfgAt rLOGSTAT).getLsbD 63 && !decide (LogFits (s.core c)), .logparam)] := rfl

theorem exec_recon_starts (hc : CanIssue s c) (hg : Enabled (s.core c) g)
    (hoff : ((s.core c).cfgAt rLOGSTAT).getLsbD 63 = false) (hfits : LogFits (s.core c)) :
    exec (.recon g) s = .next (issued s c 6 0 (fun k =>
      { k.modCfg rLOGSTAT (fun w => sf w 63 1 1) with producers := [] })) := by
  have hon : ¬ recNow (soloMarks s c (semRecon g)) = true := by
    change ¬ ((s.core c).cfgAt rLOGSTAT).getLsbD 63 = true
    rw [hoff]
    exact Bool.false_ne_true
  refine issueOne_core (x := semRecon g) hc rfl rfl (enabled_of rfl hg) rfl ?check (fun _ => rfl) (fun t => if_neg hon)
  rw [check_recon_iff, decide_eq_true hfits]
  exact checks_single_false (Bool.and_false _)

theorem exec_recon_on (hc : CanIssue s c) (hg : Enabled (s.core c) g)
    (hon : ((s.core c).cfgAt rLOGSTAT).getLsbD 63 = true) : exec (.recon g) s = .next (issued s c 6 0 id) := by
  refine issueOne_id (x := semRecon g) hc rfl rfl (enabled_of rfl hg) rfl ?check (fun _ => rfl) (fun t => if_pos hon)
  rw [check_recon_iff, hon]
  rfl

theorem exec_recon_logparam (hc : CanIssue s c) (hg : Enabled (s.core c) g)
    (hoff : ((s.core c).cfgAt rLOGSTAT).getLsbD 63 = false) (hfits : ¬ LogFits (s.core c)) :
    exec (.recon g) s = .next (trapped s c 0 (.recon g) .logparam) := by
  refine issueOne_traps (x := semRecon g) hc rfl (enabled_of rfl hg) rfl ?check
  rw [check_recon_iff, hoff, decide_eq_false hfits]
  rfl

theorem exec_recoff (hc : CanIssue s c) (hg : Enabled (s.core c) g) :
    exec (.recoff g) s = .next (issued s c 6 0 (·.modCfg rLOGSTAT (fun w => sf w 63 1 0))) :=
  issueOne_core (x := semRecoff g) hc rfl rfl (enabled_of rfl hg) rfl rfl (fun _ => rfl) (fun _ => rfl)

end

/-! ## What the end of a body bundle leaves of the registers (R286) -/

section
variable {k : Core} {n : Nat}

theorem Core.cfgAt_setQ_other (h : n ≠ rQPRED) (m : Nat) (b : Bool) : (k.setQ m b).cfgAt n = k.cfgAt n :=
  Core.cfgAt_setCfg_other _ _ h

/-- Changes that leave a register alone leave it so one after the other. -/
theorem cfgAt_foldl {α : Type} {f : Core → α → Core} (hf : ∀ k a, (f k a).cfgAt n = k.cfgAt n) (l : List α)
    (k : Core) : (l.foldl f k).cfgAt n = k.cfgAt n := by
  induction l generalizing k with
  | nil => rfl
  | cons a l ih => rw [List.foldl_cons, ih, hf]

theorem cfgAt_startPass (h : n ≠ rQPRED) (p : Nat) : (startPass k p).cfgAt n = k.cfgAt n := by
  unfold startPass
  rw [cfgAt_foldl (fun k st => Core.cfgAt_setQ_other h _ _), cfgAt_foldl (fun k i => ?_)]
  dsimp only
  split <;> rfl

/-- The nest moves its own registers, the rotation base and the stage predicates, and no other. -/
theorem cfgAt_loopEnd (h : n ∉ [rLSTAT, rLPASS, rVROT, rQPRED]) (next : Nat) :
    (loopEnd k next).cfgAt n = k.cfgAt n := by
  simp only [List.mem_cons, List.not_mem_nil, or_false, not_or] at h
  obtain ⟨hstat, hpass, hrot, hq⟩ := h
  unfold loopEnd
  dsimp only
  split
  · exact Core.cfgAt_setCfg_other _ _ hstat
  generalize hrotated : (if lsRot k.lstat = true then k.modCfg rVROT _ else k) = k1
  have hk1 : k1.cfgAt n = k.cfgAt n := by
    rw [← hrotated]
    split
    · exact Core.cfgAt_setCfg_other _ _ hrot
    · rfl
  split
  · refine (Core.cfgAt_setCfg_other _ _ hstat).trans ?_
    rw [cfgAt_foldl (fun k st => Core.cfgAt_setQ_other hq _ _), hk1]
  · refine (cfgAt_startPass hq _).trans ?_
    rw [Core.cfgAt_setCfg_other _ _ hstat, Core.cfgAt_setCfg_other _ _ hpass, hk1]

theorem cfgAt_nestEnd (h : n ∉ [rLSTAT, rLPASS, rVROT, rQPRED]) (running : Bool) (next : Nat) :
    (nestEnd running next k).cfgAt n = k.cfgAt n := by
  unfold nestEnd
  split
  · exact cfgAt_loopEnd h next
  · rfl

/-- Of every other register a bundle leaves what its slot made of it. -/
theorem cfgAt_issuedCore (h : n ∉ [rLSTAT, rLPASS, rVROT, rQPRED]) (len w : Nat) (f : Core → Core) :
    (issuedCore k len w f).cfgAt n = (f (k.setBpc (va57 (k.bpc + len)))).cfgAt n :=
  cfgAt_nestEnd h _ _

end

/-! ## Monitors (R95, R296, R297) -/

theorem cfgAt_monCheck_setBpc (k : Core) (a m n : Nat) :
    (monCheck (k.setBpc a) m (monSum (k.setBpc a) m)).cfgAt n = (monCheck k m (monSum k m)).cfgAt n := by
  have hpass : monPasses (k.setBpc a) m (monSum (k.setBpc a) m) = monPasses k m (monSum k m) := rfl
  have hmode : (k.setBpc a).cfgAt (rMON + 8 * m) = k.cfgAt (rMON + 8 * m) := rfl
  unfold monCheck
  rw [hpass, hmode]
  dsimp only
  split <;> rfl

section
variable {s : State} {c : Nat} {g : Guard} {m : BitVec 2}

/-- The device after a check of a monitor. -/
abbrev monChecked (s : State) (c m : Nat) : State := issued s c 6 0 (fun k => monCheck k m (monSum k m))

/-- What the check leaves in MONSTAT is what it finds before the bundle. -/
theorem monstat_monChecked (m : Nat) : ((monChecked s c m).core c).cfgAt rMONSTAT =
    (monCheck (s.core c) m (monSum (s.core c) m)).cfgAt rMONSTAT := by
  unfold monChecked issued
  rw [State.core_setCore, cfgAt_issuedCore (by decide), cfgAt_monCheck_setBpc]

theorem check_monsetArm (e : Env) : (semMonsetArm g m).check e s =
    e.checks (.monsetArm g m) 0 [(monBad (s.core e.c) m.toNat, .monparam)] := by
  rw [semMonsetArm]

theorem exec_monsetArm (hc : CanIssue s c) (hg : Enabled (s.core c) g) (hland : storesLanded (s.core c) .seq = true)
    (hok : monBad (s.core c) m.toNat = false) : exec (.monsetArm g m) s = .next (issued s c 6 0 (fun k =>
      ((k.setCfg (rMON + 8 * m.toNat + 5) 0).modCfg rMONSTAT (fun w => sf w (4 + m.toNat) 1 0)).modCfg
        (rMON + 8 * m.toNat) (fun w => sf w 0 1 1))) :=
  issueOne_core (x := semMonsetArm g m) hc rfl rfl (enabled_of rfl hg) hland
    ((check_monsetArm _).trans (checks_single_false hok)) (fun _ => rfl) (fun _ => rfl)

theorem exec_monsetArm_bad (hc : CanIssue s c) (hg : Enabled (s.core c) g) (hland : storesLanded (s.core c) .seq = true)
    (hbad : monBad (s.core c) m.toNat = true) :
    exec (.monsetArm g m) s = .next (trapped s c 0 (.monsetArm g m) .monparam) :=
  issueOne_traps (x := semMonsetArm g m) hc rfl (enabled_of rfl hg) hland
    ((check_monsetArm _).trans (checks_single_true hbad))

theorem exec_monsetDisarm (hc : CanIssue s c) (hg : Enabled (s.core c) g) : exec (.monsetDisarm g m) s =
    .next (issued s c 6 0 (·.modCfg (rMON + 8 * m.toNat) (fun w => sf w 0 1 0))) :=
  issueOne_core (x := semMonsetDisarm g m) hc rfl rfl (enabled_of rfl hg) rfl rfl (fun _ => rfl) (fun _ => rfl)

/-- The check of a monitor that fails waits for nothing where no halt is in progress (R331). -/
theorem lateDrift_none {e : Env} {i : Instr} {n : Nat}
    (hhalt : ((monCheck (s.core e.c) n (monSum (s.core e.c) n)).cfgAt rMONSTAT).getLsbD n = true →
      (s.core e.c).halt = none) : lateDrift e s i [n] = none := by
  unfold lateDrift
  simp only [List.foldl_cons, List.foldl_nil, List.any_cons, List.any_nil, Bool.or_false]
  split
  next hbit => exact lateTrap_running (hhalt hbit) _
  next => rfl

/-- A check traps where it leaves the monitor's bit set, unless a halt is in progress. -/
theorem exec_monsetCheck (hc : CanIssue s c) (hg : Enabled (s.core c) g)
    (hhalt : (((monChecked s c m.toNat).core c).cfgAt rMONSTAT).getLsbD m.toNat = true → (s.core c).halt = none) :
    exec (.monsetCheck g m) s = .next (driftTrap (monChecked s c m.toNat) c (s.core c).bpc
      (encWords (.monsetCheck g m)).1 [m.toNat]) := by
  have hcheck : (semMonsetCheck g m).check (soloMarks s c (semMonsetCheck g m)) s = none := by
    rw [monstat_monChecked] at hhalt
    exact lateDrift_none (e := soloMarks s c (semMonsetCheck g m)) hhalt
  have h := issueC_post (x := semMonsetCheck g m) hc rfl rfl (enabled_of rfl hg) rfl hcheck
  have heff : (semMonsetCheck g m).eff (soloMarks s c (semMonsetCheck g m)) =
      fun t => t.modCore c (fun k => monCheck k m.toNat (monSum k m.toNat)) := rfl
  rw [heff, issuedBy_core] at h
  exact h

theorem driftTrap_clean {t : State} {w : W64} {b n : Nat} (h : ((t.core c).cfgAt rMONSTAT).getLsbD n = false) :
    driftTrap t c b w [n] = t := by
  simp [driftTrap, h]

theorem driftTrap_drifts {t : State} {w : W64} {b n : Nat} (h : ((t.core c).cfgAt rMONSTAT).getLsbD n = true) :
    driftTrap t c b w [n] = raiseTrap t c (driftFrame b w (gf ((t.core c).cfgAt rMONSTAT) 0 8)) := by
  simp [driftTrap, h]

end

/-! ## The end of UNPICK (R317) -/

section
variable {s : State} {c : Nat} {g : Guard} {a d : SReg}

/-- Either of the traps of UNPICK holds it back no longer. -/
theorem ready_unpick (e : Env) (s : State) : (semUnpick g a d).ready e s = ((recNow e || inBody e) ||
    (upkQuiet (s.core e.c) && (s.core e.c).upk.isSome && upkBetween (s.core e.c) &&
      !upkMore (s.core e.c) (gf (rdScal e a) 0 57))) := by
  rw [semUnpick]

theorem check_unpick (e : Env) (s : State) : (semUnpick g a d).check e s =
    e.checks (.unpick g a d) 0 [(recNow e, .logctl), (inBody e, .loopctl)] := by
  rw [semUnpick]

theorem exec_unpick_recording (hc : CanIssue s c) (hg : Enabled (s.core c) g)
    (hrec : ((s.core c).cfgAt rLOGSTAT).getLsbD 63 = true) :
    exec (.unpick g a d) s = .next (trapped s c 0 (.unpick g a d) .logctl) := by
  have hnow : recNow (soloMarks s c (semUnpick g a d)) = true := hrec
  refine issueOne_traps (x := semUnpick g a d) hc rfl (enabled_of rfl hg) ?ready
    ((check_unpick _ _).trans (checks_cons_true hnow))
  rw [ready_unpick, hnow]
  rfl

theorem exec_unpick_body (hc : CanIssue s c) (hg : Enabled (s.core c) g)
    (hrec : ((s.core c).cfgAt rLOGSTAT).getLsbD 63 = false) (hrun : lsRun (s.core c).lstat = true) :
    exec (.unpick g a d) s = .next (trapped s c 0 (.unpick g a d) .loopctl) := by
  have hnow : recNow (soloMarks s c (semUnpick g a d)) = false := hrec
  have hbody : inBody (soloMarks s c (semUnpick g a d)) = true := hrun
  refine issueOne_traps (x := semUnpick g a d) hc rfl (enabled_of rfl hg) ?ready
    ((check_unpick _ _).trans ((checks_cons_false hnow).trans (checks_single_true hbody)))
  rw [ready_unpick, hbody, Bool.or_true, Bool.true_or]

/-- Before its first entry an UNPICK is between two. -/
theorem upkBetween_first {k : Core} {u : Upk} (hu : k.upk = some u) (hbusy : u.busy = false) (hstage : u.stage = 0) :
    upkBetween k = true := by
  rw [upkBetween, hu]
  dsimp only
  rw [hbusy, hstage]
  rfl

/-- An UNPICK that holds no lease lets go of its place alone. -/
theorem upkLeave_unleased {t : State} {u : Upk} (hu : (t.core c).upk = some u) (hl : u.lease = none) :
    upkLeave t c = t.modCore c (fun k => { k.dropAhead .seq with upk := none }) := by
  simp only [upkLeave, hu, hl, restoreLease]

theorem exec_unpick_ends {u : Upk} (hc : CanIssue s c) (hg : Enabled (s.core c) g)
    (hrec : ((s.core c).cfgAt rLOGSTAT).getLsbD 63 = false) (hrun : lsRun (s.core c).lstat = false)
    (hquiet : upkQuiet (s.core c) = true) (hu : (s.core c).upk = some u) (hbetween : upkBetween (s.core c) = true)
    (hl : u.lease = none) (hmore : upkMore (s.core c) (gf ((s.core c).sAt a.toNat) 0 57) = false) :
    exec (.unpick g a d) s = .next (issued s c 6 0 (fun k =>
      (countIssue { k.dropAhead .seq with upk := none } .seq 0).setS d.toNat
        (w64 (logpAddr ((s.core c).cfgAt rLOGP))))) := by
  have hnow : recNow (soloMarks s c (semUnpick g a d)) = false := hrec
  have hbody : inBody (soloMarks s c (semUnpick g a d)) = false := hrun
  have hready : (semUnpick g a d).ready (soloMarks s c (semUnpick g a d)) s = true := by
    rw [ready_unpick, hnow, hbody]
    change (false || false || (upkQuiet (s.core c) && (s.core c).upk.isSome && upkBetween (s.core c) &&
      !upkMore (s.core c) (gf ((s.core c).sAt a.toNat) 0 57))) = true
    rw [hquiet, hu, hbetween, hmore]
    rfl
  have heff : (semUnpick g a d).eff (soloMarks s c (semUnpick g a d)) (passed s c 6) =
      (passed s c 6).modCore c (fun k => (countIssue { k.dropAhead .seq with upk := none } .seq 0).setS d.toNat
        (w64 (logpAddr ((s.core c).cfgAt rLOGP)))) := by
    have hleave := upkLeave_unleased (t := passed s c 6) (c := c) (u := u) (by rw [core_passed]; exact hu) hl
    have hval : (semUnpick g a d).eff (soloMarks s c (semUnpick g a d)) (passed s c 6) =
        ((upkLeave (passed s c 6) c).modCore c (fun k => countIssue k .seq 0)).modCore c (·.setS d.toNat
          (w64 (logpAddr (((passed s c 6).core c).cfgAt rLOGP)))) := by
      rw [semUnpick]
      rfl
    have hlogp : ((passed s c 6).core c).cfgAt rLOGP = (s.core c).cfgAt rLOGP := by
      rw [core_passed]
      rfl
    rw [hval, hlogp, hleave, State.modCore_modCore, State.modCore_modCore]
  exact issueC_mod (x := semUnpick g a d) hc rfl rfl (enabled_of rfl hg) hready
    ((check_unpick _ _).trans ((checks_cons_false hnow).trans (checks_single_false hbody))) (fun _ => rfl) heff

end

/-- Settles O15: what each instruction of recording, monitors and UNPICK leaves, by the state that it finds. -/
theorem recordMonitorUnpick : Obligations.RecordMonitorUnpick := by
  unfold Obligations.RecordMonitorUnpick
  refine ⟨fun s c g m hc hg => ?record, fun s c g a d hc hg => ?unpick⟩
  case record =>
    intro k b p l on fits r checked
    refine ⟨fun hon hfits => exec_recon_starts hc hg (Bool.not_eq_true _ ▸ hon) hfits, exec_recon_on hc hg,
      fun hon hfits => exec_recon_logparam hc hg (Bool.not_eq_true _ ▸ hon) hfits, exec_recoff hc hg,
      exec_monsetArm hc hg, exec_monsetArm_bad hc hg, exec_monsetDisarm hc hg, fun hbit => ?clean,
      fun hbit hhalt => ?drifts⟩
    case clean => rw [exec_monsetCheck hc hg (by rw [hbit]; exact nofun), driftTrap_clean hbit]
    case drifts =>
      rw [exec_monsetCheck hc hg fun _ => hhalt, driftTrap_drifts hbit]
      rfl
  case unpick =>
    intro k stat stop
    refine ⟨fun u hrec hrun hquiet hbuf hu hbusy hstage hl hend => ?ends, exec_unpick_recording hc hg,
      exec_unpick_body hc hg⟩
    case ends =>
      refine exec_unpick_ends hc hg hrec hrun ?quiet hu ?between hl ?more
      case quiet => rw [upkQuiet, hquiet, hbuf]; rfl
      case between => exact upkBetween_first hu hbusy hstage
      case more =>
        rw [upkMore, gf_zero]
        rcases hend with hne | hlt
        · rw [hne]; rfl
        · exact Bool.and_eq_false_imp.mpr fun _ => decide_eq_false (Nat.not_le.mpr hlt)

end Sys2Proof.Machine
end

section
/-! Barriers (R91, R297, R298). -/
namespace Sys2Proof.Machine

/-! ## Arrival -/

section
variable {s : State} {c : Nat} {g : Guard} {scope : Scope} {id : BitVec 3}

/-- Where no halt is in progress no check of monitors waits for its bundle (R331). -/
theorem lateDrift_running {e : Env} (h : (s.core e.c).halt = none) (i : Instr) (ms : List Nat) :
    lateDrift e s i ms = none := by
  unfold lateDrift
  dsimp only
  split
  · exact lateTrap_running h _
  · rfl

/-- The launch record of the motif on a core. -/
abbrev recordOn (s : State) (c : Nat) : List W64 :=
  (((s.motifOn c).bind (fun m => s.launch? m.launch)).map (·.recd)).getD []

theorem ready_bar (e : Env) : (semBar g scope id).ready e s =
    (enginesQuiet (s.core e.c) && fenceMet s e.c .seq (scopeCode scope)) := rfl

/-- A scope that the launch does not declare co-resident (R91). -/
theorem check_bar_narrow {e : Env} (h : coScope (recordOn s e.c) < scopeCode scope) :
    (semBar g scope id).check e s = some (.trap { e.trap (.bar g scope id) 0 with cause := .barscope }) :=
  if_pos h

/-- At core scope alone the barrier has its comparison point in its own bundle. -/
theorem check_bar_passes {e : Env} (hco : scopeCode scope ≤ coScope (recordOn s e.c))
    (hfail : (s.core e.c).failures = []) (hhalt : scope = .core → (s.core e.c).halt = none) :
    (semBar g scope id).check e s = none := by
  refine (if_neg (Nat.not_lt.mpr hco)).trans ?_
  rw [failStop_none hfail]
  by_cases hcore : scope = .core
  case pos => rw [if_pos hcore, lateDrift_running (hhalt hcore)]; rfl
  case neg => rw [if_neg hcore]; rfl

/-- The device once core c has arrived. -/
abbrev barArrived (s : State) (c : Nat) (g : Guard) (scope : Scope) (id : BitVec 3) : State :=
  issuedBy s c 6 0 (fun t => (released t c (· == .seq)).modCore c (fun k =>
    { (k.veil .seq (scopeCode scope)).dropAhead .seq with
      arrived := some (scopeCode scope, id.toNat, (s.core c).bpc, (encWords (.bar g scope id)).1) }))

theorem exec_bar_arrives (hc : CanIssue s c) (hg : Enabled (s.core c) g) (hquiet : enginesQuiet (s.core c) = true)
    (hmet : fenceMet s c .seq (scopeCode scope) = true) (hco : scopeCode scope ≤ coScope (recordOn s c))
    (hfail : (s.core c).failures = []) (hhalt : scope = .core → (s.core c).halt = none) :
    exec (.bar g scope id) s = .next (if scope = .core then barDone (barArrived s c g scope id) c
      else barArrived s c g scope id) :=
  issueC_post (x := semBar g scope id) hc rfl rfl (enabled_of rfl hg)
    ((ready_bar _).trans (Bool.and_eq_true_iff.mpr ⟨hquiet, hmet⟩))
    (check_bar_passes (e := soloMarks s c (semBar g scope id)) hco hfail hhalt)

theorem exec_bar_narrow (hc : CanIssue s c) (hg : Enabled (s.core c) g) (hquiet : enginesQuiet (s.core c) = true)
    (hmet : fenceMet s c .seq (scopeCode scope) = true) (hco : coScope (recordOn s c) < scopeCode scope) :
    exec (.bar g scope id) s = .next (trapped s c 0 (.bar g scope id) .barscope) :=
  issueOne_traps (x := semBar g scope id) hc rfl (enabled_of rfl hg)
    ((ready_bar _).trans (Bool.and_eq_true_iff.mpr ⟨hquiet, hmet⟩))
    (check_bar_narrow (e := soloMarks s c (semBar g scope id)) hco)

end

/-! ## Completion -/

/-- The participants of a barrier in ascending core number, as its completion goes through them. -/
def inOrder (s : State) (c sc : Nat) : List Motif := (participants s c sc).foldl (fun l x => insertHome x l) []

theorem mem_insertHome {x y : Motif} {l : List Motif} : y ∈ insertHome x l ↔ y = x ∨ y ∈ l := by
  induction l with
  | nil => simp [insertHome]
  | cons z l ih =>
    unfold insertHome
    split
    · exact List.mem_cons
    · rw [List.mem_cons, List.mem_cons, ih, or_left_comm]

theorem mem_foldl_insertHome {y : Motif} (ps l : List Motif) :
    y ∈ ps.foldl (fun l x => insertHome x l) l ↔ y ∈ ps ∨ y ∈ l := by
  induction ps generalizing l with
  | nil => simp
  | cons p ps ih => rw [List.foldl_cons, ih, mem_insertHome, List.mem_cons, or_left_comm, or_assoc]

/-- Ordering them neither adds nor leaves out a participant. -/
theorem mem_inOrder {s : State} {c sc : Nat} {x : Motif} : x ∈ inOrder s c sc ↔ x ∈ participants s c sc := by
  simp [inOrder, mem_foldl_insertHome]

/-- A motif has arrived at a barrier. -/
def isHere (s : State) (sc id : Nat) (x : Motif) : Bool :=
  match (motifCore s x).arrived with
  | some (sc', id', _, _) => sc' == sc && id' == id
  | none => false

theorem isHere_iff {s : State} {sc id : Nat} {x : Motif} :
    isHere s sc id x = true ↔ ∃ b w, (motifCore s x).arrived = some (sc, id, b, w) := by
  unfold isHere
  cases (motifCore s x).arrived with
  | none => simp
  | some a => obtain ⟨sc', id', b, w⟩ := a; simp

/-- Every participant has arrived, those on other devices too. -/
def allHere (s : State) (c sc id : Nat) : Bool := (inOrder s c sc).all (isHere s sc id) && farArrived s c sc id

/-- The barrier's generation is counted, and its own core goes on. -/
def barCounted (s : State) (c sc id : Nat) : State :=
  State.modCore { s with
    gens := mput noNat s.gens (((s.motifOn c).map (·.launch)).getD 0 * 64 + sc * 8 + id)
      (mget noNat s.gens (((s.motifOn c).map (·.launch)).getD 0 * 64 + sc * 8 + id) + 1),
    launches := s.launches.map (fun (l : Launch) =>
      if sc = 4 ∧ some l.id = (s.motifOn c).map (fun (m : Motif) => m.launch) then
        { l with far := l.far.filter (· != id) } else l) } c (fun k => { k with arrived := none })

theorem gens_barCounted {s : State} {c sc id : Nat} {m : Motif} (h : s.motifOn c = some m) :
    mget noNat (barCounted s c sc id).gens (m.launch * 64 + sc * 8 + id) =
      mget noNat s.gens (m.launch * 64 + sc * 8 + id) + 1 := by
  have hkey : ((s.motifOn c).map (·.launch)).getD 0 = m.launch := by
    rw [h]
    rfl
  have hgens (key : Nat) (hk : ((s.motifOn c).map (·.launch)).getD 0 * 64 + sc * 8 + id = key) :
      (barCounted s c sc id).gens = mput noNat s.gens key (mget noNat s.gens key + 1) := by
    subst hk
    rfl
  rw [hgens _ (by rw [hkey]), mget_mput_same]

/-- A participant goes on. -/
def goesOn (s : State) (x : Motif) : State := modMotifCore s x.id (fun k => { k with arrived := none })

theorem barDone_eq {s : State} {c sc id b : Nat} {w : W64} (h : (s.core c).arrived = some (sc, id, b, w)) :
    barDone s c = if allHere s c sc id then (inOrder s c sc).foldl (fun t x => barChecks s (inOrder s c sc) sc t x)
      ((inOrder s c sc).foldl goesOn (barCounted s c sc id)) else s := by
  rw [barDone, h]
  rfl

/-- A motif without an armed monitor has no comparison point (R297). -/
theorem barChecks_unarmed {s : State} {ps : List Motif} {sc : Nat} {x : Motif}
    (h : ∀ i < 4, ((motifCore s x).mon i).armed = false) (t : State) : barChecks s ps sc t x = t := by
  have harmed : [0, 1, 2, 3].filter (fun m => ((motifCore s x).mon m).armed &&
      (!((motifCore s x).mon m).comb || decide (1 ≤ sc))) = [] := by
    simp [h]
  unfold barChecks
  dsimp only
  rw [harmed]
  cases (motifCore s x).arrived with
  | none => rfl
  | some a => cases x.core <;> rfl

/-- What a participant's going on keeps. -/
theorem goesOn_keeps (s : State) (x : Motif) (c : Nat) (h : (s.core c).arrived = none) :
    ((goesOn s x).core c).arrived = none ∧ (goesOn s x).gens = s.gens ∧ (goesOn s x).mem = s.mem := by
  unfold goesOn modMotifCore
  cases s.motif? x.id with
  | none => exact ⟨h, rfl, rfl⟩
  | some m =>
    dsimp only
    cases m.core with
    | none => exact ⟨h, rfl, rfl⟩
    | some o =>
      refine ⟨?_, rfl, rfl⟩
      by_cases hco : c = o
      · rw [hco, State.core_modCore]
      · rw [State.core_modCore_other _ _ hco, h]

theorem foldl_goesOn_keeps (ps : List Motif) (s : State) (c : Nat) (h : (s.core c).arrived = none) :
    ((ps.foldl goesOn s).core c).arrived = none ∧ (ps.foldl goesOn s).gens = s.gens ∧
      (ps.foldl goesOn s).mem = s.mem := by
  induction ps generalizing s with
  | nil => exact ⟨h, rfl, rfl⟩
  | cons p ps ih =>
    obtain ⟨hgo, hgens, hmem⟩ := goesOn_keeps s p c h
    obtain ⟨hrest, hgens', hmem'⟩ := ih (goesOn s p) hgo
    exact ⟨hrest, hgens'.trans hgens, hmem'.trans hmem⟩

section
variable {s : State} {c sc id b : Nat} {w : W64} (harr : (s.core c).arrived = some (sc, id, b, w))
include harr

/-- With every participant arrived and no monitor armed, all go on, and the generation is counted. -/
theorem barDone_completes (hall : allHere s c sc id = true)
    (hunarmed : ∀ x ∈ participants s c sc, ∀ i < 4, ((motifCore s x).mon i).armed = false) :
    barDone s c = (inOrder s c sc).foldl goesOn (barCounted s c sc id) := by
  rw [barDone_eq harr, if_pos hall]
  exact (List.foldl_ext _ (fun t _ => t) _ fun t x hx => barChecks_unarmed (hunarmed x (mem_inOrder.mp hx)) t).trans
    (List.foldl_fixed _)

/-- With one missing nothing happens. -/
theorem barDone_waits (hmissing : allHere s c sc id = false) : barDone s c = s := by
  rw [barDone_eq harr, hmissing]
  rfl

end

theorem exec_barComplete (s : State) (c : Nat) : exec (.barComplete c) s = .next (barDone s c) := rfl

/-- Settles O13: what BAR leaves by its scope, and that a barrier completes for all of its participants or for none. -/
theorem barrierRules : Obligations.BarrierRules := by
  unfold Obligations.BarrierRules
  refine ⟨fun s c g scope id hc hg => ?arrives, fun s c sc id b w m harr hon => ?completes⟩
  case arrives =>
    intro k recd arrived hquiet hmet
    exact ⟨exec_bar_arrives hc hg hquiet hmet, exec_bar_narrow hc hg hquiet hmet⟩
  case completes =>
    intro here gen
    refine ⟨fun hhere hunarmed hfar => ?all, fun hmissing => ?missing⟩
    case all =>
      have hall : allHere s c sc id = true := by
        rw [allHere, hfar, Bool.and_true, List.all_eq_true]
        exact fun x hx => isHere_iff.mpr (hhere x (mem_inOrder.mp hx))
      have hgo : ((barCounted s c sc id).core c).arrived = none := by
        rw [barCounted, State.core_modCore]
      obtain ⟨hnone, hgens, hmem⟩ := foldl_goesOn_keeps (inOrder s c sc) _ c hgo
      refine ⟨_, (exec_barComplete s c).trans (congrArg _ (barDone_completes harr hall hunarmed)), hnone, ?_,
        fun p => ?_⟩
      · change mget noNat (List.foldl goesOn _ _).gens _ = _
        rw [hgens, gens_barCounted hon]
      · rw [hmem]
        rfl
    case missing =>
      rw [exec_barComplete, barDone_waits harr]
      rcases hmissing with ⟨x, hx, hno⟩ | hfar
      · refine Bool.and_eq_false_iff.mpr (.inl (List.all_eq_false.mpr ⟨x, mem_inOrder.mpr hx, ?_⟩))
        rw [isHere_iff]
        exact hno
      · rw [allHere, hfar, Bool.and_false]

end Sys2Proof.Machine
end

section
/-! FENCE, FORK, JOIN and HPASS (R87 to R89, R251 to R254). -/
namespace Sys2Proof.Machine

/-! ## FENCE (R87) -/

section
variable {s : State} {c : Nat} {g : Guard} {scope : Scope} {istr eng : Bool} {kind : FenceKind}

theorem ready_fence (e : Env) : (semFence g scope istr eng kind).ready e s =
    ((!eng || enginesQuiet (s.core e.c)) && (kind == .acq || fenceMet s e.c .seq (scopeCode scope)) &&
      (!istr || storesLanded (s.core e.c) .seq)) := rfl

theorem exec_fence_issues (hc : CanIssue s c) (hg : Enabled (s.core c) g)
    (heng : eng = true → enginesQuiet (s.core c) = true)
    (hmet : kind ≠ .acq → fenceMet s c .seq (scopeCode scope) = true)
    (histr : istr = true → storesLanded (s.core c) .seq = true) (hfail : (s.core c).failures = []) :
    exec (.fence g scope istr eng kind) s = .next (issuedBy s c 6 0 (fun t =>
      let t1 := if kind = .acq then t else (released t c (· == .seq)).modCore c (Core.veil .seq (scopeCode scope))
      let t2 := if kind = .rel then t1 else t1.modCore c (Core.dropAhead .seq)
      if istr then dropCode t2 c else t2)) := by
  have hready : (semFence g scope istr eng kind).ready (soloMarks s c (semFence g scope istr eng kind)) s = true := by
    have heng' : (!eng || enginesQuiet (s.core c)) = true := by
      cases eng with
      | false => rfl
      | true => exact heng rfl
    have hmet' : (kind == .acq || fenceMet s c .seq (scopeCode scope)) = true := by
      by_cases hacq : kind = .acq
      · rw [hacq]; rfl
      · rw [hmet hacq, Bool.or_true]
    have histr' : (!istr || storesLanded (s.core c) .seq) = true := by
      cases istr with
      | false => rfl
      | true => exact histr rfl
    exact (ready_fence _).trans (by rw [marked_c, solo_c, heng', hmet', histr']; rfl)
  exact issueC_by (x := semFence g scope istr eng kind) hc rfl rfl (enabled_of rfl hg) hready
    (failStop_none (e := soloMarks s c (semFence g scope istr eng kind)) hfail _ _) (fun _ => rfl)

theorem exec_fence_waits (hc : CanIssue s c) (hg : Enabled (s.core c) g)
    (hout : (kind ≠ .acq ∧ fenceMet s c .seq (scopeCode scope) = false) ∨
      (istr = true ∧ storesLanded (s.core c) .seq = false)) :
    exec (.fence g scope istr eng kind) s = .next s := by
  refine issueOne_waits (x := semFence g scope istr eng kind) hc rfl (enabled_of rfl hg)
    ((ready_fence _).trans ?_)
  rw [marked_c, solo_c]
  rcases hout with ⟨hacq, hmet⟩ | ⟨histr, hland⟩
  · rw [hmet, Bool.or_false, beq_false_of_ne hacq, Bool.and_false, Bool.false_and]
  · rw [histr, hland, Bool.not_true, Bool.or_false, Bool.and_false]

/-- With no store out a fence of any scope is met. -/
theorem fenceMet_of_landed {ag : Agent} (h : storesLanded (s.core c) ag = true) (sc : Nat) :
    fenceMet s c ag sc = true := by
  rw [fenceMet, h, Bool.true_or]

/-- At system scope no store may be left standing. -/
theorem fenceMet_system {ag : Agent} {sc : Nat} (hsc : 4 ≤ sc) (h : storesLanded (s.core c) ag = false) :
    fenceMet s c ag sc = false := by
  rw [fenceMet, h, decide_eq_false (Nat.not_lt.mpr hsc)]
  rfl

end

/-! ## FORK and JOIN (R88) -/

section
variable {s : State} {c : Nat} {g : Guard}

theorem exec_fork (hc : CanIssue s c) (hg : Enabled (s.core c) g) (mask : BitVec 16) (parent : Handle) :
    exec (.fork g mask parent) s = .next (issued s c 6 0 (fun k => forkHandles k c .seq mask parent.toNat)) :=
  issueOne_core (x := semFork g mask parent) hc rfl rfl (enabled_of rfl hg) rfl rfl (fun _ => rfl) (fun _ => rfl)

theorem exec_join (hc : CanIssue s c) (hg : Enabled (s.core c) g) (mask : BitVec 16) (target : Handle) :
    exec (.join g mask target) s = .next (issued s c 6 0 (fun k => joinHandles k c .seq mask target.toNat)) :=
  issueOne_core (x := semJoin g mask target) hc rfl rfl (enabled_of rfl hg) rfl rfl (fun _ => rfl) (fun _ => rfl)

end

theorem mem_maskBits {mask : BitVec 16} {h : Nat} : h ∈ maskBits mask ↔ mask.getLsbD h = true := by
  simp only [maskBits, List.mem_filter, List.mem_range, and_iff_right_iff_imp]
  exact BitVec.lt_of_getLsbD

@[simp] theorem mem_addNew {α : Type} [BEq α] [LawfulBEq α] {xs ys : List α} {a : α} :
    a ∈ addNew xs ys ↔ a ∈ xs ∨ a ∈ ys := by
  simp only [addNew, List.mem_append, List.mem_filter, Bool.not_eq_true', List.contains_eq_mem, decide_eq_false_iff_not]
  tauto

/-- What an agent has read ahead is no access that is out. -/
@[simp] theorem outUnder_dropAhead (k : Core) (ag ag' : Agent) (h : Nat) :
    outUnder (k.dropAhead ag') ag h = outUnder k ag h := rfl

section
variable {k : Core} {c : Nat} {ag : Agent} {hs new : List Nat} {h h' id : Nat}

/-- A store under one of the handles stands under each of the new ones. -/
theorem under_also {b : BufStore} (hh' : h' ∈ new) (hof : b.of ag = true) :
    ({ b with hs := addNew b.hs (new.map (fun h => (ag, h))) } : BufStore).under ag h' = true := by
  have hin : (ag, h') ∈ addNew b.hs (new.map (fun h => (ag, h))) :=
    mem_addNew.mpr (.inr (List.mem_map_of_mem hh'))
  have hof' : ({ b with hs := addNew b.hs (new.map (fun h => (ag, h))) } : BufStore).of ag = true := hof
  rw [BufStore.under, hof', List.contains_iff_mem.mpr hin, Bool.or_true]
  rfl

/-- Every access that is out under one of the handles is out under each of the new ones, too (R88, R251). -/
theorem outUnder_alsoUnder (hh : h ∈ hs) (hh' : h' ∈ new) (hid : id ∈ outUnder k ag h) :
    id ∈ outUnder (k.alsoUnder c ag hs new) ag h' := by
  have hany : hs.any (fun h => (outUnder k ag h).contains id) = true :=
    List.any_eq_true.mpr ⟨h, hh, List.contains_iff_mem.mpr hid⟩
  have hnew (l : List Nat) : (addNew l new).contains h' = true :=
    List.contains_iff_mem.mpr (mem_addNew.mpr (.inr hh'))
  unfold outUnder at hid
  simp only [List.mem_append, List.mem_map, List.mem_filter] at hid
  rcases hid with (⟨b, ⟨hb, hu⟩, rfl⟩ | ⟨x, ⟨hx, hu⟩, rfl⟩) | ⟨x, ⟨hx, hu⟩, rfl⟩
  case inl.inl =>
    have hof : b.of ag = true := (Bool.and_eq_true_iff.mp hu).1
    have hsome : hs.any (fun h => b.under ag h) = true := List.any_eq_true.mpr ⟨h, hh, hu⟩
    have hb' : { b with hs := addNew b.hs (new.map (fun h => (ag, h))) } ∈ (k.alsoUnder c ag hs new).buf :=
      List.mem_map.mpr ⟨b, hb, if_pos hsome⟩
    exact List.mem_append_left _ (List.mem_append_left _
      (List.mem_map.mpr ⟨_, List.mem_filter.mpr ⟨hb', under_also hh' hof⟩, rfl⟩))
  case inl.inr =>
    have hx' : { x with hs := addNew x.hs new } ∈ (k.alsoUnder c ag hs new).kcmds :=
      List.mem_map.mpr ⟨x, hx, if_pos hany⟩
    refine List.mem_append_left _ (List.mem_append_right _
      (List.mem_map.mpr ⟨_, List.mem_filter.mpr ⟨hx', ?_⟩, rfl⟩))
    dsimp only
    rw [(Bool.and_eq_true_iff.mp hu).1, hnew]
    rfl
  case inr =>
    have hx' : { x with hs := addNew x.hs new } ∈ (k.alsoUnder c ag hs new).mcmds :=
      List.mem_map.mpr ⟨x, hx, if_pos hany⟩
    refine List.mem_append_right _ (List.mem_map.mpr ⟨_, List.mem_filter.mpr ⟨hx', ?_⟩, rfl⟩)
    dsimp only
    rw [(Bool.and_eq_true_iff.mp hu).1, hnew, Bool.or_true]
    rfl

end

/-! ## What FORK and JOIN order (R88, R251) -/

section
variable {k : Core} {c : Nat} {mask : BitVec 16} {p h h' id : Nat}

theorem outUnder_forkHandles (hbit : mask.getLsbD h = true) (hid : id ∈ outUnder k .seq p) :
    id ∈ outUnder (forkHandles k c .seq mask p) .seq h := by
  rw [forkHandles, outUnder_dropAhead]
  exact outUnder_alsoUnder (List.mem_singleton_self p) (mem_maskBits.mpr hbit) hid

/-- The handles that a JOIN relates. -/
abbrev joined (mask : BitVec 16) (target : Nat) : List Nat := target :: (maskBits mask).filter (· != target)

theorem mem_joined (hbit : mask.getLsbD h = true) : h ∈ joined mask p := by
  by_cases hp : h = p
  · exact hp ▸ List.mem_cons_self
  · exact List.mem_cons_of_mem _ (List.mem_filter.mpr ⟨mem_maskBits.mpr hbit, bne_iff_ne.mpr hp⟩)

/-- A JOIN of some handle relates its handles to one another. -/
theorem outUnder_joinHandles {a b : Nat} (hbit : mask.getLsbD h = true) (ha : a ∈ joined mask p)
    (hb : b ∈ joined mask p) (hid : id ∈ outUnder k .seq a) : id ∈ outUnder (joinHandles k c .seq mask p) .seq b := by
  have hmask : mask ≠ 0 := by
    rintro rfl
    simp at hbit
  rw [joinHandles, if_neg hmask, outUnder_dropAhead]
  exact outUnder_alsoUnder ha hb hid

end

/-! ## HPASS (R89) -/

section
variable {s : State} {c : Nat} {g : Guard} {oh : Handle} {a d : SReg}

/-- HPASS names no device of the group, or one that cannot be reached. -/
abbrev deviceBad (s : State) (dev : Nat) : Bool := decide (s.gszm1 < dev) || (!s.fabUp && dev != s.dev)

theorem deviceBad_eq_false {dev : Nat} (hdev : dev ≤ s.gszm1) (hup : s.fabUp = true ∨ dev = s.dev) :
    deviceBad s dev = false := by
  rw [deviceBad, decide_eq_false (Nat.not_lt.mpr hdev), Bool.false_or]
  rcases hup with hup | rfl
  · rw [hup]; rfl
  · rw [bne_self_eq_false, Bool.and_false]

theorem deviceBad_eq_true {dev : Nat} (h : s.gszm1 < dev ∨ (s.fabUp = false ∧ dev ≠ s.dev)) :
    deviceBad s dev = true := by
  rcases h with hdev | ⟨hup, hdev⟩
  · rw [deviceBad, decide_eq_true hdev, Bool.true_or]
  · rw [deviceBad, hup, bne_iff_ne.mpr hdev]
    exact Bool.or_true _

theorem check_hpass (e : Env) : (semHpass g oh a d).check e s =
    e.checks (.hpass g oh a d) 0 [(deviceBad s (gf (rdScal e a) 0 10), .hdev)] := by
  rw [semHpass]

theorem exec_hpass_passes (hc : CanIssue s c) (hg : Enabled (s.core c) g)
    (hok : deviceBad s (gf ((s.core c).sAt a.toNat) 0 10) = false) :
    exec (.hpass g oh a d) s = .next (issued s c 6 0 (fun k =>
      { k with nextId := k.nextId + 1, notices := k.notices ++
        [(handleToken s c oh.toNat, gf ((s.core c).sAt a.toNat) 0 10, k.nextId, outUnder k .seq oh.toNat)] }.setS
          d.toNat (handleToken s c oh.toNat))) := by
  refine issueC_mod (x := semHpass g oh a d) hc rfl rfl (enabled_of rfl hg) rfl
    ((check_hpass _).trans (checks_single_false hok)) (fun _ => rfl) ?_
  have heff : (semHpass g oh a d).eff (soloMarks s c (semHpass g oh a d)) (passed s c 6) =
      ((passed s c 6).setCore c { (passed s c 6).core c with
        nextId := ((passed s c 6).core c).nextId + 1,
        notices := ((passed s c 6).core c).notices ++ [(handleToken (passed s c 6) c oh.toNat,
          gf ((s.core c).sAt a.toNat) 0 10, ((passed s c 6).core c).nextId,
          outUnder ((passed s c 6).core c) .seq oh.toNat)] }).modCore c
            (·.setS d.toNat (handleToken (passed s c 6) c oh.toNat)) := by
    rw [semHpass]
    rfl
  have htok : handleToken (passed s c 6) c oh.toNat = handleToken s c oh.toNat := by
    unfold handleToken
    rw [core_passed]
    rfl
  rw [heff, htok, State.modCore_setCore]
  rfl

theorem exec_hpass_bad (hc : CanIssue s c) (hg : Enabled (s.core c) g)
    (hbad : deviceBad s (gf ((s.core c).sAt a.toNat) 0 10) = true) :
    exec (.hpass g oh a d) s = .next (trapped s c 0 (.hpass g oh a d) .hdev) :=
  issueOne_traps (x := semHpass g oh a d) hc rfl (enabled_of rfl hg) rfl
    ((check_hpass _).trans (checks_single_true hbad))

end

/-! ## The instruction-stream step (R66, R87) -/

section
variable {s : State} {c : Nat}

theorem core_dropCode : (dropCode s c).core c = { s.core c with
    bcache := [], lcache := [], reply := (s.core c).reply.filter (fun r => !forCode c r.1) } :=
  State.core_modCore _ _ _

/-- A reply that is left is not for code. -/
theorem forCode_reply_dropCode : ∀ r ∈ ((dropCode s c).core c).reply, forCode c r.1 = false := by
  rw [core_dropCode]
  intro r hr
  exact Bool.not_eq_true' _ ▸ (List.mem_filter.mp hr).2

/-- A request still on its way is not for code. -/
theorem forCode_requests_dropCode : ∀ r ∈ (dropCode s c).requests, forCode c r.who = false := by
  intro r hr
  obtain ⟨q, -, rfl⟩ := List.mem_map.mp hr
  split
  next => rfl
  next hno => exact Bool.not_eq_true _ ▸ hno

end

/-- Settles O12: what each instruction waits for and leaves, and what FORK and JOIN bring under a handle. -/
theorem orderingInstructions : Obligations.OrderingInstructions := by
  unfold Obligations.OrderingInstructions
  refine ⟨fun s c g hc hg => ?instructions, fun s c => ?code, fun k c mask p h h' id hbit => ?handles⟩
  case instructions =>
    intro k
    refine ⟨fun scope istr eng kind => exec_fence_issues hc hg, fun scope eng kind istr => exec_fence_waits hc hg,
      fun sc hland => fenceMet_of_landed hland sc, fun sc hsc hland => fenceMet_system hsc hland, exec_fork hc hg,
      exec_join hc hg, fun oh a d => ?hpass⟩
    case hpass =>
      intro dev tok
      have hdev : gf (k.sAt a.toNat) 0 10 = dev := gf_zero _ _
      refine ⟨fun ⟨hle, hup⟩ => ?passes,
        fun hbad => exec_hpass_bad hc hg (by rw [hdev]; exact deviceBad_eq_true hbad)⟩
      case passes =>
        have h := exec_hpass_passes (oh := oh) (d := d) hc hg (by rw [hdev]; exact deviceBad_eq_false hle hup)
        rw [hdev] at h
        exact h
  case code =>
    intro t
    exact ⟨by rw [core_dropCode], by rw [core_dropCode], forCode_reply_dropCode, forCode_requests_dropCode,
      fun _ => rfl, fun o ho => State.core_modCore_other _ _ ho⟩
  case handles =>
    have hh : h.toNat ∈ joined mask p.toNat := mem_joined hbit
    have hp : p.toNat ∈ joined mask p.toNat := List.mem_cons_self
    exact ⟨fun hid => ⟨outUnder_forkHandles hbit hid, outUnder_joinHandles hbit hp hh hid⟩,
      fun hid => ⟨outUnder_joinHandles hbit hh hp hid,
        fun hbit' => outUnder_joinHandles hbit hh (mem_joined hbit') hid⟩⟩

end Sys2Proof.Machine
end

section
/-! Rows of tiles written element by element: what is read back, and what stands as before (R101). -/
namespace Sys2Proof.Machine

/-! ## Numbers in memory -/

theorem numAt_congr {m m' : Map Byte} {a n : Nat} (h : ∀ x, a ≤ x → x < a + n → byteAt m x = byteAt m' x) :
    numAt m a n = numAt m' a n := by
  suffices bytesAt m a n = bytesAt m' a n from congrArg leNat this
  induction n generalizing a with
  | zero => rfl
  | succ n ih =>
    rw [bytesAt, bytesAt, h a le_rfl (by omega), ih fun x h1 h2 => h x (by omega) (by omega)]

/-- A number that has been written reads back. -/
theorem numAt_putBytes_leBytes (m : Map Byte) (a n v : Nat) :
    numAt (putBytes m a (leBytes n v)) a n = v % 2 ^ (8 * n) := by
  rw [pow_mul]
  induction n generalizing m a v with
  | zero => simp [numAt, bytesAt, leNat, Nat.mod_one]
  | succ n ih =>
    have h0 : byteAt (putBytes m a (leBytes (n + 1) v)) a = BitVec.ofNat 8 v := by
      rw [leBytes, putBytes, byteAt_putBytes_below _ _ _ _ (Nat.lt_succ_self a)]
      exact mget_mput_same _ _ _ _
    calc numAt (putBytes m a (leBytes (n + 1) v)) a (n + 1)
        = v % 256 + 256 * numAt (putBytes (mput noByte m a (BitVec.ofNat 8 v)) (a + 1) (leBytes n (v / 256))) (a + 1) n := by
          rw [numAt, bytesAt, leNat, h0]; rfl
      _ = v % (2 ^ 8) ^ (n + 1) := by rw [ih, pow_succ' (2 ^ 8) n, Nat.mod_mul]; rfl

section
variable {k : Core} {r : Row} {z : Nat}

/-- An element of a row without guard bytes is the number that its bytes make. -/
theorem elem_of_plain (hx : r.x = false) (m : Nat) :
    k.elem r z m = numAt k.tiles (tileKey r.tile (r.row * r.rb + z * m)) z := by
  by_cases h4 : z = 4
  · subst h4
    simp [Core.elem, Core.elem32, Core.main, hx]
  · simp [Core.elem, h4, hx]

@[simp] theorem shape_setDirty (t : Nat) : ((k.setDirty t).shape t).getLsbD 22 = true := by
  rw [Core.shape, Core.setDirty, Core.modCfg, Core.cfgAt_setCfg, sf, BitVec.getLsbD_or, Bool.or_eq_true]
  exact .inr (by decide)

/-- A write of an element changes no byte beside it. -/
theorem byteAt_putElem {j v key : Nat}
    (h : key < tileKey r.tile (r.row * r.rb + z * j) ∨ tileKey r.tile (r.row * r.rb + z * (j + 1)) ≤ key) :
    byteAt (k.putElem r z j v).tiles key = byteAt k.tiles key := by
  have hend : tileKey r.tile (r.row * r.rb + z * (j + 1)) =
      tileKey r.tile (r.row * r.rb + z * j) + (leBytes z v).length := by
    rw [length_leBytes, Nat.mul_succ, ← Nat.add_assoc, tileKey, ← Nat.add_assoc]
    rfl
  exact byteAt_putBytes_other _ _ _ _ (hend ▸ h)

/-- A write of elements changes no byte outside their range. -/
theorem byteAt_putElems {vs : List Nat} {j key : Nat}
    (h : key < tileKey r.tile (r.row * r.rb + z * j) ∨ tileKey r.tile (r.row * r.rb + z * (j + vs.length)) ≤ key) :
    byteAt (k.putElems r z j vs).tiles key = byteAt k.tiles key := by
  induction vs generalizing k j with
  | nil => rfl
  | cons v vs ih =>
    have hz : z * (j + 1) = z * j + z := Nat.mul_succ z j
    have hl : z * (j + 1 + vs.length) = z * (j + 1) + z * vs.length := Nat.mul_add z (j + 1) vs.length
    rw [List.length_cons, Nat.add_comm vs.length, ← Nat.add_assoc] at h
    rw [Core.putElems, ih (by simp only [tileKey] at h ⊢; omega), byteAt_putElem (by simp only [tileKey] at h ⊢; omega)]

theorem elem_putElem_same (hx : r.x = false) (j v : Nat) : (k.putElem r z j v).elem r z j = v % 2 ^ (8 * z) := by
  rw [elem_of_plain hx]
  exact numAt_putBytes_leBytes _ _ _ _

/-- An element outside the range that is written is as before. -/
theorem elem_putElems_outside (hx : r.x = false) {vs : List Nat} {j m : Nat} (h : m < j ∨ j + vs.length ≤ m) :
    (k.putElems r z j vs).elem r z m = k.elem r z m := by
  rw [elem_of_plain hx, elem_of_plain hx]
  refine numAt_congr fun x h1 h2 => byteAt_putElems ?_
  simp only [tileKey] at h1 h2 ⊢
  rcases h with h | h
  · have : z * (m + 1) ≤ z * j := Nat.mul_le_mul_left z h
    rw [Nat.mul_succ] at this
    omega
  · have : z * (j + vs.length) ≤ z * m := Nat.mul_le_mul_left z h
    omega

/-- An element inside the range has its new value. -/
theorem elem_putElems_inside (hx : r.x = false) {vs : List Nat} {j m : Nat} (h : j ≤ m) (h' : m < j + vs.length) :
    (k.putElems r z j vs).elem r z m = vs.getD (m - j) 0 % 2 ^ (8 * z) := by
  induction vs generalizing k j with
  | nil => exact absurd h' (Nat.not_lt.mpr h)
  | cons v vs ih =>
    rw [List.length_cons] at h'
    rw [Core.putElems]
    rcases Nat.eq_or_lt_of_le h with rfl | hlt
    · rw [elem_putElems_outside hx (.inl (Nat.lt_succ_self j)), elem_putElem_same hx, Nat.sub_self, List.getD_cons_zero]
    · rw [ih hlt (by omega), show m - j = m - (j + 1) + 1 by omega, List.getD_cons_succ]

/-- The tile of a row that is written becomes dirty. -/
theorem shape_putElems (vs : List Nat) (j : Nat) : ((k.putElems r z j vs).shape r.tile).getLsbD 22 = true := by
  induction vs generalizing k j with
  | nil => exact shape_setDirty r.tile
  | cons v vs ih => exact ih (j + 1)

end

/-- Settles O19: by induction on the elements that are written, in the order in which they are. -/
theorem rowWriteReads : Obligations.RowWriteReads := by
  unfold Obligations.RowWriteReads
  intro k r n j vs _ hx
  exact ⟨fun m => elem_putElems_inside hx, fun m => elem_putElems_outside hx, fun key => byteAt_putElems,
    shape_putElems vs j⟩

end Sys2Proof.Machine
end

section
/-! The elementwise instructions of the V slot (R99, R100, R106 to R111, R115, R122). -/
namespace Sys2Proof.Machine

/-- What a V slot makes of its core: the flags and the generator of its elements, and the elements in their row, from
element `j` (R38, R42, R101). -/
def writeRow (d : Row) (z j : Nat) (r : List Nat × Nat × W64) (k : Core) : Core :=
  ((k.orFlags r.2.1).setSr r.2.2).putElems d z j r.1

/-- R100: the elements of vb, or the scalar that BS = 1 names, `n` times. -/
def secondElems (k : Core) (bs : Bool) (vb : VReg) (b : Row) (z n : Nat) : List Nat :=
  if bs then List.replicate n ((k.sAt (bsReg vb).toNat).toNat % 2 ^ (8 * z)) else k.elems b z

/-- Every register names a row that can be used now, of `m` bytes (R53, R54, R99). -/
def RowsReady (k : Core) (m : Nat) (names : List VReg) : Prop := ∀ n ∈ names, ∃ r, RowReady k n r ∧ r.rb = m

section
variable {k : Core} {m : Nat} {n : VReg} {l : List VReg}

theorem RowsReady.nil : RowsReady k m [] := nofun

theorem RowsReady.cons {r : Row} (h : RowReady k n r) (hm : r.rb = m) (hl : RowsReady k m l) : RowsReady k m (n :: l) :=
  List.forall_mem_cons.mpr ⟨⟨r, h, hm⟩, hl⟩

theorem RowsReady.append {l' : List VReg} (hl : RowsReady k m l) (hl' : RowsReady k m l') : RowsReady k m (l ++ l') :=
  List.forall_mem_append.mpr ⟨hl, hl'⟩

/-- A broadcast scalar takes the place of the row of vb. -/
theorem RowsReady.bsRows {bs : Bool} {va vb : VReg} {b : Row} (h : RowReady k (if bs then va else vb) b)
    (hm : b.rb = m) : RowsReady k m (bsRows bs vb) := by
  cases bs
  case true => exact .nil
  case false => exact .cons h hm .nil

end

/-! ## What a V slot reads and writes, from the device past its bundle -/

section
variable {s : State} {c : Nat} {e : Env} (hk : e.k = s.core c) (hc : e.c = c)
include hk hc

theorem finishV_eq {vd : VReg} {d : Row} (hd : RowReady (s.core c) vd d) (t : State) (z j : Nat)
    (r : List Nat × Nat × W64) : finishV e t vd z j r = t.modCore c (writeRow d z j r) := by
  simp only [finishV, hc, rowOf_ready hd hk]
  rfl

theorem vEls_passed {va : VReg} {a : Row} (ha : RowReady (s.core c) va a) (z : Nat) :
    vEls e (passed s c 10) va z = (s.core c).elems a z := by
  rw [vEls, rowOf_ready ha hk, hc, elems_passed]

theorem vElsB_passed (hw : e.who = .seq) {bs : Bool} {va vb : VReg} {b : Row}
    (hb : RowReady (s.core c) (if bs then va else vb) b) (z n : Nat) :
    vElsB e (passed s c 10) bs vb z n = secondElems (s.core c) bs vb b z n := by
  cases bs
  case true => simp only [vElsB, secondElems, if_true, rdScal_seq e hw, hk]
  case false => exact vEls_passed hk hc hb z

omit hk in
theorem srOf_passed : srOf e (passed s c 10) = (s.core c).cfgAt rSRSTATE := by
  rw [srOf, hc, sr_passed]

end

/-- Rows of one length pass the check of an elementwise instruction (R99). -/
theorem shapeStop_none {k : Core} {m : Nat} {names : List VReg} (h : RowsReady k m names) {e : Env} (hk : e.k = k)
    (i : Instr) (t : State) : shapeStop i names e t = none := by
  have hrb : ∀ n ∈ names, (rowOf e n).rb = m := fun n hn => by
    obtain ⟨r, hr, hm⟩ := h n hn
    rw [rowOf, hk, hr.1, Option.getD_some, hm]
  refine if_pos ?_
  cases names with
  | nil => rfl
  | cons n l =>
    refine List.all_eq_true.mpr fun x hx => beq_iff_eq.mpr ?_
    rw [hrb x (List.mem_cons_of_mem n hx), hrb n List.mem_cons_self]

/-! ## Each instruction -/

section
variable {s : State} {c : Nat} {g : Guard} {vc vb va vd : VReg} {d a b e : Row} {bs : Bool} {f : Fmt}
  (hc : CanIssue s c) (hg : Enabled (s.core c) g) (hn : NotRecording (s.core c))
include hc hg hn

/-- An elementwise instruction over rows of one length leaves what its function makes of the core. -/
theorem elementwise_goes {i : Instr} {names : List VReg} {scals : Env → List W64} {saved : List (Nat × VReg)}
    {iv m : Nat} {eff : Env → State → State} {fn : Core → Core} (h1 : ∀ g, i ≠ .recon g) (h2 : ∀ g, i ≠ .recoff g)
    (hr : RowsReady (s.core c) m names) (hb : EngineBound (s.core c) i)
    (hf : ∀ E : Env, E.k = s.core c → E.c = c → E.who = .seq → eff E (passed s c 10) = (passed s c 10).modCore c fn) :
    issueHard (semV g i names (shapeStop i names) scals saved iv eff) s =
      .next (issued s c 10 0 (fun k => (fn k).vBusy iv)) :=
  semV_goes hc hg hn hb (fun n hn => (hr n hn).imp fun _ h => h.1) h1 h2 (shapeStop_none hr rfl i s) hf

variable (hd : RowReady (s.core c) vd d)
include hd

theorem exec_vmovi (imm : BitVec 32) (hbound : EngineBound (s.core c) (.vmovi g imm f vd)) :
    exec (.vmovi g imm f vd) s = .next (issued s c 10 0 (fun k => (writeRow d (fmtSize f) 0
      (List.replicate (d.rb / fmtSize f) (imm.toNat % 2 ^ (8 * fmtSize f)), 0, (s.core c).cfgAt rSRSTATE) k).vBusy 1)) := by
  refine semV_goes hc hg hn hbound (List.forall_mem_singleton.mpr ⟨d, hd⟩) nofun nofun rfl fun E hk hE _ => ?_
  rw [finishV_eq hk hE hd, srOf_passed hE, rowOf_ready hd hk]

variable (ha : RowReady (s.core c) va a) (harb : a.rb = d.rb)
include ha harb

theorem exec_vop1 (fn : Vop1Fn) (sat : Bool) (rm : Rm) (hbound : EngineBound (s.core c) (.vop1 g fn sat rm f va vd)) :
    exec (.vop1 g fn sat rm f va vd) s = .next (issued s c 10 0 (fun k => (writeRow d (fmtSize f) 0
      (mapDraw .rne (fun _ x => vop1El fn f rm sat x) ((s.core c).elems a (fmtSize f)) ((s.core c).cfgAt rSRSTATE))
      k).vBusy 1)) := by
  refine elementwise_goes hc hg hn nofun nofun (.cons hd rfl (.cons ha harb .nil)) hbound fun E hk hE _ => ?_
  rw [finishV_eq hk hE hd, srOf_passed hE, vEls_passed hk hE ha]

theorem exec_vsfu (fn : SfuFn) (hbound : EngineBound (s.core c) (.vsfu g fn va vd)) :
    exec (.vsfu g fn va vd) s = .next (issued s c 10 0 (fun k => (writeRow d 4 0
      (mapDraw .rne (fun _ x => sfu fn x) ((s.core c).elems a 4) ((s.core c).cfgAt rSRSTATE)) k).vBusy 4)) := by
  refine elementwise_goes hc hg hn nofun nofun (.cons hd rfl (.cons ha harb .nil)) hbound fun E hk hE _ => ?_
  rw [finishV_eq hk hE hd, srOf_passed hE, vEls_passed hk hE ha]

variable (hb : RowReady (s.core c) (if bs then va else vb) b) (hbrb : b.rb = d.rb)
include hb hbrb

theorem exec_vop2 (fn : Vop2Fn) (sat : Bool) (rm : Rm) (hbound : EngineBound (s.core c) (.vop2 g fn bs sat rm f vb va vd)) :
    let as := (s.core c).elems a (fmtSize f)
    exec (.vop2 g fn bs sat rm f vb va vd) s = .next (issued s c 10 0 (fun k => (writeRow d (fmtSize f) 0
      (mapDraw rm (vop2El fn f rm sat) (as.zip (secondElems (s.core c) bs vb b (fmtSize f) as.length))
        ((s.core c).cfgAt rSRSTATE)) k).vBusy 1)) := by
  refine elementwise_goes hc hg hn nofun nofun (.append (.cons hd rfl (.cons ha harb .nil)) (.bsRows hb hbrb)) hbound
    fun E hk hE hw => ?_
  rw [finishV_eq hk hE hd, srOf_passed hE, vEls_passed hk hE ha, vElsB_passed hk hE hw hb]

theorem exec_vint (fn : VintFn) (hbound : EngineBound (s.core c) (.vint g fn bs f vb va vd)) :
    let as := (s.core c).elems a (fmtSize f)
    exec (.vint g fn bs f vb va vd) s = .next (issued s c 10 0 (fun k => (writeRow d (fmtSize f) 0
      ((as.zip (secondElems (s.core c) bs vb b (fmtSize f) as.length)).map (fun x => vintEl fn (fmtSize f) x.1 x.2), 0,
        (s.core c).cfgAt rSRSTATE) k).vBusy 1)) := by
  refine elementwise_goes hc hg hn nofun nofun (.append (.cons hd rfl (.cons ha harb .nil)) (.bsRows hb hbrb)) hbound
    fun E hk hE hw => ?_
  rw [finishV_eq hk hE hd, srOf_passed hE, vEls_passed hk hE ha, vElsB_passed hk hE hw hb]

theorem exec_vcmp (qd : PReg) (qw : Bool) (cc : FCc) (hbound : EngineBound (s.core c) (.vcmp g qd qw cc bs f vb va vd)) :
    let as := (s.core c).elems a (fmtSize f)
    let rs := (as.zip (secondElems (s.core c) bs vb b (fmtSize f) as.length)).map (fun x => vcmpEl cc f x.1 x.2)
    exec (.vcmp g qd qw cc bs f vb va vd) s = .next (issued s c 10 0 (fun k =>
      let k2 := writeRow d (fmtSize f) 0
        (rs.map (fun t => if t then onesOf (fmtSize f) else 0), 0, (s.core c).cfgAt rSRSTATE) k
      (if qw then k2.setQ qd.toNat (rs.any id) else k2).vBusy 1)) := by
  intro as rs
  refine elementwise_goes hc hg hn nofun nofun (.append (.cons hd rfl (.cons ha harb .nil)) (.bsRows hb hbrb)) hbound
    fun E hk hE hw => ?_
  simp only [finishV_eq hk hE hd, srOf_passed hE, vEls_passed hk hE ha, vElsB_passed hk hE hw hb, wrPred_seq E hw, hE]
  cases qw
  case true => rw [if_pos rfl]; exact State.modCore_modCore _ _ _ _
  case false => rfl

variable (he : RowReady (s.core c) vc e) (herb : e.rb = d.rb)
include he herb

theorem exec_vfma (fn : VfmaFn) (sat : Bool) (rm : Rm)
    (hbound : EngineBound (s.core c) (.vfma g fn bs sat rm f vc vb va vd)) :
    let as := (s.core c).elems a (fmtSize f)
    exec (.vfma g fn bs sat rm f vc vb va vd) s = .next (issued s c 10 0 (fun k => (writeRow d (fmtSize f) 0
      (mapDraw rm (vfmaEl fn f rm sat) (as.zip ((secondElems (s.core c) bs vb b (fmtSize f) as.length).zip
        ((s.core c).elems e (fmtSize f)))) ((s.core c).cfgAt rSRSTATE)) k).vBusy 1)) := by
  refine elementwise_goes hc hg hn nofun nofun
    (.append (.append (.cons hd rfl (.cons ha harb .nil)) (.bsRows hb hbrb)) (.cons he herb .nil)) hbound fun E hk hE hw => ?_
  rw [finishV_eq hk hE hd, srOf_passed hE, vEls_passed hk hE ha, vEls_passed hk hE he, vElsB_passed hk hE hw hb]

theorem exec_vsel (hbound : EngineBound (s.core c) (.vsel g bs f vc vb va vd)) :
    let as := (s.core c).elems a (fmtSize f)
    exec (.vsel g bs f vc vb va vd) s = .next (issued s c 10 0 (fun k => (writeRow d (fmtSize f) 0
      ((as.zip ((secondElems (s.core c) bs vb b (fmtSize f) as.length).zip ((s.core c).elems e (fmtSize f)))).map
        (fun x => if x.2.2 != 0 then x.1 else x.2.1), 0, (s.core c).cfgAt rSRSTATE) k).vBusy 1)) := by
  refine elementwise_goes hc hg hn nofun nofun
    (.append (.append (.cons hd rfl (.cons ha harb .nil)) (.bsRows hb hbrb)) (.cons he herb .nil)) hbound fun E hk hE hw => ?_
  rw [finishV_eq hk hE hd, srOf_passed hE, vEls_passed hk hE ha, vEls_passed hk hE he, vElsB_passed hk hE hw hb]

end

/-- Settles O18: each instruction's effect on the device past its bundle, its rows being ready and of one length. -/
theorem vectorElementwise : Obligations.VectorElementwise := by
  unfold Obligations.VectorElementwise
  intro s c g vc vb va vd d a b e bs f hc hg hn hd ha hb he harb hbrb herb
  exact ⟨fun fn sat rm => exec_vop2 hc hg hn hd ha harb hb hbrb fn sat rm,
    fun fn sat rm => exec_vfma hc hg hn hd ha harb hb hbrb he herb fn sat rm,
    fun fn sat rm => exec_vop1 hc hg hn hd ha harb fn sat rm, exec_vsel hc hg hn hd ha harb hb hbrb he herb,
    fun fn => exec_vint hc hg hn hd ha harb hb hbrb fn, exec_vmovi hc hg hn hd, exec_vsfu hc hg hn hd ha harb,
    exec_vcmp hc hg hn hd ha harb hb hbrb⟩

end Sys2Proof.Machine
end

section
/-! What the integer functions of the V slot compute, as numbers (R31, R103, R106, R108, R110). -/
namespace Sys2Proof.Machine

/-- The least and the greatest value of an integer format (R31). -/
theorem intMin_eq (f : Fmt) : intMin f = if f = .uint8 then 0 else -(2 ^ (8 * fmtSize f - 1)) := by
  cases f <;> rfl

theorem intMax_eq (f : Fmt) : intMax f = if f = .uint8 then 2 ^ 8 - 1 else 2 ^ (8 * fmtSize f - 1) - 1 := by
  cases f <;> rfl

section
variable (f : Fmt) (v : Int)

theorem wrapInt_eq (size : Nat) : (wrapInt size v : Int) = v % 2 ^ (8 * size) :=
  Int.toNat_of_nonneg (Int.emod_nonneg v (by positivity))

theorem intRes_wraps : ((intRes f false v).bits : Int) = v % 2 ^ (8 * fmtSize f) := wrapInt_eq v _

theorem intRes_clamps : ((intRes f true v).bits : Int) =
    (if v < intMin f then intMin f else if intMax f < v then intMax f else v) % 2 ^ (8 * fmtSize f) := by
  unfold intRes
  rw [if_pos rfl]
  split
  · exact wrapInt_eq _ _
  · split
    · exact wrapInt_eq _ _
    · exact wrapInt_eq _ _

end

section
variable {f : Fmt} (hf : fmtIsInt f = true) (rm : Rm) (sat : Bool) (u a b c : Nat)
include hf

/-- R106: the arithmetic functions of VOP2 deliver their exact result. -/
theorem vop2El_int {fn : Vop2Fn} {v : Int}
    (h : (fn, v) ∈ [(Vop2Fn.add, intVal f a + intVal f b), (.sub, intVal f a - intVal f b), (.mul, intVal f a * intVal f b),
      (.absd, ((intVal f a - intVal f b).natAbs : Int))]) : vop2El fn f rm sat u (a, b) = intRes f sat v := by
  simp only [List.mem_cons, Prod.mk.injEq, List.not_mem_nil, or_false] at h
  rcases h with ⟨rfl, rfl⟩ | ⟨rfl, rfl⟩ | ⟨rfl, rfl⟩ | ⟨rfl, rfl⟩ <;> exact if_pos hf

theorem vop2El_mulh : ((vop2El .mulh f rm sat u (a, b)).bits : Int) =
    intVal f a * intVal f b / 2 ^ (8 * fmtSize f) % 2 ^ (8 * fmtSize f) := by
  rw [show vop2El .mulh f rm sat u (a, b) = _ from if_pos hf]
  exact wrapInt_eq _ _

theorem vop2El_min : (vop2El .min f rm sat u (a, b)).bits = if intVal f b < intVal f a then b else a :=
  congrArg FR.bits (if_pos hf)

theorem vop2El_max : (vop2El .max f rm sat u (a, b)).bits = if intVal f a < intVal f b then b else a :=
  congrArg FR.bits (if_pos hf)

/-- R108: VFMA delivers its exact result. -/
theorem vfmaEl_int {fn : VfmaFn} {v : Int}
    (h : (fn, v) ∈ [(VfmaFn.fma, intVal f a * intVal f b + intVal f c), (.fms, intVal f a * intVal f b - intVal f c),
      (.fnma, -(intVal f a * intVal f b) + intVal f c)]) : vfmaEl fn f rm sat u (a, b, c) = intRes f sat v := by
  simp only [List.mem_cons, Prod.mk.injEq, List.not_mem_nil, or_false] at h
  rcases h with ⟨rfl, rfl⟩ | ⟨rfl, rfl⟩ | ⟨rfl, rfl⟩ <;> exact if_pos hf

/-- R110: VCMP compares the values. -/
theorem vcmpEl_int (cc : FCc) : vcmpEl cc f a b = match cc with
    | .eq => decide (intVal f a = intVal f b)
    | .ne => decide (intVal f a ≠ intVal f b)
    | .lt => decide (intVal f a < intVal f b)
    | .le => decide (intVal f a ≤ intVal f b)
    | .gt => decide (intVal f b < intVal f a)
    | .ge => decide (intVal f b ≤ intVal f a)
    | .un => false := by
  rw [show vcmpEl cc f a b = _ from if_pos hf]
  cases cc
  case eq => exact Bool.beq_eq_decide_eq _ _
  case ne => exact (congrArg not (Bool.beq_eq_decide_eq _ _)).trans (decide_not).symm
  all_goals rfl

end

end Sys2Proof.Machine
end

section
/-! What the integer functions of lanes compute, as numbers (R165, R166, R168 to R170, R172). -/
namespace Sys2Proof.Machine

section
variable (a b : W32)

/-! ## Products and shifts (R165) -/

theorem toInt_bounds : -2 ^ 31 ≤ a.toInt ∧ a.toInt < 2 ^ 31 := ⟨a.le_toInt, a.toInt_lt⟩

/-- The high half of a word is its quotient by 2^32. -/
theorem toInt_highHalf (p : W64) : ((p >>> 32).setWidth 32).toInt = p.toInt / 2 ^ 32 := by
  have hp := p.isLt
  rw [BitVec.toInt_setWidth, BitVec.toNat_ushiftRight, Nat.shiftRight_eq_div_pow, BitVec.toInt_eq_toNat_cond,
    Int.bmod_def]
  push_cast
  split <;> split <;> omega

theorem iopRes_mulhs : (iopRes .mulhs a b).toInt = a.toInt * b.toInt / 2 ^ 32 := by
  have ha := toInt_bounds a
  have hb := toInt_bounds b
  have hlo : -2 ^ 62 ≤ a.toInt * b.toInt := by nlinarith
  have hhi : a.toInt * b.toInt ≤ 2 ^ 62 := by nlinarith
  rw [iopRes, toInt_highHalf, BitVec.toInt_mul, BitVec.toInt_signExtend_of_le (by decide),
    BitVec.toInt_signExtend_of_le (by decide), Int.bmod_eq_of_le (by omega) (by omega)]

theorem iopRes_mulhu : (iopRes .mulhu a b).toNat = a.toNat * b.toNat / 2 ^ 32 := by
  have hlt : a.toNat * b.toNat < 2 ^ 32 * 2 ^ 32 := Nat.mul_lt_mul'' a.isLt b.isLt
  have hprod : a.toNat * b.toNat % 2 ^ 64 = a.toNat * b.toNat := Nat.mod_eq_of_lt hlt
  have hdiv : a.toNat * b.toNat / 2 ^ 32 < 2 ^ 32 := Nat.div_lt_of_lt_mul hlt
  rw [iopRes, BitVec.toNat_setWidth, BitVec.toNat_ushiftRight, BitVec.toNat_mul, BitVec.toNat_setWidth_of_le (by decide),
    BitVec.toNat_setWidth_of_le (by decide), hprod, Nat.shiftRight_eq_div_pow, Nat.mod_eq_of_lt hdiv]

theorem iopRes_shl : (iopRes .shl a b).toNat = a.toNat * 2 ^ (b.toNat % 32) % 2 ^ 32 := by
  rw [iopRes, BitVec.toNat_shiftLeft, Nat.shiftLeft_eq]
  rfl

theorem iopRes_shr : (iopRes .shr a b).toNat = a.toNat / 2 ^ (b.toNat % 32) := by
  rw [iopRes, BitVec.toNat_ushiftRight, Nat.shiftRight_eq_div_pow]
  rfl

theorem iopRes_sra : (iopRes .sra a b).toInt = a.toInt / 2 ^ (b.toNat % 32) := by
  rw [iopRes, BitVec.toInt_sshiftRight, Int.shiftRight_eq_div_pow]
  rfl

/-! ## The lesser and the greater (R165) -/

theorem iopRes_min : (iopRes .min a b).toInt = min a.toInt b.toInt := by
  rw [iopRes, smin]
  split
  · next h => rw [BitVec.slt_iff_toInt_lt] at h; omega
  · next h => rw [BitVec.slt_iff_toInt_lt] at h; omega

theorem iopRes_max : (iopRes .max a b).toInt = max a.toInt b.toInt := by
  rw [iopRes, smax]
  split
  · next h => rw [BitVec.slt_iff_toInt_lt] at h; omega
  · next h => rw [BitVec.slt_iff_toInt_lt] at h; omega

theorem iopRes_minu : (iopRes .minu a b).toNat = min a.toNat b.toNat := by
  rw [iopRes, umin]
  split
  · next h => rw [BitVec.lt_def] at h; omega
  · next h => rw [BitVec.lt_def] at h; omega

theorem iopRes_maxu : (iopRes .maxu a b).toNat = max a.toNat b.toNat := by
  rw [iopRes, umax]
  split
  · next h => rw [BitVec.lt_def] at h; omega
  · next h => rw [BitVec.lt_def] at h; omega

/-! ## Division (R166) -/

/-- A quotient goes toward zero; only the least number by −1 overflows. -/
theorem idivRes_divs (h : a.toInt ≠ -(2 ^ 31) ∨ b.toInt ≠ -1) : (idivRes .divs a b).toInt = a.toInt.tdiv b.toInt := by
  refine BitVec.toInt_sdiv_of_ne_or_ne a b (h.imp (fun h he => h ?_) fun h he => h ?_)
  · rw [he]; rfl
  · rw [he]; rfl

/-! ## Saturation (R168) -/

/-- A word between the bounds of its signed range is the number itself. -/
theorem toInt_ofInt_of_bounds {v : Int} (h : -(2 ^ 31) ≤ v) (h' : v ≤ 2 ^ 31 - 1) : (BitVec.ofInt 32 v).toInt = v := by
  rw [BitVec.toInt_ofInt, Int.bmod_eq_of_le (by omega) (by omega)]

theorem toNat_ofInt_of_bounds {v : Int} (h : 0 ≤ v) (h' : v ≤ 2 ^ 32 - 1) : ((BitVec.ofInt 32 v).toNat : Int) = v := by
  rw [BitVec.toNat_ofInt, Int.toNat_of_nonneg (by omega)]
  omega

/-- R168: a value clamped to the signed range, and whether it was. -/
def clampS (v : Int) : W32 × Bool :=
  if v < -(2 ^ 31) then (BitVec.ofInt 32 (-(2 ^ 31)), true)
  else if 2 ^ 31 - 1 < v then (BitVec.ofInt 32 (2 ^ 31 - 1), true)
  else (BitVec.ofInt 32 v, false)

/-- R168: a value clamped to the unsigned range, and whether it was. -/
def clampU (v : Int) : W32 × Bool :=
  if v < 0 then (BitVec.ofInt 32 0, true)
  else if 2 ^ 32 - 1 < v then (BitVec.ofInt 32 (2 ^ 32 - 1), true)
  else (BitVec.ofInt 32 v, false)

theorem isatRes_adds : isatRes .adds a b = clampS (a.toInt + b.toInt) := rfl
theorem isatRes_subs : isatRes .subs a b = clampS (a.toInt - b.toInt) := rfl
theorem isatRes_addus : isatRes .addus a b = clampU (a.toNat + b.toNat) := rfl
theorem isatRes_subus : isatRes .subus a b = clampU (a.toNat - b.toNat) := rfl

theorem clampS_value (v : Int) : (clampS v).1.toInt = max (-(2 ^ 31)) (min (2 ^ 31 - 1) v) := by
  unfold clampS
  split
  · rw [toInt_ofInt_of_bounds (by omega) (by omega)]; omega
  · split
    · rw [toInt_ofInt_of_bounds (by omega) (by omega)]; omega
    · rw [toInt_ofInt_of_bounds (by omega) (by omega)]; omega

theorem clampU_value (v : Int) : ((clampU v).1.toNat : Int) = max 0 (min (2 ^ 32 - 1) v) := by
  unfold clampU
  split
  · rw [toNat_ofInt_of_bounds (by omega) (by omega)]; omega
  · split
    · rw [toNat_ofInt_of_bounds (by omega) (by omega)]; omega
    · rw [toNat_ofInt_of_bounds (by omega) (by omega)]; omega

/-- The mark of a clamp is set where the value is not the exact one. -/
theorem clampS_marks (v : Int) : (clampS v).2 = true ↔ (clampS v).1.toInt ≠ v := by
  rw [clampS_value, clampS]
  split
  · exact iff_of_true rfl (by omega)
  · split
    · exact iff_of_true rfl (by omega)
    · exact iff_of_false nofun (by omega)

/-! ## Bits (R169, R170) -/

theorem testBit_maskOf {l : List Nat} (h : l.SortedLT) (n : Nat) : (maskOf l).testBit n = true ↔ n ∈ l := by
  rw [← Nat.mem_bitIndices, maskOf, Nat.bitIndices_sum_map_two_pow h]

theorem getLsbD_revBits {n : Nat} (hn : n < 32) : (revBits a).getLsbD n = a.getLsbD (31 - n) := by
  have hs : ((List.range 32).filter (fun n => a.getLsbD (31 - n))).SortedLT :=
    ((List.sortedLT_range 32).pairwise.filter _).sortedLT
  rw [revBits, w32, BitVec.getLsbD_ofNat, decide_eq_true hn, Bool.true_and, Bool.eq_iff_iff, testBit_maskOf hs]
  simp [hn]

/-- Below bit n − clz every bit above the first that is set, from bit n − 1 down, is clear. -/
theorem clzGo_above (n m : Nat) (h : n - clzGo a n ≤ m) (h' : m < n) : a.getLsbD m = false := by
  induction n with
  | zero => exact absurd h' (Nat.not_lt_zero m)
  | succ n ih =>
    rw [clzGo] at h
    split at h
    · omega
    · next hbit =>
      rcases Nat.lt_succ_iff_lt_or_eq.mp h' with hlt | rfl
      · exact ih (by omega) hlt
      · exact Bool.eq_false_iff.mpr hbit

/-- Where a bit below n is set, the count ends at the highest one. -/
theorem clzGo_stops (n m : Nat) (hm : m < n) (h : a.getLsbD m = true) :
    clzGo a n < n ∧ a.getLsbD (n - 1 - clzGo a n) = true := by
  induction n with
  | zero => exact absurd hm (Nat.not_lt_zero m)
  | succ n ih =>
    rw [clzGo]
    split
    · next hbit => exact ⟨Nat.succ_pos n, hbit⟩
    · next hbit =>
      have hlt : m < n := (Nat.lt_succ_iff_lt_or_eq.mp hm).resolve_right fun he => hbit (he ▸ h)
      obtain ⟨h1, h2⟩ := ih hlt
      exact ⟨Nat.succ_lt_succ h1, by rwa [show n + 1 - 1 - (clzGo a n + 1) = n - 1 - clzGo a n by omega]⟩

theorem toNat_clz {a : W32} (h : clzGo a 32 < 32) : (ibitRes .clz a).toNat = clzGo a 32 := by
  rw [ibitRes, w32, BitVec.toNat_ofNat, Nat.mod_eq_of_lt (by omega)]

/-- CLZ of a word that is not zero: the bit that it ends at is set, and none above it. -/
theorem ibitRes_clz {a : W32} (h : a ≠ 0) : (ibitRes .clz a).toNat < 32 ∧
    a.getLsbD (31 - (ibitRes .clz a).toNat) = true ∧ a.toNat < 2 ^ (32 - (ibitRes .clz a).toNat) := by
  obtain ⟨m, hm, hbit⟩ : ∃ m, m < 32 ∧ a.getLsbD m = true := by
    by_contra hno
    exact h (BitVec.eq_of_getLsbD_eq fun m hm =>
      (Bool.eq_false_iff.mpr fun hb => hno ⟨m, hm, hb⟩).trans BitVec.getLsbD_zero.symm)
  obtain ⟨hlt, hset⟩ := clzGo_stops a 32 m hm hbit
  rw [toNat_clz hlt]
  refine ⟨hlt, hset, Nat.lt_pow_two_of_testBit _ fun i hi => ?_⟩
  rcases Nat.lt_or_ge i 32 with h32 | h32
  · exact clzGo_above a 32 i hi h32
  · exact BitVec.getLsbD_of_ge a i h32

theorem bfxRes_unsigned {len pos : Nat} (hlen : len ≤ 32) :
    (bfxRes false a len pos).toNat = a.toNat / 2 ^ pos % 2 ^ len := by
  have hlt : a.toNat / 2 ^ pos % 2 ^ len < 2 ^ 32 :=
    (Nat.mod_lt _ (by positivity)).trans_le (Nat.pow_le_pow_right (by decide) hlen)
  exact Nat.mod_eq_of_lt hlt

/-- BFI: the low bits of b from bit POS on, and the bits of a elsewhere. -/
theorem getLsbD_bfiRes {len pos n : Nat} (hn : n < 32) : (bfiRes a b len pos).getLsbD n =
    if pos ≤ n ∧ n < pos + len then b.getLsbD (n - pos) else a.getLsbD n := by
  have hmask : (w32 ((2 ^ len - 1) * 2 ^ pos)).getLsbD n = decide (pos ≤ n ∧ n < pos + len) := by
    rw [w32, BitVec.getLsbD_ofNat, Nat.testBit_mul_two_pow, Nat.testBit_two_pow_sub_one, decide_eq_true hn,
      Bool.true_and, ← Bool.decide_and]
    exact decide_eq_decide.mpr (by omega)
  have hfield : (w32 (b.toNat * 2 ^ pos)).getLsbD n = (decide (pos ≤ n) && b.getLsbD (n - pos)) := by
    rw [w32, BitVec.getLsbD_ofNat, Nat.testBit_mul_two_pow, decide_eq_true hn, Bool.true_and]
    rfl
  rw [bfiRes, BitVec.getLsbD_or, BitVec.getLsbD_and, BitVec.getLsbD_and, BitVec.getLsbD_not, hmask, hfield,
    decide_eq_true hn]
  split
  · next h => simp [h]
  · next h => simp [h]

/-! ## Comparisons (R172) -/

theorem iccRes_iff {cc : ICc} {v : Prop} (h : (cc, v) ∈ [(ICc.lt, a.toInt < b.toInt), (.le, a.toInt ≤ b.toInt),
      (.gt, b.toInt < a.toInt), (.ge, b.toInt ≤ a.toInt), (.ltu, a.toNat < b.toNat), (.leu, a.toNat ≤ b.toNat),
      (.gtu, b.toNat < a.toNat), (.geu, b.toNat ≤ a.toNat), (.eq, a = b), (.ne, a ≠ b)]) :
    iccRes cc a b = true ↔ v := by
  simp only [List.mem_cons, Prod.mk.injEq, List.not_mem_nil, or_false] at h
  rcases h with ⟨rfl, rfl⟩ | ⟨rfl, rfl⟩ | ⟨rfl, rfl⟩ | ⟨rfl, rfl⟩ | ⟨rfl, rfl⟩ | ⟨rfl, rfl⟩ | ⟨rfl, rfl⟩ | ⟨rfl, rfl⟩ |
    ⟨rfl, rfl⟩ | ⟨rfl, rfl⟩
  case inl | inr.inr.inl => exact BitVec.slt_iff_toInt_lt
  all_goals simp [iccRes, BitVec.lt_def, BitVec.slt_eq_decide]

end

/-- Settles O22: the exact results of the V slot's functions, then the functions of lanes one by one. -/
theorem integerFunctions : Obligations.IntegerFunctions := by
  unfold Obligations.IntegerFunctions
  refine ⟨fun f rm u a b c hf => ?elements, fun a b len pos => ?lanes⟩
  case elements =>
    intro n x y lo hi wraps clamps
    have hclamps : ∀ v, clamps (intRes f true v) v := fun v => by
      have h := intRes_clamps f v
      rw [intMin_eq, intMax_eq] at h
      exact h
    refine ⟨fun fn v h => ⟨?_, ?_⟩, fun fn v h => ⟨?_, ?_⟩, fun sat => vop2El_mulh hf rm sat u a b,
      fun sat => ⟨vop2El_min hf rm sat u a b, vop2El_max hf rm sat u a b⟩, vcmpEl_int hf a b .eq, vcmpEl_int hf a b .ne,
      vcmpEl_int hf a b .lt, vcmpEl_int hf a b .le, vcmpEl_int hf a b .gt, vcmpEl_int hf a b .ge, vcmpEl_int hf a b .un⟩
    · exact vop2El_int hf rm false u a b h ▸ intRes_wraps f v
    · exact vop2El_int hf rm true u a b h ▸ hclamps v
    · exact vfmaEl_int hf rm false u a b c h ▸ intRes_wraps f v
    · exact vfmaEl_int hf rm true u a b c h ▸ hclamps v
  case lanes =>
    refine ⟨iopRes_mulhs a b, iopRes_mulhu a b, iopRes_shl a b, iopRes_shr a b, iopRes_sra a b, iopRes_min a b,
      iopRes_max a b, iopRes_minu a b, iopRes_maxu a b,
      fun _ => ⟨idivRes_divs a b, BitVec.toInt_srem a b, BitVec.toNat_udiv, BitVec.toNat_umod⟩, ?adds, ?subs, ?addus,
      ?subus, ?marks, fun n => getLsbD_revBits a, ibitRes_clz, ?zero,
      fun _ hlen _ => ⟨bfxRes_unsigned a hlen, fun n => getLsbD_bfiRes a b⟩, fun cc v => iccRes_iff a b⟩
    case adds => rw [isatRes_adds, clampS_value]
    case subs => rw [isatRes_subs, clampS_value]
    case addus =>
      have h := clampU_value (a.toNat + b.toNat)
      rw [isatRes_addus]
      omega
    case subus =>
      have h := clampU_value (a.toNat - b.toNat)
      have hb := a.isLt
      rw [isatRes_subus]
      omega
    case marks => rw [isatRes_adds, clampS_marks]
    case zero =>
      rintro rfl
      exact ⟨by decide, by decide⟩

end Sys2Proof.Machine
end

section
/-! Where R64 holds a V-slot store back before R65 judges it: in MM1 mode (R328) a store of the sequencer that has not
landed holds back VSTT and VCVTO under its handle, whatever their checks would say. -/
namespace Sys2Proof.Machine

/-! ## Waiting -/

/-- In MM1 mode a store of the sequencer under a handle is still in the write buffers (R250, R328). -/
def HeldBack (k : Core) (h : Nat) : Prop := k.fstr = true ∧ ∃ b ∈ k.buf, b.under .seq h = true

/-- Tiles that are all ready need not be brought. -/
theorem bringTiles_ready {s : State} {c : Nat} {ts : List Nat} (h : tilesReady (s.core c) ts = true) :
    bringTiles s c ts = s := by
  have hnone : ts.filter (tileAway (s.core c)) = [] := List.filter_eq_nil_iff.mpr fun t ht => by
    have hr := List.all_eq_true.mp h t ht
    simp only [tileReady, Bool.and_eq_true, Bool.not_eq_true'] at hr
    simp [hr.2]
  rw [bringTiles, hnone, List.foldl_nil]

/-- Registers that name rows that can be used now name tiles that are ready. -/
theorem tilesReady_vTiles {k : Core} {names : List VReg} (h : ∀ n ∈ names, ∃ r, RowReady k n r) :
    tilesReady k (vTiles k names) = true := by
  refine List.all_eq_true.mpr fun t ht => ?_
  obtain ⟨n, hn, hm⟩ := List.mem_filterMap.mp ht
  obtain ⟨r, hv, hr⟩ := h n hn
  rw [hv] at hm
  cases hm
  exact hr

theorem unresolved_none {k : Core} {names : List VReg} (h : ∀ n ∈ names, ∃ r, RowReady k n r) :
    unresolved k names = none :=
  List.find?_eq_none.mpr fun n hn => by
    obtain ⟨r, hv, _⟩ := h n hn
    simp [hv]

/-- A store of the V slot is not ready behind a store that holds its handle back. -/
theorem vAccReady_heldBack {s : State} {e : Env} {h : Nat} (hw : e.who = .seq) (hf : e.cHandles = none)
    (hh : HeldBack (s.core e.c) h) (sp : Space) (ad n : Nat) : vAccReady e s h sp ad n true = false := by
  obtain ⟨hmm1, b, hb, hu⟩ := hh
  have hbuf : (s.core e.c).buf.all (fun b => !b.under e.who h) = false :=
    List.all_eq_false.mpr ⟨b, hb, by rw [hw, hu]; decide⟩
  simp only [vAccReady, afterForks, hf, hmm1, hbuf, Bool.not_true, Bool.or_false, Bool.and_false, Bool.false_or,
    Bool.false_and]

section
variable {s : State} {c : Nat} {g : Guard} (hc : CanIssue s c) (hg : Enabled (s.core c) g)
include hc hg

/-- A slot that is bound to its engine and not ready waits; where it brings no tile, nothing happens. -/
theorem issueHard_waits {x : SlotSem} (hx : x.guard = g) (hb : EngineBound (s.core c) x.i)
    (hl : x.legal (s.core c) = true) (hr : x.ready (soloMarks s c x) s = false)
    (hp : x.poll (soloMarks s c x) s true = s) : issueHard x s = .next s := by
  rw [issueHard_bound hc hb, issueOne_waits hc hl (enabled_of hx hg) hr, hp]

theorem exec_vstt_waits {desc : Desc} {rowix : BitVec 10} {win : Win} {peer : BitVec 2} {am : Bool} {oh : Handle}
    {sa : SReg} {vs : VReg} {d : Row} (hb : EngineBound (s.core c) (.vstt g desc rowix win peer am oh sa vs))
    (hd : RowReady (s.core c) vs d) (hh : HeldBack (s.core c) oh.toNat) :
    exec (.vstt g desc rowix win peer am oh sa vs) s = .next s := by
  have hrows : ∀ n ∈ [vs], ∃ r, RowReady (s.core c) n r := List.forall_mem_singleton.mpr ⟨d, hd⟩
  refine issueHard_waits hc hg rfl hb rfl ?_ (bringTiles_ready (tilesReady_vTiles hrows))
  refine Bool.and_eq_false_iff.mpr (.inr (Bool.or_eq_false_iff.mpr ⟨?_, vAccReady_heldBack rfl rfl hh _ _ _⟩))
  exact congrArg Option.isSome (unresolved_none hrows)

theorem exec_vcvto_waits {desc : Desc} {rm : Rm} {tgt : Fmt} {sat : Bool} {part : BitVec 2} {sd : SReg} {va vd : VReg}
    {d a : Row} (hb : EngineBound (s.core c) (.vcvto g desc rm tgt sat part sd va vd))
    (hd : RowReady (s.core c) vd d) (ha : RowReady (s.core c) va a) (hh : HeldBack (s.core c) 0)
    (hout : ((s.core c).elems a 4).any (isOutlier (((s.core c).cfgAt rOTH).toNat % 2 ^ 32)) = true) :
    exec (.vcvto g desc rm tgt sat part sd va vd) s = .next s := by
  have hrows : ∀ n ∈ [vd, va], ∃ r, RowReady (s.core c) n r :=
    List.forall_mem_cons.mpr ⟨⟨d, hd⟩, List.forall_mem_singleton.mpr ⟨a, ha⟩⟩
  refine issueHard_waits hc hg rfl hb rfl ?_ (bringTiles_ready (tilesReady_vTiles hrows))
  refine Bool.and_eq_false_iff.mpr (.inr (Bool.or_eq_false_iff.mpr
    ⟨Bool.or_eq_false_iff.mpr ⟨?_, ?_⟩, vAccReady_heldBack rfl rfl hh _ _ _⟩))
  · exact congrArg Option.isSome (unresolved_none hrows)
  · have hels : vEls (soloMarks s c (semVcvto g desc rm tgt sat part sd va vd)) s va 4 = (s.core c).elems a 4 := by
      rw [vEls, rowOf_ready ha rfl]
      rfl
    obtain ⟨x, hx, hx'⟩ := List.any_eq_true.mp hout
    exact List.isEmpty_eq_false_iff_exists_mem.mpr ⟨x, List.mem_filter.mpr ⟨hels ▸ hx, hx'⟩⟩

end

/-! ## A wait is no trap -/

@[simp] theorem halt_stopAgent (k : Core) (t : Trap) : (stopAgent k t).halt = k.halt := by
  unfold stopAgent
  split
  · rfl
  · split <;> rfl

@[simp] theorem halt_dropFailure (k : Core) (a : Agent) : (dropFailure k a).halt = k.halt := by
  unfold dropFailure
  split <;> rfl

@[simp] theorem halt_setCfg (k : Core) (n : Nat) (v : W64) : (k.setCfg n v).halt = k.halt := rfl

/-- The first trap of a halt is recorded (R331). -/
theorem halt_raiseTrap {s : State} {c : Nat} (h : (s.core c).halt = none) (t : Trap) :
    ((raiseTrap s c t).core c).halt ≠ none := by
  unfold raiseTrap
  simp only
  generalize hk : (if t.cause = .fabric ∨ (t.cause = .memerr ∧ t.status = 16) then _ else _ : Core) = k2
  have h2 : k2.halt = none := by
    subst hk
    split <;> split <;> simp [h]
  rw [h2]
  simp only
  split
  · rw [State.core_setCore]; exact nofun
  · split <;> (rw [State.core_setMotif, State.core_setCore]; exact nofun)

theorem raiseTrap_ne_self {s : State} {c : Nat} (h : (s.core c).halt = none) (t : Trap) : raiseTrap s c t ≠ s :=
  fun he => halt_raiseTrap h t (by rw [he]; exact h)

/-! ## A core on which both wait -/

/-- In MM1 mode, with a store under o0 in the write buffers: tiles 0 and 1 of 16 rows of 512 bytes, 2.0 as the first
element of tile 0 and 1.0 as the outlier threshold, ring c3 of one slot of 64 bytes, a share of 1,024 bytes and its end
in s5. -/
def heldCore (k : Core) : Core :=
  Core.putStore .seq 0 .gm 0x2000 Trans.none [1]
    { ((((((k.setCfg rTSHAPE 0x801C00).setCfg (rTSHAPE + 1) 0x801C00).setCfg rMMCTL 1).setCfg rOTH 0x3F800000).setCfg
        (rCBDESC + 3) 0x180000000).setS 5 1024) with share := 1024, tiles := putBytes k.tiles 0 (leBytes 4 0x40000000) }

def heldState : State := (State.reset.withFetchWord 16 0).modCore 0 heldCore

abbrev noGuard : Guard := ⟨false, 0⟩

theorem heldState_issues : CanIssue heldState 0 ∧ Enabled (heldState.core 0) noGuard ∧
    NotRecording (heldState.core 0) ∧ (heldState.core 0).halt = none ∧
    RowReady (heldState.core 0) 0 ⟨0, 0, 512, false⟩ ∧ RowReady (heldState.core 0) 16 ⟨1, 0, 512, false⟩ := by
  unfold CanIssue Enabled NotRecording RowReady
  decide +kernel

theorem heldState_held : HeldBack (heldState.core 0) 0 := by
  unfold HeldBack
  decide +kernel

/-- Refutes O20: on `heldState` the slot of c3 has 64 bytes and the row 128 elements, so that the statement has VCVTO
trap CBUF; its row has an outlier, and behind the store under o0 the slot is not ready (R64, R117, R328), so that it
waits and is not judged. -/
theorem not_vectorMovesAndConversions : ¬ Obligations.VectorMovesAndConversions := by
  unfold Obligations.VectorMovesAndConversions
  rintro ⟨-, hcvto⟩
  obtain ⟨hc, hg, hn, hhalt, ha, hd⟩ := heldState_issues
  have hb : EngineBound (heldState.core 0) (.vcvto noGuard 0x23 .rne (.b8 4 false false) true 0 6 0 16) := by
    unfold EngineBound
    decide +kernel
  obtain ⟨-, htrap⟩ := hcvto heldState 0 noGuard 0x23 .rne (.b8 4 false false) true 0 6 0 16 _ _ hc hg hn hd ha rfl hb
    (by decide +kernel) (by decide +kernel) (by decide +kernel)
  obtain ⟨x, hx, -⟩ := htrap (by decide +kernel)
  rw [exec_vcvto_waits hc hg hb hd ha heldState_held (by decide +kernel)] at hx
  exact raiseTrap_ne_self hhalt x (Host.Outcome.next.inj hx).symm

/-- Refutes O21: on `heldState` s5 is the end of the share, so that the statement has VSTT under o0 trap TSRANGE; behind
the store under o0 the slot is not ready (R64, R117, R328), so that it waits and is not judged. -/
theorem not_vectorRowAccess : ¬ Obligations.VectorRowAccess := by
  unfold Obligations.VectorRowAccess
  intro h
  obtain ⟨hc, hg, hn, hhalt, ha, -⟩ := heldState_issues
  have hld : EngineBound (heldState.core 0) (.vldt noGuard 0 0 .own 0 true 0 5 0) := by
    unfold EngineBound
    decide +kernel
  have hst : EngineBound (heldState.core 0) (.vstt noGuard 0 0 .own 0 true 0 5 0) := by
    unfold EngineBound
    decide +kernel
  obtain ⟨-, -, -, -, -, hpeer⟩ := h heldState 0 noGuard 0 0 true 0 5 0 _ hc hg hn ha (by decide +kernel) (by decide +kernel)
  obtain ⟨hrange, -⟩ := hpeer 0 rfl hld hst (by decide +kernel)
  obtain ⟨x, hx, -⟩ := hrange (by decide +kernel) _ (List.mem_cons_of_mem _ List.mem_cons_self)
  rw [exec_vstt_waits hc hg hst ha heldState_held] at hx
  exact raiseTrap_ne_self hhalt x (Host.Outcome.next.inj hx).symm

end Sys2Proof.Machine
end

section
/-! Lists of numbers in memory, and lists of rows of one length. -/
namespace Sys2Proof.Machine

theorem numAt_putBytes_other {m : Map Byte} {a n b : Nat} {bs : List Byte} (h : a + n ≤ b ∨ b + bs.length ≤ a) :
    numAt (putBytes m b bs) a n = numAt m a n :=
  numAt_congr fun x h1 h2 => byteAt_putBytes_other _ _ _ _ (by omega)

theorem getElem_bytesAt (m : Map Byte) (a n i : Nat) (h : i < (bytesAt m a n).length) :
    (bytesAt m a n)[i] = byteAt m (a + i) := by
  induction n generalizing a i with
  | zero => exact absurd h (Nat.not_lt_zero i)
  | succ n ih =>
    cases i with
    | zero => rfl
    | succ i => exact (ih (a + 1) i _).trans (by rw [Nat.add_assoc, Nat.add_comm 1 i])

theorem putBytes_append (m : Map Byte) (a : Nat) (xs ys : List Byte) :
    putBytes m a (xs ++ ys) = putBytes (putBytes m a xs) (a + xs.length) ys := by
  induction xs generalizing m a with
  | nil => rfl
  | cons x xs ih => rw [List.cons_append, putBytes, putBytes, ih, List.length_cons, Nat.add_assoc, Nat.add_comm 1]

theorem length_bytesOf (n : Nat) (l : List Nat) : (bytesOf n l).length = n * l.length := by
  induction l with
  | nil => rfl
  | cons v l ih =>
    rw [bytesOf, List.flatMap_cons, List.length_append, length_leBytes, ← bytesOf, ih, List.length_cons, Nat.mul_succ,
      Nat.add_comm]

/-- Numbers that have been written one after the other read back. -/
theorem numAt_putBytes_bytesOf (m : Map Byte) (a n : Nat) (l : List Nat) {i : Nat} (h : i < l.length) :
    numAt (putBytes m a (bytesOf n l)) (a + n * i) n = l[i] % 2 ^ (8 * n) := by
  induction l generalizing m a i with
  | nil => exact absurd h (Nat.not_lt_zero i)
  | cons v l ih =>
    rw [bytesOf, List.flatMap_cons, ← bytesOf, putBytes_append, length_leBytes]
    cases i with
    | zero => rw [Nat.mul_zero, Nat.add_zero, numAt_putBytes_other (.inl le_rfl), numAt_putBytes_leBytes]; rfl
    | succ i =>
      rw [show a + n * (i + 1) = a + n + n * i by rw [Nat.mul_succ]; omega]
      exact ih _ _ (Nat.lt_of_succ_lt_succ h)

end Sys2Proof.Machine
end

section
/-! What the operations of the distributor leave of its books: motifs, launches, and which motif each core holds. -/
namespace Sys2Proof.Machine

/-! ## Landing (R248, R294) -/

/-- Nothing of a core has changed but its registers. -/
def CfgOnly (k k' : Core) : Prop := k' = { k with cfg := k'.cfg }

theorem CfgOnly.refl (k : Core) : CfgOnly k k := rfl

theorem CfgOnly.trans {k k' k'' : Core} (h : CfgOnly k k') (h' : CfgOnly k' k'') : CfgOnly k k'' := by
  unfold CfgOnly at *
  rw [h', h]

theorem cfgOnly_monFields (m : Nat) (x : Mon) (a : Nat) (bs : List Byte) (ns : List Nat) (k : Core) :
    CfgOnly k (monFields k m x a bs ns) := by
  induction ns generalizing k with
  | nil => exact .refl k
  | cons n ns ih =>
    rw [monFields]
    refine CfgOnly.trans ?_ (ih _)
    dsimp only
    split
    · split <;> rfl
    · exact .refl k

/-- The monitors of a core count what lands in their own registers. -/
theorem cfgOnly_monLand (k : Core) (ts : Bool) (src a : Nat) (bs : List Byte) : CfgOnly k (monLand k ts src a bs) := by
  unfold monLand
  generalize [0, 1, 2, 3] = l
  induction l generalizing k with
  | nil => exact .refl k
  | cons m l ih =>
    rw [List.foldl_cons]
    refine CfgOnly.trans ?_ (ih _)
    dsimp only
    split
    · exact cfgOnly_monFields _ _ _ _ _ _
    · exact .refl k

theorem CfgOnly.motif {k k' : Core} (h : CfgOnly k k') : k'.motif = k.motif := by rw [h]
theorem CfgOnly.ts {k k' : Core} (h : CfgOnly k k') : k'.ts = k.ts := by rw [h]

/-- What lands in a tile store is its bytes (R248). -/
theorem landTs_ts (s : State) (o src off : Nat) (bs : List Byte) :
    ((landTs s o src off bs).core o).ts = putBytes (s.core o).ts off bs := by
  rw [landTs, State.core_modCore, (cfgOnly_monLand _ _ _ _ _).ts]

/-! ## The books -/

/-- Motifs and launches stand as before, and each core holds the motif that it held. -/
structure SameBooks (s t : State) : Prop where
  motifs : t.motifs = s.motifs
  launches : t.launches = s.launches
  holds : ∀ c, (t.core c).motif = (s.core c).motif

theorem SameBooks.refl (s : State) : SameBooks s s := ⟨rfl, rfl, fun _ => rfl⟩

theorem SameBooks.trans {s t u : State} (h : SameBooks s t) (h' : SameBooks t u) : SameBooks s u :=
  ⟨h'.motifs.trans h.motifs, h'.launches.trans h.launches, fun c => (h'.holds c).trans (h.holds c)⟩

theorem SameBooks.foldl {α : Type} {f : State → α → State} (hf : ∀ s a, SameBooks s (f s a)) (l : List α) (s : State) :
    SameBooks s (l.foldl f s) := by
  induction l generalizing s with
  | nil => exact .refl s
  | cons a l ih => exact (hf s a).trans (ih _)

theorem sameBooks_modCore {s : State} {c : Nat} {f : Core → Core} (hf : (f (s.core c)).motif = (s.core c).motif) :
    SameBooks s (s.modCore c f) := by
  refine ⟨rfl, rfl, fun o => ?_⟩
  by_cases ho : o = c
  · rw [ho, State.core_modCore, hf]
  · rw [State.core_modCore_other _ _ ho]

theorem sameBooks_physWrite (s : State) (pa : Nat) (bs : List Byte) : SameBooks s (physWrite s pa bs) :=
  ⟨rfl, rfl, fun _ => rfl⟩

theorem sameBooks_landTs (s : State) (o src off : Nat) (bs : List Byte) : SameBooks s (landTs s o src off bs) :=
  sameBooks_modCore (cfgOnly_monLand _ _ _ _ _).motif

theorem sameBooks_landStore (s : State) (c : Nat) (st : BufStore) : SameBooks s (landStore s c st) := by
  unfold landStore
  cases st.space with
  | gm => exact (sameBooks_physWrite s _ _).trans (sameBooks_modCore (cfgOnly_monLand _ _ _ _ _).motif)
  | ts => exact sameBooks_landTs _ _ _ _ _
  | peer o => exact sameBooks_landTs _ _ _ _ _
  | mcast => exact .foldl (fun s o => sameBooks_landTs _ _ _ _ _) _ s

theorem RequestOnly.sameBooks {s t : State} (h : RequestOnly s t) : SameBooks s t := by
  refine ⟨?_, ?_, fun c => by rw [h.core]⟩ <;> rw [h]

/-- A write to a mapped line (R404) is dropped, or goes to memory. -/
theorem mappedWrite_cases (s : State) (pa : Nat) (bs : List Byte) :
    mappedWrite s pa bs = s ∨ mappedWrite s pa bs = physWrite s pa bs := by
  unfold mappedWrite
  split
  · exact .inl rfl
  · exact .inr rfl

/-- A write to the record of a launch (R126, R130) is dropped, goes to memory, or is asked of another device. -/
theorem recWrite_cases (s : State) (l : Launch) (off : Nat) (v : W64) : recWrite s l off v = s ∨
    (∃ pa bs, recWrite s l off v = physWrite s pa bs) ∨ RequestOnly s (recWrite s l off v) := by
  have hmapped (pa : Nat) (bs : List Byte) : mappedWrite s pa bs = s ∨
      (∃ pa' bs', mappedWrite s pa bs = physWrite s pa' bs') ∨ RequestOnly s (mappedWrite s pa bs) :=
    (mappedWrite_cases s pa bs).imp_right fun h => .inl ⟨pa, bs, h⟩
  unfold recWrite
  split
  · exact .inl rfl
  · split
    · exact hmapped _ _
    · dsimp only
      split
      · exact .inl rfl
      · split
        · exact .inr (.inr (postReq_requests _ _ _ _ _ _ _ _ _ _))
        · exact hmapped _ _

theorem sameBooks_mappedWrite (s : State) (pa : Nat) (bs : List Byte) : SameBooks s (mappedWrite s pa bs) := by
  rcases mappedWrite_cases s pa bs with h | h <;> rw [h]
  · exact .refl s
  · exact sameBooks_physWrite s pa bs

theorem sameBooks_recWrite (s : State) (l : Launch) (off : Nat) (v : W64) : SameBooks s (recWrite s l off v) := by
  rcases recWrite_cases s l off v with h | ⟨pa, bs, h⟩ | h
  · rw [h]
    exact .refl s
  · rw [h]
    exact sameBooks_physWrite s pa bs
  · exact h.sameBooks

/-! ## Leases (R223 to R226) -/

/-- Nothing has changed but leases, and how the array stands to the commands of each core. -/
structure LeaseOnly (s t : State) : Prop where
  rest : t = { s with cores := t.cores, clusters := t.clusters }
  core : ∀ c, t.core c = { s.core c with mcmds := (t.core c).mcmds }

theorem LeaseOnly.refl (s : State) : LeaseOnly s s := ⟨rfl, fun _ => rfl⟩

theorem LeaseOnly.trans {s t u : State} (h : LeaseOnly s t) (h' : LeaseOnly t u) : LeaseOnly s u :=
  ⟨by rw [h'.rest, h.rest], fun c => by rw [h'.core, h.core]⟩

theorem LeaseOnly.sameBooks {s t : State} (h : LeaseOnly s t) : SameBooks s t :=
  ⟨by rw [h.rest], by rw [h.rest], fun c => by rw [h.core]⟩

theorem LeaseOnly.mem {s t : State} (h : LeaseOnly s t) : t.mem = s.mem := by rw [h.rest]

theorem leaseOnly_setCluster (s : State) (n : Nat) (x : Cluster) : LeaseOnly s (s.setCluster n x) := ⟨rfl, fun _ => rfl⟩

theorem leaseOnly_modCluster (s : State) (n : Nat) (f : Cluster → Cluster) : LeaseOnly s (s.modCluster n f) :=
  leaseOnly_setCluster s n _

theorem leaseOnly_modMcmd (s : State) (c id : Nat) (f : MCmd → MCmd) :
    LeaseOnly s (s.modCore c (fun k => modMcmd k id f)) := by
  refine ⟨rfl, fun o => ?_⟩
  by_cases ho : o = c
  · rw [ho, State.core_modCore, modMcmd]
  · rw [State.core_modCore_other _ _ ho]

theorem leaseOnly_arbitrate (s : State) (n : Nat) : LeaseOnly s (arbitrate s n) := by
  unfold arbitrate
  dsimp only
  split
  · exact .refl s
  · exact leaseOnly_setCluster s n _

theorem leaseOnly_acceptCmd (s : State) (c : Nat) (m : MCmd) : LeaseOnly s (acceptCmd s c m) := by
  unfold acceptCmd
  dsimp only
  generalize hs : State.modCluster _ _ _ = t
  have hacc : LeaseOnly s t := hs ▸ (leaseOnly_modMcmd s c m.id _).trans (leaseOnly_modCluster _ _ _)
  split
  · exact hacc
  · split
    · exact hacc.trans (leaseOnly_modCluster _ _ _)
    · split
      · exact hacc.trans (leaseOnly_modCluster _ _ _)
      · exact hacc

theorem leaseOnly_settle (n f : Nat) (s : State) : LeaseOnly s (settle n f s) := by
  induction f generalizing s with
  | zero => exact .refl s
  | succ f ih =>
    rw [settle]
    dsimp only
    split
    · split
      · exact (leaseOnly_arbitrate s n).trans (ih _)
      · exact .refl s
    · split
      · exact ((leaseOnly_modCluster s _ _).trans (leaseOnly_modCluster _ _ _)).trans (ih _)
      · split
        · exact .refl s
        · split
          · exact (leaseOnly_acceptCmd s _ _).trans (ih _)
          · exact .refl s

theorem leaseOnly_idleLease (s : State) (c : Nat) : LeaseOnly s (idleLease s c) :=
  (((leaseOnly_modCluster s _ _).trans (leaseOnly_modCluster _ _ _)).trans (leaseOnly_modCluster _ _ _)).trans
    (leaseOnly_settle _ _ _)

end Sys2Proof.Machine
end

section
/-! Motifs end, are killed, halt and are saved (R135, R224, R332, R336, R338, R340, R343, R346). -/
namespace Sys2Proof.Machine

/-! ## Motifs by number -/

theorem mem_of_motif? {s : State} {id : Nat} {m : Motif} (h : s.motif? id = some m) : m ∈ s.motifs ∧ m.id = id :=
  ⟨List.mem_of_find?_eq_some h, by simpa using List.find?_some h⟩

theorem mem_of_launch? {s : State} {id : Nat} {l : Launch} (h : s.launch? id = some l) : l ∈ s.launches ∧ l.id = id :=
  ⟨List.mem_of_find?_eq_some h, by simpa using List.find?_some h⟩

theorem mem_of_motifOn {s : State} {c : Nat} {m : Motif} (h : s.motifOn c = some m) : m ∈ s.motifs := by
  unfold State.motifOn at h
  split at h
  · cases h
  · exact (mem_of_motif? h).1

/-- A motif that the device knows by its number takes its new state. -/
theorem mem_setMotif {s : State} {m x : Motif} (hx : x ∈ s.motifs) (hid : x.id = m.id) : m ∈ (s.setMotif m).motifs :=
  List.mem_map.mpr ⟨x, hx, if_pos hid⟩

theorem mem_setLaunch {s : State} {l x : Launch} (hx : x ∈ s.launches) (hid : x.id = l.id) :
    l ∈ (s.setLaunch l).launches := List.mem_map.mpr ⟨x, hx, if_pos hid⟩

theorem motif?_setMotif {s : State} {m x : Motif} (h : s.motif? m.id = some x) :
    (s.setMotif m).motif? m.id = some m := by
  unfold State.motif? State.setMotif at *
  rw [List.find?_map]
  have hp : ((fun y : Motif => y.id == m.id) ∘ fun y => if y.id = m.id then m else y) = fun y => y.id == m.id := by
    funext y
    dsimp only [Function.comp]
    split <;> simp_all
  rw [hp, h, Option.map_some, if_pos (by simpa using List.find?_some h)]

/-! ## What a motif's end changes (R135, R228, R325, R343) -/

theorem mget_map {α β : Type} {d : Nat → α} {d' : Nat → β} {f : α → β} (hf : ∀ k, f (d k) = d' k) (m : Map α)
    (k : Nat) :
    mget d' (m.map (fun e => (e.1, f e.2))) k = f (mget d m k) := by
  induction m with
  | nil => exact (hf k).symm
  | cons e m ih =>
    obtain ⟨j, v⟩ := e
    simp only [List.map_cons, mget, ih]
    split <;> rfl

theorem sameBooks_servePeers (s : State) (c : Nat) : SameBooks s (servePeers s c) := by
  unfold servePeers
  refine .foldl (fun s o => ?_) _ s
  refine SameBooks.trans (t := serveLoads s c o) (sameBooks_modCore rfl) ?_
  exact .foldl (fun s b => (sameBooks_landStore s o b).trans (sameBooks_modCore rfl)) _ _

theorem motif_foldl_zeroTile (l : List (Nat × Nat)) (k : Core) :
    (l.foldl (fun k t => zeroTile k t.1) k).motif = k.motif := by
  induction l generalizing k with
  | nil => rfl
  | cons t l ih => exact ih _

/-- A core whose tiles hold no bytes of a motif any more. -/
def untagged (id : Nat) (k : Core) : Core :=
  { ((k.tags.filter (·.2 == id)).foldl (fun k t => zeroTile k t.1) k) with tags := k.tags.filter (·.2 != id) }

theorem core_dropTags (s : State) (id c : Nat) : (dropTags s id).core c = untagged id (s.core c) :=
  mget_map (d := fun _ => Core.empty) (f := untagged id) (fun _ => rfl) s.cores c

theorem sameBooks_dropTags (s : State) (id : Nat) : SameBooks s (dropTags s id) :=
  ⟨rfl, rfl, fun c => by rw [core_dropTags]; exact motif_foldl_zeroTile _ _⟩

theorem sameBooks_freeFrame (s : State) (m : Motif) : SameBooks s (freeFrame s m) := by
  unfold freeFrame
  split
  · exact ⟨rfl, rfl, fun _ => rfl⟩
  · exact .refl s

theorem sameBooks_landSaved (s : State) (ctx : Nat) (b : BufStore) : SameBooks s (landSaved s ctx b) := by
  unfold landSaved
  split
  · split
    · exact .refl s
    · exact sameBooks_mappedWrite s _ _
  · exact .refl s

/-- How a motif that has ended is known. -/
def endedAs (m : Motif) (st : MotifSt) : Motif :=
  { m with st := st, core := none, saved := none, frame := none, pendingTrap := false }

/-- The stores of a motif that ends land, and its core becomes free. -/
def leftCore (s : State) (m : Motif) : State :=
  match m.core with
  | none => ((m.saved.map (·.buf)).getD []).foldl (fun s b => landSaved s ((m.saved.map (·.ctx)).getD 0) b) s
  | some c => idleLease ((dropReqs (servePeers ((s.core c).buf.foldl (fun s b =>
      if b.space = .gm && (b.tr.loc = 2 || cxlDown s (b.tr.pa b.addr)) then s else landStore s c b) s) c) c).modCore c
        freedCore) c

theorem endMotif_eq (s : State) (m : Motif) (st : MotifSt) : endMotif s m st =
    freeFrame ((dropOps (dropTags (leftCore s m) m.id) m.id).setMotif (endedAs m st)) m := by
  unfold endMotif leftCore
  cases m.core <;> rfl

/-- A motif leaves no core but its own. -/
theorem leftCore_books (s : State) (m : Motif) : (leftCore s m).motifs = s.motifs ∧
    (leftCore s m).launches = s.launches ∧
    ∀ c, ((leftCore s m).core c).motif = if m.core = some c then none else (s.core c).motif := by
  unfold leftCore
  cases hm : m.core with
  | none =>
    have h := SameBooks.foldl (fun s b => sameBooks_landSaved s ((m.saved.map (·.ctx)).getD 0) b)
      ((m.saved.map (·.buf)).getD []) s
    exact ⟨h.motifs, h.launches, fun c => by simpa using h.holds c⟩
  | some c =>
    dsimp only
    generalize hs : dropReqs _ c = t
    have h : SameBooks s t := by
      subst hs
      refine ((SameBooks.foldl (fun s b => ?_) _ s).trans (sameBooks_servePeers _ c)).trans ⟨rfl, rfl, fun _ => rfl⟩
      split
      · exact .refl s
      · exact sameBooks_landStore s c b
    have hl := (leaseOnly_idleLease (t.modCore c freedCore) c).sameBooks
    refine ⟨hl.motifs.trans h.motifs, hl.launches.trans h.launches, fun o => (hl.holds o).trans ?_⟩
    by_cases ho : c = o
    · subst ho
      rw [State.core_modCore, if_pos rfl]
      rfl
    · rw [State.core_modCore_other _ _ (Ne.symm ho), if_neg (by simpa using ho), h.holds]

theorem endMotif_motifs (s : State) (m : Motif) (st : MotifSt) :
    (endMotif s m st).motifs = (s.setMotif (endedAs m st)).motifs := by
  rw [endMotif_eq, (sameBooks_freeFrame _ m).motifs]
  change List.map _ (dropTags (leftCore s m) m.id).motifs = List.map _ _
  rw [(sameBooks_dropTags _ _).motifs, (leftCore_books s m).1]

theorem endMotif_launches (s : State) (m : Motif) (st : MotifSt) : (endMotif s m st).launches = s.launches := by
  rw [endMotif_eq, (sameBooks_freeFrame _ m).launches]
  exact (sameBooks_dropTags _ m.id).launches.trans (leftCore_books s m).2.1

theorem endMotif_holds (s : State) (m : Motif) (st : MotifSt) (c : Nat) :
    ((endMotif s m st).core c).motif = if m.core = some c then none else (s.core c).motif := by
  rw [endMotif_eq, (sameBooks_freeFrame _ m).holds]
  exact ((sameBooks_dropTags _ m.id).holds c).trans ((leftCore_books s m).2.2 c)

/-! ## A launch takes a state (R130) -/

theorem setStatus_books (s : State) (l : Launch) (st : LaunchSt) :
    SameBooks (s.setLaunch { l with st := st }) (setStatus s l st) := by
  unfold setStatus
  dsimp only
  split
  · exact sameBooks_recWrite _ _ _ _
  · exact .refl _

/-- A core that is free stays free, and a motif that has been killed stays so, as the rest of its launch is killed. -/
theorem failLaunch_keeps {s : State} {c : Nat} {x : Motif} (hc : (s.core c).motif = none) (hx : x ∈ s.motifs)
    (hk : x.st = .killed) (id code : Nat) : ((failLaunch s id code).core c).motif = none ∧
      ∃ y ∈ (failLaunch s id code).motifs, y.id = x.id ∧ y.st = .killed := by
  have hend : ∀ (ms : List Motif) (s : State), (s.core c).motif = none →
      (∃ y ∈ s.motifs, y.id = x.id ∧ y.st = .killed) →
      ((ms.foldl (fun s m => endMotif s m .killed) s).core c).motif = none ∧
        ∃ y ∈ (ms.foldl (fun s m => endMotif s m .killed) s).motifs, y.id = x.id ∧ y.st = .killed := by
    intro ms
    induction ms with
    | nil => exact fun s h1 h2 => ⟨h1, h2⟩
    | cons m ms ih =>
      intro s h1 h2
      refine ih _ ?_ ?_
      · rw [endMotif_holds, h1, ite_self]
      · obtain ⟨y, hy, hid, hst⟩ := h2
        rw [endMotif_motifs]
        refine ⟨_, List.mem_map_of_mem hy, ?_⟩
        split
        · next h => exact ⟨h.symm.trans hid, rfl⟩
        · exact ⟨hid, hst⟩
  unfold failLaunch
  split
  · exact ⟨hc, x, hx, rfl, hk⟩
  · split
    · exact ⟨hc, x, hx, rfl, hk⟩
    · have hb := fun t l st => setStatus_books t l st
      obtain ⟨h1, h2⟩ := hend _ s hc ⟨x, hx, rfl, hk⟩
      dsimp only
      rw [(hb _ _ _).holds, (hb _ _ _).motifs]
      exact ⟨h1, h2⟩

section
variable {s : State} {c : Nat} {m : Motif}

/-! ## MOTIF_DONE (R135) -/

theorem mem_setStatus {t : State} {l x : Launch} (st : LaunchSt) (hx : x ∈ t.launches) (hid : x.id = l.id) :
    { l with st := st } ∈ (setStatus t l st).launches := by
  rw [(setStatus_books t l st).launches]
  exact mem_setLaunch (l := { l with st := st }) hx hid

/-- A motif that has issued SYS 0 is DONE once all that it issued has completed, and its launch with the last. -/
theorem motifDone_ends (hm : s.motifOn c = some m) (hcore : m.core = some c) (hst : m.st = .running)
    (hend : (s.core c).ended = true) (hfrozen : (s.core c).frozen = false) (hq : enginesQuiet (s.core c) = true)
    (hbuf : (s.core c).buf = []) (hn : noticesOut s c = false) (hg : ∀ e ∈ (s.core c).gang, e.2.st = .free)
    (hp : peersQuiet s c = true) :
    ∃ t, exec (.motifDone c) s = .next t ∧ (t.core c).motif = none ∧
      (∃ x ∈ t.motifs, x.id = m.id ∧ x.st = .done ∧ x.core = none ∧ x.frame = none) ∧
      (∀ l, s.launch? m.launch = some l →
        ∃ l' ∈ t.launches, l'.id = l.id ∧ l'.ended = l.ended + 1 ∧ (l.ended + 1 = l.total → l'.st = .done)) := by
  have hexec : exec (.motifDone c) s = (match (endMotif s m .done).launch? m.launch with
      | none => .next (endMotif s m .done)
      | some l => if l.ended + 1 = l.total then
          .next (setStatus (endMotif s m .done) { l with ended := l.ended + 1 } .done)
        else .next ((endMotif s m .done).setLaunch { l with ended := l.ended + 1 })) := by
    have hgang : (s.core c).gang.all (fun e => e.2.st == .free) = true := by simpa using hg
    change execMotifDone c s = _
    simp only [execMotifDone, hm, hst, hend, hfrozen, hq, hbuf, hn, hp, hgang]
    rfl
  have hfree : ((endMotif s m .done).core c).motif = none := by rw [endMotif_holds, if_pos hcore]
  have hdone : endedAs m .done ∈ (endMotif s m .done).motifs := by
    rw [endMotif_motifs]
    exact mem_setMotif (mem_of_motifOn hm) rfl
  have hlaunch : (endMotif s m .done).launch? m.launch = s.launch? m.launch := by
    rw [State.launch?, endMotif_launches]
    rfl
  have hmem {l : Launch} (hl : s.launch? m.launch = some l) : l ∈ (endMotif s m .done).launches := by
    rw [endMotif_launches]
    exact (mem_of_launch? hl).1
  rw [hlaunch] at hexec
  cases hl : s.launch? m.launch with
  | none =>
    rw [hl] at hexec
    exact ⟨_, hexec, hfree, ⟨endedAs m .done, hdone, rfl, rfl, rfl, rfl⟩, fun l h => by cases h⟩
  | some l =>
    rw [hl] at hexec
    by_cases hlast : l.ended + 1 = l.total
    · have hb := setStatus_books (endMotif s m .done) { l with ended := l.ended + 1 } .done
      refine ⟨_, hexec.trans (if_pos hlast), (hb.holds c).trans hfree, ⟨endedAs m .done, ?_, rfl, rfl, rfl, rfl⟩,
        fun l' h => ?_⟩
      · rw [hb.motifs]; exact hdone
      · cases h
        exact ⟨_, mem_setStatus .done (hmem hl) rfl, rfl, rfl, fun _ => rfl⟩
    · refine ⟨_, hexec.trans (if_neg hlast), hfree, ⟨endedAs m .done, hdone, rfl, rfl, rfl, rfl⟩, fun l' h => ?_⟩
      cases h
      exact ⟨_, mem_setLaunch (hmem hl) rfl, rfl, rfl, fun h => absurd h hlast⟩

/-! ## PREEMPT_TIMEOUT (R346) -/

theorem preemptLate_iff : preemptLate s (s.core c) m = true ↔
    m.st = .preempting ∧ m.pendingTrap = false ∧ s.time ≥ m.preemptAt + 2000 * 2250 ∧
      ((s.core c).selvedge = false ∨ ∃ e ∈ (s.core c).gang, e.2.st ≠ .free ∧ inPlace (s.core c) e.1 = true) := by
  simp [preemptLate, elapsed, usCycles, and_assoc]

theorem preemptTimeout_kills (hm : s.motifOn c = some m) (hcore : m.core = some c)
    (hlate : preemptLate s (s.core c) m = true) :
    ∃ t, exec (.preemptTimeout c) s = .next t ∧ (t.core c).motif = none ∧ ∃ x ∈ t.motifs, x.id = m.id ∧
      x.st = .killed := by
  have hexec : exec (.preemptTimeout c) s = .next (killMotif s m) := by
    change execPreemptTimeout c s = _
    simp only [execPreemptTimeout, hm, hlate, if_true]
  have hx : endedAs m .killed ∈ (endMotif s m .killed).motifs := by
    rw [endMotif_motifs]
    exact mem_setMotif (mem_of_motifOn hm) rfl
  exact ⟨_, hexec, failLaunch_keeps (by rw [endMotif_holds, if_pos hcore]) hx rfl _ _⟩

theorem preemptTimeout_waits (hm : s.motifOn c = some m) (hlate : preemptLate s (s.core c) m = false) :
    exec (.preemptTimeout c) s = .next s := by
  change execPreemptTimeout c s = _
  simp [execPreemptTimeout, hm, hlate]

/-! ## MOTIF_HALT (R224, R332) -/

theorem getD_set {α : Type} (l : List α) (i j : Nat) (v d : α) :
    (l.set i v).getD j d = if i = j ∧ j < l.length then v else l.getD j d := by
  simp only [List.getD_eq_getElem?_getD, List.getElem?_set]
  split
  · next h =>
    subst h
    split <;> simp_all
  · simp_all

theorem idle_lset {l : List Lease} {i j : Nat} {v : Lease} (hi : l.getD i .idle ≠ .idle) (hj : l.getD j .idle = .idle) :
    (lset l i v).getD j .idle = .idle := by
  rw [lset, getD_set, if_neg, hj]
  rintro ⟨rfl, -⟩
  exact hi hj

theorem mem_of_pick (p : Nat → Nat → Prop) [∀ b i, Decidable (p b i)] (l : List Nat) (a : Nat) :
    l.foldl (fun b i => if p b i then i else b) a ∈ a :: l := by
  induction l generalizing a with
  | nil => exact List.mem_singleton.mpr rfl
  | cons i l ih =>
    rw [List.foldl_cons]
    split
    · exact List.mem_cons_of_mem a (ih i)
    · exact List.cons_subset_cons a (List.subset_cons_self i l) (ih a)

/-- An arbitration makes a WAITING core the holder, and leaves every IDLE lease so. -/
theorem arbitrate_idle {t : State} (h : leaseOf t c = .idle) : leaseOf (arbitrate t (clusterOf c)) c = .idle := by
  unfold arbitrate
  dsimp only
  split
  · exact h
  · next a rest horder =>
    rw [leaseOf, State.cluster_setCluster]
    refine idle_lset ?_ h
    generalize hw : List.foldl _ a rest = w
    have hmem : w ∈ a :: rest := hw ▸ mem_of_pick _ rest a
    rw [← horder, List.mem_filter] at hmem
    rw [eq_of_beq hmem.2]
    decide

/-- The array accepts a command of its holder: no IDLE lease of the cluster changes. -/
theorem acceptCmd_idle {t : State} {o : Nat} {q : MCmd} (hcl : clusterOf o = clusterOf c)
    (ho : (t.cluster (clusterOf c)).lease.getD (o % 4) .idle ≠ .idle) (h : leaseOf t c = .idle) :
    leaseOf (acceptCmd t o q) c = .idle := by
  have hset (x : State) (f : Cluster → Cluster) : (x.modCluster (clusterOf c) f).cluster (clusterOf c) =
      f (x.cluster (clusterOf c)) := State.cluster_setCluster _ _ _
  unfold acceptCmd leaseOf setGiveUp setLease
  dsimp only
  rw [hcl]
  split
  · rw [hset]; exact h
  · split
    · rw [hset, hset]; exact h
    · split
      · rw [hset, hset]; exact idle_lset ho h
      · rw [hset]; exact h

/-- A lease that is IDLE stays so while the array serves the other cores of the cluster. -/
theorem settle_idle (f : Nat) {t : State} (h : leaseOf t c = .idle) : leaseOf (settle (clusterOf c) f t) c = .idle := by
  induction f generalizing t with
  | zero => exact h
  | succ f ih =>
    rw [settle]
    dsimp only
    split
    · split
      · exact ih (arbitrate_idle h)
      · exact h
    · next i hi =>
      have hi4 : i < 4 := List.mem_range.mp (List.mem_of_find?_eq_some hi)
      have hcl : clusterOf (4 * clusterOf c + i) = clusterOf c := by simp only [clusterOf]; omega
      have hholds : (t.cluster (clusterOf c)).lease.getD ((4 * clusterOf c + i) % 4) .idle ≠ .idle := by
        have hhold := List.find?_some hi
        rw [show (4 * clusterOf c + i) % 4 = i by omega, eq_of_beq hhold]
        decide
      split
      · refine ih ?_
        rw [leaseOf, setGiveUp, setLease, hcl, State.modCluster, State.modCluster, State.cluster_setCluster,
          State.cluster_setCluster]
        exact idle_lset hholds h
      · split
        · exact h
        · split
          · exact ih (acceptCmd_idle hcl hholds h)
          · exact h

/-- A motif that halts, with the lease that it had (R223). -/
def leaseKept (s : State) (c : Nat) (m : Motif) : Motif := { m with lease := leaseOf s c, giveUp := giveUpOf s c }

theorem leaseOf_setLease_idle (t : State) (c : Nat) : leaseOf (setGiveUp (setLease t c .idle) c none) c = .idle := by
  rw [leaseOf, setGiveUp, setLease, State.modCluster, State.modCluster, State.cluster_setCluster,
    State.cluster_setCluster]
  dsimp only
  rw [lset, getD_set]
  split
  · rfl
  · next h =>
    rw [not_and, Nat.not_lt] at h
    exact List.getD_eq_default _ _ (h rfl)

theorem haltLease_of_idle (h : leaseOf s c = .idle) : haltLease s c m = s := by
  rw [haltLease, h]

theorem haltLease_of_held (h : leaseOf s c ≠ .idle) :
    haltLease s c m = settleOf (setGiveUp (setLease (s.setMotif (leaseKept s c m)) c .idle) c none) c := by
  unfold haltLease leaseKept
  cases hl : leaseOf s c with
  | idle => exact absurd hl h
  | waiting => rfl
  | holding => rfl

theorem leaseOnly_haltLease (h : leaseOf s c ≠ .idle) : LeaseOnly (s.setMotif (leaseKept s c m)) (haltLease s c m) := by
  rw [haltLease_of_held h]
  exact ((leaseOnly_modCluster _ _ _).trans (leaseOnly_modCluster _ _ _)).trans (leaseOnly_settle _ _ _)

/-- The lease term of a motif that halts ends (R224). -/
theorem haltLease_idle : leaseOf (haltLease s c m) c = .idle := by
  by_cases h : leaseOf s c = .idle
  · rw [haltLease_of_idle h, h]
  · rw [haltLease_of_held h]
    exact settle_idle 64 (leaseOf_setLease_idle _ c)

theorem motifOn_eq (t : State) (c : Nat) : t.motifOn c = (t.core c).motif.bind t.motif? := by
  unfold State.motifOn
  cases (t.core c).motif <;> rfl

theorem motif_of_motifOn (hm : s.motifOn c = some m) : (s.core c).motif = some m.id ∧ s.motif? m.id = some m := by
  rw [motifOn_eq, Option.bind_eq_some_iff] at hm
  obtain ⟨id, hid, hm⟩ := hm
  obtain rfl := (mem_of_motif? hm).2
  exact ⟨hid, hm⟩

/-- What the motif had of the array is saved with it. -/
theorem motifOn_haltLease (hm : s.motifOn c = some m) (h : leaseOf s c ≠ .idle) :
    (haltLease s c m).motifOn c = some (leaseKept s c m) := by
  have hb := (leaseOnly_haltLease (m := m) h).sameBooks
  obtain ⟨hon, hid⟩ := motif_of_motifOn hm
  rw [motifOn_eq, hb.holds, State.core_setMotif, hon, Option.bind_some, State.motif?, hb.motifs]
  exact motif?_setMotif (m := leaseKept s c m) hid

/-- A halt's end of the lease term leaves memory and the cores, but for how the array stands to their commands. -/
theorem haltLease_core (o : Nat) : (haltLease s c m).mem = s.mem ∧
    (haltLease s c m).core o = { s.core o with mcmds := ((haltLease s c m).core o).mcmds } := by
  by_cases h : leaseOf s c = .idle
  · rw [haltLease_of_idle h]
    exact ⟨rfl, rfl⟩
  · exact ⟨(leaseOnly_haltLease h).mem, (leaseOnly_haltLease h).core o⟩

theorem leaseOnly_restoreLease (t : State) (c : Nat) (l : Option Nat) : LeaseOnly t (restoreLease t c l) := by
  unfold restoreLease
  split
  · unfold releaseLease
    split
    · exact .refl t
    · exact (leaseOnly_modCluster _ _ _).trans (leaseOnly_modCluster _ _ _)
    · split
      · exact .refl t
      · exact (leaseOnly_modCluster _ _ _).trans (leaseOnly_settle _ _ _)
  · exact (leaseOnly_modCluster _ _ _).trans (leaseOnly_settle _ _ _)
  · exact .refl t

theorem upkLeave_keeps (t : State) (c : Nat) : (upkLeave t c).mem = t.mem ∧
    ((upkLeave t c).core c).ts = (t.core c).ts := by
  unfold upkLeave
  split
  · exact ⟨rfl, rfl⟩
  · next u _ =>
    have h := leaseOnly_restoreLease t c u.lease
    refine ⟨h.mem, ?_⟩
    rw [State.core_modCore, Core.dropAhead, h.core]

/-- A gang of a motif that halts. -/
def haltedGang (x : Gang) : Gang := if x.st = .running then { x with st := .halted, stopped := true } else x

/-- The core of a motif that has halted (R332). -/
def haltedCore (r : FaultRec) (k : Core) : Core :=
  { k with
    seqStopped := true,
    upk := k.upk.map (fun u => { u with reread := true }),
    halt := some { r with trap := { r.trap with fatal := r.trap.fatal || inplFault k r } },
    gang := k.gang.map (fun e => (e.1, haltedGang e.2)) }

theorem gangAt_haltedCore (r : FaultRec) (k : Core) (g : Nat) : ((haltedCore r k).gangAt g).st ≠ .running := by
  rw [show (haltedCore r k).gangAt g = haltedGang (k.gangAt g) from
    mget_map (d := fun _ => Gang.empty) (f := haltedGang) (fun _ => rfl) k.gang g, haltedGang]
  split
  · exact GangSt.noConfusion
  · assumption

/-- A halt stops every agent of its core, and nothing of its memory moves. -/
theorem motifHalt_stops (hm : s.motifOn c = some m) {r : FaultRec} (hr : (s.core c).halt = some r)
    (hst : m.st = .halting)
    (hu : upkBetween (s.core c) = true ∨ (s.core c).seqStopped = true) :
    ∃ t, exec (.motifHalt c) s = .next t ∧ (t.core c).seqStopped = true ∧
      (∀ g, ((t.core c).gangAt g).st ≠ .running) ∧ SameMem s t ∧ (t.core c).ts = (s.core c).ts := by
  have hexec : exec (.motifHalt c) s =
      .next ((haltLease (if upkBetween (s.core c) then upkLeave s c else s) c m).modCore c
      (haltedCore r)) := by
    change execMotifHalt c s = _
    simp only [execMotifHalt, hm, hr, hst]
    rw [if_pos (by simpa using hu)]
    rfl
  generalize hs : (if upkBetween (s.core c) then upkLeave s c else s) = s1 at hexec
  have hkeep : s1.mem = s.mem ∧ (s1.core c).ts = (s.core c).ts := by
    subst hs
    split
    · exact upkLeave_keeps s c
    · exact ⟨rfl, rfl⟩
  obtain ⟨hmem, hcore⟩ := haltLease_core (s := s1) (c := c) (m := m) c
  refine ⟨_, hexec, ?_, ?_, fun a => ?_, ?_⟩
  · rw [State.core_modCore]; rfl
  · rw [State.core_modCore]; exact gangAt_haltedCore r _
  · rw [State.modCore_mem, hmem, hkeep.1]
  · rw [State.core_modCore, haltedCore, hcore, hkeep.2]

/-! ## FAULT_RING_RETRY (R336) -/

/-- How many entries of a fault ring are in use, CONS as it is read. -/
def ringUsed (x : Context) (cons : Nat) : Nat :=
  let past := (cons + 2 ^ 32 - x.prod % 2 ^ 32) % 2 ^ 32
  if 1 ≤ past ∧ past ≤ 2 ^ 31 - 1 then 0 else (x.prod + 2 ^ 32 - cons) % 2 ^ 32

/-- A ring without room keeps its entries waiting. -/
theorem appendEntries_full (s : State) (x : Context) (e : W64) (rest : List W64)
    (h : 2 ^ (x.fringN + 4) ≤ ringUsed x (numAt s.mem (x.fring + 8) 4)) :
    appendEntries s x (e :: rest) = s.setContext { x with held := e :: rest } :=
  if_pos h

/-- The ring takes an entry at its producer index, and then says that it has (R336). -/
def ringPut (s : State) (x : Context) (e : W64) : State :=
  let q := (x.prod + 1) % 2 ^ 32
  let s2 := physWrite (physWrite s (x.fring + 64 + 8 * ((q + 2 ^ 32 - 1) % 2 ^ 32 % 2 ^ (x.fringN + 4)))
    (leBytes 8 (e.toNat + q))) x.fring (le8 q)
  { s2 with msix := s2.msix ++ [(x.fn, 2)] }

theorem appendEntries_room (s : State) (x : Context) (e : W64) (rest : List W64)
    (h : ringUsed x (numAt s.mem (x.fring + 8) 4) < 2 ^ (x.fringN + 4)) :
    appendEntries s x (e :: rest) = appendEntries (ringPut s x e) { x with prod := (x.prod + 1) % 2 ^ 32 } rest :=
  if_neg (Nat.not_le.mpr h)

theorem ringPut_mem (s : State) (x : Context) (e : W64) :
    numAt (ringPut s x e).mem x.fring 8 = (x.prod + 1) % 2 ^ 32 ∧
    numAt (ringPut s x e).mem (x.fring + 64 + 8 * (x.prod % 2 ^ 32 % 2 ^ (x.fringN + 4))) 8 =
      (e.toNat + (x.prod + 1) % 2 ^ 32) % 2 ^ 64 := by
  have hslot : ((x.prod + 1) % 2 ^ 32 + 2 ^ 32 - 1) % 2 ^ 32 = x.prod % 2 ^ 32 := by omega
  constructor
  · exact (numAt_putBytes_leBytes _ _ _ _).trans (Nat.mod_eq_of_lt (by omega))
  · refine (numAt_putBytes_other (.inr ?_)).trans ?_
    · rw [le8, length_leBytes]; omega
    · rw [physWrite_mem, hslot]
      exact numAt_putBytes_leBytes _ _ _ _

theorem ringPut_rest (s : State) (x : Context) (e : W64) : (ringPut s x e).cores = s.cores ∧
    (ringPut s x e).contexts = s.contexts ∧ (ringPut s x e).msix = s.msix ++ [(x.fn, 2)] := by
  unfold ringPut
  exact ⟨rfl, rfl, rfl⟩

theorem exec_faultRingRetry {x : Context} (hx : s.context? x.num = some x) :
    exec (.faultRingRetry x.num) s = .next (appendEntries s x x.held) := by
  change execFaultRingRetry x.num s = _
  rw [execFaultRingRetry, hx]

theorem mem_setContext {x y : Context} (hx : x ∈ s.contexts) (hid : x.num = y.num) : y ∈ (s.setContext y).contexts :=
  List.mem_map.mpr ⟨x, hx, if_pos hid⟩

/-- A fault entry that was held goes to the ring when it has room. -/
theorem faultRingRetry_appends {x : Context} {e : W64} (hx : s.context? x.num = some x) (he : x.held = [e])
    (hroom : ringUsed x (numAt s.mem (x.fring + 8) 4) < 2 ^ (x.fringN + 4)) :
    ∃ t, exec (.faultRingRetry x.num) s = .next t ∧ t.cores = s.cores ∧
      numAt t.mem x.fring 8 = (x.prod + 1) % 2 ^ 32 ∧
      numAt t.mem (x.fring + 64 + 8 * (x.prod % 2 ^ 32 % 2 ^ (x.fringN + 4))) 8 =
        (e.toNat + (x.prod + 1) % 2 ^ 32) % 2 ^ 64 ∧
      t.msix = s.msix ++ [(x.fn, 2)] ∧ (∃ y ∈ t.contexts, y.num = x.num ∧ y.prod = (x.prod + 1) % 2 ^ 32 ∧
        y.held = []) := by
  obtain ⟨hprod, hentry⟩ := ringPut_mem s x e
  obtain ⟨hcores, hctx, hmsix⟩ := ringPut_rest s x e
  have hexec : exec (.faultRingRetry x.num) s = .next ((ringPut s x e).setContext
      { x with prod := (x.prod + 1) % 2 ^ 32, held := [] }) := by
    rw [exec_faultRingRetry hx, he, appendEntries_room s x e [] hroom, appendEntries]
  generalize ringPut s x e = t at *
  generalize (x.prod + 1) % 2 ^ 32 = q at *
  have hmem : { x with prod := q, held := [] } ∈ (t.setContext { x with prod := q, held := [] }).contexts :=
    mem_setContext (x := x) (hctx ▸ List.mem_of_find?_eq_some hx) rfl
  exact ⟨_, hexec, hcores, hprod, hentry, hmsix, _, hmem, rfl, rfl, rfl⟩

/-! ## TILE_REFILL (R343) -/

theorem byteAt_mclear_tile (m : Map Byte) {tile off : Nat} (h : off < 65536) :
    byteAt (mclear m (tileKey tile 0) 65536) (tileKey tile off) = 0 := by
  rw [byteAt, mget_mclear, if_pos (by simp only [tileKey]; omega)]
  rfl

theorem tileKey_eq_add (t off : Nat) : tileKey t off = tileKey t 0 + off := by rw [tileKey, tileKey, Nat.add_zero]

/-- A tile that was saved comes back from the frame, one that was not as zero. -/
theorem tileRefill_brings (hm : s.motifOn c = some m) {fr tile : Nat} (hfr : frameOf s m = some fr) (h8 : tile < 8)
    (hin : tile ∈ (s.core c).refill) (htags : ∀ p ∈ (s.core c).tags, p.1 ≠ tile) :
    ∃ t, exec (.tileRefill c tile) s = .next t ∧ SameMem s t ∧ tile ∉ (t.core c).refill ∧
      (tile ∈ (s.core c).saved → ∀ off, off < shapeRows ((s.core c).shape tile) * shapeRowB ((s.core c).shape tile) →
        byteAt (t.core c).tiles (tileKey tile off) = byteAt s.mem (tileFrame fr tile + off)) ∧
      (tile ∉ (s.core c).saved → ∀ off, off < 65536 → byteAt (t.core c).tiles (tileKey tile off) = 0) := by
  have hexec : exec (.tileRefill c tile) s = .next (refillTile s c tile) := by
    change execTileRefill c tile s = _
    rw [execTileRefill, if_neg]
    have htag : (s.core c).tags.any (·.1 == tile) = false := by simpa using fun a b h => htags (a, b) h
    simp [h8, htag]
  have hin' : (s.core c).refill.contains tile = true := by simpa using hin
  have hout (k : Core) : tile ∉ { zeroTile k tile with refill := k.refill.filter (· != tile) }.refill := by simp
  refine ⟨_, hexec, ?_⟩
  unfold refillTile
  simp only [hin', hm, Option.bind_some, hfr, Bool.not_true, Bool.false_eq_true, if_false]
  by_cases hs : tile ∈ (s.core c).saved
  · rw [if_pos (by simpa using hs)]
    refine ⟨fun _ => rfl, by rw [State.core_setCore]; exact hout _, fun _ off hoff => ?_, fun h => absurd hs h⟩
    rw [State.core_setCore, tileKey_eq_add tile off]
    refine (byteAt_putBytes_in _ _ off _ ?_).trans (getElem_bytesAt _ _ _ _ _)
    rw [physRead, length_bytesAt]
    exact hoff
  · rw [if_neg (by simpa using hs)]
    refine ⟨fun _ => rfl, by rw [State.core_setCore]; exact hout _, fun h => absurd h hs, fun _ off hoff => ?_⟩
    rw [State.core_setCore]
    exact byteAt_mclear_tile _ hoff

/-! ## SWAP_OUT (R338 to R341) -/

/-- What goes to a motif's frame leaves the motifs, and the place and the scalars that the frame holds. -/
structure SavesBeside (fr : Nat) (s t : State) : Prop where
  motifs : t.motifs = s.motifs
  head : ∀ x, fr + 0x80 ≤ x → x < fr + 0x200 → byteAt t.mem x = byteAt s.mem x

section
variable {fr : Nat}

theorem SavesBeside.refl (s : State) : SavesBeside fr s s := ⟨rfl, fun _ _ _ => rfl⟩

theorem SavesBeside.trans {s t u : State} (h : SavesBeside fr s t) (h' : SavesBeside fr t u) : SavesBeside fr s u :=
  ⟨h'.motifs.trans h.motifs, fun x h1 h2 => (h'.head x h1 h2).trans (h.head x h1 h2)⟩

theorem SavesBeside.foldl {α : Type} {f : State → α → State} (hf : ∀ s a, SavesBeside fr s (f s a)) (l : List α)
    (s : State) : SavesBeside fr s (l.foldl f s) := by
  induction l generalizing s with
  | nil => exact .refl s
  | cons a l ih => exact (hf s a).trans (ih _)

theorem SavesBeside.numAt {t : State} (h : SavesBeside fr s t) {a n : Nat} (h1 : fr + 0x80 ≤ a)
    (h2 : a + n ≤ fr + 0x200) :
    numAt t.mem a n = Machine.numAt s.mem a n :=
  numAt_congr fun x hx hx' => h.head x (by omega) (by omega)

theorem savesBeside_physWrite {pa : Nat} {bs : List Byte} (h : pa + bs.length ≤ fr + 0x80 ∨ fr + 0x200 ≤ pa) :
    SavesBeside fr s (physWrite s pa bs) :=
  ⟨rfl, fun x h1 h2 => byteAt_physWrite_other _ _ _ _ (by omega)⟩

theorem savesBeside_openMem {pa n : Nat} (h : fr + 0x200 ≤ pa) : SavesBeside fr s (openMem s pa n) :=
  ⟨by rw [openMem_frame], fun x h1 h2 => byteAt_openMem_other _ _ _ _ (by omega)⟩

theorem savesBeside_saveGang (g : Nat) : SavesBeside fr s (saveGang s fr c g) := by
  unfold saveGang gangFrame
  refine ((savesBeside_physWrite (.inr (by omega))).trans
    (.foldl (fun s l => savesBeside_physWrite (.inr (by omega))) _ _)).trans
    (.foldl (fun s e => .foldl (fun s r => savesBeside_physWrite (.inr (by omega))) _ _) _ _)

theorem savesBeside_saveQuarter (g : Nat) : SavesBeside fr s (saveQuarter s fr c g) := by
  refine ⟨rfl, fun x h1 h2 => ?_⟩
  refine byteAt_mpaste_out (fun e he => mem_mslice he) (.inl ?_)
  unfold gangFrame
  omega

theorem savesBeside_gangs : SavesBeside fr s
    ((List.range 4).foldl (fun s g => saveQuarter (saveGang s fr c g) fr c g) s) :=
  .foldl (fun _ g => (savesBeside_saveGang g).trans (savesBeside_saveQuarter g)) _ s

theorem length_faultBytes (r : FaultRec) : (faultBytes r).length = 64 := by
  simp [faultBytes, le8, length_leBytes]

theorem savesBeside_writeTile (own k : Core) (t : Nat) : SavesBeside fr s (writeTile s fr own k t).1 := by
  have htile : fr + 0x200 ≤ tileFrame fr t := by simp only [tileFrame, frameTiles]; omega
  exact ((savesBeside_physWrite (.inr htile)).trans (savesBeside_physWrite (.inr (by omega)))).trans
    (savesBeside_physWrite (.inr (by simp only [frameRegs]; omega)))

theorem savesBeside_savePinned (k : Core) : SavesBeside fr s (savePinned s fr c k).1 := by
  have key (l : List Nat) (p : State × Core) (h : SavesBeside fr s p.1) :
      SavesBeside fr s (l.foldl (fun (p : State × Core) t =>
        if shapePin (k.shape t) && needsSave p.2 t && !k.refill.contains t && !k.tags.any (·.1 == t) then
          writeTile p.1 fr p.2 (s.core c) t
        else p) p).1 := by
    induction l generalizing p with
    | nil => exact h
    | cons t l ih =>
      rw [List.foldl_cons]
      refine ih _ ?_
      split
      · exact h.trans (savesBeside_writeTile _ _ _)
      · exact h
  exact key _ (s, k) (.refl s)

theorem savesBeside_openTiles (saved : List Nat) : SavesBeside fr s (openTiles s fr saved) :=
  .foldl (fun s t => savesBeside_openMem (by simp only [tileFrame, frameTiles]; omega)) _ s

end

/-- The bytes of the scalars in a frame. -/
theorem saveRegs_head (s : State) (fr c : Nat) :
    (saveRegs s fr c).motifs = s.motifs ∧ numAt (saveRegs s fr c).mem (fr + 0x80) 8 = (s.core c).bpc % 2 ^ 64 ∧
    ∀ r, r < 32 → numAt (saveRegs s fr c).mem (fr + 0x100 + 8 * r) 8 = ((s.core c).sAt r).toNat := by
  have hscal : (List.range 32).flatMap (fun r => le8 ((s.core c).sAt r).toNat) =
      bytesOf 8 ((List.range 32).map fun r => ((s.core c).sAt r).toNat) := by
    rw [bytesOf, List.flatMap_map]
    rfl
  unfold saveRegs
  dsimp only
  rw [hscal]
  generalize hs2 : physWrite (physWrite s _ _) _ (bytesOf 8 _) = s2
  have hlater : SavesBeside fr s2 (physWrite (physWrite s2 (fr + frameRegs)
      ((List.range 0x300).flatMap fun n => le8 (cfgRead s c n).toNat)) (fr + framePrick)
        ((List.range 128).flatMap fun n =>
        (prickImage ((s.core c).prickAt n)).flatMap fun w => le8 w.toNat)) :=
    (savesBeside_physWrite (.inr (by simp only [frameRegs]; omega))).trans
      (savesBeside_physWrite (.inr (by simp only [framePrick]; omega)))
  refine ⟨hlater.motifs.trans (by rw [← hs2]; rfl), ?_, fun r hr => ?_⟩
  · rw [hlater.numAt (by omega) (by omega), ← hs2, physWrite_mem, physWrite_mem, numAt_putBytes_other (.inl (by omega))]
    exact numAt_putBytes_leBytes _ _ 8 _
  · rw [hlater.numAt (by omega) (by omega), ← hs2, physWrite_mem, physWrite_mem,
      numAt_putBytes_bytesOf _ _ 8 _ (by simpa using hr), List.getElem_map, List.getElem_range]
    exact Nat.mod_eq_of_lt ((s.core c).sAt r).isLt

/-- Undefined output ports change tile store alone. -/
theorem openOutputs_keeps (s : State) (c : Nat) (m : Motif) : (openOutputs s c m).motifs = s.motifs ∧
    ((openOutputs s c m).core c).bpc = (s.core c).bpc ∧ ∀ r, ((openOutputs s c m).core c).sAt r = (s.core c).sAt r := by
  unfold openOutputs
  dsimp only
  generalize List.flatMap _ _ = ps
  induction ps generalizing s with
  | nil => exact ⟨rfl, rfl, fun _ => rfl⟩
  | cons p ps ih =>
    obtain ⟨hm, hb, hs⟩ := ih (openTs s c p.base p.size)
    have hcore : (openTs s c p.base p.size).core c =
        { s.core c with ts := ((openTs s c p.base p.size).core c).ts } := by
      rw [openTs, State.core_modCore]
      rfl
    refine ⟨hm.trans rfl, hb.trans (by rw [hcore]), fun r => (hs r).trans (by rw [hcore]; rfl)⟩

/-- The motif goes to its frame, with its place and scalars, and its core is free. -/
theorem saveMotif_saves (hst : m.st = .preempting) (fr : Nat) :
    ((saveMotif s c m fr).core c).motif = none ∧
    numAt (saveMotif s c m fr).mem (fr + 0x80) 8 = (s.core c).bpc % 2 ^ 64 ∧
    (∀ r, r < 32 → numAt (saveMotif s c m fr).mem (fr + 0x100 + 8 * r) 8 = ((s.core c).sAt r).toNat) ∧
    ∃ x, (saveMotif s c m fr).motifs = (s.setMotif x).motifs ∧ x.id = m.id ∧ x.st = .swapped ∧ x.core = none := by
  obtain ⟨hmot, hbpc, hscal⟩ := openOutputs_keeps s c m
  unfold saveMotif
  dsimp only
  simp only [hst, reduceCtorEq, if_false]
  generalize hs0 : (openOutputs s c m).modCore c _ = s0
  generalize hs5 : openTiles _ fr _ = s5
  generalize (savePinned _ fr c (s0.core c)).2 = own at hs5
  have hcore : (s0.core c).bpc = (s.core c).bpc ∧ ∀ r, (s0.core c).sAt r = (s.core c).sAt r := by
    rw [← hs0, State.core_modCore]
    exact ⟨hbpc, hscal⟩
  have hsaved : SavesBeside fr (saveRegs s0 fr c) s5 := by
    subst hs5
    refine (savesBeside_gangs (c := c)).trans (SavesBeside.trans ?_
      ((savesBeside_savePinned _).trans (savesBeside_openTiles _)))
    have hend (t : State) (n : Nat) : SavesBeside fr t (physWrite t (fr + 0x48) (le8 n)) :=
      savesBeside_physWrite (.inl (by rw [le8, length_leBytes]; omega))
    cases (s.core c).halt with
    | none => exact hend _ _
    | some r => exact (savesBeside_physWrite (.inl (by rw [length_faultBytes]; omega))).trans (hend _ _)
  obtain ⟨hmot', hplace, hsc⟩ := saveRegs_head s0 fr c
  generalize hs6 : (s5.modCore c fun k => freedCore { k with tags := k.tags ++ _ }) = s6
  have hidle : LeaseOnly s6 (idleLease (parkOps s6 c m.id) c) :=
    (leaseOnly_modCluster _ _ _).trans (leaseOnly_idleLease _ c)
  have hmem : s6.mem = s5.mem := by rw [← hs6]; rfl
  refine ⟨?_, ?_, fun r hr => ?_, ?_⟩
  · rw [State.core_setMotif, hidle.core, ← hs6, State.core_modCore]
    rfl
  · rw [State.setMotif_mem, hidle.mem, hmem, hsaved.numAt (by omega) (by omega), hplace, hcore.1]
  · rw [State.setMotif_mem, hidle.mem, hmem, hsaved.numAt (by omega) (by omega), hsc r hr, hcore.2]
  · have hs : (idleLease (parkOps s6 c m.id) c).motifs = s.motifs := by
      rw [hidle.sameBooks.motifs, ← hs6]
      change s5.motifs = _
      rw [hsaved.motifs, hmot', ← hs0]
      exact hmot
    exact ⟨_, congrArg (List.map _) hs, by exact ⟨rfl, rfl, rfl⟩⟩

/-- A motif whose accesses have landed goes to its frame, with its place and scalars, and its core is free. -/
theorem swapOut_saves (hm : s.motifOn c = some m) {fr : Nat} (hfr : frameOf s m = some fr) (hmay : maySwap s c m = true)
    (hst : m.st = .preempting) (hfail : swapFailure s c m = none) :
    ∃ t, exec (.swapOut c) s = .next t ∧ (t.core c).motif = none ∧
      numAt t.mem (fr + 0x80) 8 = (s.core c).bpc % 2 ^ 64 ∧
      (∀ r, r < 32 → numAt t.mem (fr + 0x100 + 8 * r) 8 = ((s.core c).sAt r).toNat) ∧
      (∃ x ∈ t.motifs, x.id = m.id ∧ x.st = .swapped ∧ x.core = none) := by
  obtain ⟨hfree, hbpc, hscal, x, hx, hid, hsw, hcore⟩ := saveMotif_saves (s := s) (c := c) hst fr
  have hmot : (saveMotif s c m fr).motif? m.id = some x := by
    rw [State.motif?, hx, ← hid]
    exact motif?_setMotif (hid ▸ (motif_of_motifOn hm).2)
  have hexec : exec (.swapOut c) s = .next (saveMotif s c m fr) := by
    change execSwapOut c s = _
    simp [execSwapOut, hm, hfr, hmay, hfail, hmot, hsw]
  exact ⟨_, hexec, hfree, hbpc, hscal, x, (mem_of_motif? hmot).1, hid, hsw, hcore⟩

end

/-- Settles O45: each event by the lemma of its name. -/
theorem motifsLeave : Obligations.MotifsLeave := by
  unfold Obligations.MotifsLeave
  refine ⟨fun s c m hm => ?motif, fun s x e hx he => ?ring⟩
  case motif =>
    intro k
    refine ⟨fun hst hcore hend hfrozen hq hbuf hn hg hp => motifDone_ends hm hcore hst hend hfrozen hq hbuf hn hg hp,
      fun hlate hcore => preemptTimeout_kills hm hcore (preemptLate_iff.mpr hlate),
      fun hlate => preemptTimeout_waits hm (Bool.eq_false_iff.mpr fun h => hlate (preemptLate_iff.mp h)),
      fun r hr hst hu => motifHalt_stops hm hr hst hu, fun hcore x hx => ⟨haltLease_idle, fun hheld => ?lease⟩,
      fun fr hfr hmay hst hfail => swapOut_saves hm hfr hmay hst hfail,
      fun fr tile hfr h8 hin htags => tileRefill_brings hm hfr h8 hin htags⟩
    case lease =>
      rw [motifOn_haltLease hm hheld] at hx
      cases hx
      exact ⟨rfl, rfl⟩
  case ring =>
    exact ⟨fun hroom => faultRingRetry_appends hx he hroom,
      fun hfull => by rw [exec_faultRingRetry hx, he]; exact congrArg _ (appendEntries_full s x e [] hfull)⟩

end Sys2Proof.Machine
end

section
/-! Records of launches are accepted, become eligible and age (R126, R129 to R133, R363, R438). -/
namespace Sys2Proof.Machine

/-! ## Pre-emption requests (R133) -/

/-- All that has changed is that some running motifs are asked to leave. -/
def Asked (s t : State) : Prop :=
  ∃ ms, t = { s with motifs := ms } ∧ ∀ m ∈ ms,
    m ∈ s.motifs ∨ ∃ v ∈ s.motifs, v.st = .running ∧ m = { v with st := .preempting, preemptAt := s.time }

theorem Asked.refl (s : State) : Asked s s := ⟨s.motifs, rfl, fun _ hm => .inl hm⟩

theorem Asked.trans {s t u : State} (h : Asked s t) (h' : Asked t u) : Asked s u := by
  obtain ⟨ms, rfl, hms⟩ := h
  obtain ⟨ms', rfl, hms'⟩ := h'
  refine ⟨ms', rfl, fun m hm => ?_⟩
  rcases hms' m hm with hold | ⟨v, hv, hrun, rfl⟩
  · exact hms m hold
  · rcases hms v hv with hv | ⟨w, -, -, rfl⟩
    · exact .inr ⟨v, hv, hrun, rfl⟩
    · cases hrun

theorem Asked.mem {s t : State} (h : Asked s t) : t.mem = s.mem := by
  obtain ⟨ms, rfl, -⟩ := h
  rfl

theorem Asked.core {s t : State} (h : Asked s t) (c : Nat) : t.core c = s.core c := by
  obtain ⟨ms, rfl, -⟩ := h
  rfl

theorem Asked.launches {s t : State} (h : Asked s t) : t.launches = s.launches := by
  obtain ⟨ms, rfl, -⟩ := h
  rfl

theorem asked_preemptGroup (s : State) (v : Motif) : Asked s (preemptGroup s v) := by
  unfold preemptGroup
  split
  · exact .refl s
  · next l _ =>
    dsimp only
    have key (ms : List Motif) (hms : ∀ m ∈ ms, m ∈ s.motifs ∧ m.st = .running) (t : State) (ht : Asked s t) :
        Asked s (ms.foldl (fun s m => s.setMotif { m with st := .preempting, preemptAt := s.time }) t) := by
      induction ms generalizing t with
      | nil => exact ht
      | cons m ms ih =>
        refine ih (fun x hx => hms x (List.mem_cons_of_mem m hx)) _ ?_
        obtain ⟨hm, hrun⟩ := hms m List.mem_cons_self
        obtain ⟨ts, rfl, hts⟩ := ht
        refine ⟨_, rfl, fun x hx => ?_⟩
        obtain ⟨y, hy, rfl⟩ := List.mem_map.mp hx
        split
        · exact .inr ⟨m, hm, hrun, rfl⟩
        · exact hts y hy
    refine key _ (fun m hm => ?_) s (.refl s)
    simp only [List.mem_filter, Bool.and_eq_true, beq_iff_eq] at hm
    exact ⟨hm.1, hm.2.2⟩

theorem asked_requestFor {l : Launch} {u : List (List Nat)} {taken : List Nat} {acc : List (List Nat × Nat)} (f : Nat)
    {s : State} {p : State × List Nat} (h : requestFor l u taken acc f s = some p) : Asked s p.1 := by
  induction f generalizing s with
  | zero => cases h
  | succ f ih =>
    unfold requestFor at h
    split at h
    · cases h
      exact .refl s
    · exact (asked_preemptGroup s _).trans (ih h)
    · cases h

theorem asked_requestUnits (l : Launch) (us : List (List (List Nat))) (acc : List (List Nat × Nat))
    (p : State × List Nat) :
    Asked p.1 (requestUnits l us acc p).1 := by
  induction us generalizing acc p with
  | nil => exact .refl p.1
  | cons u us ih =>
    unfold requestUnits
    split
    · exact .refl p.1
    · next s cs h => exact (asked_requestFor 257 h).trans (ih _ (s, p.2 ++ cs))

/-- What a blocked launch has requested only asks running motifs to leave. -/
theorem asked_requestPreempt (s : State) : Asked s (requestPreempt s) := by
  unfold requestPreempt
  generalize List.foldl _ [] _ = ls
  have key (p : State × List Nat) : Asked p.1 (ls.foldl requestOne p).1 := by
    induction ls generalizing p with
    | nil => exact .refl p.1
    | cons l ls ih =>
      refine Asked.trans ?_ (ih (requestOne p l))
      unfold requestOne
      split
      · exact .refl p.1
      · exact asked_requestUnits l _ _ p
  exact key (s, [])

/-! ## Acceptance (R126, R129, R130) -/

/-- A field that has been replaced reads back. -/
theorem gf_sf (w : W64) {lo len : Nat} (v : Nat) (h : lo + len ≤ 64) : gf (sf w lo len v) lo len = v % 2 ^ len := by
  refine Nat.eq_of_testBit_eq fun i => ?_
  rw [gf, Nat.testBit_mod_two_pow, Nat.testBit_shiftRight, Nat.testBit_mod_two_pow]
  by_cases hi : i < len
  · have hlt : lo + i < 64 := by omega
    simp only [sf, BitVec.toNat_or, BitVec.toNat_and, BitVec.toNat_not, BitVec.toNat_ofNat, Nat.testBit_or,
      Nat.testBit_and,
      Nat.testBit_mod_two_pow, Nat.testBit_shiftLeft, hi, hlt]
    have := Nat.testBit_two_pow_sub_succ (x := (2 ^ len - 1) <<< lo % 2 ^ 64) (n := 64) (Nat.mod_lt _ (by decide))
        (lo + i)
    rw [Nat.sub_sub, Nat.add_comm 1, this]
    simp only [Nat.testBit_mod_two_pow, Nat.testBit_shiftLeft, hi, hlt, Nat.testBit_two_pow_sub_one,
      Nat.add_sub_cancel_left]
    simp
  · simp [hi]
theorem cxlDown_congr {s t : State} (h : t.tiercap = s.tiercap) (pa : Nat) : cxlDown t pa = cxlDown s pa := by
  rw [cxlDown, cxlDown, h]

/-- A record of a host queue, as it enters the distributor. -/
def hostLaunch (s : State) (tok : W64) (q slot addr fn : Nat) (r : List W64) : Launch :=
  let deps := ([r.getD 5 0, 0]).filter (· != 0)
  { id := s.nextLaunch, token := tok, queue := q, slot := slot, addr := addr, virt := false, vctx := 0,
    ctx := gf (r.getD 4 0) 0 16, fn := fn, recd := r, deps := deps,
    bad := deps.any (fun d => !tokenNames s tok d), args := [], st := .waiting, eligAt := 0,
    boost := 0, total := prodOf (coreExts (levelsOf r)), placed := 0, ended := 0, ranOn := [],
    home := none, replayOf := 0, reserved := [], devices := [], far := [] }

/-- What the distributor makes of a record: refused with a code, or waiting for its tokens. -/
def hostState (s : State) (tok : W64) (fn : Nat) (mayPriv : Bool) (r : List W64) : LaunchSt :=
  match recCode s fn mayPriv r with
  | some code => .failed code
  | none => if (hostLaunch s tok 0 0 0 fn r).bad then .failed 5 else .waiting

/-- The device with one more launch. -/
def withLaunch (s : State) (l : Launch) : State :=
  { s with nextLaunch := s.nextLaunch + 1, launches := s.launches ++ [l] }

/-- The record's TOKEN is written, and STATUS cleared. -/
def hostBegun (s : State) (l : Launch) : State :=
  physWrite (physWrite (withLaunch s l) (l.addr + 0x38) (leBytes 8 l.token.toNat)) (l.addr + 0x30)
    (leBytes 8 (0 : W64).toNat)

/-- The launch is in a state, which STATUS shows. -/
def hostEntered (s : State) (l : Launch) (st : LaunchSt) : State :=
  let t := (hostBegun s l).setLaunch { l with st := st }
  if st = .waiting then t else physWrite t (l.addr + 0x30) (leBytes 8 (statusWord st).toNat)

/-- Nothing has changed but memory, with its poison and the marks of moves. -/
def MemOnly (s t : State) : Prop := t = { s with mem := t.mem, poison := t.poison, moving := t.moving }

theorem MemOnly.trans {s t u : State} (h : MemOnly s t) (h' : MemOnly t u) : MemOnly s u := by
  unfold MemOnly at *
  rw [h', h]

theorem memOnly_physWrite (s : State) (pa : Nat) (bs : List Byte) : MemOnly s (physWrite s pa bs) :=
    physWrite_frame s pa bs

theorem memOnly_hostBegun (s : State) (l : Launch) : MemOnly (withLaunch s l) (hostBegun s l) :=
  (memOnly_physWrite _ _ _).trans (memOnly_physWrite _ _ _)

theorem MemOnly.tiercap {s t : State} (h : MemOnly s t) : t.tiercap = s.tiercap := by rw [h]

/-- The launch has entered with its token and a cleared STATUS, and is refused or waits. -/
def settledRec (s : State) (code : Option Nat) (l : Launch) : State :=
  let t := recWrite (recWrite (withLaunch s l) l 0x38 l.token) l 0x30 0
  match code with
  | some c => setStatus t l (.failed c)
  | none => if l.bad then setStatus t l (.failed 5) else t.setLaunch l

theorem newLaunch_settles (s : State) (tok : W64) (q slot addr fn : Nat) (mayPriv : Bool) (r : List W64) :
    newLaunch s tok q slot addr false 0 fn r 0 mayPriv false =
      settledRec s (recCode s fn mayPriv r) (hostLaunch s tok q slot addr fn r) := rfl

/-- A record of a host queue enters (R126, R130). -/
theorem newLaunch_host {s : State} {addr : Nat} (h30 : cxlDown s (addr + 0x30) = false)
    (h38 : cxlDown s (addr + 0x38) = false) (tok : W64) (q slot fn : Nat) (mayPriv : Bool) (r : List W64) :
    newLaunch s tok q slot addr false 0 fn r 0 mayPriv false =
      hostEntered s (hostLaunch s tok q slot addr fn r) (hostState s tok fn mayPriv r) := by
  have hbad : (hostLaunch s tok q slot addr fn r).bad = (hostLaunch s tok 0 0 0 fn r).bad := rfl
  rw [newLaunch_settles, hostState, ← hbad]
  obtain ⟨hrep, hvirt, haddr, hhome, hst, htok⟩ : (hostLaunch s tok q slot addr fn r).replayOf = 0 ∧
      (hostLaunch s tok q slot addr fn r).virt = false ∧ (hostLaunch s tok q slot addr fn r).addr = addr ∧
      (hostLaunch s tok q slot addr fn r).home = none ∧ (hostLaunch s tok q slot addr fn r).st = .waiting ∧
      (hostLaunch s tok q slot addr fn r).token = tok := ⟨rfl, rfl, rfl, rfl, rfl, rfl⟩
  generalize hostLaunch s tok q slot addr fn r = l at *
  subst haddr htok
  have hwrite (t : State) (off : Nat) (v : W64) (ht : t.tiercap = s.tiercap) (hup : cxlDown s (l.addr + off) = false) :
      recWrite t l off v = physWrite t (l.addr + off) (leBytes 8 v.toNat) := by
    simp [recWrite, hrep, hvirt, mappedWrite, cxlDown_congr ht, hup]
  have hbegun : recWrite (recWrite (withLaunch s l) l 0x38 l.token) l 0x30 0 = hostBegun s l := by
    rw [hwrite (withLaunch s l) 0x38 l.token rfl h38]
    exact hwrite (physWrite (withLaunch s l) (l.addr + 0x38) (leBytes 8 l.token.toNat))
      0x30 0 (memOnly_physWrite _ _ _).tiercap h30
  have hfail (code : Nat) : setStatus (hostBegun s l) l (.failed code) = hostEntered s l (.failed code) := by
    rw [setStatus, if_pos (by rw [hhome]; rfl),
      hwrite ((hostBegun s l).setLaunch { l with st := .failed code }) 0x30 _ (memOnly_hostBegun s l).tiercap h30]
    rfl
  unfold settledRec
  rw [hbegun]
  cases recCode s fn mayPriv r with
  | some code => exact hfail code
  | none =>
    dsimp only
    split
    · exact hfail 5
    · have hsame : { l with st := .waiting } = l := by rw [← hst]
      rw [hostEntered, if_pos rfl, hsame]

theorem MemOnly.setLaunch {s t : State} (h : MemOnly s t) (l : Launch) : MemOnly (s.setLaunch l) (t.setLaunch l) := by
  unfold MemOnly at *
  rw [h]
  rfl

section
variable (s : State) (l : Launch) (st : LaunchSt)

/-- Beside memory, only the launch has entered. -/
theorem memOnly_hostEntered :
    MemOnly ((withLaunch s l).setLaunch { l with st := st }) (hostEntered s l st) := by
  have h := (memOnly_hostBegun s l).setLaunch { l with st := st }
  unfold hostEntered
  dsimp only
  split
  · exact h
  · exact h.trans (memOnly_physWrite _ _ _)

theorem mem_launches_hostEntered : { l with st := st } ∈ (hostEntered s l st).launches := by
  rw [memOnly_hostEntered s l st]
  exact mem_setLaunch (List.mem_append_right _ (List.mem_singleton_self l)) rfl

theorem hostEntered_keeps : (hostEntered s l st).nextLaunch = s.nextLaunch + 1 ∧
    (hostEntered s l st).queues = s.queues ∧ (hostEntered s l st).capstat = s.capstat := by
  rw [memOnly_hostEntered s l st]
  exact ⟨rfl, rfl, rfl⟩

theorem hostEntered_mem : (hostEntered s l st).mem =
    if st = .waiting then (hostBegun s l).mem
    else putBytes (hostBegun s l).mem (l.addr + 0x30) (leBytes 8 (statusWord st).toNat) := by
  unfold hostEntered
  dsimp only
  split <;> rfl

theorem hostBegun_mem : (hostBegun s l).mem = putBytes (putBytes s.mem (l.addr + 0x38) (leBytes 8 l.token.toNat))
    (l.addr + 0x30) (leBytes 8 0) := rfl

/-- The record shows its token. -/
theorem hostEntered_token : numAt (hostEntered s l st).mem (l.addr + 0x38) 8 = l.token.toNat := by
  have htok : numAt (hostBegun s l).mem (l.addr + 0x38) 8 = l.token.toNat := by
    rw [hostBegun_mem, numAt_putBytes_other (.inr (by rw [length_leBytes])), numAt_putBytes_leBytes]
    exact Nat.mod_eq_of_lt l.token.isLt
  rw [hostEntered_mem]
  split
  · exact htok
  · rw [numAt_putBytes_other (.inr (by rw [length_leBytes])), htok]

/-- Outside STATUS and TOKEN of the record memory is as it was. -/
theorem hostEntered_other {a : Nat} (ha : a < l.addr + 0x30 ∨ l.addr + 0x40 ≤ a) :
    byteAt (hostEntered s l st).mem a = byteAt s.mem a := by
  have hbegun : byteAt (hostBegun s l).mem a = byteAt s.mem a := by
    rw [hostBegun_mem, byteAt_putBytes_other _ _ _ _ (by rw [length_leBytes]; omega),
      byteAt_putBytes_other _ _ _ _ (by rw [length_leBytes]; omega)]
  rw [hostEntered_mem]
  split
  · exact hbegun
  · rw [byteAt_putBytes_other _ _ _ _ (by rw [length_leBytes]; omega), hbegun]

/-- STATUS shows the state of the launch, 0 while it waits. -/
theorem hostEntered_status : numAt (hostEntered s l st).mem (l.addr + 0x30) 8 =
    if st = .waiting then 0 else (statusWord st).toNat := by
  rw [hostEntered_mem]
  split
  · rw [hostBegun_mem, numAt_putBytes_leBytes]
    rfl
  · rw [numAt_putBytes_leBytes]
    exact Nat.mod_eq_of_lt (statusWord st).isLt

end

/-- A record that breaks a rule is refused with its code. -/
theorem hostState_refused {s : State} {tok : W64} {fn : Nat} {mayPriv : Bool} {r : List W64} {code : Nat}
    (h : recCode s fn mayPriv r = some code) : hostState s tok fn mayPriv r = .failed code := by
  rw [hostState, h]

/-- A record that names no token and breaks no rule waits. -/
theorem hostState_waiting {s : State} {tok : W64} {fn : Nat} {mayPriv : Bool} {r : List W64}
    (h : recCode s fn mayPriv r = none) (hdep : r.getD 5 0 = 0) : hostState s tok fn mayPriv r = .waiting := by
  have hbad : (hostLaunch s tok 0 0 0 fn r).bad = false := by
    rw [hostLaunch, hdep]
    rfl
  rw [hostState, h, hbad]
  rfl

/-- Where the next record of a host queue lies. -/
def recAddr (x : HostQueue) : Nat := x.base + 128 * x.head

def nextRec (s : State) (x : HostQueue) : List W64 := wordsOf (physRead s (recAddr x) 128)

/-- The token of the next record of a host queue (R129). -/
def nextTok (s : State) (x : HostQueue) : W64 := w64 (s.dev % 1024 * 2 ^ 54 + x.q * 2 ^ 48 + (x.seq + 1) % 2 ^ 48)

/-- The device with the queue at its next record. -/
def advanced (s : State) (x : HostQueue) : State :=
  { s with queues := s.queues.map (fun z =>
      if z.q = x.q && z.alive then { x with seq := x.seq + 1, head := (x.head + 1) % 2 ^ (x.n + 4) } else z) }

/-- The device once the record `r` has been accepted with a token. -/
def acceptedRec (s : State) (x : HostQueue) (tok : W64) (r : List W64) : State :=
  newLaunch (advanced s x) tok x.q x.head (recAddr x) false 0 x.fn r 0 (x.fn == 0) false

section
variable {s : State} {q : Nat} {x : HostQueue}

theorem acceptHost_empty (h : x.head = x.tail) : acceptHost s x = s := by
  simp [acceptHost, h]

theorem acceptHost_plain (h : x.head ≠ x.tail) (hfn : x.fn ∉ s.frozenFns) (hcap : capOn s = false) :
    acceptHost s x = acceptedRec s x (nextTok s x) (nextRec s x) := by
  unfold acceptHost
  rw [if_neg (by simp [h, hfn])]
  dsimp only
  rw [if_neg (by simp [hcap])]
  rfl

theorem acceptHost_captured (h : x.head ≠ x.tail) (hfn : x.fn ∉ s.frozenFns) (hcap : capOn s = true)
    (hq : capQueue s = x.q) : acceptHost s x =
      match capRecord s (nextTok s x) (nextRec s x) with
      | (none, s1) => s1
      | (some bs, s1) => acceptedRec (capAppend s1 bs) x (nextTok s x) (nextRec s x) := by
  unfold acceptHost
  rw [if_neg (by simp [h, hfn])]
  dsimp only
  rw [if_pos (by simp [hcap, hq])]
  rfl

theorem exec_launchRecordAccept (hx : s.queues.find? (fun x => x.q == q && x.alive) = some x) (hq : q ≠ 63) :
    exec (.launchRecordAccept q) s = .next (acceptHost s x) := by
  change execLaunchRecordAccept q s = _
  rw [execLaunchRecordAccept, if_neg hq, hx]

theorem exec_capture (hx : s.queues.find? (fun x => x.q == q && x.alive) = some x) (hcap : capOn s = true)
    (hq : capQueue s = q) : exec (.capture q) s = .next (acceptHost s x) := by
  change execCapture q s = _
  rw [execCapture, hx]
  simp [hcap, hq]

/-- A queue that has been advanced is at its next record. -/
theorem mem_queues_advanced (t : State) (hx : x ∈ t.queues) (halive : x.alive = true) :
    { x with seq := x.seq + 1, head := (x.head + 1) % 2 ^ (x.n + 4) } ∈ (advanced t x).queues :=
  List.mem_map.mpr ⟨x, hx, by simp [halive]⟩

/-- The record is accepted, in the state that the rules of R130 give it. -/
theorem acceptedRec_eq (h30 : cxlDown s (recAddr x + 0x30) = false) (h38 : cxlDown s (recAddr x + 0x38) = false)
    (tok : W64) (r : List W64) : acceptedRec s x tok r = hostEntered (advanced s x)
      (hostLaunch (advanced s x) tok x.q x.head (recAddr x) x.fn r) (hostState (advanced s x) tok x.fn (x.fn == 0) r) :=
  newLaunch_host (s := advanced s x) ((cxlDown_congr rfl _).trans h30) ((cxlDown_congr rfl _).trans h38)
    tok x.q x.head x.fn (x.fn == 0) r

theorem recCode_advanced (fn : Nat) (mayPriv : Bool) (r : List W64) :
    recCode (advanced s x) fn mayPriv r = recCode s fn mayPriv r := rfl

end

/-! ## Capture (R437, R438) -/

/-- What is captured is read; only free values are drawn. -/
theorem capRead_frame (ctx id : Nat) (l : List (Nat × Nat)) (q : Nat) {s t : State} {bs : List Byte}
    (h : capRead ctx id q l s = (some bs, t)) : t = { s with fresh := t.fresh } := by
  induction l generalizing q s bs with
  | nil =>
    cases h
    rfl
  | cons p l ih =>
    obtain ⟨va, n⟩ := p
    unfold capRead at h
    split at h
    · cases h
    all_goals
      dsimp only at h
      obtain ⟨hbs, rfl⟩ := Prod.mk.inj h
      obtain ⟨bs', hbs', -⟩ := Option.map_eq_some_iff.mp hbs
    · exact ih _ (Prod.ext hbs' rfl)
    · exact (ih _ (Prod.ext hbs' rfl)).trans rfl

theorem capRecord_some {s t : State} {tok : W64} {r : List W64} {bs : List Byte}
    (h : capRecord s tok r = (some bs, t)) :
    ((r.set 6 0).set 7 tok).flatMap (fun w => le8 w.toNat) <+: bs ∧ t = { s with fresh := t.fresh } := by
  obtain ⟨hbs, rfl⟩ := Prod.mk.inj h
  obtain ⟨bs', hbs', rfl⟩ := Option.map_eq_some_iff.mp hbs
  exact ⟨List.prefix_append _ _, capRead_frame _ _ _ _ (Prod.ext hbs' rfl)⟩

theorem memOnly_mappedWrite (s : State) (pa : Nat) (bs : List Byte) : MemOnly s (mappedWrite s pa bs) := by
  rcases mappedWrite_cases s pa bs with h | h <;> rw [h]
  · rfl
  · exact memOnly_physWrite s pa bs

/-- What is appended moves the bytes used along, or ends the capture. -/
theorem capAppend_keeps (s : State) (bs : List Byte) :
    (capAppend s bs).queues = s.queues ∧ (capAppend s bs).nextLaunch = s.nextLaunch ∧
    (capAppend s bs).tiercap = s.tiercap ∧
    (gf (capAppend s bs).capstat 16 48 = (gf s.capstat 16 48 + bs.length) % 2 ^ 48 ∨
      gf (capAppend s bs).capstat 0 16 = 1) := by
  unfold capAppend
  dsimp only
  split
  · exact ⟨rfl, rfl, rfl, .inr (gf_sf _ _ (by decide))⟩
  · dsimp only
    rw [memOnly_mappedWrite]
    exact ⟨rfl, rfl, rfl, .inl (gf_sf _ _ (by decide))⟩

/-! ## What accepting a record makes -/

/-- The next record `r` of the queue has been accepted as the launch `l`. -/
def EntersAs (s : State) (q : Nat) (x : HostQueue) (r : List W64) (tok : W64) (t : State) (l : Launch) : Prop :=
  l ∈ t.launches ∧ l.id = s.nextLaunch ∧ t.nextLaunch = s.nextLaunch + 1 ∧ l.token = tok ∧ l.queue = q ∧ l.recd = r ∧
    (∃ y ∈ t.queues, y.q = q ∧ y.head = (x.head + 1) % 2 ^ (x.n + 4) ∧ y.seq = x.seq + 1) ∧
    numAt t.mem (recAddr x + 0x38) 8 = tok.toNat

/-- The launch that a record of a host queue enters as. -/
def acceptedLaunch (s : State) (x : HostQueue) (tok : W64) (r : List W64) : Launch :=
  { hostLaunch (advanced s x) tok x.q x.head (recAddr x) x.fn r with
    st := hostState (advanced s x) tok x.fn (x.fn == 0) r }

section
variable {s : State} {q : Nat} {x : HostQueue} (hx : s.queues.find? (fun x => x.q == q && x.alive) = some x)
include hx

theorem queue_of_find? : x ∈ s.queues ∧ x.q = q ∧ x.alive = true := by
  have h := List.find?_some hx
  simp only [Bool.and_eq_true, beq_iff_eq] at h
  exact ⟨List.mem_of_find?_eq_some hx, h.1, h.2⟩

variable (h30 : cxlDown s (recAddr x + 0x30) = false) (h38 : cxlDown s (recAddr x + 0x38) = false)
include h30 h38

theorem acceptedRec_enters {t : State} (hqs : t.queues = s.queues) (hnext : t.nextLaunch = s.nextLaunch)
    (hcap : t.tiercap = s.tiercap) (tok : W64) (r : List W64) :
    EntersAs s q x r tok (acceptedRec t x tok r) (acceptedLaunch t x tok r) := by
  obtain ⟨hmem, rfl, halive⟩ := queue_of_find? hx
  rw [acceptedRec_eq ((cxlDown_congr hcap _).trans h30) ((cxlDown_congr hcap _).trans h38)]
  obtain ⟨hnl, hq, -⟩ := hostEntered_keeps (advanced t x)
    (hostLaunch (advanced t x) tok x.q x.head (recAddr x) x.fn r) (hostState (advanced t x) tok x.fn (x.fn == 0) r)
  refine ⟨mem_launches_hostEntered _ _ _, hnext, hnl.trans (congrArg (· + 1) hnext), rfl, rfl, rfl, ?_,
    hostEntered_token _ _ _⟩
  rw [hq]
  exact ⟨_, mem_queues_advanced t (hqs ▸ hmem) halive, rfl, rfl, rfl⟩

/-- A record of a queue that is not captured is accepted, or refused with its code. -/
theorem launchRecordAccept_plain (hne : x.head ≠ x.tail) (hfn : x.fn ∉ s.frozenFns) (hq : q ≠ 63)
    (hcap : capOn s = false) :
    ∃ t l, exec (.launchRecordAccept q) s = .next t ∧ EntersAs s q x (nextRec s x) (nextTok s x) t l ∧
      (∀ a, a < recAddr x + 0x30 ∨ recAddr x + 0x40 ≤ a → byteAt t.mem a = byteAt s.mem a) ∧
      (∀ code, recCode s x.fn (x.fn == 0) (nextRec s x) = some code → l.st = .failed code ∧
        numAt t.mem (recAddr x + 0x30) 8 = (statusWord (.failed code)).toNat) ∧
      (recCode s x.fn (x.fn == 0) (nextRec s x) = none → (nextRec s x).getD 5 0 = 0 →
        l.st = .waiting ∧ numAt t.mem (recAddr x + 0x30) 8 = 0) := by
  refine ⟨acceptedRec s x (nextTok s x) (nextRec s x), acceptedLaunch s x (nextTok s x) (nextRec s x),
    by rw [exec_launchRecordAccept hx hq, acceptHost_plain hne hfn hcap],
    acceptedRec_enters hx h30 h38 rfl rfl rfl _ _, ?_⟩
  rw [acceptedRec_eq h30 h38]
  have hstatus := hostEntered_status (advanced s x)
    (hostLaunch (advanced s x) (nextTok s x) x.q x.head (recAddr x) x.fn (nextRec s x))
  refine ⟨fun a ha => hostEntered_other (advanced s x) _ _ ha, fun code hcode => ?_, fun hnone hdep => ?_⟩
  · have hst := hostState_refused (tok := nextTok s x) ((recCode_advanced (x := x) x.fn (x.fn == 0)
      (nextRec s x)).trans hcode)
    refine ⟨hst, ?_⟩
    rw [hst]
    exact hstatus _
  · have hst := hostState_waiting (tok := nextTok s x) ((recCode_advanced (x := x) x.fn (x.fn == 0)
      (nextRec s x)).trans hnone) hdep
    refine ⟨hst, ?_⟩
    rw [hst]
    exact hstatus _

/-- A record of the captured queue waits for what goes with it, and is accepted once that is appended. -/
theorem launchRecordAccept_captured (hne : x.head ≠ x.tail) (hfn : x.fn ∉ s.frozenFns) (hq : q ≠ 63)
    (hcap : capOn s = true) (hcq : capQueue s = q) :
    (∀ s1, capRecord s (nextTok s x) (nextRec s x) = (none, s1) →
      exec (.capture q) s = .next s1 ∧ exec (.launchRecordAccept q) s = .next s1) ∧
    (∀ bs s1, capRecord s (nextTok s x) (nextRec s x) = (some bs, s1) →
      (((nextRec s x).set 6 0).set 7 (nextTok s x)).flatMap (fun w => le8 w.toNat) <+: bs ∧
      ∃ t l, exec (.capture q) s = .next t ∧ exec (.launchRecordAccept q) s = .next t ∧
        EntersAs s q x (nextRec s x) (nextTok s x) t l ∧
        (gf t.capstat 16 48 = (gf s.capstat 16 48 + bs.length) % 2 ^ 48 ∨ gf t.capstat 0 16 = 1)) := by
  have hsame : capQueue s = x.q := hcq.trans (queue_of_find? hx).2.1.symm
  rw [exec_capture hx hcap hcq, exec_launchRecordAccept hx hq, acceptHost_captured hne hfn hcap hsame]
  refine ⟨fun s1 h => by rw [h]; exact ⟨rfl, rfl⟩, fun bs s1 h => ?_⟩
  obtain ⟨hpre, hfresh⟩ := capRecord_some h
  obtain ⟨hqs, hnext, htier, hstat⟩ := capAppend_keeps s1 bs
  rw [h]
  refine ⟨hpre, _, acceptedLaunch (capAppend s1 bs) x (nextTok s x) (nextRec s x), rfl, rfl,
    acceptedRec_enters hx h30 h38 (hqs.trans (by rw [hfresh])) (hnext.trans (by rw [hfresh]))
      (htier.trans (by rw [hfresh])) _ _, ?_⟩
  have hkeep : (acceptedRec (capAppend s1 bs) x (nextTok s x) (nextRec s x)).capstat = (capAppend s1 bs).capstat := by
    have ht : (capAppend s1 bs).tiercap = s.tiercap := htier.trans (by rw [hfresh])
    rw [acceptedRec_eq ((cxlDown_congr ht _).trans h30) ((cxlDown_congr ht _).trans h38)]
    exact (hostEntered_keeps _ _ _).2.2
  rw [hkeep]
  have hcs : s1.capstat = s.capstat := by rw [hfresh]
  rwa [hcs] at hstat

end

/-! ## Eligibility and aging (R126, R131, R132) -/

section
variable {s : State} {l : Launch} (hl : s.launch? l.id = some l) (hst : l.st = .waiting)
include hl hst

theorem launchEligible_eligible {bs : List Byte} (hdone : ∀ d ∈ l.deps, tokenState s d = some true)
    (hargs : distRead s l.ctx l.id 8 ((List.range (recNargs l.recd)).map
      (fun n => (va57 (recArgs l.recd + 8 * n), 8))) = .bytes bs) :
    exec (.launchEligible l.id) s =
      .next (requestPreempt (s.setLaunch { l with st := .eligible, eligAt := s.time, args := wordsOf bs })) := by
  change execLaunchEligible l.id s = _
  unfold execLaunchEligible
  rw [hl]
  dsimp only
  rw [if_neg, if_neg, hargs]
  · simpa using fun d hd hf => by simp [hdone d hd] at hf
  · simpa [hst] using fun d hd hf => by simp [hdone d hd] at hf

theorem launchEligible_fails (hknown : ∀ d ∈ l.deps, (tokenState s d).isSome)
    (hfail : ∃ d ∈ l.deps, tokenState s d = some false) :
    exec (.launchEligible l.id) s = .next (setStatus s l (.failed 5)) := by
  obtain ⟨d, hd, hf⟩ := hfail
  change execLaunchEligible l.id s = _
  unfold execLaunchEligible
  rw [hl]
  dsimp only
  rw [if_neg, if_pos]
  · simpa using ⟨d, hd, hf⟩
  · simpa [hst] using fun d hd hf => by simpa [hf] using hknown d hd

theorem launchEligible_waits (hwait : ∃ d ∈ l.deps, tokenState s d = none) :
    exec (.launchEligible l.id) s = .next s := by
  change execLaunchEligible l.id s = _
  unfold execLaunchEligible
  rw [hl]
  dsimp only
  rw [if_pos (by simpa [hst] using hwait)]

end

theorem open'_iff (l : Launch) : open' l = true ↔ l.st = .eligible ∨ l.st = .running := by
  unfold open'
  cases l.st <;> simp

theorem exec_classAging {s : State} {l : Launch} (hl : s.launch? l.id = some l)
    (hopen : l.st = .eligible ∨ l.st = .running) :
    exec (.classAging l.id) s =
      if effClass l < 3 ∧ elapsed s l.eligAt (2000 * (l.boost + 1)) = true then
        .next (requestPreempt (s.setLaunch { l with boost := l.boost + 1 }))
      else .next s := by
  change execClassAging l.id s = _
  unfold execClassAging
  rw [hl]
  simp [(open'_iff l).mpr hopen]

/-! ## Work of other devices (R363, R450) -/

theorem Asked.sameMem {s t : State} (h : Asked s t) : SameMem s t := by
  obtain ⟨ms, rfl, -⟩ := h
  exact fun _ => rfl

/-- What falls to this device of another device's launch, with that device's class and time. -/
def farLaunch (s : State) (dev token inst since d : Nat) (r args : List W64) (x : Context) : Launch :=
  let per := prodOf ((coreExts (levelsOf r)).drop (d + 1))
  { id := s.nextLaunch, token := w64 token, queue := 64, slot := 0, addr := 0, virt := false,
    vctx := gf (r.getD 4 0) 0 16, ctx := gf (r.getD 4 0) 0 16, fn := x.fn, recd := r, deps := [], bad := false,
    args := args, st := .eligible, eligAt := since, boost := 0, total := (inst + 1) * per, placed := inst * per,
    ended := inst * per, ranOn := [], home := some dev, replayOf := 0, reserved := [], devices := [], far := [] }

section
variable {s : State} {dev tok inst cls since d : Nat} {record args : List W64} {x : Context}

theorem exec_remoteInstance {r : List W64} (hr : sf (record.getD 0 0) 59 2 cls :: record.drop 1 = r)
    (hup : s.fabUp = true) (hdev : dev ≠ s.dev) (hle : dev ≤ s.gszm1) (hmine : (dev + inst) % (s.gszm1 + 1) = s.dev)
    (hok : levelsOk (levelsOf r) = true) (hd : devLvl (levelsOf r) = some d)
    (hinst : inst < ((levelsOf r).getD d default).extent) (hx : s.context? (gf (r.getD 4 0) 0 16) = some x)
    (hlive : x.dying = false) :
    exec (.remoteInstance dev tok inst cls since record args) s =
      .next (requestPreempt (withLaunch s (farLaunch s dev tok inst since d r args x))) := by
  change execRemoteInstance dev tok inst cls since record args s = _
  unfold execRemoteInstance
  dsimp only
  rw [hr, hd]
  dsimp only
  rw [hx]
  dsimp only
  rw [if_neg (by simpa [hup, hdev, hle, hmine, hok, hlive] using hinst)]
  rfl

end

/-- Settles O43: each clause is the lemma of its instruction; a record that is accepted changes nothing of memory
beside its STATUS and TOKEN, and a capture draws free values and appends. -/
theorem launchesEnter : Obligations.LaunchesEnter := by
  refine ⟨fun s q x hx hq => ⟨fun hempty => ?_, fun hne hfn h30 h38 => ⟨fun hcap => ?_, fun hcap hcq => ?_⟩⟩,
    fun s l hl hst => ⟨fun bs => launchEligible_eligible hl hst, launchEligible_fails hl hst,
      launchEligible_waits hl hst⟩,
    fun s l hl hopen => ⟨fun hcls hdue => ?_, fun hnot => ?_⟩, asked_requestPreempt, ?_⟩
  · rw [exec_launchRecordAccept hx hq, acceptHost_empty hempty]
  · exact launchRecordAccept_plain hx h30 h38 hne hfn hq hcap
  · exact launchRecordAccept_captured hx h30 h38 hne hfn hq hcap hcq
  · rw [exec_classAging hl hopen, if_pos ⟨hcls, hdue⟩]
  · rw [exec_classAging hl hopen, if_neg (by grind)]
  · intro s dev tok inst cls since record args x r hup hdev hle hmine hok hlvl hx hlive
    obtain ⟨d, hd, hinst⟩ := hlvl
    have hasked := asked_requestPreempt (withLaunch s (farLaunch s dev tok inst since d r args x))
    exact ⟨_, _, exec_remoteInstance rfl hup hdev hle hmine hok hd hinst hx hlive, hasked.sameMem, hasked.launches,
      rfl, rfl, rfl, rfl, rfl, rfl, rfl⟩

end Sys2Proof.Machine
end

section
/-! Motifs are placed, cores are reserved for them, and motifs come back (R132, R134, R342, R359, R450). -/
namespace Sys2Proof.Machine

/-! ## Lists of register writes -/

section
variable {α : Type} (f : Core → α → Core)

/-- What no step of a fold changes, the fold does not change. -/
theorem foldl_keeps {β : Type} (g : Core → β) (h : ∀ k a, g (f k a) = g k) (l : List α) (k : Core) :
    g (l.foldl f k) = g k := by
  induction l generalizing k with
  | nil => rfl
  | cons a l ih => exact (ih (f k a)).trans (h k a)

variable (reg : α → Nat) (val : α → W64)

theorem cfgAt_foldl_setCfg_other (l : List α) (k : Core) {r : Nat} (hr : ∀ a ∈ l, reg a ≠ r) :
    (l.foldl (fun k a => k.setCfg (reg a) (val a)) k).cfgAt r = k.cfgAt r := by
  induction l generalizing k with
  | nil => rfl
  | cons a l ih =>
    refine (ih _ fun b hb => hr b (List.mem_cons_of_mem a hb)).trans ?_
    exact Core.cfgAt_setCfg_other k _ (hr a List.mem_cons_self).symm

/-- Registers that are written from distinct entries hold their entries' values. -/
theorem cfgAt_foldl_setCfg {l : List α} {a : α} (k : Core) (ha : a ∈ l)
    (hinj : ∀ b ∈ l, reg b = reg a → val b = val a) :
    (l.foldl (fun k a => k.setCfg (reg a) (val a)) k).cfgAt (reg a) = val a := by
  induction l using List.reverseRecOn with
  | nil => cases ha
  | append_singleton l b ih =>
    rw [List.foldl_concat]
    by_cases hb : reg b = reg a
    · rw [hb, hinj b (List.mem_append_right l List.mem_cons_self) hb, Core.cfgAt_setCfg]
    · rw [Core.cfgAt_setCfg_other _ _ (Ne.symm hb)]
      have hal : a ∈ l := (List.mem_append.mp ha).resolve_right fun h => hb (by rw [List.mem_singleton.mp h])
      exact ih hal fun c hc => hinj c (List.mem_append_left [b] hc)

/-- Scalars that are written from distinct entries hold their entries' values. -/
theorem sAt_foldl_setS {l : List α} {a : α} (k : Core) (ha : a ∈ l) (hinj : ∀ b ∈ l, reg b = reg a → val b = val a) :
    (l.foldl (fun k a => k.setS (reg a) (val a)) k).sAt (reg a) = val a := by
  induction l using List.reverseRecOn with
  | nil => cases ha
  | append_singleton l b ih =>
    rw [List.foldl_concat]
    by_cases hb : reg b = reg a
    · rw [hb, hinj b (List.mem_append_right l List.mem_cons_self) hb, Core.sAt_setS]
    · rw [Core.sAt_setS_other _ _ (Ne.symm hb)]
      have hal : a ∈ l := (List.mem_append.mp ha).resolve_right fun h => hb (by rw [List.mem_singleton.mp h])
      exact ih hal fun c hc => hinj c (List.mem_append_left [b] hc)

end

/-! ## Steps of the distributor that touch no core -/

section
variable (s : State)

theorem core_recWrite (l : Launch) (off : Nat) (v : W64) (o : Nat) : (recWrite s l off v).core o = s.core o := by
  rcases recWrite_cases s l off v with h | ⟨pa, bs, h⟩ | h
  · rw [h]
  · rw [h]
    rfl
  · exact h.core o

theorem core_setStatus (l : Launch) (st : LaunchSt) (o : Nat) : (setStatus s l st).core o = s.core o := by
  unfold setStatus
  dsimp only
  split
  · exact core_recWrite (s.setLaunch { l with st := st }) l _ _ o
  · rfl

theorem core_capPlace (l : Launch) (m : Motif) (c o : Nat) : (capPlace s l m c).core o = s.core o := by
  unfold capPlace
  split
  · unfold capAppend
    dsimp only
    split
    · rfl
    · rcases mappedWrite_cases s (capArea s + 16 * gf s.capctl 0 16 + gf s.capstat 16 48) _ with h | h <;>
        rw [h] <;> rfl
  · rfl

theorem core_powerOn (c o : Nat) : (powerOn s c).core o = s.core o := by
  unfold powerOn
  dsimp only
  split <;> rfl

theorem powerOn_books (c : Nat) : (powerOn s c).contexts = s.contexts ∧ (powerOn s c).nextMotif = s.nextMotif := by
  unfold powerOn
  dsimp only
  split <;> exact ⟨rfl, rfl⟩

end

/-! ## A motif on its core (R134, R140, R210) -/

/-- A core as placement fills it, but for the registers of `placeRegs`. -/
def filledCore (k : Core) (l : Launch) (x : Context) (id : Nat) : Core :=
  let ls := levelsOf l.recd
  let seed := l.recd.getD 3 0
  let k1 : Core :=
    { freedCore k with
      motif := some id, ctx := x.num, share := ((recDomain ls 4).map (·.size)).getD 0 * 64,
      scratch := ((recDomain ls 7).map (·.size)).getD 0 * 64,
      gangs := ((recDomain ls 5).map (·.extent)).getD 1, fcap := ((recDomain ls 6).map (·.extent)).getD 32,
      bpc := va57 (recEntry l.recd).toNat, prick := x.table }
  (((l.args.zipIdx).foldl (fun k a => k.setS a.2 a.1) k1).setCfg rSRSTATE (if seed = 0 then 1 else seed)).setCfg rMSTAT
    (if (l.recd.getD 0 0).getLsbD 58 then 1 else 0)

/-- What neither scalars nor registers say of the motif on a core. -/
def coreFrame (k : Core) : Option Nat × Nat × Nat × Nat × Map Prick := (k.motif, k.ctx, k.bpc, k.share, k.prick)

theorem coreFrame_setCfg (k : Core) (n : Nat) (v : W64) : coreFrame (k.setCfg n v) = coreFrame k := rfl

theorem coreFrame_placeRegs (s : State) (k : Core) (c : Nat) (x : Context) (l : Launch) (m : Motif) :
    coreFrame (placeRegs s k c x l m) = coreFrame k := by
  unfold placeRegs
  dsimp only
  rw [coreFrame_setCfg, coreFrame_setCfg, coreFrame_setCfg]
  exact foldl_keeps _ coreFrame (fun k n => coreFrame_setCfg k _ _) (List.range 8) k

/-- Placement loads the indices; of the other registers it writes MPOS, MMCTL and POOLB only. -/
theorem cfgAt_placeRegs_lidx (s : State) (k : Core) (c : Nat) (x : Context) (l : Launch) (m : Motif)
    {n : Nat} (hn : n < 8) :
    (placeRegs s k c x l m).cfgAt (rLIDX + n) = w64 (m.lidx.getD n 0) := by
  have hne {r : Nat} (h : 8 ≤ r - rLIDX ∨ r < rLIDX) : rLIDX + n ≠ r := by omega
  unfold placeRegs
  dsimp only
  rw [Core.cfgAt_setCfg_other _ _ (hne (by decide)), Core.cfgAt_setCfg_other _ _ (hne (by decide)),
    Core.cfgAt_setCfg_other _ _ (hne (by decide))]
  exact cfgAt_foldl_setCfg (rLIDX + ·) _ _ (List.mem_range.mpr hn) (fun b _ hb => by rw [Nat.add_left_cancel hb])

theorem cfgAt_placeRegs_other (s : State) (k : Core) (c : Nat) (x : Context) (l : Launch) (m : Motif) {r : Nat}
    (hlidx : ∀ n < 8, rLIDX + n ≠ r) (hpos : r ≠ rMPOS) (hctl : r ≠ rMMCTL) (hpool : r ≠ rPOOLB) :
    (placeRegs s k c x l m).cfgAt r = k.cfgAt r := by
  unfold placeRegs
  dsimp only
  rw [Core.cfgAt_setCfg_other _ _ hpool, Core.cfgAt_setCfg_other _ _ hctl, Core.cfgAt_setCfg_other _ _ hpos]
  exact cfgAt_foldl_setCfg_other _ _ _ _ fun n hn => hlidx n (List.mem_range.mp hn)

theorem sAt_placeRegs (s : State) (k : Core) (c : Nat) (x : Context) (l : Launch) (m : Motif) (r : Nat) :
    (placeRegs s k c x l m).sAt r = k.sAt r := by
  unfold placeRegs
  dsimp only
  rw [Core.sAt_setCfg, Core.sAt_setCfg, Core.sAt_setCfg]
  exact foldl_keeps _ (·.sAt r) (fun k n => Core.sAt_setCfg k r _ _) (List.range 8) k

section
variable (k : Core) (l : Launch) (x : Context) (id : Nat)

/-- The entry, the share and the pricking table of a placed motif (R134, R140, R210). -/
theorem coreFrame_filledCore : coreFrame (filledCore k l x id) =
    (some id, x.num, va57 (recEntry l.recd).toNat,
      ((recDomain (levelsOf l.recd) 4).map (·.size)).getD 0 * 64, x.table) := by
  unfold filledCore
  dsimp only
  rw [coreFrame_setCfg, coreFrame_setCfg]
  exact foldl_keeps (fun (k : Core) (a : W64 × Nat) => k.setS a.2 a.1) coreFrame (fun _ _ => rfl) l.args.zipIdx _

theorem sAt_filledCore {r : Nat} (hr : r < l.args.length) : (filledCore k l x id).sAt r = l.args.getD r 0 := by
  unfold filledCore
  dsimp only
  rw [Core.sAt_setCfg, Core.sAt_setCfg, List.getD_eq_getElem _ _ hr]
  have hmem : (l.args[r], r) ∈ l.args.zipIdx := List.mem_zipIdx_iff_getElem?.mpr (List.getElem?_eq_getElem hr)
  refine sAt_foldl_setS (fun a : W64 × Nat => a.2) (fun a => a.1) _ hmem fun b hb hidx => ?_
  have hb' := List.mem_zipIdx_iff_getElem?.mp hb
  rw [show b.2 = r from hidx, List.getElem?_eq_getElem hr] at hb'
  exact (Option.some.inj hb').symm

theorem seed_filledCore : (filledCore k l x id).cfgAt rSRSTATE = (if l.recd.getD 3 0 = 0 then 1 else l.recd.getD 3 0) :=
  (Core.cfgAt_setCfg_other _ _ (by decide)).trans (Core.cfgAt_setCfg _ _ _)

theorem priv_filledCore : (filledCore k l x id).cfgAt rMSTAT = (if (l.recd.getD 0 0).getLsbD 58 then 1 else 0) :=
  Core.cfgAt_setCfg _ _ _

end

/-! ## One motif, one frame (R335) -/

/-- A context that has a frame left has one with a number. -/
theorem exists_frame {used : List Nat} (h : used.length < 256) :
    ∃ f, (List.range 256).find? (fun f => !used.contains f) = some f := by
  refine Option.isSome_iff_exists.mp (List.find?_isSome.mpr ?_)
  by_contra hno
  have hsub : List.range 256 ⊆ used := fun f hf => by
    by_contra hfu
    exact hno ⟨f, hf, by simpa using hfu⟩
  have := (List.nodup_range.subperm hsub).length_le
  rw [List.length_range] at this
  omega

theorem lt_of_framesLeft {s : State} {ctx : Nat} {x : Context} (hx : s.context? ctx = some x)
    (h : 1 ≤ framesLeft s ctx) : x.framesUsed.length < 256 := by
  rw [framesLeft, hx] at h
  dsimp at h
  omega

theorem num_of_context? {s : State} {n : Nat} {x : Context} (h : s.context? n = some x) : x.num = n := by
  simpa using List.find?_some h

/-- The motif that placement makes. -/
def placedMotif (s : State) (l : Launch) (j c f : Nat) : Motif :=
  { id := s.nextMotif, launch := l.id, index := j, lidx := lidxOf (coreExts (levelsOf l.recd)) j, st := .running,
    core := some c, frame := some f, saved := none, fault := none, pendingTrap := false,
    placedAt := s.time, lease := .idle, giveUp := none, preemptAt := 0, ranOn := [c] }

/-- A motif is placed: its core is filled, and no other core changes. -/
theorem placeOne_core {s : State} {l : Launch} {x : Context} (j c : Nat) (hx : s.context? x.num = some x)
    (hroom : x.framesUsed.length < 256) :
    (∃ f, (placeOne s l x j c).core c = placeRegs (powerOn s c) (filledCore (s.core c) l x s.nextMotif) c x l
      (placedMotif (powerOn s c) l j c f)) ∧
    ∀ o, o ≠ c → (placeOne s l x j c).core o = s.core o := by
  obtain ⟨hctx, hnext⟩ := powerOn_books s c
  have hx' : (powerOn s c).context? x.num = some x := by rw [State.context?, hctx]; exact hx
  have hused : (((powerOn s c).context? x.num).map (·.framesUsed)).getD [] = x.framesUsed := by rw [hx']; rfl
  obtain ⟨f, hf⟩ := exists_frame hroom
  unfold placeOne
  dsimp only
  rw [hused, hf, ← hnext, ← core_powerOn s c c]
  simp only [core_capPlace]
  refine ⟨⟨f, ?_⟩, fun o ho => ?_⟩
  · split <;> exact State.core_setCore (powerOn s c) c _
  · rw [← core_powerOn s c o]
    split <;> exact State.core_setCore_other (powerOn s c) _ ho

/-! ## The distributor's places (R127, R132) -/

/-- A new unit goes to the lowest open cores within its bounds. -/
theorem placeTo_lowest (s : State) (l : Launch) (j : Nat) (hrep : l.replayOf = 0) :
    placeTo s l j = fillCores s l (unitIdx l j) (bounding s l) := by
  rw [placeTo, coresFor, if_pos hrep, List.map_map]
  rfl

/-- A group that comes back goes to the lowest open cores within its bounds. -/
theorem returnTo_lowest (s : State) (l : Launch) (g : List Motif) (hrep : l.replayOf = 0) :
    returnTo s l g = fillCores s l (g.map (·.lidx)) (bounding s l) := by
  rw [returnTo, coresFor, if_pos hrep, List.map_map]
  rfl

section
variable {s : State} {l : Launch} {x : Context} {j : Nat} {cores : List Nat}

/-- A unit of one motif is placed: the core of the motif is filled, and no other changes. -/
theorem placeUnit_core {c : Nat} (hx : s.context? l.ctx = some x) (hunit : unitOf l j = [j])
    (hroom : x.framesUsed.length < 256) :
    (∃ f, (placeUnit s l j [c]).core c = placeRegs (powerOn s c) (filledCore (s.core c) l x s.nextMotif) c x l
      (placedMotif (powerOn s c) l j c f)) ∧
    ∀ o, o ≠ c → (placeUnit s l j [c]).core o = s.core o := by
  have hcore (o : Nat) : (placeUnit s l j [c]).core o = (placeOne s l x j c).core o := by
    unfold placeUnit
    rw [hx, hunit]
    dsimp only
    split
    · exact core_setStatus _ _ _ o
    · rfl
  simp only [hcore]
  exact placeOne_core j c ((congrArg s.context? (num_of_context? hx)).trans hx) hroom

variable (hl : s.launch? l.id = some l) (hopen : open' l = true) (hnext : nextIdx s l = some j)
include hl hopen hnext

section
variable (hturn : isTurn s l = true) (hfirst : returnsFirst s l j = false)
  (hframes : (unitOf l j).length ≤ framesLeft s l.ctx) (hne : cores ≠ [])
include hturn hfirst hframes hne

theorem exec_motifPlace (hspan : spans l = false) : exec (.motifPlace l.id cores) s =
    .next (if placeTo s l j = some cores then requestPreempt (placeUnit s l j cores) else s) := by
  change execMotifPlace l.id cores s = _
  unfold execMotifPlace
  rw [hl]
  dsimp only
  rw [hnext]
  dsimp only
  rw [if_neg (by simpa using hne)]
  simp only [hopen, hturn, hfirst, hframes, hspan, Bool.not_false, Bool.and_true, decide_true, Bool.true_and,
    beq_iff_eq]
  split <;> rfl

theorem exec_crossDeviceReserve (hspan : spans l = true) (hfree : ∀ y ∈ s.launches, y.reserved = [])
    (hbefore : l.home.isSome ∨ ∀ d ∈ groupDevices s l, d < s.dev → d ∈ l.devices)
    (hplace : placeTo s l j = some cores) :
    exec (.crossDeviceReserve l.id cores false) s = .next (s.setLaunch { l with reserved := cores }) := by
  have hmay : mayReserve s l = true := by
    simpa [mayReserve] using ⟨hfree, hbefore.imp_right fun h d hd =>
      (Nat.lt_or_ge d s.dev).elim (fun hlt => .inr (h d hd hlt)) .inl⟩
  change execCrossDeviceReserve l.id cores false s = _
  unfold execCrossDeviceReserve
  rw [hl]
  dsimp only
  rw [hnext]
  dsimp only
  rw [if_neg (by simp [hopen, hspan]), if_neg (by decide), if_neg (by simpa using hne),
    if_pos (by simp [hmay, hturn, hfirst, hframes, hplace])]

/-- A motif that is placed alone: what its core holds. -/
theorem motifPlace_fills (hx : s.context? l.ctx = some x) (hspan : spans l = false) {c : Nat}
    (hplace : placeTo s l j = some cores) (hunit : unitOf l j = [j]) (hc : cores = [c]) :
    ∃ t, exec (.motifPlace l.id cores) s = .next t ∧
      ((t.core c).motif = some s.nextMotif ∧ (t.core c).ctx = x.num ∧ (t.core c).bpc = gf (recEntry l.recd) 0 57 ∧
       (∀ r, r < l.args.length → (t.core c).sAt r = l.args.getD r 0) ∧
       (t.core c).cfgAt rSRSTATE = (if l.recd.getD 3 0 = 0 then 1 else l.recd.getD 3 0) ∧
       (t.core c).cfgAt rMSTAT = (if (l.recd.getD 0 0).getLsbD 58 then 1 else 0) ∧
       (∀ n, n < 8 → (t.core c).cfgAt (rLIDX + n) =
         w64 ((lidxOf (coreExts (levelsOf l.recd)) j).getD n 0)) ∧
       (t.core c).share = ((recDomain (levelsOf l.recd) 4).map (·.size)).getD 0 * 64 ∧ (t.core c).prick = x.table) ∧
      (∀ o, o ≠ c → t.core o = s.core o) := by
  rw [exec_motifPlace hl hopen hnext hturn hfirst hframes hne hspan, if_pos hplace, hc]
  have hroom := lt_of_framesLeft hx (by rwa [hunit] at hframes)
  obtain ⟨⟨f, hfill⟩, hother⟩ := placeUnit_core (c := c) hx hunit hroom
  have hcore := (asked_requestPreempt (placeUnit s l j [c])).core
  refine ⟨_, rfl, ?_, fun o ho => (hcore o).trans (hother o ho)⟩
  rw [hcore, hfill]
  have hframe := (coreFrame_placeRegs (powerOn s c) (filledCore (s.core c) l x s.nextMotif) c x l
    (placedMotif (powerOn s c) l j c f)).trans (coreFrame_filledCore _ _ _ _)
  simp only [coreFrame, Prod.mk.injEq] at hframe
  obtain ⟨hm, hctx, hbpc, hshare, hprick⟩ := hframe
  refine ⟨hm, hctx, hbpc.trans ?_, fun r hr => (sAt_placeRegs _ _ _ _ _ _ _).trans (sAt_filledCore _ _ _ _ hr),
    (cfgAt_placeRegs_other _ _ _ _ _ _ (by decide) (by decide) (by decide) (by decide)).trans (seed_filledCore _ _ _ _),
    (cfgAt_placeRegs_other _ _ _ _ _ _ (by decide) (by decide) (by decide) (by decide)).trans (priv_filledCore _ _ _ _),
    fun n hn => cfgAt_placeRegs_lidx _ _ _ _ _ _ hn, hshare, hprick⟩
  rw [gf_zero, va57]

end

/-- Once every device of a group has reserved, the part of this device is placed. -/
theorem crossDeviceReserve_commits (hspan : spans l = true) (hres : l.reserved ≠ []) (hplace : s.noPlace = false)
    (hlive : (s.context? l.ctx).any (·.dying) = false)
    (hall : l.home.isSome ∨ ∀ d ∈ groupDevices s l, d ≠ s.dev → d ∈ l.devices) :
    exec (.crossDeviceReserve l.id [] true) s = .next (placeUnit s l j l.reserved) := by
  change execCrossDeviceReserve l.id [] true s = _
  unfold execCrossDeviceReserve
  rw [hl]
  dsimp only
  rw [hnext]
  dsimp only
  rw [if_neg (by simp [hopen, hspan]), if_pos rfl, if_pos]
  simp only [hplace, hlive, Bool.not_false, Bool.and_true, Bool.and_eq_true, Bool.not_eq_true',
    List.isEmpty_eq_false_iff,
    Bool.or_eq_true, List.all_eq_true, List.mem_filter, bne_iff_ne, List.contains_iff_mem]
  exact ⟨hres, hall.imp_right fun h d hd => h d hd.1 hd.2⟩

end

/-! ## Motifs come back (R128, R342) -/

section
variable {s : State} {m : Motif} {l : Launch} (hm : s.motif? m.id = some m) (hl : s.launch? m.launch = some l)
  (hopen : open' l = true) (hturn : isTurn s l = true)
include hm hl hopen hturn

/-- A group comes back when its first motif is named, and nothing of a lower index can come back before it. -/
theorem exec_motifReentry (c : Nat) : exec (.motifReentry m.id c) s = .next
    (if (swappedGroup s l m).head?.map (·.id) = some m.id ∧ returnsFirst s l m.index = false then
      match returnTo s l (swappedGroup s l m) with
      | none => s
      | some cs => if cs.head? = some c then
          ((swappedGroup s l m).zip cs).foldl (fun s p => reenter s p.1 p.2) s else s
    else s) := by
  change execMotifReentry m.id c s = _
  unfold execMotifReentry
  rw [hm]
  dsimp only
  rw [hl]
  dsimp only
  simp only [hopen, hturn, Bool.not_true, Bool.false_or, Bool.or_false, Bool.or_eq_true, bne_iff_ne]
  by_cases hfirst : (swappedGroup s l m).head?.map (·.id) = some m.id ∧ returnsFirst s l m.index = false
  · rw [if_neg (by simp [hfirst.1, hfirst.2]), if_pos hfirst]
    cases returnTo s l (swappedGroup s l m) with
    | none => rfl
    | some cs =>
      dsimp only
      split <;> rfl
  · rw [if_pos (by grind), if_neg hfirst]

end

/-- A motif that is back: its state comes from its frame, and its launch has run on the core. -/
theorem reenter_eq {s : State} {m : Motif} {l : Launch} {x : Context} {own : Core} {fr : Nat} (c : Nat)
    (hl : s.launch? m.launch = some l) (hx : s.context? l.ctx = some x) (hown : m.saved = some own)
    (hfr : frameOf s m = some fr) :
    reenter s m c = capPlace ((restoreMotif (powerOn s c) c m x l fr own).setLaunch
      { l with ranOn := if l.ranOn.contains c then l.ranOn else c :: l.ranOn }) l m c := by
  unfold reenter
  rw [hl, hown, hfr]
  dsimp only
  rw [hx]

/-! ## The registers of a frame (R342, R359) -/

section
variable (s : State) (fr : Nat) (k : Core)

theorem loadPrick_frame : (loadPrick s fr k).s = k.s ∧ (loadPrick s fr k).cfg = k.cfg := by
  refine ⟨foldl_keeps _ (·.s) (fun k n => ?_) _ k, foldl_keeps _ (·.cfg) (fun k n => ?_) _ k⟩ <;> dsimp only <;>
    split <;> rfl

/-- A register's word of the frame, in the fields of the context; a seed is never 0. -/
def frameReg (n : Nat) : W64 :=
  let v := w64 (leNat (physRead s (fr + frameRegs + 8 * n) 8)) &&& ctxMask n
  if n = rSRSTATE ∧ v = 0 then 1 else v

/-- A core with the scalars of a frame. -/
def withScalars : Core :=
  (List.range 32).foldl (fun k r => k.setS r (w64 (leNat (physRead s (fr + 0x100 + 8 * r) 8)))) k

/-- A core with the registers of a frame. -/
def withFrameRegs : Core :=
  ((List.range 0x300).filter (fun n => !notCtx n)).foldl (fun k n => k.setCfg n (frameReg s fr n)) k

theorem loadRegs_eq : loadRegs s fr k =
    { loadPrick s fr (withFrameRegs s fr (withScalars s fr k)) with bpc := leNat (physRead s (fr + 0x80) 8) } := rfl

theorem withFrameRegs_s : (withFrameRegs s fr k).s = k.s := by
  unfold withFrameRegs
  exact foldl_keeps (fun k n => k.setCfg n (frameReg s fr n)) (fun k => k.s) (fun _ _ => rfl) _ k

/-- The scalars come from their words of the frame. -/
theorem sAt_loadRegs {r : Nat} (hr : r < 32) :
    (loadRegs s fr k).sAt r = w64 (numAt s.mem (fr + 0x100 + 8 * r) 8) := by
  rw [loadRegs_eq, Core.sAt]
  dsimp only
  rw [(loadPrick_frame s fr _).1, withFrameRegs_s]
  have hs := sAt_foldl_setS id (fun r => w64 (leNat (physRead s (fr + 0x100 + 8 * r) 8))) k (List.mem_range.mpr hr)
    fun b _ hb => by rw [show b = r from hb]
  exact hs

/-- A register of the context comes from its word of the frame. -/
theorem cfgAt_loadRegs {n : Nat} (hn : n < 0x300) (hctx : notCtx n = false) (hseed : n ≠ rSRSTATE) :
    (loadRegs s fr k).cfgAt n = w64 (numAt s.mem (fr + 0x800 + 8 * n) 8) &&& ctxMask n := by
  rw [loadRegs_eq, Core.cfgAt]
  dsimp only
  rw [(loadPrick_frame s fr _).2]
  have hmem : n ∈ (List.range 0x300).filter (fun n => !notCtx n) :=
    List.mem_filter.mpr ⟨List.mem_range.mpr hn, by rw [hctx]; rfl⟩
  have hreg := cfgAt_foldl_setCfg id (frameReg s fr) (withScalars s fr k) hmem fun b _ hb => by rw [show b = n from hb]
  exact hreg.trans (if_neg fun h => hseed h.1)

end

/-- Settles O44: each clause is the lemma of its instruction; what a placed core holds is read through the folds that
write its scalars and registers, and so is what a frame brings back. -/
theorem workPlaced : Obligations.WorkPlaced := by
  refine ⟨fun s l x j cores hl hopen hnext hturn hfirst hframes hx hne =>
      ⟨placeTo_lowest s l j, fun hspan hno => ?_, fun hspan hplace => ⟨?_, fun c hunit hc =>
        motifPlace_fills hl hopen hnext hturn hfirst hframes hne hx hspan hplace hunit hc⟩,
        fun hspan hplace hfree hbefore =>
          exec_crossDeviceReserve hl hopen hnext hturn hfirst hframes hne hspan hfree hbefore hplace⟩,
    fun s l j hl hopen hnext hspan hres hplace hlive hall =>
      crossDeviceReserve_commits hl hopen hnext hspan hres hplace hlive hall,
    fun s m l x own fr c hm hl hx hown hfr hst hopen hturn =>
      ⟨returnTo_lowest s l _, fun cs hfirst hret hc => ?_, fun hno => ?_, reenter_eq c hl hx hown hfr⟩,
    fun s fr k => ⟨rfl, fun r hr => sAt_loadRegs s fr k hr, fun n hn hctx hseed => cfgAt_loadRegs s fr k hn hctx hseed,
      fun own hbad => ?_, fun own heven hlow => ⟨fun hrun hmoved => ?_, fun hstay => ?_⟩⟩⟩
  · rw [exec_motifPlace hl hopen hnext hturn hfirst hframes hne hspan, if_neg hno]
  · rw [exec_motifPlace hl hopen hnext hturn hfirst hframes hne hspan, if_pos hplace]
  · rw [exec_motifReentry hm hl hopen hturn, if_pos hfirst, hret]
    dsimp only
    rw [if_pos hc]
  · rw [exec_motifReentry hm hl hopen hturn]
    rcases hno with hno | hno
    · rw [if_neg hno]
    · rw [hno]
      dsimp only
      rw [ite_self]
  · exact ⟨_, if_pos hbad, rfl⟩
  · refine ⟨_, (if_neg (by omega)).trans (if_pos ?_), rfl⟩
    simpa [hrun] using hmoved
  · refine (if_neg (by omega)).trans (if_neg ?_)
    simpa using fun hrun => hstay.resolve_left (by simp [hrun])

end Sys2Proof.Machine
end

section
/-! Commands of the S slot: how they start on a gang (R142, R148). -/
namespace Sys2Proof.Machine

/-! ## What the end of a bundle leaves of the gangs -/

/-- The gangs of a core, and how many and how wide they may be (R127). -/
def gangsOf (k : Core) : Map Gang × Nat × Nat := (k.gang, k.gangs, k.fcap)

theorem gangsOf_foldl_setQ (b : Nat → Bool) (l : List Nat) (k : Core) :
    gangsOf (l.foldl (fun k n => k.setQ n (b n)) k) = gangsOf k :=
  foldl_keeps (fun k n => k.setQ n (b n)) gangsOf (fun _ _ => rfl) l k

theorem gangsOf_startPass (k : Core) (p : Nat) : gangsOf (startPass k p) = gangsOf k := by
  unfold startPass
  dsimp only
  rw [gangsOf_foldl_setQ]
  exact foldl_keeps (fun k i => if (k.cfgAt (rITCFG + i)).getLsbD 12 then k.setS _ _ else k) gangsOf
    (fun k i => by split <;> rfl) _ k

theorem gangsOf_loopEnd (k : Core) (next : Nat) : gangsOf (loopEnd k next) = gangsOf k := by
  unfold loopEnd
  dsimp only
  split
  · rfl
  · generalize hrot : (if lsRot k.lstat then k.modCfg rVROT (fun w => sf w 0 7 (gf w 0 7 + 127)) else k) = k1
    have hk1 : gangsOf k1 = gangsOf k := by
      rw [← hrot]
      split <;> rfl
    split
    · exact (gangsOf_foldl_setQ (fun _ => true) _ k1).trans hk1
    · exact (gangsOf_startPass _ _).trans hk1

theorem gangsOf_nestEnd (b : Bool) (next : Nat) (k : Core) : gangsOf (nestEnd b next k) = gangsOf k := by
  unfold nestEnd
  split
  · exact gangsOf_loopEnd k next
  · rfl

theorem gangsOf_countCore (w : Nat) (k : Core) : gangsOf (countCore w k) = gangsOf k := rfl

/-! ## A gang starts (R142, R149) -/

/-- The gang that a command starts on, of a core with so many gangs and so wide. -/
def startedGang (seed gangs fcap g depth : Nat) (cmd : SCmd) : Gang :=
  let p := cmd.entry
  let f := if p.fibm1 + 1 < fcap then p.fibm1 + 1 else fcap
  let a := allotment gangs
  { Gang.empty with
    st := .running, depth := depth, gpri := p.gpri, bound := p.regm1 + 1,
    res := if p.regm1 + 1 < a then p.regm1 + 1 else a, base := g * a,
    fibres := newFibres (if cmd.lib.isSome then .waiting else .ready) f p.entry 0 seed,
    regs := startRegs f (p.regm1 + 1) cmd.sa cmd.g45 cmd.unpick, cmd := some cmd }

theorem startGang_gangs (s : State) (c g depth : Nat) (cmd : SCmd) : gangsOf ((startGang s c g depth cmd).core c) =
    (mset (s.core c).gang g (startedGang s.fresh (s.core c).gangs (s.core c).fcap g depth cmd),
      (s.core c).gangs, (s.core c).fcap) := by
  unfold startGang
  dsimp only [freshSeed]
  rw [State.core_setCore]
  rfl

theorem startGang_mem (s : State) (c g depth : Nat) (cmd : SCmd) : (startGang s c g depth cmd).mem = s.mem := rfl

/-- The fibres of a gang that starts are those of R142. -/
theorem fibre_newFibres (st : FibreSt) (pc stamp seed : Nat) {f l : Nat} (hl : l < f) :
    mget (fun _ => Fibre.none) (newFibres st f pc stamp seed) l =
      { pc := pc, k := 0x7F, st := st, arrived := .no, stamp := stamp, seeds := [(0, seed)] } := by
  have key (is : List Nat) (v : Fibre) (h : l ∈ is) : mget (fun _ => Fibre.none) (is.map (fun i => (i, v))) l = v := by
    induction is with
    | nil => cases h
    | cons i is ih =>
      rw [List.map_cons, mget]
      split
      · rfl
      · next hne => exact ih ((List.mem_cons.mp h).resolve_left hne)
  exact key (List.range f) _ (List.mem_range.mpr hl)

/-! ## The slot that starts a gang (R142) -/

section
variable {s : State} {c : Nat} {g : Guard} {op : Nat} {o : SOp} {hi : BitVec 32} {i : Instr}

/-- Decode checks the descriptors against USE, but of a V, M or K slot without a binding. -/
theorem semStitch_legal (k : Core) : (semStitch g op o hi i).legal k =
    (((k.prickAt op).kind == 0 && opcClass op != .s) || descsLegal (k.prickAt op) [o.d0, o.d1, o.d2]) := by
  change (((k.prickAt op).kind == 0 && slotCode (opcClass op) != 4) || _) = _
  cases opcClass op <;> rfl

/-- The slot is ready when a gang is free and its rings are. -/
theorem semStitch_ready : (semStitch g op o hi i).ready (soloMarks s c (semStitch g op o hi i)) s =
    ((((s.core c).prickAt op).kind == 0 && opcClass op != .s) ||
      ((freeGang (s.core c)).isSome && !nestedWait (s.core c) &&
        descsReady (s.core c) ((s.core c).prickAt op) [o.d0, o.d1, o.d2] &&
        marksFree (s.core c) (inRings ((s.core c).prickAt op) [o.d0, o.d1, o.d2])
          (outRings ((s.core c).prickAt op) [o.d0, o.d1, o.d2]))) := by
  have hneed : (soloMarks s c (semStitch g op o hi i)).gangNeed ≤ 1 := by
    have := List.length_filter_le (fun x => x.gang (s.core c)) [semStitch g op o hi i]
    exact this
  have hfree (h : (freeGang (s.core c)).isSome = true) : 1 ≤ freeGangs (s.core c) := by
    obtain ⟨n, hn⟩ := Option.isSome_iff_exists.mp h
    exact List.length_pos_of_mem (List.mem_filter.mpr ⟨List.mem_of_find?_eq_some hn,
      List.find?_some (p := fun g => ((s.core c).gangAt g).st == .free) hn⟩)
  have hcls : (slotCode (opcClass op) != 4) = (opcClass op != .s) := by cases opcClass op <;> rfl
  change ((((s.core c).prickAt op).kind == 0 && slotCode (opcClass op) != 4) || ((freeGang (s.core c)).isSome &&
    decide ((soloMarks s c (semStitch g op o hi i)).gangNeed ≤ freeGangs (s.core c)) && !nestedWait (s.core c) &&
    descsReady (s.core c) ((s.core c).prickAt op) [o.d0, o.d1, o.d2] &&
    marksFree (s.core c) (inRings ((s.core c).prickAt op) [o.d0, o.d1, o.d2])
      (outRings ((s.core c).prickAt op) [o.d0, o.d1, o.d2]))) = _
  rw [hcls]
  cases h : (freeGang (s.core c)).isSome
  · rfl
  · rw [decide_eq_true (hneed.trans (hfree h))]
    rfl

/-- Rings that USE selects and that are all valid stop nothing (R67). -/
theorem find?_invalid_none {k : Core} {p : Prick} {ds : List Desc} (hds : ds.length = 3)
    (hvalid : ∀ n ∈ List.range 3, hasBit p.use n = true → cbValid (k.cb (descH (ds.getD n 0))) = true) :
    (inRings p ds ++ outRings p ds).find? (fun h => !cbValid (k.cb h)) = none := by
  refine List.find?_eq_none.mpr fun h hh => ?_
  obtain ⟨x, hx, huse, rfl⟩ : ∃ x ∈ ds.zipIdx, hasBit p.use x.2 = true ∧ descH x.1 = h := by
    simp only [inRings, outRings, List.mem_append, List.mem_map, List.mem_filter, Bool.and_eq_true] at hh
    rcases hh with ⟨x, ⟨hx, huse, -⟩, hd⟩ | ⟨x, ⟨hx, huse, -⟩, hd⟩ <;> exact ⟨x, hx, huse, hd⟩
  have hget := List.mem_zipIdx_iff_getElem?.mp hx
  have hlt : x.2 < 3 := hds ▸ (List.getElem?_eq_some_iff.mp hget).1
  have := hvalid x.2 (List.mem_range.mpr hlt) huse
  rw [List.getD_eq_getElem?_getD, hget, Option.getD_some] at this
  simp [this]

/-- An opcode without a binding traps UNBOUND. -/
theorem semStitch_check_unbound (h : ((s.core c).prickAt op).kind = 0) :
    (semStitch g op o hi i).check (soloMarks s c (semStitch g op o hi i)) s =
      some (.trap { (soloMarks s c (semStitch g op o hi i)).trap i (slotCode (opcClass op)) with cause := .unbound }) :=
  if_pos h

/-- With valid rings a bound opcode is stopped by its parameter word alone (R148). -/
theorem semStitch_check (hkind : ((s.core c).prickAt op).kind ≠ 0)
    (hvalid : ∀ n ∈ List.range 3, hasBit ((s.core c).prickAt op).use n = true →
      cbValid ((s.core c).cb (descH ([o.d0, o.d1, o.d2].getD n 0))) = true) :
    (semStitch g op o hi i).check (soloMarks s c (semStitch g op o hi i)) s =
      if ((s.core c).prickAt op).kind = 1 ∧ libBad op ((s.core c).sAt o.sa.toNat)
          ((portsOf (s.core c) ((s.core c).prickAt op) [o.d0, o.d1, o.d2]).map (·.1.size)) = true then
        some (.trap { (soloMarks s c (semStitch g op o hi i)).trap i (slotCode (opcClass op)) with cause := .libparam })
      else none := by
  refine (if_neg hkind).trans ?_
  have hnone := find?_invalid_none (ds := [o.d0, o.d1, o.d2]) rfl hvalid
  change (match (inRings ((s.core c).prickAt op) [o.d0, o.d1, o.d2] ++
      outRings ((s.core c).prickAt op) [o.d0, o.d1, o.d2]).find? (fun h => !cbValid ((s.core c).cb h)) with
    | some _ => _
    | none => if (((s.core c).prickAt op).kind == 1 && libBad op ((s.core c).sAt o.sa.toNat)
          ((portsOf (s.core c) ((s.core c).prickAt op) [o.d0, o.d1, o.d2]).map
            (fun q : Port × Option (Nat × Nat) => q.1.size))) = true then _ else none) = _
  rw [hnone]
  simp only [Bool.and_eq_true, beq_iff_eq]
  rfl

/-- The command that the slot makes for a gang (R142). -/
def stitchCmd (k : Core) (n op : Nat) (o : SOp) (hi : BitVec 32) (i : Instr) : SCmd :=
  mkSCmd k n op (encWords i).1 hi (k.sAt o.sa.toNat) k.bpc (k.prickAt op) [o.d0, o.d1, o.d2]
    (if (k.prickAt op).kind == 1 then some i else none) none none

theorem freeGang_congr {k k' : Core} (h : gangsOf k = gangsOf k') : freeGang k = freeGang k' := by
  simp only [gangsOf, Prod.mk.injEq] at h
  obtain ⟨hgang, hgangs, -⟩ := h
  simp only [freeGang, Core.gangAt, hgang, hgangs]

theorem gangAt_of_gangsOf {k : Core} {m : Map Gang} {p : Nat × Nat} (h : gangsOf k = (m, p)) (g : Nat) :
    k.gangAt g = mget (fun _ => Gang.empty) m g := by
  rw [Core.gangAt, show k.gang = m from congrArg Prod.fst h]

/-- The slot takes effect: its command starts on the lowest free gang, of the device as the bundle leaves it. -/
theorem semStitch_eff {n : Nat} (hn : freeGang (s.core c) = some n) {t : State}
    (ht : gangsOf (t.core c) = gangsOf (s.core c)) :
    (semStitch g op o hi i).eff { soloMarks s c (semStitch g op o hi i) with logAt := none } t =
      startGang t c n 1 (stitchCmd (s.core c) n op o hi i) := by
  change (match freeGang (t.core c) with
    | none => t
    | some n => startGang t c n 1 (stitchCmd (s.core c) n op o hi i)) = _
  rw [freeGang_congr ht, hn]

/-- The gangs of a core on which a command has started on one. -/
def GangStarts (s : State) (c n : Nat) (cmd : SCmd) (t : State) : Prop :=
  SameMem s t ∧ (t.core c).gangAt n = startedGang s.fresh (s.core c).gangs (s.core c).fcap n 1 cmd ∧
    ∀ o, o ≠ n → (t.core c).gangAt o = (s.core c).gangAt o

theorem startGang_starts {n : Nat} {cmd : SCmd} {t : State} (ht : gangsOf (t.core c) = gangsOf (s.core c))
    (hmem : t.mem = s.mem) (hfresh : t.fresh = s.fresh) {f : Core → Core} (hf : ∀ k, gangsOf (f k) = gangsOf k) :
    GangStarts s c n cmd ((startGang t c n 1 cmd).modCore c f) := by
  have hgangs := startGang_gangs t c n 1 cmd
  have hk := ht
  simp only [gangsOf, Prod.mk.injEq] at hk
  obtain ⟨hgang, hcount, hwide⟩ := hk
  rw [hgang, hcount, hwide, hfresh, ← hf ((startGang t c n 1 cmd).core c),
    ← State.core_modCore (startGang t c n 1 cmd) c f] at hgangs
  have hat := gangAt_of_gangsOf hgangs
  refine ⟨fun a => congrArg (byteAt · a) hmem, (hat n).trans (mget_mset_same _ _ _ _), fun o ho => ?_⟩
  exact (hat o).trans (mget_mset_other _ _ _ ho)

section
variable (hc : CanIssue s c) (hg : Enabled (s.core c) g) (hexec : exec i s = issueOne (semStitch g op o hi i) s)
include hc hg hexec

/-- A command whose rings are ready and that nothing stops starts on the lowest free gang. -/
theorem stitch_starts (hrec : recording (s.core c) [semStitch g op o hi i] = false)
    (hlegal : (semStitch g op o hi i).legal (s.core c) = true)
    (hready : (semStitch g op o hi i).ready (soloMarks s c (semStitch g op o hi i)) s = true)
    (hcheck : (semStitch g op o hi i).check (soloMarks s c (semStitch g op o hi i)) s = none)
    {n : Nat} (hn : freeGang (s.core c) = some n) :
    ∃ t, exec i s = .next t ∧ GangStarts s c n (stitchCmd (s.core c) n op o hi i) t := by
  have hen : (semStitch g op o hi i).enabled (s.core c) = true := enabled_of rfl hg
  rw [hexec]
  have hpassed (len : Nat) : gangsOf ((passed s c len).core c) = gangsOf (s.core c) := by
    rw [passed, State.core_modCore]
    rfl
  have hclass : ((semStitch g op o hi i).cls = 0 ∨ (semStitch g op o hi i).cls = 2) ∨
      ((semStitch g op o hi i).cls = 1 ∨ (semStitch g op o hi i).cls = 3 ∨ (semStitch g op o hi i).cls = 4) := by
    change (slotCode (opcClass op) = 0 ∨ slotCode (opcClass op) = 2) ∨
      (slotCode (opcClass op) = 1 ∨ slotCode (opcClass op) = 3 ∨ slotCode (opcClass op) = 4)
    cases opcClass op <;> decide
  rcases hclass with hcls | hcls
  · refine ⟨_, issueOne_by hc hcls hlegal hen hready hcheck (.inr hrec) (fun _ => rfl), ?_⟩
    rw [issuedBy, semStitch_eff hn (hpassed _), State.modCore_modCore]
    exact startGang_starts (hpassed _) rfl rfl fun k => (gangsOf_countCore _ _).trans (gangsOf_nestEnd _ _ k)
  · refine ⟨_, issueOne_after hc hcls hlegal hen hready hcheck hrec (fun _ => rfl), ?_⟩
    have hnest : gangsOf ((passedNest s c (oneLen (semStitch g op o hi i).cls)).core c) = gangsOf (s.core c) := by
      rw [passedNest, State.core_modCore, gangsOf_nestEnd, hpassed]
    rw [issuedAfter, semStitch_eff hn hnest]
    exact startGang_starts hnest rfl rfl fun k => gangsOf_countCore _ k

/-- While no gang is free the slot waits (R64). -/
theorem stitch_waits (hslot : ((s.core c).prickAt op).kind ≠ 0 ∨ opcClass op = .s)
    (hlegal : descsLegal ((s.core c).prickAt op) [o.d0, o.d1, o.d2] = true) (hfree : freeGang (s.core c) = none) :
    exec i s = .next s := by
  rw [hexec]
  refine issueOne_waits hc ?_ (enabled_of rfl hg) ?_
  · rw [semStitch_legal, hlegal, Bool.or_true]
  · rw [semStitch_ready, hfree]
    rcases hslot with h | h <;> simp [h]

/-- An opcode without a binding traps UNBOUND once its slot is ready. -/
theorem stitch_unbound (hkind : ((s.core c).prickAt op).kind = 0)
    (hs : opcClass op = .s → descsLegal ((s.core c).prickAt op) [o.d0, o.d1, o.d2] = true ∧
      (freeGang (s.core c)).isSome = true ∧ nestedWait (s.core c) = false ∧
      descsReady (s.core c) ((s.core c).prickAt op) [o.d0, o.d1, o.d2] = true ∧
      marksFree (s.core c) (inRings ((s.core c).prickAt op) [o.d0, o.d1, o.d2])
        (outRings ((s.core c).prickAt op) [o.d0, o.d1, o.d2]) = true) :
    exec i s = .next (trapped s c (slotCode (opcClass op)) i .unbound) := by
  rw [hexec]
  refine issueOne_traps hc ?_ (enabled_of rfl hg) ?_ (semStitch_check_unbound hkind)
  · rw [semStitch_legal, hkind]
    by_cases h : opcClass op = .s
    · rw [(hs h).1, Bool.or_true]
    · simp [h]
  · rw [semStitch_ready, hkind]
    by_cases h : opcClass op = .s
    · obtain ⟨-, hfree, hnest, hds, hmarks⟩ := hs h
      simp [hfree, hnest, hds, hmarks]
    · simp [h]

omit hg in
/-- Descriptors that USE does not allow trap ILLEGAL (R142). -/
theorem stitch_illegal (hslot : ((s.core c).prickAt op).kind ≠ 0 ∨ opcClass op = .s)
    (hlegal : descsLegal ((s.core c).prickAt op) [o.d0, o.d1, o.d2] = false) :
    ∃ x, exec i s = .next (raiseTrap s c x) ∧ x.cause = .illegal := by
  have hbad : (semStitch g op o hi i).legal (solo s c (semStitch g op o hi i).cls).k = false := by
    rw [semStitch_legal, solo_k, hlegal]
    rcases hslot with h | h <;> simp [h]
  rw [hexec, issueOne_eq hc, issueSlots]
  simp only [List.find?_cons, hbad, Bool.not_false, solo_c]
  exact ⟨_, rfl, rfl⟩

section
variable (hlegal : descsLegal ((s.core c).prickAt op) [o.d0, o.d1, o.d2] = true)
  (hvalid : ∀ n ∈ List.range 3, hasBit ((s.core c).prickAt op).use n = true →
    cbValid ((s.core c).cb (descH ([o.d0, o.d1, o.d2].getD n 0))) = true)
  (hds : descsReady (s.core c) ((s.core c).prickAt op) [o.d0, o.d1, o.d2] = true)
  (hmarks : marksFree (s.core c) (inRings ((s.core c).prickAt op) [o.d0, o.d1, o.d2])
    (outRings ((s.core c).prickAt op) [o.d0, o.d1, o.d2]) = true)
  (hnest : nestedWait (s.core c) = false)
include hlegal hvalid hds hmarks hnest

/-- A parameter word that breaks its rules traps LIBPARAM (R148). -/
theorem stitch_libparam (hkind : ((s.core c).prickAt op).kind = 1) (hfree : (freeGang (s.core c)).isSome)
    (hlib : libBad op ((s.core c).sAt o.sa.toNat)
      ((portsOf (s.core c) ((s.core c).prickAt op) [o.d0, o.d1, o.d2]).map (·.1.size)) = true) :
    exec i s = .next (trapped s c (slotCode (opcClass op)) i .libparam) := by
  rw [hexec]
  refine issueOne_traps hc ?_ (enabled_of rfl hg) ?_ ?_
  · rw [semStitch_legal, hlegal, Bool.or_true]
  · rw [semStitch_ready, hds, hmarks, hnest, hfree]
    simp
  · rw [semStitch_check (by simp [hkind]) hvalid, if_pos ⟨hkind, hlib⟩]
    rfl

variable (hrec : recording (s.core c) [semStitch g op o hi i] = false) {n : Nat} (hn : freeGang (s.core c) = some n)
include hrec hn

/-- A bound opcode whose parameter word, where it is a library operation's, keeps its rules starts its gang. -/
theorem stitch_bound_starts (hkind : ((s.core c).prickAt op).kind ≠ 0)
    (hlib : ((s.core c).prickAt op).kind = 1 → libBad op ((s.core c).sAt o.sa.toNat)
      ((portsOf (s.core c) ((s.core c).prickAt op) [o.d0, o.d1, o.d2]).map (·.1.size)) = false) :
    ∃ t, exec i s = .next t ∧ GangStarts s c n (stitchCmd (s.core c) n op o hi i) t := by
  refine stitch_starts hc hg hexec hrec ?_ ?_ ?_ hn
  · rw [semStitch_legal, hlegal, Bool.or_true]
  · rw [semStitch_ready, hds, hmarks, hnest, hn]
    simp
  · rw [semStitch_check hkind hvalid, if_neg (fun h => by simp [hlib h.1] at h)]

/-- A library command starts with its fibres waiting for the device's own code. -/
theorem stitch_lib_starts (hkind : ((s.core c).prickAt op).kind = 1) (hlib : libBad op ((s.core c).sAt o.sa.toNat)
      ((portsOf (s.core c) ((s.core c).prickAt op) [o.d0, o.d1, o.d2]).map (·.1.size)) = false) :
    ∃ t, exec i s = .next t ∧ SameMem s t ∧ ((t.core c).gangAt n).st = .running ∧
      ((t.core c).gangAt n).depth = 1 ∧ ∃ x, ((t.core c).gangAt n).cmd = some x ∧ x.opc = op ∧
        x.sa = (s.core c).sAt o.sa.toNat ∧ x.lib = some i ∧
        x.outs = outRings ((s.core c).prickAt op) [o.d0, o.d1, o.d2] ∧
        x.ins = inRings ((s.core c).prickAt op) [o.d0, o.d1, o.d2] := by
  obtain ⟨t, ht, hmem, hgang, -⟩ := stitch_bound_starts hc hg hexec hlegal hvalid hds hmarks hnest hrec hn
    (by simp [hkind]) (fun _ => hlib)
  refine ⟨t, ht, hmem, ?_⟩
  rw [hgang]
  exact ⟨rfl, rfl, _, rfl, rfl, rfl, if_pos (by rw [hkind]; rfl), rfl, rfl⟩

/-- A routine starts at its entry, in each of its fibres. -/
theorem stitch_routine_starts (hkind : ((s.core c).prickAt op).kind = 2) :
    ∃ t, exec i s = .next t ∧ SameMem s t ∧ ((t.core c).gangAt n).st = .running ∧
      ((t.core c).gangAt n).depth = 1 ∧
      (∀ l, l < (if ((s.core c).prickAt op).fibm1 + 1 < (s.core c).fcap then ((s.core c).prickAt op).fibm1 + 1
          else (s.core c).fcap) →
        ((t.core c).gangAt n).fibre l = { pc := ((s.core c).prickAt op).entry, k := 0x7F, st := .ready, arrived := .no,
                                          stamp := 0, seeds := [(0, s.fresh)] }) ∧
      (∀ o', o' ≠ n → (t.core c).gangAt o' = (s.core c).gangAt o') ∧
      ∃ x, ((t.core c).gangAt n).cmd = some x ∧ x.opc = op ∧ x.sa = (s.core c).sAt o.sa.toNat ∧ x.lib = none := by
  obtain ⟨t, ht, hmem, hgang, hother⟩ := stitch_bound_starts hc hg hexec hlegal hvalid hds hmarks hnest hrec hn
    (by simp [hkind]) (fun h => by simp [hkind] at h)
  have hlib : (stitchCmd (s.core c) n op o hi i).lib = none := if_neg (by rw [hkind]; decide)
  refine ⟨t, ht, hmem, ?_⟩
  rw [hgang]
  refine ⟨rfl, rfl, fun l hl => ?_, hother, _, rfl, rfl, rfl, hlib⟩
  refine (fibre_newFibres _ _ _ _ hl).trans ?_
  rw [hlib]
  rfl

end

end

end

end Sys2Proof.Machine
end

section
/-! S commands complete (R136, R143): what library commands leave on their output ports (R148). -/
namespace Sys2Proof.Machine

/-! ## Rows of one length, one after the other -/

section
variable {α β : Type} {f : α → List β} {n : Nat}

theorem length_flatMap_const {l : List α} (hf : ∀ a ∈ l, (f a).length = n) : (l.flatMap f).length = l.length * n := by
  induction l with
  | nil => rw [List.flatMap_nil, List.length_nil, List.length_nil, Nat.zero_mul]
  | cons a l ih =>
    rw [List.flatMap_cons, List.length_append, hf a List.mem_cons_self, ih fun b hb => hf b (List.mem_cons_of_mem a hb),
      List.length_cons, Nat.succ_mul, Nat.add_comm]

/-- An entry of a row lies behind the rows before it. -/
theorem getElem?_flatMap_const {l : List α} (hf : ∀ a ∈ l, (f a).length = n) {i j : Nat} (hi : i < l.length)
    (hj : j < n) : (l.flatMap f)[i * n + j]? = (f l[i])[j]? := by
  induction l generalizing i with
  | nil => exact absurd hi (Nat.not_lt_zero i)
  | cons a l ih =>
    have ha := hf a List.mem_cons_self
    rw [List.flatMap_cons]
    cases i with
    | zero =>
      rw [Nat.zero_mul, Nat.zero_add, List.getElem?_append_left (by rw [ha]; exact hj)]
      rfl
    | succ i =>
      rw [Nat.succ_mul, List.getElem?_append_right (by omega), ha, show i * n + n + j - n = i * n + j by omega]
      exact ih (fun b hb => hf b (List.mem_cons_of_mem a hb)) (Nat.lt_of_succ_lt_succ hi)

end

section
variable {β : Type} {f : Nat → List β} {n m : Nat}

theorem length_rows (hf : ∀ r, (f r).length = n) : ((List.range m).flatMap f).length = m * n :=
  (length_flatMap_const fun r _ => hf r).trans (by rw [List.length_range])

/-- Entry j of row i. -/
theorem getElem?_rows (hf : ∀ r, (f r).length = n) {i j : Nat} (hi : i < m) (hj : j < n) :
    ((List.range m).flatMap f)[i * n + j]? = (f i)[j]? := by
  rw [getElem?_flatMap_const (fun r _ => hf r) (by rwa [List.length_range]) hj, List.getElem_range]

end

theorem lt_of_row {m n i j : Nat} (hi : i < m) (hj : j < n) : i * n + j < m * n :=
  calc i * n + j < i * n + n := Nat.add_lt_add_left hj _
    _ = (i + 1) * n := (Nat.succ_mul i n).symm
    _ ≤ m * n := Nat.mul_le_mul_right n hi

/-- The elements of a list that counts, with their places. -/
theorem zipIdx_map_range {α : Type} (f : Nat → α) (n : Nat) :
    ((List.range n).map f).zipIdx = (List.range n).map (fun i => (f i, i)) := by
  refine List.ext_getElem (by simp) fun i h1 h2 => ?_
  simp

/-! ## Numbers in the tile store -/

theorem leNat_lt (bs : List Byte) : leNat bs < 256 ^ bs.length := by
  induction bs with
  | nil => exact Nat.one_pos
  | cons b bs ih =>
    rw [leNat, List.length_cons, Nat.pow_succ]
    have := b.isLt
    omega

theorem numAt_lt (m : Map Byte) (a n : Nat) : numAt m a n < 2 ^ (8 * n) := by
  have h := leNat_lt (bytesAt m a n)
  rwa [length_bytesAt, show 256 = 2 ^ 8 from rfl, ← Nat.pow_mul] at h

/-- A number of a list that has been written. -/
theorem numAt_written {m : Map Byte} {a n i v : Nat} {l : List Nat} (h : l[i]? = some v) :
    numAt (putBytes m a (bytesOf n l)) (a + n * i) n = v % 2 ^ (8 * n) := by
  obtain ⟨hi, rfl⟩ := List.getElem?_eq_some_iff.mp h
  exact numAt_putBytes_bytesOf m a n l hi

/-- A byte of a list that has been written. -/
theorem byteAt_written {m : Map Byte} {a i : Nat} {b : Byte} {bs : List Byte} (h : bs[i]? = some b) :
    byteAt (putBytes m a bs) (a + i) = b := by
  obtain ⟨hi, rfl⟩ := List.getElem?_eq_some_iff.mp h
  exact byteAt_putBytes_in m a i bs hi

/-! ## A library command completes (R143, R148) -/

/-- The tile store once the writes of a library command have landed. -/
def libTs (ts : Map Byte) (x : SCmd) (ws : List (Nat × Nat × List Byte)) : Map Byte :=
  ws.foldl (fun m w => putBytes m ((sPort x w.1).base + w.2.1) w.2.2) ts

section
variable (s : State) (c : Nat) (x : SCmd)

theorem landWrites (ws : List (Nat × Nat × List Byte)) :
    (ws.foldl (fun s w => landTs s c 1 ((sPort x w.1).base + w.2.1) w.2.2) s).mem = s.mem ∧
    ((ws.foldl (fun s w => landTs s c 1 ((sPort x w.1).base + w.2.1) w.2.2) s).core c).ts =
      libTs (s.core c).ts x ws := by
  induction ws generalizing s with
  | nil => exact ⟨rfl, rfl⟩
  | cons w ws ih =>
    obtain ⟨hmem, hts⟩ := ih (landTs s c 1 ((sPort x w.1).base + w.2.1) w.2.2)
    refine ⟨hmem.trans rfl, hts.trans ?_⟩
    rw [landTs_ts]
    rfl

/-- A command without a log entry or a parent that completes leaves its gang free, and frees what waited. -/
theorem completeS_eq (g : Nat) (hlog : x.logAt = none) (hparent : x.parent = none) : completeS s c g x =
    (released s c (ofGang g)).modCore c (fun k => (k.setGang g Gang.empty).dropAhead .seq) := by
  unfold completeS fillOutputs
  rw [hlog, hparent]
  rfl

theorem completeS_leaves (g : Nat) (hlog : x.logAt = none) (hparent : x.parent = none) :
    (completeS s c g x).mem = s.mem ∧ ((completeS s c g x).core c).gangAt g = Gang.empty ∧
    ((completeS s c g x).core c).ts = (s.core c).ts := by
  have hgang (k : Core) : ((k.setGang g Gang.empty).dropAhead .seq).gangAt g = (k.setGang g Gang.empty).gangAt g := rfl
  have hts (k : Core) : ((k.setGang g Gang.empty).dropAhead .seq).ts = k.ts := rfl
  rw [completeS_eq s c x g hlog hparent, State.core_modCore, State.modCore_mem, released_mem, hgang, hts, released_core]
  exact ⟨rfl, Core.gangAt_setGang _ _ _, rfl⟩

theorem libOut_state : (libOut s c x).2.mem = s.mem ∧ (libOut s c x).2.core c = s.core c := by
  unfold libOut
  dsimp only
  split
  case h_6 => exact ⟨rfl, rfl⟩
  all_goals exact ⟨rfl, rfl⟩

/-- Library code that reads no poison, with no store of its sequencer unordered before it, leaves what it writes. -/
theorem runLib_leaves (g : Nat) (hlog : x.logAt = none) (hparent : x.parent = none)
    (hpoison : libPoison (s.core c) x = none) (hold : ∀ v ∈ (s.core c).vold, ¬ (v.core = c ∧ v.agent = .seq)) :
    (runLib s c g x).mem = s.mem ∧ ((runLib s c g x).core c).gangAt g = Gang.empty ∧
    ((runLib s c g x).core c).ts = libTs (s.core c).ts x (libOut s c x).1.writes := by
  have hstale : libStale s c x = libOut s c x := by
    refine if_pos (List.isEmpty_iff.mpr (List.filter_eq_nil_iff.mpr fun v hv => ?_))
    simpa using hold v hv
  have hrun : runLib s c g x = completeS (((libOut s c x).1.writes.foldl
      (fun s w => landTs s c 1 ((sPort x w.1).base + w.2.1) w.2.2) (libOut s c x).2).modCore c
        (·.orFlags (libOut s c x).1.flags)) c g x := by
    unfold runLib
    rw [hpoison, ← hstale]
  obtain ⟨hmem, hcore⟩ := libOut_state s c x
  obtain ⟨hwmem, hwts⟩ := landWrites (libOut s c x).2 c x (libOut s c x).1.writes
  rw [hcore] at hwts
  rw [hrun]
  obtain ⟨hcmem, hfree, hcts⟩ := completeS_leaves (((libOut s c x).1.writes.foldl
      (fun s w => landTs s c 1 ((sPort x w.1).base + w.2.1) w.2.2) (libOut s c x).2).modCore c
        (·.orFlags (libOut s c x).1.flags)) c x g hlog hparent
  refine ⟨hcmem.trans (hwmem.trans hmem), hfree, hcts.trans ?_⟩
  have horFlags (k : Core) (fl : Nat) : (k.orFlags fl).ts = k.ts := by
    unfold Core.orFlags
    split <;> rfl
  rw [State.core_modCore, horFlags]
  exact hwts

end

/-! ## The elements of a port -/

/-- Element j of a port (R148). -/
def libEl (k : Core) (x : SCmd) (p j : Nat) : Nat := numAt k.ts ((sPort x p).base + 4 * j) 4

/-- Row r of a port. -/
def libRow (k : Core) (x : SCmd) (a : LibPar) (p r : Nat) : List Nat :=
  (List.range a.cols).map (fun j => libEl k x p (r * a.cols + j))

/-- Outside `len` bytes of a port the tile store is as it was. -/
def WithinPort (x : SCmd) (p len : Nat) (ts ts' : Map Byte) : Prop :=
  ∀ y, y < (sPort x p).base ∨ (sPort x p).base + len ≤ y → byteAt ts' y = byteAt ts y

section
variable (k : Core) (x : SCmd) (a : LibPar)

theorem length_libRow (p r : Nat) : (libRow k x a p r).length = a.cols := by
  rw [libRow, List.length_map, List.length_range]

theorem getD_portElems {p z cnt j : Nat} (hj : j < cnt) :
    (portElems k x p z cnt).getD j 0 = numAt k.ts ((sPort x p).base + z * j) z := by
  rw [portElems, List.getD_eq_getElem _ _ (by rwa [List.length_map, List.length_range]), List.getElem_map,
    List.getElem_range]

theorem rowOfList_portElems {p r : Nat} (hr : r < a.rows) :
    rowOfList (portElems k x p 4 (a.rows * a.cols)) a.cols r = libRow k x a p r := by
  have hend : r * a.cols + a.cols ≤ a.rows * a.cols :=
    (Nat.succ_mul r a.cols).symm.trans_le (Nat.mul_le_mul_right a.cols hr)
  refine List.ext_getElem ?_ fun j h1 h2 => ?_
  · rw [length_libRow, rowOfList, List.length_take, List.length_drop, portElems, List.length_map, List.length_range]
    omega
  · simp only [rowOfList, portElems, libRow, libEl, List.getElem_take, List.getElem_drop, List.getElem_map,
      List.getElem_range]

theorem withinPort_putBytes {p len : Nat} {ts : Map Byte} {bs : List Byte} (h : bs.length = len) :
    WithinPort x p len ts (putBytes ts (sPort x p).base bs) :=
  fun y hy => byteAt_putBytes_other _ _ _ _ (by rw [h]; exact hy)

/-! ## XPOSE and GATHER -/

theorem xpose_leaves (z : Nat) : WithinPort x 0 (a.rows * a.cols * z) k.ts (libTs k.ts x (xposeOut k x a z).writes) ∧
    ∀ r j, r < a.rows → j < a.cols →
      numAt (libTs k.ts x (xposeOut k x a z).writes) ((sPort x 0).base + (j * a.rows + r) * z) z =
        numAt k.ts ((sPort x 1).base + (r * a.cols + j) * z) z := by
  have hlen (j : Nat) : ((List.range a.rows).map
      (fun i => (portElems k x 1 z (a.rows * a.cols)).getD (i * a.cols + j) 0)).length = a.rows := by
    rw [List.length_map, List.length_range]
  refine ⟨withinPort_putBytes x ?_, fun r j hr hj => ?_⟩
  · rw [length_bytesOf, length_rows hlen, Nat.mul_comm, Nat.mul_comm a.cols]
  · have hget := (getElem?_rows hlen hj hr).trans (List.getElem?_map ..)
    rw [List.getElem?_range hr, Option.map_some, getD_portElems k x (lt_of_row hr hj)] at hget
    rw [Nat.mul_comm _ z, Nat.mul_comm _ z]
    exact (numAt_written hget).trans (Nat.mod_eq_of_lt (numAt_lt _ _ _))

/-- The row that an index names, or zeros. -/
def gatherRow (k : Core) (x : SCmd) (a : LibPar) (z r : Nat) : List Byte :=
  match idxOk a.n (libEl k x 2 r) with
  | some q => bytesAt k.ts ((sPort x 1).base + q * a.cols * z) (a.cols * z)
  | none => List.replicate (a.cols * z) 0

theorem length_gatherRow (z r : Nat) : (gatherRow k x a z r).length = a.cols * z := by
  unfold gatherRow
  split
  · exact length_bytesAt _ _ _
  · exact List.length_replicate

theorem gather_leaves (z : Nat) :
    WithinPort x 0 (a.rows * (a.cols * z)) k.ts (libTs k.ts x (gatherOut k x a z).writes) ∧
    ∀ r j, r < a.rows → j < a.cols * z →
      byteAt (libTs k.ts x (gatherOut k x a z).writes) ((sPort x 0).base + r * (a.cols * z) + j) =
        if libEl k x 2 r < 2 ^ 31 ∧ libEl k x 2 r < a.n then
          byteAt k.ts ((sPort x 1).base + libEl k x 2 r * (a.cols * z) + j) else 0 := by
  have hwrites : (gatherOut k x a z).writes = [(0, 0, (List.range a.rows).flatMap (gatherRow k x a z))] :=
    congrArg (fun bs => [(0, 0, bs)]) (List.flatMap_map _ _ _)
  rw [hwrites]
  refine ⟨withinPort_putBytes x (length_rows (length_gatherRow k x a z)), fun r j hr hj => ?_⟩
  rw [Nat.add_assoc]
  refine byteAt_written ((getElem?_rows (length_gatherRow k x a z) hr hj).trans ?_)
  unfold gatherRow idxOk
  split_ifs with h
  · dsimp only
    rw [List.getElem?_eq_getElem (by rwa [length_bytesAt]), getElem_bytesAt, Nat.mul_assoc]
  · exact (List.getElem?_eq_getElem (by rwa [List.length_replicate])).trans (congrArg some (List.getElem_replicate _))

/-! ## The operations that make each output row of its input row -/

theorem rowwise_leaves {f : List Nat → List Nat × Nat} (hf : ∀ l, (f l).1.length = l.length) :
    WithinPort x 0 (a.rows * a.cols * 4) k.ts (libTs k.ts x (rowwise k x a f).writes) ∧
    ∀ r j, r < a.rows → j < a.cols →
      numAt (libTs k.ts x (rowwise k x a f).writes) ((sPort x 0).base + 4 * (r * a.cols + j)) 4 =
        (f (libRow k x a 1 r)).1.getD j 0 % 2 ^ 32 := by
  have hlen : ∀ r ∈ List.range a.rows, (f (libRow k x a 1 r)).1.length = a.cols :=
    fun r _ => (hf _).trans (length_libRow k x a 1 r)
  have hwrites : (rowwise k x a f).writes =
      [(0, 0, bytesOf 4 ((List.range a.rows).flatMap (fun r => (f (libRow k x a 1 r)).1)))] := by
    unfold rowwise
    dsimp only
    rw [List.flatMap_map, List.flatMap_congr fun r hr => by rw [rowOfList_portElems k x a (List.mem_range.mp hr)]]
  rw [hwrites]
  refine ⟨withinPort_putBytes x ?_, fun r j hr hj => ?_⟩
  · rw [length_bytesOf, length_flatMap_const hlen, List.length_range, Nat.mul_comm]
  · have hget := getElem?_flatMap_const hlen (i := r) (by rwa [List.length_range]) hj
    have hin : j < (f (libRow k x a 1 r)).1.length := by rwa [hlen r (List.mem_range.mpr hr)]
    rw [List.getElem_range, List.getElem?_eq_getElem hin] at hget
    rw [List.getD_eq_getElem _ _ hin]
    exact numAt_written hget

theorem length_mapFR {α : Type} (f : α → FR) (l : List α) : (mapFR f l).1.length = l.length := by
  simp [mapFR]

theorem length_softmaxRow (l : List Nat) : (softmaxRow l).1.length = l.length := by
  simp [softmaxRow, length_mapFR]

theorem length_lnormRow (eps : Nat) (l : List Nat) : (lnormRow eps l).1.length = l.length := by
  simp [lnormRow, lnormParts, length_mapFR]

theorem insBy_perm {α : Type} (before : α → α → Bool) (e : α) (l : List α) : (insBy before e l).Perm (e :: l) := by
  induction l with
  | nil => exact .refl _
  | cons y ys ih =>
    unfold insBy
    split
    · exact (ih.cons y).trans (.swap e y ys)
    · exact .refl _

/-- An order rearranges the elements of a row. -/
theorem ranked_perm (before : Nat → Nat → Bool) (row : List Nat) : (ranked before row).Perm row.zipIdx := by
  have key (l : List (Nat × Nat)) : (sortBy (fun x y => before x.1 y.1) l).Perm l := by
    induction l with
    | nil => exact .refl _
    | cons e l ih => exact (insBy_perm _ e _).trans (ih.cons e)
  exact key row.zipIdx

theorem length_ranked (before : Nat → Nat → Bool) (row : List Nat) : (ranked before row).length = row.length :=
  (ranked_perm before row).length_eq.trans List.length_zipIdx

/-- SORT of a row. -/
def sortRow (f : Fmt) (row : List Nat) : List Nat × Nat := ((ranked (smaller f) row).map (fun e => canonNan f e.1), 0)

theorem length_sortRow (f : Fmt) (row : List Nat) : (sortRow f row).1.length = row.length := by
  rw [sortRow, List.length_map, length_ranked]

/-! ## SCATTER -/

/-- What row i of the input writes, where its index names a row of the output. -/
def scatterWrite (k : Core) (x : SCmd) (a : LibPar) (z i : Nat) : Option (Nat × Nat × List Byte) :=
  (idxOk a.n (libEl k x 2 i)).map (fun r =>
    (0, r * a.cols * z, bytesAt k.ts ((sPort x 1).base + i * a.cols * z) (a.cols * z)))

theorem scatterOut_writes (z : Nat) :
    (scatterOut k x a z).writes = (List.range a.rows).filterMap (scatterWrite k x a z) := by
  unfold scatterOut portElems
  dsimp only
  rw [zipIdx_map_range, List.filterMap_map]
  rfl

/-- An index names a row of the output. -/
abbrev Names (k : Core) (x : SCmd) (a : LibPar) (i q : Nat) : Prop :=
  libEl k x 2 i = q ∧ q < 2 ^ 31 ∧ q < a.n

theorem scatterWrite_of_names {z i q : Nat} (h : Names k x a i q) : scatterWrite k x a z i =
    some (0, q * (a.cols * z), bytesAt k.ts ((sPort x 1).base + i * (a.cols * z)) (a.cols * z)) := by
  obtain ⟨hq, h31, hn⟩ := h
  rw [scatterWrite, idxOk, hq, if_pos ⟨h31, hn⟩, Option.map_some, Nat.mul_assoc, Nat.mul_assoc]

theorem scatterWrite_of_not {z i : Nat} (h : ∀ q, ¬ Names k x a i q) : scatterWrite k x a z i = none := by
  rw [scatterWrite, idxOk, if_neg fun hi => h _ ⟨rfl, hi⟩]
  rfl

/-- What the first n rows have made of the output. -/
def scatterTs (k : Core) (x : SCmd) (a : LibPar) (z n : Nat) : Map Byte :=
  libTs k.ts x ((List.range n).filterMap (scatterWrite k x a z))

theorem scatterTs_succ_names {z n q : Nat} (h : Names k x a n q) : scatterTs k x a z (n + 1) =
    putBytes (scatterTs k x a z n) ((sPort x 0).base + q * (a.cols * z))
      (bytesAt k.ts ((sPort x 1).base + n * (a.cols * z)) (a.cols * z)) := by
  rw [scatterTs, List.range_succ, List.filterMap_append, libTs, List.foldl_append]
  simp only [List.filterMap_cons, scatterWrite_of_names k x a h, List.filterMap_nil]
  rfl

theorem scatterTs_succ_not {z n : Nat} (h : ∀ q, ¬ Names k x a n q) :
    scatterTs k x a z (n + 1) = scatterTs k x a z n := by
  rw [scatterTs, List.range_succ, List.filterMap_append, List.filterMap_cons, scatterWrite_of_not k x a h]
  simp only [List.filterMap_nil, List.append_nil]
  rfl

theorem scatterTs_within (z n : Nat) : WithinPort x 0 (a.n * (a.cols * z)) k.ts (scatterTs k x a z n) := by
  induction n with
  | zero => exact fun y _ => rfl
  | succ n ih =>
    intro y hy
    by_cases h : ∃ q, Names k x a n q
    · obtain ⟨q, hq⟩ := h
      have hend : q * (a.cols * z) + a.cols * z ≤ a.n * (a.cols * z) :=
        (Nat.succ_mul q _).symm.trans_le (Nat.mul_le_mul_right _ hq.2.2)
      rw [scatterTs_succ_names k x a hq, byteAt_putBytes_other _ _ _ _ (by rw [length_bytesAt]; omega)]
      exact ih y hy
    · rw [scatterTs_succ_not k x a fun q hq => h ⟨q, hq⟩]
      exact ih y hy

/-- Rows of one length that begin at different places do not meet. -/
theorem row_apart {q q' len j : Nat} (hj : j < len) (h : q ≠ q') :
    q * len + j < q' * len ∨ q' * len + len ≤ q * len + j := by
  rcases Nat.lt_or_gt_of_ne h with h | h
  · have := (Nat.succ_mul q len).symm.trans_le (Nat.mul_le_mul_right len h)
    omega
  · have := (Nat.succ_mul q' len).symm.trans_le (Nat.mul_le_mul_right len h)
    omega

/-- A row leaves every row that its index does not name. -/
theorem byteAt_scatterTs_succ {z n q j : Nat} (hj : j < a.cols * z) (hno : ¬ Names k x a n q) :
    byteAt (scatterTs k x a z (n + 1)) ((sPort x 0).base + q * (a.cols * z) + j) =
      byteAt (scatterTs k x a z n) ((sPort x 0).base + q * (a.cols * z) + j) := by
  by_cases h : ∃ q', Names k x a n q'
  · obtain ⟨q', hq'⟩ := h
    have := row_apart hj (show q ≠ q' from fun h => hno (h ▸ hq'))
    rw [scatterTs_succ_names k x a hq', byteAt_putBytes_other _ _ _ _ (by rw [length_bytesAt]; omega)]
  · rw [scatterTs_succ_not k x a fun q hq => h ⟨q, hq⟩]

theorem byteAt_scatterTs_named {z n i q j : Nat} (hj : j < a.cols * z) (hi : i < n) (hname : Names k x a i q)
    (hlast : ∀ i', i < i' → i' < n → ¬ Names k x a i' q) :
    byteAt (scatterTs k x a z n) ((sPort x 0).base + q * (a.cols * z) + j) =
      byteAt k.ts ((sPort x 1).base + i * (a.cols * z) + j) := by
  induction n with
  | zero => exact absurd hi (Nat.not_lt_zero i)
  | succ n ih =>
    rcases Nat.lt_succ_iff_lt_or_eq.mp hi with hlt | rfl
    · rw [byteAt_scatterTs_succ k x a hj (hlast n hlt (Nat.lt_succ_self n))]
      exact ih hlt fun i' h1 h2 => hlast i' h1 (Nat.lt_succ_of_lt h2)
    · rw [scatterTs_succ_names k x a hname]
      refine byteAt_written ?_
      rw [List.getElem?_eq_getElem (by rwa [length_bytesAt]), getElem_bytesAt]

theorem byteAt_scatterTs_other {z n q j : Nat} (hj : j < a.cols * z) (hno : ∀ i, i < n → ¬ Names k x a i q) :
    byteAt (scatterTs k x a z n) ((sPort x 0).base + q * (a.cols * z) + j) =
      byteAt k.ts ((sPort x 0).base + q * (a.cols * z) + j) := by
  induction n with
  | zero => rfl
  | succ n ih =>
    rw [byteAt_scatterTs_succ k x a hj (hno n (Nat.lt_succ_self n))]
    exact ih fun i hi => hno i (Nat.lt_succ_of_lt hi)

/-- Each row goes to the row that its index names, the last winning; other rows are as they were. -/
theorem scatter_leaves (z : Nat) :
    WithinPort x 0 (a.n * (a.cols * z)) k.ts (libTs k.ts x (scatterOut k x a z).writes) ∧
    ∀ q j, q < a.n → j < a.cols * z →
      (∀ i, i < a.rows → Names k x a i q → (∀ i', i < i' → i' < a.rows → ¬ Names k x a i' q) →
        byteAt (libTs k.ts x (scatterOut k x a z).writes) ((sPort x 0).base + q * (a.cols * z) + j) =
          byteAt k.ts ((sPort x 1).base + i * (a.cols * z) + j)) ∧
      ((∀ i, i < a.rows → ¬ Names k x a i q) →
        byteAt (libTs k.ts x (scatterOut k x a z).writes) ((sPort x 0).base + q * (a.cols * z) + j) =
          byteAt k.ts ((sPort x 0).base + q * (a.cols * z) + j)) := by
  rw [scatterOut_writes]
  exact ⟨scatterTs_within k x a z a.rows, fun q j hq hj =>
    ⟨fun i hi hname hlast => byteAt_scatterTs_named k x a hj hi hname hlast,
      fun hno => byteAt_scatterTs_other k x a hj hno⟩⟩

/-! ## TOPK -/

theorem mem_libRow_lt {p r v : Nat} (h : v ∈ libRow k x a p r) : v < 2 ^ 32 := by
  obtain ⟨j, -, rfl⟩ := List.mem_map.mp h
  exact numAt_lt _ _ 4

/-- The first elements of a row in the order of TOPK. -/
def topRow (k : Core) (x : SCmd) (a : LibPar) (f : Fmt) (r : Nat) : List (Nat × Nat) :=
  (ranked (larger f) (libRow k x a 2 r)).take a.n

theorem length_topRow (hn : a.n ≤ a.cols) (f : Fmt) (r : Nat) : (topRow k x a f r).length = a.n := by
  rw [topRow, List.length_take, length_ranked, length_libRow, Nat.min_eq_left hn]

theorem getElem?_topRow (hn : a.n ≤ a.cols) (f : Fmt) (r : Nat) {j : Nat} (hj : j < a.n) :
    (topRow k x a f r)[j]? = some ((ranked (larger f) (libRow k x a 2 r)).getD j (0, 0)) := by
  have hlen : j < (ranked (larger f) (libRow k x a 2 r)).length := by
    rw [length_ranked, length_libRow]
    omega
  rw [topRow, List.getElem?_take_of_lt hj, List.getElem?_eq_getElem hlen, List.getD_eq_getElem _ _ hlen]

/-- With no more elements asked than a row has, TOPK writes a column of each row's first elements. -/
def topBytes (k : Core) (x : SCmd) (a : LibPar) (f : Fmt) (col : Nat × Nat → Nat) : List Byte :=
  bytesOf 4 ((List.range a.rows).flatMap (fun r => (topRow k x a f r).map col))

theorem topkOut_writes (s : State) (c : Nat) (hk : s.core c = k) (hn : a.n ≤ a.cols) (f : Fmt) :
    (topkOut s c x a f).1.writes = [(0, 0, topBytes k x a f (·.1)), (1, 0, topBytes k x a f (·.2))] := by
  have hrows : (List.range a.rows).map (fun r => (ranked (larger f)
      (rowOfList (portElems k x 2 4 (a.rows * a.cols)) a.cols r)).take a.n) =
      (List.range a.rows).map (topRow k x a f) :=
    List.map_congr_left fun r hr => by rw [rowOfList_portElems k x a (List.mem_range.mp hr)]; rfl
  have hcol (col : Nat × Nat → Nat) : topBytes k x a f col =
      (List.range a.rows).flatMap (fun r => bytesOf 4 ((topRow k x a f r).map col)) := List.flatMap_assoc
  unfold topkOut
  dsimp only
  rw [hk, hrows, zipIdx_map_range, List.flatMap_map, List.flatMap_map, hcol, hcol]
  simp only [Nat.sub_eq_zero_of_le hn, Nat.mul_zero, List.take_zero, List.append_nil]

theorem topk_leaves (s : State) (c : Nat) (hk : s.core c = k) (hn : a.n ≤ a.cols) (f : Fmt) {r j : Nat}
    (hr : r < a.rows) (hj : j < a.n) :
    numAt (libTs k.ts x (topkOut s c x a f).1.writes) ((sPort x 1).base + 4 * (r * a.n + j)) 4 =
      ((ranked (larger f) (libRow k x a 2 r)).getD j (0, 0)).2 % 2 ^ 32 ∧
    ((sPort x 0).base + a.rows * a.n * 4 ≤ (sPort x 1).base ∨ (sPort x 1).base + a.rows * a.n * 4 ≤ (sPort x 0).base →
      numAt (libTs k.ts x (topkOut s c x a f).1.writes) ((sPort x 0).base + 4 * (r * a.n + j)) 4 =
        ((ranked (larger f) (libRow k x a 2 r)).getD j (0, 0)).1) := by
  have hlen (col : Nat × Nat → Nat) (r : Nat) : ((topRow k x a f r).map col).length = a.n := by
    rw [List.length_map, length_topRow k x a hn]
  have hget (col : Nat × Nat → Nat) :
      ((List.range a.rows).flatMap (fun r => (topRow k x a f r).map col))[r * a.n + j]? = some (col ((ranked (larger f) (libRow k x a 2 r)).getD j (0, 0))) := by
    rw [getElem?_rows (hlen col) hr hj, List.getElem?_map, getElem?_topRow k x a hn f r hj]
    rfl
  have hbytes (col : Nat × Nat → Nat) : (topBytes k x a f col).length = a.rows * a.n * 4 := by
    rw [topBytes, length_bytesOf, length_rows (hlen col), Nat.mul_comm]
  have hts : libTs k.ts x (topkOut s c x a f).1.writes = putBytes
      (putBytes k.ts (sPort x 0).base (topBytes k x a f (·.1))) (sPort x 1).base (topBytes k x a f (·.2)) := by
    rw [topkOut_writes k x a s c hk hn]
    rfl
  rw [hts]
  refine ⟨numAt_written (hget (·.2)), fun hapart => ?_⟩
  have hplace := lt_of_row hr hj
  rw [numAt_putBytes_other (by rw [hbytes]; omega)]
  refine (numAt_written (hget (·.1))).trans (Nat.mod_eq_of_lt ?_)
  have hmem := (ranked_perm (larger f) (libRow k x a 2 r)).mem_iff.mp
    (List.mem_of_mem_take (List.mem_of_getElem? (getElem?_topRow k x a hn f r hj)))
  exact mem_libRow_lt k x a (List.mem_of_getElem? (List.mem_zipIdx_iff_getElem?.mp hmem))

/-! ## SEGSUM -/

/-- What an element adds to the sums of the segments (R148). -/
def segStep (k : Core) (x : SCmd) (a : LibPar) (acc : List Nat × Nat) (j : Nat) : List Nat × Nat :=
  match idxOk a.n (libEl k x 2 j) with
  | some i => (lset acc.1 i (add32 (acc.1.getD i 0) (libEl k x 1 j)).bits,
      Nat.lor acc.2 (add32 (acc.1.getD i 0) (libEl k x 1 j)).flags)
  | none => acc

theorem segsumOut_writes : (segsumOut k x a).writes =
    [(0, 0, bytesOf 4 ((List.range (a.rows * a.cols)).foldl (segStep k x a) (List.replicate a.n 0, 0)).1)] := by
  unfold segsumOut portElems
  dsimp only
  rw [List.zip_map', List.foldl_map]
  rfl

theorem length_segStep (acc : List Nat × Nat) (j : Nat) : (segStep k x a acc j).1.length = acc.1.length := by
  unfold segStep
  split
  · exact List.length_set
  · rfl

theorem length_foldl_segStep (js : List Nat) (acc : List Nat × Nat) :
    (js.foldl (segStep k x a) acc).1.length = acc.1.length := by
  induction js generalizing acc with
  | nil => rfl
  | cons j js ih => exact (ih _).trans (length_segStep k x a acc j)

/-- An element is added to the sum of the segment that it names, and to no other. -/
theorem getD_segStep (acc : List Nat × Nat) (hlen : acc.1.length = a.n) (j : Nat) {i : Nat} (hi : i < a.n) :
    (segStep k x a acc j).1.getD i 0 =
      if Names k x a j i then (add32 (acc.1.getD i 0) (libEl k x 1 j)).bits else acc.1.getD i 0 := by
  by_cases hok : libEl k x 2 j < 2 ^ 31 ∧ libEl k x 2 j < a.n
  · have hacc : (segStep k x a acc j).1 = acc.1.set (libEl k x 2 j)
        (add32 (acc.1.getD (libEl k x 2 j) 0) (libEl k x 1 j)).bits := by
      rw [segStep, idxOk, if_pos hok]
      rfl
    rw [hacc, getD_set, hlen]
    by_cases hji : libEl k x 2 j = i
    · rw [if_pos ⟨hji, hi⟩, if_pos ⟨hji, hji ▸ hok⟩, hji]
    · rw [if_neg (fun h => hji h.1), if_neg (fun h => hji h.1)]
  · have hacc : segStep k x a acc j = acc := by
      rw [segStep, idxOk, if_neg hok]
    rw [hacc, if_neg (fun h : Names k x a j i => hok (by rw [h.1]; exact h.2))]

/-- The sums of n segments go on as one sum for each. -/
theorem getD_foldl_segStep (js : List Nat) (acc : List Nat × Nat) (hlen : acc.1.length = a.n) {i : Nat}
    (hi : i < a.n) : (js.foldl (segStep k x a) acc).1.getD i 0 = js.foldl
      (fun v j => if Names k x a j i then (add32 v (libEl k x 1 j)).bits else v) (acc.1.getD i 0) := by
  induction js generalizing acc with
  | nil => rfl
  | cons j js ih =>
    refine (ih (segStep k x a acc j) ((length_segStep k x a acc j).trans hlen)).trans ?_
    rw [getD_segStep k x a acc hlen j hi]
    rfl

theorem segsum_leaves :
    WithinPort x 0 (a.n * 4) k.ts (libTs k.ts x (segsumOut k x a).writes) ∧
    ∀ i, i < a.n → numAt (libTs k.ts x (segsumOut k x a).writes) ((sPort x 0).base + 4 * i) 4 =
      ((List.range (a.rows * a.cols)).foldl
        (fun acc j => if Names k x a j i then (add32 acc (libEl k x 1 j)).bits else acc) 0) % 2 ^ 32 := by
  have hlen : ((List.range (a.rows * a.cols)).foldl (segStep k x a) (List.replicate a.n 0, 0)).1.length = a.n :=
    (length_foldl_segStep k x a _ _).trans List.length_replicate
  rw [segsumOut_writes]
  refine ⟨withinPort_putBytes x (by rw [length_bytesOf, hlen, Nat.mul_comm]), fun i hi => ?_⟩
  have hsum := getD_foldl_segStep k x a (List.range (a.rows * a.cols)) (List.replicate a.n 0, 0)
    List.length_replicate hi
  rw [List.getD_eq_getElem _ _ (by rwa [hlen]), List.getD_replicate _ hi] at hsum
  rw [← hsum]
  exact numAt_written (List.getElem?_eq_getElem _)

end

/-! ## S_COMMAND_COMPLETION (R136, R143) -/

section
variable {s : State} {c n : Nat} {x : SCmd} (hcmd : ((s.core c).gangAt n).cmd = some x)
  (hlive : (s.core c).frozen = false) (hgoing : ((s.core c).gangAt n).stopped = false)
include hcmd hlive hgoing

theorem exec_sCommandCompletion : exec (.sCommandCompletion c n) s = .next
    (if x.lib.isSome then
      if ((s.core c).gangAt n).st = .running ∧ ((s.core c).gangAt n).pend = [] then runLib s c n x else s
    else if ((s.core c).gangAt n).st = .draining ∧ gangQuiet (s.core c) n = true then completeS s c n x else s) := by
  change execSCommandCompletion c n s = _
  unfold execSCommandCompletion
  dsimp only
  rw [hcmd]
  dsimp only
  rw [if_neg (by simp [hlive, hgoing])]
  simp only [Bool.and_eq_true, decide_eq_true_eq, List.isEmpty_iff]
  split <;> split <;> rfl

/-- A routine whose gang has drained completes. -/
theorem sCommandCompletion_routine (hlog : x.logAt = none) (hparent : x.parent = none) (hlib : x.lib = none)
    (hst : ((s.core c).gangAt n).st = .draining) (hquiet : gangQuiet (s.core c) n = true) :
    exec (.sCommandCompletion c n) s =
      .next ((released s c (ofGang n)).modCore c (fun k => (k.setGang n Gang.empty).dropAhead .seq)) := by
  rw [exec_sCommandCompletion hcmd hlive hgoing, hlib, if_neg (by decide), if_pos ⟨hst, hquiet⟩,
    completeS_eq s c x n hlog hparent]

end

/-- Settles O30: a command starts by the rule of its slot, and a library command leaves on its output ports what the
lemma of its operation says of the bytes that it writes. -/
theorem stitchCommands : Obligations.StitchCommands := by
  refine ⟨fun s c g o opc hi op i hc hg hrecord hmem => ?_,
    fun s c n x hcmd hlive hgoing hlog hparent =>
      ⟨sCommandCompletion_routine hcmd hlive hgoing hlog hparent, fun hlib hst hpend hpoison hold => ?_⟩⟩
  · obtain ⟨hi', hexec, hrec⟩ : ∃ hi', exec i s = issueOne (semStitch g op o hi' i) s ∧
        recording (s.core c) [semStitch g op o hi' i] = false := by
      simp only [List.mem_cons, Prod.mk.injEq, List.not_mem_nil, or_false] at hmem
      rcases hmem with ⟨rfl, rfl⟩ | ⟨rfl, rfl⟩ | ⟨rfl, rfl⟩ | ⟨rfl, rfl⟩ | ⟨rfl, rfl⟩ | ⟨rfl, rfl⟩ | ⟨rfl, rfl⟩ |
        ⟨rfl, rfl⟩ | ⟨rfl, rfl⟩ <;>
      exact ⟨_, rfl, notRec hrecord (fun _ h => nomatch h) (fun _ h => nomatch h)⟩
    exact ⟨fun hkind hlegal hvalid hds hmarks hnest n hn =>
        ⟨fun hk hlib => stitch_lib_starts hc hg hexec hlegal hvalid hds hmarks hnest hrec hn hk hlib,
          stitch_routine_starts hc hg hexec hlegal hvalid hds hmarks hnest hrec hn⟩,
      stitch_unbound hc hg hexec, stitch_waits hc hg hexec, stitch_illegal hc hexec,
      fun hkind hlegal hvalid hds hmarks hnest hfree hlib =>
        stitch_libparam hc hg hexec hlegal hvalid hds hmarks hnest hkind hfree hlib⟩
  · intro a f z base el row names
    obtain ⟨hmem, hfree, hts⟩ := runLib_leaves s c x n hlog hparent hpoison hold
    refine ⟨runLib s c n x, ?_, fun y => congrArg (byteAt · y) hmem, hfree, ?_⟩
    · rw [exec_sCommandCompletion hcmd hlive hgoing, if_pos hlib, if_pos ⟨hst, hpend⟩]
    · dsimp only
      rw [hts]
      refine ⟨fun hop => ?_, fun hop => ?_, fun hop => ?_, fun hop => ?_, fun hop => ?_, fun hop => ?_,
        fun hop hn r j hr hj => ?_, fun hop => ?_⟩
      all_goals
        unfold libOut
        rw [hop]
      · exact xpose_leaves (s.core c) x a z
      · exact gather_leaves (s.core c) x a z
      · exact scatter_leaves (s.core c) x a z
      · exact rowwise_leaves (s.core c) x a length_softmaxRow
      · exact rowwise_leaves (s.core c) x a (length_lnormRow a.n)
      · exact rowwise_leaves (s.core c) x a (length_sortRow f)
      · exact topk_leaves (s.core c) x a s c rfl hn f hr hj
      · exact segsum_leaves (s.core c) x a

end Sys2Proof.Machine
end

section
/-! What the instructions of lanes leave (R138, R152, R157 to R160): the lanes that one after the other write what is
their own, and the batch that then moves on, traps or stalls. -/
namespace Sys2Proof.Machine

/-! ## Lanes written one after the other -/

/-- Gang y is gang x but for fibres and registers, and the lane's own are the same. -/
structure SameLane (x y : Gang) (l : Nat) : Prop where
  rest : y = { x with fibres := y.fibres, regs := y.regs }
  fibre : y.fibre l = x.fibre l
  reg : ∀ r, r < 256 → y.reg l r = x.reg l r

/-- What writes in some lanes leave of a gang: fibres become what `fib` makes of them, the registers `ds` hold `v`, and
nothing else has changed. -/
structure LanesWritten (x y : Gang) (ls : List Nat) (fib : Nat → Fibre → Fibre) (ds : List Nat)
    (v : Nat → Nat → W32) : Prop where
  rest : y = { x with fibres := y.fibres, regs := y.regs }
  fibre_in : ∀ l ∈ ls, y.fibre l = fib l (x.fibre l)
  fibre_out : ∀ l, l ∉ ls → y.fibre l = x.fibre l
  reg_in : ∀ l ∈ ls, ∀ r ∈ ds, y.reg l r = v l r
  reg_out : ∀ l r, r < 256 → l ∉ ls ∨ r ∉ ds → y.reg l r = x.reg l r

section
variable {x y z : Gang} {l : Nat}

namespace SameLane

theorem refl : SameLane x x l := ⟨rfl, rfl, fun _ _ => rfl⟩

theorem trans (h : SameLane x y l) (h' : SameLane y z l) : SameLane x z l :=
  ⟨by rw [h'.rest, h.rest], h'.fibre.trans h.fibre, fun r hr => (h'.reg r hr).trans (h.reg r hr)⟩

theorem rg (h : SameLane x y l) (a : GReg) : rg y l a = x.reg l a.toNat := h.reg _ a.isLt

theorem rp (h : SameLane x y l) {a : GReg} (ha : a.toNat + 1 < 256) : rp y l a = x.pair l a.toNat := by
  rw [Machine.rp, Gang.pair, h.reg _ ha, h.reg _ a.isLt, Gang.pair]

theorem kAt (h : SameLane x y l) (n : PReg) : kAt y l n = kAt x l n := by rw [Machine.kAt, h.fibre, Machine.kAt]

theorem depth (h : SameLane x y l) : y.depth = x.depth := by rw [h.rest]

end SameLane

variable {ls : List Nat} {fib : Nat → Fibre → Fibre} {ds : List Nat} {v : Nat → Nat → W32}

namespace LanesWritten

theorem sameLane (h : LanesWritten x y ls fib ds v) (hl : l ∉ ls) : SameLane x y l :=
  ⟨h.rest, h.fibre_out l hl, fun r hr => h.reg_out l r hr (.inl hl)⟩

/-- A lane that writes nothing. -/
theorem keep : LanesWritten x x ls (fun _ f => f) [] v :=
  ⟨rfl, fun _ _ => rfl, fun _ _ => rfl, fun _ _ => nofun, fun _ _ _ _ => rfl⟩

theorem nil : LanesWritten x x [] fib ds v :=
  ⟨rfl, nofun, fun _ _ => rfl, nofun, fun _ _ _ _ => rfl⟩

theorem cons (hds : ∀ r ∈ ds, r < 256) (hl : l ∉ ls) (h : LanesWritten x y [l] fib ds v)
    (h' : LanesWritten y z ls fib ds v) : LanesWritten x z (l :: ls) fib ds v where
  rest := by rw [h'.rest, h.rest]
  fibre_in n hn := by
    rcases List.mem_cons.mp hn with rfl | hn
    · exact (h'.fibre_out n hl).trans (h.fibre_in n List.mem_cons_self)
    · rw [h'.fibre_in n hn, h.fibre_out n fun he => hl (List.mem_singleton.mp he ▸ hn)]
  fibre_out n hn := by
    rw [List.mem_cons, not_or] at hn
    rw [h'.fibre_out n hn.2, h.fibre_out n (by simpa using hn.1)]
  reg_in n hn r hr := by
    by_cases hn' : n ∈ ls
    · exact h'.reg_in n hn' r hr
    · rw [h'.reg_out n r (hds r hr) (.inl hn')]
      exact h.reg_in n (by simpa [hn'] using hn) r hr
  reg_out n r hr hn := by
    rw [List.mem_cons, not_or] at hn
    rw [h'.reg_out n r hr (hn.imp_left (·.2)), h.reg_out n r hr (hn.imp_left (by simpa using ·.1))]

/-- The lanes are written one after the other, each from what it held itself. -/
theorem foldl {put : Gang → Nat → Gang} (hds : ∀ r ∈ ds, r < 256) (hnodup : ls.Nodup)
    (hput : ∀ y, ∀ l ∈ ls, SameLane x y l → LanesWritten y (put y l) [l] fib ds v) :
    LanesWritten x (ls.foldl put x) ls fib ds v := by
  induction ls generalizing x with
  | nil => exact nil
  | cons l ls ih =>
    obtain ⟨hl, hnodup⟩ := List.nodup_cons.mp hnodup
    have hfirst := hput x l List.mem_cons_self .refl
    refine hfirst.cons hds hl (ih hnodup fun y n hn hsame => hput y n (List.mem_cons_of_mem l hn) (.trans ?_ hsame))
    exact hfirst.sameLane fun he => hl (List.mem_singleton.mp he ▸ hn)

/-! ### One lane -/

theorem setR (d : GReg) (w : W32) (hw : w = v l d.toNat) :
    LanesWritten x (setR x l d w) [l] (fun _ f => f) [d.toNat] v where
  rest := rfl
  fibre_in _ _ := rfl
  fibre_out _ _ := rfl
  reg_in n hn r hr := by
    rw [List.mem_singleton] at hn hr
    rw [hn, hr, Machine.setR, Gang.reg_setReg, hw]
  reg_out n r hr hn := Gang.reg_setReg_other x w d.isLt hr (by simpa using hn)

theorem setP {d : GReg} (hd : d.toNat + 1 < 256) (w : Nat → W64) :
    LanesWritten x (setP x l d (w l)) [l] (fun _ f => f) (pairOf d) (pairVal d w) where
  rest := rfl
  fibre_in _ _ := rfl
  fibre_out _ _ := rfl
  reg_in n hn r hr := by
    rw [List.mem_singleton] at hn
    simp only [pairOf, List.mem_cons, List.not_mem_nil, or_false] at hr
    rw [hn, Machine.setP, Gang.setPair, pairVal]
    rcases hr with rfl | rfl
    · rw [Gang.reg_setReg_other _ _ hd d.isLt (.inr (Nat.ne_of_lt (Nat.lt_succ_self _))), Gang.reg_setReg, if_pos rfl]
    · rw [Gang.reg_setReg, if_neg (Nat.succ_ne_self _)]
  reg_out n r hr hn := by
    simp only [pairOf, List.mem_cons, List.not_mem_nil, or_false, not_or] at hn
    rw [Machine.setP, Gang.setPair, Gang.reg_setReg_other _ _ hd hr (hn.imp_right (·.2)),
      Gang.reg_setReg_other _ _ d.isLt hr (hn.imp_right (·.1))]

/-- A lane that has written registers, and then changes what stands beside them. -/
theorem modFibre (h : LanesWritten x y [l] (fun _ b => b) ds v) (f : Fibre → Fibre) (hf : ∀ b, (f b).seeds = b.seeds)
    (hfib : ∀ b, f b = fib l b) : LanesWritten x (modFibre y l f) [l] fib ds v where
  rest := by rw [Machine.modFibre, Gang.setFibre, h.rest]
  fibre_in n hn := by
    rw [List.mem_singleton.mp hn, Machine.modFibre, Gang.fibre_setFibre, h.fibre_in l List.mem_cons_self, hfib]
  fibre_out n hn := (Gang.fibre_setFibre_other y _ (by simpa using hn)).trans (h.fibre_out n hn)
  reg_in n hn r hr := (modFibres_reg (ls := [l]) hf n r).trans (h.reg_in n hn r hr)
  reg_out n r hr hn := (modFibres_reg (ls := [l]) hf n r).trans (h.reg_out n r hr hn)

end LanesWritten
end

/-! ## The batch at issue -/

section
variable {s : State} {c g pc : Nat} {i : Instr} (h : GangIssues s c g pc)

theorem batchOf_act_subset {l : Nat} (hl : l ∈ (batchOf s c g pc i).act) : l ∈ (batchOf s c g pc i).lanes :=
  List.mem_of_mem_filter hl

theorem batchOf_act_nodup : (batchOf s c g pc i).act.Nodup := (batchLanes_nodup _ _).filter _

theorem batchOf_ready {l : Nat} (hl : l ∈ (batchOf s c g pc i).lanes) :
    (((s.core c).gangAt g).fibre l).st = .ready := (mem_batchLanes.mp hl).2.1

/-! ### Fibres that move on (R151) -/

theorem advance_rest (b : Batch) (x : Gang) : b.advance x = { x with fibres := (b.advance x).fibres } :=
  modFibres_eq x b.lanes _

theorem advance_reg (b : Batch) (x : Gang) (l r : Nat) : (b.advance x).reg l r = x.reg l r :=
  modFibres_reg (f := onward b.pc) (fun _ => rfl) l r

theorem advance_fibre (s : State) (c g pc : Nat) (i : Instr) (x : Gang) (l : Nat) :
    ((batchOf s c g pc i).advance x).fibre l =
      if l ∈ (batchOf s c g pc i).lanes then onward pc (x.fibre l) else x.fibre l := by
  split
  · next hl => exact modFibres_fibre_in (batchLanes_nodup _ _) hl
  · next hl => exact modFibres_fibre_out hl

/-! ### What the issue comes to (R138, R152, R157) -/

theorem RegsReady.pair_lt (hr : RegsReady s c g pc i) {a : GReg} (ha : (a, true) ∈ laneRegs i) : a.toNat + 1 < 256 :=
  (hr.2.1 _ ha).trans_le hr.1

theorem RegsReady.rp (hr : RegsReady s c g pc i) {y : Gang} {l : Nat} (hl : SameLane ((s.core c).gangAt g) y l)
    {a : GReg} (ha : (a, true) ∈ laneRegs i) : rp y l a = ((s.core c).gangAt g).pair l a.toNat :=
  hl.rp (hr.pair_lt ha)

theorem exec_of_issueLane {f : Batch → State → LaneRes} {P : State → Prop} (hexec : exec i s = .next (issueLane i f s))
    (hissue : ∃ t, issueLane i f s = t ∧ P t) : ∃ t, exec i s = .next t ∧ P t :=
  hissue.imp fun _ ht => ht.imp_left fun he => hexec.trans (congrArg _ he)

include h

/-- The batch of the gang comes to the checks of its registers, then to the instruction's own effect. -/
theorem issueLane_checks (f : Batch → State → LaneRes) : issueLane i f s =
    if ∃ u ∈ laneRegs i, ((s.core c).gangAt g).bound ≤ u.top then
      laneTrapped s c g pc i ((batchOf s c g pc i).lanes.headD 0) .regbound
    else if ∃ l ∈ (batchOf s c g pc i).act, ∃ u ∈ laneRegs i, ∃ r ∈ u.nums, regKey l r ∈ ((s.core c).gangAt g).pend then
      stallBatch s (batchOf s c g pc i)
    else match f (batchOf s c g pc i) s with
      | .go s1 => countBatch s1 (batchOf s c g pc i)
      | .stall s1 => stallBatch s1 (batchOf s c g pc i)
      | .stop _ st => takeStop s c st := by
  obtain ⟨hfocus, hcan, hpick⟩ := h
  simp only [issueLane, hfocus, hcan, hpick, Bool.not_true, Bool.false_eq_true, if_false, List.any_eq_true,
    decide_eq_true_eq, List.contains_eq_mem]
  rfl

theorem issueLane_regbound (hb : ∃ u ∈ laneRegs i, ((s.core c).gangAt g).bound ≤ u.top) (f : Batch → State → LaneRes) :
    issueLane i f s = laneTrapped s c g pc i ((batchOf s c g pc i).lanes.headD 0) .regbound := by
  rw [issueLane_checks h, if_pos hb]

theorem issueLane_pending (hb : ∀ u ∈ laneRegs i, u.top < ((s.core c).gangAt g).bound)
    (hpend : ∃ l ∈ (batchOf s c g pc i).act, ∃ u ∈ laneRegs i, ∃ r ∈ u.nums,
      regKey l r ∈ ((s.core c).gangAt g).pend) (f : Batch → State → LaneRes) :
    issueLane i f s = stallBatch s (batchOf s c g pc i) := by
  rw [issueLane_checks h, if_neg fun ⟨u, hu, hle⟩ => Nat.not_le.mpr (hb u hu) hle, if_pos hpend]

/-- An instruction that names no register comes to its own effect, whatever the bound. -/
theorem issueLane_noRegs (hi : laneRegs i = []) (f : Batch → State → LaneRes) :
    issueLane i f s = match f (batchOf s c g pc i) s with
      | .go s1 => countBatch s1 (batchOf s c g pc i)
      | .stall s1 => stallBatch s1 (batchOf s c g pc i)
      | .stop _ st => takeStop s c st := by
  rw [issueLane_checks h, if_neg (by simp [hi]), if_neg (by simp [hi])]

/-- Such an instruction that traps does so whatever the bound. -/
theorem issueLane_noRegs_traps (hi : laneRegs i = []) {f : Batch → State → LaneRes} {l : Nat} {u : Trap}
    (hf : f (batchOf s c g pc i) s = .stop l (.trap u)) : issueLane i f s = raiseTrap s c u := by
  rw [issueLane_noRegs h hi, hf]
  rfl

theorem issueLane_traps (hr : RegsReady s c g pc i) {f : Batch → State → LaneRes} {l : Nat} {cause : Cause}
    (hf : f (batchOf s c g pc i) s = (batchOf s c g pc i).trap s i l cause) :
    issueLane i f s = laneTrapped s c g pc i l cause := by
  rw [issueLane_ready h hr, hf]
  rfl

/-- An instruction that names no register moves its batch on. -/
theorem exec_advances (hi : laneRegs i = []) {f : Batch → State → LaneRes} (hexec : exec i s = .next (issueLane i f s))
    (hf : f (batchOf s c g pc i) s = .go (modGang s c g (batchOf s c g pc i).advance)) :
    ∃ t, exec i s = .next t ∧ LaneEffect s t c g pc i id (fun _ => onward pc) [] (fun _ _ => 0) := by
  have hnodup := batchLanes_nodup ((s.core c).gangAt g) pc
  have hadv (l : Nat) := advance_fibre s c g pc i ((s.core c).gangAt g) l
  have hcount := countBatch_go (s := s) (b := batchOf s c g pc i) (k := s.core c) (x := (s.core c).gangAt g)
    (z := (batchOf s c g pc i).advance ((s.core c).gangAt g)) hnodup (batchLanes_of_pick h.2.2)
    (fun l hl => (mem_batchLanes.mp hl).1) (fun l hl => by rw [hadv, if_pos hl]; exact batchOf_ready hl) rfl
    (by rw [advance_rest]; exact ⟨rfl, rfl, rfl⟩)
  have hissue : issueLane i f s = countBatch (modGang s c g (batchOf s c g pc i).advance) (batchOf s c g pc i) := by
    rw [issueLane_noRegs h hi, hf]
  refine ⟨_, hexec.trans (congrArg _ hissue), _, hcount, ?_, fun l hl => ?_, fun l hl => ?_,
    fun _ _ => nofun, fun l r _ _ => ?_⟩
  · rw [modFibres_eq, advance_rest]
    rfl
  · have hold := hadv l
    rw [if_pos hl] at hold
    exact (modFibres_fibre_in hnodup hl).trans (by rw [hold])
  · have hold := hadv l
    rw [if_neg hl] at hold
    exact (modFibres_fibre_out hl).trans hold
  · exact (modFibres_reg (f := fun f => { f with stamp := ((s.core c).gangAt g).cycle }) (fun _ => rfl) l r).trans
      (advance_reg _ _ l r)

variable (hr : RegsReady s c g pc i) {f : Batch → State → LaneRes} {F : Core → Core}
  {fib : Nat → Fibre → Fibre} {ds : List Nat} {v : Nat → Nat → W32} {z : Gang}
  (hexec : exec i s = .next (issueLane i f s))
include hr hexec

/-- The active lanes are written, and then the lanes of the batch move on. -/
theorem exec_writes (hF : (F (s.core c)).halt = (s.core c).halt)
    (hf : f (batchOf s c g pc i) s = .go (s.setCore c ((F (s.core c)).setGang g ((batchOf s c g pc i).advance z))))
    (hw : LanesWritten ((s.core c).gangAt g) z (batchOf s c g pc i).act fib ds v)
    (hst : ∀ l b, (fib l b).st = b.st) :
    ∃ t, exec i s = .next t ∧ LaneEffect s t c g pc i F
      (fun l b => onward pc (if l ∈ (batchOf s c g pc i).act then fib l b else b)) ds v := by
  have hfib (l : Nat) : z.fibre l = if l ∈ (batchOf s c g pc i).act then fib l (((s.core c).gangAt g).fibre l)
      else ((s.core c).gangAt g).fibre l := by
    split
    · next hl => exact hw.fibre_in l hl
    · next hl => exact hw.fibre_out l hl
  have hadv (l : Nat) := advance_fibre s c g pc i z l
  refine exec_of_issueLane hexec (issueLane_effect h hr hf hF ?_ (fun l => ?_) (fun l hl => ?_) (fun l hl r hd => ?_)
    fun l r hlt hout => ?_)
  · rw [advance_rest, hw.rest]
  · rw [hadv, hfib]
    split
    · rfl
    · next hl => rw [if_neg fun hact => hl (batchOf_act_subset hact)]
  · rw [hadv, if_pos hl, ← batchOf_ready hl, hfib]
    split
    · exact hst l _
    · rfl
  · exact (advance_reg _ z l r).trans (hw.reg_in l hl r hd)
  · exact (advance_reg _ z l r).trans (hw.reg_out l r hlt hout)

/-- The lanes of the batch move on, and then the active ones are written. -/
theorem exec_moves (hf : f (batchOf s c g pc i) s = .go (s.setCore c ((s.core c).setGang g z)))
    (hw : LanesWritten ((batchOf s c g pc i).advance ((s.core c).gangAt g)) z (batchOf s c g pc i).act fib ds v)
    (hst : ∀ l b, (fib l b).st = b.st) :
    ∃ t, exec i s = .next t ∧ LaneEffect s t c g pc i id
      (fun l b => if l ∈ (batchOf s c g pc i).act then fib l (onward pc b) else onward pc b) ds v := by
  have hadv (l : Nat) := advance_fibre s c g pc i ((s.core c).gangAt g) l
  have hfib {l : Nat} (hl : l ∈ (batchOf s c g pc i).lanes) : z.fibre l =
      if l ∈ (batchOf s c g pc i).act then fib l (onward pc (((s.core c).gangAt g).fibre l))
      else onward pc (((s.core c).gangAt g).fibre l) := by
    split
    · next hact => rw [hw.fibre_in l hact, hadv, if_pos hl]
    · next hact => rw [hw.fibre_out l hact, hadv, if_pos hl]
  refine exec_of_issueLane hexec (issueLane_effect (F := id) h hr hf rfl ?_ (fun l => ?_) (fun l hl => ?_) hw.reg_in
    fun l r hlt hout => ?_)
  · rw [hw.rest, advance_rest]
  · split
    · next hl => exact hfib hl
    · next hl => rw [hw.fibre_out l fun hact => hl (batchOf_act_subset hact), hadv, if_neg hl]
  · rw [hfib hl, ← batchOf_ready hl]
    split
    · exact hst l _
    · rfl
  · exact (hw.reg_out l r hlt hout).trans (advance_reg _ _ l r)

end
end Sys2Proof.Machine
end

section
/-! Instructions in which each active lane writes what is its own (R158, R160), and those of them that compute on
integers and predicates (R164 to R173). -/
namespace Sys2Proof.Machine

section
variable {s : State} {c g pc : Nat} {i : Instr} {f : Batch → State → LaneRes} {F : Core → Core}
  {put : Gang → Nat → Gang} {d : GReg} (h : GangIssues s c g pc) (hr : RegsReady s c g pc i)
  (hexec : exec i s = .next (issueLane i f s)) (hF : (F (s.core c)).halt = (s.core c).halt)
  (hf : f (batchOf s c g pc i) s = .go (s.setCore c ((F (s.core c)).setGang g
    ((batchOf s c g pc i).advance ((batchOf s c g pc i).act.foldl put ((s.core c).gangAt g))))))
include h hr hexec hF hf

theorem lanes_write {fib : Nat → Fibre → Fibre} {ds : List Nat} {v : Nat → Nat → W32} (hds : ∀ r ∈ ds, r < 256)
    (hst : ∀ l b, (fib l b).st = b.st)
    (hput : ∀ y l, SameLane ((s.core c).gangAt g) y l → LanesWritten y (put y l) [l] fib ds v) :
    ∃ t, exec i s = .next t ∧ LaneEffect s t c g pc i F
      (fun l b => onward pc (if l ∈ (batchOf s c g pc i).act then fib l b else b)) ds v :=
  exec_writes h hr hexec hF hf (.foldl hds batchOf_act_nodup fun y l _ hsame => hput y l hsame) hst

theorem lanes_keep (hput : ∀ y l, put y l = y) :
    ∃ t, exec i s = .next t ∧ LaneEffect s t c g pc i F (fun _ => onward pc) [] (fun _ _ => 0) := by
  have key := lanes_write h hr hexec hF hf (fib := fun _ b => b) (ds := []) (v := fun _ _ => 0) nofun
    (fun _ _ => rfl) fun y l _ => by rw [hput]; exact .keep
  simpa only [ite_self] using key

/-- Each active lane changes its predicate word. -/
theorem lanes_modFibre {fib : Nat → Fibre → Fibre} (hst : ∀ l b, (fib l b).st = b.st)
    (hseeds : ∀ l b, (fib l b).seeds = b.seeds)
    (hput : ∀ y l, SameLane ((s.core c).gangAt g) y l → put y l = modFibre y l (fib l)) :
    ∃ t, exec i s = .next t ∧ LaneEffect s t c g pc i F
      (fun l b => onward pc (if l ∈ (batchOf s c g pc i).act then fib l b else b)) [] (fun _ _ => 0) :=
  lanes_write h hr hexec hF hf nofun hst fun y l hsame => by
    rw [hput y l hsame]
    exact .modFibre .keep _ (hseeds l) fun _ => rfl

end

section
variable {s : State} {c g pc : Nat} {i : Instr} {f : Batch → State → LaneRes} {F : Core → Core} {d : GReg}
  (h : GangIssues s c g pc) (hr : RegsReady s c g pc i) (hexec : exec i s = .next (issueLane i f s))
  (hF : (F (s.core c)).halt = (s.core c).halt)
include h hr hexec hF

/-- Each active lane writes a register. -/
theorem lanes_setR {w : Gang → Nat → W32} {v : Nat → W32}
    (hf : f (batchOf s c g pc i) s = .go (s.setCore c ((F (s.core c)).setGang g ((batchOf s c g pc i).advance
      ((batchOf s c g pc i).act.foldl (fun y l => setR y l d (w y l)) ((s.core c).gangAt g))))))
    (hw : ∀ y l, SameLane ((s.core c).gangAt g) y l → w y l = v l) :
    ∃ t, exec i s = .next t ∧ LaneEffect s t c g pc i F (fun _ => onward pc) [d.toNat] (fun l _ => v l) := by
  have key := lanes_write h hr hexec hF hf (fib := fun _ b => b) (ds := [d.toNat]) (v := fun l _ => v l)
    (by simpa using d.isLt) (fun _ _ => rfl) fun y l hsame => .setR d _ (hw y l hsame)
  simpa only [ite_self] using key

/-- Each active lane writes a pair. -/
theorem lanes_setP {w : Gang → Nat → W64} {v : Nat → W64}
    (hf : f (batchOf s c g pc i) s = .go (s.setCore c ((F (s.core c)).setGang g ((batchOf s c g pc i).advance
      ((batchOf s c g pc i).act.foldl (fun y l => setP y l d (w y l)) ((s.core c).gangAt g))))))
    (hd : (d, true) ∈ laneRegs i) (hw : ∀ y l, SameLane ((s.core c).gangAt g) y l → w y l = v l) :
    ∃ t, exec i s = .next t ∧ LaneEffect s t c g pc i F (fun _ => onward pc) (pairOf d) (pairVal d v) := by
  have hlt := hr.pair_lt hd
  have key := lanes_write h hr hexec hF hf (fib := fun _ b => b) (ds := pairOf d) (v := pairVal d v)
    (by simp [pairOf, hlt, d.isLt]) (fun _ _ => rfl) fun y l hsame => by rw [hw y l hsame]; exact .setP hlt v
  simpa only [ite_self] using key

/-- Each active lane writes a predicate (R172). -/
theorem lanes_setK {n : Nat} {w : Gang → Nat → Bool} {v : Nat → Bool}
    (hf : f (batchOf s c g pc i) s = .go (s.setCore c ((F (s.core c)).setGang g ((batchOf s c g pc i).advance
      ((batchOf s c g pc i).act.foldl (fun y l => setK y l n (w y l)) ((s.core c).gangAt g))))))
    (hw : ∀ y l, SameLane ((s.core c).gangAt g) y l → w y l = v l) :
    ∃ t, exec i s = .next t ∧ LaneEffect s t c g pc i F
      (fun l b => onward pc (if l ∈ (batchOf s c g pc i).act then withK n (v l) b else b)) [] (fun _ _ => 0) :=
  lanes_modFibre h hr hexec hF hf (fib := fun l => withK n (v l)) (fun _ _ => rfl) (fun _ _ => rfl) fun y l hsame => by
    rw [hw y l hsame]
    rfl

end

/-! ## Predicates (R158, R173) -/

theorem kAt_eq_decide (x : Gang) (l : Nat) (n : PReg) :
    kAt x l n = decide (n = 0 ∨ (x.fibre l).k.getLsbD n.toNat = true) := by
  rw [kAt, Bool.decide_or, Bool.decide_eq_true, beq_eq_decide]

/-! ## Core and gang beside each other -/

@[simp] theorem Core.orFlags_halt (k : Core) (fl : Nat) : (k.orFlags fl).halt = k.halt := by
  unfold Core.orFlags
  split <;> rfl

@[simp] theorem Core.gangAt_orFlags (k : Core) (fl g : Nat) : (k.orFlags fl).gangAt g = k.gangAt g := by
  unfold Core.orFlags
  split <;> rfl

theorem modGang_modCore (s : State) (c g : Nat) (F : Core → Core) (fn : Gang → Gang) :
    modGang (s.modCore c F) c g fn = s.setCore c ((F (s.core c)).setGang g (fn ((F (s.core c)).gangAt g))) := by
  rw [modGang, State.modCore_modCore, State.modCore_eq]

/-! ## ISAT (R168) -/

/-- What ISAT makes of its core: a clamp in an active lane sets FSTAT.SAT. -/
def satFlag (clamps : Bool) (k : Core) : Core := if clamps then k.orFlags fSAT else k

theorem satFlag_halt (v : Bool) (k : Core) : (satFlag v k).halt = k.halt := by
  cases v
  · rfl
  · exact k.orFlags_halt fSAT

theorem gangAt_satFlag (v : Bool) (k : Core) (g : Nat) : (satFlag v k).gangAt g = k.gangAt g := by
  cases v
  · rfl
  · exact k.gangAt_orFlags fSAT g

/-! ## Instructions with a check, a flag or a choice of their own -/

section
variable {s : State} {c g pc : Nat} {p : Pred} {d a b : GReg} (h : GangIssues s c g pc)
include h

section
variable {fn : IdivFn} (hr : RegsReady s c g pc (.idiv p fn d a b))
include hr

theorem idiv_divides (hb : ∀ l ∈ (batchOf s c g pc (.idiv p fn d a b)).act, ((s.core c).gangAt g).reg l b.toNat ≠ 0) :
    ∃ t, exec (.idiv p fn d a b) s = .next t ∧ LaneEffect s t c g pc (.idiv p fn d a b) id (fun _ => onward pc)
      [d.toNat] (fun l _ => idivRes fn (((s.core c).gangAt g).reg l a.toNat) (((s.core c).gangAt g).reg l b.toNat)) := by
  have hnone : (batchOf s c g pc (.idiv p fn d a b)).act.find?
      (fun l => rg ((batchOf s c g pc (.idiv p fn d a b)).gang s) l b == 0) = none :=
    List.find?_eq_none.mpr fun l hl hzero => hb l hl (eq_of_beq hzero)
  refine lanes_setR h hr (rfl : _ = execIdiv p fn d a b s) rfl ?_ fun _ _ hl => congrArg₂ (idivRes fn) (hl.rg a) (hl.rg b)
  simp only [hnone]
  rfl

/-- R166: the lowest active lane with a zero divisor traps. -/
theorem idiv_traps {l : Nat} (hl : (batchOf s c g pc (.idiv p fn d a b)).act.find?
      (fun l => rg ((batchOf s c g pc (.idiv p fn d a b)).gang s) l b == 0) = some l) :
    exec (.idiv p fn d a b) s = .next (laneTrapped s c g pc (.idiv p fn d a b) l .divz) :=
  congrArg Host.Outcome.next (issueLane_traps h hr (by simp only [hl]))

end

theorem isat_clamps {fn : IsatFn} (hr : RegsReady s c g pc (.isat p fn d a b)) :
    let act := (batchOf s c g pc (.isat p fn d a b)).act
    let v := fun l => isatRes fn (((s.core c).gangAt g).reg l a.toNat) (((s.core c).gangAt g).reg l b.toNat)
    ∃ t, exec (.isat p fn d a b) s = .next t ∧ LaneEffect s t c g pc (.isat p fn d a b)
      (satFlag (act.any fun l => (v l).2)) (fun _ => onward pc) [d.toNat] (fun l _ => (v l).1) := by
  intro act v
  refine lanes_setR h hr (rfl : _ = execIsat p fn d a b s) (satFlag_halt _ _) ?_ fun _ _ _ => rfl
  simp only [modGang_modCore, List.any_map, List.foldl_map]
  exact congrArg (fun x => LaneRes.go (s.setCore c ((satFlag (act.any fun l => (v l).2) (s.core c)).setGang g
    (Batch.advance _ (act.foldl (fun y l => setR y l d (v l).1) x))))) (gangAt_satFlag _ (s.core c) g)

end

theorem imadRes_mad (a b c : W32) : (imadRes .mad a b (c.setWidth 64)).setWidth 32 = a * b + c := by
  simp [imadRes]

/-- Settles O31: each form writes its register, pair or predicate lane by lane, from what the lane itself held. -/
theorem laneInteger : Obligations.LaneInteger := by
  intro s c g pc p kd ka kb d a b e imm len pos h k x act r q sx one two pred pr
  refine ⟨?nop, ?movi, ?movhi, ?mov, ?movd, ?sel, ?seld, ?lane, ?gang, ?depth, ?live, ?core, ?iop, ?iopi, ?idiv, ?mad,
    ?madws, ?madwu, ?isat, ?ibit, ?bfx, ?bfi, ?iop64, ?icmp, ?icmpi, ?icmp64, ?plop, ?p2g, ?g2p⟩
  case nop => exact fun hr => lanes_keep h hr (rfl : _ = execLnop p s) rfl rfl fun _ _ => rfl
  case movi => exact fun hr => lanes_setR h hr (rfl : _ = execMovi p d imm s) rfl rfl fun _ _ _ => rfl
  case movhi =>
    exact fun hr => lanes_setR h hr (rfl : _ = execMovhi p d a imm s) rfl rfl fun y l hl => by rw [hl.rg]
  case mov => exact fun hr => lanes_setR h hr (rfl : _ = execMov p d a s) rfl rfl fun _ _ hl => hl.rg a
  case movd =>
    exact fun hr => lanes_setP h hr (rfl : _ = execMovd p d a s) rfl rfl (.head _) fun y l hl =>
      hr.rp hl (.tail _ (.head _))
  case sel =>
    exact fun hr => lanes_setR h hr (rfl : _ = laneEach (.sel p false kd d a b) (fun _ x l =>
      setR x l d (rg x l (if kAt x l kd then a else b))) s) rfl rfl fun y l hl => by
        rw [hl.kAt, apply_ite (rg y l), hl.rg, hl.rg]
  case seld =>
    exact fun hr => lanes_setP h hr (rfl : _ = laneEach (.sel p true kd d a b) (fun _ x l =>
      setP x l d (rp x l (if kAt x l kd then a else b))) s) rfl rfl (.head _) fun y l hl => by
        rw [hl.kAt, apply_ite (rp y l), hr.rp hl (.tail _ (.head _)), hr.rp hl (.tail _ (.tail _ (.head _)))]
  case lane => exact fun hr => lanes_setR h hr (rfl : _ = execLid p .lane d s) rfl rfl fun _ _ _ => rfl
  case gang => exact fun hr => lanes_setR h hr (rfl : _ = execLid p .gang d s) rfl rfl fun _ _ _ => rfl
  case depth =>
    exact fun hr => lanes_setR h hr (rfl : _ = execLid p .depth d s) rfl rfl fun _ _ hl => congrArg w32 hl.depth
  case live => exact fun hr => lanes_setR h hr (rfl : _ = execLid p .live d s) rfl rfl fun _ _ _ => rfl
  case core => exact fun hr => lanes_setR h hr (rfl : _ = execLid p .core d s) rfl rfl fun _ _ _ => rfl
  case iop =>
    exact fun fn hr => lanes_setR h hr (rfl : _ = execIop p fn d a b s) rfl rfl fun y l hl => by rw [hl.rg, hl.rg]
  case iopi =>
    exact fun fn hr => lanes_setR h hr (rfl : _ = execIopi p fn d a imm s) rfl rfl fun y l hl => by rw [hl.rg]; rfl
  case idiv => exact fun fn => ⟨fun hb hr => idiv_divides h hr hb, fun l hl hr => idiv_traps h hr hl⟩
  case mad =>
    exact fun hr => lanes_setR h hr (rfl : _ = laneEach (.imad p .mad d a b e) (fun _ x l => setR x l d
      ((imadRes .mad (rg x l a) (rg x l b) ((rg x l e).setWidth 64)).setWidth 32)) s) rfl rfl fun y l hl => by
        rw [imadRes_mad, hl.rg, hl.rg, hl.rg]
  case madws =>
    exact fun hr => lanes_setP h hr (rfl : _ = laneEach (.imad p .madws d a b e) (fun _ x l => setP x l d
      (imadRes .madws (rg x l a) (rg x l b) (rp x l e))) s) rfl rfl (.head _) fun y l hl => by
        rw [hl.rg, hl.rg, hr.rp hl (.tail _ (.tail _ (.tail _ (.head _))))]
        rfl
  case madwu =>
    exact fun hr => lanes_setP h hr (rfl : _ = laneEach (.imad p .madwu d a b e) (fun _ x l => setP x l d
      (imadRes .madwu (rg x l a) (rg x l b) (rp x l e))) s) rfl rfl (.head _) fun y l hl => by
        rw [hl.rg, hl.rg, hr.rp hl (.tail _ (.tail _ (.tail _ (.head _))))]
        rfl
  case isat => exact fun fn hr => isat_clamps h hr
  case ibit =>
    exact fun fn hr => lanes_setR h hr (rfl : _ = execIbit p fn d a s) rfl rfl fun y l hl => by rw [hl.rg]
  case bfx =>
    exact fun sg hr => lanes_setR h hr (rfl : _ = execBfx p sg d a len pos s) rfl rfl fun y l hl => by rw [hl.rg]
  case bfi =>
    exact fun hr => lanes_setR h hr (rfl : _ = execBfi p d a b len pos s) rfl rfl fun y l hl => by rw [hl.rg, hl.rg]
  case iop64 =>
    exact fun fn hr => lanes_setP h hr (rfl : _ = execIop64 p fn d a b s) rfl rfl (.head _) fun y l hl => by
      rw [hr.rp hl (.tail _ (.head _)), hr.rp hl (.tail _ (.tail _ (.head _)))]
  case icmp =>
    exact fun cc hr => lanes_setK h hr (rfl : _ = execIcmp p cc kd a b s) rfl rfl fun y l hl => by rw [hl.rg, hl.rg]
  case icmpi =>
    exact fun cc hr => lanes_setK h hr (rfl : _ = execIcmpi p cc kd a imm s) rfl rfl fun y l hl => by rw [hl.rg]; rfl
  case icmp64 =>
    exact fun cc hr => lanes_setK h hr (rfl : _ = execIcmp64 p cc kd a b s) rfl rfl fun y l hl => by
      rw [hr.rp hl (.head _), hr.rp hl (.tail _ (.head _))]
  case plop =>
    refine fun fn v hr => lanes_setK h hr (rfl : _ = execPlop p fn kd ka kb v s) rfl rfl fun y l hl => ?_
    rw [hl.kAt, hl.kAt, kAt_eq_decide, kAt_eq_decide]
    change plopRes fn (decide (pr l ka)) (decide (pr l kb)) v = _
    cases fn
    case and => exact (Bool.decide_and ..).symm
    case or => exact (Bool.decide_or ..).symm
    case xor => simp only [plopRes, bne, beq_eq_decide, decide_not, decide_eq_decide]
    case andn => simp only [plopRes, Bool.decide_and, decide_not]
    case not => exact decide_not.symm
    case set => rfl
  case p2g =>
    exact fun hr => lanes_setR h hr (rfl : _ = execPmov p .p2g d a s) rfl rfl fun y l hl => by rw [hl.fibre]
  case g2p =>
    exact fun hr => lanes_modFibre h hr (rfl : _ = execPmov p .g2p d a s) rfl rfl
      (fib := fun l f => { f with k := (r a l).setWidth 8 ||| 1 }) (fun _ _ => rfl) (fun _ _ => rfl) fun y l hl =>
        congrArg (fun w : W32 => modFibre y l fun f => { f with k := w.setWidth 8 ||| 1 }) (hl.rg a)

end Sys2Proof.Machine
end

section
/-! The float instructions of lanes (R163, R174 to R180): the results of the active lanes with their draws and flags,
and the predicates of comparisons. -/
namespace Sys2Proof.Machine

/-! ## Results and the lanes they belong to -/

theorem length_mapDraw {α : Type} (rm : Rm) (f : Nat → α → FR) (xs : List α) (sr : W64) :
    (mapDraw rm f xs sr).1.length = xs.length := by
  induction xs generalizing sr with
  | nil => rfl
  | cons x xs ih => exact congrArg Nat.succ (ih _)

section
variable {ls : List Nat} (hnodup : ls.Nodup)
include hnodup

theorem zip_eq_map_idxOf {vs : List Nat} (hlen : vs.length = ls.length) :
    ls.zip vs = ls.map (fun l => (l, vs.getD (ls.idxOf l) 0)) := by
  refine List.ext_getElem (by simp [hlen]) fun n h _ => ?_
  have hn : n < vs.length := (List.length_zip ▸ h).trans_le (Nat.min_le_right _ _)
  rw [List.getElem_zip, List.getElem_map, hnodup.idxOf_getElem, List.getD_eq_getElem _ _ hn]

theorem zipIdx_eq_map_idxOf : ls.zipIdx = ls.map (fun l => (l, ls.idxOf l)) := by
  refine List.ext_getElem (by simp) fun n h _ => ?_
  rw [List.getElem_zipIdx, List.getElem_map, hnodup.idxOf_getElem, Nat.zero_add]

end

/-! ## What results leave of their core (R42, R38) -/

/-- The flags of the results are ORed into FSTAT, and the generator has drawn for them. -/
def floatFlags (v : List Nat × Nat × W64) (k : Core) : Core := (k.orFlags v.2.1).setSr v.2.2

theorem floatFlags_halt (v : List Nat × Nat × W64) (k : Core) : (floatFlags v k).halt = k.halt :=
  k.orFlags_halt v.2.1

theorem gangAt_floatFlags (v : List Nat × Nat × W64) (k : Core) (g : Nat) : (floatFlags v k).gangAt g = k.gangAt g :=
  k.gangAt_orFlags v.2.1 g

/-- Writing a list of results by lane is writing lane after lane. -/
theorem modGang_results (s : State) (c g : Nat) (b : Batch) (v : List Nat × Nat × W64) (put : Gang → Nat → Nat → Gang)
    {es : List (Nat × Nat)} {n : Nat → Nat} (hes : es = b.act.map (fun l => (l, n l))) :
    modGang (s.modCore c (floatFlags v)) c g (fun x => b.advance (es.foldl (fun x e => put x e.1 e.2) x)) =
      s.setCore c ((floatFlags v (s.core c)).setGang g
        (b.advance (b.act.foldl (fun y l => put y l (n l)) ((s.core c).gangAt g)))) := by
  rw [modGang_modCore, gangAt_floatFlags, hes, List.foldl_map]

section
variable {s : State} {c g pc : Nat} {i : Instr} {rm : Rm} {d : GReg} (h : GangIssues s c g pc)
  (hr : RegsReady s c g pc i)
include h hr

/-- One result in each active lane goes to a register, or to a part of one (R179). -/
theorem laneFloat_setR {f : Gang → Nat → Nat → FR} {w : Gang → Nat → Nat → W32}
    (hexec : exec i s = laneFloat i rm f (fun y l n => setR y l d (w y l n)) s)
    (hw : ∀ y l n, SameLane ((s.core c).gangAt g) y l → w y l n = w ((s.core c).gangAt g) l n) :
    let x := (s.core c).gangAt g
    let act := (batchOf s c g pc i).act
    let v := mapDraw rm (fun u l => f x l u) act ((s.core c).cfgAt rSRSTATE)
    ∃ t, exec i s = .next t ∧ LaneEffect s t c g pc i (floatFlags v) (fun _ => onward pc) [d.toNat]
      (fun l _ => w x l (v.1.getD (act.idxOf l) 0)) :=
  lanes_setR h hr hexec (floatFlags_halt _ _)
    (congrArg LaneRes.go (modGang_results s c g (batchOf s c g pc i)
      (mapDraw rm (fun u l => f ((s.core c).gangAt g) l u) _ _) (fun y l n => setR y l d (w y l n))
      (zip_eq_map_idxOf batchOf_act_nodup (length_mapDraw ..))))
    fun y l hl => hw y l _ hl

/-- One result in each active lane goes to a register. -/
theorem laneFloat_put32 {f : Gang → Nat → Nat → FR} (hexec : exec i s = laneFloat i rm f (put32 d) s) :
    let act := (batchOf s c g pc i).act
    let v := mapDraw rm (fun u l => f ((s.core c).gangAt g) l u) act ((s.core c).cfgAt rSRSTATE)
    ∃ t, exec i s = .next t ∧ LaneEffect s t c g pc i (floatFlags v) (fun _ => onward pc) [d.toNat]
      (fun l _ => w32 (v.1.getD (act.idxOf l) 0)) :=
  laneFloat_setR h hr (w := fun _ _ n => w32 n) hexec fun _ _ _ _ => rfl

/-- One result in each active lane goes to a pair. -/
theorem laneFloat_put64 {f : Gang → Nat → Nat → FR} (hexec : exec i s = laneFloat i rm f (put64 d) s)
    (hd : (d, true) ∈ laneRegs i) :
    let act := (batchOf s c g pc i).act
    let v := mapDraw rm (fun u l => f ((s.core c).gangAt g) l u) act ((s.core c).cfgAt rSRSTATE)
    ∃ t, exec i s = .next t ∧ LaneEffect s t c g pc i (floatFlags v) (fun _ => onward pc) (pairOf d)
      (pairVal d (fun l => w64 (v.1.getD (act.idxOf l) 0))) :=
  lanes_setP h hr hexec (floatFlags_halt _ _)
    (congrArg LaneRes.go (modGang_results s c g (batchOf s c g pc i)
      (mapDraw rm (fun u l => f ((s.core c).gangAt g) l u) _ _) (put64 d)
      (zip_eq_map_idxOf batchOf_act_nodup (length_mapDraw ..)))) hd
    fun _ _ _ => rfl

/-- Two results in each active lane go to the halves of a register (R177). -/
theorem lanePacked_setR {f : Gang → Nat → Nat → Nat → FR} (hexec : exec i s = lanePacked i rm d f s) :
    let act := (batchOf s c g pc i).act
    let v := mapDraw rm (fun u (y : Nat × Nat) => f ((s.core c).gangAt g) y.1 y.2 u)
      (act.flatMap (fun l => [(l, 0), (l, 1)])) ((s.core c).cfgAt rSRSTATE)
    ∃ t, exec i s = .next t ∧ LaneEffect s t c g pc i (floatFlags v) (fun _ => onward pc) [d.toNat]
      (fun l _ => w32 (v.1.getD (2 * act.idxOf l) 0 + v.1.getD (2 * act.idxOf l + 1) 0 * 2 ^ 16)) := by
  refine lanes_setR h hr hexec (floatFlags_halt _ _) (congrArg LaneRes.go (modGang_results s c g _ _ (put32 d) ?_))
    fun _ _ _ => rfl
  rw [zipIdx_eq_map_idxOf batchOf_act_nodup, List.map_map]
  rfl

end

/-! ## Conversions (R179) -/

theorem cvtSrc_eq (x : Gang) (l : Nat) (f : Fmt) (part : BitVec 2) (a : GReg) : cvtSrc x l f part a =
    if f = .fp64 then (x.pair l a.toNat).toNat
    else (x.reg l a.toNat).toNat / 2 ^ (8 * fmtSize f * part.toNat) % 2 ^ (8 * fmtSize f) := by
  rw [cvtSrc, nf, Nat.shiftRight_eq_div_pow]
  rfl

/-- A target below 64 bits is a part of the register, whose other bits stay. -/
theorem cvtPut_part {tgt : Fmt} (h : tgt ≠ .fp64) (part : BitVec 2) (d : GReg) : cvtPut tgt part d = fun y l n =>
    setR y l d ((sf ((rg y l d).setWidth 64) (8 * fmtSize tgt * part.toNat) (8 * fmtSize tgt) n).setWidth 32) := by
  funext y l n
  rw [cvtPut, if_neg h, put32, w32, BitVec.ofNat_toNat]

end Sys2Proof.Machine

namespace Sys2Proof
open Machine

/-- Settles O32: one result for each active lane, or two, goes where the form puts it; a comparison writes a predicate,
and a conversion a part of a register or a pair. -/
theorem laneFloat : Obligations.LaneFloat := by
  intro s c g pc p kd d a b e m h k x act sr r q flags single double packed half hf pred
  refine ⟨?fop, ?ffma, ?funop, ?sfu, ?dop, ?dfma, ?dun, ?hop, ?hfma, ?fcmp, ?dcmp, ?cvt, ?cvtd⟩
  case fop => exact fun fn hr => (laneFloat_put32 h hr (rfl : _ = execFop p fn m d a b s) :)
  case ffma => exact fun fn hr => (laneFloat_put32 h hr (rfl : _ = execFfma p fn m d a b e s) :)
  case funop => exact fun fn hr => (laneFloat_put32 h hr (rfl : _ = execFunop p fn m d a s) :)
  case sfu => exact fun fn hr => (laneFloat_put32 h hr (rfl : _ = execSfu p fn d a s) :)
  case dop => exact fun fn hr => (laneFloat_put64 h hr (rfl : _ = execDop p fn m d a b s) (.head _) :)
  case dfma => exact fun fn hr => (laneFloat_put64 h hr (rfl : _ = execDfma p fn m d a b e s) (.head _) :)
  case dun => exact fun fn hr => (laneFloat_put64 h hr (rfl : _ = execDun p fn m d a s) (.head _) :)
  case hop => exact fun fn h16 hr => (lanePacked_setR h hr (rfl : _ = execHop p fn h16 m d a b s) :)
  case hfma => exact fun fn h16 hr => (lanePacked_setR h hr (rfl : _ = execHfma p fn h16 m d a b e s) :)
  case fcmp =>
    exact fun cc hr => lanes_setK h hr (rfl : _ = execFcmp p cc kd a b s) rfl rfl fun y l hl => by
      rw [n32, n32, hl.rg, hl.rg]
  case dcmp =>
    exact fun cc hr => lanes_setK h hr (rfl : _ = execDcmp p cc kd a b s) rfl rfl fun y l hl => by
      rw [n64, n64, hr.rp hl (.head _), hr.rp hl (.tail _ (.head _))]
  case cvt =>
    intro dp sp tgt frm htgt hr
    have hexec : exec (.cvt p dp sp m tgt frm d a) s = execCvt p dp sp m tgt frm d a s := rfl
    simp only [execCvt, cvtPut_part htgt, cvtSrc_eq] at hexec
    have key := laneFloat_setR h hr (w := fun y l n => (sf ((rg y l d).setWidth 64) (8 * fmtSize tgt * dp.toNat)
      (8 * fmtSize tgt) n).setWidth 32) hexec fun y l n hl => by rw [hl.rg]; rfl
    exact key
  case cvtd =>
    intro dp sp frm hr
    have hexec : exec (.cvt p dp sp m .fp64 frm d a) s = execCvt p dp sp m .fp64 frm d a s := rfl
    simp only [execCvt, cvtSrc_eq] at hexec
    have key := laneFloat_put64 h hr hexec (.head _)
    exact key

end Sys2Proof
end

section
/-! Control transfer of lanes, LBRK, and the checks of registers (R152, R157, R181 to R183, R335). -/
namespace Sys2Proof.Machine

/-! ## Jumps (R181) -/

section
variable {s : State} {c g pc : Nat} {i : Instr} {target : Batch → Gang → Nat → Nat} {link : Option GReg}
  (h : GangIssues s c g pc) (hr : RegsReady s c g pc i) (hexec : exec i s = laneJump i target link s)
include h hr hexec

/-- A target that is no multiple of 8 traps in the lowest active lane that has one. -/
theorem laneJump_traps {l : Nat} (hl : (batchOf s c g pc i).act.find? (fun l =>
      target (batchOf s c g pc i) ((batchOf s c g pc i).gang s) l % 8 != 0) = some l) :
    exec i s = .next (laneTrapped s c g pc i l .ialign) := by
  refine hexec.trans (congrArg Host.Outcome.next (issueLane_traps h hr ?_))
  simp only [hl]

/-- Active lanes go to their targets and write what they write, the others fall through. -/
theorem laneJump_writes {ds : List Nat} {v : Nat → Nat → W32} {tgt : Nat → Nat} (hds : ∀ r ∈ ds, r < 256)
    (htgt : ∀ l, target (batchOf s c g pc i) ((batchOf s c g pc i).gang s) l = tgt l)
    (hok : ∀ l ∈ (batchOf s c g pc i).act, tgt l % 8 = 0)
    (hlink : ∀ y l, LanesWritten y (match link with | some d => setP y l d (w64 (va57 (pc + 8))) | none => y) [l]
      (fun _ b => b) ds v) :
    ∃ t, exec i s = .next t ∧ LaneEffect s t c g pc i id
      (fun l b => if l ∈ (batchOf s c g pc i).act then { b with pc := tgt l } else onward pc b) ds v := by
  have hnone : (batchOf s c g pc i).act.find? (fun l => tgt l % 8 != 0) = none :=
    List.find?_eq_none.mpr fun l hl => by simp [hok l hl]
  refine exec_moves (fib := fun l b => { b with pc := tgt l }) h hr hexec ?_
    (.foldl hds batchOf_act_nodup fun y l _ _ => .modFibre (hlink y l) (fun b => { b with pc := tgt l }) (fun _ => rfl)
      fun _ => rfl) fun _ _ => rfl
  simp only [hnone, htgt]
  rfl

end

section
variable {s : State} {c g pc : Nat} {i : Instr} {target : Batch → Gang → Nat → Nat} {tgt : Nat → Nat}
  (h : GangIssues s c g pc) (hr : RegsReady s c g pc i)
include h hr

theorem laneJump_goes (hexec : exec i s = laneJump i target none s)
    (htgt : ∀ l, target (batchOf s c g pc i) ((batchOf s c g pc i).gang s) l = tgt l)
    (hok : ∀ l ∈ (batchOf s c g pc i).act, tgt l % 8 = 0) :
    ∃ t, exec i s = .next t ∧ LaneEffect s t c g pc i id
      (fun l b => if l ∈ (batchOf s c g pc i).act then { b with pc := tgt l } else onward pc b) [] (fun _ _ => 0) :=
  laneJump_writes h hr hexec nofun htgt hok fun _ _ => .keep

/-- A jump with a link leaves the next instruction's address in a pair of each active lane. -/
theorem laneJump_links {d : GReg} (hd : (d, true) ∈ laneRegs i) (hexec : exec i s = laneJump i target (some d) s)
    (htgt : ∀ l, target (batchOf s c g pc i) ((batchOf s c g pc i).gang s) l = tgt l)
    (hok : ∀ l ∈ (batchOf s c g pc i).act, tgt l % 8 = 0) :
    ∃ t, exec i s = .next t ∧ LaneEffect s t c g pc i id
      (fun l b => if l ∈ (batchOf s c g pc i).act then { b with pc := tgt l } else onward pc b) (pairOf d)
      (pairVal d (fun _ => w64 (va57 (pc + 8)))) :=
  laneJump_writes h hr hexec (by simp [pairOf, hr.pair_lt hd, d.isLt]) htgt hok fun _ _ =>
    .setP (hr.pair_lt hd) (fun _ => w64 (va57 (pc + 8)))

end

/-! ## Breakpoints (R182, R335) -/

section
variable {s : State} {c g pc : Nat} {imm : BitVec 16} (h : GangIssues s c g pc)
include h

theorem execLbrk_stepsOver
    (hover : ∀ l ∈ (batchOf s c g pc (.lbrk imm)).lanes, l ∈ ((s.core c).gangAt g).stepOver) :
    ∃ t, exec (.lbrk imm) s = .next t ∧
      LaneEffect s t c g pc (.lbrk imm) id (fun _ => onward pc) [] (fun _ _ => 0) :=
  exec_advances h rfl (rfl : _ = execLbrk imm s)
    (if_pos (List.all_eq_true.mpr fun l hl => List.contains_iff_mem.mpr (hover l hl)))

theorem execLbrk_traps
    (hover : ¬ ∀ l ∈ (batchOf s c g pc (.lbrk imm)).lanes, l ∈ ((s.core c).gangAt g).stepOver) :
    ∃ u, exec (.lbrk imm) s = .next (raiseTrap s c u) ∧ u.cause = .brk ∧ u.info = imm.toNat ∧ u.gang = g ∧
      u.fpc = pc :=
  ⟨{ laneTrap (s.core c) g ((batchOf s c g pc (.lbrk imm)).lanes.headD 0) pc (encWords (.lbrk imm)).1 with
      cause := .brk, info := imm.toNat },
    congrArg Host.Outcome.next (issueLane_noRegs_traps h rfl (if_neg fun hall => hover fun l hl =>
      List.contains_iff_mem.mp (List.all_eq_true.mp hall l hl))), rfl, rfl, rfl, rfl⟩

end

/-! ## The checks of registers (R152, R157) -/

theorem gangAt_modGang (s : State) (c g : Nat) (f : Gang → Gang) :
    ((modGang s c g f).core c).gangAt g = f ((s.core c).gangAt g) := by
  rw [modGang, State.core_modCore, Core.gangAt_setGang]

/-- A batch that waits is stalled, and its registers and memory are as they were. -/
theorem stallBatch_leaves (s : State) (c g pc : Nat) (i : Instr) : SameMem s (stallBatch s (batchOf s c g pc i)) ∧
    (∀ l ∈ (batchOf s c g pc i).lanes, (((stallBatch s (batchOf s c g pc i)).core c).gangAt g).fibre l =
      { ((s.core c).gangAt g).fibre l with st := .stalled }) ∧
    ∀ l r, (((stallBatch s (batchOf s c g pc i)).core c).gangAt g).reg l r = ((s.core c).gangAt g).reg l r := by
  have hgang : ((stallBatch s (batchOf s c g pc i)).core c).gangAt g =
      modFibres ((s.core c).gangAt g) (batchOf s c g pc i).lanes (fun f => { f with st := .stalled }) :=
    gangAt_modGang s c g _
  rw [hgang]
  exact ⟨fun _ => rfl, fun l hl => modFibres_fibre_in (batchLanes_nodup _ _) hl, fun l r =>
    modFibres_reg (f := fun f => { f with st := .stalled }) (fun _ => rfl) l r⟩

/-- Settles O33: jumps with and without a link, the trap of a target that no instruction stands at, LBRK, then the two checks of registers. -/
theorem laneControl : Obligations.LaneControl := by
  refine ⟨fun s c g pc p d a off h => ?jumps, fun s c g pc p fn d a b h => ?checks⟩
  case jumps =>
    intro x act rel reg go plain link
    refine ⟨?bra, ?brx, ?ret, ?call, ?callx, ?ialign, fun imm => ⟨execLbrk_stepsOver h, execLbrk_traps h⟩⟩
    case bra => exact fun hr hok => laneJump_goes h hr (rfl : _ = execBra p off s) (fun _ => rfl) hok
    case brx => exact fun hr hok => laneJump_goes h hr (rfl : _ = execBrx p a s) (fun _ => rfl) hok
    case ret => exact fun hr hok => laneJump_goes h hr (rfl : _ = execLaneRet p a s) (fun _ => rfl) hok
    case call => exact fun hr hok => laneJump_links h hr (.head _) (rfl : _ = execLaneCall p d off s) (fun _ => rfl) hok
    case callx => exact fun hr hok => laneJump_links h hr (.head _) (rfl : _ = execCallx p d a s) (fun _ => rfl) hok
    case ialign =>
      intro i hi hr l hl
      simp only [List.mem_cons, List.not_mem_nil, or_false] at hi
      rcases hi with rfl | rfl | rfl
      · exact laneJump_traps h hr (rfl : _ = execBrx p a s) hl
      · exact laneJump_traps h hr (rfl : _ = execLaneRet p a s) hl
      · exact laneJump_traps h hr (rfl : _ = execCallx p d a s) hl
  case checks =>
    intro x i bt
    have hexec : exec i s = .next (issueLane i _ s) := (rfl : _ = execIop p fn d a b s)
    refine ⟨fun hbound => ?_, fun hbound hpend => ?_⟩
    · refine hexec.trans (congrArg _ (issueLane_regbound h ?_ _))
      simpa [i, laneRegs, r1, RegUse.top, bitOf] using hbound
    · refine ⟨_, hexec.trans (congrArg _ (issueLane_pending h ?_ ?_ _)), ?_⟩
      · simpa [i, laneRegs, r1, RegUse.top, bitOf] using hbound
      · simpa [i, laneRegs, r1, RegUse.nums] using hpend
      · exact stallBatch_leaves s c g pc i

end Sys2Proof.Machine
end

section
/-! The collectives of lanes (R196 to R199): the participants among the active lanes, and what each of them writes. -/
namespace Sys2Proof.Machine

/-! ## Writes in some of the active lanes -/

namespace LanesWritten
variable {x y : Gang} {ps ls : List Nat} {l : Nat} {fib : Nat → Fibre → Fibre} {ds : List Nat} {v : Nat → Nat → W32}

/-- Writes in some of the lanes of a list are writes in all of them that leave the others what they hold. -/
theorem widen (hsub : ∀ l ∈ ps, l ∈ ls) (hds : ∀ r ∈ ds, r < 256) (h : LanesWritten x y ps fib ds v) :
    LanesWritten x y ls (fun l f => if l ∈ ps then fib l f else f) ds
      (fun l r => if l ∈ ps then v l r else x.reg l r) where
  rest := h.rest
  fibre_in l _ := by
    split
    next hl => exact h.fibre_in l hl
    next hl => exact h.fibre_out l hl
  fibre_out l hl := h.fibre_out l fun hp => hl (hsub l hp)
  reg_in l _ r hr := by
    split
    next hl => exact h.reg_in l hl r hr
    next hl => exact h.reg_out l r (hds r hr) (.inl hl)
  reg_out l r hr hn := h.reg_out l r hr (hn.imp_left fun hl hp => hl (hsub l hp))

theorem setK {n : Nat} {w : Bool} {u : Nat → Bool} (hw : w = u l) :
    LanesWritten x (setK x l n w) [l] (fun l => withK n (u l)) [] v :=
  .modFibre .keep (withK n w) (fun _ => rfl) fun b => by rw [hw]

end LanesWritten

/-! ## The participants (R196) -/

/-- The active lanes that the mask names, as the lowest active lane holds it. -/
def takingPart (s : State) (c g pc : Nat) (i : Instr) (m : GReg) : List Nat :=
  let act := (batchOf s c g pc i).act
  act.filter (fun l => (((s.core c).gangAt g).reg (act.headD 0) m.toNat).getLsbD l)

theorem participating_eq (b : Batch) (x : Gang) (m : GReg) :
    participating b x m = b.act.filter (fun l => (rg x (b.act.headD 0) m).getLsbD l) := by
  unfold participating
  cases b.act <;> rfl

theorem takingPart_nodup (s : State) (c g pc : Nat) (i : Instr) (m : GReg) : (takingPart s c g pc i m).Nodup :=
  batchOf_act_nodup.filter _

theorem takingPart_pairwise_lt (s : State) (c g pc : Nat) (i : Instr) (m : GReg) :
    (takingPart s c g pc i m).Pairwise (· < ·) :=
  ((List.pairwise_lt_range.filter _).filter _).filter _

theorem takingPart_act {s : State} {c g pc l : Nat} {i : Instr} {m : GReg} (hl : l ∈ takingPart s c g pc i m) :
    l ∈ (batchOf s c g pc i).act :=
  List.mem_of_mem_filter hl

theorem takingPart_lt {s : State} {c g pc l : Nat} {i : Instr} {m : GReg} (hl : l ∈ takingPart s c g pc i m) :
    l < 32 :=
  (mem_batchLanes.mp (batchOf_act_subset (takingPart_act hl))).1

/-- Where no register is written, the values of none are named. -/
theorem LaneEffect.of_nil {s t : State} {c g pc : Nat} {i : Instr} {f : Core → Core} {fib : Nat → Fibre → Fibre}
    {v v' : Nat → Nat → W32} (h : LaneEffect s t c g pc i f fib [] v) : LaneEffect s t c g pc i f fib [] v' := by
  obtain ⟨y, ht, hy, hin, hout, -, hreg⟩ := h
  exact ⟨y, ht, hy, hin, hout, fun _ _ _ => nofun, hreg⟩

section
variable {s : State} {c g pc : Nat} {i : Instr} {m : GReg} {f : List Nat → Gang → Gang × Nat} {y : Gang} {fl : Nat}
  {fib : Nat → Fibre → Fibre} {ds : List Nat} {v : Nat → Nat → W32} (h : GangIssues s c g pc)
  (hr : RegsReady s c g pc i) (hexec : exec i s = collective i m f s)
include h hr hexec

/-- A collective writes in its participants, and in no other lane. -/
theorem collective_writes (hf : f (takingPart s c g pc i m) ((s.core c).gangAt g) = (y, fl)) (hds : ∀ r ∈ ds, r < 256)
    (hst : ∀ l b, (fib l b).st = b.st)
    (hw : LanesWritten ((s.core c).gangAt g) y (takingPart s c g pc i m) fib ds v) :
    ∃ t, exec i s = .next t ∧ LaneEffect s t c g pc i (fun k => k.orFlags fl)
      (fun l b => onward pc (if l ∈ takingPart s c g pc i m then fib l b else b)) ds
      (fun l r => if l ∈ takingPart s c g pc i m then v l r else ((s.core c).gangAt g).reg l r) := by
  have key := exec_writes h hr (F := fun k => k.orFlags fl) (z := y) hexec (Core.orFlags_halt _ _) ?_
    (hw.widen (fun _ => takingPart_act) hds) fun l b => ?_
  · have hfib : (fun l b => onward pc (if l ∈ (batchOf s c g pc i).act then
          if l ∈ takingPart s c g pc i m then fib l b else b else b)) =
        fun l b => onward pc (if l ∈ takingPart s c g pc i m then fib l b else b) := by
      funext l b
      by_cases hl : l ∈ takingPart s c g pc i m
      · rw [if_pos (takingPart_act hl)]
      · rw [if_neg hl, ite_self]
    rwa [hfib] at key
  · dsimp only
    rw [participating_eq]
    change LaneRes.go (modGang (s.modCore c fun k => k.orFlags (f (takingPart s c g pc i m) ((s.core c).gangAt g)).2) c g
      fun _ => (batchOf s c g pc i).advance (f (takingPart s c g pc i m) ((s.core c).gangAt g)).1) = _
    rw [hf, modGang_modCore]
  · split
    · exact hst l b
    · rfl

/-- A collective in which each participant writes a register. -/
theorem collective_setR {d : GReg} {w : Nat → W32}
    (hf : f (takingPart s c g pc i m) ((s.core c).gangAt g) =
      ((takingPart s c g pc i m).foldl (fun y l => setR y l d (w l)) ((s.core c).gangAt g), fl)) :
    ∃ t, exec i s = .next t ∧ LaneEffect s t c g pc i (fun k => k.orFlags fl) (fun _ => onward pc) [d.toNat]
      (fun l r => if l ∈ takingPart s c g pc i m then w l else ((s.core c).gangAt g).reg l r) := by
  have key := collective_writes h hr hexec hf (fib := fun _ b => b) (ds := [d.toNat]) (v := fun l _ => w l)
    (by simpa using d.isLt) (fun _ _ => rfl)
    (.foldl (by simpa using d.isLt) (takingPart_nodup s c g pc i m) fun y l _ _ => .setR d _ rfl)
  simpa only [ite_self] using key

/-- A collective in which each participant writes a predicate. -/
theorem collective_setK {n : Nat} {w : Nat → Bool}
    (hf : f (takingPart s c g pc i m) ((s.core c).gangAt g) =
      ((takingPart s c g pc i m).foldl (fun y l => setK y l n (w l)) ((s.core c).gangAt g), fl)) :
    ∃ t, exec i s = .next t ∧ LaneEffect s t c g pc i (fun k => k.orFlags fl)
      (fun l b => onward pc (if l ∈ takingPart s c g pc i m then withK n (w l) b else b)) [] (fun _ _ => 0) := by
  have key := collective_writes h hr hexec hf (fib := fun l => withK n (w l)) (ds := []) (v := fun _ _ => 0) nofun
    (fun _ _ => rfl) (.foldl nofun (takingPart_nodup s c g pc i m) fun y l _ _ => .setK rfl)
  exact key.imp fun t ht => ht.imp_right LaneEffect.of_nil

end

theorem orFlags_none : (fun k : Core => k.orFlags 0) = id := funext Core.orFlags_zero

/-! ## VOTE (R197) -/

theorem length_filter_beq {α : Type} (p : α → Bool) (l : List α) :
    ((l.filter p).length == l.length) = decide (∀ a ∈ l, p a = true) := by
  rw [beq_eq_decide, decide_eq_decide, List.length_filter_eq_length_iff]

theorem not_isEmpty_filter {α : Type} (p : α → Bool) (l : List α) :
    (!(l.filter p).isEmpty) = decide (∃ a ∈ l, p a = true) := by
  rw [Bool.eq_iff_iff]
  simp

/-! ## SHFL (R198) -/

/-- The lane that a lane of SHFL reads, or one past them all (R198). -/
def shflFrom (x : Gang) (fn : ShflFn) (b : GReg) (delta : BitVec 5) (l : Nat) : Nat :=
  match fn with
  | .idx => (x.reg l b.toNat).toNat % 32
  | .up => if delta.toNat ≤ l then l - delta.toNat else 32
  | .down => l + delta.toNat
  | .xor => Nat.xor l delta.toNat

/-- That lane is one of the participants. -/
def shflOk (ps : List Nat) (x : Gang) (fn : ShflFn) (b : GReg) (delta : BitVec 5) (l : Nat) : Bool :=
  decide (shflFrom x fn b delta l < 32 ∧ shflFrom x fn b delta l ∈ ps)

theorem shflSrc_eq (x : Gang) (fn : ShflFn) (b : GReg) (delta : BitVec 5) {l : Nat} (hl : l < 32) :
    shflSrc x fn b delta l =
      if shflFrom x fn b delta l < 32 then some (shflFrom x fn b delta l) else none := by
  cases fn
  case idx => exact (if_pos (Nat.mod_lt _ (by decide))).symm
  case up =>
    simp only [shflSrc, shflFrom]
    split
    next => rw [if_pos (by omega)]
    next => rfl
  case down => rfl
  case xor => exact (if_pos (Nat.xor_lt_two_pow (n := 5) hl delta.isLt)).symm

/-- What one participant of SHFL writes. -/
def shflPut (ps : List Nat) (x : Gang) (fn : ShflFn) (d a b : GReg) (delta : BitVec 5) (y : Gang) (l : Nat) : Gang :=
  setK (setR y l d (if shflOk ps x fn b delta l then x.reg (shflFrom x fn b delta l) a.toNat else x.reg l a.toNat)) l 7
    (!shflOk ps x fn b delta l)

theorem shfl_put_eq (ps : List Nat) (x : Gang) (fn : ShflFn) (d a b : GReg) (delta : BitVec 5) (y : Gang) {l : Nat}
    (hl : l < 32) :
    (match shflSrc x fn b delta l with
      | some q => if ps.contains q then setK (setR y l d (rg x q a)) l 7 false else setK (setR y l d (rg x l a)) l 7 true
      | none => setK (setR y l d (rg x l a)) l 7 true) = shflPut ps x fn d a b delta y l := by
  rw [shflSrc_eq x fn b delta hl, shflPut]
  by_cases hq : shflFrom x fn b delta l < 32
  case neg =>
    have hok : shflOk ps x fn b delta l = false := decide_eq_false fun h => hq h.1
    rw [hok, if_neg hq]
    rfl
  case pos =>
    rw [if_pos hq]
    by_cases hps : shflFrom x fn b delta l ∈ ps
    case pos =>
      have hok : shflOk ps x fn b delta l = true := decide_eq_true ⟨hq, hps⟩
      rw [hok]
      simp only [List.contains_iff_mem.mpr hps, if_true]
      rfl
    case neg =>
      have hok : shflOk ps x fn b delta l = false := decide_eq_false fun h => hps h.2
      rw [hok]
      simp only [List.contains_eq_mem, hps, decide_false, Bool.false_eq_true, if_false]
      rfl

theorem shflPut_writes (ps : List Nat) (x : Gang) (fn : ShflFn) (d a b : GReg) (delta : BitVec 5) (y : Gang) (l : Nat) :
    LanesWritten y (shflPut ps x fn d a b delta y l) [l] (fun l => withK 7 (!shflOk ps x fn b delta l)) [d.toNat]
      (fun l _ => if shflOk ps x fn b delta l then x.reg (shflFrom x fn b delta l) a.toNat else x.reg l a.toNat) :=
  LanesWritten.modFibre (fib := fun l => withK 7 (!shflOk ps x fn b delta l))
    (.setR (v := fun l _ => if shflOk ps x fn b delta l then x.reg (shflFrom x fn b delta l) a.toNat
      else x.reg l a.toNat) d _ rfl) (withK 7 (!shflOk ps x fn b delta l)) (fun _ => rfl) fun _ => rfl

theorem exec_shfl {s : State} {c g pc : Nat} {p : Pred} {fn : ShflFn} {d a b e : GReg} {delta : BitVec 5}
    (h : GangIssues s c g pc) (hr : RegsReady s c g pc (.shfl p fn d a b e delta)) :
    let x := (s.core c).gangAt g
    let ps := takingPart s c g pc (.shfl p fn d a b e delta) e
    ∃ t, exec (.shfl p fn d a b e delta) s = .next t ∧ LaneEffect s t c g pc (.shfl p fn d a b e delta) id
      (fun l f => onward pc (if l ∈ ps then withK 7 (!shflOk ps x fn b delta l) f else f)) [d.toNat]
      (fun l r => if l ∈ ps then (if shflOk ps x fn b delta l then x.reg (shflFrom x fn b delta l) a.toNat
        else x.reg l a.toNat) else x.reg l r) := by
  intro x ps
  have hput : ps.foldl (fun y l =>
      match shflSrc x fn b delta l with
      | some q => if ps.contains q then setK (setR y l d (rg x q a)) l 7 false else setK (setR y l d (rg x l a)) l 7 true
      | none => setK (setR y l d (rg x l a)) l 7 true) x = ps.foldl (shflPut ps x fn d a b delta) x :=
    List.foldl_ext _ _ x fun y l hl => shfl_put_eq ps x fn d a b delta y (takingPart_lt hl)
  have key := collective_writes h hr (rfl : _ = execShfl p fn d a b e delta s) (congrArg (·, 0) hput) (ds := [d.toNat])
    (fib := fun l => withK 7 (!shflOk ps x fn b delta l)) (by simpa using d.isLt) (fun _ _ => rfl)
    (.foldl (by simpa using d.isLt) (takingPart_nodup ..) fun y l _ _ => shflPut_writes ps x fn d a b delta y l)
  rwa [orFlags_none] at key

/-! ## SCAN and LRED (R199) -/

/-- One more value is combined, and the flags of its operation are kept. -/
def scanStep (op : ScanOp) (y : W32 × Nat) (z : W32) : W32 × Nat :=
  ((scanOp op y.1 z).1, Nat.lor y.2 (scanOp op y.1 z).2)

/-- The values of some lanes combined in their order, with the flags. -/
def scanFold (op : ScanOp) : List W32 → W32 × Nat
  | [] => (0, 0)
  | v :: vs => vs.foldl (scanStep op) (v, 0)

/-- What has been combined of some lanes, if any. -/
def scanAcc (op : ScanOp) (vs : List W32) : Option W32 := if vs = [] then none else some (scanFold op vs).1

theorem scanAcc_cons (op : ScanOp) (v : W32) (vs : List W32) : scanAcc op (v :: vs) = some (scanFold op (v :: vs)).1 :=
  if_neg (List.cons_ne_nil v vs)

theorem scanFold_concat (op : ScanOp) (v : W32) (vs : List W32) (z : W32) :
    scanFold op (v :: vs ++ [z]) = scanStep op (scanFold op (v :: vs)) z := by
  simp only [scanFold, List.cons_append, List.foldl_append, List.foldl_cons, List.foldl_nil]

/-- Behind lanes that are combined already, a lane finds what they come to, or the identity, and adds its value. -/
theorem scanGo_cons (op : ScanOp) (vs : List W32) (l : Nat) (v : W32) (rest : List (Nat × W32)) :
    scanGo op (scanAcc op vs) (scanFold op vs).2 ((l, v) :: rest) =
      let r := scanGo op (scanAcc op (vs ++ [v])) (scanFold op (vs ++ [v])).2 rest
      ((l, if vs = [] then scanIdent op else (scanFold op vs).1, (scanFold op (vs ++ [v])).1) :: r.1, r.2) := by
  cases vs with
  | nil => rfl
  | cons u us =>
    rw [scanFold_concat, List.cons_append, scanAcc_cons, scanAcc_cons, ← List.cons_append, scanFold_concat,
      if_neg (List.cons_ne_nil u us)]
    rfl

theorem filter_lt_middle {qs ps : List Nat} {l : Nat} (h : (qs ++ l :: ps).Pairwise (· < ·)) :
    (qs ++ l :: ps).filter (· < l) = qs ∧ (qs ++ l :: ps).filter (· ≤ l) = qs ++ [l] := by
  rw [List.pairwise_append, List.pairwise_cons] at h
  obtain ⟨-, ⟨hps, -⟩, hqs⟩ := h
  have hbelow : ∀ q ∈ qs, q < l := fun q hq => hqs q hq l List.mem_cons_self
  simp only [List.filter_append, List.filter_cons, lt_irrefl, le_refl, decide_true, decide_false, if_true,
    Bool.false_eq_true, if_false]
  rw [List.filter_eq_self.mpr fun q hq => decide_eq_true (hbelow q hq),
    List.filter_eq_self.mpr fun q hq => decide_eq_true (hbelow q hq).le,
    List.filter_eq_nil_iff.mpr fun q hq => by simpa using (hps q hq).le,
    List.filter_eq_nil_iff.mpr fun q hq => by simpa using hps q hq]
  simp

section
variable (op : ScanOp) (val : Nat → W32)

/-- R199: what lies before each of some lanes in their order, what is there with it, and what all come to. -/
theorem scanGo_behind (qs ps : List Nat) (h : (qs ++ ps).Pairwise (· < ·)) :
    scanGo op (scanAcc op (qs.map val)) (scanFold op (qs.map val)).2 (ps.map (fun l => (l, val l))) =
      (ps.map (fun l => (l,
          if (qs ++ ps).filter (· < l) = [] then scanIdent op else (scanFold op (((qs ++ ps).filter (· < l)).map val)).1,
          (scanFold op (((qs ++ ps).filter (· ≤ l)).map val)).1)),
        scanAcc op ((qs ++ ps).map val), (scanFold op ((qs ++ ps).map val)).2) := by
  induction ps generalizing qs with
  | nil =>
    rw [List.append_nil]
    cases qs.map val <;> rfl
  | cons l ps ih =>
    obtain ⟨hlt, hle⟩ := filter_lt_middle h
    have happ : qs ++ l :: ps = qs ++ [l] ++ ps := List.append_cons ..
    have hrest := ih (qs ++ [l]) (happ ▸ h)
    rw [← happ, List.map_append, List.map_singleton] at hrest
    rw [List.map_cons, List.map_cons, scanGo_cons, hrest, hlt, hle, List.map_append (l₁ := qs) (l₂ := [l]), List.map_singleton]
    simp only [List.map_eq_nil_iff]

theorem scanGo_eq {ps : List Nat} (h : ps.Pairwise (· < ·)) :
    scanGo op none 0 (ps.map (fun l => (l, val l))) =
      (ps.map (fun l => (l,
          if ps.filter (· < l) = [] then scanIdent op else (scanFold op ((ps.filter (· < l)).map val)).1,
          (scanFold op ((ps.filter (· ≤ l)).map val)).1)),
        scanAcc op (ps.map val), (scanFold op (ps.map val)).2) :=
  scanGo_behind op val [] ps h

end

section
variable {s : State} {c g pc : Nat} {p : Pred} {op : ScanOp} {d a b : GReg} (h : GangIssues s c g pc)
include h

theorem exec_scan {excl : Bool} (hr : RegsReady s c g pc (.scan p excl op d a b)) :
    let x := (s.core c).gangAt g
    let ps := takingPart s c g pc (.scan p excl op d a b) b
    let fold := fun (ls : List Nat) => scanFold op (ls.map (fun l => x.reg l a.toNat))
    ∃ t, exec (.scan p excl op d a b) s = .next t ∧ LaneEffect s t c g pc (.scan p excl op d a b)
      (fun k => k.orFlags (fold ps).2) (fun _ => onward pc) [d.toNat]
      (fun l r => if l ∈ ps then
        (if excl then (if ps.filter (· < l) = [] then scanIdent op else (fold (ps.filter (· < l))).1)
          else (fold (ps.filter (· ≤ l))).1)
        else x.reg l r) := by
  intro x ps fold
  refine collective_setR h hr (rfl : _ = execScan p excl op d a b s) ?_
  have hgo := scanGo_eq op (fun l => x.reg l a.toNat) (takingPart_pairwise_lt s c g pc (.scan p excl op d a b) b)
  change (((scanGo op none 0 (ps.map fun l => (l, x.reg l a.toNat))).1.foldl
      (fun y e => setR y e.1 d (if excl then e.2.1 else e.2.2)) x,
    (scanGo op none 0 (ps.map fun l => (l, x.reg l a.toNat))).2.2) : Gang × Nat) = _
  rw [hgo, List.foldl_map]

theorem exec_lred (hr : RegsReady s c g pc (.lred p op d a b)) :
    let x := (s.core c).gangAt g
    let ps := takingPart s c g pc (.lred p op d a b) b
    let fold := fun (ls : List Nat) => scanFold op (ls.map (fun l => x.reg l a.toNat))
    ∃ t, exec (.lred p op d a b) s = .next t ∧ LaneEffect s t c g pc (.lred p op d a b)
      (fun k => k.orFlags (fold ps).2) (fun _ => onward pc) [d.toNat]
      (fun l r => if l ∈ ps then (fold ps).1 else x.reg l r) := by
  intro x ps fold
  refine collective_setR h hr (rfl : _ = execLred p op d a b s) ?_
  have hgo := scanGo_eq op (fun l => x.reg l a.toNat) (takingPart_pairwise_lt s c g pc (.lred p op d a b) b)
  have hacc : (scanAcc op (ps.map fun l => x.reg l a.toNat)).getD 0 = (fold ps).1 := by
    unfold scanAcc
    split
    next hnil => rw [show fold ps = (0, 0) from congrArg (scanFold op) hnil]; rfl
    next => rfl
  change ((ps.foldl (fun y l => setR y l d
      ((scanGo op none 0 (ps.map fun l => (l, x.reg l a.toNat))).2.1.getD 0)) x,
    (scanGo op none 0 (ps.map fun l => (l, x.reg l a.toNat))).2.2) : Gang × Nat) = _
  rw [hgo, hacc]

end

/-- Settles O34: each collective writes in its participants, from what they held before; the lanes of a scan are
combined in ascending order. -/
theorem laneCollectives : Obligations.LaneCollectives := by
  intro s c g pc p ka d a b e delta h x act parts keep yes votes counts
  refine ⟨?all, ?any, ?ballot, ?count, fun fn hr => exec_shfl h hr, fun op => ?scans⟩
  case all =>
    intro hr
    have key := collective_setK h hr (rfl : _ = execVote p .all d ka b s) rfl
    rw [orFlags_none, length_filter_beq] at key
    exact key
  case any =>
    intro hr
    have key := collective_setK h hr (rfl : _ = execVote p .any d ka b s) rfl
    rw [orFlags_none, not_isEmpty_filter] at key
    exact key
  case ballot =>
    intro hr
    have key := collective_setR h hr (rfl : _ = execVote p .ballot d ka b s) rfl
    rw [orFlags_none] at key
    exact key
  case count =>
    intro hr
    have key := collective_setR h hr (rfl : _ = execVote p .count d ka b s) rfl
    rw [orFlags_none] at key
    exact key
  case scans =>
    exact ⟨fun hr => exec_scan h hr, fun hr => exec_scan h hr, fun hr => exec_lred h hr⟩

end Sys2Proof.Machine
end

section
/-! What a lane instruction comes to whose registers pass, and what a counted batch leaves of its gang. -/
namespace Sys2Proof.Machine

/-! ## Registers that pass (R152, R157) -/

/-- The registers of the instruction lie below the bound, and none is pending in an active lane. -/
def RegsClear (s : State) (c g pc : Nat) (i : Instr) : Prop :=
  (∀ u ∈ laneRegs i, u.top < ((s.core c).gangAt g).bound) ∧
  ∀ l ∈ (batchOf s c g pc i).act, ∀ u ∈ laneRegs i, ∀ r ∈ u.nums, regKey l r ∉ ((s.core c).gangAt g).pend

theorem RegsReady.clear {s : State} {c g pc : Nat} {i : Instr} (h : RegsReady s c g pc i) : RegsClear s c g pc i := h.2

theorem regsClear_of_none {s : State} {c g pc : Nat} {i : Instr} (h : laneRegs i = []) : RegsClear s c g pc i := by
  rw [RegsClear, h]
  exact ⟨nofun, fun _ _ => nofun⟩

section
variable {s s1 : State} {c g pc : Nat} {i : Instr} {f : Batch → State → LaneRes} (h : GangIssues s c g pc)
  (hr : RegsClear s c g pc i) (hexec : exec i s = .next (issueLane i f s))
include h hr

theorem issueLane_clear : issueLane i f s = match f (batchOf s c g pc i) s with
    | .go s1 => countBatch s1 (batchOf s c g pc i)
    | .stall s1 => stallBatch s1 (batchOf s c g pc i)
    | .stop _ st => takeStop s c st := by
  obtain ⟨hbound, hpend⟩ := hr
  exact (issueLane_checks h f).trans ((if_neg fun ⟨u, hu, hle⟩ => Nat.not_le.mpr (hbound u hu) hle).trans
    (if_neg fun ⟨l, hl, u, hu, r, hr, hp⟩ => hpend l hl u hu r hr hp))

include hexec

theorem exec_goes (hf : f (batchOf s c g pc i) s = .go s1) :
    exec i s = .next (countBatch s1 (batchOf s c g pc i)) := by
  rw [hexec, issueLane_clear h hr, hf]

theorem exec_stalls (hf : f (batchOf s c g pc i) s = .stall s1) :
    exec i s = .next (stallBatch s1 (batchOf s c g pc i)) := by
  rw [hexec, issueLane_clear h hr, hf]

theorem exec_stops {l : Nat} {st : Stop} (hf : f (batchOf s c g pc i) s = .stop l st) :
    exec i s = .next (takeStop s c st) := by
  rw [hexec, issueLane_clear h hr, hf]

theorem exec_traps {l : Nat} {cause : Cause} (hf : f (batchOf s c g pc i) s =
      .stop l (.trap { laneTrap (s.core c) g l pc (encWords i).1 with cause := cause })) :
    exec i s = .next (laneTrapped s c g pc i l cause) := exec_stops h hr hexec hf

end

/-! ## A batch is counted (R138, R139) -/

/-- The gang once its batch has issued: the lanes that have not ended wait anew, and a lane cycle is counted. -/
def countedGang (halted : Bool) (b : Batch) (x : Gang) : Gang :=
  { modFibres x (b.lanes.filter (fun l => (x.fibre l).st != .ended)) (fun f => { f with stamp := x.cycle }) with
    cycle := x.cycle + 1, skid := if halted && decide (x.skid < 24) then x.skid + 1 else x.skid,
    stepOver := x.stepOver.filter (fun l => !b.lanes.contains l) }

theorem countBatch_eq (s : State) (b : Batch) : countBatch s b =
    gangSettle (modGang s b.c b.g (countedGang (s.core b.c).halt.isSome b)) b.c b.g := rfl

theorem countedGang_rest (halted : Bool) (b : Batch) (x : Gang) : countedGang halted b x =
    { x with fibres := (countedGang halted b x).fibres, cycle := (countedGang halted b x).cycle,
             skid := (countedGang halted b x).skid, stepOver := (countedGang halted b x).stepOver } := by
  rw [countedGang, modFibres_eq]

theorem countedGang_fibre {halted : Bool} {b : Batch} {x : Gang} (hn : b.lanes.Nodup) (l : Nat) :
    (countedGang halted b x).fibre l =
      if l ∈ b.lanes ∧ (x.fibre l).st ≠ .ended then { x.fibre l with stamp := x.cycle } else x.fibre l := by
  have hmem : l ∈ b.lanes.filter (fun l => (x.fibre l).st != .ended) ↔ l ∈ b.lanes ∧ (x.fibre l).st ≠ .ended := by
    rw [List.mem_filter, bne_iff_ne]
  split
  next hl => exact modFibres_fibre_in (hn.filter _) (hmem.mpr hl)
  next hl => exact modFibres_fibre_out fun h => hl (hmem.mp h)

theorem countedGang_fibre_stamp {halted : Bool} {b : Batch} {x : Gang} (hn : b.lanes.Nodup) (l : Nat) :
    ∃ n, (countedGang halted b x).fibre l = { x.fibre l with stamp := n } := by
  rw [countedGang_fibre hn]
  split
  · exact ⟨_, rfl⟩
  · exact ⟨_, rfl⟩

theorem countedGang_reg (halted : Bool) (b : Batch) (x : Gang) (l r : Nat) :
    (countedGang halted b x).reg l r = x.reg l r :=
  modFibres_reg (f := fun f => { f with stamp := x.cycle }) (fun _ => rfl) l r

theorem arrivedAt_countedGang {halted : Bool} {b : Batch} {x : Gang} (hn : b.lanes.Nodup) (l : Nat) :
    arrivedAt ((countedGang halted b x).fibre l) = arrivedAt (x.fibre l) := by
  obtain ⟨n, hn⟩ := countedGang_fibre_stamp (halted := halted) (x := x) hn l
  rw [hn]
  rfl

theorem mem_liveLanes {x : Gang} {l : Nat} : l ∈ liveLanes x ↔ l < 32 ∧ (x.fibre l).st ≠ .ended := by
  simp [liveLanes, allLanes]

theorem lanes_live {s : State} {c g pc l : Nat} {i : Instr} (hl : l ∈ (batchOf s c g pc i).lanes) :
    l ∈ liveLanes ((s.core c).gangAt g) := by
  obtain ⟨hlt, hst, -⟩ := mem_batchLanes.mp hl
  exact mem_liveLanes.mpr ⟨hlt, by rw [hst]; decide⟩

section
variable {s : State} {b : Batch} {c g l : Nat} {k : Core} {z : Gang} (hc : b.c = c) (hg : b.g = g)
include hc hg

theorem countBatch_setGang : countBatch (s.setCore c (k.setGang g z)) b =
    gangSettle (s.setCore c (k.setGang g (countedGang k.halt.isSome b z))) c g := by
  subst hc hg
  rw [countBatch_eq, modGang, State.modCore_setCore, State.core_setCore, Core.gangAt_setGang, Core.setGang_setGang]
  rfl

/-- A counted batch whose gang has a live fibre that has not arrived: no role and no barrier comes due. -/
theorem countBatch_unsettled (hn : b.lanes.Nodup) (hl : l ∈ liveLanes z) (ha : arrivedAt (z.fibre l) = .no) :
    countBatch (s.setCore c (k.setGang g z)) b =
      s.setCore c (k.setGang g (countedGang k.halt.isSome b z)) := by
  obtain ⟨hlt, hst⟩ := mem_liveLanes.mp hl
  rw [countBatch_setGang hc hg]
  refine gangSettle_of_running hlt ?_ ?_
  · rw [State.core_setCore, Core.gangAt_setGang]
    obtain ⟨n, hf⟩ := countedGang_fibre_stamp (halted := k.halt.isSome) (x := z) hn l
    rw [hf]
    exact hst
  · rw [State.core_setCore, Core.gangAt_setGang, arrivedAt_countedGang hn]
    exact ha

end

/-! ## A core changed, and nothing else -/

/-- The devices s and t are the same but for core c. -/
def Elsewhere (s t : State) (c : Nat) : Prop := ∀ k, t.setCore c k = s.setCore c k

namespace Elsewhere
variable {s t u : State} {c : Nat}

theorem refl (s : State) (c : Nat) : Elsewhere s s c := fun _ => rfl

theorem trans (h : Elsewhere s t c) (h' : Elsewhere t u c) : Elsewhere s u c := fun k => (h' k).trans (h k)

theorem modCore (s : State) (c : Nat) (f : Core → Core) : Elsewhere s (s.modCore c f) c := fun k =>
  State.setCore_modCore s c k f

theorem mem (h : Elsewhere s t c) : t.mem = s.mem :=
  (congrArg State.mem (h (s.core c)) : (t.setCore c (s.core c)).mem = (s.setCore c (s.core c)).mem)

theorem sameMem (h : Elsewhere s t c) : SameMem s t := fun a => by rw [h.mem]

theorem core_other (h : Elsewhere s t c) {o : Nat} (ho : o ≠ c) : t.core o = s.core o := by
  rw [← State.core_setCore_other t (s.core c) ho, h, State.core_setCore_other s (s.core c) ho]

theorem modGang (h : Elsewhere s t c) (g : Nat) (f : Gang → Gang) :
    modGang t c g f = s.setCore c ((t.core c).setGang g (f ((t.core c).gangAt g))) := h _

theorem foldl {α : Type} {f : State → α → State} (hf : ∀ s a, Elsewhere s (f s a) c) (l : List α) (s : State) :
    Elsewhere s (l.foldl f s) c := by
  induction l generalizing s with
  | nil => exact refl s c
  | cons a l ih => exact (hf s a).trans (ih _)

end Elsewhere

theorem elsewhere_keepVa (s : State) (c va : Nat) (a : Acc) : Elsewhere s (keepVa s c va a) c := by
  unfold keepVa
  split
  · exact .modCore s c _
  · exact .refl s c

/-- An access that keeps its translation changes nothing else of its core (R216). -/
theorem core_keepVa (s : State) (c va : Nat) (a : Acc) :
    (keepVa s c va a).core c = { s.core c with trans := ((keepVa s c va a).core c).trans } := by
  unfold keepVa
  split
  · rw [keepTrans, State.core_modCore]
    unfold Core.keepTrans
    split <;> rfl
  · rfl

end Sys2Proof.Machine
end

section
/-! TISSUE issues a nested command (R144, R203). -/
namespace Sys2Proof.Machine

/-- The agent of a nested command: its lane, at the command's place (R203). -/
def nestEnv (s : State) (c g : Nat) (lanes : List Nat) (l : Nat) : Env :=
  { c := c, who := .fibre g l, pre := s, base := (((s.core c).gangAt g).cmd.map (·.baddr)).getD 0, next := 0,
    lanes := lanes }

/-- The wait of a batch at its TISSUE, for its lowest active lane (R203). -/
def tissueWait (s : State) (c g pc : Nat) (p : Pred) (k96 : Bool) (a b : GReg) (l : Nat) : NestWait :=
  let x := (s.core c).gangAt g
  { lane := l, lanes := (batchOf s c g pc (.tissue p k96 a b)).lanes, lo := x.pair l a.toNat,
    hi := if k96 then x.reg l b.toNat else 0, word := (encWords (.tissue p k96 a b)).1, forGang := false }

/-! ## What the word of a nested command is -/

/-- R203: a word that TISSUE may issue, and the slot that it is. -/
structure Nestable (k : Core) (k96 : Bool) (w : NestWait) (y : SlotSem) : Prop where
  slot : slotOf k (opcClass (opcOf w.lo)) w.lo w.hi = some y
  notC : opcClass (opcOf w.lo) ≠ .c
  spe : (guardOf w.lo).spe = false
  qsel : (guardOf w.lo).qsel = 0
  wide : k96 = true → opcClass (opcOf w.lo) = .k
  legal : y.legal k = true
  good : nestBad y.i = false

/-- R152, R157: the scalars of a nested command are pairs of its lane below the bound, and none is pending. -/
def NestRegs (x : Gang) (l : Nat) (y : SlotSem) : Prop :=
  ∀ r ∈ nestScalars y.i, 2 * r.toNat + 1 < x.bound ∧ regKey l (2 * r.toNat) ∉ x.pend ∧
    regKey l (2 * r.toNat + 1) ∉ x.pend

/-- The operands of a command for a gang slot (R142). -/
def NestWait.descs (w : NestWait) : List Desc := [fld w.lo 16 16, fld w.lo 32 16, fld w.lo 48 16]

/-- R143: the rings of a command for a gang slot are ready, and no mark of another command stands on them. -/
def NestRings (k : Core) (w : NestWait) : Prop :=
  let pr := k.prickAt (opcOf w.lo)
  descsReady k pr w.descs = true ∧ marksFree k (inRings pr w.descs) (outRings pr w.descs) = true

section
variable {s : State} {b : Batch} {w : NestWait} {y : SlotSem} {k96 : Bool}
  (hy : Nestable (s.core b.c) k96 w y)
include hy

/-- A slot whose opcode has no binding. -/
theorem nestIssue_unbound (hkind : ((s.core b.c).prickAt (opcOf w.lo)).kind = 0) :
    nestIssue b w s = nestTrap b w s .unbound := by
  simp only [nestIssue, hy.slot, hy.legal, hy.good, hkind, Bool.not_true, Bool.or_self, Bool.false_eq_true, if_false,
    if_true]

/-- A command whose opcode is bound and whose registers are ready goes to a gang slot, or to its engine. -/
theorem nestIssue_bound (hregs : NestRegs (b.gang s) w.lane y)
    (hkind : ((s.core b.c).prickAt (opcOf w.lo)).kind ≠ 0) :
    let e := nestEnv s b.c b.g b.lanes w.lane
    nestIssue b w s =
      if runsOnGang (s.core b.c) (opcClass (opcOf w.lo)) (opcOf w.lo) then nestDispatch b w e y (opcOf w.lo) s
      else if !y.ready e s then .go (nestWait b { w with forGang := false } (y.poll e s true))
      else match y.check e s with
        | some st => nestStop b w st
        | none => .go (awaitChild b (y.post e (charge b.c (y.weight e) (y.eff e s)))) := by
  have hbound : (nestScalars y.i).any (fun r => decide ((b.gang s).bound ≤ 2 * r.toNat + 1)) = false :=
    List.any_eq_false.mpr fun r hr => by simpa using (hregs r hr).1
  have hpend : (nestScalars y.i).any (fun r => (b.gang s).pend.contains (regKey w.lane (2 * r.toNat)) ||
      (b.gang s).pend.contains (regKey w.lane (2 * r.toNat + 1))) = false :=
    List.any_eq_false.mpr fun r hr => by simpa using (hregs r hr).2
  simp only [nestIssue, hy.slot, hy.legal, hy.good, hkind, hbound, hpend, Bool.not_true, Bool.or_self,
    Bool.false_eq_true, if_false]
  rfl

variable (hregs : NestRegs (b.gang s) w.lane y)
include hregs

section
variable (hkind : ((s.core b.c).prickAt (opcOf w.lo)).kind = 1) (hs : opcClass (opcOf w.lo) ≠ .s)
include hkind hs

/-- A command of the lane's engines comes to its own effect, or waits for what it needs. -/
theorem nestIssue_engine :
    let e := nestEnv s b.c b.g b.lanes w.lane
    nestIssue b w s =
      if !y.ready e s then .go (nestWait b { w with forGang := false } (y.poll e s true))
      else match y.check e s with
        | some st => nestStop b w st
        | none => .go (awaitChild b (y.post e (charge b.c (y.weight e) (y.eff e s)))) := by
  have hengine : runsOnGang (s.core b.c) (opcClass (opcOf w.lo)) (opcOf w.lo) = false := by
    rw [runsOnGang, hkind, beq_eq_false_iff_ne.mpr hs]
    rfl
  exact (nestIssue_bound hy hregs (by rw [hkind]; decide)).trans (if_neg (by rw [hengine]; exact Bool.false_ne_true))

theorem nestIssue_engine_goes (hready : y.ready (nestEnv s b.c b.g b.lanes w.lane) s = true)
    (hcheck : y.check (nestEnv s b.c b.g b.lanes w.lane) s = none) :
    nestIssue b w s = .go (awaitChild b (y.post (nestEnv s b.c b.g b.lanes w.lane)
      (charge b.c (y.weight (nestEnv s b.c b.g b.lanes w.lane)) (y.eff (nestEnv s b.c b.g b.lanes w.lane) s)))) := by
  rw [nestIssue_engine hy hregs hkind hs, hready, hcheck]
  rfl

theorem nestIssue_engine_waits (hready : y.ready (nestEnv s b.c b.g b.lanes w.lane) s = false) :
    nestIssue b w s = .go (nestWait b { w with forGang := false }
      (y.poll (nestEnv s b.c b.g b.lanes w.lane) s true)) := by
  rw [nestIssue_engine hy hregs hkind hs, hready]
  rfl

end

section
variable (hkind : ((s.core b.c).prickAt (opcOf w.lo)).kind = 2 ∨
  ((s.core b.c).prickAt (opcOf w.lo)).kind = 1 ∧ opcClass (opcOf w.lo) = .s)
include hkind

/-- A command of a routine or of library code is for a gang slot. -/
theorem nestIssue_gang :
    nestIssue b w s = nestDispatch b w (nestEnv s b.c b.g b.lanes w.lane) y (opcOf w.lo) s := by
  have hbound : ((s.core b.c).prickAt (opcOf w.lo)).kind ≠ 0 := by
    rcases hkind with h2 | ⟨h1, -⟩
    · rw [h2]; decide
    · rw [h1]; decide
  refine (nestIssue_bound hy hregs hbound).trans (if_pos ?_)
  rw [runsOnGang, Bool.or_eq_true, Bool.and_eq_true, beq_iff_eq, beq_iff_eq, beq_iff_eq]
  exact hkind.imp_right And.symm

theorem nestIssue_gang_deep (hdepth : ((s.core b.c).gangAt b.g).depth = 2) :
    nestIssue b w s = nestTrap b w s .nest := by
  rw [nestIssue_gang hy hregs hkind]
  exact if_pos (beq_iff_eq.mpr hdepth)

variable (hdepth : ((s.core b.c).gangAt b.g).depth ≠ 2)
include hdepth

theorem nestIssue_gang_waits (hrings : ¬ NestRings (s.core b.c) w) :
    nestIssue b w s = .go (nestWait b { w with forGang := false } s) := by
  rw [nestIssue_gang hy hregs hkind]
  refine (if_neg fun hd => hdepth (beq_iff_eq.mp hd)).trans (if_pos ?_)
  rw [Bool.not_eq_true', ← Bool.not_eq_true, Bool.and_eq_true]
  exact hrings

theorem nestIssue_gang_starts {n : Nat} (hrings : NestRings (s.core b.c) w)
    (hcheck : y.check (nestEnv s b.c b.g b.lanes w.lane) s = none) (hn : freeGang (s.core b.c) = some n) :
    let e := nestEnv s b.c b.g b.lanes w.lane
    let pr := (s.core b.c).prickAt (opcOf w.lo)
    nestIssue b w s = .go (awaitChild b (charge b.c (y.weight e) (startGang s b.c n 2
      (mkSCmd (s.core b.c) n (opcOf w.lo) w.lo w.hi (rdScal e (fld w.lo 11 5)) e.base pr
        w.descs (if pr.kind = 1 then some y.i else none)
        (some (b.g, b.lanes)) none)))) := by
  rw [nestIssue_gang hy hregs hkind]
  refine (if_neg fun hd => hdepth (beq_iff_eq.mp hd)).trans ((if_neg ?_).trans ?_)
  · rw [Bool.not_eq_true', ← Bool.not_eq_true, Bool.and_eq_true, not_not]
    exact hrings
  · rw [hcheck, hn]
    rfl

end
end

/-! ## TISSUE -/

section
variable {s : State} {c g pc : Nat} {p : Pred} {k96 : Bool} {a b : GReg} {l : Nat} {ls : List Nat}
  (h : GangIssues s c g pc) (hr : RegsReady s c g pc (.tissue p k96 a b))
  (hact : (batchOf s c g pc (.tissue p k96 a b)).act = l :: ls)
include h hr hact

/-- A C-slot word is no command of a lane. -/
theorem exec_tissue_c (hc : opcClass (opcOf (tissueWait s c g pc p k96 a b l).lo) = .c) :
    exec (.tissue p k96 a b) s = .next (laneTrapped s c g pc (.tissue p k96 a b) l .illegal) := by
  refine exec_traps h hr.clear (rfl : _ = execTissue p k96 a b s) ?_
  dsimp only
  unfold tissueRun
  rw [hact]
  exact if_pos (by rw [Bool.or_eq_true, Bool.or_eq_true, Bool.or_eq_true]; exact .inl (.inl (.inl (beq_iff_eq.mpr hc))))

variable {y : SlotSem} (hy : Nestable (s.core c) k96 (tissueWait s c g pc p k96 a b l) y)
include hy

omit h hr in
theorem tissueRun_nests :
    tissueRun (batchOf s c g pc (.tissue p k96 a b)) (.tissue p k96 a b) k96 a b s =
      nestIssue (batchOf s c g pc (.tissue p k96 a b)) (tissueWait s c g pc p k96 a b l) s := by
  unfold tissueRun
  rw [hact]
  refine if_neg ?_
  rw [Bool.or_eq_true, Bool.or_eq_true, Bool.or_eq_true, beq_iff_eq, bne_iff_ne, Bool.and_eq_true, bne_iff_ne]
  rintro (((hc | hspe) | hqsel) | ⟨hk, hwide⟩)
  · exact hy.notC hc
  · exact Bool.false_ne_true (hy.spe.symm.trans hspe)
  · exact hqsel hy.qsel
  · exact hwide (hy.wide hk)

theorem exec_tissue_goes {s1 : State} (hn : nestIssue (batchOf s c g pc (.tissue p k96 a b))
      (tissueWait s c g pc p k96 a b l) s = .go s1) :
    exec (.tissue p k96 a b) s = .next (countBatch s1 (batchOf s c g pc (.tissue p k96 a b))) :=
  exec_goes h hr.clear (rfl : _ = execTissue p k96 a b s) ((tissueRun_nests hact hy).trans hn)

theorem exec_tissue_traps {cause : Cause} (hn : nestIssue (batchOf s c g pc (.tissue p k96 a b))
      (tissueWait s c g pc p k96 a b l) s =
        nestTrap (batchOf s c g pc (.tissue p k96 a b)) (tissueWait s c g pc p k96 a b l) s cause) :
    exec (.tissue p k96 a b) s = .next (laneTrapped s c g pc (.tissue p k96 a b) l cause) :=
  exec_traps h hr.clear (rfl : _ = execTissue p k96 a b s) ((tissueRun_nests hact hy).trans hn)

end

/-- Settles O40: a word that TISSUE may issue comes to what its engine or its gang slot makes of it, and the others
trap. -/
theorem tissueIssues : Obligations.TissueIssues := by
  intro s c g pc p k96 a b l ls i k x bt w hi opc cls e nw fits regs pr ds rings h hr hact
  have hfits : ∀ y, fits y → Nestable k k96 nw y := fun y ⟨hslot, hc, hspe, hqsel, hwide, hlegal, hgood⟩ =>
    ⟨hslot, hc, hspe, hqsel, hwide, hlegal, hgood⟩
  refine ⟨fun y hf hregs hkind hs => ?engine, fun y hf hregs hkind => ?gang, exec_tissue_c h hr hact,
    fun y hf hkind => exec_tissue_traps h hr hact (hfits y hf) (nestIssue_unbound (hfits y hf) hkind)⟩
  case engine =>
    exact ⟨fun hready hcheck => exec_tissue_goes h hr hact (hfits y hf)
        (nestIssue_engine_goes (hfits y hf) hregs hkind hs hready hcheck),
      fun hready => exec_tissue_goes h hr hact (hfits y hf)
        (nestIssue_engine_waits (hfits y hf) hregs hkind hs hready)⟩
  case gang =>
    exact ⟨fun hdepth => exec_tissue_traps h hr hact (hfits y hf)
        (nestIssue_gang_deep (hfits y hf) hregs hkind hdepth),
      fun hdepth => ⟨fun hrings => exec_tissue_goes h hr hact (hfits y hf)
          (nestIssue_gang_waits (hfits y hf) hregs hkind hdepth hrings),
        fun n hrings hcheck hn => exec_tissue_goes h hr hact (hfits y hf)
          (nestIssue_gang_starts (b := bt) (w := nw) (hfits y hf) hregs hkind hdepth hrings hcheck hn)⟩⟩

end Sys2Proof.Machine
end

section
/-! Lane loads, atomics and LWAIT start (R186, R192 to R195, R204). -/
namespace Sys2Proof.Machine

/-! ## What a start changes of its core (R160, R216, R251) -/

/-- The translations of an atomic stay with its core. -/
def holdTrans (c : Nat) (m : LAcc) (es : List (Nat × Space × Nat)) (s : State) : State :=
  if m.acc = .atomic then es.foldl (fun s e => if e.2.1 = .gm then keepVa s c e.2.2 .atomic else s) s else s

/-- What each lane has read ahead is read anew, but for what its own load finds. -/
def passAhead (g : Nat) (m : LAcc) (es : List (Nat × Space × Nat)) (k : Core) : Core :=
  es.foldl (fun k e =>
    if m.acc = .atomic then k.dropAhead (.fibre g e.1)
    else k.loadPast (.fibre g e.1) m.oh.toNat e.2.1 e.2.2 m.n) k

section
variable (c g : Nat) (m : LAcc) (es : List (Nat × Space × Nat))

theorem elsewhere_holdTrans (s : State) : Elsewhere s (holdTrans c m es s) c := by
  unfold holdTrans
  split
  · refine .foldl (fun s e => ?_) es s
    split
    · exact elsewhere_keepVa s c _ _
    · exact .refl s c
  · exact .refl s c

theorem core_holdTrans (s : State) :
    (holdTrans c m es s).core c = { s.core c with trans := ((holdTrans c m es s).core c).trans } := by
  unfold holdTrans
  split
  · induction es generalizing s with
    | nil => rfl
    | cons e es ih =>
      rw [List.foldl_cons, ih]
      split
      · rw [core_keepVa]
      · rfl
  · rfl

theorem holdTrans_of_ne (h : m.acc ≠ .atomic) (s : State) : holdTrans c m es s = s := if_neg h

theorem passAhead_keeps (k : Core) : passAhead g m es k = { k with ahead := (passAhead g m es k).ahead } := by
  induction es generalizing k with
  | nil => rfl
  | cons e es ih =>
    rw [passAhead, List.foldl_cons, ← passAhead, ih]
    split <;> rfl

/-- What another agent has read ahead stays. -/
theorem mem_passAhead {k : Core} {r : Ahead} (hr : r ∈ k.ahead) (hne : ∀ e ∈ es, r.agent ≠ .fibre g e.1) :
    r ∈ (passAhead g m es k).ahead := by
  induction es generalizing k with
  | nil => exact hr
  | cons e es ih =>
    have he := hne e List.mem_cons_self
    rw [passAhead, List.foldl_cons, ← passAhead]
    refine ih ?_ fun e' he' => hne e' (List.mem_cons_of_mem e he')
    split
    · exact List.mem_filter.mpr ⟨hr, bne_iff_ne.mpr he⟩
    · exact List.mem_filter.mpr ⟨hr, by rw [bne_iff_ne.mpr he]; rfl⟩

end

/-! ## The batch that waits -/

/-- The addresses that the active lanes ask for. -/
def askedAddrs (s : State) (b : Batch) (m : LAcc) : List (Nat × Space × Nat) :=
  b.act.map (fun l => (l, lSpace b.c m, lAddr s b m l))

/-- The operation of a batch that starts (R204). -/
def startedOp (s : State) (b : Batch) (i : Instr) (m : LAcc) : LaneOp :=
  { i := i, pc := b.pc, lanes := b.lanes, addrs := askedAddrs s b m,
    deps := (askedAddrs s b m).flatMap (fun e =>
      if m.acc = .atomic then storeDeps (s.core b.c) (.fibre b.g e.1) m.oh.toNat e.2.1 e.2.2 m.n true
      else loadDeps (s.core b.c) (.fibre b.g e.1) m.oh.toNat),
    got := [], bad := [], since := (b.gang s).cycle }

/-- The gang of a batch that waits for an operation. -/
def waitingGang (b : Batch) (op : LaneOp) (x : Gang) : Gang :=
  { modFibres x b.lanes (fun f => { f with st := .waiting }) with ops := x.ops ++ [op] }

theorem waitingGang_fibre {b : Batch} (hn : b.lanes.Nodup) (op : LaneOp) (x : Gang) (l : Nat) :
    (waitingGang b op x).fibre l = if l ∈ b.lanes then { x.fibre l with st := .waiting } else x.fibre l := by
  split
  next hl => exact modFibres_fibre_in hn hl
  next hl => exact modFibres_fibre_out hl

theorem waitingGang_reg (b : Batch) (op : LaneOp) (x : Gang) (l r : Nat) :
    (waitingGang b op x).reg l r = x.reg l r :=
  modFibres_reg (f := fun f => { f with st := .waiting }) (fun _ => rfl) l r

section
variable {s : State} {c g pc : Nat} {i : Instr} {m : LAcc} (h : GangIssues s c g pc) (hr : RegsReady s c g pc i)
  (hexec : exec i s = startOp i m s)
include h hr hexec

/-- The lowest active lane whose access is stopped stops its instruction. -/
theorem startOp_stops {l : Nat} {st : Stop} (hstop : lFirstStop s (batchOf s c g pc i) i m = some (l, st)) :
    exec i s = .next (takeStop s c st) := by
  refine exec_stops h hr.clear hexec (l := l) ?_
  dsimp only
  rw [hstop]

/-- With no active lane, the batch moves on. -/
theorem startOp_idle (hact : (batchOf s c g pc i).act = []) :
    ∃ t, exec i s = .next t ∧ LaneEffect s t c g pc i id (fun _ => onward pc) [] (fun _ _ => 0) := by
  refine lanes_keep h hr (F := id) (put := fun y _ => y) hexec rfl ?_ fun _ _ => rfl
  have hstop : lFirstStop s (batchOf s c g pc i) i m = none := by rw [lFirstStop, hact]; rfl
  dsimp only
  rw [hstop, hact]
  rfl

theorem startOp_waits (hact : (batchOf s c g pc i).act ≠ []) (hstop : lFirstStop s (batchOf s c g pc i) i m = none)
    (hpend : lPendWait s (batchOf s c g pc i) m = false) :
    let b := batchOf s c g pc i
    exec i s = .next (countBatch (modGang ((holdTrans c m (askedAddrs s b m) s).modCore c
      (passAhead g m (askedAddrs s b m))) c g (waitingGang b (startedOp s b i m))) b) := by
  refine exec_goes h hr.clear hexec ?_
  have hne : (batchOf s c g pc i).act.isEmpty = false := List.isEmpty_eq_false_iff.mpr hact
  dsimp only
  rw [hstop, hpend, hne]
  rfl

end

/-- The core of a batch that starts, but for its gang. -/
def startedCore (s : State) (c g : Nat) (m : LAcc) (es : List (Nat × Space × Nat)) : Core :=
  passAhead g m es ((holdTrans c m es s).core c)

section
variable (s : State) (c g : Nat) (m : LAcc) (es : List (Nat × Space × Nat))

theorem startedCore_keeps : startedCore s c g m es =
    { s.core c with trans := (startedCore s c g m es).trans, ahead := (startedCore s c g m es).ahead } := by
  rw [startedCore, passAhead_keeps, core_holdTrans]

theorem startedCore_trans (hacc : m.acc ≠ .atomic) : (startedCore s c g m es).trans = (s.core c).trans := by
  rw [startedCore, passAhead_keeps, holdTrans_of_ne c m es hacc]

theorem mem_ahead_startedCore {r : Ahead} (hr : r ∈ (s.core c).ahead) (hne : ∀ e ∈ es, r.agent ≠ .fibre g e.1) :
    r ∈ (startedCore s c g m es).ahead :=
  mem_passAhead g m es (by rw [core_holdTrans]; exact hr) hne

theorem gangAt_startedCore : (startedCore s c g m es).gangAt g = (s.core c).gangAt g :=
  (congrArg (·.gangAt g) (startedCore_keeps s c g m es) :)

theorem modGang_started (f : Gang → Gang) :
    modGang ((holdTrans c m es s).modCore c (passAhead g m es)) c g f =
      s.setCore c ((startedCore s c g m es).setGang g (f ((s.core c).gangAt g))) := by
  rw [((elsewhere_holdTrans c m es s).trans (.modCore _ c _)).modGang, State.core_modCore, ← startedCore,
    gangAt_startedCore]

end

/-- A batch that waits, and none of whose lanes has arrived anywhere, is counted and no more. -/
theorem countBatch_waiting {s : State} {c g pc : Nat} {i : Instr} {k : Core} {op : LaneOp}
    (hlanes : batchLanes ((s.core c).gangAt g) pc ≠ [])
    (harrived : ∀ l ∈ (batchOf s c g pc i).lanes, (((s.core c).gangAt g).fibre l).arrived = .no) :
    countBatch (s.setCore c (k.setGang g (waitingGang (batchOf s c g pc i) op ((s.core c).gangAt g))))
      (batchOf s c g pc i) =
    s.setCore c (k.setGang g (countedGang k.halt.isSome (batchOf s c g pc i)
      (waitingGang (batchOf s c g pc i) op ((s.core c).gangAt g)))) := by
  have hnodup : (batchOf s c g pc i).lanes.Nodup := batchLanes_nodup _ pc
  obtain ⟨l, hl⟩ := List.exists_mem_of_ne_nil _ hlanes
  have hfib : (waitingGang (batchOf s c g pc i) op ((s.core c).gangAt g)).fibre l =
      { ((s.core c).gangAt g).fibre l with st := .waiting } := by
    rw [waitingGang_fibre hnodup]
    exact if_pos hl
  refine countBatch_unsettled rfl rfl hnodup (l := l) ?_ ?_
  · rw [mem_liveLanes, hfib]
    exact ⟨(mem_batchLanes.mp hl).1, nofun⟩
  · rw [hfib]
    exact harrived l hl

/-- Settles O36: a batch that starts waits with its operation; its core keeps translations, and drops reads ahead. -/
theorem laneLoadsStart : Obligations.LaneLoadsStart := by
  intro s c g pc p sz sx nr w tp oh d a b e off o12 o15 port fn cc sc kd i m h hmem hr x bt harrived
  have hexec : exec i s = startOp i m s := by
    simp only [List.mem_cons, Prod.mk.injEq, List.not_mem_nil, or_false] at hmem
    rcases hmem with ⟨rfl, rfl⟩ | ⟨rfl, rfl⟩ | ⟨rfl, rfl⟩ | ⟨rfl, rfl⟩ | ⟨rfl, rfl⟩ | ⟨rfl, rfl⟩ | ⟨rfl, rfl⟩ |
      ⟨rfl, rfl⟩ | ⟨rfl, rfl⟩ <;> rfl
  refine ⟨fun hact hstop hpend => ?waits, fun l st hstop => startOp_stops h hr hexec hstop,
    fun hact => startOp_idle h hr hexec hact⟩
  case waits =>
    have hnodup : bt.lanes.Nodup := batchLanes_nodup x pc
    have hstart := startOp_waits h hr hexec hact hstop hpend
    dsimp only at hstart
    rw [modGang_started, countBatch_waiting (batchLanes_of_pick h.2.2) harrived] at hstart
    refine ⟨_, startedCore s c g m (askedAddrs s bt m), _, startedOp s bt i m, hstart, rfl, startedCore_keeps ..,
      startedCore_trans s c g m _, fun r hr hne => mem_ahead_startedCore s c g m _ hr ?_, ?_, rfl, rfl, rfl, rfl, rfl,
      rfl, fun l hl => ?_, fun l hl => ?_, fun l r => ?_⟩
    · intro e he
      obtain ⟨l, hl, rfl⟩ := List.mem_map.mp he
      exact hne l hl
    · rw [countedGang_rest]
      rfl
    · have hfib := waitingGang_fibre hnodup (startedOp s bt i m) x l
      rw [if_pos hl] at hfib
      obtain ⟨n, hn⟩ := countedGang_fibre_stamp (halted := (startedCore s c g m (askedAddrs s bt m)).halt.isSome)
        (x := waitingGang bt (startedOp s bt i m) x) hnodup l
      rw [hn, hfib]
      exact ⟨rfl, (mem_batchLanes.mp hl).2.2⟩
    · rw [countedGang_fibre hnodup, if_neg fun hin => hl hin.1, waitingGang_fibre hnodup, if_neg hl]
    · rw [countedGang_reg, waitingGang_reg]

end Sys2Proof.Machine
end

section
/-! Lane stores enter the write buffers (R186 to R188, R249, R250). -/
namespace Sys2Proof.Machine

/-! ## What a store changes of its core -/

/-- Two cores differ at most in translations, reads ahead and write buffers. -/
def StoresOnly (k k' : Core) : Prop :=
  k' = { k with trans := k'.trans, ahead := k'.ahead, nextId := k'.nextId, buf := k'.buf }

namespace StoresOnly
variable {k k' k'' : Core}

theorem refl (k : Core) : StoresOnly k k := rfl

theorem trans (h : StoresOnly k k') (h' : StoresOnly k' k'') : StoresOnly k k'' := by
  unfold StoresOnly at *
  rw [h', h]

theorem foldl {α : Type} {f : Core → α → Core} (hf : ∀ k a, StoresOnly k (f k a)) (l : List α) (k : Core) :
    StoresOnly k (l.foldl f k) := by
  induction l generalizing k with
  | nil => exact refl k
  | cons a l ih => exact (hf k a).trans (ih _)

theorem gangAt (h : StoresOnly k k') (g : Nat) : k'.gangAt g = k.gangAt g := (congrArg (·.gangAt g) h :)
theorem ts (h : StoresOnly k k') : k'.ts = k.ts := (congrArg Core.ts h :)

end StoresOnly

theorem storesOnly_keepVa (s : State) (c va : Nat) (a : Acc) :
    StoresOnly (s.core c) ((keepVa s c va a).core c) := by
  rw [StoresOnly, core_keepVa]

theorem storesOnly_storePast (ag : Agent) (sp : Space) (a n : Nat) (k : Core) : StoresOnly k (k.storePast ag sp a n) :=
  rfl

theorem storesOnly_putStore (g l h : Nat) (sp : Space) (a : Nat) (tr : Trans) (bs : List Byte) (k : Core) :
    StoresOnly k (k.putStore (.fibre g l) h sp a tr bs) := rfl

/-! ## One lane's store -/

/-- What the instruction's store is to its observers: who stores, under which handle, where, and what. -/
def BufStore.what (st : BufStore) : Agent × Nat × Space × Nat × List Byte :=
  (st.agent, st.handle, st.space, st.addr, st.data)

/-- The store of some number stands for lower lanes too, behind what they must follow (R249). -/
def BufStore.standFor (st : BufStore) (n : Nat) (before : List Nat) (lower : List Agent) : BufStore :=
  if st.id = n then { st with deps := st.deps ++ before, also := lower } else st

theorem BufStore.what_standFor (n : Nat) (before : List Nat) (lower : List Agent) (st : BufStore) :
    (st.standFor n before lower).what = st.what := by
  unfold BufStore.standFor
  split <;> rfl

theorem BufStore.id_standFor (n : Nat) (before : List Nat) (lower : List Agent) (st : BufStore) :
    (st.standFor n before lower).id = st.id := by
  unfold BufStore.standFor
  split <;> rfl

theorem BufStore.of_standFor {st : BufStore} {n : Nat} {before : List Nat} {lower : List Agent} {a : Agent}
    (hid : st.id = n) (ha : st.agent = a ∨ a ∈ lower) : (st.standFor n before lower).of a = true := by
  rw [BufStore.standFor, if_pos hid, BufStore.of, Bool.or_eq_true, beq_iff_eq, List.contains_iff_mem]
  exact ha

def Core.standFor (n : Nat) (before : List Nat) (lower : List Agent) (k : Core) : Core :=
  { k with buf := k.buf.map (·.standFor n before lower) }

theorem buf_putStore (g l h : Nat) (sp : Space) (a : Nat) (tr : Trans) (bs : List Byte) (k : Core) :
    ∃ st : BufStore, st.what = (.fibre g l, h, sp, a, bs) ∧ st.id = k.nextId ∧
      (k.putStore (.fibre g l) h sp a tr bs).buf = k.buf ++ [st] :=
  ⟨{ id := k.nextId, agent := .fibre g l, handle := h, space := sp, addr := a, data := bs, tr := tr,
     deps := storeDeps k (.fibre g l) h sp a bs.length false, sent := false }, rfl, rfl, rfl⟩

section
variable (b : Batch) (m : LAcc) (val : Nat → Nat) (t : State) {l : Nat}

/-- The store that a lane of a batch makes. -/
def laneWhat (l : Nat) : Agent × Nat × Space × Nat × List Byte :=
  (.fibre b.g l, m.oh.toNat, lSpace b.c m, lAddr t b m l, leBytes m.n (val l))

/-- The device that a lane's store finds: a translation of global memory stays with the core (R216). -/
def translated (l : Nat) : State := if lSpace b.c m = .gm then keepVa t b.c (lAddr t b m l) .write else t

theorem elsewhere_translated (l : Nat) : Elsewhere t (translated b m t l) b.c := by
  unfold translated
  split
  · exact elsewhere_keepVa t b.c _ _
  · exact .refl t b.c

theorem storesOnly_translated (l : Nat) : StoresOnly (t.core b.c) ((translated b m t l).core b.c) := by
  unfold translated
  split
  · exact storesOnly_keepVa t b.c _ _
  · exact .refl _

theorem buf_translated (l : Nat) : ((translated b m t l).core b.c).buf = (t.core b.c).buf ∧
    ((translated b m t l).core b.c).nextId = (t.core b.c).nextId := by
  unfold translated
  split
  · rw [core_keepVa]
    exact ⟨rfl, rfl⟩
  · exact ⟨rfl, rfl⟩

theorem laneStore_of_lower (h : (sameBytes t b m l).getLast? ≠ some l) : laneStore b m val t l = t := if_pos h

/-- The highest of the lanes that write the same bytes stores for them all (R249). -/
theorem laneStore_eq (h : (sameBytes t b m l).getLast? = some l) : ∃ tr before, laneStore b m val t l =
    (bufferStore (translated b m t l) b.c (.fibre b.g l) m.oh.toNat (lSpace b.c m) (lAddr t b m l) tr
      (leBytes m.n (val l))).modCore b.c (Core.standFor (t.core b.c).nextId before
        ((sameBytes t b m l).dropLast.map (.fibre b.g))) :=
  ⟨_, _, if_neg (not_not.mpr h)⟩

theorem elsewhere_laneStore (l : Nat) : Elsewhere t (laneStore b m val t l) b.c := by
  by_cases h : (sameBytes t b m l).getLast? = some l
  · obtain ⟨tr, before, he⟩ := laneStore_eq b m val t h
    rw [he]
    exact (elsewhere_translated b m t l).trans ((Elsewhere.modCore _ b.c _).trans (.modCore _ b.c _))
  · rw [laneStore_of_lower b m val t h]
    exact .refl t b.c

theorem storesOnly_laneStore (l : Nat) : StoresOnly (t.core b.c) ((laneStore b m val t l).core b.c) := by
  by_cases h : (sameBytes t b m l).getLast? = some l
  · obtain ⟨tr, before, he⟩ := laneStore_eq b m val t h
    rw [he, State.core_modCore, bufferStore_core]
    exact (storesOnly_translated b m t l).trans ((storesOnly_putStore ..).trans rfl)
  · rw [laneStore_of_lower b m val t h]
    exact .refl _

theorem laneStore_enters (h : (sameBytes t b m l).getLast? = some l) :
    ((laneStore b m val t l).core b.c).nextId = (t.core b.c).nextId + 1 ∧
      ∃ (st : BufStore) (before : List Nat), st.what = laneWhat b m val t l ∧ st.id = (t.core b.c).nextId ∧
        ((laneStore b m val t l).core b.c).buf = ((t.core b.c).buf ++ [st]).map
          (·.standFor (t.core b.c).nextId before ((sameBytes t b m l).dropLast.map (.fibre b.g))) := by
  obtain ⟨tr, before, he⟩ := laneStore_eq b m val t h
  obtain ⟨hbuf, hnext⟩ := buf_translated b m t l
  obtain ⟨st, hwhat, hid, hput⟩ := buf_putStore b.g l m.oh.toNat (lSpace b.c m) (lAddr t b m l) tr
    (leBytes m.n (val l)) ((translated b m t l).core b.c)
  rw [he, State.core_modCore, bufferStore_core]
  refine ⟨congrArg (· + 1) hnext, st, before, hwhat, hid.trans hnext, ?_⟩
  rw [Core.standFor, hput, hbuf]

end

/-! ## The stores of a batch -/

/-- In a rising list, the last of those that pass a test is the one that no other exceeds. -/
theorem getLast?_filter_iff {ls : List Nat} (hs : ls.Pairwise (· < ·)) {p : Nat → Bool} {l : Nat} (hl : l ∈ ls)
    (hp : p l = true) : (ls.filter p).getLast? = some l ↔ ∀ q ∈ ls, p q = true → q ≤ l := by
  have hmem : l ∈ ls.filter p := List.mem_filter.mpr ⟨hl, hp⟩
  have hsorted : (ls.filter p).Pairwise (· < ·) := hs.filter p
  obtain ⟨ys, z, hys⟩ : ∃ ys z, ls.filter p = ys ++ [z] :=
    ⟨_, _, (List.dropLast_append_getLast (List.ne_nil_of_mem hmem)).symm⟩
  rw [hys] at hmem hsorted ⊢
  obtain ⟨-, -, hbelow⟩ := List.pairwise_append.mp hsorted
  rw [List.getLast?_concat, Option.some_inj]
  constructor
  · rintro rfl q hq hpq
    have hq' : q ∈ ys ++ [z] := hys ▸ List.mem_filter.mpr ⟨hq, hpq⟩
    rcases List.mem_append.mp hq' with hq' | hq'
    · exact (hbelow q hq' z (List.mem_singleton_self z)).le
    · exact (List.mem_singleton.mp hq').le
  · intro hle
    obtain ⟨hz, hpz⟩ := List.mem_filter.mp (hys ▸ List.mem_append_right ys (List.mem_singleton_self z))
    refine le_antisymm (hle z hz hpz) ?_
    rcases List.mem_append.mp hmem with hl' | hl'
    · exact (hbelow l hl' z (List.mem_singleton_self z)).le
    · exact (List.mem_singleton.mp hl').le

section
variable {b : Batch} {m : LAcc} {val : Nat → Nat} {s t : State} (hgang : b.gang t = b.gang s)
include hgang

theorem lAddr_congr (l : Nat) : lAddr t b m l = lAddr s b m l := by rw [lAddr, hgang, ← lAddr]

theorem sameBytes_congr (l : Nat) : sameBytes t b m l = sameBytes s b m l := by
  simp only [sameBytes, lAddr_congr hgang]

theorem laneWhat_congr (l : Nat) : laneWhat b m val t l = laneWhat b m val s l := by
  simp only [laneWhat, lAddr_congr hgang]

theorem gang_laneStore (l : Nat) : b.gang (laneStore b m val t l) = b.gang s :=
  ((storesOnly_laneStore b m val t l).gangAt b.g).trans hgang

theorem what_laneStore (l : Nat) : ((laneStore b m val t l).core b.c).buf.map BufStore.what =
    (t.core b.c).buf.map BufStore.what ++
      if (sameBytes s b m l).getLast? = some l then [laneWhat b m val s l] else [] := by
  rw [← sameBytes_congr hgang, ← laneWhat_congr hgang]
  split
  next hlast =>
    obtain ⟨-, st, before, hwhat, -, hbuf⟩ := laneStore_enters b m val t hlast
    rw [hbuf, List.map_map]
    simp only [Function.comp_def, BufStore.what_standFor, List.map_append, List.map_singleton, hwhat]
  next hlower => rw [laneStore_of_lower b m val t hlower, List.append_nil]

/-- The stores of the lanes enter one behind the other, one for all the lanes that write the same bytes. -/
theorem what_laneStores (ls : List Nat) : ((ls.foldl (laneStore b m val) t).core b.c).buf.map BufStore.what =
    (t.core b.c).buf.map BufStore.what ++
      (ls.filter (fun l => (sameBytes s b m l).getLast? = some l)).map (laneWhat b m val s) := by
  induction ls generalizing t with
  | nil => exact (List.append_nil _).symm
  | cons l ls ih =>
    rw [List.foldl_cons, ih (gang_laneStore hgang l), what_laneStore hgang, List.append_assoc, List.filter_cons]
    by_cases hlast : (sameBytes s b m l).getLast? = some l
    · rw [if_pos hlast, if_pos (decide_eq_true hlast)]
      rfl
    · rw [if_neg hlast, if_neg (by simpa using hlast)]
      rfl

end

/-- The stores of a core from a number on stand for every active lane that writes their bytes. -/
def Combined (s : State) (b : Batch) (m : LAcc) (n : Nat) (k : Core) : Prop :=
  (∀ st ∈ k.buf, st.id < k.nextId) ∧ ∀ st ∈ k.buf, n ≤ st.id → ∀ q ∈ b.act, lAddr s b m q = st.addr →
    st.of (.fibre b.g q) = true

section
variable {b : Batch} {m : LAcc} {val : Nat → Nat} {s t : State} {n : Nat} (hgang : b.gang t = b.gang s)
include hgang

theorem combined_laneStore (l : Nat) (h : Combined s b m n (t.core b.c)) :
    Combined s b m n ((laneStore b m val t l).core b.c) := by
  by_cases hlast : (sameBytes t b m l).getLast? = some l
  case neg => rwa [laneStore_of_lower b m val t hlast]
  case pos =>
    obtain ⟨hids, hof⟩ := h
    obtain ⟨hnext, st, before, hwhat, hid, hbuf⟩ := laneStore_enters b m val t hlast
    rw [sameBytes_congr hgang] at hlast hbuf
    have hcases : ∀ x ∈ ((laneStore b m val t l).core b.c).buf, x ∈ (t.core b.c).buf ∨
        x = st.standFor (t.core b.c).nextId before ((sameBytes s b m l).dropLast.map (.fibre b.g)) := by
      intro x hx
      rw [hbuf] at hx
      obtain ⟨y, hy, rfl⟩ := List.mem_map.mp hx
      rcases List.mem_append.mp hy with hy | hy
      · exact .inl (by rwa [BufStore.standFor, if_neg (hids y hy).ne])
      · exact .inr (by rw [List.mem_singleton.mp hy])
    refine ⟨fun x hx => ?_, fun x hx hn q hq haddr => ?_⟩
    · rw [hnext]
      rcases hcases x hx with hx | rfl
      · exact (hids x hx).trans (Nat.lt_succ_self _)
      · rw [BufStore.id_standFor, hid]
        exact Nat.lt_succ_self _
    · rcases hcases x hx with hx | rfl
      · exact hof x hx hn q hq haddr
      · rw [← lAddr_congr hgang] at haddr
        have hst := (st.what_standFor (t.core b.c).nextId before
          ((sameBytes s b m l).dropLast.map (.fibre b.g))).trans hwhat
        have hq' : q ∈ sameBytes s b m l := by
          rw [← sameBytes_congr hgang]
          exact List.mem_filter.mpr ⟨hq, beq_iff_eq.mpr (haddr.trans (congrArg (·.2.2.2.1) hst :))⟩
        rw [← List.dropLast_append_getLast? l hlast, List.mem_append, List.mem_singleton] at hq'
        rcases hq' with hlow | rfl
        · exact BufStore.of_standFor hid (.inr (List.mem_map_of_mem hlow))
        · exact BufStore.of_standFor hid (.inl (congrArg (·.1) hwhat :))

theorem combined_laneStores (ls : List Nat) (h : Combined s b m n (t.core b.c)) :
    Combined s b m n ((ls.foldl (laneStore b m val) t).core b.c) := by
  induction ls generalizing t with
  | nil => exact h
  | cons l ls ih => exact ih (gang_laneStore hgang l) (combined_laneStore hgang l h)

end

/-! ## The instruction -/

/-- The device once what each active lane had read ahead of its own bytes is to be read anew. -/
def pastStores (s : State) (b : Batch) (m : LAcc) : State :=
  s.modCore b.c (fun k => b.act.foldl (fun k l => k.storePast (.fibre b.g l) (lSpace b.c m) (lAddr s b m l) m.n) k)

/-- The device once the stores of a batch have entered the buffers. -/
def laneStored (s : State) (b : Batch) (m : LAcc) (val : Nat → Nat) : State :=
  b.act.foldl (laneStore b m val) (pastStores s b m)

section
variable (s : State) (b : Batch) (m : LAcc) (val : Nat → Nat)

theorem storesOnly_pastStores : StoresOnly (s.core b.c) ((pastStores s b m).core b.c) := by
  rw [pastStores, State.core_modCore]
  exact .foldl (fun k l => storesOnly_storePast ..) _ _

theorem buf_pastStores : ((pastStores s b m).core b.c).buf = (s.core b.c).buf ∧
    ((pastStores s b m).core b.c).nextId = (s.core b.c).nextId := by
  rw [pastStores, State.core_modCore]
  generalize s.core b.c = k
  induction b.act generalizing k with
  | nil => exact ⟨rfl, rfl⟩
  | cons l ls ih => exact ih (k.storePast ..)

theorem gang_pastStores : b.gang (pastStores s b m) = b.gang s := (storesOnly_pastStores s b m).gangAt b.g

theorem elsewhere_laneStored : Elsewhere s (laneStored s b m val) b.c :=
  (Elsewhere.modCore s b.c _).trans (.foldl (elsewhere_laneStore b m val) _ _)

theorem storesOnly_laneStored : StoresOnly (s.core b.c) ((laneStored s b m val).core b.c) := by
  have key (ls : List Nat) (t : State) : StoresOnly (t.core b.c) ((ls.foldl (laneStore b m val) t).core b.c) := by
    induction ls generalizing t with
    | nil => exact .refl _
    | cons l ls ih => exact (storesOnly_laneStore b m val t l).trans (ih _)
  exact (storesOnly_pastStores s b m).trans (key _ _)

theorem what_laneStored : ((laneStored s b m val).core b.c).buf.map BufStore.what =
    (s.core b.c).buf.map BufStore.what ++
      (b.act.filter (fun l => (sameBytes s b m l).getLast? = some l)).map (laneWhat b m val s) := by
  rw [laneStored, what_laneStores (gang_pastStores s b m), (buf_pastStores s b m).1]

theorem combined_laneStored (hids : ∀ st ∈ (s.core b.c).buf, st.id < (s.core b.c).nextId) :
    Combined s b m (s.core b.c).nextId ((laneStored s b m val).core b.c) := by
  obtain ⟨hbuf, hnext⟩ := buf_pastStores s b m
  refine combined_laneStores (gang_pastStores s b m) _ ⟨?_, ?_⟩
  · rwa [hbuf, hnext]
  · rw [hbuf]
    exact fun st hst hle => absurd (hids st hst) (Nat.not_lt.mpr hle)

/-- Of the lanes that write the same bytes the highest stores for all (R188, R249). -/
theorem filter_highest (hs : b.act.Pairwise (· < ·)) :
    b.act.filter (fun l => (sameBytes s b m l).getLast? = some l) =
      b.act.filter (fun l => decide (∀ q ∈ b.act, lAddr s b m q = lAddr s b m l → q ≤ l)) := by
  refine List.filter_congr fun l hl => decide_eq_decide.mpr ?_
  rw [sameBytes, getLast?_filter_iff (p := fun q => lAddr s b m q == lAddr s b m l) hs hl (beq_self_eq_true _)]
  simp only [beq_iff_eq]

end

theorem batchOf_act_pairwise (s : State) (c g pc : Nat) (i : Instr) : (batchOf s c g pc i).act.Pairwise (· < ·) :=
  (List.pairwise_lt_range.filter _).filter _

section
variable {s : State} {c g pc : Nat} {i : Instr} {m : LAcc} {val : Gang → Nat → Nat} (h : GangIssues s c g pc)
  (hr : RegsReady s c g pc i) (hexec : exec i s = laneStoreIssue i m val s)
include h hr hexec

theorem laneStoreIssue_stops {l : Nat} {st : Stop} (hstop : lFirstStop s (batchOf s c g pc i) i m = some (l, st)) :
    exec i s = .next (takeStop s c st) := by
  refine exec_stops h hr.clear hexec (l := l) ?_
  dsimp only
  rw [hstop]

theorem laneStoreIssue_goes (hstop : lFirstStop s (batchOf s c g pc i) i m = none)
    (hpend : lPendWait s (batchOf s c g pc i) m = false) :
    let b := batchOf s c g pc i
    let x := (s.core c).gangAt g
    let k := (laneStored s b m (val x)).core c
    exec i s = .next (s.setCore c (k.setGang g (countedGang k.halt.isSome b (b.advance x)))) := by
  intro b x k
  have hgo : exec i s = .next (countBatch (modGang (laneStored s b m (val x)) c g b.advance) b) := by
    refine exec_goes h hr.clear hexec ?_
    dsimp only
    rw [hstop, hpend]
    rfl
  have hgang : k.gangAt g = x := (storesOnly_laneStored s b m (val x)).gangAt g
  have hnodup : b.lanes.Nodup := batchLanes_nodup x pc
  obtain ⟨l, hl⟩ := List.exists_mem_of_ne_nil _ (batchLanes_of_pick h.2.2)
  have hfib : (b.advance x).fibre l = onward pc (x.fibre l) := (advance_fibre s c g pc i x l).trans (if_pos hl)
  obtain ⟨hlt, hready, -⟩ := mem_batchLanes.mp hl
  have hst : ((b.advance x).fibre l).st = .ready := by rw [hfib]; exact hready
  have hmod : modGang (laneStored s b m (val x)) c g b.advance = s.setCore c (k.setGang g (b.advance x)) :=
    ((elsewhere_laneStored s b m (val x)).modGang g b.advance).trans
      (congrArg (fun y => s.setCore c (k.setGang g (b.advance y))) hgang)
  rw [hgo, hmod]
  refine congrArg _ (countBatch_unsettled rfl rfl hnodup (l := l) ?_ ?_)
  · rw [mem_liveLanes, hst]
    exact ⟨hlt, nofun⟩
  · rw [arrivedAt, hst]
    rfl

end

/-! ## The checks of an access (R187) -/

theorem within_eq_false {lo n : Int} {size : Nat} (hout : lo < 0 ∨ (size : Int) < lo + n) :
    within lo n size = false := by
  rw [within, decide_eq_false_iff_not]
  omega

/-- R215: a global address is a pair of registers and an offset, modulo 2^57. -/
theorem lWhere_gm (x : Gang) {m : LAcc} (hsp : m.sp = .gm) (l : Nat) :
    lWhere x m l = (((x.pair l m.a.toNat).toNat % 2 ^ 57 : Nat) + m.off) % 2 ^ 57 := by
  have hraw : lWhere x m l = (addVa (gf (rp x l m.a) 0 57) m.off : Nat) := by
    rw [lWhere, hsp]
    dsimp only
    rw [lRaw, hsp]
  rw [hraw, addVa, Int.toNat_of_nonneg (Int.emod_nonneg _ (by decide)), gf_zero]
  rfl

section
variable {s : State} {b : Batch} {i : Instr} {m : LAcc} {l : Nat}

/-- A check of an access is not met: its lane traps. -/
def LaneTraps (s : State) (b : Batch) (i : Instr) (m : LAcc) (l : Nat) (cause : Cause) : Prop :=
  ∃ t, lStop s b i m l = some (.trap t) ∧ t.cause = cause ∧ t.lane = l

theorem lStop_misaligned (h : lRaw (b.gang s) m l % m.n ≠ 0) : LaneTraps s b i m l .dalign :=
  ⟨_, if_pos h, rfl, rfl⟩

variable (h : lRaw (b.gang s) m l % m.n = 0)
include h

theorem lStop_readOnly {p : Nat} (hsp : m.sp = .port p) (hw : m.acc.writes = true) (hp : p < 3)
    (hout : (gangPort (b.gang s) p).out = false) : LaneTraps s b i m l .portro := by
  refine ⟨_, (if_neg (not_not.mpr h)).trans (if_pos ?_), rfl, rfl⟩
  rw [hsp]
  dsimp only
  rw [hw, hout, decide_eq_true hp]
  rfl

theorem lStop_port_outside {p : Nat} (hsp : m.sp = .port p)
    (hmay : m.acc.writes = false ∨ 3 ≤ p ∨ (gangPort (b.gang s) p).out = true)
    (hout : lRaw (b.gang s) m l < 0 ∨ ((gangPort (b.gang s) p).size : Int) < lRaw (b.gang s) m l + m.n) :
    LaneTraps s b i m l .tsrange := by
  refine ⟨_, (if_neg (not_not.mpr h)).trans ((if_neg ?_).trans (if_pos ?_)), rfl, rfl⟩
  · rw [hsp]
    dsimp only
    rw [Bool.and_eq_true, Bool.and_eq_true, decide_eq_true_eq, Bool.not_eq_true']
    rintro ⟨⟨hw, hp⟩, ho⟩
    rcases hmay with hmay | hmay | hmay
    · exact Bool.false_ne_true (hmay.symm.trans hw)
    · exact Nat.not_lt.mpr hmay hp
    · exact Bool.false_ne_true (ho.symm.trans hmay)
  · rw [hsp]
    dsimp only
    rw [within_eq_false hout]
    rfl

theorem lStop_ts_outside (hsp : m.sp = .ts)
    (hout : lRaw (b.gang s) m l < 0 ∨ ((s.core b.c).share : Int) < lRaw (b.gang s) m l + m.n) :
    LaneTraps s b i m l .tsrange := by
  refine ⟨_, (if_neg (not_not.mpr h)).trans ((if_neg ?_).trans (if_pos ?_)), rfl, rfl⟩
  · rw [hsp]
    exact Bool.false_ne_true
  · rw [hsp]
    dsimp only
    rw [within_eq_false hout]
    rfl

end

/-- Settles O35: the stores of a batch enter the buffers, and the checks come in the order of R187. -/
theorem laneStoresAndChecks : Obligations.LaneStoresAndChecks := by
  refine ⟨fun s c g pc p sz oh a b off port i m h hmem hr => ?stores, fun s b i n oh a off acc l => ?checks⟩
  case stores =>
    intro k x bt
    obtain ⟨hexec, hoh, hn⟩ : exec i s = laneStoreIssue i m (regVal sz b) s ∧ m.oh = oh ∧ m.n = sizeBytes sz := by
      simp only [List.mem_cons, Prod.mk.injEq, List.not_mem_nil, or_false] at hmem
      rcases hmem with ⟨rfl, rfl⟩ | ⟨rfl, rfl⟩ | ⟨rfl, rfl⟩ | ⟨rfl, rfl⟩ | ⟨rfl, rfl⟩ <;> exact ⟨rfl, rfl, rfl⟩
    refine ⟨fun hstop hpend => ?_, fun l st hstop => laneStoreIssue_stops h hr hexec hstop⟩
    intro what
    have hnodup : bt.lanes.Nodup := batchLanes_nodup x pc
    have hstores := storesOnly_laneStored s bt m (regVal sz b x)
    refine ⟨_, laneStoreIssue_goes h hr hexec hstop hpend, ?entries, fun hids => ?combined, fun _ => rfl, ?ts,
      fun o ho => State.core_setCore_other _ _ ho, fun l hl => ?fibre, fun l r => ?reg⟩ <;>
      rw [State.core_setCore]
    case entries =>
      have hwhat := what_laneStored s bt m (regVal sz b x)
      rw [filter_highest s bt m (batchOf_act_pairwise s c g pc i)] at hwhat
      subst hoh
      rw [← hn]
      exact hwhat
    case combined =>
      intro st hst hle q hq haddr
      exact (combined_laneStored s bt m (regVal sz b x) hids).2 st hst hle q hq haddr
    case ts => exact hstores.ts
    case fibre =>
      have hlive : (onward pc (x.fibre l)).st ≠ .ended := fun he => nomatch (batchOf_ready hl).symm.trans he
      rw [Core.gangAt_setGang, countedGang_fibre hnodup, advance_fibre, if_pos hl, if_pos ⟨hl, hlive⟩, advance_rest]
    case reg => rw [Core.gangAt_setGang, countedGang_reg, advance_reg]
  case checks =>
    intro x r traps
    refine ⟨rfl, fun p => rfl, lWhere_gm x rfl l, fun sp hsp hr => ?misaligned, fun p hr => lStop_misaligned hr,
      fun p hr hw hp hout => lStop_readOnly hr rfl hw hp hout,
      fun p hr hmay hout => lStop_port_outside hr rfl hmay hout, fun hr hout => lStop_ts_outside hr rfl hout⟩
    case misaligned =>
      simp only [List.mem_cons, List.not_mem_nil, or_false] at hsp
      rcases hsp with rfl | rfl
      · exact lStop_misaligned hr
      · exact lStop_misaligned hr

end Sys2Proof.Machine
end

section
/-! The end of a batch that settles: a gang drains, takes a role, or passes a barrier (R147, R201, R202). -/
namespace Sys2Proof.Machine

/-- A gang that may issue is at work. -/
theorem gang_works {s : State} {c g pc : Nat} (h : GangIssues s c g pc) :
    ((s.core c).gangAt g).st = .running ∧ ((s.core c).gangAt g).stopped = false := by
  obtain ⟨-, hcan, -⟩ := h
  simp only [gangCanIssue, Bool.and_eq_true, Bool.not_eq_true', beq_iff_eq] at hcan
  obtain ⟨⟨⟨⟨-, hst⟩, hstop⟩, -⟩, -⟩ := hcan
  exact ⟨hst, hstop⟩

/-- A gang at work that runs a routine, or no command. -/
structure Routine (x : Gang) : Prop where
  st : x.st = .running
  stopped : x.stopped = false
  lib : ∀ y, x.cmd = some y → y.lib = none

theorem Routine.not_held {x : Gang} (h : Routine x) :
    ¬ (x.st != .running || x.stopped || (x.cmd.bind (·.lib)).isSome) = true := by
  rw [h.st, h.stopped]
  cases hcmd : x.cmd with
  | none => exact Bool.false_ne_true
  | some y =>
    rw [Option.bind_some, h.lib y hcmd]
    exact Bool.false_ne_true

/-- An agent of which no store has failed has nothing to report (R381). -/
theorem failureTrap_none {k : Core} (h : k.failures = []) (ag : Agent) (t : Trap) : failureTrap k ag t = none := by
  rw [failureTrap, firstFailure, h]
  rfl

section
variable {s : State} {c g : Nat}

/-- Where every fibre has ended, a routine's gang drains, and library code goes on. -/
theorem gangSettle_ended (hlive : liveLanes ((s.core c).gangAt g) = []) :
    gangSettle s c g = s ∨ gangSettle s c g = modGang s c g (fun x => { x with st := .draining }) := by
  unfold gangSettle
  dsimp only
  rw [hlive]
  split
  · exact .inl rfl
  · exact .inr rfl

theorem gangSettle_drains (hx : Routine ((s.core c).gangAt g)) (hlive : liveLanes ((s.core c).gangAt g) = []) :
    gangSettle s c g = modGang s c g (fun x => { x with st := .draining }) := by
  unfold gangSettle
  dsimp only
  rw [if_neg hx.not_held, hlive]
  rfl

variable (hx : Routine ((s.core c).gangAt g)) {l0 : Nat} {ls : List Nat}
  (hlive : liveLanes ((s.core c).gangAt g) = l0 :: ls)
include hx hlive

/-- Every live fibre has arrived for one role: the gang takes it, once no copy has registers of it to write. -/
theorem gangSettle_role {t : Nat} (hall : ∀ l ∈ l0 :: ls, arrivedAt (((s.core c).gangAt g).fibre l) = .role t)
    (hkind : ((s.core c).prickAt t).kind = 2) :
    gangSettle s c g =
      if ((s.core c).gangAt g).pend = [] then takeRole s c g ((s.core c).prickAt t) else s := by
  have hroles : (l0 :: ls).filterMap (fun l => (roleOf (((s.core c).gangAt g).fibre l)).map (fun t => (l, t))) =
      (l0, t) :: ls.map (fun l => (l, t)) := by
    rw [← List.map_cons (f := fun l => (l, t)), ← List.filterMap_eq_map]
    refine List.filterMap_congr fun l hl => ?_
    rw [roleOf, hall l hl]
    rfl
  have harrived : (l0 :: ls).all (fun l => arrivedAt (((s.core c).gangAt g).fibre l) != .no) = true :=
    List.all_eq_true.mpr fun l hl => by rw [hall l hl]; rfl
  unfold gangSettle
  dsimp only
  rw [if_neg hx.not_held, hlive, harrived, hroles]
  dsimp only
  rw [hkind]
  refine (if_neg Bool.false_ne_true).trans ((if_neg Bool.false_ne_true).trans ((if_neg (by simp)).trans
    ((if_neg Bool.false_ne_true).trans ?_)))
  cases ((s.core c).gangAt g).pend with
  | nil => rfl
  | cons q qs => exact (if_pos rfl).trans (if_neg (List.cons_ne_nil q qs)).symm

/-- Every live fibre has arrived at a barrier, and what they have stored has landed: they go on together. -/
theorem gangSettle_lbar (hall : ∀ l ∈ l0 :: ls, arrivedAt (((s.core c).gangAt g).fibre l) = .lbar)
    (hlanded : ∀ l ∈ l0 :: ls, storesLanded (s.core c) (.fibre g l) = true) (hfail : (s.core c).failures = []) :
    gangSettle s c g = (releaseLanes s c g (l0 :: ls)).modCore c (fun k =>
      (k.acquireLanes g (l0 :: ls)).setGang g (modFibres (k.gangAt g) (l0 :: ls)
        (fun f => { f with arrived := .no, st := .ready, pc := va57 (f.pc + 8) }))) := by
  have hroles :
      (l0 :: ls).filterMap (fun l => (roleOf (((s.core c).gangAt g).fibre l)).map (fun t => (l, t))) = [] := by
    refine List.filterMap_eq_nil_iff.mpr fun l hl => ?_
    rw [roleOf, hall l hl]
    rfl
  have harrived : (l0 :: ls).all (fun l => arrivedAt (((s.core c).gangAt g).fibre l) != .no) = true :=
    List.all_eq_true.mpr fun l hl => by rw [hall l hl]; rfl
  have hland : (l0 :: ls).all (fun l => storesLanded (s.core c) (.fibre g l)) = true := List.all_eq_true.mpr hlanded
  have hnone (t : Nat → Trap) : (l0 :: ls).findSome? (fun l => failureTrap (s.core c) (.fibre g l) (t l)) = none :=
    List.findSome?_eq_none_iff.mpr fun l _ => failureTrap_none hfail _ _
  unfold gangSettle
  dsimp only
  rw [if_neg hx.not_held, hlive, harrived, hroles]
  dsimp only
  rw [hland, hnone]
  rfl

end

/-! ## A gang takes a role (R147) -/

theorem mget_map_range {α : Type} (d : Nat → α) (v : Nat → α) {f l : Nat} (hl : l < f) :
    mget d ((List.range f).map (fun i => (i, v i))) l = v l := by
  have key (is : List Nat) (h : l ∈ is) : mget d (is.map (fun i => (i, v i))) l = v l := by
    induction is with
    | nil => cases h
    | cons i is ih =>
      rw [List.map_cons, mget]
      split
      next he => rw [he]
      next hne => exact ih ((List.mem_cons.mp h).resolve_left hne)
  exact key (List.range f) (List.mem_range.mpr hl)

section
variable (s : State) (c g : Nat)

theorem releaseLanes_core (ls : List Nat) (o : Nat) :
    (releaseLanes s c g ls).core o = { s.core o with vold := ((releaseLanes s c g ls).core o).vold } :=
  released_core s c _ o

theorem gangAt_releaseLanes (ls : List Nat) (o : Nat) :
    ((releaseLanes s c g ls).core c).gangAt o = (s.core c).gangAt o := by
  unfold Core.gangAt
  rw [releaseLanes_core]

theorem fcap_releaseLanes (ls : List Nat) : ((releaseLanes s c g ls).core c).fcap = (s.core c).fcap :=
  (congrArg Core.fcap (releaseLanes_core s c g ls c) :)

theorem releaseLanes_mem (ls : List Nat) : (releaseLanes s c g ls).mem = s.mem := released_mem s c _

/-- The device whose fibres have made their release before a role (R147, R253). -/
def beforeRole : State := releaseLanes (freshSeed s).2 c g (liveLanes (((freshSeed s).2.core c).gangAt g))

/-- The fibres that a role starts. -/
def roleFibres (p : Prick) : Nat := if p.fibm1 + 1 < (s.core c).fcap then p.fibm1 + 1 else (s.core c).fcap

/-- What a role makes of its gang: its registers' bound, and each fibre ready at the entry with every mask. -/
theorem takeRole_starts (p : Prick) : ∃ (k : Core) (y : Gang) (v : Nat → Fibre),
    takeRole s c g p = (beforeRole s c g).setCore c (k.setGang g y) ∧
    y.bound = p.regm1 + 1 ∧ y.fibres = (List.range (roleFibres (beforeRole s c g) c p)).map (fun l => (l, v l)) ∧
    ∀ l, (v l).st = .ready ∧ (v l).pc = p.entry ∧ (v l).k = 0x7F := by
  rw [beforeRole, takeRole, roleFibres]
  generalize freshSeed s = q
  obtain ⟨seed, s0⟩ := q
  dsimp only
  generalize releaseLanes s0 c g _ = s1
  exact ⟨_, _, _, rfl, rfl, rfl, fun l => ⟨rfl, rfl, rfl⟩⟩

theorem takeRole_mem (p : Prick) : (takeRole s c g p).mem = s.mem := by
  obtain ⟨k, y, v, heq, -, -, -⟩ := takeRole_starts s c g p
  rw [heq, State.setCore_mem]
  exact releaseLanes_mem ..

theorem takeRole_leaves (p : Prick) :
    let y := ((takeRole s c g p).core c).gangAt g
    y.bound = p.regm1 + 1 ∧ ∀ l, l < roleFibres s c p →
      (y.fibre l).st = .ready ∧ (y.fibre l).pc = p.entry ∧ (y.fibre l).k = 0x7F := by
  obtain ⟨k, y, v, heq, hbound, hfib, hv⟩ := takeRole_starts s c g p
  have hcap : roleFibres (beforeRole s c g) c p = roleFibres s c p := by
    rw [roleFibres, beforeRole, fcap_releaseLanes]
    rfl
  intro z
  have hz : z = y := by
    refine (congrArg (fun t : State => (t.core c).gangAt g) heq).trans ?_
    rw [State.core_setCore, Core.gangAt_setGang]
  rw [hz]
  refine ⟨hbound, fun l hl => ?_⟩
  rw [← hcap] at hl
  rw [Gang.fibre, hfib, mget_map_range _ _ hl]
  exact hv l

end

/-! ## The end of fibres (R201) -/

section
variable {s : State} {c g pc : Nat} {p : Pred} (h : GangIssues s c g pc)
include h

theorem quit_waits (hfar : ∃ l ∈ (batchOf s c g pc (.quit p)).act, farStores (s.core c) (.fibre g l) = true) :
    exec (.quit p) s = .next (stallBatch s (batchOf s c g pc (.quit p))) := by
  refine exec_stalls h (regsClear_of_none rfl) (rfl : _ = execQuit p s) (if_pos ?_)
  exact List.any_eq_true.mpr hfar

/-- The gang whose active fibres have ended. -/
def quitGang (b : Batch) (x : Gang) : Gang := modFibres (b.advance x) b.act (fun f => { f with st := .ended })

theorem quit_ends (hfar : ∀ l ∈ (batchOf s c g pc (.quit p)).act, farStores (s.core c) (.fibre g l) = false)
    (hfail : (s.core c).failures = []) :
    exec (.quit p) s = .next (countBatch (s.setCore c ((s.core c).setGang g
      (quitGang (batchOf s c g pc (.quit p)) ((s.core c).gangAt g)))) (batchOf s c g pc (.quit p))) := by
  refine exec_goes h (regsClear_of_none rfl) (rfl : _ = execQuit p s) ((if_neg ?_).trans ?_)
  · exact fun hany => by
      obtain ⟨l, hl, hf⟩ := List.any_eq_true.mp hany
      exact Bool.false_ne_true ((hfar l hl).symm.trans hf)
  · have hnone (t : Nat → Trap) : (batchOf s c g pc (.quit p)).act.findSome?
        (fun l => (failureTrap (s.core c) (.fibre g l) (t l)).map (fun t => (l, t))) = none :=
      List.findSome?_eq_none_iff.mpr fun l _ => by rw [failureTrap_none hfail]; rfl
    split
    next l t heq => exact nomatch (hnone _).symm.trans heq
    next => rfl

end

section
variable {s : State} {c g pc : Nat} {i : Instr}

theorem batchOf_nodup : (batchOf s c g pc i).lanes.Nodup := batchLanes_nodup _ _

theorem quitGang_fibre_in {l : Nat} (hl : l ∈ (batchOf s c g pc i).act) (x : Gang) :
    ((quitGang (batchOf s c g pc i) x).fibre l).st = .ended := by
  rw [quitGang, modFibres_fibre_in batchOf_act_nodup hl]

theorem quitGang_fibre_out {l : Nat} (hl : l ∉ (batchOf s c g pc i).act) (x : Gang) :
    ((quitGang (batchOf s c g pc i) x).fibre l).st = (x.fibre l).st ∧
      ((quitGang (batchOf s c g pc i) x).fibre l).arrived = (x.fibre l).arrived := by
  rw [quitGang, modFibres_fibre_out hl, advance_fibre]
  split <;> exact ⟨rfl, rfl⟩

theorem quitGang_rest (x : Gang) : quitGang (batchOf s c g pc i) x =
    { x with fibres := (quitGang (batchOf s c g pc i) x).fibres } := by
  rw [quitGang, modFibres_eq, advance_rest]

theorem countedGang_st {halted : Bool} {z : Gang} (l : Nat) :
    ((countedGang halted (batchOf s c g pc i) z).fibre l).st = (z.fibre l).st := by
  obtain ⟨n, hf⟩ := countedGang_fibre_stamp (halted := halted) (x := z) batchOf_nodup l
  rw [hf]

theorem countedGang_routine {halted : Bool} {z : Gang} (hz : Routine z) :
    Routine (countedGang halted (batchOf s c g pc i) z) := by
  rw [countedGang_rest]
  exact ⟨hz.st, hz.stopped, hz.lib⟩

theorem quitGang_last (halted : Bool) {x : Gang} (hlast : ∀ l ∈ liveLanes x, l ∈ (batchOf s c g pc i).act) :
    liveLanes (countedGang halted (batchOf s c g pc i) (quitGang (batchOf s c g pc i) x)) = [] := by
  refine List.eq_nil_iff_forall_not_mem.mpr fun l hl => ?_
  obtain ⟨hlt, hst⟩ := mem_liveLanes.mp hl
  rw [countedGang_st] at hst
  by_cases hact : l ∈ (batchOf s c g pc i).act
  · exact hst (quitGang_fibre_in hact x)
  · rw [(quitGang_fibre_out hact x).1] at hst
    exact hact (hlast l (mem_liveLanes.mpr ⟨hlt, hst⟩))

end

section
variable {s : State} {c g pc : Nat} {p : Pred} (h : GangIssues s c g pc)
  (hfar : ∀ l ∈ (batchOf s c g pc (.quit p)).act, farStores (s.core c) (.fibre g l) = false)
  (hfail : (s.core c).failures = [])
include h hfar hfail

theorem quit_goesOn {l : Nat} (hl : l ∈ liveLanes ((s.core c).gangAt g))
    (hne : l ∉ (batchOf s c g pc (.quit p)).act)
    (harr : arrivedAt (((s.core c).gangAt g).fibre l) = .no) :
    ∃ t, exec (.quit p) s = .next t ∧ SameMem s t ∧
      ∀ l ∈ (batchOf s c g pc (.quit p)).act, (((t.core c).gangAt g).fibre l).st = .ended := by
  refine ⟨_, quit_ends h hfar hfail, ?_⟩
  obtain ⟨hst, harrived⟩ := quitGang_fibre_out hne ((s.core c).gangAt g)
  obtain ⟨hlt, hlive⟩ := mem_liveLanes.mp hl
  have hlive' : l ∈ liveLanes (quitGang (batchOf s c g pc (.quit p)) ((s.core c).gangAt g)) :=
    mem_liveLanes.mpr ⟨hlt, hst ▸ hlive⟩
  have harr' : arrivedAt ((quitGang (batchOf s c g pc (.quit p)) ((s.core c).gangAt g)).fibre l) = .no := by
    rw [arrivedAt, hst, harrived]
    exact harr
  rw [countBatch_unsettled (c := c) (g := g) rfl rfl batchOf_nodup hlive' harr']
  refine ⟨fun _ => rfl, fun q hq => ?_⟩
  rw [State.core_setCore, Core.gangAt_setGang, countedGang_st]
  exact quitGang_fibre_in hq _

theorem quit_last (hlast : ∀ l ∈ liveLanes ((s.core c).gangAt g), l ∈ (batchOf s c g pc (.quit p)).act) :
    ∃ t, exec (.quit p) s = .next t ∧ SameMem s t ∧
      (∀ l ∈ (batchOf s c g pc (.quit p)).act, (((t.core c).gangAt g).fibre l).st = .ended) ∧
      ((∀ y, ((s.core c).gangAt g).cmd = some y → y.lib = none) → ((t.core c).gangAt g).st = .draining) := by
  refine ⟨_, quit_ends h hfar hfail, ?_⟩
  rw [countBatch_setGang (c := c) (g := g) rfl rfl]
  generalize hz : countedGang (s.core c).halt.isSome (batchOf s c g pc (.quit p))
    (quitGang (batchOf s c g pc (.quit p)) ((s.core c).gangAt g)) = z
  generalize hs1 : s.setCore c ((s.core c).setGang g z) = s1
  have hmem : SameMem s s1 := hs1 ▸ fun _ => rfl
  have hgang : (s1.core c).gangAt g = z := by rw [← hs1, State.core_setCore, Core.gangAt_setGang]
  have hended (l) (hl : l ∈ (batchOf s c g pc (.quit p)).act) : (z.fibre l).st = .ended := by
    rw [← hz, countedGang_st]
    exact quitGang_fibre_in hl _
  have hlive : liveLanes ((s1.core c).gangAt g) = [] := by
    rw [hgang, ← hz]
    exact quitGang_last _ hlast
  refine ⟨?_, fun l hl => ?_, fun hlib => ?_⟩
  · obtain heq | heq := gangSettle_ended hlive
    · rw [heq]
      exact hmem
    · rw [heq]
      exact hmem
  · obtain heq | heq := gangSettle_ended hlive
    · rw [heq, hgang]
      exact hended l hl
    · rw [heq, gangAt_modGang, hgang]
      exact hended l hl
  · have hx : Routine ((s1.core c).gangAt g) := by
      rw [hgang, ← hz]
      refine countedGang_routine ?_
      rw [quitGang_rest]
      exact ⟨(gang_works h).1, (gang_works h).2, hlib⟩
    rw [gangSettle_drains hx hlive, gangAt_modGang]

end

/-! ## Fibres that arrive for a role or at a barrier (R147, R202) -/

section
variable {s : State} {c g pc : Nat} {i : Instr} {a : Arrival}

theorem arriveBatch_fibre_in {l : Nat} (hl : l ∈ (batchOf s c g pc i).lanes) (x : Gang) :
    (arriveBatch (batchOf s c g pc i) a x).fibre l = { x.fibre l with st := .waiting, arrived := a } :=
  modFibres_fibre_in (batchLanes_nodup _ _) hl

theorem arriveBatch_fibre_out {l : Nat} (hl : l ∉ (batchOf s c g pc i).lanes) (x : Gang) :
    (arriveBatch (batchOf s c g pc i) a x).fibre l = x.fibre l := modFibres_fibre_out hl

theorem arriveBatch_rest (b : Batch) (x : Gang) : arriveBatch b a x = { x with fibres := (arriveBatch b a x).fibres } :=
  modFibres_eq ..

variable (s c g pc i a) in
/-- The gang once the fibres of its batch have arrived, and are counted. -/
def arrivedGang : Gang := countedGang (s.core c).halt.isSome (batchOf s c g pc i)
  (arriveBatch (batchOf s c g pc i) a ((s.core c).gangAt g))

theorem arrivedGang_fibre {l : Nat} (hl : l ∈ (batchOf s c g pc i).lanes) :
    ∃ n, (arrivedGang s c g pc i a).fibre l =
      { ((s.core c).gangAt g).fibre l with st := .waiting, arrived := a, stamp := n } := by
  obtain ⟨n, hf⟩ := countedGang_fibre_stamp (halted := (s.core c).halt.isSome)
    (x := arriveBatch (batchOf s c g pc i) a ((s.core c).gangAt g)) batchOf_nodup l
  refine ⟨n, hf.trans ?_⟩
  rw [arriveBatch_fibre_in hl]

theorem arrivedAt_arrivedGang {l : Nat} (hl : l ∈ (batchOf s c g pc i).lanes) :
    arrivedAt ((arrivedGang s c g pc i a).fibre l) = a := by
  obtain ⟨n, hf⟩ := arrivedGang_fibre hl
  rw [hf]
  rfl

theorem arrivedGang_routine (h : GangIssues s c g pc)
    (hlib : ∀ y, ((s.core c).gangAt g).cmd = some y → y.lib = none) :
    Routine (arrivedGang s c g pc i a) := by
  refine countedGang_routine ?_
  rw [arriveBatch_rest]
  exact ⟨(gang_works h).1, (gang_works h).2, hlib⟩

theorem arrivedGang_pend : (arrivedGang s c g pc i a).pend = ((s.core c).gangAt g).pend := by
  rw [arrivedGang, countedGang_rest, arriveBatch_rest]

theorem liveLanes_arrivedGang : liveLanes (arrivedGang s c g pc i a) = liveLanes ((s.core c).gangAt g) := by
  refine List.filter_congr fun l _ => ?_
  rw [arrivedGang, countedGang_st]
  by_cases hl : l ∈ (batchOf s c g pc i).lanes
  · rw [arriveBatch_fibre_in hl, batchOf_ready hl]
    rfl
  · rw [arriveBatch_fibre_out hl]

theorem countBatch_arrives : countBatch (modGang s c g (arriveBatch (batchOf s c g pc i) a)) (batchOf s c g pc i) =
    gangSettle (s.setCore c ((s.core c).setGang g (arrivedGang s c g pc i a))) c g := countBatch_setGang rfl rfl

theorem role_arrives (h : GangIssues s c g pc) (topc : BitVec 7) : exec (.role topc) s =
    .next (countBatch (modGang s c g (arriveBatch (batchOf s c g pc (.role topc)) (.role topc.toNat)))
      (batchOf s c g pc (.role topc))) :=
  exec_goes (i := .role topc) h (regsClear_of_none rfl) rfl rfl

theorem lbar_arrives (h : GangIssues s c g pc) : exec .lbar s =
    .next (countBatch (modGang s c g (arriveBatch (batchOf s c g pc .lbar) .lbar)) (batchOf s c g pc .lbar)) :=
  exec_goes (i := .lbar) h (regsClear_of_none rfl) rfl rfl

/-- Fibres that wait where they have arrived, since nothing comes due yet. -/
theorem arrives_waits (hsettle : gangSettle (s.setCore c ((s.core c).setGang g (arrivedGang s c g pc i a))) c g =
      s.setCore c ((s.core c).setGang g (arrivedGang s c g pc i a)))
    (hexec : exec i s = .next (countBatch (modGang s c g (arriveBatch (batchOf s c g pc i) a)) (batchOf s c g pc i))) :
    ∃ t, exec i s = .next t ∧ SameMem s t ∧
      ∀ l ∈ (batchOf s c g pc i).lanes, arrivedAt (((t.core c).gangAt g).fibre l) = a := by
  refine ⟨_, hexec, ?_⟩
  rw [countBatch_arrives, hsettle]
  refine ⟨fun _ => rfl, fun l hl => ?_⟩
  rw [State.core_setCore, Core.gangAt_setGang]
  exact arrivedAt_arrivedGang hl

theorem gangSettle_someStay (hstay : ∃ l ∈ liveLanes ((s.core c).gangAt g), l ∉ (batchOf s c g pc i).lanes ∧
      arrivedAt (((s.core c).gangAt g).fibre l) = .no) :
    gangSettle (s.setCore c ((s.core c).setGang g (arrivedGang s c g pc i a))) c g =
      s.setCore c ((s.core c).setGang g (arrivedGang s c g pc i a)) := by
  obtain ⟨l, hl, hne, harr⟩ := hstay
  have hlive : l ∈ liveLanes (arrivedGang s c g pc i a) := by rwa [liveLanes_arrivedGang]
  obtain ⟨hlt, hst⟩ := mem_liveLanes.mp hlive
  refine gangSettle_of_running hlt ?_ ?_
  · rw [State.core_setCore, Core.gangAt_setGang]
    exact hst
  · rw [State.core_setCore, Core.gangAt_setGang, arrivedGang,
      arrivedAt_countedGang batchOf_nodup, arriveBatch_fibre_out hne]
    exact harr

variable (h : GangIssues s c g pc) (hlanes : (batchOf s c g pc i).lanes = liveLanes ((s.core c).gangAt g))
  (hlib : ∀ y, ((s.core c).gangAt g).cmd = some y → y.lib = none)
include h hlanes hlib

/-- Where the batch is all the gang's live fibres, a role comes due that no copy holds back. -/
theorem gangSettle_allRole {t : Nat} (ha : a = .role t) (hkind : ((s.core c).prickAt t).kind = 2) :
    gangSettle (s.setCore c ((s.core c).setGang g (arrivedGang s c g pc i a))) c g =
      if ((s.core c).gangAt g).pend = [] then
        takeRole (s.setCore c ((s.core c).setGang g (arrivedGang s c g pc i a))) c g ((s.core c).prickAt t)
      else s.setCore c ((s.core c).setGang g (arrivedGang s c g pc i a)) := by
  obtain ⟨l0, ls, hcons⟩ := List.exists_cons_of_ne_nil (batchLanes_of_pick h.2.2)
  have hcons : (batchOf s c g pc i).lanes = l0 :: ls := hcons
  generalize hs1 : s.setCore c ((s.core c).setGang g (arrivedGang s c g pc i a)) = s1
  have hgang : (s1.core c).gangAt g = arrivedGang s c g pc i a := by
    rw [← hs1, State.core_setCore, Core.gangAt_setGang]
  have hprick : (s1.core c).prickAt t = (s.core c).prickAt t := by
    rw [← hs1, State.core_setCore]
    rfl
  have hx : Routine ((s1.core c).gangAt g) := hgang ▸ arrivedGang_routine h hlib
  have hlive : liveLanes ((s1.core c).gangAt g) = l0 :: ls := by
    rw [hgang, liveLanes_arrivedGang, ← hlanes, hcons]
  have hall : ∀ l ∈ l0 :: ls, arrivedAt (((s1.core c).gangAt g).fibre l) = .role t := fun l hl => by
    rw [hgang, ← ha]
    exact arrivedAt_arrivedGang (hcons ▸ hl)
  rw [gangSettle_role hx hlive hall (hprick ▸ hkind), hprick, hgang, arrivedGang_pend]

/-- Where the batch is all the gang's live fibres, and their stores have landed, the barrier ends. -/
theorem lbar_ends (ha : a = .lbar) (hfail : (s.core c).failures = [])
    (hlanded : ∀ l ∈ (batchOf s c g pc i).lanes, storesLanded (s.core c) (.fibre g l) = true) :
    let t := gangSettle (s.setCore c ((s.core c).setGang g (arrivedGang s c g pc i a))) c g
    SameMem s t ∧ ∀ l ∈ (batchOf s c g pc i).lanes, (((t.core c).gangAt g).fibre l).st = .ready ∧
      (((t.core c).gangAt g).fibre l).pc = va57 (pc + 8) := by
  obtain ⟨l0, ls, hcons⟩ := List.exists_cons_of_ne_nil (batchLanes_of_pick h.2.2)
  have hcons' := hcons.symm
  have hcons : (batchOf s c g pc i).lanes = l0 :: ls := hcons
  generalize hs1 : s.setCore c ((s.core c).setGang g (arrivedGang s c g pc i a)) = s1
  have hmem : s1.mem = s.mem := by rw [← hs1, State.setCore_mem]
  have hgang : (s1.core c).gangAt g = arrivedGang s c g pc i a := by
    rw [← hs1, State.core_setCore, Core.gangAt_setGang]
  have hfail' : (s1.core c).failures = [] := by rw [← hs1, State.core_setCore]; exact hfail
  have hx : Routine ((s1.core c).gangAt g) := hgang ▸ arrivedGang_routine h hlib
  have hlive : liveLanes ((s1.core c).gangAt g) = l0 :: ls := by
    rw [hgang, liveLanes_arrivedGang, ← hlanes, hcons]
  have hall : ∀ l ∈ l0 :: ls, arrivedAt (((s1.core c).gangAt g).fibre l) = .lbar := fun l hl => by
    rw [hgang, ← ha]
    exact arrivedAt_arrivedGang (hcons ▸ hl)
  have hland : ∀ l ∈ l0 :: ls, storesLanded (s1.core c) (.fibre g l) = true := fun l hl => by
    rw [← hs1, State.core_setCore]
    exact hlanded l (hcons ▸ hl)
  dsimp only
  rw [gangSettle_lbar hx hlive hall hland hfail', hcons]
  refine ⟨fun q => by rw [State.modCore_mem, releaseLanes_mem, hmem], fun l hl => ?_⟩
  obtain ⟨n, hf⟩ := arrivedGang_fibre (a := a) (hcons ▸ hl)
  have hpc : (((s.core c).gangAt g).fibre l).pc = pc := 
    (mem_batchLanes.mp (hcons' ▸ hl)).2.2
  have hnodup : (l0 :: ls).Nodup := hcons ▸ batchOf_nodup
  rw [State.core_modCore, Core.gangAt_setGang, modFibres_fibre_in hnodup hl, gangAt_releaseLanes, hgang, hf, hpc]
  exact ⟨rfl, rfl⟩

end

/-! ## A fibre that starts (R200) -/

/-- The gang in which lane l starts fibre f in lane n, with its four registers. -/
def spawnedGang (n l : Nat) (d a : GReg) (f : Fibre) (x : Gang) : Gang :=
  setR ((((({ x with regs := x.regs.filter (fun e => e.1 / 256 != n) }.setFibre n f).setReg n 0 (rg x l a)).setReg n 1
    (w32 l)).setReg n 2 (w32 n)).setReg n 3 (w32 ((liveLanes x).length + 1))) l d (w32 n)

theorem freeSlot_ended {x : Gang} {n : Nat} (h : freeSlot x = some n) : (x.fibre n).st = .ended := by
  have hended := List.find?_some h
  exact eq_of_beq hended

section
variable {c g cap pc stamp seed : Nat} {d a : GReg} {k : Core} {l : Nat}

theorem spawnOne_starts {n : Nat} (hfree : freeSlot (k.gangAt g) = some n)
    (hcap : (liveLanes (k.gangAt g)).length < cap)
    (hbound : 4 ≤ (k.gangAt g).bound) :
    spawnOne c g cap pc stamp seed d a k l = (fenceOver (freeLane k c g n) (.fibre g l) (.fibre g n)).setGang g
      (spawnedGang n l d a { pc := pc, k := 0x7F, st := .ready, arrived := .no, stamp := stamp, seeds := [(0, seed)] }
        (k.gangAt g)) := by
  rw [spawnOne]
  dsimp only
  rw [hfree]
  dsimp only
  rw [if_pos hcap]
  simp only [List.foldl_cons, List.foldl_nil]
  rw [if_pos (by omega), if_pos (by omega), if_pos (by omega), if_pos (by omega)]
  rfl

theorem spawnOne_full (hfull : freeSlot (k.gangAt g) = none ∨ cap ≤ (liveLanes (k.gangAt g)).length) :
    spawnOne c g cap pc stamp seed d a k l = k.setGang g (setR (k.gangAt g) l d 0xFFFFFFFF) := by
  rw [spawnOne]
  dsimp only
  cases hfree : freeSlot (k.gangAt g) with
  | none => rfl
  | some n => exact if_neg (Nat.not_lt.mpr (hfull.resolve_left (by rw [hfree]; exact Option.some_ne_none n)))

end

section
variable {n l : Nat} (hne : l ≠ n) (d a : GReg) (f : Fibre) (x : Gang)

theorem spawnedGang_cycle : (spawnedGang n l d a f x).cycle = x.cycle := by
  simp only [spawnedGang, setR, Gang.setReg_cycle]
  rfl

theorem spawnedGang_fibre_new : (spawnedGang n l d a f x).fibre n = f := by
  rw [spawnedGang, setR]
  exact Gang.fibre_setFibre ..

include hne

theorem spawnedGang_fibre_other : (spawnedGang n l d a f x).fibre l = x.fibre l := by
  rw [spawnedGang, setR]
  exact Gang.fibre_setFibre_other _ _ hne

theorem spawnedGang_reg : (spawnedGang n l d a f x).reg n 0 = x.reg l a.toNat ∧
    (spawnedGang n l d a f x).reg n 1 = w32 l ∧ (spawnedGang n l d a f x).reg n 2 = w32 n ∧
    (spawnedGang n l d a f x).reg n 3 = w32 ((liveLanes x).length + 1) ∧
    (spawnedGang n l d a f x).reg l d.toNat = w32 n := by
  have hother {r : Nat} (hr : r < 256) (y : Gang) (v : W32) : (setR y l d v).reg n r = y.reg n r :=
    Gang.reg_setReg_other y v d.isLt hr (.inl hne.symm)
  have hnext {r r' : Nat} (hr : r < 4) (hr' : r' < 4) (hrr : r' ≠ r) (y : Gang) (v : W32) :
      (y.setReg n r v).reg n r' = y.reg n r' := Gang.reg_setReg_other y v (by omega) (by omega) (.inr hrr)
  refine ⟨?_, ?_, ?_, ?_, ?_⟩
  · rw [spawnedGang, hother (by omega), hnext (by omega) (by omega) (by omega), hnext (by omega) (by omega) (by omega),
      hnext (by omega) (by omega) (by omega), Gang.reg_setReg]
    rfl
  · rw [spawnedGang, hother (by omega), hnext (by omega) (by omega) (by omega), hnext (by omega) (by omega) (by omega),
      Gang.reg_setReg]
  · rw [spawnedGang, hother (by omega), hnext (by omega) (by omega) (by omega), Gang.reg_setReg]
  · rw [spawnedGang, hother (by omega), Gang.reg_setReg]
  · rw [spawnedGang, setR, Gang.reg_setReg]

end

section
variable {s : State} {c g pc : Nat} {p : Pred} {d a : GReg} {off : BitVec 16} {l : Nat} (h : GangIssues s c g pc)
  (hact : (batchOf s c g pc (.spawn p d a off)).act = [l]) (hr : RegsClear s c g pc (.spawn p d a off))

variable (s c g l) in
/-- The device whose spawning fibre has made its release (R200). -/
def spawnReleased : State := releaseLanes { s with fresh := s.fresh + 1 } c g [l]

variable (s c g pc p d a off) in
/-- The gang whose spawning batch has moved on. -/
def spawnMoved : Gang := (batchOf s c g pc (.spawn p d a off)).advance ((s.core c).gangAt g)

theorem spawnMoved_st (q : Nat) :
    ((spawnMoved s c g pc p d a off).fibre q).st = (((s.core c).gangAt g).fibre q).st := by
  rw [spawnMoved, advance_fibre]
  split <;> rfl

theorem liveLanes_spawnMoved : liveLanes (spawnMoved s c g pc p d a off) = liveLanes ((s.core c).gangAt g) :=
  List.filter_congr fun q _ => by rw [spawnMoved_st]

theorem freeSlot_spawnMoved : freeSlot (spawnMoved s c g pc p d a off) = freeSlot ((s.core c).gangAt g) := by
  have hsame : (fun q => ((spawnMoved s c g pc p d a off).fibre q).st == .ended) =
      fun q => (((s.core c).gangAt g).fibre q).st == .ended := funext fun q => by rw [spawnMoved_st]
  rw [freeSlot, hsame, freeSlot]

include h hact hr

theorem exec_spawn : exec (.spawn p d a off) s = .next (countBatch ((spawnReleased s c g l).setCore c
    (spawnOne c g (s.core c).fcap (addVa pc (off.toInt * 8)) ((s.core c).gangAt g).cycle s.fresh d a
      (((spawnReleased s c g l).core c).setGang g (spawnMoved s c g pc p d a off)) l))
    (batchOf s c g pc (.spawn p d a off))) := by
  refine exec_goes h hr (rfl : _ = execSpawn p d a off s) ?_
  dsimp only
  rw [hact, State.modCore_eq, List.zipIdx_singleton, List.foldl_cons, List.foldl_nil]
  rfl

omit h hr in
/-- The spawning lane moves on, and its fibre is ready. -/
theorem spawnMoved_fibre : (spawnMoved s c g pc p d a off).fibre l = onward pc (((s.core c).gangAt g).fibre l) ∧
    (((s.core c).gangAt g).fibre l).st = .ready ∧ l < 32 ∧ l ∈ (batchOf s c g pc (.spawn p d a off)).lanes := by
  have hl : l ∈ (batchOf s c g pc (.spawn p d a off)).lanes :=
    batchOf_act_subset (hact ▸ List.mem_singleton.mpr rfl)
  refine ⟨?_, batchOf_ready hl, (mem_batchLanes.mp hl).1, hl⟩
  rw [spawnMoved, advance_fibre, if_pos hl]

theorem spawn_starts {n : Nat} (hfree : freeSlot ((s.core c).gangAt g) = some n)
    (hcap : (liveLanes ((s.core c).gangAt g)).length < (s.core c).fcap) (hbound : 4 ≤ ((s.core c).gangAt g).bound) :
    let f : Fibre := { pc := addVa pc (off.toInt * 8), k := 0x7F, st := .ready, arrived := .no,
                       stamp := ((s.core c).gangAt g).cycle, seeds := [(0, s.fresh)] }
    ∃ k halted, exec (.spawn p d a off) s = .next ((spawnReleased s c g l).setCore c (Core.setGang k g
      (countedGang halted (batchOf s c g pc (.spawn p d a off))
        (spawnedGang n l d a f (spawnMoved s c g pc p d a off))))) := by
  intro f
  obtain ⟨hmoved, hst, hlt, -⟩ := spawnMoved_fibre hact
  have hne : l ≠ n := fun heq => by
    have hended := freeSlot_ended hfree
    rw [← heq, hst] at hended
    exact nomatch hended
  have hfib : (spawnedGang n l d a f (spawnMoved s c g pc p d a off)).fibre l =
      onward pc (((s.core c).gangAt g).fibre l) := (spawnedGang_fibre_other hne ..).trans hmoved
  have hlive : l ∈ liveLanes (spawnedGang n l d a f (spawnMoved s c g pc p d a off)) := by
    refine mem_liveLanes.mpr ⟨hlt, ?_⟩
    rw [hfib, onward, hst]
    exact nofun
  have harr : arrivedAt ((spawnedGang n l d a f (spawnMoved s c g pc p d a off)).fibre l) = .no := by
    rw [hfib, onward, arrivedAt, hst]
    rfl
  have hrest : (spawnMoved s c g pc p d a off).bound = ((s.core c).gangAt g).bound := by rw [spawnMoved, advance_rest]
  rw [exec_spawn h hact hr, spawnOne_starts (n := n)]
  · rw [Core.gangAt_setGang, countBatch_unsettled (c := c) (g := g) rfl rfl batchOf_nodup hlive harr]
    exact ⟨_, _, rfl⟩
  · rw [Core.gangAt_setGang, freeSlot_spawnMoved, hfree]
  · rw [Core.gangAt_setGang, liveLanes_spawnMoved]
    exact hcap
  · rw [Core.gangAt_setGang, hrest]
    exact hbound

theorem spawn_full (hfull : freeSlot ((s.core c).gangAt g) = none ∨
      (s.core c).fcap ≤ (liveLanes ((s.core c).gangAt g)).length) :
    ∃ t, exec (.spawn p d a off) s = .next t ∧ SameMem s t ∧
      ((t.core c).gangAt g).reg l d.toNat = 0xFFFFFFFF := by
  obtain ⟨hmoved, hst, hlt, -⟩ := spawnMoved_fibre hact
  have hfib : (setR (spawnMoved s c g pc p d a off) l d 0xFFFFFFFF).fibre l =
      onward pc (((s.core c).gangAt g).fibre l) := hmoved
  have hlive : l ∈ liveLanes (setR (spawnMoved s c g pc p d a off) l d 0xFFFFFFFF) := by
    refine mem_liveLanes.mpr ⟨hlt, ?_⟩
    rw [hfib, onward, hst]
    exact nofun
  have harr : arrivedAt ((setR (spawnMoved s c g pc p d a off) l d 0xFFFFFFFF).fibre l) = .no := by
    rw [hfib, onward, arrivedAt, hst]
    rfl
  refine ⟨_, exec_spawn h hact hr, ?_⟩
  rw [spawnOne_full]
  · rw [Core.gangAt_setGang, Core.setGang_setGang,
      countBatch_unsettled (c := c) (g := g) rfl rfl batchOf_nodup hlive harr]
    refine ⟨fun q => ?_, ?_⟩
    · rw [State.setCore_mem, spawnReleased, releaseLanes_mem]
    · rw [State.core_setCore, Core.gangAt_setGang, countedGang_reg, setR, Gang.reg_setReg]
  · rw [Core.gangAt_setGang, freeSlot_spawnMoved, liveLanes_spawnMoved]
    exact hfull

/-- What a SPAWN that finds a free lane leaves: its fibre, the four registers, and its own lane moved on. -/
theorem spawn_leaves {n : Nat} (hfree : freeSlot ((s.core c).gangAt g) = some n)
    (hcap : (liveLanes ((s.core c).gangAt g)).length < (s.core c).fcap) (hbound : 4 ≤ ((s.core c).gangAt g).bound) :
    let x := (s.core c).gangAt g
    let f : Fibre := { pc := addVa pc (off.toInt * 8), k := 0x7F, st := .ready, arrived := .no, stamp := x.cycle,
                       seeds := [(0, s.fresh)] }
    ∃ t, exec (.spawn p d a off) s = .next t ∧ SameMem s t ∧
      (let y := (t.core c).gangAt g
       y.fibre n = f ∧ y.reg n 0 = x.reg l a.toNat ∧ y.reg n 1 = w32 l ∧ y.reg n 2 = w32 n ∧
       y.reg n 3 = w32 ((liveLanes x).length + 1) ∧ y.reg l d.toNat = w32 n ∧
       y.fibre l = { onward pc (x.fibre l) with stamp := x.cycle }) := by
  intro x f
  obtain ⟨k, halted, hexec⟩ := spawn_starts h hact hr hfree hcap hbound
  obtain ⟨hmoved, hst, hlt, hlane⟩ := spawnMoved_fibre hact
  have hended : (((s.core c).gangAt g).fibre n).st = .ended := freeSlot_ended hfree
  have hne : l ≠ n := fun heq => by rw [← heq, hst] at hended; exact nomatch hended
  have hlaneN : n ∉ (batchOf s c g pc (.spawn p d a off)).lanes := fun hn => by
    rw [batchOf_ready hn] at hended
    exact nomatch hended
  have hcycle : (spawnMoved s c g pc p d a off).cycle = ((s.core c).gangAt g).cycle := by rw [spawnMoved, advance_rest]
  have hreg : (spawnMoved s c g pc p d a off).reg l a.toNat = ((s.core c).gangAt g).reg l a.toNat := advance_reg ..
  refine ⟨_, hexec, fun q => ?_, ?_⟩
  · rw [State.setCore_mem, spawnReleased, releaseLanes_mem]
  · have hfibn : (spawnedGang n l d a f (spawnMoved s c g pc p d a off)).fibre n = f := spawnedGang_fibre_new ..
    have hfib : (spawnedGang n l d a f (spawnMoved s c g pc p d a off)).fibre l =
        onward pc (((s.core c).gangAt g).fibre l) := (spawnedGang_fibre_other hne ..).trans hmoved
    have hzcycle : (spawnedGang n l d a f (spawnMoved s c g pc p d a off)).cycle = ((s.core c).gangAt g).cycle :=
      (spawnedGang_cycle ..).trans hcycle
    obtain ⟨hr0, hr1, hr2, hr3, hrd⟩ := spawnedGang_reg hne d a f (spawnMoved s c g pc p d a off)
    rw [hreg] at hr0
    rw [liveLanes_spawnMoved] at hr3
    rw [State.core_setCore, Core.gangAt_setGang]
    generalize spawnedGang n l d a f (spawnMoved s c g pc p d a off) = z at *
    simp only [countedGang_reg]
    refine ⟨?_, hr0, hr1, hr2, hr3, hrd, ?_⟩
    · rw [countedGang_fibre batchOf_nodup, if_neg (fun hin => hlaneN hin.1), hfibn]
    · rw [countedGang_fibre batchOf_nodup, if_pos, hfib, hzcycle]
      rw [hfib, onward, hst]
      exact ⟨hlane, nofun⟩

end

/-- Settles O39: each case of the instruction comes to a counted batch, whose gang settles or is left as it is. -/
theorem laneFibres : Obligations.LaneFibres := by
  intro s c g pc p h
  refine ⟨fun d a off l hact hready hbound => ⟨fun n hfree hcap => ?_, fun hfull => ?_⟩,
    fun ⟨l, hl, hfar⟩ => ?_,
    fun hfail hfar hwho => ?_, fun topc => ⟨fun hstay => ?_, fun hlanes hlib hpend hkind => ?_,
      fun hlanes hlib hpend hkind => ?_⟩, fun hstay => ?_, fun hlanes hlib hfail hlanded => ?_⟩
  · exact spawn_leaves h hact hready.clear hfree hcap hbound
  · exact spawn_full h hact hready.clear hfull
  · obtain ⟨hmem, hstalled, -⟩ := stallBatch_leaves s c g pc (.quit p)
    exact ⟨_, quit_waits h ⟨l, hl, hfar⟩, hmem, fun q hq => by rw [hstalled q hq]⟩
  · obtain hlast | ⟨l, hl, hne, harr⟩ := hwho
    · obtain ⟨t, hexec, hmem, hended, hdrains⟩ := quit_last h hfar hfail hlast
      exact ⟨t, hexec, hmem, hended, fun _ => hdrains⟩
    · obtain ⟨t, hexec, hmem, hended⟩ := quit_goesOn h hfar hfail hl hne harr
      exact ⟨t, hexec, hmem, hended, fun hlast => absurd (hlast l hl) hne⟩
  · exact arrives_waits (gangSettle_someStay hstay) (role_arrives h topc)
  · exact arrives_waits ((gangSettle_allRole h hlanes hlib rfl hkind).trans (if_neg hpend))
      (role_arrives h topc)
  · refine ⟨_, role_arrives h topc, ?_⟩
    rw [countBatch_arrives, gangSettle_allRole h hlanes hlib rfl hkind, if_pos hpend]
    obtain ⟨hbound, hfibres⟩ := takeRole_leaves (s.setCore c ((s.core c).setGang g
      (arrivedGang s c g pc (.role topc) (.role topc.toNat)))) c g ((s.core c).prickAt topc.toNat)
    rw [roleFibres, State.core_setCore] at hfibres
    exact ⟨fun q => by rw [takeRole_mem, State.setCore_mem], hbound, hfibres⟩
  · exact arrives_waits (gangSettle_someStay hstay) (lbar_arrives h)
  · refine ⟨_, lbar_arrives h, ?_⟩
    rw [countBatch_arrives]
    exact lbar_ends h hlanes hlib rfl hfail hlanded

end Sys2Proof.Machine
end

section
/-! LFENCE whose fibre keeps a stale arrival (R190, R202). -/
namespace Sys2Proof.Machine

/-- A gang of one fibre, ready at its instruction, that keeps the mark of a role in `arrived`. -/
def staleGang : Gang :=
  { Gang.empty with
    st := .running, depth := 1, bound := 8, res := 8,
    fibres := [(0, { pc := 0x1000, k := 0x7F, st := .ready, arrived := .role 0x70, stamp := 0, seeds := [] })] }

/-- The binding of the role: a routine of two fibres of eight registers. -/
def staleRole : Prick :=
  { kind := 2, inpl := false, fibm1 := 1, regm1 := 7, gpri := 0, use := 0, outp := 0, eng := 0,
    entry := 0x2000, adj := 0 }

/-- A core that runs the gang, with a store of its fibre still in the write buffers. -/
def staleState : State :=
  { (State.reset.withFetchWord 16 0).modCore 0 (fun k => Core.putStore (.fibre 0 0) 0 .gm 0x2000 Trans.none [1]
      { k.setGang 0 staleGang with prick := [(0x70, staleRole)] }) with focus := .gang 0 0 }

abbrev always : Pred := ⟨false, 0⟩

theorem staleState_issues : GangIssues staleState 0 0 0x1000 := by
  unfold GangIssues
  decide +kernel

theorem staleState_unmet :
    ¬ lfenceMet staleState 0 0 .rel false .system (batchOf staleState 0 0 0x1000 (.lnop always)).act = true := by
  decide +kernel

/-- The device to which an outcome leads, or s where it leads to none. -/
def nextOr (s : State) (o : Out) : State := match o with
  | .next t => t
  | .fault _ => s
  | .refused _ => s

/-- The fibre that is to wait counts as arrived for the role, which begins and makes it ready. -/
theorem staleState_takesRole : 0 ∈ (batchOf staleState 0 0 0x1000 (.lnop always)).lanes ∧
    ((((nextOr staleState (exec (.lfence always .rel false .system) staleState)).core 0).gangAt 0).fibre 0).st =
      .ready := by
  decide +kernel

/-- Refutes O38: the clause of a fence that is not met allows that a fibre of the batch keeps a mark in `arrived`, which
O36 rules out. On `staleState` the one live fibre, once it is WAITING, counts as arrived for a role (R202), so that the
role begins and leaves it READY. -/
theorem not_laneFencesAndHandles : ¬ Obligations.LaneFencesAndHandles := by
  unfold Obligations.LaneFencesAndHandles
  intro h
  obtain ⟨-, hunmet, -⟩ := h staleState 0 0 0x1000 always .rel false .system 0 0 staleState_issues
  obtain ⟨t, op, hexec, -, -, -, -, -, -, -, hwaits, -⟩ := hunmet staleState_unmet
  obtain ⟨hlane, hready⟩ := staleState_takesRole
  rw [hexec, nextOr, hwaits 0 hlane] at hready
  exact nomatch hready

end Sys2Proof.Machine
end

section
/-! The value of a waiting batch returns (R188, R192 to R195, R204). -/
namespace Sys2Proof.Machine

/-! ## An operation that ends -/

section
variable (x : Gang) (n pc : Nat) (op : LaneOp)

theorem endOp_rest : endOp x n pc op = { x with fibres := (endOp x n pc op).fibres, ops := x.ops.eraseIdx n } := by
  rw [endOp, modFibres_eq, List.eraseIdx_eq_take_drop_succ]

theorem endOp_reg (l r : Nat) : (endOp x n pc op).reg l r = x.reg l r := by
  rw [← modFibres_reg (x := x) (ls := op.lanes)
    (f := fun f => if f.st = .waiting then { f with st := .ready, pc := pc } else f)
    (fun f => by split <;> rfl) l r]
  rfl

variable {x op} in
theorem endOp_fibre (hn : op.lanes.Nodup) (hw : ∀ q ∈ op.lanes, (x.fibre q).st = .waiting) {q : Nat}
    (hq : q ∈ op.lanes) :
    (endOp x n pc op).fibre q = { x.fibre q with st := .ready, pc := pc } :=
  (modFibres_fibre_in hn hq).trans (if_pos (hw q hq))

end

/-- The gang y is x with other registers. -/
def RegsOnly (x y : Gang) : Prop := y = { x with regs := y.regs }

theorem regsOnly_setR (x : Gang) (l : Nat) (d : GReg) (v : W32) : RegsOnly x (setR x l d v) := rfl
theorem regsOnly_setP (x : Gang) (l : Nat) (d : GReg) (v : W64) : RegsOnly x (setP x l d v) := rfl

theorem regsOnly_putLoad (sz : Size) (sx : Bool) (d : GReg) (x : Gang) (l : Nat) (v : W64) :
    RegsOnly x (putLoad sz sx d x l v) := by
  unfold putLoad
  split
  · exact regsOnly_setP ..
  · exact regsOnly_setR ..

/-- The device once operation n has ended and the lane's value is written. -/
def valueReturned (s : State) (c g n : Nat) (op : LaneOp) (l : Nat) (v : W64) : State :=
  modGang s c g (fun x => opPut op.i (endOp x n (va57 (op.pc + 8)) op) l v)

section
variable {s : State} {c g n l : Nat} {op : LaneOp} {v : W64}

theorem gangAt_valueReturned : ((valueReturned s c g n op l v).core c).gangAt g =
    opPut op.i (endOp ((s.core c).gangAt g) n (va57 (op.pc + 8)) op) l v := gangAt_modGang ..

theorem valueReturned_mem : (valueReturned s c g n op l v).mem = s.mem := rfl

theorem valueReturned_ts : ((valueReturned s c g n op l v).core c).ts = (s.core c).ts := by
  rw [valueReturned, modGang, State.core_modCore]
  rfl

/-- The last value that an operation waits for ends it. -/
theorem gotOp_last {sp : Space} {ad : Nat} (haddrs : op.addrs = [(l, sp, ad)]) (hgot : op.got = [])
    (hwait : isLwait op.i = false) : gotOp s c g n op [(l, v)] = valueReturned s c g n op l v := by
  rw [gotOp, hgot, haddrs]
  refine (if_neg (Nat.lt_irrefl 1)).trans ?_
  rw [finishOp]
  dsimp only
  have hfind : ([] ++ [(l, v)]).find? (fun r => r.1 == l) = some (l, v) :=
    List.find?_cons_of_pos (beq_self_eq_true l)
  simp only [hwait, Bool.false_eq_true, if_false, List.findSome?_nil, List.foldl_cons, List.foldl_nil, hfind]
  rw [modGang_modCore]
  rfl


/-- The fibres of the operation go on, and it stands no longer. -/
theorem valueReturned_ends {s1 : State} (hgang : (s1.core c).gangAt g = (s.core c).gangAt g) (hmem : s1.mem = s.mem)
    (hput : ∀ x, RegsOnly x (opPut op.i x l v)) (hn : op.lanes.Nodup)
    (hw : ∀ q ∈ op.lanes, (((s.core c).gangAt g).fibre q).st = .waiting) :
    (∀ q ∈ op.lanes, (((valueReturned s1 c g n op l v).core c).gangAt g).fibre q =
      { ((s.core c).gangAt g).fibre q with st := .ready, pc := (op.pc + 8) % 2 ^ 57 }) ∧
    (((valueReturned s1 c g n op l v).core c).gangAt g).ops = ((s.core c).gangAt g).ops.eraseIdx n ∧
    SameMem s (valueReturned s1 c g n op l v) := by
  rw [gangAt_valueReturned, hgang, hput]
  refine ⟨fun q hq => endOp_fibre n _ hn hw hq, ?_, fun a => by rw [valueReturned_mem, hmem]⟩
  rw [endOp_rest]

end

/-! ## What returns to the one lane of an operation -/

section
variable {s : State} {c g n l ad : Nat} {sp : Space} {op : LaneOp} (hop : ((s.core c).gangAt g).ops[n]? = some op)
  (hl : l < 32) (haddrs : op.addrs = [(l, sp, ad)]) (hgot : op.got = [])

include haddrs hgot in
theorem open_single : op.open_ = [(l, sp, ad)] := by
  rw [LaneOp.open_, haddrs, hgot]
  rfl

include hop hl haddrs hgot

theorem loadResult_single (hfence : ∀ p kind istr sc, op.i ≠ .lfence p kind istr sc)
    (hfrozen : (s.core c).frozen = false)
    (hclear : clearOf (s.core c) op.deps = true) : loadResult c g (32 * n + l) s =
      if (opAcc op.i).2.2 = .atomic then stepAtomic s c g n op l sp ad else stepRead s c g n op l sp ad := by
  have hn : (32 * n + l) / 32 = n := by omega
  have hlane : (32 * n + l) % 32 = l := by omega
  have hfind : op.addrs.find? (fun e => e.1 == l) = some (l, sp, ad) := by
    rw [haddrs]
    exact List.find?_cons_of_pos (beq_self_eq_true l)
  unfold loadResult
  dsimp only
  rw [hn, hlane, hop]
  dsimp only
  split
  next hi => exact absurd hi (hfence _ _ _ _)
  next =>
    rw [open_single haddrs hgot, hfind, hgot, hfrozen, hclear]
    rfl

end

/-! ## Loads from tile store (R117, R188, R251) -/

section
variable {s : State} {c g n l ad : Nat} {op : LaneOp} {p : Pred} {sz : Size} {sx : Bool} {oh : Handle} {d a : GReg}
  {off : BitVec 16} (haddrs : op.addrs = [(l, .ts, ad)]) (hgot : op.got = []) (hi : op.i = .ldts p sz sx oh d a off)
  (hclean : tsPoisoned (s.core c) ad (sizeBytes sz) = false)

variable (s c g l ad sz oh) in
/-- What a load of a lane finds in tile store: its bytes there with the lane's own stores, or those found ahead. -/
def loadedBytes : List Byte :=
  (s.core c).found (.fibre g l) oh.toNat .ts ad
    (overlay ad (bytesAt (s.core c).ts ad (sizeBytes sz)) (forwards (s.core c) (.fibre g l) .ts ad (sizeBytes sz)))

theorem length_loadedBytes : (loadedBytes s c g l ad sz oh).length = sizeBytes sz := by
  unfold loadedBytes Core.found aheadOf
  rw [length_overlay, length_bytesAt]
  cases hfind : (s.core c).ahead.find? _ with
  | none => rw [Option.map_none, Option.getD_none, length_overlay, length_bytesAt]
  | some r =>
    have hlen := List.find?_some hfind
    simp only [Bool.and_eq_true, beq_iff_eq] at hlen
    exact hlen.2

include hi hclean

theorem opRead_ldts : opRead s c g op l .ts ad (sizeBytes sz) = .bytes (loadedBytes s c g l ad sz oh) := by
  have hacc : opAcc op.i = (sizeBytes sz, oh.toNat, .read) := by rw [hi]; rfl
  have hwait : isLwait op.i = false := by rw [hi]; rfl
  have hload (t : Trap) : tsLoad s c c (some (.fibre g l)) .ts ad (sizeBytes sz) t =
      .bytes (overlay ad (bytesAt (s.core c).ts ad (sizeBytes sz))
        (forwards (s.core c) (.fibre g l) .ts ad (sizeBytes sz))) := by
    rw [tsLoad, hclean]
    rfl
  unfold opRead
  rw [hacc, hwait]
  dsimp only
  rw [hload]
  exact ahead_bytes (by rw [length_overlay, length_bytesAt])

include haddrs hgot

theorem stepRead_ldts (hold : ∀ v ∈ (s.core c).vold, ¬ (v.core = c ∧ v.agent = .seq)) :
    stepRead s c g n op l .ts ad =
      valueReturned (s.modCore c (Core.useAhead (.fibre g l) oh.toNat .ts ad (sizeBytes sz))) c g n op l
        (w64 (leNat (loadedBytes s c g l ad sz oh))) := by
  have hacc : opAcc op.i = (sizeBytes sz, oh.toNat, .read) := by rw [hi]; rfl
  have hwait : isLwait op.i = false := by rw [hi]; rfl
  have hread := opRead_ldts (g := g) (l := l) hi hclean
  have hlow : lowestRd s c g op = none := by
    rw [lowestRd, open_single haddrs hgot, List.map_cons, List.map_nil, hacc, hread]
    rfl
  have hstale (bs : List Byte) : staleLoad s c c (.fibre g l) ad (sizeBytes sz) bs = (bs, s) := by
    have hnone : (s.core c).vold.filter (fun v => v.core == c && v.agent == .seq && Agent.fibre g l != .seq &&
        !v.seen.contains (c, Agent.fibre g l) && overlap v.off 64 ad (sizeBytes sz)) = [] :=
      List.filter_eq_nil_iff.mpr fun v hv htrue => by
        simp only [Bool.and_eq_true, beq_iff_eq] at htrue
        obtain ⟨⟨⟨hseq, -⟩, -⟩, -⟩ := htrue
        exact hold v hv hseq
    rw [staleLoad]
    dsimp only
    rw [hnone]
    rfl
  rw [stepRead, hacc]
  dsimp only
  rw [hlow, hread, hwait]
  dsimp only [ownerOf]
  rw [if_neg Bool.false_ne_true]
  have hafter : afterRead s c (.fibre g l) ad (sizeBytes sz) (Space.ts != Space.gm) .read = s := rfl
  split
  next => rw [hafter, gotOp_last haddrs hgot hwait]
  next => rw [hafter, hstale, gotOp_last haddrs hgot hwait]

end

/-! ## Extended values (R188) -/

theorem setWidth_extend (n : Nat) (sx : Bool) (v : Nat) : (extend n sx v).setWidth 32 =
    if sx then (BitVec.ofNat (8 * n) v).signExtend 32 else w32 v := by
  unfold extend
  split
  · refine BitVec.eq_of_getLsbD_eq fun i hi => ?_
    have hi64 : i < 64 := by omega
    rw [BitVec.getLsbD_setWidth, BitVec.getLsbD_signExtend, BitVec.getLsbD_signExtend, decide_eq_true hi,
      decide_eq_true hi64, Bool.true_and]
  · refine BitVec.eq_of_toNat_eq ?_
    simp only [w64, w32, BitVec.toNat_setWidth, BitVec.toNat_ofNat]
    omega

theorem toNat_w64_leNat {bs : List Byte} (h : bs.length ≤ 8) : (w64 (leNat bs)).toNat = leNat bs := by
  have hlt := leNat_lt bs
  have hpow : 256 ^ bs.length ≤ 256 ^ 8 := Nat.pow_le_pow_right (by omega) h
  rw [w64, BitVec.toNat_ofNat]
  exact Nat.mod_eq_of_lt (by omega)

section
variable (x : Gang) (l : Nat) (d : GReg)

theorem setP_reg_low (v : W64) : (setP x l d v).reg l d.toNat = v.setWidth 32 := by
  have hkey : regKey l d.toNat ≠ regKey l (d.toNat + 1) := by simp only [regKey]; omega
  unfold setP Gang.setPair Gang.reg Gang.setReg
  dsimp only
  rw [mget_mset_other _ _ _ hkey, mget_mset_same]

theorem setP_reg_high (v : W64) : (setP x l d v).reg l (d.toNat + 1) = (v >>> 32).setWidth 32 := Gang.reg_setReg ..

theorem putLoad_reg {sz : Size} (hsz : sz ≠ .b64) (sx : Bool) {bs : List Byte} (hbs : bs.length = sizeBytes sz) :
    (putLoad sz sx d x l (w64 (leNat bs))).reg l d.toNat =
      if sx then (BitVec.ofNat (8 * sizeBytes sz) (leNat bs)).signExtend 32 else w32 (leNat bs) := by
  have hsize : sizeBytes sz ≤ 8 := by cases sz <;> decide
  rw [putLoad, if_neg hsz, setR, Gang.reg_setReg, toNat_w64_leNat (hbs ▸ hsize), setWidth_extend]

theorem putLoad_reg_pair (sx : Bool) {bs : List Byte} (hbs : bs.length ≤ 8) :
    (putLoad .b64 sx d x l (w64 (leNat bs))).reg l d.toNat = w32 (leNat bs) ∧
    (putLoad .b64 sx d x l (w64 (leNat bs))).reg l (d.toNat + 1) = w32 (leNat bs / 2 ^ 32) := by
  have hv := toNat_w64_leNat hbs
  rw [putLoad, if_pos rfl, setP_reg_low, setP_reg_high]
  constructor
  · refine BitVec.eq_of_toNat_eq ?_
    rw [BitVec.toNat_setWidth, hv, w32, BitVec.toNat_ofNat]
  · refine BitVec.eq_of_toNat_eq ?_
    rw [BitVec.toNat_setWidth, BitVec.toNat_ushiftRight, hv, w32, BitVec.toNat_ofNat, Nat.shiftRight_eq_div_pow]

end

/-! ## Atomics on tile store (R193 to R195) -/

section
variable {s : State} {c g n l ad m : Nat} {op : LaneOp} {h : Nat}
  (haddrs : op.addrs = [(l, .ts, ad)]) (hgot : op.got = [])
  (hacc : opAcc op.i = (m, h, .atomic)) (hclean : tsPoisoned (s.core c) ad m = false)
include hacc hclean

theorem atomicRd_ts : atomicRd s c g op (l, .ts, ad) = .bytes (bytesAt (s.core c).ts ad m) := by
  have hremote : isRemote s c .ts ad = false := rfl
  have hload (t : Trap) : tsLoad s c c none .ts ad m t = .bytes (bytesAt (s.core c).ts ad m) := by
    rw [tsLoad, hclean]
    rfl
  rw [atomicRd]
  dsimp only
  rw [hremote, hacc]
  exact hload _

include haddrs hgot

/-- One lane's group lands as one, and the old value returns. -/
theorem stepAtomic_ts {new : W64} (hwait : isLwait op.i = false)
    (heff : groupEffect op.i ((s.core c).gangAt g) [l] (w64 (leNat (bytesAt (s.core c).ts ad m))) =
      ([w64 (leNat (bytesAt (s.core c).ts ad m))], new)) :
    stepAtomic s c g n op l .ts ad = valueReturned (landTs s c 1 ad (leBytes m new.toNat)) c g n op l
      (w64 (leNat (bytesAt (s.core c).ts ad m))) := by
  have hopen := open_single haddrs hgot
  have hread := atomicRd_ts (g := g) (l := l) hacc hclean
  have hstop : atomicStop s c g op = none := by
    rw [atomicStop, hopen, List.findSome?_cons, hread]
    rfl
  have hgroup : (opGroup op .ts ad).filter (fun q => !op.got.any (·.1 == q)) = [l] := by
    simp [opGroup, haddrs, hgot]
  rw [stepAtomic, hacc]
  dsimp only
  rw [hstop, hread, hgroup]
  dsimp only
  rw [hopen, heff]
  exact gotOp_last haddrs hgot hwait

end

theorem gangAt_landTs (s : State) (c src off : Nat) (bs : List Byte) (g : Nat) :
    ((landTs s c src off bs).core c).gangAt g = (s.core c).gangAt g := by
  rw [landTs, State.core_modCore, cfgOnly_monLand]
  rfl

/-- The bytes of tile store once an atomic has landed: its new value, and every other byte as it was. -/
theorem atomic_lands {s : State} {c g n l ad m : Nat} {op : LaneOp} {v new : W64} (hnew : new.toNat < 2 ^ (8 * m)) :
    leNat (bytesAt ((valueReturned (landTs s c 1 ad (leBytes m new.toNat)) c g n op l v).core c).ts ad m) =
      new.toNat ∧
    ∀ y, y < ad ∨ ad + m ≤ y →
      byteAt ((valueReturned (landTs s c 1 ad (leBytes m new.toNat)) c g n op l v).core c).ts y =
        byteAt (s.core c).ts y := by
  rw [valueReturned_ts, landTs_ts]
  refine ⟨?_, fun y hy => byteAt_putBytes_other _ _ _ _ (by rwa [length_leBytes])⟩
  exact (numAt_putBytes_leBytes _ _ _ _).trans (Nat.mod_eq_of_lt hnew)

theorem toNat_cutW_lt (w : Bool) (v : W64) : (cutW w v).toNat < 2 ^ (8 * wBytes w) := by
  cases w with
  | true => exact v.isLt
  | false =>
    rw [cutW, if_neg Bool.false_ne_true, BitVec.toNat_setWidth_of_le (by decide)]
    exact (v.setWidth 32).isLt

theorem toNat_wVal_lt (w : Bool) (r : GReg) (x : Gang) (l : Nat) : (wVal w r x l).toNat < 2 ^ (8 * wBytes w) := by
  cases w with
  | true => exact (rp x l r).isLt
  | false =>
    rw [wVal, if_neg Bool.false_ne_true, BitVec.toNat_setWidth_of_le (by decide)]
    exact (rg x l r).isLt

theorem toNat_w64_bytes_lt (w : Bool) (m : Map Byte) (a : Nat) :
    (w64 (leNat (bytesAt m a (wBytes w)))).toNat < 2 ^ (8 * wBytes w) := by
  have hlen : (bytesAt m a (wBytes w)).length = wBytes w := length_bytesAt ..
  rw [toNat_w64_leNat (by rw [hlen]; cases w <;> decide)]
  have hlt := leNat_lt (bytesAt m a (wBytes w))
  rwa [hlen, show 256 = 2 ^ 8 from rfl, ← pow_mul] at hlt

/-- The value that an atomic returns, in its register or in the low one of its pair. -/
theorem returned_low (w : Bool) (x : Gang) (l : Nat) (d : GReg) (v : W64) :
    (if w then setP x l d v else setR x l d (v.setWidth 32)).reg l d.toNat = v.setWidth 32 := by
  cases w with
  | true => exact setP_reg_low ..
  | false => exact Gang.reg_setReg ..

theorem regsOnly_returned (w : Bool) (x : Gang) (l : Nat) (d : GReg) (v : W64) :
    RegsOnly x (if w then setP x l d v else setR x l d (v.setWidth 32)) := by
  cases w with
  | true => exact regsOnly_setP ..
  | false => exact regsOnly_setR ..

/-! ## The last read of an LWAIT (R86, R192, R381) -/

/-- What a read of an LWAIT leaves for the end of its batch: the gang, the failures and global memory. -/
def QuietRead (s s1 : State) (c g : Nat) : Prop :=
  s1.mem = s.mem ∧ (s1.core c).gangAt g = (s.core c).gangAt g ∧ (s1.core c).failures = (s.core c).failures

theorem quietRead_dropReply {s s1 : State} {c g : Nat} (who : ReqFor) (h : QuietRead s s1 c g) :
    QuietRead s (dropReply s1 c who) c g := by
  obtain ⟨hmem, hgang, hfail⟩ := h
  refine ⟨hmem, ?_, ?_⟩
  · rw [dropReply, State.core_modCore]
    exact hgang
  · rw [dropReply, State.core_modCore]
    exact hfail

theorem quietRead_after (s : State) (c g : Nat) (ag : Agent) (ad m : Nat) :
    QuietRead s (afterRead s c ag ad m false .read) c g := by
  refine quietRead_dropReply _ ⟨(elsewhere_keepVa s c ad .read).mem, ?_, ?_⟩
  · rw [core_keepVa]
    rfl
  · rw [core_keepVa]

theorem quietRead_forget (s : State) (c g : Nat) (who : ReqFor) : QuietRead s (forgetReq s c who) c g :=
  quietRead_dropReply _ ⟨rfl, rfl, rfl⟩

section
variable {s : State} {c g n l ad : Nat} {op : LaneOp} {p : Pred} {cc : WaitCc} {sc : Scope} {kd : PReg} {a b : GReg}
  {tmo : BitVec 16} (haddrs : op.addrs = [(l, .gm, ad)]) (hgot : op.got = []) (hi : op.i = .lwait p cc sc kd a b tmo)

variable (s c g l ad op cc b) in
/-- The condition of the lane as the last read finds it. -/
def lastHolds : Bool := clearOf (s.core c) op.deps && match opRead s c g op l .gm ad 8 with
  | .bytes bs => waitCc cc (w64 (leNat bs)) (((s.core c).gangAt g).pair l b.toNat)
  | _ => false

variable (l op) in
/-- The operation after its last read. -/
def lastOp (holds : Bool) : LaneOp := { op with got := if holds then [(l, 1)] else [] }

include haddrs hgot hi

theorem lwaitLast_single : ∃ s1, lwaitLast s c g op = (s1, lastOp l op (lastHolds s c g l ad op cc b)) ∧
    QuietRead s s1 c g := by
  have hnone : lastOp l op false = op := by rw [lastOp, ← hgot]; rfl
  rw [lwaitLast, lastHolds, open_single haddrs hgot]
  cases clearOf (s.core c) op.deps with
  | false => exact ⟨s, by rw [Bool.false_and, hnone]; rfl, rfl, rfl, rfl⟩
  | true =>
    rw [if_pos rfl, List.foldl_cons, List.foldl_nil, Bool.true_and]
    dsimp only
    cases opRead s c g op l .gm ad 8 with
    | wait t => exact ⟨_, by rw [hnone], quietRead_forget ..⟩
    | stop st => exact ⟨_, by rw [hnone], quietRead_forget ..⟩
    | bytes bs =>
      refine ⟨_, Prod.ext rfl ?_, quietRead_after ..⟩
      have hcond : lwaitHolds op ((s.core c).gangAt g) l (w64 (leNat bs)) =
          waitCc cc (w64 (leNat bs)) (((s.core c).gangAt g).pair l b.toNat) := by rw [lwaitHolds, hi]; rfl
      dsimp only
      rw [hcond, hgot]
      cases waitCc cc (w64 (leNat bs)) (((s.core c).gangAt g).pair l b.toNat) with
      | true => rfl
      | false => exact hnone.symm

omit hgot in
/-- The batch goes on with what the last read found in its predicate; a condition that held reports no failure. -/
theorem finishOp_lwait {s1 : State} (holds : Bool) (hfail : holds = true → (s1.core c).failures = []) :
    (finishOp s1 c g n (lastOp l op holds)).mem = s1.mem ∧
    ((finishOp s1 c g n (lastOp l op holds)).core c).gangAt g =
      setK (endOp ((s1.core c).gangAt g) n (va57 (op.pc + 8)) op) l kd.toNat holds := by
  have hwait : isLwait op.i = true := by rw [hi]; rfl
  rw [finishOp, lastOp]
  dsimp only
  rw [hwait, if_pos rfl, haddrs]
  cases holds with
  | true =>
    have hfind : [(l, (1 : W64))].find? (fun r => r.1 == l) = some (l, 1) :=
      List.find?_cons_of_pos (beq_self_eq_true l)
    rw [List.findSome?_eq_none_iff.mpr fun q _ => failureTrap_none (hfail rfl) _ _]
    dsimp only
    rw [modGang_modCore, State.core_setCore, Core.gangAt_setGang, List.foldl_cons, List.foldl_nil]
    simp only [if_true, hfind]
    rw [hi]
    exact ⟨rfl, rfl⟩
  | false =>
    simp only [Bool.false_eq_true, if_false, List.filter_nil, List.map_nil, List.findSome?_nil, List.find?_nil, if_true]
    rw [modGang_modCore, State.core_setCore, Core.gangAt_setGang, List.foldl_cons, List.foldl_nil, hi]
    exact ⟨rfl, rfl⟩

end

theorem setK_fibre (x : Gang) (l k : Nat) (v : Bool) (q : Nat) :
    (setK x l k v).fibre q = if q = l then withK k v (x.fibre l) else x.fibre q := by
  have hset : setK x l k v = x.setFibre l (withK k v (x.fibre l)) := rfl
  rw [hset]
  split
  next h => rw [h, Gang.fibre_setFibre]
  next h => rw [Gang.fibre_setFibre_other _ _ h]

theorem withK_bit {k : Nat} (h0 : k ≠ 0) (h8 : k < 8) (v : Bool) (f : Fibre) : (withK k v f).k.getLsbD k = v := by
  have hone : (1#8).getLsbD k = false := by
    rw [BitVec.getLsbD_one]
    simp [h0]
  have hbit : (BitVec.ofNat 8 (2 ^ k)).getLsbD k = true := by
    rw [BitVec.getLsbD_ofNat, decide_eq_true h8, Nat.testBit_two_pow_self]
    rfl
  have hword : (withK k v f).k =
      (if v then f.k ||| BitVec.ofNat 8 (2 ^ k) else f.k &&& ~~~BitVec.ofNat 8 (2 ^ k)) ||| 1#8 := rfl
  rw [hword, BitVec.getLsbD_or, hone, Bool.or_false]
  cases v with
  | true => rw [if_pos rfl, BitVec.getLsbD_or, hbit, Bool.or_true]
  | false =>
    rw [if_neg Bool.false_ne_true, BitVec.getLsbD_and, BitVec.getLsbD_not, hbit, Bool.not_true, Bool.and_false,
      Bool.and_false]

section
variable {s : State} {c g n l ad : Nat} {op : LaneOp} {p : Pred} {cc : WaitCc} {sc : Scope} {kd : PReg} {a b : GReg}
  {tmo : BitVec 16} (hop : ((s.core c).gangAt g).ops[n]? = some op) (hl : l < 32)
  (hi : op.i = .lwait p cc sc kd a b tmo)
include hop hl hi

theorem exec_lwaitTimeout : exec (.lwaitTimeout c g (32 * n + l)) s =
    if tmo != 0 && decide (op.since + 64 * tmo.toNat ≤ ((s.core c).gangAt g).cycle) then
      .next (finishOp (lwaitLast s c g op).1 c g n (lwaitLast s c g op).2)
    else .next s := by
  have hn : (32 * n + l) / 32 = n := by omega
  have hexec : exec (.lwaitTimeout c g (32 * n + l)) s = execLwaitTimeout c g (32 * n + l) s := rfl
  rw [hexec, execLwaitTimeout]
  dsimp only
  rw [hn, hop]
  dsimp only
  rw [hi]

theorem lwait_early (h : ((s.core c).gangAt g).cycle < op.since + 64 * tmo.toNat) :
    exec (.lwaitTimeout c g (32 * n + l)) s = .next s := by
  rw [exec_lwaitTimeout hop hl hi, decide_eq_false (Nat.not_le.mpr h), Bool.and_false]
  exact if_neg Bool.false_ne_true

theorem lwait_late (haddrs : op.addrs = [(l, .gm, ad)]) (hgot : op.got = []) (hn : op.lanes.Nodup)
    (hmem : l ∈ op.lanes)
    (hw : ∀ q ∈ op.lanes, (((s.core c).gangAt g).fibre q).st = .waiting) (htmo : tmo ≠ 0)
    (hlate : op.since + 64 * tmo.toNat ≤ ((s.core c).gangAt g).cycle)
    (hfail : lastHolds s c g l ad op cc b = true → (s.core c).failures = []) :
    ∃ t, exec (.lwaitTimeout c g (32 * n + l)) s = .next t ∧ SameMem s t ∧
      (∀ q ∈ op.lanes, (((t.core c).gangAt g).fibre q).st = .ready ∧
        (((t.core c).gangAt g).fibre q).pc = va57 (op.pc + 8)) ∧
      (kd ≠ 0 → (((t.core c).gangAt g).fibre l).k.getLsbD kd.toNat = lastHolds s c g l ad op cc b) := by
  obtain ⟨s1, hlast, hsame, hgang, hfails⟩ := lwaitLast_single (s := s) (c := c) (g := g) haddrs hgot hi
  obtain ⟨hend, hfin⟩ := finishOp_lwait (c := c) (g := g) (n := n) haddrs hi (lastHolds s c g l ad op cc b)
    (fun hh => hfails.trans (hfail hh))
  refine ⟨_, ?_, fun q => by rw [hend, hsame], ?_⟩
  · rw [exec_lwaitTimeout hop hl hi, bne_iff_ne.mpr htmo, decide_eq_true hlate, hlast]
    exact if_pos rfl
  · rw [hfin, hgang]
    refine ⟨fun q hq => ?_, fun hkd => ?_⟩
    · rw [setK_fibre]
      split
      next hql =>
        rw [endOp_fibre n _ hn hw hmem]
        exact ⟨rfl, rfl⟩
      next =>
        rw [endOp_fibre n _ hn hw hq]
        exact ⟨rfl, rfl⟩
    · rw [setK_fibre, if_pos rfl]
      exact withK_bit (fun h0 => hkd (BitVec.eq_of_toNat_eq h0)) kd.isLt _ _

end

section
variable {s : State} {c g n l ad : Nat} {op : LaneOp} {p : Pred} {oh : Handle} {d a b e : GReg}
  (hop : ((s.core c).gangAt g).ops[n]? = some op) (hl : l < 32) (haddrs : op.addrs = [(l, .ts, ad)])
  (hgot : op.got = []) (hfrozen : (s.core c).frozen = false) (hclear : clearOf (s.core c) op.deps = true)
include hop hl haddrs hgot hfrozen hclear

theorem exec_ldts {sz : Size} {sx : Bool} {off : BitVec 16} (hi : op.i = .ldts p sz sx oh d a off)
    (hclean : tsPoisoned (s.core c) ad (sizeBytes sz) = false)
    (hold : ∀ v ∈ (s.core c).vold, ¬ (v.core = c ∧ v.agent = .seq)) :
    exec (.loadResult c g (32 * n + l)) s =
      .next (valueReturned (s.modCore c (Core.useAhead (.fibre g l) oh.toNat .ts ad (sizeBytes sz))) c g n op l
        (w64 (leNat (loadedBytes s c g l ad sz oh)))) := by
  have hexec : exec (.loadResult c g (32 * n + l)) s = .next (loadResult c g (32 * n + l) s) := rfl
  have hacc : opAcc op.i = (sizeBytes sz, oh.toNat, .read) := by rw [hi]; rfl
  rw [hexec, loadResult_single hop hl haddrs hgot (fun _ _ _ _ => by rw [hi]; exact nofun) hfrozen hclear, hacc,
    if_neg nofun, stepRead_ldts haddrs hgot hi hclean hold]

/-- An atomic on tile store lands its new value, and its old one returns. -/
theorem exec_atomic {m h : Nat} {new : W64} (hacc : opAcc op.i = (m, h, .atomic)) (hwait : isLwait op.i = false)
    (hfence : ∀ p kind istr sc, op.i ≠ .lfence p kind istr sc) (hclean : tsPoisoned (s.core c) ad m = false)
    (heff : groupEffect op.i ((s.core c).gangAt g) [l] (w64 (leNat (bytesAt (s.core c).ts ad m))) =
      ([w64 (leNat (bytesAt (s.core c).ts ad m))], new)) :
    exec (.loadResult c g (32 * n + l)) s = .next (valueReturned (landTs s c 1 ad (leBytes m new.toNat)) c g n op l
      (w64 (leNat (bytesAt (s.core c).ts ad m)))) := by
  have hexec : exec (.loadResult c g (32 * n + l)) s = .next (loadResult c g (32 * n + l) s) := rfl
  rw [hexec, loadResult_single hop hl haddrs hgot hfence hfrozen hclear, hacc, if_pos rfl,
    stepAtomic_ts haddrs hgot hacc hclean hwait heff]

end

/-- Settles O37: the one lane's value ends its operation, and a late LWAIT ends with what its last read finds. -/
theorem laneValuesReturn : Obligations.LaneValuesReturn := by
  unfold Obligations.LaneValuesReturn
  refine ⟨fun s c g n l ad op p oh d a b e hop hl haddrs hgot hfrozen hclear hn hw => ⟨?_, ?_, ?_⟩, ?_⟩
  · intro sz sx off hi hclean hold
    have hput (x : Gang) (v : W64) : opPut op.i x l v = putLoad sz sx d x l v := by rw [hi]; rfl
    have hgang : ((s.modCore c (Core.useAhead (.fibre g l) oh.toNat .ts ad (sizeBytes sz))).core c).gangAt g =
        (s.core c).gangAt g := by rw [State.core_modCore]; rfl
    refine ⟨_, exec_ldts hop hl haddrs hgot hfrozen hclear hi hclean hold,
      valueReturned_ends hgang rfl (fun x => by rw [hput]; exact regsOnly_putLoad ..) hn hw,
      ?_, fun hsz => ?_, fun hsz => ?_⟩
    · rw [valueReturned_ts, State.core_modCore]
      rfl
    · rw [gangAt_valueReturned, hput]
      exact putLoad_reg _ l d hsz sx length_loadedBytes
    · subst hsz
      rw [gangAt_valueReturned, hput]
      exact putLoad_reg_pair _ l d sx (Nat.le_of_eq length_loadedBytes)
  · intro fn nr w tp port off hi hclean old v
    have hput (x : Gang) (v : W64) : opPut op.i x l v =
        if nr then x else if w then setP x l d v else setR x l d (v.setWidth 32) := by rw [hi]; rfl
    have hnew : (atomOpW fn w old v).toNat < 2 ^ (8 * wBytes w) := toNat_cutW_lt w _
    obtain ⟨hvalue, hother⟩ := atomic_lands (s := s) (c := c) (g := g) (n := n) (l := l) (ad := ad) (op := op)
      (v := old) hnew
    refine ⟨_, exec_atomic hop hl haddrs hgot hfrozen hclear (m := wBytes w) (h := oh.toNat)
      (new := atomOpW fn w old v) (by rw [hi]; rfl) (by rw [hi]; rfl)
      (fun _ _ _ _ => by rw [hi]; exact nofun) hclean (by rw [hi]; rfl),
      valueReturned_ends (gangAt_landTs ..) rfl (fun x => ?_) hn hw, hvalue, hother, fun hnr => ?_, fun hnr r => ?_⟩
    · rw [hput]
      split
      · rfl
      · exact regsOnly_returned ..
    · rw [gangAt_valueReturned, hput, hnr, if_neg Bool.false_ne_true]
      exact returned_low ..
    · rw [gangAt_valueReturned, hput, hnr, if_pos rfl, endOp_reg, gangAt_landTs]
  · intro w tp port off hi hclean old exp new
    have hput (x : Gang) (v : W64) : opPut op.i x l v =
        if w then setP x l d v else setR x l d (v.setWidth 32) := by rw [hi]; rfl
    have hnew : (if old = exp then new else old).toNat < 2 ^ (8 * wBytes w) := by
      split
      · exact toNat_wVal_lt w e _ l
      · exact toNat_w64_bytes_lt w _ ad
    obtain ⟨hvalue, -⟩ := atomic_lands (s := s) (c := c) (g := g) (n := n) (l := l) (ad := ad) (op := op)
      (v := old) hnew
    refine ⟨_, exec_atomic hop hl haddrs hgot hfrozen hclear (m := wBytes w) (h := oh.toNat)
      (new := if old = exp then new else old) (by rw [hi]; rfl) (by rw [hi]; rfl)
      (fun _ _ _ _ => by rw [hi]; exact nofun) hclean (by rw [hi]; rfl),
      valueReturned_ends (gangAt_landTs ..) rfl (fun x => by rw [hput]; exact regsOnly_returned ..) hn hw, hvalue, ?_⟩
    rw [gangAt_valueReturned, hput]
    exact returned_low ..
  · intro s c g n l ad op p a b cc sc kd tmo x hop hl haddrs hgot hn hmem hw hi htmo holds
    exact ⟨lwait_late hop hl hi haddrs hgot hn hmem hw htmo, lwait_early hop hl hi⟩

end Sys2Proof.Machine
end

section
/-! The form of memory (log entry 5), said of whatever carries a device: a fold, an outcome, a slot, the result of a
lane instruction.

The sections about this form set `Elab.async false`: their lemmas are short and cite one another, and each that
waited for another would hold a thread with a stack of its own. -/
namespace Sys2Proof.Machine

set_option Elab.async false

variable {s t : State} {c n : Nat}

/-! ## Devices -/

/-- What leaves memory alone keeps its form. -/
theorem State.Inv.of_mem (h : s.Inv) (hmem : t.mem = s.mem) : t.Inv := by
  rw [State.Inv, hmem]
  exact h

theorem inv_ite {p : Prop} [Decidable p] (hs : s.Inv) (ht : t.Inv) : (if p then s else t).Inv := by
  split
  · exact hs
  · exact ht

theorem inv_ite_fst {α : Type} {p : Prop} [Decidable p] {x y : State × α} (hx : x.1.Inv) (hy : y.1.Inv) :
    (if p then x else y).1.Inv := by
  split
  · exact hx
  · exact hy

theorem inv_ite_snd {α : Type} {p : Prop} [Decidable p] {x y : α × State} (hx : x.2.Inv) (hy : y.2.Inv) :
    (if p then x else y).2.Inv := by
  split
  · exact hx
  · exact hy

theorem inv_foldl_mem {α : Type} {f : State → α → State} {l : List α}
    (hf : ∀ s, ∀ a ∈ l, s.Inv → (f s a).Inv) (h : s.Inv) : (l.foldl f s).Inv :=
  List.foldlRecOn l f h fun s hs a ha => hf s a ha hs

theorem inv_foldl {α : Type} {f : State → α → State} {l : List α} (hf : ∀ s a, s.Inv → (f s a).Inv) (h : s.Inv) :
    (l.foldl f s).Inv :=
  inv_foldl_mem (fun s a _ => hf s a) h

/-- A fold that carries a device and something else. -/
theorem inv_foldl_fst {α β : Type} {f : State × β → α → State × β} {l : List α} {p : State × β}
    (hf : ∀ p a, p.1.Inv → (f p a).1.Inv) (h : p.1.Inv) : (l.foldl f p).1.Inv :=
  List.foldlRecOn l f (motive := fun p => p.1.Inv) h fun p hp a _ => hf p a hp

theorem inv_setCore {k : Core} (h : s.Inv) : (s.setCore c k).Inv := h
theorem inv_modCluster {f : Cluster → Cluster} (h : s.Inv) : (s.modCluster n f).Inv := h
theorem inv_setPoison {ps : List Nat} (h : s.Inv) : ({ s with poison := ps } : State).Inv := h
theorem inv_setMotif {m : Motif} (h : s.Inv) : (s.setMotif m).Inv := h
theorem inv_modCore {f : Core → Core} (h : s.Inv) : (s.modCore c f).Inv := h

/-! ## Outcomes, slots and the results of lane instructions -/

/-- Where an outcome leads, memory is in its form. -/
def NextInv (o : Out) : Prop := ∀ t, o = .next t → t.Inv

theorem nextInv_next (h : s.Inv) : NextInv (.next s) := by
  rintro _ ⟨⟩
  exact h

theorem nextInv_ite {p : Prop} [Decidable p] {o o' : Out} (h : NextInv o) (h' : NextInv o') :
    NextInv (if p then o else o') := by
  split
  · exact h
  · exact h'

/-- What a slot does while it waits, as its effect and after its bundle keeps the form of memory. -/
structure SlotSem.Keeps (x : SlotSem) : Prop where
  poll : ∀ e s b, s.Inv → (x.poll e s b).Inv := by exact fun _ _ _ h => h
  eff : ∀ e s, s.Inv → (x.eff e s).Inv := by exact fun _ _ h => h
  post : ∀ e s, s.Inv → (x.post e s).Inv := by exact fun _ _ h => h

/-- The device that a lane instruction leaves, if it leaves one, has its memory in its form. -/
def LaneRes.Inv : LaneRes → Prop
  | .go s | .stall s => s.Inv
  | .stop _ _ => True

end Sys2Proof.Machine
end

section
/-! The shared operations keep the form of memory: what leaves the device, what is cached, the unpick log. -/
namespace Sys2Proof.Machine

set_option Elab.async false

variable {s : State} {c : Nat}

/-! ## What leaves the device -/

theorem inv_freeBytes {n} (h : s.Inv) : (freeBytes s n).2.Inv := h
theorem inv_putEvent {kind addr detail} (h : s.Inv) : (putEvent s kind addr detail).Inv := h.of_mem (putEvent_mem ..)
theorem inv_freezeMaster {kind master addr acc ctx mpos} (h : s.Inv) :
    (freezeMaster s kind master addr acc ctx mpos).Inv := h.of_mem (freezeMaster_mem ..)
theorem inv_takeStop {st} (h : s.Inv) : (takeStop s c st).Inv := h.of_mem (takeStop_mem ..)
theorem inv_pump {p l} (h : s.Inv) : (pump p l s).Inv := h.of_mem (pump_links ..).request.mem
theorem inv_sendPacket {p} (h : s.Inv) : (sendPacket s p).1.Inv := h.of_mem (sendPacket_links ..).request.mem
theorem inv_sendHeld (h : s.Inv) : (sendHeld s).Inv := h.of_mem (sendHeld_requests ..).mem
theorem inv_postReq {who op dev addr va len data fn o} (h : s.Inv) :
    (postReq s who op dev addr va len data fn o).1.Inv := h.of_mem (postReq_requests ..).mem
theorem inv_askLoad {ag t va n o} (h : s.Inv) : (askLoad s c ag t va n o).Inv := h.of_mem (askLoad_mem ..)

/-! ## Loads and stores -/

theorem FetchOnly.inv {t : State} (ht : FetchOnly s t c) (h : s.Inv) : t.Inv := h.of_mem (by rw [ht.1])

theorem inv_keepVa {va a} (h : s.Inv) : (keepVa s c va a).Inv := (fetchOnly_keepVa ..).inv h

theorem inv_landTs {o src off bs} (h : s.Inv) : (landTs s o src off bs).Inv := inv_modCore h
theorem inv_landMc {src off bs} (h : s.Inv) : (landMc s c src off bs).Inv := h.of_mem (landMc_mem ..)
theorem inv_staleLoad {o ag off n bs} (h : s.Inv) : (staleLoad s o c ag off n bs).2.Inv := h.of_mem (staleLoad_mem ..)

theorem inv_askRd {ag o ad n r} (h : s.Inv) : (askRd s c ag o ad n r).Inv := by
  unfold askRd
  split
  · exact inv_ite (inv_askLoad h) h
  · exact h

theorem inv_afterRead {ag ad n ts a} (h : s.Inv) : (afterRead s c ag ad n ts a).Inv :=
  inv_ite h (inv_keepVa h)

/-! ## Bundles fetched -/

theorem inv_cacheLine {line} (h : s.Inv) : (cacheLine s c line).Inv := (fetchOnly_cacheLine ..).inv h
theorem inv_cacheFetch {va n} (h : s.Inv) : (cacheFetch s c va n).Inv := (fetchOnly_cacheFetch ..).inv h

/-- The request for one line of a bundle that is not here (`askFetch` makes two). -/
def askLine (s : State) (c line : Nat) : State :=
  match fetchLine s c line { cause := .illegal } with
  | .wait t => askLoad s c none t (line * 64) 64 0
  | _ => s

theorem askFetch_eq (s : State) (c va n : Nat) :
    askFetch s c va n = askLine (askLine s c (va / 64)) c (va57 (va + n - 1) / 64) := rfl

theorem inv_askLine {line} (h : s.Inv) : (askLine s c line).Inv := by
  unfold askLine
  split
  · exact inv_askLoad h
  · exact h

theorem inv_askFetch {va n} (h : s.Inv) : (askFetch s c va n).Inv := by
  rw [askFetch_eq]
  exact inv_askLine (inv_askLine h)

/-! ## The unpick log (R292 to R305) -/

theorem inv_logWrite {t0 va l} (h : s.Inv) : (logWrite s c t0 va l).Inv := by
  induction l generalizing s va with
  | nil => exact h
  | cons bs rest ih =>
    rw [logWrite]
    split
    · exact inv_raiseTrap _ _ h
    · exact inv_ite (ih h) (inv_ite (inv_freezeMaster h) (ih (inv_physWrite _ _ h)))

theorem inv_reserveLog {e t0 r} (h : s.Inv) : (reserveLog e s t0 r).1.Inv := by
  refine inv_foldl (fun s p h => ?_) (inv_logWrite h)
  split
  · exact inv_logWrite h
  · exact h

theorem inv_logFill {t0 entry ctl off bs last} (h : s.Inv) : (logFill s c t0 entry ctl off bs last).Inv :=
  inv_ite (inv_logWrite (inv_logWrite h)) (inv_logWrite h)

theorem inv_logSlots {e l} (h : s.Inv) : (logSlots e l s).1.Inv := by
  induction l generalizing s with
  | nil => exact h
  | cons x xs ih =>
    rw [logSlots]
    split
    · exact ih h
    · exact ih (inv_reserveLog h)

end Sys2Proof.Machine
end

section
/-! A bundle whose slots keep the form of memory keeps it (R47, R64, R65). -/
namespace Sys2Proof.Machine

set_option Elab.async false

variable {s : State} {e : Env} {l : List SlotSem}

theorem ofClass_keeps {cls : Nat} (hl : ∀ x ∈ l, x.Keeps) : ∀ x ∈ ofClass l cls, x.Keeps :=
  fun x hx => hl x (List.mem_of_mem_filter hx)

theorem inv_runEff {logs} (hl : ∀ x ∈ l, x.Keeps) (h : s.Inv) : (runEff e logs l s).Inv :=
  inv_foldl_mem (fun _ x hx => (hl x hx).eff _ _) h

theorem inv_effBundle (hl : ∀ x ∈ l, x.Keeps) (h : s.Inv) : (effBundle e l s).Inv := by
  have hlog : ∀ {s : State} (ns : List Nat), s.Inv →
      (if recording e.k l then logSlots e (ns.flatMap (ofClass l)) s else (s, [])).1.Inv :=
    fun _ h => inv_ite_fst (inv_logSlots h) h
  have hlate : ∀ x ∈ ofClass l 1 ++ ofClass l 3 ++ ofClass l 4, x.Keeps := by
    intro x hx
    simp only [List.mem_append] at hx
    obtain (hx | hx) | hx := hx <;> exact ofClass_keeps hl x hx
  have hc := inv_runEff (e := e) (logs := []) (ofClass_keeps (cls := 0) hl)
    (inv_modCore (c := e.c) (f := (·.setBpc e.next)) h)
  exact inv_foldl_mem (fun _ x hx => (hl x hx).post _ _)
    (inv_modCore (inv_runEff hlate (inv_modCore (hlog _ (inv_runEff (ofClass_keeps hl) (hlog _ hc))))))

theorem inv_issueSlots (hl : ∀ x ∈ l, x.Keeps) (h : s.Inv) : (issueSlots e l s).Inv := by
  have hon : ∀ x ∈ l.filter (SlotSem.enabled e.k), x.Keeps := fun x hx => hl x (List.mem_of_mem_filter hx)
  unfold issueSlots
  split
  · exact inv_raiseTrap _ _ h
  · refine inv_ite (inv_foldl_mem (fun _ x hx => (hon x hx).poll _ _ _) h) ?_
    split
    · exact inv_takeStop h
    · dsimp only
      split
      · exact inv_ite (inv_raiseTrap _ _ h) (inv_effBundle hon h)
      · exact inv_effBundle hon h

theorem inv_issueBundle {c selv len} (hl : ∀ x ∈ l, x.Keeps) (h : s.Inv) : (issueBundle c selv len l s).Inv :=
  inv_ite h (inv_ite (inv_modCore h) (inv_ite h (inv_issueSlots hl h)))

theorem nextInv_issueOne {x : SlotSem} (hx : x.Keeps) (h : s.Inv) : NextInv (issueOne x s) :=
  nextInv_next (inv_issueBundle (fun _ hy => List.eq_of_mem_singleton hy ▸ hx) h)

/-! ## Slots dispatched by pricking (R142, R143) -/

theorem inv_startGang {c g depth cmd} (h : s.Inv) : (startGang s c g depth cmd).Inv := h

theorem keeps_semStitch {g opc o hi i} : (semStitch g opc o hi i).Keeps where
  eff e s h := by
    unfold semStitch
    dsimp only
    split
    · exact h
    · exact inv_startGang h

theorem keeps_hardSlot {x : SlotSem} {k opc} (hx : x.Keeps) : (hardSlot x k opc).Keeps := by
  unfold hardSlot
  split
  · exact hx
  · exact keeps_semStitch

theorem nextInv_issueHard {x : SlotSem} (hx : x.Keeps) (h : s.Inv) : NextInv (issueHard x s) :=
  nextInv_issueOne (keeps_hardSlot hx) h

end Sys2Proof.Machine
end

section
/-! The slots of the C class keep the form of memory. -/
namespace Sys2Proof.Machine

set_option Elab.async false

variable {s : State} {c n : Nat} {e : Env}

/-! ## Tiles that leave and come back (R54) -/

theorem inv_writeTile {fr own k t} (h : s.Inv) : (writeTile s fr own k t).1.Inv :=
  inv_physWrite _ _ (inv_physWrite _ _ (inv_physWrite _ _ h))

theorem inv_evictTile {t} (h : s.Inv) : (evictTile s c t).Inv := by
  unfold evictTile
  split
  · exact h
  · refine inv_modCore ?_
    split
    · exact h
    · split
      · exact inv_ite (inv_setMotif (inv_writeTile h)) h
      · exact h

theorem inv_refillTile {t} (h : s.Inv) : (refillTile s c t).Inv := by
  unfold refillTile
  dsimp only
  split
  · exact h
  · split
    · exact inv_setCore h
    · split
      · exact inv_setCore h
      · exact inv_setCore h

theorem inv_bringTiles {ts} (h : s.Inv) : (bringTiles s c ts).Inv :=
  inv_foldl (fun _ _ h => inv_refillTile (inv_evictTile h)) h

/-! ## What a C slot writes -/

theorem inv_wrScal {r v} (h : s.Inv) : (wrScal e s r v).Inv := by
  unfold wrScal
  split
  · exact inv_modCore h
  · exact inv_modCore h

theorem inv_wrPred {n b} (h : s.Inv) : (wrPred e s n b).Inv := by
  unfold wrPred
  split
  · exact inv_modCore h
  · exact inv_modCore h

theorem keeps_semC {g i eff} (heff : ∀ e s, s.Inv → (eff e s).Inv) : (semC g i eff).Keeps where
  eff := heff

@[simp] theorem keeps_semNop {g} : (semNop g).Keeps := keeps_semC fun _ _ h => h
@[simp] theorem keeps_semSop {g fn d a b} : (semSop g fn d a b).Keeps where
  eff _ _ h := inv_wrScal (inv_modCore h)
@[simp] theorem keeps_semSopi {g fn d a imm} : (semSopi g fn d a imm).Keeps := keeps_semC fun _ _ h => inv_wrScal h
@[simp] theorem keeps_semSmovi {g d imm} : (semSmovi g d imm).Keeps := keeps_semC fun _ _ h => inv_wrScal h
@[simp] theorem keeps_semScmp {g cc imm qd a b} : (semScmp g cc imm qd a b).Keeps :=
  keeps_semC fun _ _ h => inv_wrPred h

@[simp] theorem keeps_semSld {g sz ts sx off a d} : (semSld g sz ts sx off a d).Keeps where
  poll _ _ _ h := inv_askRd h
  eff _ _ h := inv_wrScal (inv_modCore (inv_afterRead h))

@[simp] theorem keeps_semSst {g sz ts off a b} : (semSst g sz ts off a b).Keeps where
  eff _ _ h := inv_ite (inv_modCore h) (inv_modCore (inv_keepVa h))

theorem keeps_semJump {g i target link} : (semJump g i target link).Keeps where
  eff _ _ h := inv_modCore (inv_ite (inv_wrScal h) h)

theorem keeps_semAdv {g i r ok f} : (semAdv g i r ok f).Keeps where
  eff _ _ h := inv_modCore h

@[simp] theorem keeps_semBr {g off} : (semBr g off).Keeps := keeps_semJump
@[simp] theorem keeps_semBrInd {g a} : (semBrInd g a).Keeps := keeps_semJump
@[simp] theorem keeps_semCall {g off} : (semCall g off).Keeps := keeps_semJump
@[simp] theorem keeps_semCallInd {g a} : (semCallInd g a).Keeps := keeps_semJump
@[simp] theorem keeps_semRet {g a} : (semRet g a).Keeps := keeps_semJump
@[simp] theorem keeps_semAdvr {g nm1 r} : (semAdvr g nm1 r).Keeps := keeps_semAdv
@[simp] theorem keeps_semAdvw {g nm1 r} : (semAdvw g nm1 r).Keeps := keeps_semAdv

/-! ## Registers -/

@[simp] theorem keeps_semCfgr {g reg d} : (semCfgr g reg d).Keeps := keeps_semC fun _ _ h => inv_wrScal h
@[simp] theorem keeps_semCfgw {g reg a} : (semCfgw g reg a).Keeps where
  eff _ _ h := inv_modCore h
@[simp] theorem keeps_semTshapeWrite {g t a} : (semTshapeWrite g t a).Keeps where
  poll _ _ _ h := inv_bringTiles h
  eff _ _ h := inv_modCore h
@[simp] theorem keeps_semCbdescWrite {g r a} : (semCbdescWrite g r a).Keeps where
  eff _ _ h := inv_modCore h
@[simp] theorem keeps_semSrstateWrite {g a} : (semSrstateWrite g a).Keeps := keeps_semC fun _ _ h => inv_modCore h
@[simp] theorem keeps_semMfmtWrite {g a} : (semMfmtWrite g a).Keeps where
  eff _ _ h := inv_modCore h
@[simp] theorem keeps_semMoncfgWrite {g m j a} : (semMoncfgWrite g m j a).Keeps :=
  keeps_semC fun _ _ h => inv_modCore h
@[simp] theorem keeps_semLogpWrite {g a} : (semLogpWrite g a).Keeps where
  eff _ _ h := inv_modCore h
@[simp] theorem keeps_semHaccWrite {g a} : (semHaccWrite g a).Keeps where
  eff _ _ h := h

/-! ## Waiting and ordering -/

theorem inv_waitsWatch {s0} (h : s.Inv) : (waitsWatch s0 s).Inv := by
  refine inv_foldl (fun s _ h => ?_) h
  split
  · exact h
  · dsimp only
    split
    · exact inv_ite (inv_modCore h) h
    · exact h

@[simp] theorem keeps_semWaits {g cc scope b a qd} : (semWaits g cc scope b a qd).Keeps where
  poll e s b h := by
    refine inv_ite (inv_modCore ?_) ?_ <;>
    · split
      · exact inv_modCore h
      · exact inv_askRd h
  eff _ _ h := inv_wrPred (inv_ite (inv_modCore (inv_afterRead h)) h)

theorem inv_dropCode (h : s.Inv) : (dropCode s c).Inv := h

@[simp] theorem keeps_semFence {g scope istr eng kind} : (semFence g scope istr eng kind).Keeps where
  eff _ s h := by
    have hrel {c : Nat} {f : Core → Core} : (if kind = .acq then s else (released s c (· == .seq)).modCore c f).Inv :=
      inv_ite h (inv_modCore (inv_released _ _ h))
    exact inv_ite (inv_dropCode (inv_ite hrel (inv_modCore hrel))) (inv_ite hrel (inv_modCore hrel))
@[simp] theorem keeps_semFork {g mask parent} : (semFork g mask parent).Keeps := keeps_semC fun _ _ h => inv_modCore h
@[simp] theorem keeps_semJoin {g mask target} : (semJoin g mask target).Keeps := keeps_semC fun _ _ h => inv_modCore h
@[simp] theorem keeps_semHpass {g oh a d} : (semHpass g oh a d).Keeps where
  eff _ _ h := inv_wrScal h

/-! ## Monitors and barriers (R91, R292 to R297) -/

theorem inv_driftTrap {base w ms} (h : s.Inv) : (driftTrap s c base w ms).Inv := inv_ite (inv_raiseTrap _ _ h) h

@[simp] theorem keeps_semMonsetArm {g m} : (semMonsetArm g m).Keeps where
  eff _ _ h := inv_modCore h
@[simp] theorem keeps_semMonsetDisarm {g m} : (semMonsetDisarm g m).Keeps := keeps_semC fun _ _ h => inv_modCore h
@[simp] theorem keeps_semMonsetCheck {g m} : (semMonsetCheck g m).Keeps where
  eff _ _ h := inv_modCore h
  post _ _ h := inv_driftTrap h

theorem inv_modMotifCore {id f} (h : s.Inv) : (modMotifCore s id f).Inv := by
  unfold modMotifCore
  split
  · exact h
  · split
    · exact inv_modCore h
    · exact h

theorem inv_pendTrap {id t} (h : s.Inv) : (pendTrap s id t).Inv := by
  unfold pendTrap
  split
  · exact h
  · exact h

theorem inv_barChecks {s0 ps sc x} (h : s.Inv) : (barChecks s0 ps sc s x).Inv := by
  unfold barChecks
  dsimp only
  split
  · exact h
  · have hchecked := fun (ms : List Nat) (f : Nat → Core → Core) =>
      inv_foldl (f := fun s m => modMotifCore s x.id (f m)) (l := ms) (fun _ _ => inv_modMotifCore) h
    split
    · exact inv_driftTrap (hchecked _ _)
    · exact inv_ite (inv_pendTrap (hchecked _ _)) (hchecked _ _)

theorem inv_barDone (h : s.Inv) : (barDone s c).Inv := by
  unfold barDone
  split
  · exact h
  · exact inv_ite (inv_foldl (fun _ _ => inv_barChecks) (inv_foldl (fun _ _ => inv_modMotifCore) h)) h

@[simp] theorem keeps_semBar {g scope id} : (semBar g scope id).Keeps where
  eff _ _ h := by
    unfold semBar
    dsimp only
    exact inv_modCore (inv_released _ _ h)
  post _ _ h := inv_ite (inv_barDone h) h

/-! ## Launches, bindings and recording -/

@[simp] theorem keeps_semLaunch {g dep b a d} : (semLaunch g dep b a d).Keeps where
  eff _ _ h := inv_wrScal h

@[simp] theorem keeps_semBind {g topc a d} : (semBind g topc a d).Keeps where
  poll e s _ h := by
    unfold semBind
    dsimp only
    split
    · exact inv_askRd h
    · exact h
  eff e s h := by
    unfold semBind
    dsimp only
    split
    · exact inv_wrScal (inv_ite (inv_modCore (inv_afterRead h)) (inv_afterRead h))
    · exact inv_wrScal h

@[simp] theorem keeps_semRecon {g} : (semRecon g).Keeps where
  eff _ _ h := inv_ite h (inv_modCore h)
@[simp] theorem keeps_semRecoff {g} : (semRecoff g).Keeps := keeps_semC fun _ _ h => inv_modCore h

/-! ## Loops and the end of a motif -/

@[simp] theorem keeps_semLoop {g bodym1 stm1 lvm1 rall rot} : (semLoop g bodym1 stm1 lvm1 rall rot).Keeps where
  poll e s _ h := by
    unfold semLoop
    dsimp only
    split
    · exact inv_askFetch h
    · exact h
  post e s h := by
    refine inv_ite ?_ (inv_modCore h)
    split
    · exact inv_modCore h
    · exact h

@[simp] theorem keeps_semIterIdx {g lv d} : (semIterIdx g lv d).Keeps := keeps_semC fun _ _ h => inv_wrScal h
@[simp] theorem keeps_semIterPass {g d} : (semIterPass g d).Keeps := keeps_semC fun _ _ h => inv_wrScal h
@[simp] theorem keeps_semIterExit {g} : (semIterExit g).Keeps := keeps_semC fun _ _ h => inv_ite (inv_modCore h) h
@[simp] theorem keeps_semSys {g} : (semSys g).Keeps where
  eff _ _ h := inv_modCore h
@[simp] theorem keeps_semSysServiceCall {g imm} : (semSysServiceCall g imm).Keeps where
  eff _ _ h := inv_ite (inv_modCore (inv_modCore h)) h
  post _ _ h := inv_ite h (inv_raiseTrap _ _ h)
@[simp] theorem keeps_semTret {g} : (semTret g).Keeps where
  eff _ _ h := inv_modCore (inv_modCore h)
@[simp] theorem keeps_semBrk {g imm} : (semBrk g imm).Keeps where
  eff _ _ h := h

end Sys2Proof.Machine
end

section
/-! The slots of the V and M classes keep the form of memory. -/
namespace Sys2Proof.Machine

set_option Elab.async false

variable {s : State} {c n : Nat} {e : Env}

/-! ## V slots -/

theorem inv_finishV {d size off r} (h : s.Inv) : (finishV e s d size off r).Inv := inv_modCore h

theorem keeps_semV {g i names own scals saved interval eff} (heff : ∀ e s, s.Inv → (eff e s).Inv) :
    (semV g i names own scals saved interval eff).Keeps where
  poll _ _ _ h := inv_bringTiles h
  eff e s h := inv_modCore (heff e s h)

@[simp] theorem keeps_semVop2 {g fn bs sat rm f vb va vd} : (semVop2 g fn bs sat rm f vb va vd).Keeps :=
  keeps_semV fun _ _ h => inv_finishV h
@[simp] theorem keeps_semVfma {g fn bs sat rm f vc vb va vd} : (semVfma g fn bs sat rm f vc vb va vd).Keeps :=
  keeps_semV fun _ _ h => inv_finishV h
@[simp] theorem keeps_semVop1 {g fn sat rm f va vd} : (semVop1 g fn sat rm f va vd).Keeps :=
  keeps_semV fun _ _ h => inv_finishV h
@[simp] theorem keeps_semVcmp {g qd qw cc bs f vb va vd} : (semVcmp g qd qw cc bs f vb va vd).Keeps :=
  keeps_semV fun _ _ h => inv_ite (inv_wrPred (inv_finishV h)) (inv_finishV h)
@[simp] theorem keeps_semVsel {g bs f vc vb va vd} : (semVsel g bs f vc vb va vd).Keeps :=
  keeps_semV fun _ _ h => inv_finishV h
@[simp] theorem keeps_semVred {g fn f va sd} : (semVred g fn f va sd).Keeps :=
  keeps_semV fun _ _ h => inv_wrScal (inv_modCore h)
@[simp] theorem keeps_semVint {g fn bs f vb va vd} : (semVint g fn bs f vb va vd).Keeps :=
  keeps_semV fun _ _ h => inv_finishV h
@[simp] theorem keeps_semVmovi {g imm f vd} : (semVmovi g imm f vd).Keeps := keeps_semV fun _ _ h => inv_finishV h
@[simp] theorem keeps_semVsfu {g fn va vd} : (semVsfu g fn va vd).Keeps := keeps_semV fun _ _ h => inv_finishV h
@[simp] theorem keeps_semVrows {g sz cntm1 doff soff va vd} : (semVrows g sz cntm1 doff soff va vd).Keeps :=
  keeps_semV fun _ _ h => inv_finishV h
@[simp] theorem keeps_semVcols {g put sz col tile va vd} : (semVcols g put sz col tile va vd).Keeps where
  poll _ _ _ h := inv_bringTiles h
  eff _ _ h := inv_modCore (inv_ite (inv_modCore h) (inv_finishV h))
@[simp] theorem keeps_semVcvt {g tgt part sat rm frm va vd} : (semVcvt g tgt part sat rm frm va vd).Keeps :=
  keeps_semV fun _ _ h => inv_finishV h
@[simp] theorem keeps_semVsca {g pint rm vc vb va vd} : (semVsca g pint rm vc vb va vd).Keeps :=
  keeps_semV fun _ _ h => inv_ite (inv_modCore h) (inv_finishV h)

theorem inv_vStore {o sp ad bs} (h : s.Inv) : (vStore e s o sp ad bs).Inv := by
  refine inv_ite (inv_foldl (fun _ _ h => inv_modCore h) h) (inv_foldl (fun _ _ h => inv_modCore h) ?_)
  have hlanded {k : Core → Core} :
      ((landOverlapping s e.c e.who sp (ad / 64 * 64) (bs.length + 64)).modCore e.c k).Inv :=
    inv_modCore (inv_landOverlapping _ _ _ _ _ h)
  split
  · exact inv_landMc hlanded
  · exact inv_landTs hlanded
  · exact inv_landTs hlanded

@[simp] theorem keeps_semVldt {g desc rowix win peer am oh sa vd} :
    (semVldt g desc rowix win peer am oh sa vd).Keeps where
  poll _ _ _ h := inv_bringTiles h
  eff e s h := by
    refine inv_modCore ?_
    dsimp only
    split
    · exact inv_finishV (inv_modCore h)
    · exact h
@[simp] theorem keeps_semVstt {g desc rowix win peer am oh sa vs} :
    (semVstt g desc rowix win peer am oh sa vs).Keeps where
  poll _ _ _ h := inv_bringTiles h
  eff _ _ h := inv_modCore (inv_ite (inv_vStore h) (inv_modCore (inv_vStore h)))
@[simp] theorem keeps_semVcvto {g desc rm tgt sat part sd va vd} :
    (semVcvto g desc rm tgt sat part sd va vd).Keeps where
  poll _ _ _ h := inv_bringTiles h
  eff _ _ h := inv_modCore (inv_wrScal (inv_wrScal
    (inv_ite (inv_finishV h) (inv_modCore (inv_vStore (inv_finishV h))))))

/-! ## Leases of the array (R223 to R226) -/

theorem inv_setLease {l} (h : s.Inv) : (setLease s c l).Inv := h
theorem inv_setGiveUp {last} (h : s.Inv) : (setGiveUp s c last).Inv := h

theorem inv_settle {f} (h : s.Inv) : (settle n f s).Inv := h.of_mem (leaseOnly_settle n f s).mem
theorem inv_settleOf (h : s.Inv) : (settleOf s c).Inv := inv_settle h
theorem inv_requestLease (h : s.Inv) : (requestLease s c).Inv := inv_ite (inv_settleOf (inv_setLease h)) h

theorem inv_releaseLease (h : s.Inv) : (releaseLease s c).Inv := by
  unfold releaseLease
  split
  · exact h
  · exact inv_setGiveUp (inv_setLease h)
  · exact inv_ite h (inv_settleOf (inv_setGiveUp h))

theorem keeps_semM {g i eff} (heff : ∀ e s, s.Inv → (eff e s).Inv) : (semM g i eff).Keeps where
  eff := heff

@[simp] theorem keeps_semMlease {g} : (semMlease g).Keeps := keeps_semM fun _ _ h => inv_requestLease h
@[simp] theorem keeps_semMunlease {g} : (semMunlease g).Keeps := keeps_semM fun _ _ h => inv_releaseLease h

theorem nextInv_execLeaseTermEnd (h : s.Inv) : NextInv (execLeaseTermEnd n s) := by
  unfold execLeaseTermEnd
  dsimp only
  split
  · exact nextInv_next h
  · refine nextInv_ite (nextInv_next h) ?_
    split
    · exact nextInv_next (inv_settle (inv_setLease h))
    · exact nextInv_next (inv_settle h)

/-! ## Operand slots (R227, R236) -/

theorem inv_modOps {f} (h : s.Inv) : (modOps s c f).Inv := h

theorem inv_saveSlot {fr o l} (h : s.Inv) : (saveSlot s fr o l).Inv :=
  inv_setPoison (inv_physWrite _ _ h)

theorem inv_evictSlot (h : s.Inv) : (evictSlot s n).Inv := by
  unfold evictSlot
  dsimp only
  split
  · exact h
  · refine inv_modCluster ?_
    split
    · exact inv_saveSlot h
    · exact h

theorem inv_makeRoom {need f} (h : s.Inv) : (makeRoom n need f s).Inv := by
  induction f generalizing s with
  | zero => exact h
  | succ f ih => exact inv_ite (ih (inv_evictSlot h)) h

@[simp] theorem keeps_semMclaim {g cntm1 first} : (semMclaim g cntm1 first).Keeps :=
  keeps_semM fun _ _ h => inv_modOps (inv_makeRoom h)
@[simp] theorem keeps_semMrels {g cntm1 first} : (semMrels g cntm1 first).Keeps where
  eff _ _ h := inv_modOps h

/-! ## Array commands -/

theorem inv_startMma {i w} (h : s.Inv) : (startMma e s i w).Inv := inv_settleOf (inv_modCore h)

@[simp] theorem keeps_semMma {g km1 o} : (semMma g km1 o).Keeps where
  poll _ _ _ h := inv_bringTiles h
  eff _ _ h := inv_startMma h
@[simp] theorem keeps_semMmah {g sh gA gB km1 o} : (semMmah g sh gA gB km1 o).Keeps where
  poll _ _ _ h := inv_bringTiles h
  eff _ _ h := inv_startMma h
@[simp] theorem keeps_semMdrain {g} : (semMdrain g).Keeps where
  eff _ _ h := h
@[simp] theorem keeps_semMzero {g ad} : (semMzero g ad).Keeps where
  poll _ _ _ h := inv_bringTiles h
  eff _ _ h := inv_modCore h

theorem nextInv_execMzeroBusyEnd {tile} (h : s.Inv) : NextInv (execMzeroBusyEnd c tile s) :=
  nextInv_next (inv_modCore h)

theorem inv_mmaFill {o m} (h : s.Inv) : (mmaFill s c o m).Inv := by
  unfold mmaFill
  split
  · exact h
  · dsimp only
    split
    · exact h
    · exact inv_logFill h
    · exact inv_logFill (inv_logFill h)

theorem nextInv_execArrayCommandComplete (h : s.Inv) : NextInv (execArrayCommandComplete n s) := by
  unfold execArrayCommandComplete
  split
  · exact nextInv_next h
  · dsimp only
    split
    · exact nextInv_next h
    · split
      · exact nextInv_next h
      · split
        · exact nextInv_next (inv_raiseTrap _ _ (inv_modCore h))
        · exact nextInv_next (inv_settle (inv_mmaFill (inv_modCore (inv_bringTiles h))))

end Sys2Proof.Machine
end

section
/-! The copy engines keep the form of memory (R251, R260 to R279). -/
namespace Sys2Proof.Machine

set_option Elab.async false

variable {s : State} {c n : Nat} {e : Env}

theorem keeps_semXfer {g i x} : (semXfer g i x).Keeps where
  eff _ _ h := inv_modCore h

@[simp] theorem keeps_semKcopy {g x} : (semKcopy g x).Keeps := keeps_semXfer
@[simp] theorem keeps_semKfill {g x} : (semKfill g x).Keeps := keeps_semXfer
@[simp] theorem keeps_semKgang {g x} : (semKgang g x).Keeps := keeps_semXfer
@[simp] theorem keeps_semKmcast {g x} : (semKmcast g x).Keeps := keeps_semXfer
@[simp] theorem keeps_semKcgrad {g x tgt rm nbm1} : (semKcgrad g x tgt rm nbm1).Keeps := keeps_semXfer
@[simp] theorem keeps_semKpull {g x peer} : (semKpull g x peer).Keeps := keeps_semXfer

/-! ## Accesses of an engine -/

/-- A request of an engine that goes out, or is answered at once where no port leads to its device. -/
theorem inv_postOrFail {who op dev addr va len data fn o} {c' who' st bs} (h : s.Inv) :
    (if (postReq s who op dev addr va len data fn o).2 then (postReq s who op dev addr va len data fn o).1
      else putReply (postReq s who op dev addr va len data fn o).1 c' who' st bs).Inv :=
  inv_ite (inv_postReq h) (inv_modCore (inv_postReq h))

theorem inv_engAsk {o parts} (h : s.Inv) : (engAsk s c o parts).Inv := by
  refine inv_foldl (fun s p h => ?_) h
  split
  · exact inv_postOrFail h
  · exact h

theorem inv_dropReply {who} (h : s.Inv) : (dropReply s c who).Inv := inv_modCore h

theorem inv_engDrop {parts} (h : s.Inv) : (engDrop s c parts).Inv :=
  inv_foldl (fun _ _ h => inv_dropReply (inv_keepVa h)) h

theorem inv_dropKeys {keys} (h : s.Inv) : (dropKeys s c keys).Inv := inv_foldl (fun _ _ h => inv_dropReply h) h

theorem inv_engStop {ch st} (h : s.Inv) : (engStop s c ch st).Inv := by
  unfold engStop
  split
  · exact inv_raiseTrap _ _ h
  · exact inv_freezeMaster h

theorem inv_engWrite {o key va bs} (h : s.Inv) : (engWrite s c o key va bs).Inv :=
  inv_foldl (fun _ _ h => inv_ite (inv_postOrFail h) (inv_landGm _ _ _ _ _ (inv_keepVa h))) h

/-! ## Eyelets (R273 to R276) -/

theorem inv_eyeOpen {o off} (h : s.Inv) : (eyeOpen s o off).Inv := inv_ite h (inv_modCore (inv_freeBytes h))

theorem inv_arrive {src mc off b} (h : s.Inv) : (arrive s c src mc off b).Inv :=
  inv_foldl (fun _ _ h => inv_landTs (inv_eyeOpen h)) h

theorem inv_eyeInit {src mc off target} (h : s.Inv) : (eyeInit s c src mc off target).Inv :=
  inv_foldl (fun _ _ h => inv_landTs h) h

theorem inv_keyeDo {src i off v} (h : s.Inv) : (keyeDo s c src i off v).Inv := by
  unfold keyeDo
  split
  · exact inv_eyeInit h
  · exact inv_arrive h
  · exact h

theorem inv_landSome {ag f} (h : s.Inv) : (landSome s c ag f).Inv := inv_landThese _ _ h

theorem inv_keyeEff {i oh off v f} (h : s.Inv) : (keyeEff e s i oh off v f).Inv := by
  have hlanded {k} : ((landSome s e.c e.who f).modCore e.c k).Inv := inv_modCore (inv_landSome h)
  exact inv_ite hlanded (inv_ite (inv_keyeDo hlanded) (inv_modCore hlanded))

@[simp] theorem keeps_semKeyeInit {g oh mc sa se} : (semKeyeInit g oh mc sa se).Keeps where
  eff _ _ h := inv_keyeEff h
@[simp] theorem keeps_semKeyeAdd {g oh mc sa se} : (semKeyeAdd g oh mc sa se).Keeps where
  eff _ _ h := by
    unfold semKeyeAdd
    dsimp only
    exact inv_released _ _ (inv_keyeEff h)
@[simp] theorem keeps_semKeyeWait {g oh sa se} : (semKeyeWait g oh sa se).Keeps where
  eff _ _ h := inv_modCore h

/-! ## Pieces of a transfer -/

theorem inv_staleCore {o x} (h : s.Inv) : (staleCore s c o x).2.Inv := h

theorem inv_kStale {x r o n bs} (h : s.Inv) : (kStale s c x r o n bs).2.Inv := by
  unfold kStale
  dsimp only
  split
  · exact h
  · split
    · exact h
    · exact inv_staleCore h

theorem inv_kLanded {x p} (h : s.Inv) : (kLanded s c x p).Inv := by
  unfold kLanded
  dsimp only
  split
  · exact inv_ite (inv_arrive (inv_modCore h)) (inv_modCore h)
  · exact inv_modCore h

theorem inv_landOp {off bs} (h : s.Inv) : (landOp s c off bs).Inv := h

theorem inv_kBytes {x a bs} (h : s.Inv) : (kBytes s c x a bs).2.Inv :=
  inv_ite_snd (inv_freeBytes h) h

theorem inv_kLand {x p r o bs} (h : s.Inv) : (kLand s c x p r o bs).Inv := by
  unfold kLand
  dsimp only
  split
  · exact inv_kLanded (inv_modCore (inv_kBytes h))
  · exact inv_kLanded (inv_landOp (inv_kBytes h))
  · exact inv_kLanded (inv_landMc (inv_kBytes h))
  · split
    · split
      · exact inv_engStop (inv_kBytes h)
      · exact inv_ite (inv_kLanded (inv_engWrite (inv_kBytes h))) (inv_engWrite (inv_kBytes h))
    · exact inv_kLanded (inv_landTs (inv_kBytes h))

theorem inv_kForm {x} (h : s.Inv) : (kForm s c x).Inv := by
  unfold kForm
  split
  · dsimp only
    split
    · exact inv_engStop h
    · exact inv_landTs (inv_modCore (inv_staleCore h))
  · exact h

theorem inv_quietStop {x st} (h : s.Inv) : (quietStop s c x st).1.Inv := by
  unfold quietStop
  dsimp only
  split
  · exact h
  · split
    · exact inv_modCore h
    · exact inv_modCore h

theorem inv_kStep {x p} (h : s.Inv) : (kStep s c x p).Inv := by
  unfold kStep
  refine inv_ite h (inv_ite (inv_kForm h) (inv_ite h ?_))
  split
  · exact h
  · dsimp only
    split
    · exact h
    · split
      · exact inv_raiseTrap _ _ (inv_dropKeys h)
      · exact inv_kLanded (inv_dropKeys h)
    · refine inv_ite h ?_
      split
      · exact inv_engStop (inv_quietStop (inv_dropKeys h))
      · exact inv_engAsk h
      · exact inv_kLand (inv_kStale (inv_engDrop h))

/-! ## The fetch of an MMAH -/

theorem inv_fetchFault {m st} (h : s.Inv) : (fetchFault s c m st).Inv := inv_engStop (inv_modCore h)

theorem inv_fetchRecords {m} (h : s.Inv) : (fetchRecords s c m).Inv := by
  unfold fetchRecords
  refine inv_ite (inv_fetchFault h) ?_
  dsimp only
  split
  · exact inv_fetchFault (inv_dropKeys h)
  · exact inv_engAsk h
  · exact inv_ite (inv_fetchFault (inv_engDrop h)) (inv_modCore (inv_engDrop h))

theorem inv_fetchStep {m p} (h : s.Inv) : (fetchStep s c m p).Inv := by
  unfold fetchStep
  refine inv_ite h (inv_ite (inv_fetchRecords h) (inv_ite h ?_))
  split
  · exact h
  · dsimp only
    split
    · exact inv_fetchFault (inv_dropKeys h)
    · exact inv_engAsk h
    · exact inv_modCore (inv_landOp (inv_engDrop h))

theorem nextInv_execTransferPiece {cmd piece} (h : s.Inv) : NextInv (execTransferPiece c cmd piece s) := by
  unfold execTransferPiece
  dsimp only
  split
  · exact nextInv_next (inv_kStep h)
  · split
    · exact nextInv_next (inv_fetchStep h)
    · exact nextInv_next h

theorem nextInv_execMmahFetchComplete {cmd} (h : s.Inv) : NextInv (execMmahFetchComplete c cmd s) := by
  unfold execMmahFetchComplete
  split
  · split
    · exact nextInv_next (inv_settleOf (inv_modCore h))
    · exact nextInv_next h
  · exact nextInv_next h

/-! ## The end of a command -/

theorem inv_kStamp {x} (h : s.Inv) : (kStamp s c x).1.Inv := by
  unfold kStamp
  dsimp only
  split
  · exact h
  · split
    · exact inv_raiseTrap _ _ (inv_dropKeys h)
    · exact inv_dropKeys h
  · split
    · exact h
    · split
      · exact inv_engStop h
      · exact inv_engWrite h

theorem inv_kFinish {x} (h : s.Inv) : (kFinish s c x).Inv := inv_ite (inv_modCore h) (inv_modCore (inv_modCore h))

theorem nextInv_execCommandCompletion {cmd} (h : s.Inv) : NextInv (execCommandCompletion c cmd s) := by
  unfold execCommandCompletion
  dsimp only
  split
  · exact nextInv_next h
  · split
    · exact nextInv_next (inv_kFinish h)
    · split
      · exact nextInv_next (inv_ite h (inv_kFinish (inv_keyeDo h)))
      · split
        · exact nextInv_next h
        · split
          · exact nextInv_next (inv_ite (inv_kFinish (inv_kStamp h)) (inv_kStamp h))
          · exact nextInv_next (inv_kFinish h)

end Sys2Proof.Machine
end

section
/-! Library commands, the gradients of the adjoint and UNPICK keep the form of memory (R148, R306 to R321). -/
namespace Sys2Proof.Machine

set_option Elab.async false

variable {s : State} {c n : Nat} {e : Env}

/-! ## Library commands -/

theorem inv_libOut {x} (h : s.Inv) : (libOut s c x).2.Inv := h.of_mem (libOut_state s c x).1

theorem inv_libStale {x} (h : s.Inv) : (libStale s c x).2.Inv := inv_ite_snd (inv_libOut h) h

theorem inv_fillOutputs {x} (h : s.Inv) : (fillOutputs s c x).Inv := by
  unfold fillOutputs
  split
  · exact h
  · exact inv_foldl (fun _ _ h => inv_logFill h) h

theorem inv_completeS {g x} (h : s.Inv) : (completeS s c g x).Inv :=
  inv_modCore (inv_released _ _ (inv_fillOutputs h))

theorem inv_runLib {g x} (h : s.Inv) : (runLib s c g x).Inv := by
  unfold runLib
  split
  · exact inv_raiseTrap _ _ h
  · exact inv_completeS (inv_modCore (inv_foldl (fun _ _ h => inv_landTs h) (inv_libStale h)))

theorem nextInv_execSCommandCompletion {g} (h : s.Inv) : NextInv (execSCommandCompletion c g s) := by
  unfold execSCommandCompletion
  dsimp only
  split
  · exact nextInv_next h
  · split
    · exact nextInv_next h
    · split
      · split
        · exact nextInv_next (inv_runLib h)
        · exact nextInv_next h
      · split
        · exact nextInv_next (inv_completeS h)
        · exact nextInv_next h

/-! ## Gradients -/

theorem inv_gPut {l bits} (h : s.Inv) : (gPut s c l bits).Inv := by
  unfold gPut
  split
  · exact inv_modCore h
  · exact inv_landTs h

theorem inv_applyPlan {p} (h : s.Inv) : (applyPlan s c p).Inv := by
  have hzero {s : State} (ls : List GLoc) (h : s.Inv) : (ls.foldl (fun s l => gZero s c l) s).Inv :=
    inv_foldl (fun _ _ h => inv_gPut h) h
  have hterms := hzero p.last (inv_foldl_fst (f := fun acc t => ((gAdd acc.1 c t.1 t.2).1,
    Nat.lor acc.2 (gAdd acc.1 c t.1 t.2).2)) (l := p.terms) (p := (_, p.flags)) (fun _ _ h => inv_gPut h)
    (hzero p.zero h))
  exact inv_ite hterms (inv_modCore hterms)

/-! ## Reads of the walk -/

theorem inv_spanAsk {va n t0} (h : s.Inv) : (spanAsk s c va n t0).Inv := by
  refine inv_foldl (fun s p h => ?_) h
  split
  · exact inv_askLoad h
  · exact h

theorem inv_spanDone {va n} (h : s.Inv) : (spanDone s c va n).Inv :=
  inv_foldl (fun _ _ h => inv_dropReply (inv_keepVa h)) h

/-! ## Leaving the walk -/

theorem inv_upkLeave (h : s.Inv) : (upkLeave s c).Inv := h.of_mem (upkLeave_keeps s c).1

theorem inv_upkTrap {t} (h : s.Inv) : (upkTrap s c t).Inv := inv_raiseTrap _ _ (inv_upkLeave h)

theorem inv_upkStop {entry st} (h : s.Inv) : (upkStop s c entry st).Inv := by
  unfold upkStop
  split
  · exact inv_upkTrap h
  · exact inv_takeStop (inv_upkLeave h)

theorem inv_consume {x} (h : s.Inv) : (consume s c x).Inv := inv_modCore (inv_upkLeave h)
theorem inv_setUpk {u} (h : s.Inv) : (setUpk s c u).Inv := inv_modCore h
theorem inv_nextUpk {u} (h : s.Inv) : (nextUpk s c u).Inv := inv_setUpk h

/-! ## Steps of the walk -/

theorem inv_copyBack {x ds} (h : s.Inv) : (copyBack s c x ds).Inv := by
  refine inv_foldl (fun s n h => ?_) h
  split
  · exact inv_landTs h
  · exact h

theorem inv_of_reissue {x t} (h : s.Inv) (ht : reissue s c x = .ok t) : t.Inv := by
  unfold reissue at ht
  dsimp only at ht
  split at ht
  · exact nomatch ht
  · split at ht
    · cases ht
      exact inv_setCore h
    · split at ht
      · exact nomatch ht
      · split at ht
        · exact nomatch ht
        · split at ht
          · exact nomatch ht
          · cases ht
            exact inv_startGang (inv_copyBack h)

theorem inv_of_startAdjoint {m x i img t} (h : s.Inv) (ht : startAdjoint s c m x i img = .ok t) : t.Inv := by
  unfold startAdjoint at ht
  dsimp only at ht
  split at ht
  · exact nomatch ht
  · cases hports : adjPorts (s.core c) m x i img with
    | error _ =>
      rw [hports] at ht
      exact nomatch ht
    | ok ps =>
      rw [hports] at ht
      change (match freeGang (s.core c) with | none => _ | some g => _) = _ at ht
      split at ht
      · exact nomatch ht
      · cases ht
        exact inv_startGang h

theorem inv_startRecompute {u x n} (h : s.Inv) : (startRecompute s c u x n).Inv := by
  unfold startRecompute
  dsimp only
  split
  · exact inv_upkStop h
  · exact inv_spanAsk h
  · split
    · exact inv_upkStop h
    · exact inv_spanAsk h
    · refine inv_ite (inv_upkTrap h) (inv_ite (inv_bringTiles h) ?_)
      split
      · exact inv_upkTrap h
      · next hs1 => exact inv_setUpk (inv_of_reissue (inv_spanDone h) hs1)

theorem inv_openObj {obj} (h : s.Inv) : (openObj s c obj).Inv :=
  inv_ite (inv_modCore (inv_freeBytes (inv_freeBytes h))) (inv_modCore (inv_freeBytes h))

theorem inv_openBoth {objs} (h : s.Inv) : (openBoth s c objs).Inv := inv_foldl (fun _ _ h => inv_openObj h) h

theorem inv_runEntry {u x i} (h : s.Inv) : (runEntry s c u x i).Inv := by
  unfold runEntry
  dsimp only
  refine inv_ite (inv_upkTrap h) (inv_ite (inv_ite (inv_requestLease h) (inv_setUpk (inv_requestLease h))) ?_)
  split
  · exact inv_nextUpk (inv_consume h)
  · split
    · exact inv_upkStop h
    · exact inv_spanAsk h
    · split
      · exact inv_upkTrap h
      · next hs1 => exact inv_setUpk (inv_of_startAdjoint (inv_spanDone h) hs1)
  · refine inv_ite (inv_upkTrap h) ?_
    split
    · exact inv_upkTrap h
    · exact inv_ite (inv_upkTrap h) (inv_nextUpk (inv_consume (inv_openBoth (inv_applyPlan h))))

theorem inv_entryStep {u} (h : s.Inv) : (entryStep s c u).Inv := by
  unfold entryStep
  dsimp only
  split
  · exact inv_upkStop h
  · exact inv_spanAsk h
  · split
    · exact inv_upkStop h
    · exact inv_spanAsk h
    · refine inv_ite (inv_nextUpk (inv_consume (inv_openBoth (inv_spanDone h)))) ?_
      split
      · exact inv_upkTrap h
      · refine inv_ite (inv_bringTiles h) ?_
        split
        · exact inv_ite (inv_setUpk h) (inv_startRecompute h)
        · exact inv_runEntry (inv_spanDone (inv_setUpk h))

theorem inv_upkStart {u} (h : s.Inv) : (upkStart s c u).Inv := by
  refine inv_ite (inv_upkTrap h) ?_
  split
  · exact inv_takeStop h
  · exact inv_spanAsk h
  · exact inv_ite (inv_upkTrap h) (inv_setUpk (inv_spanDone h))

theorem inv_upkStep {i} (h : s.Inv) : (upkStep e i s).Inv := by
  refine inv_ite (inv_modCore (inv_upkLeave h)) (inv_ite (inv_modCore (inv_upkLeave h)) (inv_ite (inv_modCore h)
    (inv_ite h ?_)))
  split
  · exact inv_upkStart h
  · exact inv_ite (inv_upkStart h) (inv_entryStep h)

@[simp] theorem keeps_semUnpick {g a d} : (semUnpick g a d).Keeps where
  poll _ _ _ h := inv_upkStep h
  eff _ _ h := inv_wrScal (inv_modCore (inv_upkLeave h))

end Sys2Proof.Machine
end

section
/-! Every slot keeps the form of memory, and so does every bundle of them. -/
namespace Sys2Proof.Machine

set_option Elab.async false

variable {s : State} {c : Nat}

@[simp] theorem keeps_semXpose {g o} : (semXpose g o).Keeps := keeps_semStitch
@[simp] theorem keeps_semGather {g o} : (semGather g o).Keeps := keeps_semStitch
@[simp] theorem keeps_semScatter {g o} : (semScatter g o).Keeps := keeps_semStitch
@[simp] theorem keeps_semSoftmax {g o} : (semSoftmax g o).Keeps := keeps_semStitch
@[simp] theorem keeps_semLnorm {g o} : (semLnorm g o).Keeps := keeps_semStitch
@[simp] theorem keeps_semTopk {g o} : (semTopk g o).Keeps := keeps_semStitch
@[simp] theorem keeps_semSort {g o} : (semSort g o).Keeps := keeps_semStitch
@[simp] theorem keeps_semSegsum {g o} : (semSegsum g o).Keeps := keeps_semStitch
@[simp] theorem keeps_semDispatch {g opc o hi} : (semDispatch g opc o hi).Keeps := keeps_semStitch

theorem keeps_semOf {i : Instr} {x : SlotSem} (hx : semOf i = some x) : x.Keeps := by
  cases i
  all_goals cases hx
  all_goals simp

theorem keeps_slotOf {k cls w0 w1} {x : SlotSem} (hx : slotOf k cls w0 w1 = some x) : x.Keeps := by
  unfold slotOf at hx
  dsimp only at hx
  split at hx
  · obtain ⟨i, -, hi⟩ := Option.bind_eq_some_iff.mp hx
    exact keeps_semOf hi
  · split at hx
    · exact nomatch hx
    · split at hx
      · obtain ⟨i, -, hi⟩ := Option.bind_eq_some_iff.mp hx
        exact keeps_semOf hi
      · exact keeps_semOf hx

theorem keeps_decodeSlots {k b l} (hl : decodeSlots k b = .ok l) : ∀ x ∈ l, x.Keeps := by
  unfold decodeSlots at hl
  dsimp only at hl
  split at hl
  · exact nomatch hl
  · cases hl
    intro x hx
    obtain ⟨d, hd, hx⟩ := List.mem_filterMap.mp hx
    obtain ⟨r, -, rfl⟩ := List.mem_map.mp hd
    exact keeps_slotOf hx

theorem inv_bundleAt (h : s.Inv) : (bundleAt c s).Inv := by
  unfold bundleAt
  dsimp only
  refine inv_ite h ?_
  split
  · split
    · exact inv_issueBundle (fun _ hx => nomatch hx) h
    · exact h
  · refine inv_ite h ?_
    split
    · exact inv_askFetch h
    · exact inv_takeStop h
    · exact inv_raiseTrap _ _ h
    · split
      · exact inv_raiseTrap _ _ (inv_cacheFetch h)
      · next hl => exact inv_issueBundle (keeps_decodeSlots hl) (inv_cacheFetch h)

/-- A slot instruction is a bundle of its slot, or of what pricking puts in its place. -/
theorem exec_of_semOf {i : Instr} {x : SlotSem} (hx : semOf i = some x) :
    exec i s = issueOne x s ∨ exec i s = issueHard x s := by
  cases i
  all_goals cases hx
  case vop2 | vfma | vop1 | vcmp | vsel | vred | vrows | vcols | vcvt | vcvto | vsca | vsfu | vint | vmovi | vldt
      | vstt | mlease | munlease | mclaim | mrels | mma | mmah | mdrain | mzero | kcopy | kfill | kgang | kmcast
      | kcgrad | keyeInit | keyeAdd | keyeWait | kpull => exact .inr rfl
  all_goals exact .inl rfl

theorem nextInv_exec_slot {i : Instr} {x : SlotSem} (hx : semOf i = some x) (h : s.Inv) : NextInv (exec i s) := by
  obtain hexec | hexec := exec_of_semOf (s := s) hx <;> rw [hexec]
  · exact nextInv_issueOne (keeps_semOf hx) h
  · exact nextInv_issueHard (keeps_semOf hx) h

end Sys2Proof.Machine
end

section
/-! Lane instructions keep the form of memory (R138 to R152). -/
namespace Sys2Proof.Machine

set_option Elab.async false

variable {s : State} {c g n : Nat} {b : Batch}

theorem inv_go (h : s.Inv) : (LaneRes.go s).Inv := h
theorem inv_stall (h : s.Inv) : (LaneRes.stall s).Inv := h
theorem inv_stop {l st} : (LaneRes.stop l st).Inv := trivial

theorem inv_of_go {r : LaneRes} {t : State} (hr : r.Inv) (ht : r = .go t) : t.Inv := by
  rw [ht] at hr
  exact hr

theorem inv_of_stall {r : LaneRes} {t : State} (hr : r.Inv) (ht : r = .stall t) : t.Inv := by
  rw [ht] at hr
  exact hr

/-! ## Gangs -/

theorem inv_modGang {f} (h : s.Inv) : (modGang s c g f).Inv := inv_modCore h

theorem inv_releaseLanes {ls} (h : s.Inv) : (releaseLanes s c g ls).Inv := inv_released _ _ h

theorem inv_gangSettle (h : s.Inv) : (gangSettle s c g).Inv := by
  unfold gangSettle
  dsimp only
  refine inv_ite h (inv_ite (inv_modGang h) (inv_ite h ?_))
  split
  · refine inv_ite h ?_
    split
    · exact inv_raiseTrap _ _ h
    · exact inv_modCore (inv_releaseLanes h)
  · exact inv_ite (inv_raiseTrap _ _ h) (inv_ite (inv_raiseTrap _ _ h) (inv_ite h (h.of_mem (takeRole_mem ..))))

theorem inv_countBatch (h : s.Inv) : (countBatch s b).Inv := inv_gangSettle (inv_modGang h)
theorem inv_stallBatch (h : s.Inv) : (stallBatch s b).Inv := inv_modGang h

/-- A lane instruction keeps the form of memory where its effect on a batch does. -/
theorem inv_issueLane {i f} (hf : ∀ b s, s.Inv → (f b s).Inv) (h : s.Inv) : (issueLane i f s).Inv := by
  unfold issueLane
  split
  · exact h
  · dsimp only
    refine inv_ite h ?_
    split
    · exact h
    · refine inv_ite (inv_raiseTrap _ _ h) (inv_ite (inv_stallBatch h) ?_)
      split
      · next hgo => exact inv_countBatch (inv_of_go (hf _ s h) hgo)
      · next hstall => exact inv_stallBatch (inv_of_stall (hf _ s h) hstall)
      · exact inv_takeStop h

theorem nextInv_issueLane {i f} (hf : ∀ b s, s.Inv → (f b s).Inv) (h : s.Inv) : NextInv (.next (issueLane i f s)) :=
  nextInv_next (inv_issueLane hf h)

/-! ## Registers and control of the lanes -/

theorem nextInv_laneEach {i f} (h : s.Inv) : NextInv (laneEach i f s) :=
  nextInv_issueLane (fun _ _ h => inv_go (inv_modGang h)) h

theorem nextInv_laneFloat {i rm f put} (h : s.Inv) : NextInv (laneFloat i rm f put s) :=
  nextInv_issueLane (fun _ _ h => inv_go (inv_modGang (inv_modCore h))) h

theorem nextInv_lanePacked {i rm d f} (h : s.Inv) : NextInv (lanePacked i rm d f s) :=
  nextInv_issueLane (fun _ _ h => inv_go (inv_modGang (inv_modCore h))) h

theorem nextInv_collective {i m f} (h : s.Inv) : NextInv (collective i m f s) :=
  nextInv_issueLane (fun _ _ h => inv_go (inv_modGang (inv_modCore h))) h

theorem nextInv_laneJump {i target link} (h : s.Inv) : NextInv (laneJump i target link s) := by
  refine nextInv_issueLane (fun b s h => ?_) h
  dsimp only
  split
  · exact inv_stop
  · exact inv_go (inv_modGang h)

theorem nextInv_execLid {p fn d} (h : s.Inv) : NextInv (execLid p fn d s) :=
  nextInv_issueLane (fun _ _ h => inv_go (inv_modGang h)) h

theorem nextInv_execIdiv {p fn d a b} (h : s.Inv) : NextInv (execIdiv p fn d a b s) := by
  refine nextInv_issueLane (fun t s h => ?_) h
  dsimp only
  split
  · exact inv_stop
  · exact inv_go (inv_modGang h)

theorem nextInv_execIsat {p fn d a b} (h : s.Inv) : NextInv (execIsat p fn d a b s) :=
  nextInv_issueLane (fun _ _ h => inv_go (inv_modGang (inv_modCore h))) h

theorem nextInv_execLbrk {imm} (h : s.Inv) : NextInv (execLbrk imm s) := by
  refine nextInv_issueLane (fun b s h => ?_) h
  dsimp only
  split
  · exact inv_go (inv_modGang h)
  · exact inv_stop

theorem nextInv_execSpawn {p d a off} (h : s.Inv) : NextInv (execSpawn p d a off s) := by
  refine nextInv_issueLane (fun b s h => inv_go (inv_modCore (inv_releaseLanes ?_))) h
  exact h

theorem nextInv_execQuit {p} (h : s.Inv) : NextInv (execQuit p s) := by
  refine nextInv_issueLane (fun b s h => ?_) h
  dsimp only
  split
  · exact inv_stall h
  · split
    · exact inv_stop
    · exact inv_go (inv_modGang h)

theorem nextInv_execRole {topc} (h : s.Inv) : NextInv (execRole topc s) :=
  nextInv_issueLane (fun _ _ h => inv_go (inv_modGang h)) h

theorem nextInv_execLbar (h : s.Inv) : NextInv (execLbar s) :=
  nextInv_issueLane (fun _ _ h => inv_go (inv_modGang h)) h

/-! ## Loads and stores of the lanes (R185 to R195) -/

theorem inv_laneStore {m val l} (h : s.Inv) : (laneStore b m val s l).Inv :=
  inv_ite h (inv_modCore (inv_modCore (inv_ite (inv_keepVa h) h)))

theorem nextInv_laneStoreIssue {i m val} (h : s.Inv) : NextInv (laneStoreIssue i m val s) := by
  refine nextInv_issueLane (fun b s h => ?_) h
  dsimp only
  split
  · exact inv_stop
  · split
    · exact inv_stall h
    · exact inv_go (inv_modGang (inv_foldl (fun _ _ h => inv_laneStore h) (inv_modCore h)))

theorem nextInv_startOp {i m} (h : s.Inv) : NextInv (startOp i m s) := by
  refine nextInv_issueLane (fun b s h => ?_) h
  dsimp only
  split
  · exact inv_stop
  · split
    · exact inv_go (inv_modGang h)
    · split
      · exact inv_stall h
      · exact inv_go (inv_modGang (inv_modCore (inv_ite
          (inv_foldl (fun _ _ h => inv_ite (inv_keepVa h) h) h) h)))

theorem inv_finishOp {op} (h : s.Inv) : (finishOp s c g n op).Inv := by
  unfold finishOp
  dsimp only
  split
  · exact inv_raiseTrap _ _ (inv_modGang h)
  · exact inv_modGang (inv_modCore h)

theorem inv_failOp {op st} (h : s.Inv) : (failOp s c g n op st).Inv := inv_takeStop (inv_modGang h)
theorem inv_setOp {op} (h : s.Inv) : (setOp s c g n op).Inv := inv_modGang h
theorem inv_gotOp {op vs} (h : s.Inv) : (gotOp s c g n op vs).Inv := inv_ite (inv_setOp h) (inv_finishOp h)
theorem inv_badOp {op l t} (h : s.Inv) : (badOp s c g n op l t).Inv := inv_ite (inv_failOp h) (inv_setOp h)

theorem inv_stepRead {op l sp ad} (h : s.Inv) : (stepRead s c g n op l sp ad).Inv := by
  unfold stepRead
  dsimp only
  split
  · exact inv_failOp h
  · exact inv_askRd h
  · exact inv_askRd h
  · exact inv_failOp h
  · split
    · exact inv_ite (inv_gotOp (inv_afterRead h)) (inv_afterRead h)
    · exact inv_gotOp (inv_modCore (inv_ite_snd (inv_afterRead h) (inv_staleLoad (inv_afterRead h))))

theorem inv_remoteGroup {op t ls ad sz o} (h : s.Inv) : (remoteGroup s c g n op t ls ad sz o).Inv := by
  unfold remoteGroup
  dsimp only
  split
  · exact inv_postOrFail h
  · split
    · exact inv_gotOp (inv_modCore (inv_dropReply (inv_keepVa h)))
    · exact inv_badOp (inv_modCore (inv_dropReply (inv_keepVa h)))
  · exact inv_ite (inv_gotOp (inv_modCore (inv_dropReply h))) (inv_badOp (inv_dropReply h))

theorem inv_stepAtomic {op l sp ad} (h : s.Inv) : (stepAtomic s c g n op l sp ad).Inv := by
  unfold stepAtomic
  dsimp only
  split
  · exact inv_failOp h
  · exact inv_ite (inv_remoteGroup h) h
  · exact inv_failOp h
  · refine inv_ite h (inv_ite (inv_ite h ?_) ?_)
    · exact inv_gotOp (inv_landGm _ _ _ _ _ (inv_keepVa h))
    · exact inv_gotOp (inv_landTs h)

/-! ## Fences, and operations pushed on (R190 to R192) -/

theorem inv_lfenceDo {kind istr scope ls} (h : s.Inv) : (lfenceDo s c g kind istr scope ls).Inv := by
  have hcode : (if istr && !ls.isEmpty then dropCode s c else s).Inv := inv_ite (inv_dropCode h) h
  have hrel := inv_ite (p := kind != .acq) (inv_modCore (c := c)
    (f := fun k => ls.foldl (fun k l => k.veil (.fibre g l) (scopeCode scope)) k)
    (inv_releaseLanes (c := c) (g := g) (ls := ls) hcode)) hcode
  exact inv_ite hrel (inv_modCore hrel)

theorem inv_lfenceStep {op kind istr scope} (h : s.Inv) : (lfenceStep s c g n op kind istr scope).Inv := by
  refine inv_ite h ?_
  split
  · exact inv_raiseTrap _ _ (inv_modGang h)
  · exact inv_modGang (inv_lfenceDo h)

theorem inv_loadResult {idx} (h : s.Inv) : (loadResult c g idx s).Inv := by
  unfold loadResult
  dsimp only
  split
  · exact h
  · split
    · exact inv_ite h (inv_lfenceStep h)
    · refine inv_ite (inv_finishOp h) ?_
      split
      · exact h
      · exact inv_ite h (inv_ite (inv_stepAtomic h) (inv_stepRead h))

theorem inv_pushOps {p} (h : s.Inv) : (pushOps p s c g).Inv := by
  refine inv_foldl (fun s n h => ?_) h
  split
  · exact h
  · exact inv_foldl (fun _ _ h => inv_loadResult h) h

theorem inv_landRest (h : s.Inv) : (landRest s).Inv := inv_foldl (fun _ _ h => inv_pushOps h) h
theorem inv_lwaitWatch {s0} (h : s.Inv) : (lwaitWatch s0 s).Inv := inv_foldl (fun _ _ h => inv_pushOps h) h

theorem inv_lwaitLast {op} (h : s.Inv) : (lwaitLast s c g op).1.Inv := by
  refine inv_foldl_fst (fun p e h => ?_) h
  split
  · exact inv_afterRead h
  · exact h

theorem nextInv_execLwaitTimeout {idx} (h : s.Inv) : NextInv (execLwaitTimeout c g idx s) := by
  unfold execLwaitTimeout
  dsimp only
  split
  · exact nextInv_next h
  · split
    · split
      · exact nextInv_next (inv_finishOp (inv_lwaitLast h))
      · exact nextInv_next h
    · exact nextInv_next h

theorem nextInv_execLfence {p kind istr scope} (h : s.Inv) : NextInv (execLfence p kind istr scope s) := by
  refine nextInv_issueLane (fun b s h => ?_) h
  dsimp only
  split
  · exact inv_go (inv_modGang h)
  · split
    · exact inv_stop
    · exact inv_go (inv_modGang (inv_lfenceDo h))

theorem nextInv_execLfork {p parent mask} (h : s.Inv) : NextInv (execLfork p parent mask s) :=
  nextInv_issueLane (fun _ _ h => inv_go (inv_modGang (inv_modCore h))) h
theorem nextInv_execLjoin {p target mask} (h : s.Inv) : NextInv (execLjoin p target mask s) :=
  nextInv_issueLane (fun _ _ h => inv_go (inv_modGang (inv_modCore h))) h

/-! ## Nested commands (R203) -/

theorem inv_awaitChild (h : s.Inv) : (awaitChild b s).Inv := inv_modGang h
theorem inv_nestWait {w} (h : s.Inv) : (nestWait b w s).Inv := inv_modGang h
theorem inv_charge (h : s.Inv) : (charge c n s).Inv := inv_modCore h
theorem inv_nestTrap {w cause} : (nestTrap b w s cause).Inv := trivial
theorem inv_nestStop {w st} : (nestStop b w st).Inv := by cases st <;> trivial

theorem LaneRes.inv_ite {p : Prop} [Decidable p] {x y : LaneRes} (hx : x.Inv) (hy : y.Inv) :
    (if p then x else y).Inv := by
  split
  · exact hx
  · exact hy

theorem inv_nestDispatch {w e x opc} (h : s.Inv) : (nestDispatch b w e x opc s).Inv := by
  refine LaneRes.inv_ite inv_nestTrap (LaneRes.inv_ite (inv_go (inv_nestWait h)) ?_)
  split
  · exact inv_nestStop
  · split
    · exact inv_go (inv_awaitChild (inv_charge (inv_startGang h)))
    · exact LaneRes.inv_ite inv_nestTrap (inv_go (inv_nestWait h))

theorem inv_nestIssue {w} (h : s.Inv) : (nestIssue b w s).Inv := by
  unfold nestIssue
  dsimp only
  split
  · exact inv_nestTrap
  · next hx =>
    have hsem := keeps_slotOf hx
    refine LaneRes.inv_ite inv_nestTrap (LaneRes.inv_ite inv_nestTrap (LaneRes.inv_ite inv_nestTrap
      (LaneRes.inv_ite (inv_go (inv_nestWait h)) (LaneRes.inv_ite (inv_nestDispatch h)
        (LaneRes.inv_ite (inv_go (inv_nestWait (hsem.poll _ _ _ h))) ?_)))))
    split
    · exact inv_nestStop
    · exact inv_go (inv_awaitChild (hsem.post _ _ (inv_charge (hsem.eff _ _ h))))

theorem inv_nestRetry {w} (h : s.Inv) : (nestRetry c g s w).Inv := by
  unfold nestRetry
  refine inv_ite h ?_
  dsimp only
  split
  · next hgo => exact inv_of_go (inv_nestIssue h) hgo
  · next hstall => exact inv_of_stall (inv_nestIssue h) hstall
  · exact inv_takeStop h

theorem nextInv_execTissue {p k96 a b} (h : s.Inv) : NextInv (execTissue p k96 a b s) := by
  refine nextInv_issueLane (fun t s h => ?_) h
  unfold tissueRun
  split
  · exact inv_go (inv_modGang h)
  · exact LaneRes.inv_ite inv_nestTrap (inv_nestIssue h)

end Sys2Proof.Machine
end

section
/-! Motifs end, halt, are saved and come back in the form of memory (R135, R332 to R348). -/
namespace Sys2Proof.Machine

set_option Elab.async false

variable {s : State} {c g n : Nat}

/-! ## Stores that land -/

theorem inv_settleAgent {ag} (h : s.Inv) : (settleAgent s c ag).Inv := by
  cases ag
  · exact h
  · exact inv_gangSettle h

theorem inv_landOne {id} (h : s.Inv) : (landOne s c id).Inv := by
  unfold landOne
  dsimp only
  split
  · exact h
  · exact inv_ite h (inv_ite (inv_ite h (inv_ite (inv_modCore (inv_postReq h))
      (inv_settleAgent (inv_modCore (inv_postReq h))))) (inv_ite h (inv_ite (inv_settleAgent (inv_modCore h))
      (inv_settleAgent (inv_modCore (inv_landStore _ _ h))))))

theorem inv_mappedWrite {pa bs} (h : s.Inv) : (mappedWrite s pa bs).Inv := inv_ite h (inv_physWrite _ _ h)

/-! ## The record of a launch -/

theorem inv_recWrite {l off v} (h : s.Inv) : (recWrite s l off v).Inv := by
  obtain hw | ⟨pa, bs, hw⟩ | hw := recWrite_cases s l off v
  · rw [hw]
    exact h
  · rw [hw]
    exact inv_physWrite pa bs h
  · exact h.of_mem hw.mem

theorem inv_setLaunch {l} (h : s.Inv) : (s.setLaunch l).Inv := h
theorem inv_setMsix {l} (h : s.Inv) : ({ s with msix := l } : State).Inv := h
theorem inv_setContext {x} (h : s.Inv) : (s.setContext x).Inv := h
theorem inv_setStatus {l st} (h : s.Inv) : (setStatus s l st).Inv :=
  inv_ite (inv_recWrite (inv_setLaunch h)) (inv_setLaunch h)

/-! ## The end of a motif -/

theorem inv_idleLease (h : s.Inv) : (idleLease s c).Inv := h.of_mem (leaseOnly_idleLease s c).mem

theorem inv_servePeers (h : s.Inv) : (servePeers s c).Inv :=
  inv_foldl (fun _ _ h => inv_foldl (fun _ _ h => inv_modCore (inv_landStore _ _ h)) (inv_modCore h)) h

theorem inv_freeFrame {m} (h : s.Inv) : (freeFrame s m).Inv := by
  unfold freeFrame
  split
  · exact inv_setContext h
  · exact h

theorem inv_landSaved {ctx st} (h : s.Inv) : (landSaved s ctx st).Inv := by
  unfold landSaved
  split
  · exact inv_ite h (inv_mappedWrite h)
  · exact h

theorem inv_dropReqs (h : s.Inv) : (dropReqs s c).Inv := h
theorem inv_dropTags {id} (h : s.Inv) : (dropTags s id).Inv := h
theorem inv_dropOps {id} (h : s.Inv) : (dropOps s id).Inv := h

theorem inv_endMotif {m st} (h : s.Inv) : (endMotif s m st).Inv := by
  refine inv_freeFrame (inv_setMotif (inv_dropOps (inv_dropTags ?_)))
  split
  · exact inv_foldl (fun _ _ h => inv_landSaved h) h
  · exact inv_idleLease (inv_modCore (inv_dropReqs (inv_servePeers
      (inv_foldl (fun _ _ h => inv_ite h (inv_landStore _ _ h)) h))))

theorem inv_failLaunch {id code} (h : s.Inv) : (failLaunch s id code).Inv := by
  unfold failLaunch
  split
  · exact h
  · exact inv_ite h (inv_setStatus (inv_foldl (fun _ _ h => inv_endMotif h) h))

theorem inv_killMotif {m} (h : s.Inv) : (killMotif s m).Inv := inv_failLaunch (inv_endMotif h)

theorem nextInv_execMotifDone (h : s.Inv) : NextInv (execMotifDone c s) := by
  unfold execMotifDone
  dsimp only
  split
  · exact nextInv_next h
  · split
    · split
      · exact nextInv_next (inv_endMotif h)
      · split
        · exact nextInv_next (inv_setStatus (inv_endMotif h))
        · exact nextInv_next (inv_setLaunch (inv_endMotif h))
    · exact nextInv_next h

theorem nextInv_execPreemptTimeout (h : s.Inv) : NextInv (execPreemptTimeout c s) := by
  unfold execPreemptTimeout
  split
  · split
    · exact nextInv_next (inv_killMotif h)
    · exact nextInv_next h
  · exact nextInv_next h

/-! ## Halts -/

theorem inv_haltLease {m} (h : s.Inv) : (haltLease s c m).Inv := by
  unfold haltLease
  split
  · exact h
  · exact inv_settleOf (inv_setGiveUp (inv_setLease (inv_setMotif h)))

theorem nextInv_execMotifHalt (h : s.Inv) : NextInv (execMotifHalt c s) := by
  unfold execMotifHalt
  dsimp only
  split
  · split
    · exact nextInv_next (inv_modCore (inv_haltLease (inv_ite (inv_upkLeave h) h)))
    · exact nextInv_next h
  · exact nextInv_next h

/-! ## Saving a motif (R336 to R338) -/

theorem inv_saveGang {fr} (h : s.Inv) : (saveGang s fr c g).Inv :=
  inv_foldl (fun _ _ h => inv_foldl (fun _ _ h => inv_physWrite _ _ h) h)
    (inv_foldl (fun _ _ h => inv_physWrite _ _ h) (inv_physWrite _ _ h))

theorem inv_saveQuarter {fr} (h : s.Inv) : (saveQuarter s fr c g).Inv := by
  unfold saveQuarter
  exact inv_physPaste _ _ _ _ h

theorem inv_restoreQuarter {fr} (h : s.Inv) : (restoreQuarter s fr c g).Inv := inv_modCore h

theorem inv_saveRegs {fr} (h : s.Inv) : (saveRegs s fr c).Inv :=
  inv_physWrite _ _ (inv_physWrite _ _ (inv_physWrite _ _ (inv_physWrite _ _ h)))

theorem inv_savePinned {fr k} (h : s.Inv) : (savePinned s fr c k).1.Inv :=
  inv_foldl_fst (fun _ _ h => inv_ite_fst (inv_writeTile h) h) h

theorem inv_parkOps {id} (h : s.Inv) : (parkOps s c id).Inv := inv_modCluster h

theorem inv_appendEntries {x l} (h : s.Inv) : (appendEntries s x l).Inv := by
  induction l generalizing s x with
  | nil => exact inv_setContext h
  | cons e rest ih =>
    rw [appendEntries]
    exact inv_ite (inv_setContext h) (ih (inv_setMsix (inv_physWrite _ _ (inv_physWrite _ _ h))))

theorem inv_faultEntry {m cause} (h : s.Inv) : (faultEntry s m cause).Inv := by
  unfold faultEntry
  split
  · exact h
  · exact inv_appendEntries h

theorem nextInv_execFaultRingRetry {ctx} (h : s.Inv) : NextInv (execFaultRingRetry ctx s) := by
  unfold execFaultRingRetry
  split
  · exact nextInv_next h
  · exact nextInv_next (inv_appendEntries h)

theorem inv_openOutputs {m} (h : s.Inv) : (openOutputs s c m).Inv :=
  inv_foldl (fun _ _ h => inv_modCore (inv_freeBytes h)) h

theorem inv_openTiles {fr saved} (h : s.Inv) : (openTiles s fr saved).Inv :=
  inv_foldl (fun _ _ h => inv_openMem _ _ h) h

theorem inv_saveMotif {m fr} (h : s.Inv) : (saveMotif s c m fr).Inv := by
  unfold saveMotif
  extract_lets +lift lease giveUp claims r s0 k s1 s2 s3 s4
  have h2 : s2.Inv := inv_foldl (fun _ _ h => inv_saveQuarter (inv_saveGang h))
    (inv_saveRegs (inv_modCore (inv_openOutputs h)))
  have h3 : s3.Inv := by
    unfold s3 r
    split
    · exact inv_physWrite _ _ h2
    · exact h2
  have h4 : s4.Inv := inv_physWrite _ _ h3
  exact inv_setMotif (inv_idleLease (inv_parkOps (inv_modCore (inv_openTiles (inv_savePinned h4)))))

theorem nextInv_execSwapOut (h : s.Inv) : NextInv (execSwapOut c s) := by
  unfold execSwapOut
  split
  · exact nextInv_next h
  · split
    · exact nextInv_next h
    · split
      · exact nextInv_next h
      · split
        · exact nextInv_next (inv_raiseTrap _ _ h)
        · dsimp only
          split
          · exact nextInv_next (inv_saveMotif h)
          · split
            · have hentry {m m1 fr cause} :=
                inv_faultEntry (m := m1) (cause := cause) (inv_saveMotif (c := c) (m := m) (fr := fr) h)
              exact nextInv_next (inv_ite (inv_killMotif hentry) hentry)
            · exact nextInv_next (inv_saveMotif h)

/-! ## A motif that comes back (R338, R341 to R343) -/

theorem inv_loadGang {fr} (h : s.Inv) : (loadGang s fr c g).Inv := by
  unfold loadGang
  dsimp only
  split
  · split
    · exact inv_raiseTrap _ _ (inv_modGang h)
    · exact inv_modGang (inv_startGang h)
  · exact inv_ite h (inv_modGang h)

theorem inv_recallTiles {id} (h : s.Inv) : (recallTiles s c id).Inv :=
  inv_foldl (fun _ _ h => inv_foldl (fun _ _ h => inv_evictTile h) h) h

theorem inv_recallOps {fr id claims} (h : s.Inv) : (recallOps s fr c id claims).Inv :=
  inv_foldl (fun _ _ h => inv_modCluster h) (inv_makeRoom
    (inv_foldl (fun _ _ h => inv_modCluster (inv_foldl (fun _ _ h => inv_saveSlot h) h)) h))

theorem inv_renewStores {quiet} (h : s.Inv) : (renewStores s c quiet).Inv := by
  refine inv_foldl (fun s st h => ?_) h
  dsimp only
  split
  · split
    · exact inv_modCore h
    · exact inv_ite h (inv_raiseTrap _ _ h)
  · exact inv_modCore h
  · exact h

theorem inv_restoreMotif {m x l fr own} (h : s.Inv) : (restoreMotif s c m x l fr own).Inv := by
  unfold restoreMotif
  extract_lets +lift s1 own1 k0 mine k1 src k2 s2 s3 s4 s5 s6
  have h2 : s2.Inv := inv_setMotif (inv_recallOps (inv_setCore (inv_recallTiles h)))
  have h3 : s3.Inv := by
    refine inv_foldl (fun _ _ h => inv_loadGang (inv_restoreQuarter h)) (inv_renewStores ?_)
    split
    · exact inv_ite h2 (inv_raiseTrap _ _ h2)
    · exact h2
  have h5 : s5.Inv := inv_modCore (inv_bringTiles h3)
  have h6 : s6.Inv := inv_ite h5 (inv_setGiveUp (inv_requestLease h5))
  exact inv_ite (inv_requestLease h6) (inv_settleOf h6)

theorem nextInv_execTileRefill {tile} (h : s.Inv) : NextInv (execTileRefill c tile s) :=
  nextInv_next (inv_ite h (inv_refillTile h))

end Sys2Proof.Machine
end

section
/-! The distributor keeps the form of memory (R126 to R135, R437, R438, R450). -/
namespace Sys2Proof.Machine

set_option Elab.async false

variable {s : State} {c n : Nat}

/-! ## Reads in a context -/

/-- Where a read of the distributor has to wait, the device that waits has its memory in its form. -/
def DRd.Inv : DRd → Prop
  | .wait s => s.Inv
  | .bytes _ | .bad => True

theorem inv_of_wait {r : DRd} {t : State} (hr : r.Inv) (ht : r = .wait t) : t.Inv := by
  rw [ht] at hr
  exact hr

theorem inv_distPart {ctx who va n} (h : s.Inv) : (distPart s ctx who va n).Inv := by
  unfold distPart
  split
  · trivial
  · split
    · trivial
    · split
      · split
        · trivial
        · trivial
        · dsimp only
          split
          · exact inv_postReq h
          · trivial
      · split <;> trivial

theorem inv_distRead {ctx id q l} (h : s.Inv) : (distRead s ctx id q l).Inv := by
  induction l generalizing q with
  | nil => trivial
  | cons p rest ih =>
    rw [distRead]
    split
    · split
      · trivial
      · exact ih
    · exact inv_distPart h

/-! ## Acceptance -/

theorem inv_newLaunch {tok q slot addr virt ctx fn r extra mayPriv unread rep} (h : s.Inv) :
    (newLaunch s tok q slot addr virt ctx fn r extra mayPriv unread rep).Inv := by
  unfold newLaunch
  extract_lets +lift deps l s1 s2 l1
  have h1 : s1.Inv := h
  have h2 : s2.Inv := inv_recWrite (inv_recWrite h1)
  refine inv_ite (inv_setStatus h1) ?_
  split
  · exact inv_setStatus h2
  · exact inv_ite (inv_setStatus h2) (inv_setLaunch h2)

theorem inv_setCapstat {w} (h : s.Inv) : ({ s with capstat := w } : State).Inv := h
theorem inv_capAppend {bs} (h : s.Inv) : (capAppend s bs).Inv := inv_ite h (inv_setCapstat (inv_mappedWrite h))

theorem inv_capRead {ctx id q l} (h : s.Inv) : (capRead ctx id q l s).2.Inv := by
  induction l generalizing q s with
  | nil => exact h
  | cons p rest ih =>
    rw [capRead]
    split
    · next hw => exact inv_of_wait (inv_distPart h) hw
    · exact ih h
    · exact ih (inv_freeBytes h)

theorem inv_capRecord {tok r} (h : s.Inv) : (capRecord s tok r).2.Inv := inv_capRead h

theorem inv_capPlace {l m} (h : s.Inv) : (capPlace s l m c).Inv := inv_ite (inv_capAppend h) h

theorem inv_acceptHost {x} (h : s.Inv) : (acceptHost s x).Inv := by
  unfold acceptHost
  refine inv_ite h ?_
  extract_lets +lift size addr r seq tok y go
  have hgo {s} (h : s.Inv) : (go s).Inv := inv_newLaunch h
  refine inv_ite ?_ (hgo h)
  have hrec := inv_capRecord (tok := tok) (r := r) h
  split
  · next hr =>
    rw [hr] at hrec
    exact hrec
  · next hr =>
    rw [hr] at hrec
    exact hgo (inv_capAppend hrec)

theorem inv_acceptDevice (h : s.Inv) : (acceptDevice s).Inv := by
  unfold acceptDevice
  split
  · exact h
  · dsimp only
    split
    · next hw => exact inv_of_wait (inv_distRead h) hw
    · exact inv_newLaunch h
    · exact inv_newLaunch h

theorem nextInv_execLaunchRecordAccept {queue} (h : s.Inv) : NextInv (execLaunchRecordAccept queue s) := by
  unfold execLaunchRecordAccept
  split
  · exact nextInv_next (inv_acceptDevice h)
  · split
    · exact nextInv_next (inv_acceptHost h)
    · exact nextInv_next h

theorem nextInv_execCapture {queue} (h : s.Inv) : NextInv (execCapture queue s) := by
  unfold execCapture
  split
  · split
    · exact nextInv_next (inv_acceptHost h)
    · exact nextInv_next h
  · exact nextInv_next h

/-! ## Eligibility and aging -/

theorem inv_requestPreempt (h : s.Inv) : (requestPreempt s).Inv := h.of_mem (asked_requestPreempt s).mem

theorem nextInv_execClassAging {launch} (h : s.Inv) : NextInv (execClassAging launch s) := by
  unfold execClassAging
  split
  · exact nextInv_next h
  · split
    · exact nextInv_next (inv_requestPreempt (inv_setLaunch h))
    · exact nextInv_next h

theorem nextInv_execLaunchEligible {launch} (h : s.Inv) : NextInv (execLaunchEligible launch s) := by
  unfold execLaunchEligible
  split
  · exact nextInv_next h
  · dsimp only
    split
    · exact nextInv_next h
    · split
      · exact nextInv_next (inv_setStatus h)
      · split
        · next hw => exact nextInv_next (inv_of_wait (inv_distRead h) hw)
        · exact nextInv_next (inv_setStatus h)
        · exact nextInv_next (inv_requestPreempt (inv_setLaunch h))

/-! ## Placement -/

theorem inv_powerOn (h : s.Inv) : (powerOn s c).Inv := inv_ite h h

theorem inv_placeOne {l x j} (h : s.Inv) : (placeOne s l x j c).Inv := by
  unfold placeOne
  dsimp only
  split
  · exact inv_powerOn h
  · refine inv_capPlace ?_
    split
    · exact (inv_powerOn h).of_mem rfl
    · exact (inv_powerOn h).of_mem rfl

theorem inv_placeUnit {l j cores} (h : s.Inv) : (placeUnit s l j cores).Inv := by
  unfold placeUnit
  split
  · exact h
  · have hplaced {us : List (Nat × Nat)} {x} : (us.foldl (fun s p => placeOne s l x p.1 p.2) s).Inv :=
      inv_foldl (fun _ _ h => inv_placeOne h) h
    exact inv_ite (inv_setStatus hplaced) (inv_setLaunch hplaced)

theorem nextInv_execMotifPlace {launch cores} (h : s.Inv) : NextInv (execMotifPlace launch cores s) := by
  unfold execMotifPlace
  split
  · exact nextInv_next h
  · split
    · exact nextInv_next (inv_ite (inv_requestPreempt h) h)
    · split
      · exact nextInv_next (inv_requestPreempt h)
      · split
        · exact nextInv_next (inv_requestPreempt (inv_placeUnit h))
        · exact nextInv_next h

theorem inv_reenter {m} (h : s.Inv) : (reenter s m c).Inv := by
  unfold reenter
  split
  · split
    · exact h
    · exact inv_capPlace (inv_setLaunch (inv_restoreMotif (inv_powerOn h)))
  · exact h

theorem nextInv_execMotifReentry {motif} (h : s.Inv) : NextInv (execMotifReentry motif c s) := by
  unfold execMotifReentry
  split
  · exact nextInv_next h
  · split
    · exact nextInv_next h
    · dsimp only
      split
      · exact nextInv_next h
      · split
        · exact nextInv_next h
        · split
          · exact nextInv_next (inv_foldl (fun _ _ h => inv_reenter h) h)
          · exact nextInv_next h

/-! ## Launches over devices -/

theorem nextInv_execRemoteInstance {dev token inst pclass since record args} (h : s.Inv) :
    NextInv (execRemoteInstance dev token inst pclass since record args s) := by
  unfold execRemoteInstance
  dsimp only
  split
  · exact nextInv_next h
  · split
    · exact nextInv_next h
    · split
      · exact nextInv_next h
      · exact nextInv_next (inv_requestPreempt h)

theorem nextInv_execCrossDeviceReserve {launch cores commit} (h : s.Inv) :
    NextInv (execCrossDeviceReserve launch cores commit s) := by
  unfold execCrossDeviceReserve
  split
  · exact nextInv_next h
  · split
    · exact nextInv_next h
    · dsimp only
      split
      · exact nextInv_next h
      · split
        · split
          · exact nextInv_next (inv_placeUnit h)
          · exact nextInv_next h
        · split
          · exact nextInv_next (inv_requestPreempt h)
          · split
            · exact nextInv_next (inv_setLaunch h)
            · exact nextInv_next h

theorem inv_remotePart {token inst ok} (h : s.Inv) : (remotePart s token inst ok).Inv := by
  unfold remotePart
  split
  · exact h
  · dsimp only
    refine inv_ite h ?_
    split
    · exact inv_ite (inv_setLaunch h) (inv_setStatus h)
    · exact inv_ite (inv_setStatus h) (inv_setLaunch h)
    · exact inv_failLaunch h

end Sys2Proof.Machine
end

section
/-! Fabric: what arrives over the links, the words other devices ask for and frozen masters keep the form of memory
(R350 to R387, R421 to R425). -/
namespace Sys2Proof.Machine

set_option Elab.async false

variable {s : State} {c n : Nat}

/-! ## Requests that are answered -/

theorem inv_setPort {x} (h : s.Inv) : (s.setPort n x).Inv := h
theorem inv_putReply {who st bs} (h : s.Inv) : (putReply s c who st bs).Inv := inv_modCore h
theorem inv_putDistReply {who st bs} (h : s.Inv) : (putDistReply s who st bs).Inv := h
theorem inv_setResend {l} (h : s.Inv) : ({ s with resend := l } : State).Inv := h
theorem inv_remoteLanded {src r} (h : s.Inv) : (remoteLanded s c src r).Inv := inv_modCore h

theorem inv_noticeFailed {motif order status dev} (h : s.Inv) : (noticeFailed s motif order status dev).Inv := by
  unfold noticeFailed
  dsimp only
  split
  · exact h
  · split
    · exact inv_modCore h
    · exact inv_setMotif h

theorem inv_storeAnswered {id st r} (h : s.Inv) : (storeAnswered s c id st r).Inv := by
  unfold storeAnswered
  split
  · exact h
  · exact inv_settleAgent (inv_ite (inv_modCore (inv_remoteLanded h)) (inv_modCore h))

theorem inv_answered {r st bs} (h : s.Inv) : (answered s r st bs).Inv := by
  unfold answered
  extract_lets s1
  have h1 : s1.Inv := inv_sendHeld (s := { s with requests := s.requests.filter (·.id != r.id) }) h
  split
  · exact inv_storeAnswered h1
  · exact inv_putReply (inv_ite (inv_remoteLanded h1) h1)
  · exact inv_putReply (inv_ite (inv_remoteLanded h1) h1)
  · exact inv_putReply h1
  · exact inv_ite h1 (inv_ite (inv_setResend h1) (inv_noticeFailed h1))
  · exact h1
  · exact inv_ite (inv_putDistReply h1) h1

theorem nextInv_execFabricResponse {req status data poison} (h : s.Inv) :
    NextInv (execFabricResponse req status data poison s) := by
  unfold execFabricResponse
  split
  · exact nextInv_next h
  · exact nextInv_ite (nextInv_next (inv_answered h)) (nextInv_next h)

theorem nextInv_execFabricTimeout {req} (h : s.Inv) : NextInv (execFabricTimeout req s) := by
  unfold execFabricTimeout
  split
  · exact nextInv_next h
  · split
    · exact nextInv_next (inv_answered h)
    · exact nextInv_next h

theorem inv_failLost (h : s.Inv) : (failLost s).Inv := inv_foldl (fun _ _ h => inv_answered h) h

/-! ## Links -/

theorem inv_sendCtl {p q k} (h : s.Inv) : (sendCtl s p q k).Inv := h
theorem inv_resendFlit {p x} (h : s.Inv) : (resendFlit s p x).Inv := h
theorem inv_askReplay {p} (h : s.Inv) : (askReplay s p).Inv := inv_sendCtl (inv_setPort h)
theorem inv_passedOn {p} (h : s.Inv) : (passedOn s p).Inv := h

theorem inv_resendFrom {p q} (h : s.Inv) : (resendFrom s p q).Inv := by
  unfold resendFrom
  dsimp only
  split
  · exact inv_foldl (fun _ _ h => inv_resendFlit h) h
  · exact h

theorem inv_answer {r op data} (h : s.Inv) : (answer s r op data).Inv :=
  inv_sendPacket (s := { s with fresh := s.fresh + 1 }) h

theorem inv_refuse {r status} (h : s.Inv) : (refuse s r status).Inv := inv_sendPacket h

theorem inv_passOn {p} (h : s.Inv) : (passOn s p).Inv := inv_ite (inv_sendPacket h) (inv_refuse h)

theorem inv_releaseTransit (h : s.Inv) : (releaseTransit s).Inv :=
  inv_foldl (s := { s with transit := [] }) (fun _ _ h => inv_passOn h) h

theorem inv_answeredPass {p} (h : s.Inv) : (answeredPass s p).Inv := h
theorem inv_takeIn {p} (h : s.Inv) : (takeIn s p).Inv := inv_ite h h

theorem inv_deliver {p} (h : s.Inv) : (deliver s p).Inv := by
  unfold deliver
  extract_lets s1
  have h1 : s1.Inv := inv_ite (inv_answeredPass h) h
  refine inv_ite (inv_passOn h1) (inv_ite (inv_takeIn h1) ?_)
  split
  · exact h1
  · exact inv_ite (inv_answered h1) h1

theorem inv_restop {p} (h : s.Inv) : (restop s p).Inv := by
  unfold restop
  exact inv_ite h (inv_setPort h)

theorem inv_restopAll (h : s.Inv) : (restopAll s).Inv := inv_foldl (fun _ _ h => inv_restop h) h

theorem inv_acceptFlit {p vc payload} (h : s.Inv) : (acceptFlit s p vc payload).Inv :=
  inv_ite (inv_setPort h) (inv_restop (inv_foldl (fun _ _ h => inv_deliver h) (inv_setPort h)))

theorem inv_pumpPort {p} (h : s.Inv) : (pumpPort s p).Inv :=
  inv_sendHeld (inv_restopAll (inv_releaseTransit (inv_pump h)))

theorem nextInv_execFlitReceive {port flit} (h : s.Inv) : NextInv (execFlitReceive port flit s) := by
  unfold execFlitReceive
  extract_lets x lk kind s1 src s2
  have h1 : s1.Inv := inv_passedOn (inv_setPort h)
  have h2 : s2.Inv := inv_ite (inv_ite (inv_acceptFlit h1) (inv_askReplay h1))
    (inv_ite (inv_resendFrom h1) (inv_ite (inv_setPort h1) h1))
  split
  · exact nextInv_next h
  · split
    · exact nextInv_next (inv_askReplay h)
    · exact nextInv_next (inv_pumpPort h2)

theorem inv_rerouted (h : s.Inv) : (rerouted s).Inv :=
  inv_failLost (inv_sendHeld (inv_restopAll (inv_releaseTransit h)))

theorem inv_setTransit {l} (h : s.Inv) : ({ s with transit := l } : State).Inv := h

theorem inv_portDown {p} (h : s.Inv) : (portDown s p).Inv :=
  inv_rerouted (inv_putEvent (inv_setTransit (inv_setPort h)))

theorem nextInv_execLinkRetrain {port lanesFailed ok} (h : s.Inv) :
    NextInv (execLinkRetrain port lanesFailed ok s) := by
  unfold execLinkRetrain
  extract_lets x lanes s1 s2
  have h1 : s1.Inv := inv_sendCtl (inv_setPort h)
  have h2 : s2.Inv := inv_ite h1 (inv_putEvent h1)
  split
  · exact nextInv_next h
  · split
    · exact nextInv_next (inv_portDown h1)
    · exact nextInv_next (inv_pumpPort (inv_foldl (fun _ _ h => inv_resendFlit h) h2))

theorem nextInv_execLinkPortStateChange {port up} (h : s.Inv) : NextInv (execLinkPortStateChange port up s) := by
  unfold execLinkPortStateChange
  dsimp only
  split
  · exact nextInv_next h
  · split
    · exact nextInv_next (inv_sendHeld (inv_pumpPort (inv_setPort h)))
    · exact nextInv_next (inv_portDown h)

theorem nextInv_execRouteTableLoad {dev gszm1 entries} (h : s.Inv) :
    NextInv (execRouteTableLoad dev gszm1 entries s) := by
  unfold execRouteTableLoad
  dsimp only
  split
  · exact nextInv_next h
  · exact nextInv_next (inv_rerouted h)

/-! ## What another device asks of this one -/

theorem inv_perform {r} (h : s.Inv) : (perform s r).Inv :=
  inv_ite (inv_refuse h) (inv_ite (inv_refuse h) (inv_ite (inv_answer h)
    (inv_ite (inv_answer (inv_physWrite _ _ h)) (inv_answer (inv_physWrite _ _ h)))))

theorem inv_setFresh (h : s.Inv) : ({ s with fresh := n } : State).Inv := h

theorem inv_noticeArrive {sender token} (h : s.Inv) : (noticeArrive s sender token).1.Inv :=
  inv_ite_fst h (inv_ite_fst (inv_freezeMaster (inv_setFresh h)) (inv_ite_fst h h))

theorem inv_peerFreeze {r} (h : s.Inv) : (peerFreeze s r).Inv := inv_freezeMaster (inv_setFresh h)

theorem inv_setIncoming {l} (h : s.Inv) : ({ s with incoming := l } : State).Inv := h

theorem nextInv_execRemoteRequest {idx} (h : s.Inv) : NextInv (execRemoteRequest idx s) := by
  unfold execRemoteRequest
  have h0 : (restopAll { s with incoming := s.incoming.eraseIdx idx }).Inv := inv_restopAll (inv_setIncoming h)
  split
  · exact nextInv_next h
  · split
    · exact nextInv_next h
    · dsimp only
      split
      · split
        · exact nextInv_next (inv_answer (inv_noticeArrive h0))
        · exact nextInv_next (inv_refuse (inv_noticeArrive h0))
      · split
        · exact nextInv_next (inv_refuse h0)
        · split
          · exact nextInv_next (inv_refuse (inv_peerFreeze h0))
          · split
            · exact nextInv_next (inv_refuse (inv_peerFreeze h0))
            · split
              · split
                · exact nextInv_next (inv_refuse h0)
                · split
                  · exact nextInv_next (inv_refuse h0)
                  · exact nextInv_next (inv_foldl (fun _ _ h => inv_sendPacket h) h0)
              · split
                · exact nextInv_next h
                · exact nextInv_next (inv_perform h0)

/-! ## Notices -/

theorem inv_sendNotice {core motif token order dev} (h : s.Inv) : (sendNotice s core motif token order dev).1.Inv :=
  inv_ite_fst (inv_ite_fst h h) (inv_ite_fst (inv_postReq h) (inv_noticeFailed (inv_postReq h)))

theorem nextInv_execHandleNotice {core idx} (h : s.Inv) : NextInv (execHandleNotice core idx s) := by
  unfold execHandleNotice
  dsimp only
  split
  · split
    · exact nextInv_next h
    · exact nextInv_next (inv_ite (inv_sendNotice (inv_modCore h)) (inv_setResend (inv_sendNotice (inv_modCore h))))
  · exact nextInv_next h

theorem nextInv_execHandleNoticeArrival {sender token} (h : s.Inv) :
    NextInv (execHandleNoticeArrival sender token s) := nextInv_next (inv_ite h (inv_noticeArrive h))

theorem nextInv_execNoticeResend {idx} (h : s.Inv) : NextInv (execNoticeResend idx s) := by
  unfold execNoticeResend
  split
  · exact nextInv_next h
  · split
    · exact nextInv_next h
    · exact nextInv_next (inv_ite (inv_sendNotice (inv_setResend h)) h)

/-! ## Masters that are let go -/

theorem inv_resetCore (h : s.Inv) : (resetCore s c).Inv := by
  unfold resetCore
  split
  · exact inv_killMotif h
  · exact h

theorem nextInv_execUnfreeze {kind master} (h : s.Inv) : NextInv (execUnfreeze kind master s) := by
  unfold execUnfreeze
  split
  · split
    · exact nextInv_next (inv_modCore (inv_resetCore h))
    · exact nextInv_next h
  · split
    · exact nextInv_next (inv_modCore (inv_resetCore h))
    · exact nextInv_next h
  · exact nextInv_next h
  · exact nextInv_next h
  · exact nextInv_next h

end Sys2Proof.Machine
end

section
/-! Memory tiers, time, commands of the host, starts and trust keep the form of memory (R389 to R431). -/
namespace Sys2Proof.Machine

set_option Elab.async false

variable {s : State} {c g n : Nat}

/-! ## Heat and moves of pages (R395 to R404) -/

theorem inv_dropTrans {ctx f} (h : s.Inv) : (dropTrans s ctx f).Inv := h
theorem inv_setMovingList {l} (h : s.Inv) : ({ s with moving := l } : State).Inv := h

theorem inv_endMove {m st code} (h : s.Inv) : (endMove s m st code).Inv :=
  inv_setMovingList (inv_physWrite _ _ (inv_physWrite _ _ h))

theorem inv_ckptEnd {st code} (h : s.Inv) : (ckptEnd s st code).Inv := h

theorem inv_setTiercap {w} (h : s.Inv) : ({ s with tiercap := w } : State).Inv := h

theorem nextInv_execCxlPortDown {port status} (h : s.Inv) : NextInv (execCxlPortDown port status s) := by
  unfold execCxlPortDown
  extract_lets s1 hit s2
  have h2 : s2.Inv := inv_foldl (fun _ _ h => inv_endMove h) (inv_putEvent (inv_setTiercap h))
  exact nextInv_ite (nextInv_next h) (nextInv_next (inv_ite (inv_ckptEnd h2) h2))

theorem inv_setHeatCount {l} (h : s.Inv) : ({ s with heatCount := l } : State).Inv := h

theorem nextInv_execHeatIncrement {die pa wr} (h : s.Inv) : NextInv (execHeatIncrement die pa wr s) := by
  unfold execHeatIncrement
  extract_lets key k s1
  have h1 : s1.Inv := inv_setHeatCount h
  refine nextInv_ite (nextInv_next h) ?_
  split
  · exact nextInv_next h
  · exact nextInv_ite (nextInv_next h1) (nextInv_ite (nextInv_next (inv_ite (inv_openMem _ _ h1) h1))
      (nextInv_next (inv_physWrite _ _ h1)))

theorem nextInv_execHeatTableBaseWrite {cxl v} (h : s.Inv) : NextInv (execHeatTableBaseWrite cxl v s) :=
  nextInv_ite (nextInv_next h) (nextInv_ite (nextInv_next h) (nextInv_next h))

theorem nextInv_execMigqbWrite {v} (h : s.Inv) : NextInv (execMigqbWrite v s) :=
  nextInv_ite (nextInv_next h) (nextInv_next h)

theorem nextInv_execMigqpTailWrite {v} (h : s.Inv) : NextInv (execMigqpTailWrite v s) :=
  nextInv_ite (nextInv_next h) (nextInv_next h)

theorem inv_setMigHead (h : s.Inv) : ({ s with migHead := n } : State).Inv := h

theorem inv_takeDesc {slot copyOp} (h : s.Inv) : (takeDesc s slot copyOp).Inv := by
  unfold takeDesc
  dsimp only
  refine inv_ite h ?_
  split
  · exact inv_endMove (inv_setMigHead h)
  · exact inv_setMovingList (inv_physWrite _ _ (inv_setMigHead h))

theorem inv_copyBlock {m i} (h : s.Inv) : (copyBlock s m i).Inv := by
  unfold copyBlock
  exact inv_physPaste _ _ _ _ h

theorem inv_redirect {m} (h : s.Inv) : (redirect s m).Inv := h

theorem inv_landHeld {m} (h : s.Inv) : (landHeld s m).Inv :=
  inv_foldl (fun _ _ h => inv_perform h) (inv_setIncoming h)

theorem inv_switchPage {m} (h : s.Inv) : (switchPage s m).Inv :=
  inv_openMem _ _ (inv_endMove (inv_landHeld (inv_redirect (inv_setMovingList
    (inv_dropTrans (inv_ite (inv_physWrite _ _ h) h))))))

theorem inv_setMoving {m} (h : s.Inv) : (setMoving s m).Inv := h

theorem inv_passEnd {m} (h : s.Inv) : (passEnd s m).Inv :=
  inv_ite (inv_endMove h) (inv_ite (inv_setMoving h) (inv_ite (inv_openMem _ _ (inv_endMove h)) (inv_setMoving h)))

theorem inv_migStep {slot copyOp} (h : s.Inv) : (migStep s slot copyOp).Inv := by
  unfold migStep
  split
  · exact inv_takeDesc h
  · refine inv_ite h ?_
    split
    · exact inv_copyBlock (inv_setMoving h)
    · exact inv_ite (inv_passEnd h) (inv_ite (inv_switchPage h) (inv_setMoving h))

theorem nextInv_execMove {slot} (h : s.Inv) : NextInv (execMove slot s) := nextInv_next (inv_migStep h)
theorem nextInv_execCopy {slot} (h : s.Inv) : NextInv (execCopy slot s) := nextInv_next (inv_migStep h)

/-! ## Checkpoints -/

theorem inv_ckptWrite {v} (h : s.Inv) : (ckptWrite s v).Inv := by
  unfold ckptWrite
  extract_lets s1 op s2
  have h2 : s2.Inv := h
  exact inv_ite h (inv_ite (inv_foldl (fun _ _ h => inv_setMotif h) h2) (inv_ite (inv_ckptEnd h2) h2))

theorem inv_copyRange {src dst} (h : s.Inv) : (copyRange s src dst n).Inv := by
  unfold copyRange
  exact inv_physPaste _ _ _ _ h

theorem inv_nextChunk (h : s.Inv) : (nextChunk s).Inv := h

theorem nextInv_execCheckpointSave (h : s.Inv) : NextInv (execCheckpointSave s) := by
  unfold execCheckpointSave
  refine nextInv_ite (nextInv_next h) ?_
  split
  · exact nextInv_next (inv_ckptEnd h)
  · exact nextInv_ite (nextInv_next (inv_nextChunk (inv_ite (inv_copyRange h) h)))
      (nextInv_next (inv_ckptEnd (inv_foldl (fun _ _ h => inv_physWrite _ _ h) (inv_physWrite _ _ h))))

theorem nextInv_execCheckpointRestore (h : s.Inv) : NextInv (execCheckpointRestore s) := by
  unfold execCheckpointRestore
  refine nextInv_ite (nextInv_next h) ?_
  split
  · exact nextInv_next (inv_ckptEnd h)
  · exact nextInv_ite (nextInv_next (inv_ckptEnd h)) (nextInv_ite (nextInv_next (inv_nextChunk (inv_copyRange h)))
      (nextInv_next (inv_ckptEnd (inv_openMem _ _ h))))

/-! ## Time passes -/

theorem inv_setIslFrz {l} (h : s.Inv) : ({ s with islFrz := l } : State).Inv := h
theorem inv_freezeCycle (h : s.Inv) : (freezeCycle s c).Inv := inv_setIslFrz (inv_modCore h)

theorem inv_coreCycle {job} (h : s.Inv) : (coreCycle s c job).Inv :=
  inv_ite (inv_freezeCycle (inv_modCore h)) (inv_modCore (inv_modCore h))

theorem inv_lfenceRetry (h : s.Inv) : (lfenceRetry s c g).Inv := inv_pushOps h

theorem inv_gangCycle (h : s.Inv) : (gangCycle s c g).Inv :=
  inv_gangSettle (inv_foldl (fun _ _ h => inv_nestRetry h) (inv_lfenceRetry (inv_modGang h)))

theorem inv_setTime {t} (h : s.Inv) : ({ s with time := t } : State).Inv := h

theorem inv_tickOnce (h : s.Inv) : (tickOnce s).Inv :=
  inv_foldl (fun _ _ h => inv_foldl (fun _ _ h => inv_ite (inv_gangCycle h) h) (inv_coreCycle h)) (inv_setTime h)

theorem inv_ticks (h : s.Inv) : (ticks n s).Inv := by
  induction n generalizing s with
  | zero => exact h
  | succ n ih => exact ih (inv_tickOnce h)

theorem nextInv_execPlimWindow (h : s.Inv) : NextInv (execPlimWindow c s) := nextInv_next (inv_modCore h)

theorem nextInv_execFreezeCycle (h : s.Inv) : NextInv (execFreezeCycle c s) :=
  nextInv_ite (nextInv_next (inv_tickOnce h)) (nextInv_next h)

theorem inv_setIslList {l} (h : s.Inv) : ({ s with isl := l } : State).Inv := h
theorem inv_setIsl {w} (h : s.Inv) : (setIsl s n w).Inv := inv_putEvent (inv_setIslList h)

theorem nextInv_execSetPlim {island win limit} (h : s.Inv) : NextInv (execSetPlim island win limit s) :=
  nextInv_ite (nextInv_next h) (nextInv_next (inv_setIsl (inv_foldl (fun _ _ h => inv_modCore h) h)))

theorem nextInv_execSetFrequency {island mhz} (h : s.Inv) : NextInv (execSetFrequency island mhz s) :=
  nextInv_ite (nextInv_next h) (nextInv_next (inv_setIsl h))

/-! ## Commands of the host -/

variable {fn block : Nat}

theorem inv_endCmd {code} (h : s.Inv) : (endCmd s fn block code).Inv := h

theorem inv_runCmd {op clean f} (h : s.Inv) (hf : f.Inv) : (runCmd s fn block op clean f).Inv :=
  inv_ite h (inv_ite (inv_endCmd h) hf)

theorem inv_setContexts {l} (h : s.Inv) : ({ s with contexts := l } : State).Inv := h

theorem inv_ctxCreate (h : s.Inv) : (ctxCreate s fn block).Inv :=
  inv_runCmd h (inv_ite (inv_endCmd h) (inv_ite (inv_endCmd h) (inv_ite (inv_endCmd h)
    (inv_endCmd (inv_setContexts (inv_physWrite _ _ h))))))

theorem inv_failDevQueue {ctx} (h : s.Inv) : (failDevQueue s ctx fn).Inv :=
  inv_foldl (fun _ _ h => inv_setStatus (inv_recWrite h)) h

theorem inv_quell {ctx} (h : s.Inv) : (quell s ctx fn).Inv := by
  unfold quell
  extract_lets ms s1 s2
  have h2 : s2.Inv := inv_foldl (fun _ _ h => inv_failLaunch h) (inv_failDevQueue h)
  exact h2

theorem inv_renewDups (h : s.Inv) : (renewDups s).Inv := h

theorem inv_ctxDestroy (h : s.Inv) : (ctxDestroy s fn block).Inv := by
  refine inv_runCmd h ?_
  split
  · exact inv_endCmd h
  · have h1 {x ctx} := inv_quell (fn := fn) (ctx := ctx) (inv_setContext (x := x) h)
    exact inv_ite h1 (inv_endCmd (inv_renewDups (inv_dropTrans (inv_setContexts h1))))

theorem inv_setQueues {l} (h : s.Inv) : ({ s with queues := l } : State).Inv := h

theorem inv_queueCreate (h : s.Inv) : (queueCreate s fn block).Inv :=
  inv_runCmd h (inv_ite (inv_endCmd h) (inv_ite (inv_endCmd h) (inv_endCmd (inv_setQueues h))))

theorem inv_queueDestroy (h : s.Inv) : (queueDestroy s fn block).Inv :=
  inv_runCmd h (inv_ite (inv_endCmd (inv_setQueues h)) (inv_endCmd h))

theorem inv_fnViolation {off acc} (h : s.Inv) : (fnViolation s fn off acc).Inv := inv_freezeMaster h

theorem inv_qtailWrite {q v} (h : s.Inv) : (qtailWrite s fn q v).Inv := by
  refine inv_ite h ?_
  split
  · exact h
  · exact inv_ite (inv_fnViolation h) (inv_ite h (inv_setQueues h))

theorem inv_setInvals {l} (h : s.Inv) : ({ s with invals := l } : State).Inv := h

theorem inv_invalidate (h : s.Inv) : (invalidate s fn block).Inv := by
  unfold invalidate
  dsimp only
  refine inv_runCmd h (inv_ite (inv_endCmd h) ?_)
  have h1 := fun {p : Bool} {ctx f} => inv_ite (p := p = true) h
    (inv_renewDups (inv_dropTrans (ctx := ctx) (f := f) h))
  exact inv_ite (inv_setInvals h1) (inv_endCmd (inv_setInvals h1))

/-! ## Doorbells -/

theorem inv_resumeMotif {m saved} (h : s.Inv) : (resumeMotif s m saved).Inv := inv_requestPreempt (inv_setMotif h)

theorem inv_resumeBell {v act} (h : s.Inv) : (resumeBell s fn v act).Inv := by
  refine inv_ite h ?_
  split
  · exact h
  · dsimp only
    split
    · exact inv_appendEntries h
    · refine inv_ite (inv_appendEntries h) ?_
      have h2 {x l pa bs} := inv_physWrite pa bs (inv_appendEntries (x := x) (l := l) h)
      exact inv_ite (inv_resumeMotif h2) (inv_ite (inv_resumeMotif h2) (inv_killMotif h2))

theorem inv_haltBell {v} (h : s.Inv) : (haltBell s fn v).Inv := by
  refine inv_ite h ?_
  split
  · exact h
  · split
    · exact h
    · refine inv_ite (inv_raiseTrap _ _ h) ?_
      split
      · exact inv_ite (inv_setCore h) h
      · exact h

/-! ## Capture and replay -/

theorem inv_capWrite {v} (h : s.Inv) : (capWrite s v).Inv := by
  unfold capWrite
  extract_lets w s1 s2
  have h2 : s2.Inv := inv_ite h h
  exact inv_ite h (inv_ite h2 h2)

theorem inv_putBack {ctx id q l} (h : s.Inv) : (putBack ctx id q l s).2.Inv := by
  induction l generalizing s q with
  | nil => exact h
  | cons e rest ih =>
    obtain ⟨va, bs⟩ := e
    rw [putBack]
    split
    · exact ih h
    · exact inv_ite_snd (inv_ite_snd (ih h) (inv_ite_snd (inv_postReq h) (ih (inv_postReq h))))
        (ih (inv_mappedWrite h))

theorem inv_of_putBack {ctx id q l b} {t : State} (h : s.Inv) (ht : putBack ctx id q l s = (b, t)) : t.Inv := by
  rw [show t = (putBack ctx id q l s).2 by rw [ht]]
  exact inv_putBack h

theorem nextInv_execReplay (h : s.Inv) : NextInv (execReplay s) := by
  unfold execReplay
  refine nextInv_ite (nextInv_next h) ?_
  split
  · dsimp only
    split
    · next heq => exact nextInv_next (inv_of_putBack h heq)
    · next heq => exact nextInv_next (inv_newLaunch ((inv_of_putBack h heq).of_mem rfl))
  · exact nextInv_next h

/-! ## Registers of the host -/

theorem inv_hcmdWrite {v} (h : s.Inv) : (hcmdWrite s fn v).Inv := inv_ite h (inv_ite h h)
theorem inv_resumeAny {v} (h : s.Inv) : (resumeAny s fn v).Inv := inv_resumeBell (inv_resumeBell (inv_resumeBell h))

theorem inv_hostWrite {off v} (h : s.Inv) : (hostWrite s fn off v).Inv := by
  unfold hostWrite
  refine inv_ite h (inv_ite (inv_fnViolation h) ?_)
  refine inv_ite (inv_resumeAny h) (inv_ite (inv_haltBell h) (inv_ite (inv_hcmdWrite h)
    (inv_ite (inv_qtailWrite h) ?_)))
  refine inv_ite h (inv_ite h ?_)
  refine inv_ite (inv_ite h h) ?_
  refine inv_ite h (inv_ite h ?_)
  refine inv_ite (inv_ckptWrite h) (inv_ite (inv_capWrite h) ?_)
  exact inv_ite h (inv_ite h h)

theorem inv_setHostReplies {l} (h : s.Inv) : ({ s with hostReplies := l } : State).Inv := h

theorem inv_hostAsk {off} (h : s.Inv) : (hostAsk s fn off).Inv := by
  unfold hostAsk
  exact inv_ite (inv_setHostReplies h) (inv_ite (inv_setHostReplies (inv_fnViolation h)) (inv_setHostReplies h))

/-! ## Starts -/

theorem inv_presentAs {form st failed minimal} (h : s.Inv) : (presentAs s form st failed minimal).Inv := h

/-- A reset keeps global memory. -/
theorem inv_afterReset (h : s.Inv) : (afterReset s).Inv := h.of_mem rfl

theorem inv_failStart {minimal die stage reason failDie} (h : s.Inv) :
    (failStart s minimal die stage reason failDie).Inv := inv_presentAs (inv_afterReset h)

theorem inv_reportCxl {port p} (h : s.Inv) : (reportCxl s port p).Inv := by
  unfold reportCxl
  split
  · exact inv_putEvent h
  · exact h

theorem inv_completeStart {minimal cxl0 cxl1} (h : s.Inv) : (completeStart s minimal cxl0 cxl1).Inv :=
  inv_ite h (inv_reportCxl (inv_reportCxl h))

theorem inv_runStart {form st reasons loaded failDie cxl0 cxl1} (h : s.Inv) :
    (runStart s form st reasons loaded failDie cxl0 cxl1).Inv := by
  unfold runStart
  extract_lets minimal why s0 s1
  have h1 : s1.Inv := inv_presentAs (inv_afterReset h)
  split
  · exact inv_failStart h1
  · exact inv_ite h1 (inv_completeStart h1)

theorem nextInv_execStart {form st run failDie cxl0 cxl1} (h : s.Inv) :
    NextInv (execStart form st run failDie cxl0 cxl1 s) := nextInv_next (inv_runStart h)

theorem nextInv_execStageTimeout {stage} (h : s.Inv) : NextInv (execStageTimeout stage s) :=
  nextInv_ite (nextInv_next h) (nextInv_next (inv_failStart h))

/-! ## Errors and trust -/

theorem inv_startTest {blockType} (h : s.Inv) : (startTest s block blockType).Inv := h

theorem inv_poisonAt {space unit addr} (h : s.Inv) : (poisonAt s space unit addr).Inv := by
  unfold poisonAt
  dsimp only
  split
  · exact inv_ite h h
  · exact inv_modCore h
  · exact h
  · exact h

theorem inv_setRowret {l} (h : s.Inv) : ({ s with rowret := l } : State).Inv := h
theorem inv_setRetired {l} (h : s.Inv) : ({ s with retired := l } : State).Inv := h

theorem inv_retire {blockType detail} (h : s.Inv) : (retire s block blockType detail).Inv := by
  unfold retire
  split
  · exact inv_putEvent (inv_ite (inv_setRetired h) h)
  · exact inv_ite (inv_putEvent h) (inv_ite (inv_putEvent h) (inv_putEvent (inv_setRowret h)))
  · exact inv_putEvent (inv_setPort h)
  · exact inv_putEvent h

theorem nextInv_execCorrectedError {blockType} (h : s.Inv) : NextInv (execCorrectedError block blockType s) :=
  nextInv_next (inv_startTest (inv_putEvent h))

theorem nextInv_execUncorrectedError {space unit addr blockType} (h : s.Inv) :
    NextInv (execUncorrectedError space unit addr blockType s) :=
  nextInv_next (inv_startTest (inv_putEvent (inv_poisonAt h)))

theorem inv_setTests {l} (h : s.Inv) : ({ s with tests := l } : State).Inv := h

theorem nextInv_execSelfTest {blockType lasting detail} (h : s.Inv) :
    NextInv (execSelfTest block blockType lasting detail s) := by
  unfold execSelfTest
  split
  · exact nextInv_next h
  · exact nextInv_next (inv_ite (inv_retire (inv_setTests h)) (inv_putEvent (inv_setTests h)))

theorem nextInv_execRowRetirementRemove {stack count} (h : s.Inv) : NextInv (execRowRetirementRemove stack count s) :=
  nextInv_ite (nextInv_next h) (nextInv_next h)

theorem nextInv_execFuseRaise {cls count} (h : s.Inv) : NextInv (execFuseRaise cls count s) :=
  nextInv_ite (nextInv_next h) (nextInv_next h)

theorem nextInv_execCodeSigningKeyInstall {slot key} (h : s.Inv) : NextInv (execCodeSigningKeyInstall slot key s) :=
  nextInv_ite (nextInv_next h) (nextInv_next h)

theorem nextInv_execAttestation {nonce ctx} (h : s.Inv) : NextInv (execAttestation nonce ctx s) :=
  nextInv_ite (nextInv_next h) (nextInv_next h)

end Sys2Proof.Machine
end

section
/-! A step keeps the form of memory: every instruction and event, every turn, a whole step. -/
namespace Sys2Proof.Machine

set_option Elab.async false

variable {s t : State} {c g n : Nat}

/-! ## Instructions and events -/

/-- The instructions of a bundle go by `semOf`, those of a lane by the few ways in which a batch issues. -/
theorem nextInv_exec (i : Instr) (h : s.Inv) : NextInv (exec i s) := by
  cases i with
  | bundleIssue => exact nextInv_next (inv_bundleAt h)
  | nullBundle => exact nextInv_next (inv_issueBundle (List.forall_mem_nil _) h)
  | lnop | movi | movhi | mov | movd | sel | iop | iopi | imad | ibit | bfx | bfi | icmp | icmpi | plop | pmov | iop64
  | icmp64 | fcmp | dcmp => rw [exec]; exact nextInv_laneEach h
  | fop | ffma | funop | dop | dfma | dun | cvt | sfu => rw [exec]; exact nextInv_laneFloat h
  | hop | hfma => rw [exec]; exact nextInv_lanePacked h
  | bra | brx | laneCall | callx | laneRet => rw [exec]; exact nextInv_laneJump h
  | vote | shfl | scan | lred => rw [exec]; exact nextInv_collective h
  | ld | ldts | ldtp | ldpeer | lwait | atom | atomts | cas | casts => rw [exec]; exact nextInv_startOp h
  | st | stts | sttp | stpeer => rw [exec]; exact nextInv_laneStoreIssue h
  | lid => exact nextInv_execLid h
  | idiv => exact nextInv_execIdiv h
  | isat => exact nextInv_execIsat h
  | lbrk => exact nextInv_execLbrk h
  | lfence => exact nextInv_execLfence h
  | lfork => exact nextInv_execLfork h
  | ljoin => exact nextInv_execLjoin h
  | spawn => exact nextInv_execSpawn h
  | quit => exact nextInv_execQuit h
  | role => exact nextInv_execRole h
  | lbar => exact nextInv_execLbar h
  | tissue => exact nextInv_execTissue h
  | loadResult => exact nextInv_next (inv_loadResult h)
  | lwaitTimeout => exact nextInv_execLwaitTimeout h
  | waitsTimeout => exact nextInv_next (inv_ite (inv_modCore h) h)
  | barComplete => exact nextInv_next (inv_barDone h)
  | storeLands => exact nextInv_next (inv_landOne h)
  | mmahFetchComplete => exact nextInv_execMmahFetchComplete h
  | arrayCommandComplete => exact nextInv_execArrayCommandComplete h
  | mzeroBusyEnd => exact nextInv_execMzeroBusyEnd h
  | leaseTermEnd => exact nextInv_execLeaseTermEnd h
  | transferPiece => exact nextInv_execTransferPiece h
  | commandCompletion => exact nextInv_execCommandCompletion h
  | sCommandCompletion => exact nextInv_execSCommandCompletion h
  | motifPlace => exact nextInv_execMotifPlace h
  | classAging => exact nextInv_execClassAging h
  | preemptTimeout => exact nextInv_execPreemptTimeout h
  | motifHalt => exact nextInv_execMotifHalt h
  | swapOut => exact nextInv_execSwapOut h
  | faultRingRetry => exact nextInv_execFaultRingRetry h
  | motifReentry => exact nextInv_execMotifReentry h
  | tileRefill => exact nextInv_execTileRefill h
  | motifDone => exact nextInv_execMotifDone h
  | launchRecordAccept => exact nextInv_execLaunchRecordAccept h
  | launchEligible => exact nextInv_execLaunchEligible h
  | remoteInstance => exact nextInv_execRemoteInstance h
  | crossDeviceReserve => exact nextInv_execCrossDeviceReserve h
  | capture => exact nextInv_execCapture h
  | flitReceive => exact nextInv_execFlitReceive h
  | linkRetrain => exact nextInv_execLinkRetrain h
  | linkPortStateChange => exact nextInv_execLinkPortStateChange h
  | routeTableLoad => exact nextInv_execRouteTableLoad h
  | remoteRequest => exact nextInv_execRemoteRequest h
  | fabricResponse => exact nextInv_execFabricResponse h
  | fabricTimeout => exact nextInv_execFabricTimeout h
  | handleNotice => exact nextInv_execHandleNotice h
  | handleNoticeArrival => exact nextInv_execHandleNoticeArrival h
  | noticeResend => exact nextInv_execNoticeResend h
  | unfreeze => exact nextInv_execUnfreeze h
  | cxlPortDown => exact nextInv_execCxlPortDown h
  | heatIncrement => exact nextInv_execHeatIncrement h
  | heatTableBaseWrite => exact nextInv_execHeatTableBaseWrite h
  | migqbWrite => exact nextInv_execMigqbWrite h
  | migqpTailWrite => exact nextInv_execMigqpTailWrite h
  | move => exact nextInv_execMove h
  | copy => exact nextInv_execCopy h
  | checkpointSave => exact nextInv_execCheckpointSave h
  | checkpointRestore => exact nextInv_execCheckpointRestore h
  | plimWindow => exact nextInv_execPlimWindow h
  | freezeCycle => exact nextInv_execFreezeCycle h
  | setPlim => exact nextInv_execSetPlim h
  | setFrequency => exact nextInv_execSetFrequency h
  | start => exact nextInv_execStart h
  | stageTimeout => exact nextInv_execStageTimeout h
  | ctxCreate => exact nextInv_next (inv_ctxCreate h)
  | ctxDestroy => exact nextInv_next (inv_ctxDestroy h)
  | queueCreate => exact nextInv_next (inv_queueCreate h)
  | queueDestroy => exact nextInv_next (inv_queueDestroy h)
  | invalidate => exact nextInv_next (inv_invalidate h)
  | qtailWrite => exact nextInv_next (inv_qtailWrite h)
  | resume | resumeAndStepOver | kill => exact nextInv_next (inv_resumeBell h)
  | haltDoorbell => exact nextInv_next (inv_haltBell h)
  | replay => exact nextInv_execReplay h
  | hostRegisterWrite => exact nextInv_next (inv_hostWrite h)
  | correctedError => exact nextInv_execCorrectedError h
  | uncorrectedError => exact nextInv_execUncorrectedError h
  | selfTest => exact nextInv_execSelfTest h
  | attestation => exact nextInv_execAttestation h
  | fuseRaise => exact nextInv_execFuseRaise h
  | codeSigningKeyInstall => exact nextInv_execCodeSigningKeyInstall h
  | rowRetirementRemove => exact nextInv_execRowRetirementRemove h
  | cxlBackInvalidate | clearFailedStarts | certificateChainRead | minimalModeForce | translationSignature =>
    exact nextInv_next h
  | _ => exact nextInv_exec_slot rfl h

/-! ## The loader -/

theorem inv_placeObj {x plan parts} (h : s.Inv) : (placeObj s x plan parts).Inv :=
  inv_mappedWrite (inv_foldl (fun _ _ h => inv_mappedWrite h) (inv_foldl (fun _ _ h => inv_mappedWrite h) h))

theorem inv_loadObj {ctx bs plan} (h : s.Inv) : (loadObj s ctx bs plan).Inv := by
  unfold loadObj
  split
  · exact h
  · exact inv_ite h (inv_setContext (inv_placeObj h))

/-! ## A sequencer or a gang moves -/

theorem nextInv_seqMove (h : s.Inv) : NextInv (seqMove s c) := by
  refine nextInv_ite (nextInv_exec .bundleIssue h) ?_
  split
  · exact nextInv_exec _ (inv_cacheFetch h)
  · exact nextInv_exec .bundleIssue h

theorem inv_keepLaneLine {pc bs} (h : s.Inv) : (keepLaneLine s c pc bs).Inv := inv_keepVa (inv_modCore h)

theorem nextInv_gangMove (h : s.Inv) : NextInv (gangMove s c g) := by
  unfold gangMove
  dsimp only
  split
  · exact nextInv_next h
  · split
    · exact nextInv_next (inv_askLoad h)
    · exact nextInv_next (inv_raiseTrap _ _ h)
    · exact nextInv_next (inv_takeStop h)
    · split
      · exact nextInv_next (inv_raiseTrap _ _ h)
      · exact nextInv_exec _ (inv_keepLaneLine h)

theorem inv_setFocus {f} (h : s.Inv) : ({ s with focus := f } : State).Inv := h

theorem nextInv_gangTurn (h : s.Inv) : NextInv (gangTurn s c g) := by
  unfold gangTurn
  split
  · exact nextInv_gangMove h
  · exact nextInv_gangMove (inv_modCore (inv_setFocus h))

theorem nextInv_moveFocus (h : s.Inv) : NextInv (moveFocus s) := by
  unfold moveFocus
  split
  · exact nextInv_ite (nextInv_seqMove h) (nextInv_next (inv_tickOnce h))
  · exact nextInv_ite (nextInv_gangTurn h) (nextInv_next (inv_tickOnce h))

/-! ## Turns -/

theorem inv_evict {kind line} (h : s.Inv) : (evict s c kind line).Inv := inv_modCore h

theorem inv_prefetch {kind line} (h : s.Inv) : (prefetch s c kind line).Inv := by
  refine inv_ite (inv_keepVa (inv_cacheLine h)) ?_
  split
  · exact inv_keepLaneLine h
  · exact h

theorem inv_readAhead {ag o sp a} (h : s.Inv) : (readAhead s c ag o sp a n).Inv := by
  unfold readAhead
  dsimp only
  refine inv_ite h ?_
  split
  · exact inv_modCore h
  · exact h

theorem inv_grantRanges {ctx ranges} (h : s.Inv) : (grantRanges s ctx ranges).Inv := by
  unfold grantRanges
  split
  · exact h
  · exact inv_setContext h

theorem inv_setHostTouched {l} (h : s.Inv) : ({ s with hostTouched := l } : State).Inv := h

theorem inv_hostDma {pa bs} (h : s.Inv) : (hostDma s pa bs).Inv :=
  inv_ite h (inv_ite h (inv_mappedWrite (inv_ite (inv_setHostTouched h) h)))

theorem nextInv_runTurn (x : Turn) (h : s.Inv) : NextInv (runTurn x s) := by
  cases x with
  | focus | farArrive | remoteToken | hostMem | exports => exact nextInv_next h
  | event i => exact nextInv_ite (nextInv_next h) (nextInv_exec i h)
  | tick => exact nextInv_next (inv_ticks h)
  | evict => exact nextInv_next (inv_evict h)
  | prefetch => exact nextInv_next (inv_prefetch h)
  | ahead => exact nextInv_next (inv_readAhead h)
  | grant => exact nextInv_next (inv_grantRanges h)
  | remotePart => exact nextInv_next (inv_remotePart h)
  | hostWrite => exact nextInv_next (inv_hostDma h)
  | hostRead => exact nextInv_next (inv_hostAsk h)
  | load => exact nextInv_next (inv_loadObj h)

/-! ## The step -/

theorem inv_unveil (h : s.Inv) : (unveil s).Inv :=
  inv_foldl (fun _ _ h => inv_ite (inv_landThese _ _ h) h) h

theorem inv_before (h : s.Inv) : (before s).Inv := inv_unveil (inv_ite (inv_landRest h) h)

theorem nextInv_watched {o : Out} (ho : NextInv o) : NextInv (watched s o) := by
  unfold watched
  split
  · exact nextInv_next (inv_lwaitWatch (inv_waitsWatch (ho _ rfl)))
  · exact ho

theorem inv_setTurns {l} (h : s.Inv) : ({ s with turns := l } : State).Inv := h

theorem nextInv_move (h : s.Inv) : NextInv (move s) := by
  unfold move
  refine nextInv_watched ?_
  split
  · exact nextInv_runTurn _ (inv_setTurns (inv_before h))
  · exact nextInv_moveFocus (inv_before h)

/-- Settles O60: only writes of bytes and copies of blocks change memory, and both keep its canonical form; every part
of a step is made of these and of changes elsewhere. -/
theorem invariantKept : Obligations.InvariantKept := by
  unfold Obligations.InvariantKept
  exact fun _ t h ht => nextInv_move h t ht

end Sys2Proof.Machine
end
